-- ==== Sys2Proof/Word.lean ====
section
/-!
DEFINITION. The word types of the machine and the type of a sparse store.

A quantity that the manual adds, shifts, masks or lets software see as a word is a bit vector of the manual's width
(spec/00_scope.md R4, R10). A store is a list of numbered entries in one canonical form; its operations stand in
Sys2Proof/Machine/Store.lean.
-/

namespace Sys2Proof

/-- A byte. -/
abbrev W8 := BitVec 8
/-- A 16-bit half word. -/
abbrev W16 := BitVec 16
/-- A register of a lane (spec/04_registers_encoding.md R85). -/
abbrev W32 := BitVec 32
/-- A slot word, an address, a pair of registers (R86, R95). -/
abbrev W64 := BitVec 64
/-- A 128-bit record field. -/
abbrev W128 := BitVec 128
/-- A 64-byte record: a task record, a message, a ring slot (13 R358, R365, R369). -/
abbrev W512 := BitVec 512
/-- The lanes of a warp, bit n for LANE n (07 R168). -/
abbrev Lanes := BitVec 64

/-- Sparse data by number: strictly rising numbers, and no entry equal to what an unlisted number reads as. -/
abbrev Store (α : Type) := List (Nat × α)

end Sys2Proof
end

