-- ==== Sys2Proof/Syntax.lean ====
section
/-!
DEFINITION. The instructions as syntax: the 152 encoded forms of the opcode map (spec/04_registers_encoding.md R118), the
pair word (R103, R104), and the steps of the device that have no encoding (spec/opcode_table.json), each one constructor
of `Instr`.
-/

namespace Sys2Proof

/-- The type codes of R101, in code order 0x0 to 0xD. -/
inductive Ty where
  | i32 | n32 | i64 | n64 | i16 | n16 | i8 | n8 | f32 | f16 | bf16 | e4m3 | e5m2 | i4
  deriving DecidableEq, Repr

/-- The rounding modes of R100 and R127, in code order. -/
inductive Rnd where
  | rne | rtz | rdn | rup
  deriving DecidableEq, Repr

/-- The scope codes of R100: 0b110 is reserved and has no constructor, `plain` is 0b111. -/
inductive Scope where
  | grp | core | clu | dev | sys | rem | plain
  deriving DecidableEq, Repr

/-- The order codes of R100. -/
inductive Order where
  | rlx | acq | rel | ar
  deriving DecidableEq, Repr

/-- The space codes of R100: global, scratchpad, record. -/
inductive Space where
  | g | s | k
  deriving DecidableEq, Repr

/-- The three streams of a group (R59). -/
inductive Strm where
  | e | a | m
  deriving DecidableEq, Repr

/-- The special operands of R92, in code order 0x3C9 to 0x3D9. -/
inductive Special where
  | lane | tidX | tidY | tidZ | gidX | gidY | gidZ | wid | nwarp | width | quad | qlane | core | clu
  | taskid | cycleLo | cycleHi
  deriving DecidableEq, Repr

/-- What a 10-bit operand code of a full word names (R90). -/
inductive Operand where
  /-- v0 to v767 -/
  | v (n : Fin 768)
  /-- o0 to o31 -/
  | o (n : Fin 32)
  /-- h0 to h3 -/
  | h (n : Fin 4)
  /-- s0 to s63 of the issuing stream -/
  | s (n : Fin 64)
  /-- g0 to g31 -/
  | g (n : Fin 32)
  /-- an inline constant (R91) -/
  | k (n : Fin 32)
  /-- q0 to q7 -/
  | q (n : Fin 8)
  /-- the back-queue -/
  | qb
  /-- a special operand (R92) -/
  | sp (x : Special)
  /-- LIT.lo, LIT.hi and LIT64 (R94) -/
  | litLo | litHi | lit64
  /-- 0x3FF: reads zero, discards, or an unused field (R90, R99) -/
  | null
  deriving DecidableEq, Repr

/-- What every full word carries: guard, literal word if it names one, and its operand fields (R98). A field the form
does not use, or uses for something else than an operand, is `null` here. -/
structure Full where
  neg : Bool
  guard : Fin 8
  lit : Option W64
  d : Operand
  a : Operand
  b : Operand
  c : Operand
  deriving DecidableEq, Repr

/-- MOD of the integer, floating-point, helper and conversion classes (R100). -/
structure AluMod where
  var : BitVec 3
  sat : Bool
  rnd : Rnd
  ty : Ty
  deriving DecidableEq, Repr

/-- MOD of the memory forms (R100). -/
structure MemMod where
  hint : BitVec 2
  fr : Bool
  scope : Scope
  order : Order
  space : Space
  deriving DecidableEq, Repr

/-- The pair opcodes of R104 other than no operation. -/
inductive PairOp where
  | mov | iadd | isub | and | or | xor | shl | shr | sar | imin | imax
  | fadd | fsub | fmul | fmin | fmax | hadd2 | hmul2 | movF
  deriving DecidableEq, Repr

/-- What an 8-bit operand code of a pair half names (R93). -/
inductive POperand where
  | v (n : Fin 128)
  | o (n : Fin 32)
  | h (n : Fin 4)
  | s (n : Fin 32)
  | k (n : Fin 32)
  deriving DecidableEq, Repr

/-- One half of a pair word (R103). -/
inductive Half where
  | nop
  | op (pop : PairOp) (rnd : Rnd) (neg : Bool) (guard : Fin 8) (d src : POperand)
  deriving DecidableEq, Repr

/-- The windows software writes registers and tables through. -/
inductive Window where
  /-- the hypervisor window (20 R456) -/
  | hyper
  /-- the management window (21 R483) -/
  | mgmt
  /-- the control window of a partition, written by a logical control core of it (20 R459) -/
  | ctl (part hart : Nat)
  /-- the enqueue window of a partition (13 R359) -/
  | enq (part : Nat)
  deriving DecidableEq, Repr

/-- The security core's call windows (20 R472): the hypervisor's, or a partition's. -/
inductive CallWin where
  | hyper
  | part (p : Nat)
  deriving DecidableEq, Repr

/-- Operands of LAYER (14 R380). -/
structure LayerArgs where
  layer : Nat
  src : W64
  width : Nat
  height : Nat
  pitch : Nat
  fmt : Nat
  x : Nat
  y : Nat
  blend : Nat
  deriving DecidableEq, Repr, Inhabited

/-- Operands of FRAME (14 R380). -/
structure FrameArgs where
  out : W64
  pitch : Nat
  width : Nat
  height : Nat
  rate : Nat
  counter : W64
  deriving DecidableEq, Repr, Inhabited

/-- Operands of ENCODE (14 R380). -/
structure EncodeArgs where
  head : Nat
  codec : Nat
  kbps : Nat
  keyInt : Nat
  ring : W64
  size : Nat
  offWord : W64
  deriving DecidableEq, Repr, Inhabited

/-- The host link, or the path to a peer module (21 R485). -/
inductive Link where
  | host
  | peer (n : Fin 64)
  deriving DecidableEq, Repr

/-- A unit whose errors are counted and that a spare can stand in for (21 R496, R498). -/
inductive UnitKind where
  | cluster | copyEngine | slice | bank | controlCore | lane
  deriving DecidableEq, Repr

/-- A unit by kind and physical number. -/
structure UnitId where
  kind : UnitKind
  num : Nat
  deriving DecidableEq, Repr

/-- Where an uncorrectable error strikes (21 R496): a sector of device memory by physical byte address, a sector of a
group's scratchpad window, or a sector of the k-th line of an L1 or a cluster cache. -/
inductive ErrLoc where
  | dev (addr : Nat)
  | scratch (grp off : Nat)
  | l1 (core line sector : Nat)
  | clu (cluster line sector : Nat)
  deriving DecidableEq, Repr

/-- Who makes a request on a port (20 R464): the host through a function, or a peer module on a partition's stream. -/
inductive PortAgent where
  | fn (n : Nat)
  | peer (n : Fin 64) (part : Nat)
  deriving DecidableEq, Repr

/-- A request on a port: a read of `size` bytes or a write of `data`, optionally on a stream keyed from a key slot. -/
structure PortReq where
  agent : PortAgent
  addr : Nat
  write : Bool
  size : Nat
  data : List W8
  keySlot : Option Nat
  deriving DecidableEq, Repr

/-- A control core's access (08 R217). -/
inductive CoreOp where
  | load | store | lr | sc
  | swap | add | and | or | xor | min | max | minu | maxu
  deriving DecidableEq, Repr

/-- A control core's access, with what its fences and its .aq and .rl bits make it (08 R217). -/
structure CoreAccess where
  part : Nat
  hart : Nat
  op : CoreOp
  addr : Nat
  size : Nat
  data : W64
  rel : Bool
  acq : Bool
  deriving DecidableEq, Repr

/-- One constructor for each row of spec/opcode_table.json. -/
inductive Instr where
  /-- IADD (R149) -/
  | iadd (f : Full) (m : AluMod)
  /-- ISUB (R149) -/
  | isub (f : Full) (m : AluMod)
  /-- IADDC (R149) -/
  | iaddc (f : Full) (m : AluMod)
  /-- ISUBB (R149) -/
  | isubb (f : Full) (m : AluMod)
  /-- IMUL (R149) -/
  | imul (f : Full) (m : AluMod)
  /-- IMULHI (R149) -/
  | imulhi (f : Full) (m : AluMod)
  /-- IMAD (R149) -/
  | imad (f : Full) (m : AluMod)
  /-- IMADW (R149) -/
  | imadw (f : Full) (m : AluMod)
  /-- IABS (R149) -/
  | iabs (f : Full) (m : AluMod)
  /-- INEG (R149) -/
  | ineg (f : Full) (m : AluMod)
  /-- IMIN (R149) -/
  | imin (f : Full) (m : AluMod)
  /-- IMAX (R149) -/
  | imax (f : Full) (m : AluMod)
  /-- ICMP (R149) -/
  | icmp (f : Full) (m : AluMod) (p : Fin 8)
  /-- ISEL (R149) -/
  | isel (f : Full) (m : AluMod) (p : Fin 8)
  /-- AND (R149) -/
  | and (f : Full) (m : AluMod)
  /-- OR (R149) -/
  | or (f : Full) (m : AluMod)
  /-- XOR (R149) -/
  | xor (f : Full) (m : AluMod)
  /-- ANDN (R149) -/
  | andn (f : Full) (m : AluMod)
  /-- TLOG (R149) -/
  | tlog (f : Full) (tab : BitVec 8)
  /-- SHL (R149) -/
  | shl (f : Full) (m : AluMod)
  /-- SHR (R149) -/
  | shr (f : Full) (m : AluMod)
  /-- SAR (R149) -/
  | sar (f : Full) (m : AluMod)
  /-- FSH (R149) -/
  | fsh (f : Full) (m : AluMod)
  /-- BFE (R149) -/
  | bfe (f : Full) (m : AluMod)
  /-- BFI (R149) -/
  | bfi (f : Full) (m : AluMod)
  /-- POPC (R149) -/
  | popc (f : Full) (m : AluMod)
  /-- CLZ (R149) -/
  | clz (f : Full) (m : AluMod)
  /-- BREV (R149) -/
  | brev (f : Full) (m : AluMod)
  /-- BMIX (R149) -/
  | bmix (f : Full) (m : AluMod)
  /-- FADD (R151) -/
  | fadd (f : Full) (m : AluMod)
  /-- FSUB (R151) -/
  | fsub (f : Full) (m : AluMod)
  /-- FMUL (R151) -/
  | fmul (f : Full) (m : AluMod)
  /-- FFMA (R151) -/
  | ffma (f : Full) (m : AluMod)
  /-- FMIN (R152) -/
  | fmin (f : Full) (m : AluMod)
  /-- FMAX (R152) -/
  | fmax (f : Full) (m : AluMod)
  /-- FCMP (R153) -/
  | fcmp (f : Full) (m : AluMod) (p : Fin 8)
  /-- FRND (R154) -/
  | frnd (f : Full) (m : AluMod)
  /-- FCLASS (R154) -/
  | fclass (f : Full) (m : AluMod)
  /-- FCPSGN (R154) -/
  | fcpsgn (f : Full) (m : AluMod)
  /-- HADD2 (R151) -/
  | hadd2 (f : Full) (m : AluMod)
  /-- HMUL2 (R151) -/
  | hmul2 (f : Full) (m : AluMod)
  /-- HFMA2 (R151) -/
  | hfma2 (f : Full) (m : AluMod)
  /-- HMIN2 (R152) -/
  | hmin2 (f : Full) (m : AluMod)
  /-- HMAX2 (R152) -/
  | hmax2 (f : Full) (m : AluMod)
  /-- FRCPS (R156) -/
  | frcps (f : Full) (m : AluMod)
  /-- FRSQS (R156) -/
  | frsqs (f : Full) (m : AluMod)
  /-- FEXPR (R157) -/
  | fexpr (f : Full) (m : AluMod)
  /-- FSCALE (R155) -/
  | fscale (f : Full) (m : AluMod)
  /-- FGETEXP (R158) -/
  | fgetexp (f : Full) (m : AluMod)
  /-- FGETMAN (R158) -/
  | fgetman (f : Full) (m : AluMod)
  /-- FLOGR (R158) -/
  | flogr (f : Full) (m : AluMod)
  /-- FSINR (R159) -/
  | fsinr (f : Full) (m : AluMod)
  /-- FDIVFX (R160) -/
  | fdivfx (f : Full) (m : AluMod)
  /-- FSQRTFX (R160) -/
  | fsqrtfx (f : Full) (m : AluMod)
  /-- CVT (R161) -/
  | cvt (f : Full) (m : AluMod) (src : Ty)
  /-- PK2 (R162) -/
  | pk2 (f : Full) (m : AluMod)
  /-- UPK2 (R162) -/
  | upk2 (f : Full) (m : AluMod)
  /-- PK8 (R162) -/
  | pk8 (f : Full) (m : AluMod)
  /-- UPK8 (R162) -/
  | upk8 (f : Full) (m : AluMod)
  /-- PK4 (R162) -/
  | pk4 (f : Full) (m : AluMod)
  /-- UPK4 (R162) -/
  | upk4 (f : Full) (m : AluMod)
  /-- MOV (R163) -/
  | mov (f : Full) (m : AluMod)
  /-- PAIR_WORD (R105) -/
  | pairWord (h0 h1 : Half)
  /-- SHFL (R169) -/
  | shfl (f : Full) (mode : BitVec 2) (seg : BitVec 3) (wide : Bool)
  /-- VOTE (R170) -/
  | vote (f : Full) (mode : BitVec 2) (pd pa : Fin 8)
  /-- BALLOT (R170) -/
  | ballot (f : Full) (wide : Bool) (pa : Fin 8)
  /-- MBCNT (R170) -/
  | mbcnt (f : Full)
  /-- REDUX (R171) -/
  | redux (f : Full) (op : BitVec 3) (ty : Ty)
  /-- MATCH (R172) -/
  | matchv (f : Full) (all wide : Bool)
  /-- QSWAP (R174) -/
  | qswap (f : Full) (dir : BitVec 2)
  /-- QBCST (R174) -/
  | qbcst (f : Full) (k : BitVec 2)
  /-- DPDX (R174) -/
  | dpdx (f : Full) (fine : Bool)
  /-- DPDY (R174) -/
  | dpdy (f : Full) (fine : Bool)
  /-- WJOIN (R173) -/
  | wjoin (f : Full)
  /-- PSET (R175) -/
  | pset (f : Full) (op : BitVec 2) (pd pa pb : Fin 8)
  /-- PMOV (R175) -/
  | pmov (f : Full) (wr : Bool)
  /-- BR (R176) -/
  | br (f : Full) (off : BitVec 30)
  /-- BRALL (R176) -/
  | brall (f : Full) (any : Bool) (off : BitVec 30)
  /-- JMPI (R176) -/
  | jmpi (f : Full)
  /-- CALL (R177) -/
  | call (f : Full) (off : BitVec 30)
  /-- CALLI (R177) -/
  | calli (f : Full)
  /-- RET (R176) -/
  | ret (f : Full)
  /-- EXIT (R179) -/
  | exit (f : Full)
  /-- TRAP (R180) -/
  | trap (f : Full) (bkpt : Bool) (imm : BitVec 10)
  /-- UPCALL (R181) -/
  | upcall (f : Full)
  /-- YIELD (R182) -/
  | yield (f : Full) (imm : BitVec 10)
  /-- WDOG (R183) -/
  | wdog (f : Full)
  /-- RGRP (R52) -/
  | rgrp (f : Full)
  /-- NOP (R185) -/
  | nop (f : Full)
  /-- BAR_SYNC (R187) -/
  | barSync (f : Full) (n : Fin 16)
  /-- BAR_ARRIVE (R187) -/
  | barArrive (f : Full) (n : Fin 16)
  /-- BAR_WAIT (R188) -/
  | barWait (f : Full) (n : Fin 16)
  /-- CBAR (R191) -/
  | cbar (f : Full) (mode : BitVec 2)
  /-- SRD (R192) -/
  | srd (f : Full) (wr : Bool) (num : BitVec 6)
  /-- TRET (R414) -/
  | tret (f : Full)
  /-- SWR (R423) -/
  | swr (f : Full) (wr : Bool) (num : BitVec 6)
  /-- TINV (R424) -/
  | tinv (f : Full)
  /-- HALT (R425) -/
  | halt (f : Full) (imm : BitVec 10)
  /-- LD (R237) -/
  | ld (f : Full) (acc : BitVec 3) (m : MemMod) (off : BitVec 10)
  /-- ST (R237) -/
  | st (f : Full) (acc : BitVec 3) (m : MemMod) (off : BitVec 10)
  /-- ATOM (R240) -/
  | atom (f : Full) (op : BitVec 5) (m : MemMod) (off : BitVec 10)
  /-- RED (R241) -/
  | red (f : Full) (op : BitVec 5) (m : MemMod) (off : BitVec 10)
  /-- FENCE (R242) -/
  | fence (f : Full) (order : Order) (scope : Scope)
  /-- WAIT (R244) -/
  | wait (f : Full) (cond : BitVec 2) (wide : Bool) (scope : Scope) (space : Space) (off : BitVec 10)
  /-- PF (R245) -/
  | pf (f : Full) (hint : BitVec 2) (off : BitVec 10)
  /-- QPOP (R247) -/
  | qpop (f : Full)
  /-- QPEEK (R247) -/
  | qpeek (f : Full)
  /-- QTEST (R248) -/
  | qtest (f : Full) (mode : BitVec 2) (pd : Fin 8)
  /-- QBACK (R249) -/
  | qback (f : Full) (wide : Bool)
  /-- QSKIP (R250) -/
  | qskip (f : Full)
  /-- AGEN (R252) -/
  | agen (f : Full) (gen : Fin 8) (field : BitVec 3)
  /-- ALOAD (R253) -/
  | aload (f : Full) (gen : Fin 8) (acc : BitVec 3) (m : MemMod) (sel : BitVec 10) (off : BitVec 10)
  /-- ASTORE (R255) -/
  | astore (f : Full) (gen : Fin 8) (acc : BitVec 3) (m : MemMod) (off : BitVec 10)
  /-- APF (R256) -/
  | apf (f : Full) (gen : Fin 8) (hint : BitVec 2) (off : BitVec 10)
  /-- ALOOP (R257) -/
  | aloop (f : Full) (k : Fin 4) (off : BitVec 30)
  /-- AEND (R80) -/
  | aend (f : Full)
  /-- APOP (R258) -/
  | apop (f : Full)
  /-- ABQ (R258) -/
  | abq (f : Full) (z : Bool) (off : BitVec 30)
  /-- ASLIP (R258) -/
  | aslip (f : Full) (q : Fin 8)
  /-- CPY (R264) -/
  | cpy (f : Full) (space : Space)
  /-- CPY2D (R264) -/
  | cpy2d (f : Full) (space : Space)
  /-- CPYG (R264) -/
  | cpyg (f : Full) (space : Space)
  /-- CCAN (R269) -/
  | ccan (f : Full)
  /-- CSTAT (R268) -/
  | cstat (f : Full)
  /-- TRESERVE (R271) -/
  | treserve (f : Full)
  /-- TPOST (R272) -/
  | tpost (f : Full) (space : Space)
  /-- TDONE (R273) -/
  | tdone (f : Full)
  /-- HQGET (R275) -/
  | hqget (f : Full)
  /-- HQPUT (R276) -/
  | hqput (f : Full) (space : Space)
  /-- MCLAIM (R278) -/
  | mclaim (f : Full) (both : Bool)
  /-- MREL (R298) -/
  | mrel (f : Full)
  /-- MFMT (R281) -/
  | mfmt (f : Full)
  /-- MSCL (R285) -/
  | mscl (f : Full) (imm : BitVec 10)
  /-- MWLD (R288) -/
  | mwld (f : Full) (arr : Fin 2) (chi : Bool)
  /-- MSWAP (R289) -/
  | mswap (f : Full) (arr : Fin 2)
  /-- MACT (R290) -/
  | mact (f : Full) (arr : Fin 2) (slot : Fin 4)
  /-- MZERO (R292) -/
  | mzero (f : Full) (arr : Fin 2)
  /-- MST (R293) -/
  | mst (f : Full) (arr : Fin 2) (ty : Ty)
  /-- MWAIT (R295) -/
  | mwait (f : Full) (ld cmp st : Bool)
  /-- MEND (R298) -/
  | mend (f : Full)
  /-- RTBVH (R324) -/
  | rtbvh (f : Full) (any : Bool) (space : Space)
  /-- RTMESH (R324) -/
  | rtmesh (f : Full) (mode : Fin 4) (space : Space)
  /-- RTLOC (R322) -/
  | rtloc (f : Full) (space : Space)
  /-- RTRES (R329) -/
  | rtres (f : Full) (space : Space)
  /-- RTSAVE (R328) -/
  | rtsave (f : Full)
  /-- TEX (R349) -/
  | tex (f : Full) (n : BitVec 2)
  /-- TEXL (R349) -/
  | texl (f : Full) (n : BitVec 2)
  /-- TEXG (R349) -/
  | texg (f : Full) (n : BitVec 2)
  /-- TEXQ (R350) -/
  | texq (f : Full)
  /-- IMLD (R350) -/
  | imld (f : Full) (n : BitVec 2)
  /-- IMST (R350) -/
  | imst (f : Full) (n : BitVec 2)
  /-- ATTR (R352) -/
  | attr (f : Full) (mode : BitVec 2)
  /-- VBW (R353) -/
  | vbw (f : Full)
  /-- LOAD_RESULT_LAND (R109) -/
  | loadResultLand (grp wid tag : Nat)
  /-- QUEUE_ELEMENT_RETURN (R66) -/
  | queueElementReturn (grp wid q seq lane : Nat)
  /-- WAIT_RECHECK (R244) -/
  | waitRecheck (grp wid lane : Nat)
  /-- WRITE_BACK_MERGE (R219) -/
  | writeBackMerge (cluster : Nat)
  /-- PAGE_WALK (R447) -/
  | pageWalk (part asid vpage : Nat)
  /-- WATCHDOG_SPLITS (R45) -/
  | watchdogSplits (grp wid : Nat)
  /-- DECOUPLE_STALL (R79) -/
  | decoupleStall (grp : Nat)
  /-- WAIT_TIMEOUT (R417) -/
  | waitTimeout (grp : Nat) (strm : Strm) (wid lane : Nat)
  /-- WARP_OVERDUE (R428) -/
  | warpOverdue (grp wid : Nat)
  /-- YIELD_EXPIRY (R182) -/
  | yieldExpiry (grp wid lane : Nat)
  /-- STALL_HINT_EXPIRY (R97) -/
  | stallHintExpiry (grp wid lane : Nat)
  /-- TRAP_ENTRY (R412) -/
  | trapEntry (grp wid : Nat)
  /-- FAULT_VERDICT (R420) -/
  | faultVerdict (token : Nat) (verdict : W64)
  /-- FAULT_RECORD_DELIVER (R419) -/
  | faultRecordDeliver (token : Nat)
  /-- UPCALL_POST (R181) -/
  | upcallPost (grp wid : Nat)
  /-- REPLY_TOKEN (R370) -/
  | replyToken (part mbox : Nat) (token : W64)
  /-- COPY_REGISTRATION (R229) -/
  | copyRegistration (id : Nat)
  /-- COPY_CHUNK (R266) -/
  | copyChunk (id : Nat)
  /-- COPY_COMPLETE (R227) -/
  | copyComplete (id : Nat)
  /-- HIERARCHY_STEP (R309) -/
  | hierarchyStep (ray : Nat)
  /-- MESH_STEP (R315) -/
  | meshStep (ray : Nat)
  /-- RAY_END (R325) -/
  | rayEnd (ray : Nat)
  /-- MCLAIM_GRANT (R278) -/
  | mclaimGrant (core : Nat)
  /-- MWLD_COMPLETE (R288) -/
  | mwldComplete (grp arr : Nat)
  /-- MSWAP_EXCHANGE (R289) -/
  | mswapExchange (grp arr : Nat)
  /-- MATRIX_BLOCK (R301) -/
  | matrixBlock (grp arr : Nat)
  /-- RASTER_DRAW_RECORD (R335) -/
  | rasterDrawRecord (queue : Nat)
  /-- RASTER_TILE (R336) -/
  | rasterTile (id : Nat)
  /-- REPROJECTION_RECORD (R343) -/
  | reprojectionRecord (queue : Nat)
  /-- REPROJECTION_TILE (R344) -/
  | reprojectionTile (id : Nat)
  /-- RECORD_COMPLETE (R334) -/
  | recordComplete (id : Nat)
  /-- HEAD_FRAME (R345) -/
  | headFrame (head : Nat)
  /-- ENCODE_FRAME (R345) -/
  | encodeFrame (slot : Nat)
  /-- LAYER (R380): the command of a partition's list that stands at an address of a context, as the seven after it; those without operands
  name the context's ASID and the address as one place -/
  | layer (part asid : Nat) (addr : W64)
  /-- LAYEROFF (R380) -/
  | layerOff (part asid : Nat) (addr : W64)
  /-- FRAME (R380) -/
  | frame (part asid : Nat) (addr : W64)
  /-- HEADOFF (R380) -/
  | headOff (part : Nat) (cmd : Nat × W64)
  /-- ENCODE (R380) -/
  | encode (part asid : Nat) (addr : W64)
  /-- KEYNOW (R380) -/
  | keyNow (part : Nat) (cmd : Nat × W64)
  /-- ENCOFF (R380) -/
  | encOff (part : Nat) (cmd : Nat × W64)
  /-- END (R380) -/
  | endList (cmd : Nat × Nat × W64)
  /-- GRAPH_REQUEST (R361) -/
  | graphRequest (queue : Nat)
  /-- GROUP_PLACEMENT (R426) -/
  | groupPlacement (part : Nat)
  /-- KERNEL_NODE_COMPLETE (R224) -/
  | kernelNodeComplete (graph node : Nat)
  /-- WAITVAL_SATISFIED (R363) -/
  | waitvalSatisfied (graph node : Nat)
  /-- TASK_LAUNCH (R366) -/
  | taskLaunch (queue shard : Nat)
  /-- TASK_NODE_COMPLETE (R367) -/
  | taskNodeComplete (graph node : Nat)
  /-- TRESERVE_GRANT (R271) -/
  | treserveGrant (grp wid lane : Nat)
  /-- HQPUT_HOLD_RELEASE (R276) -/
  | hqputHoldRelease (grp wid lane : Nat)
  /-- DOORBELL (R360) -/
  | doorbell (part queue hart : Nat) (addend : W64) (fenced : Bool)
  /-- ENQUEUE_HOLD_RELEASE (R360) -/
  | enqueueHoldRelease (part queue hart : Nat)
  /-- ENQUEUE_HOLD_TIMEOUT (R360) -/
  | enqueueHoldTimeout (part queue hart : Nat)
  /-- STOP (R433) -/
  | stop (part asid : Nat)
  /-- CONTEXT_SAVE (R433) -/
  | contextSave (part asid : Nat)
  /-- RESUME (R440) -/
  | resume (part asid : Nat)
  /-- XINV (R450) -/
  | xinv (part : Nat) (value : W64)
  /-- INVALIDATION_COMPLETE (R424) -/
  | invalidationComplete (part : Nat)
  /-- QBIND (R460) -/
  | qbind (part : Nat) (value : W64)
  /-- PARTITION_RESIZE (R461) -/
  | partitionResize (part : Nat) (mask : BitVec 52)
  /-- RESIZE_COMPLETE (R461) -/
  | resizeComplete (part : Nat)
  /-- HVERR_CLEAR (R458) -/
  | hverrClear (value : W64)
  /-- REGISTER_WRITE (R458) -/
  | registerWrite (win : Window) (offset : Nat) (data : List W8)
  /-- WORLD_CREATE (R473) -/
  | worldCreate (win : CallWin)
  /-- GRANT (R473) -/
  | grant (win : CallWin)
  /-- CTX_CREATE (R473) -/
  | ctxCreate (win : CallWin)
  /-- CTX_DESTROY (R478) -/
  | ctxDestroy (win : CallWin)
  /-- PT_WRITE (R471) -/
  | ptWrite (win : CallWin)
  /-- CAP_MINT (R473) -/
  | capMint (win : CallWin)
  /-- GATE (R470) -/
  | gate (win : CallWin)
  /-- BIND (R473) -/
  | bind (win : CallWin)
  /-- DEBUG_UNLOCK (R477) -/
  | debugUnlock (win : CallWin)
  /-- SCRUB_UNIT (R479) -/
  | scrubUnit (part : Nat)
  /-- CHECKPOINT (R493) -/
  | checkpoint (ctl : W64)
  /-- RESTORE (R495) -/
  | restore (ctl : W64)
  /-- GET_VERSION (R487) -/
  | getVersion (msg : List W8)
  /-- GET_CAPABILITIES (R487) -/
  | getCapabilities (msg : List W8)
  /-- NEGOTIATE_ALGORITHMS (R487) -/
  | negotiateAlgorithms (msg : List W8)
  /-- GET_DIGESTS (R487) -/
  | getDigests (msg : List W8)
  /-- GET_CERTIFICATE (R487) -/
  | getCertificate (msg : List W8)
  /-- CHALLENGE (R487) -/
  | challenge (msg : List W8)
  /-- GET_MEASUREMENTS (R487) -/
  | getMeasurements (msg : List W8)
  /-- KEY_EXCHANGE (R487) -/
  | keyExchange (msg : List W8)
  /-- FINISH (R487) -/
  | finish (msg : List W8)
  /-- END_SESSION (R487) -/
  | endSession (msg : List W8)
  /-- FULL_SERVICE (R491) -/
  | fullService (dieOk : BitVec 4) (memGib : BitVec 16)
  /-- CORRECTABLE_ERROR (R496) -/
  | correctableError (u : UnitId)
  /-- UNCORRECTABLE_ERROR (R496) -/
  | uncorrectableError (loc : ErrLoc) (u : UnitId)
  /-- SPARE_PROPOSAL (R498) -/
  | spareProposal (u : UnitId)
  /-- PORT_REQUEST (R464) -/
  | portRequest (r : PortReq)
  /-- CONTROL_CORE_ACCESS (R217) -/
  | controlCoreAccess (a : CoreAccess)
  /-- LINK_DOWN (R485) -/
  | linkDown (l : Link)
  /-- LINK_UP (R485) -/
  | linkUp (l : Link)
  /-- COOLING_RECOVERY (R499) -/
  | coolingRecovery (fail : BitVec 4)
  /-- CLOCK_CAP (R499) -/
  | clockCap (mhz : Nat)
  /-- SPARE_BRING_IN (R498) -/
  | spareBringIn (u : UnitId)
  /-- CHECKPOINT_COMPLETE (R493) -/
  | checkpointComplete
  /-- DEVICE_RESET (R486) -/
  | deviceReset
  /-- COOLING_FAILURE (R499) -/
  | coolingFailure
  /-- REDUCED_SERVICE (R490) -/
  | reducedService
  /-- CLOCK_CAP_LIFT (R2) -/
  | clockCapLift
  deriving DecidableEq, Repr

end Sys2Proof
end

