-- ==== Sys2Proof/Decode.lean ====
section
/-!
DEFINITION. The encodings of spec/04_registers_encoding.md: bundles (R95, R96), full words (R98 to R101), operand codes (R90
to R94), pair words (R103 to R105), literal words (R106) and the opcode map (R118), as a decoder that is total on any bits
and rejects by name, and an encoder.

The decoder checks what the words alone decide. What the stream, the kernel's declarations and the level decide is checked
when the instruction issues (Sys2Proof/Machine/Checks.lean).

DEDUCED: in the atom and red blocks the operation is counted from the block's first code, as the worked words of chapters
07, 09 and 16 encode it, and not taken from OPC[4:0] (notes/assumptions/20.md).
-/

namespace Sys2Proof

/-- Why a word is no instruction, in the order of R114. -/
inductive Reject where
  /-- ILLEGAL_OPCODE, sub-cause 0x02: FORMAT is not 0b0001 -/
  | format
  /-- RESERVED_FIELD raised by the control-word checks -/
  | control
  /-- ILLEGAL_OPCODE, sub-cause 0x00 -/
  | illegal
  /-- LITERAL_MISPLACED (R106) -/
  | literal
  /-- PAIR_RULE (R105) -/
  | pair
  /-- RESERVED_FIELD (R99) -/
  | reserved
  deriving DecidableEq, Repr

/-! ### Codes of the small enumerations -/

/-- The type code (R101). -/
def Ty.code : Ty → BitVec 4
  | .i32 => 0 | .n32 => 1 | .i64 => 2 | .n64 => 3 | .i16 => 4 | .n16 => 5 | .i8 => 6 | .n8 => 7
  | .f32 => 8 | .f16 => 9 | .bf16 => 10 | .e4m3 => 11 | .e5m2 => 12 | .i4 => 13

/-- The type of a code; a reserved code gives .i32, and re-encoding then differs from the word. -/
def Ty.ofCode (c : BitVec 4) : Ty :=
  match c.toNat with
  | 1 => .n32 | 2 => .i64 | 3 => .n64 | 4 => .i16 | 5 => .n16 | 6 => .i8 | 7 => .n8
  | 8 => .f32 | 9 => .f16 | 10 => .bf16 | 11 => .e4m3 | 12 => .e5m2 | 13 => .i4 | _ => .i32

/-- The code of .n32 -/
def n32Code : BitVec 4 := 1
/-- The code of .n64 -/
def n64Code : BitVec 4 := 3

/-- The types whose operands are register pairs (R145). -/
def wideTy : Ty → Bool
  | .i64 | .n64 => true
  | _ => false

/-- All types, for `cvt` (R161). -/
def allTys : List Ty :=
  [.i32, .n32, .i64, .n64, .i16, .n16, .i8, .n8, .f32, .f16, .bf16, .e4m3, .e5m2, .i4]

/-- The rounding code (R100). -/
def Rnd.code : Rnd → BitVec 2
  | .rne => 0 | .rtz => 1 | .rdn => 2 | .rup => 3

/-- The rounding mode of a code. -/
def Rnd.ofCode (c : BitVec 2) : Rnd :=
  match c.toNat with | 0 => .rne | 1 => .rtz | 2 => .rdn | _ => .rup

/-- The scope code (R100). -/
def Scope.code : Scope → BitVec 3
  | .grp => 0 | .core => 1 | .clu => 2 | .dev => 3 | .sys => 4 | .rem => 5 | .plain => 7

/-- The scope of a code; the reserved code 6 gives `plain`, and re-encoding then differs from the word. -/
def Scope.ofCode (c : BitVec 3) : Scope :=
  match c.toNat with | 0 => .grp | 1 => .core | 2 => .clu | 3 => .dev | 4 => .sys | 5 => .rem | _ => .plain

/-- The order code (R100). -/
def Order.code : Order → BitVec 2
  | .rlx => 0 | .acq => 1 | .rel => 2 | .ar => 3

/-- The order of a code. -/
def Order.ofCode (c : BitVec 2) : Order :=
  match c.toNat with | 0 => .rlx | 1 => .acq | 2 => .rel | _ => .ar

/-- The space code (R100). -/
def Space.code : Space → BitVec 2
  | .g => 0 | .s => 1 | .k => 2

/-- The space of a code; the reserved code 3 gives `g`, and re-encoding then differs from the word. -/
def Space.ofCode (c : BitVec 2) : Space :=
  match c.toNat with | 1 => .s | 2 => .k | _ => .g

/-- The special operand's place after 0x3C9 (R92). -/
def Special.index : Special → Nat
  | .lane => 0 | .tidX => 1 | .tidY => 2 | .tidZ => 3 | .gidX => 4 | .gidY => 5 | .gidZ => 6 | .wid => 7
  | .nwarp => 8 | .width => 9 | .quad => 10 | .qlane => 11 | .core => 12 | .clu => 13 | .taskid => 14
  | .cycleLo => 15 | .cycleHi => 16

/-- The special operand of a place (R92). -/
def Special.ofIndex (n : Nat) : Option Special :=
  match n with
  | 0 => some .lane | 1 => some .tidX | 2 => some .tidY | 3 => some .tidZ
  | 4 => some .gidX | 5 => some .gidY | 6 => some .gidZ | 7 => some .wid
  | 8 => some .nwarp | 9 => some .width | 10 => some .quad | 11 => some .qlane
  | 12 => some .core | 13 => some .clu | 14 => some .taskid | 15 => some .cycleLo | 16 => some .cycleHi
  | _ => none

/-! ### Operand codes -/

/-- The 10-bit code of an operand (R90). -/
def Operand.code : Operand → BitVec 10
  | .v n => BitVec.ofNat 10 n.val
  | .o n => BitVec.ofNat 10 (0x300 + n.val)
  | .h n => BitVec.ofNat 10 (0x320 + n.val)
  | .s n => BitVec.ofNat 10 (0x340 + n.val)
  | .g n => BitVec.ofNat 10 (0x380 + n.val)
  | .k n => BitVec.ofNat 10 (0x3A0 + n.val)
  | .q n => BitVec.ofNat 10 (0x3C0 + n.val)
  | .qb => 0x3C8
  | .sp x => BitVec.ofNat 10 (0x3C9 + x.index)
  | .litLo => 0x3F0
  | .litHi => 0x3F1
  | .lit64 => 0x3F2
  | .null => 0x3FF

/-- What a 10-bit code names; none where it is reserved (R90). -/
def Operand.ofCode (c : BitVec 10) : Option Operand :=
  let n := c.toNat
  if h : n < 768 then some (.v ⟨n, h⟩)
  else if n < 0x320 then some (.o (Fin.ofNat 32 (n - 0x300)))
  else if n < 0x324 then some (.h (Fin.ofNat 4 (n - 0x320)))
  else if n < 0x340 then none
  else if n < 0x380 then some (.s (Fin.ofNat 64 (n - 0x340)))
  else if n < 0x3A0 then some (.g (Fin.ofNat 32 (n - 0x380)))
  else if n < 0x3C0 then some (.k (Fin.ofNat 32 (n - 0x3A0)))
  else if n < 0x3C8 then some (.q (Fin.ofNat 8 (n - 0x3C0)))
  else if n = 0x3C8 then some .qb
  else if n < 0x3E0 then (Special.ofIndex (n - 0x3C9)).map .sp
  else if n = 0x3F0 then some .litLo
  else if n = 0x3F1 then some .litHi
  else if n = 0x3F2 then some .lit64
  else if n = 0x3FF then some .null
  else none

/-- The codes that name the literal word (R94). -/
def Operand.isLit : Operand → Bool
  | .litLo | .litHi | .lit64 => true
  | _ => false

/-- What an operand field of a form takes. `src w q`: a source, 64 bits wide when w, a queue allowed when q.
`dst w`: a destination. `dstAny`: a destination whose width the queue's declaration gives. `cas k`: the
operand of .cas, a multiple of k of the v, o, s or g file (R239). `vrun n k`: the first of n v registers, its number a
multiple of k. `matrix`: a source of an M-stream form (R287). `desc`: a descriptor address (R346). `raw`: no operand. -/
inductive Slot where
  | none | raw
  | src (w q : Bool)
  | dst (w : Bool)
  | dstAny
  | queue | backq | sreg64
  | cas (k : Nat)
  | vrun (n k : Nat)
  | matrix | desc
  deriving DecidableEq, Repr

/-- The four operand fields of a form. -/
structure Shape where
  d : Slot
  a : Slot
  b : Slot
  c : Slot
  deriving DecidableEq, Repr

/-- The register number is even, or the operand is not a pair (R86). -/
def evenIf (w : Bool) (n : Nat) : Bool := !w || n % 2 == 0

/-- The codes a field accepts, as far as the word alone decides it (R86, R90 to R94, R239, R287, R346). -/
def Slot.ok : Slot → Operand → Bool
  | .none, o => o == .null
  | .raw, o => o == .null
  | .src w _, .v n => evenIf w n.val
  | .src w _, .o n => evenIf w n.val
  | .src w _, .h n => evenIf w n.val
  | .src w _, .s n => evenIf w n.val
  | .src w _, .g n => evenIf w n.val
  | .src _ _, .k _ => true
  | .src _ q, .q _ => q
  | .src _ _, .qb => false
  | .src w _, .sp x => !(w && x == .cycleHi)
  | .src w _, .lit64 => w
  | .src _ _, _ => true
  | .dst w, .v n => evenIf w n.val
  | .dst w, .o n => evenIf w n.val
  | .dst w, .s n => evenIf w n.val
  | .dst w, .g n => evenIf w n.val
  | .dst _, o => o == .null
  | .dstAny, .v _ => true
  | .dstAny, .o _ => true
  | .dstAny, .s _ => true
  | .dstAny, .g _ => true
  | .dstAny, o => o == .null
  | .queue, .q _ => true
  | .queue, _ => false
  | .backq, o => o == .qb
  | .sreg64, .s n => n.val % 2 == 0
  | .sreg64, _ => false
  | .cas k, .v n => n.val % k == 0
  | .cas k, .o n => n.val % k == 0
  | .cas k, .s n => n.val % k == 0
  | .cas k, .g n => n.val % k == 0
  | .cas _, _ => false
  | .vrun _ k, .v n => n.val % k == 0
  | .vrun _ _, _ => false
  | .matrix, .s _ => true
  | .matrix, .g _ => true
  | .matrix, .k _ => true
  | .matrix, .litLo => true
  | .matrix, .litHi => true
  | .matrix, _ => false
  | .desc, .v n => n.val % 2 == 0
  | .desc, .s n => n.val % 2 == 0
  | .desc, .g n => n.val % 2 == 0
  | .desc, .lit64 => true
  | .desc, _ => false

/-! ### Fields of a full word -/

/-- A full word taken apart (R98). -/
structure Raw where
  opc : BitVec 10
  d : BitVec 10
  a : BitVec 10
  b : BitVec 10
  c : BitVec 10
  guard : BitVec 3
  neg : Bool
  mod : BitVec 10
  deriving DecidableEq, Repr

/-- The word of the fields (R98). -/
def Raw.pack (r : Raw) : W64 :=
  r.mod ++ (if r.neg then 1#1 else 0#1) ++ r.guard ++ r.c ++ r.b ++ r.a ++ r.d ++ r.opc

/-- The fields of a word (R98). -/
def Raw.unpack (w : W64) : Raw :=
  ⟨w.extractLsb' 0 10, w.extractLsb' 10 10, w.extractLsb' 20 10, w.extractLsb' 30 10, w.extractLsb' 40 10,
    w.extractLsb' 50 3, w.getLsbD 53, w.extractLsb' 54 10⟩

/-- The guard field of a full word. -/
def Full.guardBits (f : Full) : BitVec 3 := BitVec.ofNat 3 f.guard.val

/-- The guard field is 7 and not inverted: the form always executes (R98). -/
def always (f : Full) : Bool := f.guard.val == 7 && !f.neg

/-- MOD of the arithmetic classes: [9:7] variant, [6] saturate, [5:4] rounding, [3:0] type (R100). -/
def AluMod.bits (m : AluMod) : BitVec 10 :=
  m.var ++ (if m.sat then 1#1 else 0#1) ++ m.rnd.code ++ m.ty.code

/-- MOD of the arithmetic classes, read. -/
def AluMod.ofBits (x : BitVec 10) : AluMod :=
  ⟨x.extractLsb' 7 3, x.getLsbD 6, Rnd.ofCode (x.extractLsb' 4 2), Ty.ofCode (x.extractLsb' 0 4)⟩

/-- MOD of the memory forms: [9:8] hint, [7] fresh, [6:4] scope, [3:2] order, [1:0] space (R100). -/
def MemMod.bits (m : MemMod) : BitVec 10 :=
  m.hint ++ (if m.fr then 1#1 else 0#1) ++ m.scope.code ++ m.order.code ++ m.space.code

/-- MOD of the memory forms, read. -/
def MemMod.ofBits (x : BitVec 10) : MemMod :=
  ⟨x.extractLsb' 8 2, x.getLsbD 7, Scope.ofCode (x.extractLsb' 4 3), Order.ofCode (x.extractLsb' 2 2),
    Space.ofCode (x.extractLsb' 0 2)⟩

/-- One row of the arithmetic tables: accepted types and variant bits, and whether .sat and a rounding mode are. -/
structure AluRow where
  types : List Ty
  var : BitVec 3 → Bool
  sat : Bool
  rnd : Bool

/-- The fields a row accepts (06 R145). -/
def AluRow.accepts (x : AluRow) (m : AluMod) : Bool :=
  x.types.contains m.ty && x.var m.var && (x.sat || !m.sat) && (x.rnd || m.rnd == .rne)

/-! ### Orders, scopes and spaces of the memory forms (08 R204) -/

/-- Scratchpad takes .grp and .core, the record space none (08 R204, R195). -/
def scopeFits (sc : Scope) (sp : Space) : Bool :=
  match sp with
  | .g => true
  | .s => sc == .grp || sc == .core
  | .k => false

/-- The access sizes of an atomic load or store (09 R237). -/
def wordAcc (acc : BitVec 3) : Bool := acc == 2 || acc == 3

/-- Kinds of load (08 R204, R212; 09 R237). -/
def ldOk (acc : BitVec 3) (m : MemMod) : Bool :=
  (!m.fr || (m.space == .g && m.order == .rlx)) &&
  (match m.scope with
   | .plain => m.order == .rlx
   | .rem => m.order == .acq && m.space == .g && wordAcc acc
   | sc => (m.order == .rlx || m.order == .acq) && scopeFits sc m.space && wordAcc acc)

/-- Kinds of store (08 R204; 09 R237). -/
def stOk (acc : BitVec 3) (m : MemMod) : Bool :=
  !m.fr && m.space != .k &&
  (match m.scope with
   | .plain => m.order == .rlx
   | .rem => false
   | sc => (m.order == .rlx || m.order == .rel) && scopeFits sc m.space && wordAcc acc)

/-- Kinds of read-modify-write (08 R204; 09 R239). -/
def atomOk (m : MemMod) : Bool :=
  !m.fr &&
  (match m.scope with
   | .plain => false
   | .rem => (m.order == .acq || m.order == .ar) && m.space == .g
   | sc => scopeFits sc m.space)

/-- Kinds of reduction (08 R204; 09 R241). -/
def redOk (m : MemMod) : Bool :=
  !m.fr &&
  (match m.scope with
   | .plain => false
   | .rem => false
   | sc => (m.order == .rlx || m.order == .rel) && scopeFits sc m.space)

/-- Kinds of `aload` (09 R253, R237). -/
def aloadOk (acc : BitVec 3) (m : MemMod) : Bool :=
  m.order == .rlx && m.space != .k && (!m.fr || m.space == .g) &&
  (match m.scope with
   | .plain => true
   | .grp | .core | .clu | .dev => scopeFits m.scope m.space && wordAcc acc
   | _ => false)

/-- Kinds of `astore` (09 R255, R237). -/
def astoreOk (acc : BitVec 3) (m : MemMod) : Bool :=
  !m.fr && m.space != .k &&
  (match m.scope with
   | .plain => m.order == .rlx
   | .grp | .core | .clu | .dev => (m.order == .rlx || m.order == .rel) && scopeFits m.scope m.space && wordAcc acc
   | _ => false)

/-- The target selector of `aload` (09 R253). -/
def selOk (sel : BitVec 10) : Bool :=
  match (sel.extractLsb' 8 2).toNat with
  | 0 => (sel.extractLsb' 0 8).toNat ≤ 15
  | 3 => (sel.extractLsb' 0 8).toNat ≤ 63
  | _ => sel.extractLsb' 0 8 == 0

/-- The operations of `atom` and `red` on 64 bits (09 R238). -/
def atomWide (op : BitVec 5) : Bool := op.toNat < 0x14 && op.getLsbD 0

/-- The operand slots of each form (06 R148, R150, R155, R161-R163; 07 R167; 09 R236-R270; 10 R287; 11 R323; 12 R346; 17 R422). -/
def shapeOf : Instr → Shape
  | .iadd _ m => ⟨.dst (wideTy m.ty), .src (wideTy m.ty) true, .src (wideTy m.ty) true, .none⟩
  | .isub _ m => ⟨.dst (wideTy m.ty), .src (wideTy m.ty) true, .src (wideTy m.ty) true, .none⟩
  | .iaddc _ _ => ⟨.dst false, .src false true, .src false true, .src false true⟩
  | .isubb _ _ => ⟨.dst false, .src false true, .src false true, .src false true⟩
  | .imul _ _ => ⟨.dst false, .src false true, .src false true, .none⟩
  | .imulhi _ _ => ⟨.dst false, .src false true, .src false true, .none⟩
  | .imad _ _ => ⟨.dst false, .src false true, .src false true, .src false true⟩
  | .imadw _ _ => ⟨.dst true, .src false true, .src false true, .src true true⟩
  | .iabs _ m => ⟨.dst (wideTy m.ty), .src (wideTy m.ty) true, .none, .none⟩
  | .ineg _ m => ⟨.dst (wideTy m.ty), .src (wideTy m.ty) true, .none, .none⟩
  | .imin _ m => ⟨.dst (wideTy m.ty), .src (wideTy m.ty) true, .src (wideTy m.ty) true, .none⟩
  | .imax _ m => ⟨.dst (wideTy m.ty), .src (wideTy m.ty) true, .src (wideTy m.ty) true, .none⟩
  | .icmp _ m _ => ⟨.raw, .src (wideTy m.ty) true, .src (wideTy m.ty) true, .none⟩
  | .isel _ m _ => ⟨.dst (wideTy m.ty), .src (wideTy m.ty) true, .src (wideTy m.ty) true, .raw⟩
  | .and _ m => ⟨.dst (wideTy m.ty), .src (wideTy m.ty) true, .src (wideTy m.ty) true, .none⟩
  | .or _ m => ⟨.dst (wideTy m.ty), .src (wideTy m.ty) true, .src (wideTy m.ty) true, .none⟩
  | .xor _ m => ⟨.dst (wideTy m.ty), .src (wideTy m.ty) true, .src (wideTy m.ty) true, .none⟩
  | .andn _ m => ⟨.dst (wideTy m.ty), .src (wideTy m.ty) true, .src (wideTy m.ty) true, .none⟩
  | .tlog _ _ => ⟨.dst false, .src false true, .src false true, .src false true⟩
  | .shl _ m => ⟨.dst (wideTy m.ty), .src (wideTy m.ty) true, .src false true, .none⟩
  | .shr _ m => ⟨.dst (wideTy m.ty), .src (wideTy m.ty) true, .src false true, .none⟩
  | .sar _ m => ⟨.dst (wideTy m.ty), .src (wideTy m.ty) true, .src false true, .none⟩
  | .fsh _ _ => ⟨.dst false, .src false true, .src false true, .src false true⟩
  | .bfe _ _ => ⟨.dst false, .src false true, .src false true, .none⟩
  | .bfi _ _ => ⟨.dst false, .src false true, .src false true, .src false true⟩
  | .popc _ m => ⟨.dst false, .src (wideTy m.ty) true, .none, .none⟩
  | .clz _ m => ⟨.dst false, .src (wideTy m.ty) true, .none, .none⟩
  | .brev _ m => ⟨.dst (wideTy m.ty), .src (wideTy m.ty) true, .none, .none⟩
  | .bmix _ _ => ⟨.dst false, .src false true, .src false true, .src false true⟩
  | .fadd _ _ => ⟨.dst false, .src false true, .src false true, .none⟩
  | .fsub _ _ => ⟨.dst false, .src false true, .src false true, .none⟩
  | .fmul _ _ => ⟨.dst false, .src false true, .src false true, .none⟩
  | .ffma _ _ => ⟨.dst false, .src false true, .src false true, .src false true⟩
  | .fmin _ _ => ⟨.dst false, .src false true, .src false true, .none⟩
  | .fmax _ _ => ⟨.dst false, .src false true, .src false true, .none⟩
  | .fcmp _ _ _ => ⟨.raw, .src false true, .src false true, .none⟩
  | .frnd _ _ => ⟨.dst false, .src false true, .none, .none⟩
  | .fclass _ _ => ⟨.dst false, .src false true, .none, .none⟩
  | .fcpsgn _ _ => ⟨.dst false, .src false true, .src false true, .none⟩
  | .hadd2 _ _ => ⟨.dst false, .src false true, .src false true, .none⟩
  | .hmul2 _ _ => ⟨.dst false, .src false true, .src false true, .none⟩
  | .hfma2 _ _ => ⟨.dst false, .src false true, .src false true, .src false true⟩
  | .hmin2 _ _ => ⟨.dst false, .src false true, .src false true, .none⟩
  | .hmax2 _ _ => ⟨.dst false, .src false true, .src false true, .none⟩
  | .frcps _ _ => ⟨.dst false, .src false true, .none, .none⟩
  | .frsqs _ _ => ⟨.dst false, .src false true, .none, .none⟩
  | .fexpr _ _ => ⟨.dst false, .src false true, .none, .none⟩
  | .fscale _ _ => ⟨.dst false, .src false true, .src false true, .none⟩
  | .fgetexp _ _ => ⟨.dst false, .src false true, .none, .none⟩
  | .fgetman _ _ => ⟨.dst false, .src false true, .none, .none⟩
  | .flogr _ _ => ⟨.dst false, .src false true, .none, .none⟩
  | .fsinr _ _ => ⟨.dst false, .src false true, .none, .none⟩
  | .fdivfx _ _ => ⟨.dst false, .src false true, .src false true, .src false true⟩
  | .fsqrtfx _ _ => ⟨.dst false, .src false true, .src false true, .none⟩
  | .cvt _ m src => ⟨.dst (wideTy m.ty), .src (wideTy src) true, .none, .raw⟩
  | .pk2 _ _ => ⟨.dst false, .src false true, .src false true, .none⟩
  | .upk2 _ _ => ⟨.dst false, .src false true, .none, .none⟩
  | .pk8 _ _ => ⟨.dst false, .src false true, .src false true, .src false true⟩
  | .upk8 _ _ => ⟨.dst false, .src false true, .none, .none⟩
  | .pk4 _ _ => ⟨.dst false, .src false true, .src false true, .src false true⟩
  | .upk4 _ _ => ⟨.dst false, .src false true, .none, .none⟩
  | .mov _ m => ⟨.dst (wideTy m.ty), .src (wideTy m.ty) true, .none, .none⟩
  | .shfl _ _ _ wide => ⟨.dst wide, .src wide false, .src false true, .none⟩
  | .vote _ _ _ _ => ⟨.raw, .raw, .none, .none⟩
  | .ballot _ wide _ => ⟨.dst wide, .raw, .none, .none⟩
  | .mbcnt _ => ⟨.dst false, .src true true, .none, .none⟩
  | .redux _ _ _ => ⟨.dst false, .src false false, .none, .none⟩
  | .matchv _ _ wide => ⟨.dst true, .src wide false, .none, .none⟩
  | .qswap _ _ => ⟨.dst false, .src false false, .none, .none⟩
  | .qbcst _ _ => ⟨.dst false, .src false false, .none, .none⟩
  | .dpdx _ _ => ⟨.dst false, .src false false, .none, .none⟩
  | .dpdy _ _ => ⟨.dst false, .src false false, .none, .none⟩
  | .wjoin _ => ⟨.none, .src true true, .none, .none⟩
  | .pset _ _ _ _ _ => ⟨.raw, .raw, .raw, .none⟩
  | .pmov _ wr => ⟨if wr then .none else .dst false, if wr then .src false true else .none, .none, .none⟩
  | .br _ _ => ⟨.raw, .raw, .raw, .none⟩
  | .brall _ _ _ => ⟨.raw, .raw, .raw, .none⟩
  | .jmpi _ => ⟨.none, .src true true, .none, .none⟩
  | .call _ _ => ⟨.raw, .raw, .raw, .dst true⟩
  | .calli _ => ⟨.dst true, .src true true, .none, .none⟩
  | .ret _ => ⟨.none, .src true true, .none, .none⟩
  | .exit _ => ⟨.none, .none, .none, .none⟩
  | .trap _ _ _ => ⟨.none, .raw, .none, .none⟩
  | .upcall _ => ⟨.dst true, .src false true, .src true true, .none⟩
  | .yield _ _ => ⟨.none, .raw, .none, .none⟩
  | .wdog _ => ⟨.none, .src false true, .none, .none⟩
  | .rgrp _ => ⟨.none, .src true true, .none, .none⟩
  | .nop _ => ⟨.none, .none, .none, .none⟩
  | .barSync _ _ => ⟨.none, .none, .none, .none⟩
  | .barArrive _ _ => ⟨.none, .none, .none, .none⟩
  | .barWait _ _ => ⟨.none, .none, .none, .none⟩
  | .cbar _ _ => ⟨.none, .none, .none, .none⟩
  | .srd _ wr num => ⟨if wr then .none else .dst (num.toNat ∈ [2, 3, 4]), if wr then .src false true else .none, .none, .none⟩
  | .tret _ => ⟨.none, .none, .none, .none⟩
  | .swr _ wr num => ⟨if wr then .none else .dst (num != 10), if wr then .src true true else .none, .none, .none⟩
  | .tinv _ => ⟨.none, .src false true, .none, .none⟩
  | .halt _ _ => ⟨.none, .raw, .none, .none⟩
  | .ld _ acc m _ => ⟨.dst (acc == 3), .src (m.space == .g) true, .src false true, .raw⟩
  | .st _ acc m _ => ⟨.src (acc == 3) false, .src (m.space == .g) true, .src false true, .raw⟩
  | .atom _ op m _ => ⟨.dst (atomWide op), .src (m.space == .g) true, if op == 0x12 then .cas 2 else if op == 0x13 then .cas 4 else .src (atomWide op) true, .raw⟩
  | .red _ op m _ => ⟨.src (atomWide op) false, .src (m.space == .g) true, .src false true, .raw⟩
  | .fence _ _ _ => ⟨.none, .none, .none, .none⟩
  | .wait _ _ wide _ space _ => ⟨.dst wide, .src (space == .g) true, .src wide true, .raw⟩
  | .pf _ _ _ => ⟨.none, .src true true, .src false true, .raw⟩
  | .qpop _ => ⟨.dstAny, .queue, .none, .none⟩
  | .qpeek _ => ⟨.dstAny, .queue, .none, .none⟩
  | .qtest _ _ _ => ⟨.raw, .queue, .none, .none⟩
  | .qback _ wide => ⟨.backq, .src wide true, .none, .none⟩
  | .qskip _ => ⟨.none, .queue, .src false true, .none⟩
  | .agen _ _ field => ⟨.raw, .src (field == 0) true, .none, .none⟩
  | .aload _ _ _ _ _ _ => ⟨.queue, .raw, .raw, .raw⟩
  | .astore _ _ acc _ _ => ⟨.src (acc == 3) false, .raw, .none, .raw⟩
  | .apf _ _ _ _ => ⟨.none, .raw, .none, .raw⟩
  | .aloop _ _ _ => ⟨.raw, .raw, .raw, .src false false⟩
  | .aend _ => ⟨.none, .none, .none, .none⟩
  | .apop _ => ⟨.sreg64, .backq, .none, .none⟩
  | .abq _ _ _ => ⟨.raw, .raw, .raw, .backq⟩
  | .aslip _ _ => ⟨.none, .src false false, .none, .none⟩
  | .cpy _ space => ⟨.dst false, .src (space == .g) true, .none, .none⟩
  | .cpy2d _ space => ⟨.dst false, .src (space == .g) true, .none, .none⟩
  | .cpyg _ space => ⟨.dst false, .src (space == .g) true, .none, .none⟩
  | .ccan _ => ⟨.none, .src false true, .none, .none⟩
  | .cstat _ => ⟨.dst true, .src false true, .none, .none⟩
  | .treserve _ => ⟨.none, .src false true, .src false true, .none⟩
  | .tpost _ space => ⟨.none, .src false true, .src (space == .g) true, .none⟩
  | .tdone _ => ⟨.none, .none, .none, .none⟩
  | .hqget _ => ⟨.vrun 16 2, .src false true, .none, .none⟩
  | .hqput _ space => ⟨.none, .src false true, .src (space == .g) true, .none⟩
  | .mclaim _ _ => ⟨.none, .none, .none, .none⟩
  | .mrel _ => ⟨.none, .none, .none, .none⟩
  | .mfmt _ => ⟨.none, .src false true, .none, .none⟩
  | .mscl _ _ => ⟨.none, .src false true, .none, .raw⟩
  | .mwld _ _ _ => ⟨.none, .matrix, .matrix, .none⟩
  | .mswap _ _ => ⟨.none, .none, .none, .none⟩
  | .mact _ _ _ => ⟨.none, .matrix, .matrix, .matrix⟩
  | .mzero _ _ => ⟨.none, .none, .matrix, .matrix⟩
  | .mst _ _ _ => ⟨.none, .matrix, .matrix, .matrix⟩
  | .mwait _ _ _ _ => ⟨.none, .none, .none, .none⟩
  | .mend _ => ⟨.none, .none, .none, .none⟩
  | .rtbvh _ _ space => ⟨.vrun 4 4, .src (space == .g) false, .src true false, .none⟩
  | .rtmesh _ mode space => ⟨.vrun 4 4, .src (space == .g) false, .src true false, if mode.val == 3 then .none else .src false false⟩
  | .rtloc _ space => ⟨.vrun 4 4, .src (space == .g) false, .src true false, .none⟩
  | .rtres _ space => ⟨.vrun 4 4, .src (space == .g) false, .src true false, .none⟩
  | .rtsave _ => ⟨.none, .none, .none, .none⟩
  | .tex _ n => ⟨.vrun 4 4, .vrun n.toNat 1, .desc, .none⟩
  | .texl _ n => ⟨.vrun 4 4, .vrun n.toNat 1, .desc, .src false false⟩
  | .texg _ n => ⟨.vrun 4 4, .vrun n.toNat 1, .desc, .vrun (2 * n.toNat) 1⟩
  | .texq _ => ⟨.vrun 4 4, .src false false, .desc, .none⟩
  | .imld _ n => ⟨.vrun 4 4, .vrun n.toNat 1, .desc, .src false false⟩
  | .imst _ n => ⟨.vrun 4 4, .vrun n.toNat 1, .desc, .src false false⟩
  | .attr _ _ => ⟨.vrun 2 2, .vrun 9 1, .vrun 2 2, .src false false⟩
  | .vbw _ => ⟨.none, .src true false, .src true false, .none⟩
  | _ => ⟨.none, .none, .none, .none⟩

/-- The types, variant bits, saturation and rounding each arithmetic form accepts (06 R145, R148, R150, R155, R161-R163). -/
def aluRow : Instr → AluRow
  | .iadd _ _ => ⟨[.i32, .n32, .i64, .n64], fun v => v == 0, true, false⟩
  | .isub _ _ => ⟨[.i32, .n32, .i64, .n64], fun v => v == 0, true, false⟩
  | .iaddc _ _ => ⟨[.n32], fun _ => true, false, false⟩
  | .isubb _ _ => ⟨[.n32], fun _ => true, false, false⟩
  | .imul _ _ => ⟨[.i32, .n32], fun v => v == 0, true, false⟩
  | .imulhi _ _ => ⟨[.i32, .n32], fun v => v == 0, false, false⟩
  | .imad _ _ => ⟨[.i32, .n32], fun v => v == 0, true, false⟩
  | .imadw _ _ => ⟨[.i32, .n32], fun v => v == 0, false, false⟩
  | .iabs _ _ => ⟨[.i32, .i64], fun v => v == 0, true, false⟩
  | .ineg _ _ => ⟨[.i32, .i64], fun v => v == 0, true, false⟩
  | .imin _ _ => ⟨[.i32, .n32, .i64, .n64], fun v => v == 0, false, false⟩
  | .imax _ _ => ⟨[.i32, .n32, .i64, .n64], fun v => v == 0, false, false⟩
  | .icmp _ _ _ => ⟨[.i32, .n32, .i64, .n64], fun v => v.toNat ≤ 5, false, false⟩
  | .isel _ _ _ => ⟨[.i32, .i64], fun v => v &&& 6#3 == 0, false, false⟩
  | .and _ _ => ⟨[.i32, .n32, .i64, .n64], fun v => v == 0, false, false⟩
  | .or _ _ => ⟨[.i32, .n32, .i64, .n64], fun v => v == 0, false, false⟩
  | .xor _ _ => ⟨[.i32, .n32, .i64, .n64], fun v => v == 0, false, false⟩
  | .andn _ _ => ⟨[.i32, .n32, .i64, .n64], fun v => v == 0, false, false⟩
  | .shl _ _ => ⟨[.i32, .n32, .i64, .n64], fun v => v == 0, false, false⟩
  | .shr _ _ => ⟨[.i32, .n32, .i64, .n64], fun v => v == 0, false, false⟩
  | .sar _ _ => ⟨[.i32, .n32, .i64, .n64], fun v => v == 0, false, false⟩
  | .fsh _ _ => ⟨[.n32], fun v => v &&& 6#3 == 0, false, false⟩
  | .bfe _ _ => ⟨[.i32, .n32], fun v => v == 0, false, false⟩
  | .bfi _ _ => ⟨[.n32], fun v => v == 0, false, false⟩
  | .popc _ _ => ⟨[.n32, .n64], fun v => v == 0, false, false⟩
  | .clz _ _ => ⟨[.n32, .n64], fun v => v == 0, false, false⟩
  | .brev _ _ => ⟨[.n32, .n64], fun v => v == 0, false, false⟩
  | .bmix _ _ => ⟨[.n32], fun v => v == 0, false, false⟩
  | .fadd _ _ => ⟨[.f32], fun v => v &&& 4#3 == 0, true, true⟩
  | .fsub _ _ => ⟨[.f32], fun v => v &&& 4#3 == 0, true, true⟩
  | .fmul _ _ => ⟨[.f32], fun v => v &&& 4#3 == 0, true, true⟩
  | .ffma _ _ => ⟨[.f32], fun _ => true, true, true⟩
  | .fmin _ _ => ⟨[.f32], fun v => v &&& 4#3 == 0, false, false⟩
  | .fmax _ _ => ⟨[.f32], fun v => v &&& 4#3 == 0, false, false⟩
  | .fcmp _ _ _ => ⟨[.f32], fun _ => true, false, false⟩
  | .frnd _ _ => ⟨[.f32], fun v => v == 0, false, true⟩
  | .fclass _ _ => ⟨[.f32, .f16, .bf16], fun v => v == 0, false, false⟩
  | .fcpsgn _ _ => ⟨[.f32], fun v => v &&& 4#3 == 0, false, false⟩
  | .hadd2 _ _ => ⟨[.f16, .bf16], fun v => v &&& 4#3 == 0, true, true⟩
  | .hmul2 _ _ => ⟨[.f16, .bf16], fun v => v &&& 4#3 == 0, true, true⟩
  | .hfma2 _ _ => ⟨[.f16, .bf16], fun _ => true, true, true⟩
  | .hmin2 _ _ => ⟨[.f16, .bf16], fun v => v &&& 4#3 == 0, false, false⟩
  | .hmax2 _ _ => ⟨[.f16, .bf16], fun v => v &&& 4#3 == 0, false, false⟩
  | .frcps _ _ => ⟨[.f32], fun v => v == 0, false, false⟩
  | .frsqs _ _ => ⟨[.f32], fun v => v == 0, false, false⟩
  | .fexpr _ _ => ⟨[.f32], fun v => v &&& 6#3 == 0, false, false⟩
  | .fscale _ _ => ⟨[.f32], fun v => v == 0, true, true⟩
  | .fgetexp _ _ => ⟨[.f32], fun v => v == 0, false, false⟩
  | .fgetman _ _ => ⟨[.f32], fun v => v == 0, false, false⟩
  | .flogr _ _ => ⟨[.f32], fun v => v &&& 6#3 == 0, false, false⟩
  | .fsinr _ _ => ⟨[.f32], fun v => v &&& 6#3 == 0, false, false⟩
  | .fdivfx _ _ => ⟨[.f32], fun v => v == 0, false, true⟩
  | .fsqrtfx _ _ => ⟨[.f32], fun v => v == 0, false, true⟩
  | .cvt _ _ _ => ⟨allTys, fun v => v == 0, true, true⟩
  | .pk2 _ _ => ⟨[.f16, .bf16, .i16, .n16], fun v => v == 0, true, true⟩
  | .upk2 _ _ => ⟨[.f16, .bf16, .i16, .n16], fun v => v &&& 6#3 == 0, false, false⟩
  | .pk8 _ _ => ⟨[.e4m3, .e5m2, .i8, .n8], fun v => v &&& 6#3 == 0, true, true⟩
  | .upk8 _ _ => ⟨[.e4m3, .e5m2, .i8, .n8], fun v => v &&& 4#3 == 0, false, false⟩
  | .pk4 _ _ => ⟨[.i4], fun v => v &&& 4#3 == 0, true, true⟩
  | .upk4 _ _ => ⟨[.i4], fun _ => true, false, false⟩
  | .mov _ _ => ⟨[.i32, .n32, .i64, .n64], fun v => v == 0, false, false⟩
  | _ => ⟨[], fun _ => false, false, false⟩

/-- What a form's own fields must satisfy beside their widths: the RESERVED_FIELD cases of its chapter, and that its opcode is assigned. -/
def fieldsOk (i : Instr) : Bool :=
  match i with
  | .iadd _ m => (aluRow i).accepts m
  | .isub _ m => (aluRow i).accepts m
  | .iaddc _ m => (aluRow i).accepts m
  | .isubb _ m => (aluRow i).accepts m
  | .imul _ m => (aluRow i).accepts m
  | .imulhi _ m => (aluRow i).accepts m
  | .imad _ m => (aluRow i).accepts m
  | .imadw _ m => (aluRow i).accepts m
  | .iabs _ m => (aluRow i).accepts m
  | .ineg _ m => (aluRow i).accepts m
  | .imin _ m => (aluRow i).accepts m
  | .imax _ m => (aluRow i).accepts m
  | .icmp _ m p => (aluRow i).accepts m && p.val != 7
  | .isel _ m _ => (aluRow i).accepts m
  | .and _ m => (aluRow i).accepts m
  | .or _ m => (aluRow i).accepts m
  | .xor _ m => (aluRow i).accepts m
  | .andn _ m => (aluRow i).accepts m
  | .tlog _ _ => true
  | .shl _ m => (aluRow i).accepts m
  | .shr _ m => (aluRow i).accepts m
  | .sar _ m => (aluRow i).accepts m
  | .fsh _ m => (aluRow i).accepts m
  | .bfe _ m => (aluRow i).accepts m
  | .bfi _ m => (aluRow i).accepts m
  | .popc _ m => (aluRow i).accepts m
  | .clz _ m => (aluRow i).accepts m
  | .brev _ m => (aluRow i).accepts m
  | .bmix _ m => (aluRow i).accepts m
  | .fadd _ m => (aluRow i).accepts m
  | .fsub _ m => (aluRow i).accepts m
  | .fmul _ m => (aluRow i).accepts m
  | .ffma _ m => (aluRow i).accepts m
  | .fmin _ m => (aluRow i).accepts m
  | .fmax _ m => (aluRow i).accepts m
  | .fcmp _ m p => (aluRow i).accepts m && p.val != 7
  | .frnd _ m => (aluRow i).accepts m
  | .fclass _ m => (aluRow i).accepts m
  | .fcpsgn _ m => (aluRow i).accepts m
  | .hadd2 _ m => (aluRow i).accepts m
  | .hmul2 _ m => (aluRow i).accepts m
  | .hfma2 _ m => (aluRow i).accepts m
  | .hmin2 _ m => (aluRow i).accepts m
  | .hmax2 _ m => (aluRow i).accepts m
  | .frcps _ m => (aluRow i).accepts m
  | .frsqs _ m => (aluRow i).accepts m
  | .fexpr _ m => (aluRow i).accepts m
  | .fscale _ m => (aluRow i).accepts m
  | .fgetexp _ m => (aluRow i).accepts m
  | .fgetman _ m => (aluRow i).accepts m
  | .flogr _ m => (aluRow i).accepts m
  | .fsinr _ m => (aluRow i).accepts m
  | .fdivfx _ m => (aluRow i).accepts m
  | .fsqrtfx _ m => (aluRow i).accepts m
  | .cvt _ m src => (aluRow i).accepts m && m.ty != src
  | .pk2 _ m => (aluRow i).accepts m
  | .upk2 _ m => (aluRow i).accepts m
  | .pk8 _ m => (aluRow i).accepts m
  | .upk8 _ m => (aluRow i).accepts m
  | .pk4 _ m => (aluRow i).accepts m
  | .upk4 _ m => (aluRow i).accepts m
  | .mov _ m => (aluRow i).accepts m
  | .shfl _ _ seg _ => seg.toNat ≤ 5
  | .vote _ mode pd _ => mode != 3 && pd.val != 7
  | .ballot _ _ _ => true
  | .mbcnt _ => true
  | .redux _ op ty => op.toNat ≤ 5 && (ty == .i32 || ty == .n32 || (ty == .f32 && op.toNat ≤ 2))
  | .matchv _ _ _ => true
  | .qswap _ dir => dir != 0
  | .qbcst _ _ => true
  | .dpdx _ _ => true
  | .dpdy _ _ => true
  | .wjoin f => always f
  | .pset _ _ pd _ _ => pd.val != 7
  | .pmov _ _ => true
  | .br _ _ => true
  | .brall _ _ _ => true
  | .jmpi _ => true
  | .call _ _ => true
  | .calli _ => true
  | .ret _ => true
  | .exit _ => true
  | .trap _ _ _ => true
  | .upcall _ => true
  | .yield _ _ => true
  | .wdog _ => true
  | .rgrp f => always f
  | .nop _ => true
  | .barSync f _ => always f
  | .barArrive f _ => always f
  | .barWait f _ => always f
  | .cbar f mode => always f && mode != 3
  | .srd _ wr num => num.toNat ≤ 5 && (!wr || num == 0)
  | .tret f => always f
  | .swr _ wr num => num.toNat ≤ 10 && (!wr || num == 1)
  | .tinv _ => true
  | .halt _ imm => imm.toNat ≤ 255
  | .ld _ acc m _ => acc.toNat < 6 && ldOk acc m
  | .st _ acc m _ => acc.toNat < 4 && stOk acc m
  | .atom _ op m _ => op.toNat < 0x18 && atomOk m
  | .red _ op m _ => op.toNat < 0x18 && !(0x10 ≤ op.toNat && op.toNat ≤ 0x13) && redOk m
  | .fence _ order scope => order != .rlx && scope != .plain && scope != .rem
  | .wait _ _ _ scope space _ => scope != .plain && scopeFits scope space
  | .pf _ _ _ => true
  | .qpop _ => true
  | .qpeek _ => true
  | .qtest _ mode pd => mode != 3 && pd.val != 7
  | .qback _ _ => true
  | .qskip _ => true
  | .agen _ _ field => field != 7
  | .aload _ _ acc m sel _ => acc.toNat < 6 && aloadOk acc m && selOk sel
  | .astore _ _ acc m _ => acc.toNat < 4 && astoreOk acc m
  | .apf _ _ _ _ => true
  | .aloop _ _ _ => true
  | .aend _ => true
  | .apop _ => true
  | .abq _ _ _ => true
  | .aslip _ _ => true
  | .cpy _ space => space != .k
  | .cpy2d _ space => space != .k
  | .cpyg _ space => space != .k
  | .ccan _ => true
  | .cstat _ => true
  | .treserve _ => true
  | .tpost _ space => space != .k
  | .tdone _ => true
  | .hqget _ => true
  | .hqput _ space => space != .k
  | .mclaim _ _ => true
  | .mrel _ => true
  | .mfmt _ => true
  | .mscl _ imm => imm.toNat < 64
  | .mwld _ _ _ => true
  | .mswap _ _ => true
  | .mact _ _ _ => true
  | .mzero _ _ => true
  | .mst _ _ _ => true
  | .mwait _ ld cmp st => ld || cmp || st
  | .mend _ => true
  | .rtbvh _ _ space => space != .k
  | .rtmesh _ _ space => space != .k
  | .rtloc _ space => space != .k
  | .rtres _ space => space != .k
  | .rtsave _ => true
  | .tex _ n => n != 0
  | .texl _ n => n != 0
  | .texg _ n => n != 0
  | .texq _ => true
  | .imld _ n => n != 0
  | .imst _ n => n != 0
  | .attr _ mode => mode != 3
  | .vbw _ => true
  | _ => true

/-- The fields of a full word that stand for the form (R98, R100, R118): opcode, MOD, and the raw fields. -/
def rawOf : Instr → Option (Full × Raw)
  | .iadd f m =>
    some (f, ⟨0x000#10, f.d.code, f.a.code, f.b.code, f.c.code, f.guardBits, f.neg, m.bits⟩)
  | .isub f m =>
    some (f, ⟨0x001#10, f.d.code, f.a.code, f.b.code, f.c.code, f.guardBits, f.neg, m.bits⟩)
  | .iaddc f m =>
    some (f, ⟨0x002#10, f.d.code, f.a.code, f.b.code, f.c.code, f.guardBits, f.neg, m.bits⟩)
  | .isubb f m =>
    some (f, ⟨0x003#10, f.d.code, f.a.code, f.b.code, f.c.code, f.guardBits, f.neg, m.bits⟩)
  | .imul f m =>
    some (f, ⟨0x004#10, f.d.code, f.a.code, f.b.code, f.c.code, f.guardBits, f.neg, m.bits⟩)
  | .imulhi f m =>
    some (f, ⟨0x005#10, f.d.code, f.a.code, f.b.code, f.c.code, f.guardBits, f.neg, m.bits⟩)
  | .imad f m =>
    some (f, ⟨0x006#10, f.d.code, f.a.code, f.b.code, f.c.code, f.guardBits, f.neg, m.bits⟩)
  | .imadw f m =>
    some (f, ⟨0x007#10, f.d.code, f.a.code, f.b.code, f.c.code, f.guardBits, f.neg, m.bits⟩)
  | .iabs f m =>
    some (f, ⟨0x008#10, f.d.code, f.a.code, f.b.code, f.c.code, f.guardBits, f.neg, m.bits⟩)
  | .ineg f m =>
    some (f, ⟨0x009#10, f.d.code, f.a.code, f.b.code, f.c.code, f.guardBits, f.neg, m.bits⟩)
  | .imin f m =>
    some (f, ⟨0x00A#10, f.d.code, f.a.code, f.b.code, f.c.code, f.guardBits, f.neg, m.bits⟩)
  | .imax f m =>
    some (f, ⟨0x00B#10, f.d.code, f.a.code, f.b.code, f.c.code, f.guardBits, f.neg, m.bits⟩)
  | .icmp f m p =>
    some (f, ⟨0x00C#10, BitVec.ofNat 10 p.val, f.a.code, f.b.code, f.c.code, f.guardBits, f.neg, m.bits⟩)
  | .isel f m p =>
    some (f, ⟨0x00D#10, f.d.code, f.a.code, f.b.code, BitVec.ofNat 10 p.val, f.guardBits, f.neg, m.bits⟩)
  | .and f m =>
    some (f, ⟨0x00E#10, f.d.code, f.a.code, f.b.code, f.c.code, f.guardBits, f.neg, m.bits⟩)
  | .or f m =>
    some (f, ⟨0x00F#10, f.d.code, f.a.code, f.b.code, f.c.code, f.guardBits, f.neg, m.bits⟩)
  | .xor f m =>
    some (f, ⟨0x010#10, f.d.code, f.a.code, f.b.code, f.c.code, f.guardBits, f.neg, m.bits⟩)
  | .andn f m =>
    some (f, ⟨0x011#10, f.d.code, f.a.code, f.b.code, f.c.code, f.guardBits, f.neg, m.bits⟩)
  | .tlog f tab =>
    some (f, ⟨0x012#10, f.d.code, f.a.code, f.b.code, f.c.code, f.guardBits, f.neg, 0#2 ++ tab⟩)
  | .shl f m =>
    some (f, ⟨0x013#10, f.d.code, f.a.code, f.b.code, f.c.code, f.guardBits, f.neg, m.bits⟩)
  | .shr f m =>
    some (f, ⟨0x014#10, f.d.code, f.a.code, f.b.code, f.c.code, f.guardBits, f.neg, m.bits⟩)
  | .sar f m =>
    some (f, ⟨0x015#10, f.d.code, f.a.code, f.b.code, f.c.code, f.guardBits, f.neg, m.bits⟩)
  | .fsh f m =>
    some (f, ⟨0x016#10, f.d.code, f.a.code, f.b.code, f.c.code, f.guardBits, f.neg, m.bits⟩)
  | .bfe f m =>
    some (f, ⟨0x017#10, f.d.code, f.a.code, f.b.code, f.c.code, f.guardBits, f.neg, m.bits⟩)
  | .bfi f m =>
    some (f, ⟨0x018#10, f.d.code, f.a.code, f.b.code, f.c.code, f.guardBits, f.neg, m.bits⟩)
  | .popc f m =>
    some (f, ⟨0x019#10, f.d.code, f.a.code, f.b.code, f.c.code, f.guardBits, f.neg, m.bits⟩)
  | .clz f m =>
    some (f, ⟨0x01A#10, f.d.code, f.a.code, f.b.code, f.c.code, f.guardBits, f.neg, m.bits⟩)
  | .brev f m =>
    some (f, ⟨0x01B#10, f.d.code, f.a.code, f.b.code, f.c.code, f.guardBits, f.neg, m.bits⟩)
  | .bmix f m =>
    some (f, ⟨0x01C#10, f.d.code, f.a.code, f.b.code, f.c.code, f.guardBits, f.neg, m.bits⟩)
  | .fadd f m =>
    some (f, ⟨0x080#10, f.d.code, f.a.code, f.b.code, f.c.code, f.guardBits, f.neg, m.bits⟩)
  | .fsub f m =>
    some (f, ⟨0x081#10, f.d.code, f.a.code, f.b.code, f.c.code, f.guardBits, f.neg, m.bits⟩)
  | .fmul f m =>
    some (f, ⟨0x082#10, f.d.code, f.a.code, f.b.code, f.c.code, f.guardBits, f.neg, m.bits⟩)
  | .ffma f m =>
    some (f, ⟨0x083#10, f.d.code, f.a.code, f.b.code, f.c.code, f.guardBits, f.neg, m.bits⟩)
  | .fmin f m =>
    some (f, ⟨0x084#10, f.d.code, f.a.code, f.b.code, f.c.code, f.guardBits, f.neg, m.bits⟩)
  | .fmax f m =>
    some (f, ⟨0x085#10, f.d.code, f.a.code, f.b.code, f.c.code, f.guardBits, f.neg, m.bits⟩)
  | .fcmp f m p =>
    some (f, ⟨0x086#10, BitVec.ofNat 10 p.val, f.a.code, f.b.code, f.c.code, f.guardBits, f.neg, m.bits⟩)
  | .frnd f m =>
    some (f, ⟨0x087#10, f.d.code, f.a.code, f.b.code, f.c.code, f.guardBits, f.neg, m.bits⟩)
  | .fclass f m =>
    some (f, ⟨0x088#10, f.d.code, f.a.code, f.b.code, f.c.code, f.guardBits, f.neg, m.bits⟩)
  | .fcpsgn f m =>
    some (f, ⟨0x089#10, f.d.code, f.a.code, f.b.code, f.c.code, f.guardBits, f.neg, m.bits⟩)
  | .hadd2 f m =>
    some (f, ⟨0x08A#10, f.d.code, f.a.code, f.b.code, f.c.code, f.guardBits, f.neg, m.bits⟩)
  | .hmul2 f m =>
    some (f, ⟨0x08B#10, f.d.code, f.a.code, f.b.code, f.c.code, f.guardBits, f.neg, m.bits⟩)
  | .hfma2 f m =>
    some (f, ⟨0x08C#10, f.d.code, f.a.code, f.b.code, f.c.code, f.guardBits, f.neg, m.bits⟩)
  | .hmin2 f m =>
    some (f, ⟨0x08D#10, f.d.code, f.a.code, f.b.code, f.c.code, f.guardBits, f.neg, m.bits⟩)
  | .hmax2 f m =>
    some (f, ⟨0x08E#10, f.d.code, f.a.code, f.b.code, f.c.code, f.guardBits, f.neg, m.bits⟩)
  | .frcps f m =>
    some (f, ⟨0x100#10, f.d.code, f.a.code, f.b.code, f.c.code, f.guardBits, f.neg, m.bits⟩)
  | .frsqs f m =>
    some (f, ⟨0x101#10, f.d.code, f.a.code, f.b.code, f.c.code, f.guardBits, f.neg, m.bits⟩)
  | .fexpr f m =>
    some (f, ⟨0x102#10, f.d.code, f.a.code, f.b.code, f.c.code, f.guardBits, f.neg, m.bits⟩)
  | .fscale f m =>
    some (f, ⟨0x103#10, f.d.code, f.a.code, f.b.code, f.c.code, f.guardBits, f.neg, m.bits⟩)
  | .fgetexp f m =>
    some (f, ⟨0x104#10, f.d.code, f.a.code, f.b.code, f.c.code, f.guardBits, f.neg, m.bits⟩)
  | .fgetman f m =>
    some (f, ⟨0x105#10, f.d.code, f.a.code, f.b.code, f.c.code, f.guardBits, f.neg, m.bits⟩)
  | .flogr f m =>
    some (f, ⟨0x106#10, f.d.code, f.a.code, f.b.code, f.c.code, f.guardBits, f.neg, m.bits⟩)
  | .fsinr f m =>
    some (f, ⟨0x107#10, f.d.code, f.a.code, f.b.code, f.c.code, f.guardBits, f.neg, m.bits⟩)
  | .fdivfx f m =>
    some (f, ⟨0x108#10, f.d.code, f.a.code, f.b.code, f.c.code, f.guardBits, f.neg, m.bits⟩)
  | .fsqrtfx f m =>
    some (f, ⟨0x109#10, f.d.code, f.a.code, f.b.code, f.c.code, f.guardBits, f.neg, m.bits⟩)
  | .cvt f m src =>
    some (f, ⟨0x110#10, f.d.code, f.a.code, f.b.code, (0#6 ++ src.code), f.guardBits, f.neg, m.bits⟩)
  | .pk2 f m =>
    some (f, ⟨0x111#10, f.d.code, f.a.code, f.b.code, f.c.code, f.guardBits, f.neg, m.bits⟩)
  | .upk2 f m =>
    some (f, ⟨0x112#10, f.d.code, f.a.code, f.b.code, f.c.code, f.guardBits, f.neg, m.bits⟩)
  | .pk8 f m =>
    some (f, ⟨0x113#10, f.d.code, f.a.code, f.b.code, f.c.code, f.guardBits, f.neg, m.bits⟩)
  | .upk8 f m =>
    some (f, ⟨0x114#10, f.d.code, f.a.code, f.b.code, f.c.code, f.guardBits, f.neg, m.bits⟩)
  | .pk4 f m =>
    some (f, ⟨0x115#10, f.d.code, f.a.code, f.b.code, f.c.code, f.guardBits, f.neg, m.bits⟩)
  | .upk4 f m =>
    some (f, ⟨0x116#10, f.d.code, f.a.code, f.b.code, f.c.code, f.guardBits, f.neg, m.bits⟩)
  | .mov f m =>
    some (f, ⟨0x117#10, f.d.code, f.a.code, f.b.code, f.c.code, f.guardBits, f.neg, m.bits⟩)
  | .shfl f mode seg wide =>
    some (f, ⟨0x180#10, f.d.code, f.a.code, f.b.code, f.c.code, f.guardBits, f.neg, mode ++ 0#1 ++ seg ++ (if wide then n64Code else n32Code)⟩)
  | .vote f mode pd pa =>
    some (f, ⟨0x181#10, BitVec.ofNat 10 pd.val, BitVec.ofNat 10 pa.val, f.b.code, f.c.code, f.guardBits, f.neg, 0#1 ++ mode ++ 0#7⟩)
  | .ballot f wide pa =>
    some (f, ⟨0x182#10, f.d.code, BitVec.ofNat 10 pa.val, f.b.code, f.c.code, f.guardBits, f.neg, 0#6 ++ (if wide then n64Code else n32Code)⟩)
  | .mbcnt f =>
    some (f, ⟨0x183#10, f.d.code, f.a.code, f.b.code, f.c.code, f.guardBits, f.neg, 0#10⟩)
  | .redux f op ty =>
    some (f, ⟨0x184#10, f.d.code, f.a.code, f.b.code, f.c.code, f.guardBits, f.neg, op ++ 0#3 ++ ty.code⟩)
  | .matchv f all wide =>
    some (f, ⟨0x185#10, f.d.code, f.a.code, f.b.code, f.c.code, f.guardBits, f.neg, 0#2 ++ (if all then 1#1 else 0#1) ++ 0#3 ++ (if wide then n64Code else n32Code)⟩)
  | .qswap f dir =>
    some (f, ⟨0x186#10, f.d.code, f.a.code, f.b.code, f.c.code, f.guardBits, f.neg, 0#1 ++ dir ++ 0#7⟩)
  | .qbcst f k =>
    some (f, ⟨0x187#10, f.d.code, f.a.code, f.b.code, f.c.code, f.guardBits, f.neg, 0#1 ++ k ++ 0#7⟩)
  | .dpdx f fine =>
    some (f, ⟨0x188#10, f.d.code, f.a.code, f.b.code, f.c.code, f.guardBits, f.neg, 0#2 ++ (if fine then 1#1 else 0#1) ++ 0#3 ++ Ty.f32.code⟩)
  | .dpdy f fine =>
    some (f, ⟨0x189#10, f.d.code, f.a.code, f.b.code, f.c.code, f.guardBits, f.neg, 0#2 ++ (if fine then 1#1 else 0#1) ++ 0#3 ++ Ty.f32.code⟩)
  | .wjoin f =>
    some (f, ⟨0x18A#10, f.d.code, f.a.code, f.b.code, f.c.code, f.guardBits, f.neg, 0#10⟩)
  | .pset f op pd pa pb =>
    some (f, ⟨0x190#10, BitVec.ofNat 10 pd.val, BitVec.ofNat 10 pa.val, BitVec.ofNat 10 pb.val, f.c.code, f.guardBits, f.neg, 0#1 ++ op ++ 0#7⟩)
  | .pmov f wr =>
    some (f, ⟨0x191#10, f.d.code, f.a.code, f.b.code, f.c.code, f.guardBits, f.neg, 0#2 ++ (if wr then 1#1 else 0#1) ++ 0#7⟩)
  | .br f off =>
    some (f, ⟨0x200#10, off.extractLsb' 0 10, off.extractLsb' 10 10, off.extractLsb' 20 10, f.c.code, f.guardBits, f.neg, 0#10⟩)
  | .brall f any off =>
    some (f, ⟨0x201#10, off.extractLsb' 0 10, off.extractLsb' 10 10, off.extractLsb' 20 10, f.c.code, f.guardBits, f.neg, 0#2 ++ (if any then 1#1 else 0#1) ++ 0#7⟩)
  | .jmpi f =>
    some (f, ⟨0x202#10, f.d.code, f.a.code, f.b.code, f.c.code, f.guardBits, f.neg, 0#10⟩)
  | .call f off =>
    some (f, ⟨0x203#10, off.extractLsb' 0 10, off.extractLsb' 10 10, off.extractLsb' 20 10, f.c.code, f.guardBits, f.neg, 0#10⟩)
  | .calli f =>
    some (f, ⟨0x204#10, f.d.code, f.a.code, f.b.code, f.c.code, f.guardBits, f.neg, 0#10⟩)
  | .ret f =>
    some (f, ⟨0x205#10, f.d.code, f.a.code, f.b.code, f.c.code, f.guardBits, f.neg, 0#10⟩)
  | .exit f =>
    some (f, ⟨0x206#10, f.d.code, f.a.code, f.b.code, f.c.code, f.guardBits, f.neg, 0#10⟩)
  | .trap f bkpt imm =>
    some (f, ⟨0x207#10, f.d.code, imm, f.b.code, f.c.code, f.guardBits, f.neg, 0#2 ++ (if bkpt then 1#1 else 0#1) ++ 0#7⟩)
  | .upcall f =>
    some (f, ⟨0x208#10, f.d.code, f.a.code, f.b.code, f.c.code, f.guardBits, f.neg, 0#10⟩)
  | .yield f imm =>
    some (f, ⟨0x209#10, f.d.code, imm, f.b.code, f.c.code, f.guardBits, f.neg, 0#10⟩)
  | .wdog f =>
    some (f, ⟨0x20A#10, f.d.code, f.a.code, f.b.code, f.c.code, f.guardBits, f.neg, 0#10⟩)
  | .rgrp f =>
    some (f, ⟨0x20B#10, f.d.code, f.a.code, f.b.code, f.c.code, f.guardBits, f.neg, 0#10⟩)
  | .nop f =>
    some (f, ⟨0x20C#10, f.d.code, f.a.code, f.b.code, f.c.code, f.guardBits, f.neg, 0#10⟩)
  | .barSync f n =>
    some (f, ⟨0x210#10, f.d.code, f.a.code, f.b.code, f.c.code, f.guardBits, f.neg, BitVec.ofNat 10 n.val⟩)
  | .barArrive f n =>
    some (f, ⟨0x211#10, f.d.code, f.a.code, f.b.code, f.c.code, f.guardBits, f.neg, BitVec.ofNat 10 n.val⟩)
  | .barWait f n =>
    some (f, ⟨0x212#10, f.d.code, f.a.code, f.b.code, f.c.code, f.guardBits, f.neg, BitVec.ofNat 10 n.val⟩)
  | .cbar f mode =>
    some (f, ⟨0x213#10, f.d.code, f.a.code, f.b.code, f.c.code, f.guardBits, f.neg, 0#1 ++ mode ++ 0#7⟩)
  | .srd f wr num =>
    some (f, ⟨0x218#10, f.d.code, f.a.code, f.b.code, f.c.code, f.guardBits, f.neg, (if wr then 1#1 else 0#1) ++ 0#3 ++ num⟩)
  | .tret f =>
    some (f, ⟨0x278#10, f.d.code, f.a.code, f.b.code, f.c.code, f.guardBits, f.neg, 0#10⟩)
  | .swr f wr num =>
    some (f, ⟨0x279#10, f.d.code, f.a.code, f.b.code, f.c.code, f.guardBits, f.neg, (if wr then 1#1 else 0#1) ++ 0#3 ++ num⟩)
  | .tinv f =>
    some (f, ⟨0x27A#10, f.d.code, f.a.code, f.b.code, f.c.code, f.guardBits, f.neg, 0#10⟩)
  | .halt f imm =>
    some (f, ⟨0x27B#10, f.d.code, imm, f.b.code, f.c.code, f.guardBits, f.neg, 0#10⟩)
  | .ld f acc m off =>
    some (f, ⟨0x280#10 + acc.setWidth 10, f.d.code, f.a.code, f.b.code, off, f.guardBits, f.neg, m.bits⟩)
  | .st f acc m off =>
    some (f, ⟨0x288#10 + acc.setWidth 10, f.d.code, f.a.code, f.b.code, off, f.guardBits, f.neg, m.bits⟩)
  | .atom f op m off =>
    some (f, ⟨0x290#10 + op.setWidth 10, f.d.code, f.a.code, f.b.code, off, f.guardBits, f.neg, m.bits⟩)
  | .red f op m off =>
    some (f, ⟨0x2B0#10 + op.setWidth 10, f.d.code, f.a.code, f.b.code, off, f.guardBits, f.neg, m.bits⟩)
  | .fence f order scope =>
    some (f, ⟨0x2D0#10, f.d.code, f.a.code, f.b.code, f.c.code, f.guardBits, f.neg, 0#3 ++ scope.code ++ order.code ++ 0#2⟩)
  | .wait f cond wide scope space off =>
    some (f, ⟨0x2D1#10, f.d.code, f.a.code, f.b.code, off, f.guardBits, f.neg, cond ++ (if wide then 1#1 else 0#1) ++ scope.code ++ 1#2 ++ space.code⟩)
  | .pf f hint off =>
    some (f, ⟨0x2D2#10, f.d.code, f.a.code, f.b.code, off, f.guardBits, f.neg, hint ++ 0x70#8⟩)
  | .qpop f =>
    some (f, ⟨0x300#10, f.d.code, f.a.code, f.b.code, f.c.code, f.guardBits, f.neg, 0#10⟩)
  | .qpeek f =>
    some (f, ⟨0x301#10, f.d.code, f.a.code, f.b.code, f.c.code, f.guardBits, f.neg, 0#10⟩)
  | .qtest f mode pd =>
    some (f, ⟨0x302#10, BitVec.ofNat 10 pd.val, f.a.code, f.b.code, f.c.code, f.guardBits, f.neg, 0#1 ++ mode ++ 0#7⟩)
  | .qback f wide =>
    some (f, ⟨0x303#10, f.d.code, f.a.code, f.b.code, f.c.code, f.guardBits, f.neg, 0#6 ++ (if wide then n64Code else n32Code)⟩)
  | .qskip f =>
    some (f, ⟨0x304#10, f.d.code, f.a.code, f.b.code, f.c.code, f.guardBits, f.neg, 0#10⟩)
  | .agen f gen field =>
    some (f, ⟨0x308#10, BitVec.ofNat 10 gen.val, f.a.code, f.b.code, f.c.code, f.guardBits, f.neg, field ++ 0#7⟩)
  | .aload f gen acc m sel off =>
    some (f, ⟨0x310#10 + acc.setWidth 10, f.d.code, BitVec.ofNat 10 gen.val, sel, off, f.guardBits, f.neg, m.bits⟩)
  | .astore f gen acc m off =>
    some (f, ⟨0x318#10 + acc.setWidth 10, f.d.code, BitVec.ofNat 10 gen.val, f.b.code, off, f.guardBits, f.neg, m.bits⟩)
  | .apf f gen hint off =>
    some (f, ⟨0x325#10, f.d.code, BitVec.ofNat 10 gen.val, f.b.code, off, f.guardBits, f.neg, hint ++ 0x70#8⟩)
  | .aloop f k off =>
    some (f, ⟨0x320#10, off.extractLsb' 0 10, off.extractLsb' 10 10, off.extractLsb' 20 10, f.c.code, f.guardBits, f.neg, BitVec.ofNat 10 k.val⟩)
  | .aend f =>
    some (f, ⟨0x321#10, f.d.code, f.a.code, f.b.code, f.c.code, f.guardBits, f.neg, 0#10⟩)
  | .apop f =>
    some (f, ⟨0x322#10, f.d.code, f.a.code, f.b.code, f.c.code, f.guardBits, f.neg, 0#10⟩)
  | .abq f z off =>
    some (f, ⟨0x323#10, off.extractLsb' 0 10, off.extractLsb' 10 10, off.extractLsb' 20 10, f.c.code, f.guardBits, f.neg, 0#2 ++ (if z then 1#1 else 0#1) ++ 0#7⟩)
  | .aslip f q =>
    some (f, ⟨0x324#10, f.d.code, f.a.code, f.b.code, f.c.code, f.guardBits, f.neg, BitVec.ofNat 10 q.val⟩)
  | .cpy f space =>
    some (f, ⟨0x330#10, f.d.code, f.a.code, f.b.code, f.c.code, f.guardBits, f.neg, 0#8 ++ space.code⟩)
  | .cpy2d f space =>
    some (f, ⟨0x331#10, f.d.code, f.a.code, f.b.code, f.c.code, f.guardBits, f.neg, 0#8 ++ space.code⟩)
  | .cpyg f space =>
    some (f, ⟨0x332#10, f.d.code, f.a.code, f.b.code, f.c.code, f.guardBits, f.neg, 0#8 ++ space.code⟩)
  | .ccan f =>
    some (f, ⟨0x333#10, f.d.code, f.a.code, f.b.code, f.c.code, f.guardBits, f.neg, 0#10⟩)
  | .cstat f =>
    some (f, ⟨0x334#10, f.d.code, f.a.code, f.b.code, f.c.code, f.guardBits, f.neg, 0#10⟩)
  | .treserve f =>
    some (f, ⟨0x340#10, f.d.code, f.a.code, f.b.code, f.c.code, f.guardBits, f.neg, 0#10⟩)
  | .tpost f space =>
    some (f, ⟨0x341#10, f.d.code, f.a.code, f.b.code, f.c.code, f.guardBits, f.neg, 0#8 ++ space.code⟩)
  | .tdone f =>
    some (f, ⟨0x342#10, f.d.code, f.a.code, f.b.code, f.c.code, f.guardBits, f.neg, 0#10⟩)
  | .hqget f =>
    some (f, ⟨0x343#10, f.d.code, f.a.code, f.b.code, f.c.code, f.guardBits, f.neg, 0#10⟩)
  | .hqput f space =>
    some (f, ⟨0x344#10, f.d.code, f.a.code, f.b.code, f.c.code, f.guardBits, f.neg, 0#8 ++ space.code⟩)
  | .mclaim f both =>
    some (f, ⟨0x380#10, f.d.code, f.a.code, f.b.code, f.c.code, f.guardBits, f.neg, 0#2 ++ (if both then 1#1 else 0#1) ++ 0#7⟩)
  | .mrel f =>
    some (f, ⟨0x381#10, f.d.code, f.a.code, f.b.code, f.c.code, f.guardBits, f.neg, 0#10⟩)
  | .mfmt f =>
    some (f, ⟨0x382#10, f.d.code, f.a.code, f.b.code, f.c.code, f.guardBits, f.neg, 0#10⟩)
  | .mscl f imm =>
    some (f, ⟨0x383#10, f.d.code, f.a.code, f.b.code, imm, f.guardBits, f.neg, 0#10⟩)
  | .mwld f arr chi =>
    some (f, ⟨0x384#10, f.d.code, f.a.code, f.b.code, f.c.code, f.guardBits, f.neg, 0#1 ++ (if chi then 1#1 else 0#1) ++ BitVec.ofNat 1 arr.val ++ 0#7⟩)
  | .mswap f arr =>
    some (f, ⟨0x385#10, f.d.code, f.a.code, f.b.code, f.c.code, f.guardBits, f.neg, 0#2 ++ BitVec.ofNat 1 arr.val ++ 0#7⟩)
  | .mact f arr slot =>
    some (f, ⟨0x386#10, f.d.code, f.a.code, f.b.code, f.c.code, f.guardBits, f.neg, BitVec.ofNat 2 slot.val ++ BitVec.ofNat 1 arr.val ++ 0#7⟩)
  | .mzero f arr =>
    some (f, ⟨0x387#10, f.d.code, f.a.code, f.b.code, f.c.code, f.guardBits, f.neg, 0#2 ++ BitVec.ofNat 1 arr.val ++ 0#7⟩)
  | .mst f arr ty =>
    some (f, ⟨0x388#10, f.d.code, f.a.code, f.b.code, f.c.code, f.guardBits, f.neg, 0#2 ++ BitVec.ofNat 1 arr.val ++ 0#3 ++ ty.code⟩)
  | .mwait f ld cmp st =>
    some (f, ⟨0x389#10, f.d.code, f.a.code, f.b.code, f.c.code, f.guardBits, f.neg, (if st then 1#1 else 0#1) ++ (if cmp then 1#1 else 0#1) ++ (if ld then 1#1 else 0#1) ++ 0#7⟩)
  | .mend f =>
    some (f, ⟨0x38A#10, f.d.code, f.a.code, f.b.code, f.c.code, f.guardBits, f.neg, 0#10⟩)
  | .rtbvh f any space =>
    some (f, ⟨0x3A0#10, f.d.code, f.a.code, f.b.code, f.c.code, f.guardBits, f.neg, 0#2 ++ (if any then 1#1 else 0#1) ++ 0#5 ++ space.code⟩)
  | .rtmesh f mode space =>
    some (f, ⟨0x3A1#10, f.d.code, f.a.code, f.b.code, f.c.code, f.guardBits, f.neg, 0#1 ++ BitVec.ofNat 2 mode.val ++ 0#5 ++ space.code⟩)
  | .rtloc f space =>
    some (f, ⟨0x3A2#10, f.d.code, f.a.code, f.b.code, f.c.code, f.guardBits, f.neg, 0#8 ++ space.code⟩)
  | .rtres f space =>
    some (f, ⟨0x3A3#10, f.d.code, f.a.code, f.b.code, f.c.code, f.guardBits, f.neg, 0#8 ++ space.code⟩)
  | .rtsave f =>
    some (f, ⟨0x3A4#10, f.d.code, f.a.code, f.b.code, f.c.code, f.guardBits, f.neg, 0#10⟩)
  | .tex f n =>
    some (f, ⟨0x3C0#10, f.d.code, f.a.code, f.b.code, f.c.code, f.guardBits, f.neg, 0#8 ++ n⟩)
  | .texl f n =>
    some (f, ⟨0x3C1#10, f.d.code, f.a.code, f.b.code, f.c.code, f.guardBits, f.neg, 0#8 ++ n⟩)
  | .texg f n =>
    some (f, ⟨0x3C2#10, f.d.code, f.a.code, f.b.code, f.c.code, f.guardBits, f.neg, 0#8 ++ n⟩)
  | .texq f =>
    some (f, ⟨0x3C3#10, f.d.code, f.a.code, f.b.code, f.c.code, f.guardBits, f.neg, 0#10⟩)
  | .imld f n =>
    some (f, ⟨0x3C4#10, f.d.code, f.a.code, f.b.code, f.c.code, f.guardBits, f.neg, 0#8 ++ n⟩)
  | .imst f n =>
    some (f, ⟨0x3C5#10, f.d.code, f.a.code, f.b.code, f.c.code, f.guardBits, f.neg, 0#8 ++ n⟩)
  | .attr f mode =>
    some (f, ⟨0x3C6#10, f.d.code, f.a.code, f.b.code, f.c.code, f.guardBits, f.neg, 0#1 ++ mode ++ 0#7⟩)
  | .vbw f =>
    some (f, ⟨0x3C7#10, f.d.code, f.a.code, f.b.code, f.c.code, f.guardBits, f.neg, 0#10⟩)
  | _ => none

/-- Class 000 of the opcode map (R118): the form an opcode stands for, its fields picked out of the word; none where the
opcode is unassigned. -/
def buildInt (r : Raw) : Option (Full → Instr) :=
  match r.opc.toNat with
  | 0x000 => some (.iadd · (AluMod.ofBits r.mod))
  | 0x001 => some (.isub · (AluMod.ofBits r.mod))
  | 0x002 => some (.iaddc · (AluMod.ofBits r.mod))
  | 0x003 => some (.isubb · (AluMod.ofBits r.mod))
  | 0x004 => some (.imul · (AluMod.ofBits r.mod))
  | 0x005 => some (.imulhi · (AluMod.ofBits r.mod))
  | 0x006 => some (.imad · (AluMod.ofBits r.mod))
  | 0x007 => some (.imadw · (AluMod.ofBits r.mod))
  | 0x008 => some (.iabs · (AluMod.ofBits r.mod))
  | 0x009 => some (.ineg · (AluMod.ofBits r.mod))
  | 0x00A => some (.imin · (AluMod.ofBits r.mod))
  | 0x00B => some (.imax · (AluMod.ofBits r.mod))
  | 0x00C => some (.icmp · (AluMod.ofBits r.mod) (Fin.ofNat 8 (r.d).toNat))
  | 0x00D => some (.isel · (AluMod.ofBits r.mod) (Fin.ofNat 8 (r.c).toNat))
  | 0x00E => some (.and · (AluMod.ofBits r.mod))
  | 0x00F => some (.or · (AluMod.ofBits r.mod))
  | 0x010 => some (.xor · (AluMod.ofBits r.mod))
  | 0x011 => some (.andn · (AluMod.ofBits r.mod))
  | 0x012 => some (.tlog · (r.mod.extractLsb' 0 8))
  | 0x013 => some (.shl · (AluMod.ofBits r.mod))
  | 0x014 => some (.shr · (AluMod.ofBits r.mod))
  | 0x015 => some (.sar · (AluMod.ofBits r.mod))
  | 0x016 => some (.fsh · (AluMod.ofBits r.mod))
  | 0x017 => some (.bfe · (AluMod.ofBits r.mod))
  | 0x018 => some (.bfi · (AluMod.ofBits r.mod))
  | 0x019 => some (.popc · (AluMod.ofBits r.mod))
  | 0x01A => some (.clz · (AluMod.ofBits r.mod))
  | 0x01B => some (.brev · (AluMod.ofBits r.mod))
  | 0x01C => some (.bmix · (AluMod.ofBits r.mod))
  | _ => none

/-- Class 001 of the opcode map (R118): the form an opcode stands for, its fields picked out of the word; none where the
opcode is unassigned. -/
def buildFloat (r : Raw) : Option (Full → Instr) :=
  match r.opc.toNat with
  | 0x080 => some (.fadd · (AluMod.ofBits r.mod))
  | 0x081 => some (.fsub · (AluMod.ofBits r.mod))
  | 0x082 => some (.fmul · (AluMod.ofBits r.mod))
  | 0x083 => some (.ffma · (AluMod.ofBits r.mod))
  | 0x084 => some (.fmin · (AluMod.ofBits r.mod))
  | 0x085 => some (.fmax · (AluMod.ofBits r.mod))
  | 0x086 => some (.fcmp · (AluMod.ofBits r.mod) (Fin.ofNat 8 (r.d).toNat))
  | 0x087 => some (.frnd · (AluMod.ofBits r.mod))
  | 0x088 => some (.fclass · (AluMod.ofBits r.mod))
  | 0x089 => some (.fcpsgn · (AluMod.ofBits r.mod))
  | 0x08A => some (.hadd2 · (AluMod.ofBits r.mod))
  | 0x08B => some (.hmul2 · (AluMod.ofBits r.mod))
  | 0x08C => some (.hfma2 · (AluMod.ofBits r.mod))
  | 0x08D => some (.hmin2 · (AluMod.ofBits r.mod))
  | 0x08E => some (.hmax2 · (AluMod.ofBits r.mod))
  | _ => none

/-- Class 010 of the opcode map (R118): the form an opcode stands for, its fields picked out of the word; none where the
opcode is unassigned. -/
def buildHelper (r : Raw) : Option (Full → Instr) :=
  match r.opc.toNat with
  | 0x100 => some (.frcps · (AluMod.ofBits r.mod))
  | 0x101 => some (.frsqs · (AluMod.ofBits r.mod))
  | 0x102 => some (.fexpr · (AluMod.ofBits r.mod))
  | 0x103 => some (.fscale · (AluMod.ofBits r.mod))
  | 0x104 => some (.fgetexp · (AluMod.ofBits r.mod))
  | 0x105 => some (.fgetman · (AluMod.ofBits r.mod))
  | 0x106 => some (.flogr · (AluMod.ofBits r.mod))
  | 0x107 => some (.fsinr · (AluMod.ofBits r.mod))
  | 0x108 => some (.fdivfx · (AluMod.ofBits r.mod))
  | 0x109 => some (.fsqrtfx · (AluMod.ofBits r.mod))
  | 0x110 => some (.cvt · (AluMod.ofBits r.mod) (Ty.ofCode (r.c.extractLsb' 0 4)))
  | 0x111 => some (.pk2 · (AluMod.ofBits r.mod))
  | 0x112 => some (.upk2 · (AluMod.ofBits r.mod))
  | 0x113 => some (.pk8 · (AluMod.ofBits r.mod))
  | 0x114 => some (.upk8 · (AluMod.ofBits r.mod))
  | 0x115 => some (.pk4 · (AluMod.ofBits r.mod))
  | 0x116 => some (.upk4 · (AluMod.ofBits r.mod))
  | 0x117 => some (.mov · (AluMod.ofBits r.mod))
  | _ => none

/-- Class 011 of the opcode map (R118): the form an opcode stands for, its fields picked out of the word; none where the
opcode is unassigned. -/
def buildLane (r : Raw) : Option (Full → Instr) :=
  match r.opc.toNat with
  | 0x180 => some (.shfl · (r.mod.extractLsb' 8 2) (r.mod.extractLsb' 4 3) ((r.mod.extractLsb' 0 4) == n64Code))
  | 0x181 => some (.vote · (r.mod.extractLsb' 7 2) (Fin.ofNat 8 (r.d).toNat) (Fin.ofNat 8 (r.a).toNat))
  | 0x182 => some (.ballot · ((r.mod.extractLsb' 0 4) == n64Code) (Fin.ofNat 8 (r.a).toNat))
  | 0x183 => some (.mbcnt ·)
  | 0x184 => some (.redux · (r.mod.extractLsb' 7 3) (Ty.ofCode (r.mod.extractLsb' 0 4)))
  | 0x185 => some (.matchv · (r.mod.getLsbD 7) ((r.mod.extractLsb' 0 4) == n64Code))
  | 0x186 => some (.qswap · (r.mod.extractLsb' 7 2))
  | 0x187 => some (.qbcst · (r.mod.extractLsb' 7 2))
  | 0x188 => some (.dpdx · (r.mod.getLsbD 7))
  | 0x189 => some (.dpdy · (r.mod.getLsbD 7))
  | 0x18A => some (.wjoin ·)
  | 0x190 => some (.pset · (r.mod.extractLsb' 7 2) (Fin.ofNat 8 (r.d).toNat) (Fin.ofNat 8 (r.a).toNat) (Fin.ofNat 8 (r.b).toNat))
  | 0x191 => some (.pmov · (r.mod.getLsbD 7))
  | _ => none

/-- Class 100 of the opcode map (R118): the form an opcode stands for, its fields picked out of the word; none where the
opcode is unassigned. -/
def buildControl (r : Raw) : Option (Full → Instr) :=
  match r.opc.toNat with
  | 0x200 => some (.br · (r.b ++ r.a ++ r.d))
  | 0x201 => some (.brall · (r.mod.getLsbD 7) (r.b ++ r.a ++ r.d))
  | 0x202 => some (.jmpi ·)
  | 0x203 => some (.call · (r.b ++ r.a ++ r.d))
  | 0x204 => some (.calli ·)
  | 0x205 => some (.ret ·)
  | 0x206 => some (.exit ·)
  | 0x207 => some (.trap · (r.mod.getLsbD 7) r.a)
  | 0x208 => some (.upcall ·)
  | 0x209 => some (.yield · r.a)
  | 0x20A => some (.wdog ·)
  | 0x20B => some (.rgrp ·)
  | 0x20C => some (.nop ·)
  | 0x210 => some (.barSync · (Fin.ofNat 16 (r.mod).toNat))
  | 0x211 => some (.barArrive · (Fin.ofNat 16 (r.mod).toNat))
  | 0x212 => some (.barWait · (Fin.ofNat 16 (r.mod).toNat))
  | 0x213 => some (.cbar · (r.mod.extractLsb' 7 2))
  | 0x218 => some (.srd · (r.mod.getLsbD 9) (r.mod.extractLsb' 0 6))
  | 0x278 => some (.tret ·)
  | 0x279 => some (.swr · (r.mod.getLsbD 9) (r.mod.extractLsb' 0 6))
  | 0x27A => some (.tinv ·)
  | 0x27B => some (.halt · r.a)
  | _ => none

/-- Class 101 of the opcode map (R118): the form an opcode stands for, its fields picked out of the word; none where the
opcode is unassigned. -/
def buildMemory (r : Raw) : Option (Full → Instr) :=
  if 0x280 ≤ r.opc.toNat && r.opc.toNat < 0x286 then
    some (.ld · (r.opc.extractLsb' 0 3) (MemMod.ofBits r.mod) r.c)
  else
  if 0x288 ≤ r.opc.toNat && r.opc.toNat < 0x28C then
    some (.st · (r.opc.extractLsb' 0 3) (MemMod.ofBits r.mod) r.c)
  else
  if 0x290 ≤ r.opc.toNat && r.opc.toNat < 0x2A8 then
    some (.atom · ((r.opc - 0x290#10).setWidth 5) (MemMod.ofBits r.mod) r.c)
  else
  if 0x2B0 ≤ r.opc.toNat && r.opc.toNat < 0x2C8 && !(0x2C0 ≤ r.opc.toNat && r.opc.toNat ≤ 0x2C3) then
    some (.red · ((r.opc - 0x2B0#10).setWidth 5) (MemMod.ofBits r.mod) r.c)
  else
  match r.opc.toNat with
  | 0x2D0 => some (.fence · (Order.ofCode (r.mod.extractLsb' 2 2)) (Scope.ofCode (r.mod.extractLsb' 4 3)))
  | 0x2D1 => some (.wait · (r.mod.extractLsb' 8 2) (r.mod.getLsbD 7) (Scope.ofCode (r.mod.extractLsb' 4 3)) (Space.ofCode (r.mod.extractLsb' 0 2)) r.c)
  | 0x2D2 => some (.pf · (r.mod.extractLsb' 8 2) r.c)
  | _ => none

/-- Class 110 of the opcode map (R118): the form an opcode stands for, its fields picked out of the word; none where the
opcode is unassigned. -/
def buildAccess (r : Raw) : Option (Full → Instr) :=
  if 0x310 ≤ r.opc.toNat && r.opc.toNat < 0x316 then
    some (.aload · (Fin.ofNat 8 (r.a).toNat) (r.opc.extractLsb' 0 3) (MemMod.ofBits r.mod) r.b r.c)
  else
  if 0x318 ≤ r.opc.toNat && r.opc.toNat < 0x31C then
    some (.astore · (Fin.ofNat 8 (r.a).toNat) (r.opc.extractLsb' 0 3) (MemMod.ofBits r.mod) r.c)
  else
  match r.opc.toNat with
  | 0x300 => some (.qpop ·)
  | 0x301 => some (.qpeek ·)
  | 0x302 => some (.qtest · (r.mod.extractLsb' 7 2) (Fin.ofNat 8 (r.d).toNat))
  | 0x303 => some (.qback · ((r.mod.extractLsb' 0 4) == n64Code))
  | 0x304 => some (.qskip ·)
  | 0x308 => some (.agen · (Fin.ofNat 8 (r.d).toNat) (r.mod.extractLsb' 7 3))
  | 0x325 => some (.apf · (Fin.ofNat 8 (r.a).toNat) (r.mod.extractLsb' 8 2) r.c)
  | 0x320 => some (.aloop · (Fin.ofNat 4 (r.mod).toNat) (r.b ++ r.a ++ r.d))
  | 0x321 => some (.aend ·)
  | 0x322 => some (.apop ·)
  | 0x323 => some (.abq · (r.mod.getLsbD 7) (r.b ++ r.a ++ r.d))
  | 0x324 => some (.aslip · (Fin.ofNat 8 (r.mod).toNat))
  | 0x330 => some (.cpy · (Space.ofCode (r.mod.extractLsb' 0 2)))
  | 0x331 => some (.cpy2d · (Space.ofCode (r.mod.extractLsb' 0 2)))
  | 0x332 => some (.cpyg · (Space.ofCode (r.mod.extractLsb' 0 2)))
  | 0x333 => some (.ccan ·)
  | 0x334 => some (.cstat ·)
  | 0x340 => some (.treserve ·)
  | 0x341 => some (.tpost · (Space.ofCode (r.mod.extractLsb' 0 2)))
  | 0x342 => some (.tdone ·)
  | 0x343 => some (.hqget ·)
  | 0x344 => some (.hqput · (Space.ofCode (r.mod.extractLsb' 0 2)))
  | _ => none

/-- Class 111 of the opcode map (R118): the form an opcode stands for, its fields picked out of the word; none where the
opcode is unassigned. -/
def buildEngine (r : Raw) : Option (Full → Instr) :=
  match r.opc.toNat with
  | 0x380 => some (.mclaim · (r.mod.getLsbD 7))
  | 0x381 => some (.mrel ·)
  | 0x382 => some (.mfmt ·)
  | 0x383 => some (.mscl · r.c)
  | 0x384 => some (.mwld · (Fin.ofNat 2 ((r.mod.extractLsb' 7 1)).toNat) (r.mod.getLsbD 8))
  | 0x385 => some (.mswap · (Fin.ofNat 2 ((r.mod.extractLsb' 7 1)).toNat))
  | 0x386 => some (.mact · (Fin.ofNat 2 ((r.mod.extractLsb' 7 1)).toNat) (Fin.ofNat 4 ((r.mod.extractLsb' 8 2)).toNat))
  | 0x387 => some (.mzero · (Fin.ofNat 2 ((r.mod.extractLsb' 7 1)).toNat))
  | 0x388 => some (.mst · (Fin.ofNat 2 ((r.mod.extractLsb' 7 1)).toNat) (Ty.ofCode (r.mod.extractLsb' 0 4)))
  | 0x389 => some (.mwait · (r.mod.getLsbD 7) (r.mod.getLsbD 8) (r.mod.getLsbD 9))
  | 0x38A => some (.mend ·)
  | 0x3A0 => some (.rtbvh · (r.mod.getLsbD 7) (Space.ofCode (r.mod.extractLsb' 0 2)))
  | 0x3A1 => some (.rtmesh · (Fin.ofNat 4 ((r.mod.extractLsb' 7 2)).toNat) (Space.ofCode (r.mod.extractLsb' 0 2)))
  | 0x3A2 => some (.rtloc · (Space.ofCode (r.mod.extractLsb' 0 2)))
  | 0x3A3 => some (.rtres · (Space.ofCode (r.mod.extractLsb' 0 2)))
  | 0x3A4 => some (.rtsave ·)
  | 0x3C0 => some (.tex · (r.mod.extractLsb' 0 2))
  | 0x3C1 => some (.texl · (r.mod.extractLsb' 0 2))
  | 0x3C2 => some (.texg · (r.mod.extractLsb' 0 2))
  | 0x3C3 => some (.texq ·)
  | 0x3C4 => some (.imld · (r.mod.extractLsb' 0 2))
  | 0x3C5 => some (.imst · (r.mod.extractLsb' 0 2))
  | 0x3C6 => some (.attr · (r.mod.extractLsb' 7 2))
  | 0x3C7 => some (.vbw ·)
  | _ => none

/-- The form of a full word, by opcode class. -/
def build (r : Raw) : Option (Full → Instr) :=
  match (r.opc >>> 7).toNat with
  | 0 => buildInt r
  | 1 => buildFloat r
  | 2 => buildHelper r
  | 3 => buildLane r
  | 4 => buildControl r
  | 5 => buildMemory r
  | 6 => buildAccess r
  | 7 => buildEngine r
  | _ => none

/-! ### Decoding and encoding a full word -/

/-- A full word with no operand, to ask a form for its shape. -/
def Full.blank : Full := ⟨false, 0, none, .null, .null, .null, .null⟩

/-- The code of a field read as an operand; a raw field gives `null`. -/
def readField (sl : Slot) (code : BitVec 10) : Option Operand :=
  match sl with
  | .raw => some .null
  | sl => (Operand.ofCode code).bind fun o => if sl.ok o then some o else none

/-- A field that reads an operand names the literal word. -/
def namesLit (sl : Slot) (code : BitVec 10) : Bool :=
  match sl with
  | .raw => false
  | .none => false
  | _ => code == 0x3F0 || code == 0x3F1 || code == 0x3F2

/-- Some operand field of the word names the literal word (R94, R106). -/
def Raw.usesLit (sh : Shape) (r : Raw) : Bool :=
  namesLit sh.d r.d || namesLit sh.a r.a || namesLit sh.b r.b || namesLit sh.c r.c

/-- The operands of a word under a shape; none on a RESERVED_FIELD. GUARD = 7 with GNEG = 1 is one (R99). -/
def readFull (sh : Shape) (r : Raw) (lit : Option W64) : Option Full :=
  if r.guard == 7 && r.neg then none
  else
    match readField sh.d r.d, readField sh.a r.a, readField sh.b r.b, readField sh.c r.c with
    | some d, some a, some b, some c => some ⟨r.neg, Fin.ofNat 8 r.guard.toNat, lit, d, a, b, c⟩
    | _, _, _, _ => none

/-- Decode the fields of a full word, with the literal word that follows it if one does (R99, R106, R113, R114). A field that
the form does not define must re-encode to itself: unused operand fields hold 0x3FF, undefined MOD bits zero. -/
def decodeRaw (r : Raw) (lit : Option W64) : Except Reject Instr :=
  match build r with
  | none => .error .illegal
  | some mk =>
    let sh := shapeOf (mk .blank)
    if r.usesLit sh != lit.isSome then .error .literal
    else
      match readFull sh r lit with
      | none => .error .reserved
      | some f =>
        if fieldsOk (mk f) && (rawOf (mk f) == some (f, r)) then .ok (mk f) else .error .reserved

/-- Decode a full word. -/
def decodeFull (w : W64) (lit : Option W64) : Except Reject Instr := decodeRaw (Raw.unpack w) lit

/-! ### Pair words -/

/-- The pair opcode (R104). -/
def PairOp.code : PairOp → BitVec 8
  | .mov => 0x01 | .iadd => 0x02 | .isub => 0x03 | .and => 0x04 | .or => 0x05 | .xor => 0x06 | .shl => 0x07 | .shr => 0x08
  | .sar => 0x09 | .imin => 0x0A | .imax => 0x0B | .fadd => 0x20 | .fsub => 0x21 | .fmul => 0x22 | .fmin => 0x23
  | .fmax => 0x24 | .hadd2 => 0x25 | .hmul2 => 0x26 | .movF => 0x27

/-- The operation of a pair opcode other than 0x00 (R104). -/
def PairOp.ofCode (c : BitVec 8) : Option PairOp :=
  match c.toNat with
  | 0x01 => some .mov | 0x02 => some .iadd | 0x03 => some .isub | 0x04 => some .and | 0x05 => some .or | 0x06 => some .xor
  | 0x07 => some .shl | 0x08 => some .shr | 0x09 => some .sar | 0x0A => some .imin | 0x0B => some .imax
  | 0x20 => some .fadd | 0x21 => some .fsub | 0x22 => some .fmul | 0x23 => some .fmin | 0x24 => some .fmax
  | 0x25 => some .hadd2 | 0x26 => some .hmul2 | 0x27 => some .movF
  | _ => none

/-- The form runs on the FMA pipe; otherwise on the integer pipe (R104). -/
def PairOp.fma (p : PairOp) : Bool := 0x20 ≤ p.code.toNat

/-- The half reads its destination as its first source (R105). -/
def PairOp.readsD : PairOp → Bool
  | .mov => false
  | .movF => false
  | _ => true

/-- The 8-bit code of a pair operand (R93). -/
def POperand.code : POperand → BitVec 8
  | .v n => BitVec.ofNat 8 n.val
  | .o n => BitVec.ofNat 8 (0x80 + n.val)
  | .h n => BitVec.ofNat 8 (0xA0 + n.val)
  | .s n => BitVec.ofNat 8 (0xB0 + n.val)
  | .k n => BitVec.ofNat 8 (0xD0 + n.val)

/-- What an 8-bit code names; none where it is reserved (R93). -/
def POperand.ofCode (c : BitVec 8) : Option POperand :=
  let n := c.toNat
  if n < 0x80 then some (.v (Fin.ofNat 128 n))
  else if n < 0xA0 then some (.o (Fin.ofNat 32 (n - 0x80)))
  else if n < 0xA4 then some (.h (Fin.ofNat 4 (n - 0xA0)))
  else if n < 0xB0 then none
  else if n < 0xD0 then some (.s (Fin.ofNat 32 (n - 0xB0)))
  else if n < 0xF0 then some (.k (Fin.ofNat 32 (n - 0xD0)))
  else none

/-- A destination a half may write (R104). -/
def POperand.writable : POperand → Bool
  | .h _ => false
  | .k _ => false
  | _ => true

/-- The bits of a half (R103). -/
def Half.bits : Half → W32
  | .nop => 0
  | .op p rnd neg guard d s =>
    (if p.fma then 0#2 ++ rnd.code else 0#4) ++ (if neg then 1#1 else 0#1) ++ BitVec.ofNat 3 guard.val ++
      s.code ++ d.code ++ p.code

/-- A half read from its bits; none on a RESERVED_FIELD, given that its opcode is assigned (R103, R104). -/
def Half.ofBits (x : W32) : Option Half :=
  if x == 0 then some .nop
  else
    match PairOp.ofCode (x.extractLsb' 0 8), POperand.ofCode (x.extractLsb' 8 8), POperand.ofCode (x.extractLsb' 16 8) with
    | some p, some d, some s =>
      let h := Half.op p (if p.fma then Rnd.ofCode (x.extractLsb' 28 2) else .rne) (x.getLsbD 27)
        (Fin.ofNat 8 (x.extractLsb' 24 3).toNat) d s
      if d.writable && !(x.extractLsb' 24 3 == 7 && x.getLsbD 27) && h.bits == x then some h else none
    | _, _, _ => none

/-- The v registers a half reads, from its bits (R105). -/
def halfReads (x : W32) : List Nat :=
  match PairOp.ofCode (x.extractLsb' 0 8) with
  | none => []
  | some p =>
    ((if p.readsD then [(x.extractLsb' 8 8).toNat] else []) ++ [(x.extractLsb' 16 8).toNat]).filter (· < 0x80)

/-- The two halves break a pair rule (R105): one destination, one pipe, or a shared bank. -/
def pairBroken (x y : W32) : Bool :=
  match PairOp.ofCode (x.extractLsb' 0 8), PairOp.ofCode (y.extractLsb' 0 8) with
  | some p, some q =>
    x.extractLsb' 8 8 == y.extractLsb' 8 8 || p.fma == q.fma ||
      (halfReads x).any fun m => (halfReads y).any fun n => m != n && m % 4 == n % 4
  | _, _ => false

/-- The low byte of a half is an assigned pair opcode (R104). -/
def popAssigned (x : W32) : Bool := x.extractLsb' 0 8 == 0 || (PairOp.ofCode (x.extractLsb' 0 8)).isSome

/-- Decode a pair word (R103 to R105), in the order of R114. -/
def decodePair (w : W64) : Except Reject Instr :=
  let x := w.extractLsb' 0 32
  let y := w.extractLsb' 32 32
  if !(popAssigned x && popAssigned y) then .error .illegal
  else if pairBroken x y then .error .pair
  else
    match Half.ofBits x, Half.ofBits y with
    | some h0, some h1 => .ok (.pairWord h0 h1)
    | _, _ => .error .reserved

/-! ### Encoding -/

/-- The word of an encoded form or a pair, and the literal word that follows it if it names one. A device step has none. -/
def encode (i : Instr) : Option (W64 × Option W64) :=
  match i with
  | .pairWord h0 h1 => some (h1.bits ++ h0.bits, none)
  | i => (rawOf i).map fun x => (x.2.pack, x.1.lit)

/-! ### Bundles -/

/-- The kinds of slot (R95). -/
inductive Kind where
  | empty | full | pair | literal
  deriving DecidableEq, Repr

/-- KINDn of a control word, n from 1 to 3 (R95). -/
def ctlKind (ctl : W64) (n : Nat) : Kind :=
  match (ctl.extractLsb' (2 * n - 2) 2).toNat with
  | 0 => .empty | 1 => .full | 2 => .pair | _ => .literal

/-- The switch marker of slot n (R95). -/
def ctlMarker (ctl : W64) (n : Nat) : Bool := ctl.getLsbD (5 + n)

/-- The YIELD hint of slot n (R95). -/
def ctlYield (ctl : W64) (n : Nat) : Bool := ctl.getLsbD (27 + n)

/-- The STALL hint of slot n (R95). -/
def ctlStall (ctl : W64) (n : Nat) : Nat := (ctl.extractLsb' (16 + 4 * (n - 1)) 4).toNat

/-- The control-word checks (R114), in their order. -/
def checkCtl (ctl : W64) : Option Reject :=
  if ctl.extractLsb' 12 4 != 1 then some .format
  else if ctl.extractLsb' 9 3 != 0 then some .control
  else if [1, 2, 3].any (fun n => ctlMarker ctl n && (ctlKind ctl n == .empty || ctlKind ctl n == .literal)) then
    some .control
  else none

/-- A bundle: the control word and its three slots (R95). -/
structure Bundle where
  ctl : W64
  w1 : W64
  w2 : W64
  w3 : W64
  deriving DecidableEq, Repr

/-- The word of slot n, 1 to 3. -/
def Bundle.slot (b : Bundle) (n : Nat) : W64 :=
  match n with | 1 => b.w1 | 2 => b.w2 | _ => b.w3

/-- Slot n holds an instruction: full, pair, or an empty slot that does not hold zero, or a literal that follows no full
slot; the last two trap when they would issue (R96, R106). -/
def Bundle.issues (b : Bundle) (n : Nat) : Bool :=
  match ctlKind b.ctl n with
  | .full => true
  | .pair => true
  | .empty => b.slot n != 0
  | .literal => n == 1 || ctlKind b.ctl (n - 1) != .full

/-- Decode slot n of a bundle (R96, R106). A split that continues at a literal slot traps LITERAL_MISPLACED there (17 R423). -/
def Bundle.decode (b : Bundle) (n : Nat) : Except Reject Instr :=
  match ctlKind b.ctl n with
  | .empty => .error .reserved
  | .literal => .error .literal
  | .pair => decodePair (b.slot n)
  | .full => decodeFull (b.slot n) (if n < 3 && ctlKind b.ctl (n + 1) == .literal then some (b.slot (n + 1)) else none)

/-- Eight bytes of memory, the lowest address first, as a word (00 R5). -/
def wordOfBytes (l : List W8) : W64 :=
  l.foldr (fun x acc => (acc <<< 8) ||| x.setWidth 64) 0

/-- A bundle from its 32 bytes; missing bytes read as zero. -/
def Bundle.ofBytes (l : List W8) : Bundle :=
  ⟨wordOfBytes (l.take 8), wordOfBytes ((l.drop 8).take 8), wordOfBytes ((l.drop 16).take 8),
    wordOfBytes ((l.drop 24).take 8)⟩

/-- A bundle whose slot 1 holds a word, with its literal word in slot 2 when there is one. -/
def Bundle.single (k : Kind) (w : W64) (lit : Option W64) : Bundle :=
  let kind : W64 := match k with | .pair => 2 | .full => 1 | _ => 0
  match lit with
  | none => ⟨0x1000#64 ||| kind, w, 0, 0⟩
  | some l => ⟨0x1000#64 ||| kind ||| 0xC#64, w, l, 0⟩

/-- The bundle that an instruction of `nbits` bits stands for: a bundle as it is when it is longer than two words; else a
full word, with the next word as its literal where it names one; a 64-bit word that is no full word is tried as a pair. -/
def tableBundle (nbits w : Nat) : Bundle :=
  if nbits > 128 then
    ⟨BitVec.ofNat 64 w, BitVec.ofNat 64 (w >>> 64), BitVec.ofNat 64 (w >>> 128), BitVec.ofNat 64 (w >>> 192)⟩
  else
    let x := BitVec.ofNat 64 w
    match decodeFull x none with
    | .ok _ => .single .full x none
    | .error .literal => .single .full x (some (BitVec.ofNat 64 (w >>> 64)))
    | .error _ =>
      match decodePair x with
      | .ok _ => .single .pair x none
      | .error _ => .single .full x none

/-- The instruction the decoder reads from an instruction whose bits are w (spec/opcode_table.json numbers them from the
least significant bit of the first word). -/
def decodeTableWord (nbits w : Nat) : Option Instr :=
  let b := tableBundle nbits w
  match checkCtl b.ctl with
  | some _ => none
  | none =>
    match [1, 2, 3].find? b.issues with
    | none => none
    | some n => (b.decode n).toOption

end Sys2Proof
end

