-- ==== Sys2Proof/Machine/Num.lean ====
section
/-!
DEFINITION. Number formats, exact values, rounding and conversions (spec/05_number_formats.md). A floating value is exact: a
rational number, a signed zero, a signed infinity or a NaN. Flags are the low byte of FSTAT (R133).
-/

namespace Sys2Proof

/-- The type is signed. -/
def Ty.signed : Ty → Bool
  | .i32 | .i64 | .i16 | .i8 | .i4 => true
  | .n32 | .n64 | .n16 | .n8 | .f32 | .f16 | .bf16 | .e4m3 | .e5m2 => false

/-- The width of an element of the type in bits. -/
def Ty.width : Ty → Nat
  | .i64 | .n64 => 64
  | .i32 | .n32 | .f32 => 32
  | .i16 | .n16 | .f16 | .bf16 => 16
  | .i8 | .n8 | .e4m3 | .e5m2 => 8
  | .i4 => 4

namespace Machine

/-! ### Flags -/

/-- NV -/
def flagNV : W8 := 0x01
/-- DZ -/
def flagDZ : W8 := 0x02
/-- OF -/
def flagOF : W8 := 0x04
/-- UF -/
def flagUF : W8 := 0x08
/-- NX -/
def flagNX : W8 := 0x10
/-- I4R -/
def flagI4R : W8 := 0x20
/-- SAT -/
def flagSAT : W8 := 0x40
/-- QPART -/
def flagQPART : W8 := 0x80

/-- A flag raised when a condition holds. -/
def flagIf (b : Bool) (f : W8) : W8 := if b then f else 0

/-! ### Exact values -/

/-- An exact value: NaN (signalling or quiet), infinity and zero with their sign (true: negative), or a number other than
zero. -/
inductive XR where
  | nan (sig : Bool)
  | inf (neg : Bool)
  | zero (neg : Bool)
  | num (q : Rat)
  deriving DecidableEq, Repr

/-- The value is negative or carries a minus sign. -/
def XR.neg : XR → Bool
  | .nan _ => false
  | .inf n => n
  | .zero n => n
  | .num q => q.num < 0

/-- The value is a NaN. -/
def XR.isNan : XR → Bool
  | .nan _ => true
  | _ => false

/-- The value is a signalling NaN. -/
def XR.isSig : XR → Bool
  | .nan s => s
  | _ => false

/-- A rational as a value; a zero takes the given sign. -/
def XR.ofRat (q : Rat) (neg : Bool) : XR := if q.num = 0 then .zero neg else .num q

/-- Two to an integer power. -/
def pow2 (e : Int) : Rat :=
  match e with
  | .ofNat n => mkRat (2 ^ n) 1
  | .negSucc n => mkRat 1 (2 ^ (n + 1))

/-- The largest integer whose power of two is at most q, for q > 0. -/
def floorLog2 (q : Rat) : Int :=
  let k : Int := (Nat.log2 q.num.natAbs : Int) - (Nat.log2 q.den : Int)
  if pow2 k ≤ q then k else k - 1

/-- The magnitude of a rational. -/
def ratAbs (q : Rat) : Rat := if q.num < 0 then -q else q

/-- A magnitude rounded to an integer by a mode, for a value of the given sign (R127). -/
def roundNat (m : Rnd) (neg : Bool) (q : Rat) : Nat :=
  let n := q.num.natAbs / q.den
  let r := q.num.natAbs % q.den
  if r = 0 then n
  else
    match m with
    | .rtz => n
    | .rdn => if neg then n + 1 else n
    | .rup => if neg then n else n + 1
    | .rne => if 2 * r < q.den then n else if 2 * r > q.den then n + 1 else if n % 2 = 0 then n else n + 1

/-- A rational rounded to an integer by a mode. -/
def roundInt (m : Rnd) (q : Rat) : Int :=
  let neg := q.num < 0
  let n : Int := roundNat m neg (ratAbs q)
  if neg then -n else n

/-! ### Formats (R123, R124) -/

/-- A floating format: exponent and fraction widths, bias, and whether the largest exponent holds infinities. -/
structure Fmt where
  e : Nat
  f : Nat
  bias : Nat
  hasInf : Bool
  deriving DecidableEq, Repr

/-- FP32 -/
def Fmt.f32 : Fmt := ⟨8, 23, 127, true⟩
/-- FP16 -/
def Fmt.f16 : Fmt := ⟨5, 10, 15, true⟩
/-- BF16 -/
def Fmt.bf16 : Fmt := ⟨8, 7, 127, true⟩
/-- E4M3 -/
def Fmt.e4m3 : Fmt := ⟨4, 3, 7, false⟩
/-- E5M2 -/
def Fmt.e5m2 : Fmt := ⟨5, 2, 15, true⟩

/-- The format of a floating type code; none for an integer type. -/
def Fmt.ofTy : Ty → Option Fmt
  | .f32 => some .f32
  | .f16 => some .f16
  | .bf16 => some .bf16
  | .e4m3 => some .e4m3
  | .e5m2 => some .e5m2
  | .i32 | .n32 | .i64 | .n64 | .i16 | .n16 | .i8 | .n8 | .i4 => none

/-- The width in bits. -/
def Fmt.width (F : Fmt) : Nat := 1 + F.e + F.f
/-- The largest exponent field. -/
def Fmt.emax (F : Fmt) : Nat := 2 ^ F.e - 1
/-- The exponent of the smallest normal value. -/
def Fmt.eminN (F : Fmt) : Int := 1 - (F.bias : Int)
/-- The encoding of the largest finite value. -/
def Fmt.maxBits (F : Fmt) : Nat := if F.hasInf then F.emax * 2 ^ F.f - 1 else F.emax * 2 ^ F.f + 2 ^ F.f - 2
/-- The encoding of +infinity; the canonical NaN where the format has none. -/
def Fmt.infBits (F : Fmt) : Nat := if F.hasInf then F.emax * 2 ^ F.f else 2 ^ (F.e + F.f) - 1
/-- The canonical NaN (R124). -/
def Fmt.nanBits (F : Fmt) : Nat := if F.hasInf then F.emax * 2 ^ F.f + 2 ^ (F.f - 1) else 2 ^ (F.e + F.f) - 1

/-- The magnitude of a finite encoding without its sign. -/
def Fmt.mag (F : Fmt) (x : Nat) : Rat :=
  let E := x / 2 ^ F.f
  let f := x % 2 ^ F.f
  if E = 0 then mkRat f 1 * pow2 (F.eminN - F.f) else mkRat (2 ^ F.f + f) 1 * pow2 ((E : Int) - F.bias - F.f)

/-- The largest finite magnitude. -/
def Fmt.maxQ (F : Fmt) : Rat := F.mag F.maxBits

/-- A signed encoding: its sign bit. -/
def Fmt.sign (F : Fmt) (x : Nat) : Bool := x / 2 ^ (F.e + F.f) % 2 = 1
/-- A signed encoding without its sign bit. -/
def Fmt.absBits (F : Fmt) (x : Nat) : Nat := x % 2 ^ (F.e + F.f)
/-- An encoding with a sign. -/
def Fmt.withSign (F : Fmt) (neg : Bool) (x : Nat) : Nat := if neg then x + 2 ^ (F.e + F.f) else x

/-- The value of an encoding (R123, R125). -/
def Fmt.dec (F : Fmt) (x : Nat) : XR :=
  let neg := F.sign x
  let a := F.absBits x
  if a = 0 then .zero neg
  else if F.hasInf then
    if a / 2 ^ F.f = F.emax then
      if a % 2 ^ F.f = 0 then .inf neg
      else .nan (decide (7 ≤ F.f) && a / 2 ^ (F.f - 1) % 2 = 0)
    else .num (if neg then -F.mag a else F.mag a)
  else if a = 2 ^ (F.e + F.f) - 1 then .nan false
  else .num (if neg then -F.mag a else F.mag a)

/-- The encoding of a magnitude that the format holds exactly. -/
def Fmt.encMag (F : Fmt) (q : Rat) : Nat :=
  if q < pow2 F.eminN then (q * pow2 (F.f - F.eminN)).num.natAbs
  else
    let e := floorLog2 q
    (e + F.bias).toNat * 2 ^ F.f + ((q * pow2 (F.f - e)).num.natAbs - 2 ^ F.f)

/-- The encoding of an exact value of the format; a NaN is canonical. -/
def Fmt.enc (F : Fmt) (x : XR) : Nat :=
  match x with
  | .nan _ => F.nanBits
  | .inf n => if F.hasInf then F.withSign n F.infBits else F.nanBits
  | .zero n => F.withSign n 0
  | .num q => F.withSign (q.num < 0) (F.encMag (ratAbs q))

/-- RoundToPrecision of R128 on a magnitude. -/
def Fmt.roundMag (F : Fmt) (m : Rnd) (neg : Bool) (q : Rat) : Rat :=
  let t := max (floorLog2 q) F.eminN - F.f
  mkRat (roundNat m neg (q * pow2 (-t))) 1 * pow2 t

/-- RoundFmt (R128): the encoding and the flags raised. -/
def roundFmt (F : Fmt) (m : Rnd) (sat : Bool) (x : XR) : Nat × W8 :=
  match x with
  | .nan _ => (F.nanBits, 0)
  | .inf n =>
    if sat then (F.withSign n F.maxBits, flagSAT)
    else if F.hasInf then (F.withSign n F.infBits, 0)
    else (F.nanBits, flagNV)
  | .zero n => (F.withSign n 0, 0)
  | .num q =>
    let neg := q.num < 0
    let a := ratAbs q
    let y := F.roundMag m neg a
    if F.maxQ < y then
      if sat then (F.withSign neg F.maxBits, flagNX ||| flagSAT)
      else if m = .rne ∨ (m = .rup ∧ ¬ neg) ∨ (m = .rdn ∧ neg) then
        (if F.hasInf then F.withSign neg F.infBits else F.nanBits, flagNX ||| flagOF)
      else (F.withSign neg F.maxBits, flagNX ||| flagOF)
    else
      (F.withSign neg (if y.num = 0 then 0 else F.encMag y),
        if y = a then 0 else flagNX ||| flagIf (a < pow2 F.eminN) flagUF)

/-- The encoding is a subnormal. -/
def Fmt.isSub (F : Fmt) (x : Nat) : Bool := F.absBits x != 0 && F.absBits x < 2 ^ F.f

/-- An FP32 source of a kernel declared .ftz: a subnormal reads as a zero of its sign (R130). -/
def ftzIn (ftz : Bool) (x : Nat) : Nat := if ftz && Fmt.f32.isSub x then Fmt.f32.withSign (Fmt.f32.sign x) 0 else x

/-- An FP32 result of RoundFmt in a kernel declared .ftz (R130). -/
def ftzOut (ftz : Bool) (r : Nat × W8) : Nat × W8 :=
  if ftz && Fmt.f32.isSub r.1 then (Fmt.f32.withSign (Fmt.f32.sign r.1) 0, r.2 ||| flagUF ||| flagNX) else r

/-! ### Exact operations (R151) -/

/-- NV for signalling operands. -/
def sigNV (l : List XR) : W8 := flagIf (l.any XR.isSig) flagNV

/-- The negated value. -/
def XR.negate : XR → XR
  | .nan s => .nan s
  | .inf n => .inf !n
  | .zero n => .zero !n
  | .num q => .num (-q)

/-- The exact sum; the sign of a zero sum follows R128. -/
def xadd (m : Rnd) (a b : XR) : XR × W8 :=
  match a, b with
  | .nan _, _ => (.nan false, sigNV [a, b])
  | _, .nan _ => (.nan false, sigNV [a, b])
  | .inf x, .inf y => if x = y then (.inf x, 0) else (.nan false, flagNV)
  | .inf x, _ => (.inf x, 0)
  | _, .inf y => (.inf y, 0)
  | .zero x, .zero y => (.zero (if x = y then x else m = .rdn), 0)
  | .zero _, .num q => (.num q, 0)
  | .num q, .zero _ => (.num q, 0)
  | .num p, .num q => (.ofRat (p + q) (m = .rdn), 0)

/-- The exact product. -/
def xmul (a b : XR) : XR × W8 :=
  match a, b with
  | .nan _, _ => (.nan false, sigNV [a, b])
  | _, .nan _ => (.nan false, sigNV [a, b])
  | .inf _, .zero _ => (.nan false, flagNV)
  | .zero _, .inf _ => (.nan false, flagNV)
  | .inf _, _ => (.inf (a.neg != b.neg), 0)
  | _, .inf _ => (.inf (a.neg != b.neg), 0)
  | .num p, .num q => (.num (p * q), 0)
  | _, _ => (.zero (a.neg != b.neg), 0)

/-- The exact product and sum (R151: an invalid product raises NV even beside a quiet NaN). -/
def xfma (m : Rnd) (a b c : XR) : XR × W8 :=
  let p := xmul a b
  let s := xadd m p.1 c
  (s.1, p.2 ||| s.2)

/-- The exact quotient with the flags of IEEE 754-2019. -/
def xdiv (a b : XR) : XR × W8 :=
  let n := a.neg != b.neg
  match a, b with
  | .nan _, _ => (.nan false, sigNV [a, b])
  | _, .nan _ => (.nan false, sigNV [a, b])
  | .inf _, .inf _ => (.nan false, flagNV)
  | .zero _, .zero _ => (.nan false, flagNV)
  | .inf _, _ => (.inf n, 0)
  | _, .inf _ => (.zero n, 0)
  | .zero _, _ => (.zero n, 0)
  | .num _, .zero _ => (.inf n, flagDZ)
  | .num p, .num q => (.num (p / q), 0)

/-- The largest r with r * r ≤ n, by bits from the given one down. -/
def isqrt (bit : Nat) (n : Nat) (r : Nat) : Nat :=
  match bit with
  | 0 => if (r + 1) * (r + 1) ≤ n then r + 1 else r
  | b + 1 => isqrt b n (if (r + 2 ^ (b + 1)) * (r + 2 ^ (b + 1)) ≤ n then r + 2 ^ (b + 1) else r)

/-- The square root of q > 0 as a rational that every rounding to at most 64 bits treats as the root: exact where the root is
a rational of that size, else strictly between the same neighbours. -/
def sqrtQ (q : Rat) : Rat :=
  let e := floorLog2 q / 2
  let y := q * pow2 (160 - 2 * e)
  let n := y.num.natAbs / y.den
  let r := isqrt 84 n 0
  if mkRat (r * r) 1 = y then mkRat r 1 * pow2 (e - 80) else mkRat (2 * r + 1) 1 * pow2 (e - 81)

/-- The square root with the flags of IEEE 754-2019. -/
def xsqrt (a : XR) : XR × W8 :=
  match a with
  | .nan s => (.nan false, flagIf s flagNV)
  | .zero n => (.zero n, 0)
  | .inf n => if n then (.nan false, flagNV) else (.inf false, 0)
  | .num q => if q.num < 0 then (.nan false, flagNV) else (.num (sqrtQ q), 0)

/-- The order of two values that are not NaNs. -/
def xlt (a b : XR) : Bool :=
  match a, b with
  | .inf true, .inf true => false
  | .inf true, _ => true
  | _, .inf true => false
  | .inf false, _ => false
  | _, .inf false => true
  | .zero _, .zero _ => false
  | .zero _, .num q => 0 < q.num
  | .num q, .zero _ => q.num < 0
  | .num p, .num q => p < q
  | _, _ => false

/-- A value rounded to the significant bits given, for the seed tables (R156). -/
def roundToBits (bits : Nat) (q : Rat) : Rat :=
  let t := floorLog2 q - (bits - 1)
  mkRat (roundNat .rne false (q * pow2 (-t))) 1 * pow2 t

/-- Pi to 512 fractional bits. No FP32 argument comes closer to a multiple of pi/2 than the error of this value reaches
(notes/assumptions/11.md). -/
def piQ : Rat := mkRat 0x3243f6a8885a308d313198a2e03707344a4093822299f31d0082efa98ec4e6c89452821e638d01377be5466cf34e90c6cc0ac29b7c97c50dd3f84d5b5b5470917 (2 ^ 512)

/-- A value in which every NaN counts as quiet (05 R140). -/
def XR.quiet (x : XR) : XR := match x with | .nan _ => .nan false | y => y

/-- An FP32 word, every NaN quiet. -/
def xrOf (w : W32) : XR := (Fmt.f32.dec w.toNat).quiet

/-- An exact sum (05 R139, R140). -/
def sumExact (l : List (XR × W8)) : XR × W8 :=
  let nan := l.any fun p => p.1.isNan
  let pos := l.any fun p => p.1 == .inf false
  let neg := l.any fun p => p.1 == .inf true
  let fl := l.foldl (fun f p => f ||| p.2) (0 : W8)
  if nan then (.nan false, fl ||| flagIf (pos && neg) flagNV)
  else if pos && neg then (.nan false, fl ||| flagNV)
  else if pos then (.inf false, fl)
  else if neg then (.inf true, fl)
  else (.ofRat (l.foldl (fun q p => match p.1 with | .num x => q + x | _ => q) 0) false, fl)

/-! ### Integers (R126, R149) -/

/-- The low bits of a source as an integer of the type. -/
def intOf (t : Ty) (x : W64) : Int :=
  if t.signed then (x.setWidth t.width).toInt else ((x.setWidth t.width).toNat : Int)

/-- The least value of an integer type; .i4 is symmetric (R126). -/
def intMin (t : Ty) : Int :=
  match t with
  | .i4 => -7
  | t => if t.signed then -(2 ^ (t.width - 1)) else 0

/-- The greatest value of an integer type. -/
def intMax (t : Ty) : Int :=
  match t with
  | .i4 => 7
  | t => if t.signed then 2 ^ (t.width - 1) - 1 else 2 ^ t.width - 1

/-- A value clamped to a range. -/
def clampInt (lo hi v : Int) : Int := if v < lo then lo else if hi < v then hi else v

/-- A value clamped to its type's range, raising SAT when the clamp changes it. -/
def satInt (t : Ty) (v : Int) : Int × W8 :=
  let c := clampInt (intMin t) (intMax t) v
  (c, flagIf (c != v) flagSAT)

/-- Fit of R149: the low bits in 64, with SAT. -/
def fitInt (t : Ty) (sat : Bool) (v : Int) : W64 × W8 :=
  if sat then
    let c := satInt t v
    ((BitVec.ofInt t.width c.1).setWidth 64, c.2)
  else ((BitVec.ofInt t.width v).setWidth 64, 0)

/-- The register image of an integer result: a narrow one is extended to 32 bits by its type (R161). -/
def regInt (t : Ty) (v : Int) : W64 :=
  if t.width = 64 then BitVec.ofInt 64 v else (BitVec.ofInt 32 (intOf t (BitVec.ofInt 64 v))).setWidth 64

/-! ### Conversions (R132) -/

/-- The element a conversion reads: an integer, or a floating value. -/
inductive Elem where
  | int (v : Int) (i4r : Bool)
  | flt (x : XR)
  deriving DecidableEq, Repr

/-- The element of type t in the low bits of a source; .i4 code 0b1000 reads as 0 with I4R (R126). -/
def readElem (ftz : Bool) (t : Ty) (x : W64) : Elem :=
  match Fmt.ofTy t with
  | some F => .flt (F.dec (if t = .f32 then ftzIn ftz (x.setWidth 32).toNat else (x.setWidth t.width).toNat))
  | none => if t = .i4 && x.setWidth 4 == 8#4 then .int 0 true else .int (intOf t x) false

/-- A floating format is wider than another: every value of the second is exact in it. -/
def Fmt.wider (F G : Fmt) : Bool := G.width < F.width

/-- Conversion of one element to type t: the register image and the flags (R132, R161). -/
def convElem (ftz : Bool) (t src : Ty) (m : Rnd) (sat : Bool) (x : W64) : W64 × W8 :=
  match readElem ftz src x, Fmt.ofTy t with
  | .flt v, some F =>
    if (Fmt.ofTy src).any (F.wider ·) then
      (BitVec.ofNat 64 (F.enc v), flagIf v.isSig flagNV)
    else
      let r := roundFmt F m sat v
      let r := if t = .f32 then ftzOut ftz r else r
      (BitVec.ofNat 64 r.1, r.2 ||| flagIf v.isSig flagNV)
  | .int v i4, some F =>
    let r := roundFmt F m sat (.ofRat (mkRat v 1) false)
    let r := if t = .f32 then ftzOut ftz r else r
    (BitVec.ofNat 64 r.1, r.2 ||| flagIf i4 flagI4R)
  | .flt v, none =>
    let bad := if sat then flagSAT else flagNV
    match v with
    | .nan _ => (regInt t 0, bad)
    | .inf n => (regInt t (if n then intMin t else intMax t), bad)
    | .zero _ => (regInt t 0, 0)
    | .num q =>
      let n := roundInt m q
      let c := clampInt (intMin t) (intMax t) n
      if c != n then (regInt t c, bad) else (regInt t n, flagIf (mkRat n 1 != q) flagNX)
  | .int v i4, none =>
    let fl := flagIf i4 flagI4R
    if sat || t = .i4 then
      let c := satInt t v
      (regInt t c.1, c.2 ||| fl)
    else (regInt t v, fl)

/-- The element widened to FP32 or to 32 bits (R162). -/
def widenElem (t : Ty) (x : W64) : W64 × W8 :=
  match Fmt.ofTy t with
  | some F =>
    let v := F.dec (x.setWidth t.width).toNat
    (BitVec.ofNat 64 (Fmt.f32.enc v), flagIf v.isSig flagNV)
  | none =>
    match readElem false t x with
    | .int v i4 => (regInt t v, flagIf i4 flagI4R)
    | .flt _ => (0, 0)

end Machine

end Sys2Proof
end

