-- ==== Sys2Proof/Config.lean ====
section
/-!
DEFINITION. What one implementation fixes and the manual leaves open: free values, opaque and without a body, so that
nothing can evaluate one or prove a value of one. The state counts the draws (State.draws), and each use takes the
next number. notes/assumptions/5.md and 10.md list the uses.
-/

namespace Sys2Proof.Config

/-- The choice made on the n-th occasion the manual calls "unspecified among" (spec/00_scope.md R9): an index into the
list of permitted outcomes, reduced modulo its length by the user. -/
opaque choice : Nat → Nat

/-- The choice made for element e on the n-th occasion (spec/04_registers_encoding.md R110: per element and per
occasion). -/
opaque choiceAt : Nat → Nat → Bool

/-- A 64-bit value the manual names and does not give, by occasion and position: TOKEN values, key material, SPDM
payload words (13 R369, 20 R465, 21 R487). -/
opaque freeWord : Nat → Nat → BitVec 64

/-- A byte the manual names and does not give, by occasion and position: encoder bitstreams and ciphertext
(12 R345, 21 R493). -/
opaque freeByte : Nat → Nat → BitVec 8

/-- The length in bytes of what an encoder appends on the n-th occasion, a superblock row each (12 R345). -/
opaque frameBytes : Nat → Nat

/-- The superblock rows of a frame but one, by codec and height: the manual gives no superblock size (12 R345). -/
opaque superRows : Nat → Nat → Nat

/-- The operands of LAYER, by bytes 4 to 31 of the command: the manual names them and does not place them (14 R380). -/
opaque layerOperands : BitVec 224 → LayerArgs
/-- The operand of LAYEROFF. -/
opaque layerOffOperand : BitVec 224 → Nat
/-- The operands of FRAME. -/
opaque frameOperands : BitVec 224 → FrameArgs
/-- The operands of ENCODE. -/
opaque encodeOperands : BitVec 224 → EncodeArgs
/-- The bytes that no operand of a command with an opcode occupies are zero (14 R380). -/
opaque unusedZero : Nat → BitVec 224 → Bool

/-- The length in bytes of the body of the n-th SPDM response (21 R487). -/
opaque spdmBytes : Nat → Nat

/-- SHAKE256 of a byte string, cut to the given number of bytes (20 R477, 21 R486, R489). The function is the
standard's; the model leaves it uninterpreted. -/
opaque shake256 : List (BitVec 8) → Nat → List (BitVec 8)

/-- Ed448 verification of a signature over a message under a key (20 R477, 21 R486, RFC 8032), uninterpreted. -/
opaque ed448 : List (BitVec 8) → List (BitVec 8) → List (BitVec 8) → Bool

/-- The fused debug key and the fused hash of the vendor key (21 R486, R489). -/
opaque debugKey : List (BitVec 8)
/-- The vendor key found in the boot flash. -/
opaque vendorKey : List (BitVec 8)
/-- The fused SHAKE256 hash of the vendor key (21 R486). -/
opaque vendorKeyHash : List (BitVec 8)
/-- The SHAKE256 digest, 32 bytes, of the module's identity certificate (21 R489). -/
opaque deviceId : List (BitVec 8)

/-- The home slice of a physical line (08 R197: a fixed hash, not visible to programs). -/
opaque homeSlice : Nat → Nat

/-- Exp of a rational to the nearest FP32 value of a * Exp(-b) plus c, when the bracket of the model's own interval
arithmetic has not separated the rounding after its last refinement (11 R319). Arguments: a, b and c, each as a numerator
and a denominator. -/
opaque expFallback : Int → Nat → Int → Nat → Int → Nat → BitVec 32

/-- The sequence number in the handle of a group's first copy (09 R268 gives the field, not where it starts). -/
opaque copySeqBase : Nat

/-- TOKEN values are this word combined with a number of their own, so that each names one warp or record (13 R369). -/
opaque tokenMask : BitVec 64

/-- CWBASE, the control windows' base in the control-core address space (20 R459). -/
opaque cwBase : Nat
/-- ENQBASE, the enqueue windows' base (20 R459). -/
opaque enqBase : Nat

end Sys2Proof.Config
end

