-- ==== Sys2Proof/Machine/State.lean ====
section
/-!
DEFINITION. The state of the machine as plain data, the reasons a step stops, and the state after reset
(spec/00_scope.md to spec/21_host_fabric_bringup.md; INVENTORY.md lists every piece with its rule).

Numbered things (groups, warps, registers, lines, table entries, bytes) are held in stores: an unlisted number holds the
value its field's docstring names, or zero. Physical addresses are numbers: device memory as the manual numbers it (20
R463), host memory from 2^60, memory of peer module n from 2^61 + n * 2^52 (19 R443).
-/

namespace Sys2Proof.Machine

/-! ### Causes and traps -/

/-- The causes of 17 R410. -/
inductive Cause where
  | illegalOpcode | reservedField | pairRule | targetMisaligned | featureMasked | privileged | hazard | literalMisplaced
  | addrFault | accessPerm | misalignedAccess | rangeLocked | scratchBounds | capabilityFault | placeUnmapped | poisonData
  | queueFault | queueUnderflow | decoupleStall
  | fpException | formatDivergence | matrixState | quadIllegal
  | watchdogSplits | waitTimeout | barrierMismatch
  | trapInsn | upcallFail | breakpoint
  | taskBudget | travFormat | travLimit
  deriving DecidableEq, Repr

/-- A trap: its cause and what the trap registers receive (17 R409, R412). -/
structure Trap where
  cause : Cause
  pc : W64
  mask : Lanes
  i0 : W64
  i1 : W64
  i2 : W64
  i3 : W64
  deriving DecidableEq, Repr

/-- A traversal or texture error that awaits delivery at a marker (11 R327, 12 R351); `held` while the warp runs a handler that it entered
before the marker (17 R415). -/
structure MarkErr where
  lane : Nat
  cause : Cause
  reason : Nat
  slotPc : W64
  i2 : W64
  i3 : W64
  held : Bool
  deriving DecidableEq, Repr

/-! ### Waits -/

/-- An element whose fault record waits on the fault server: queue, lane, the entry's sequence number, token (03 R72). -/
structure Replay where
  q : Nat
  lane : Nat
  seq : Nat
  tok : Nat
  deriving DecidableEq, Repr

/-- A lane of a parked `wait` (09 R244): its word, the comparison, the scope's rank, the value of its satisfying read once it has one, and
the order number of its last read. -/
structure LaneWait where
  lane : Nat
  addr : W64
  space : Space
  wide : Bool
  cond : BitVec 2
  v : W64
  rank : Nat
  got : Option W64
  seen : Nat
  deriving DecidableEq, Repr

/-- An enqueue of `hqput` held at a full ring (09 R276): the lane, its place field, the physical queue, the record as read, the tags of
its four units, the queues that the form names, which the lane pops as it goes on (03 R68), and the order number of its arrival at the ring's
slice (13 R360). -/
structure HqHold where
  lane : Nat
  place : W16
  q : Nat
  record : W512
  tags : BitVec 4
  pops : List Nat
  seq : Nat
  deriving DecidableEq, Repr

/-- Why a split or a stream is parked, with the state of its wait (17 R416). -/
inductive Wait where
  /-- not parked -/
  | ready
  /-- at a switch marker (04 R109) -/
  | marker
  /-- QEMPTY: the lanes and queues it waits for; `need` gives a lane's count where it is not 1 (03 R69, 09 R248, R250) -/
  | qempty (lanes : Lanes) (qs : List Nat) (need : Store Nat)
  /-- QFULL: `aload` (03 R75) -/
  | qfull
  /-- QBACK: a push to a full qb, or a removal from an empty one (03 R77) -/
  | qback
  /-- BARRIER at a numbered barrier until the phase completes; then it continues at `next`, or the form executes once more
  (07 R187) -/
  | barrier (b : Nat) (phase : W32) (next : Option W64)
  /-- BARRIER at the cohort barrier (07 R191) -/
  | cbarrier (phase : W32) (next : Option W64)
  /-- BARRIER at `wjoin`: the mask each lane named, and the slot that follows (07 R173) -/
  | wjoin (masks : Store Lanes) (next : W64)
  /-- BARRIER at `rgrp`: the target of each lane (02 R52) -/
  | rgrp (targets : Store W64)
  /-- WAITADDR: the lanes of the form, satisfied or not (09 R244) -/
  | waitaddr (ws : List LaneWait)
  /-- TASKRES: node, count, and the slot that follows (09 R271) -/
  | taskres (node count : Nat) (next : W64)
  /-- MATRIX at `mclaim`, and the slot that follows (10 R278) -/
  | mclaim (both : Bool) (next : W64)
  /-- MATRIX at `mswap`, and the slot that follows (10 R289) -/
  | mswap (arr : Nat) (next : W64)
  /-- MATRIX at `mwait`, `mrel`, `mend` or a full port: the classes awaited, and the port by array, true for the load port (10
  R294, R295, R298) -/
  | matrix (ld cmp st : Bool) (port : Option (Nat × Bool))
  /-- TRAV: room for so many rays in the traversal unit (11 R303) -/
  | trav (need : Nat)
  /-- NONE: a form whose acquire or release forces write-backs that a range lock holds (08 R215, R216, R218, R230) -/
  | backs
  /-- NONE: a hold of a copy form until its copies, which take so many range-lock entries, can register (08 R229) -/
  | locks (need : Nat)
  /-- NONE: `tinv` completion for an ASID (17 R424) -/
  | tinv (asid : Nat)
  /-- HQ at `hqget` with no record: the physical queues that the lanes name (09 R275) -/
  | hqget (qs : List Nat)
  /-- HQ at a held `hqput`, and the slot that follows (09 R276) -/
  | hqput (hs : List HqHold) (next : W64)
  /-- FAULT: one access waits on a verdict; the trap a FATAL verdict delivers (17 R411, R420) -/
  | fault (tok : Nat) (t : Trap)
  /-- FAULT: popped fault records wait on their verdicts (03 R72) -/
  | faultQ (rs : List Replay)
  /-- FAULT: an escalation of a split at level U, or the warp that executed `halt`, with the wait it resumes (17 R411, R420, R425) -/
  | escal (tok : Nat) (prev : Wait)
  /-- MATRIX: the M-stream ends as by `mend` once its operations have completed (17 R413, 10 R298) -/
  | mending
  deriving DecidableEq, Repr

/-- A split: the lanes of one warp that share a program counter (02 R37), its watchdog count (R44), its blocked-port count
(17 R417), the cycles it holds after a yield or a stall hint, whether it issued the trap being handled (17 R414), whether
a switch marker is to act when its wait ends (04 R109), and when the traversal request that it stands at arrived, zero for none (11 R303). -/
structure Split where
  lanes : Lanes
  pc : W64
  wait : Wait
  wd : Nat
  bp : Nat
  hold : Nat
  stall : Nat
  trapped : Bool
  mark : Bool
  req : Nat
  deriving DecidableEq, Repr

/-! ### Results that have not become visible -/

/-- What a pending result comes from (04 R108): `tex` names a request of the texture path that met a fault (12 R351). -/
inductive PendKind where
  | mem | trav (ray : Nat) | tex (req : Nat) | upcall (token : W64)
  deriving DecidableEq, Repr

/-- A pending destination element (04 R108 to R110): the lane, the register code, the value that lands, the issue it
belongs to, whether it has landed, and whether the element was overwritten meanwhile. -/
structure Pend where
  lane : Nat
  reg : Nat
  val : W32
  tag : Nat
  kind : PendKind
  landed : Bool
  clash : Bool
  deriving DecidableEq, Repr

/-! ### Queues -/

/-- An element of a queue entry (03 R64, R66): not returned, with the value or the fault that its load found; data; or a fault
record with the original cause, the recorded address, and whether it still goes to the fault server (R72). -/
inductive QElem where
  | pending (x : W64)
  | pendingFault (cause : Cause) (addr : W64) (srv : Bool)
  | data (x : W64)
  | fault (cause : Cause) (addr : W64) (srv : Bool)
  deriving DecidableEq, Repr

/-- An entry: its sequence number, the access of the `aload` that allocated it, one element per lane position. -/
structure QEntry where
  seq : Nat
  acc : BitVec 3
  m : MemMod
  elems : List QElem
  deriving DecidableEq, Repr

/-- A queue of a warp: entries in sequence, tail sequence number, head per lane (default 0), slip limit set by `aslip`,
closed flag (03 R68, R70, R75, R80). -/
structure Queue where
  entries : List QEntry
  tail : Nat
  heads : Store Nat
  slip : Nat
  closed : Bool
  deriving DecidableEq, Repr

/-! ### Ordering state of a lane or stream -/

/-- A cache by kind and physical number. -/
inductive CacheId where
  | l1 (core : Nat)
  | cc (cluster : Nat)
  deriving DecidableEq, Repr

/-- An atomic read that a later acquire fence may turn into an acquire (08 R206, R215): the lane (64 for a stream), and the
record it returned: the releaser's context and the caches it names. -/
structure AcqRead where
  lane : Nat
  ctx : Nat
  caches : List CacheId
  deriving DecidableEq, Repr

/-- An upcall that awaits its reply (07 R181). -/
structure Upcall where
  token : W64
  lanes : Lanes
  mbox : Nat
  msg : W512
  posted : Bool
  pc : W64
  relLanes : Bool
  deriving DecidableEq, Repr

/-- A warp (02 R26 to R46, 17 R409, 18 R428). `vregs` is keyed by 1024 * lane + operand code, with the handler bank o28 to
o31 at codes 0x324 to 0x327 (17 R408); `preds` holds p0 to p6 in bits 0 to 6 and the bank's p6 in bit 7; `tids` is keyed by
4 * lane + axis. -/
structure Warp where
  placed : Bool
  quarter : Nat
  segs : BitVec 4
  live : Lanes
  helper : Lanes
  splits : List Split
  saved : List Split
  level : Bool
  vregs : Store W32
  preds : Store W8
  sregs : Store W32
  tids : Store W32
  fstat : W32
  wdlimit : W32
  tcause : W64
  tpc : W64
  tmask : W64
  tstream : W64
  tinfo0 : W64
  tinfo1 : W64
  tinfo2 : W64
  tinfo3 : W64
  tpcin : W64
  due : Option (Strm × Trap)
  esc : Option Nat
  pend : List Pend
  errs : List MarkErr
  queues : Store Queue
  ups : List Upcall
  relScope : Store Nat
  acqs : List AcqRead
  prio : Nat
  age : Nat
  overdue : Bool
  unsel : Nat
  mWrites : Nat
  ended : Bool
  deriving DecidableEq, Repr

/-- The A-stream or the M-stream of a group (03 R59). `trap` is a trap raised and not yet delivered, `stopped` holds while a
handler runs for it (R82). -/
structure Stream where
  on : Bool
  pc : W64
  sregs : Store W32
  preds : W8
  fstat : W32
  wait : Wait
  bp : Nat
  trap : Option Trap
  stopped : Bool
  esc : Option Nat
  ended : Bool
  relScope : Nat
  acqs : List AcqRead
  deriving DecidableEq, Repr

/-- A generator of the A-stream (09 R251). -/
structure Gen where
  base : W64
  lane : W32
  warp : W32
  l0 : W32
  l1 : W32
  l2 : W32
  l3 : W32
  deriving DecidableEq, Repr

/-- A write of the A-stream to a g register that not every reader has synchronised with: its number, register and value
(03 R61). -/
structure GWrite where
  n : Nat
  reg : Nat
  val : W32
  deriving DecidableEq, Repr

/-- A numbered barrier, or a group's side of the cohort barrier (07 R186 to R191): open phase, arrived flags, lanes that
arrived in the open phase by WID, the phase of each participant's last arrival (16 for the A-stream, 17 for the M-stream),
who ever arrived, what each participant had written for others when it arrived (03 R61, 10 R286), and whether one of them knew of the
establishing `mfmt` then (10 R284). -/
structure Bar where
  phase : W32
  arrived : BitVec 16
  aArr : Bool
  mArr : Bool
  lanes : Store Lanes
  last : Store W32
  ever : BitVec 18
  stamps : Store Nat
  fmt : Bool
  deriving DecidableEq, Repr

/-! ### Matrix state -/

/-- A weight plane and its attributes (10 R279). -/
structure Plane where
  bytes : Store W8
  ts : W32
  cols : Bool
  deriving DecidableEq, Repr

/-- The kinds of matrix operation (10 R294). -/
inductive MKind where
  | wld | act | zero | st
  deriving DecidableEq, Repr

/-- An operation in a port's queue, with its issued operands, the next row (10 R301) and, of an `mact`, how many writes of each warp
were ordered before its issue (10 R286). -/
structure MOp where
  kind : MKind
  a : Nat
  b : Nat
  c : Nat
  slot : Nat
  ty : Ty
  ts : W32
  chi : Bool
  next : Nat
  flags : W32
  seen : List Nat
  deriving DecidableEq, Repr

/-- A claimed array (10 R279): planes, accumulators keyed by 128 * row + column, port queues. -/
structure MArray where
  active : Plane
  shadow : Plane
  acc : Store W32
  loadQ : List MOp
  compQ : List MOp
  deriving DecidableEq, Repr

/-- A write to the scale table (10 R286): the entry, the value, the writer and its count of writes for others. -/
structure ScaleWrite where
  key : Nat
  val : W32
  wid : Nat
  n : Nat
  deriving DecidableEq, Repr

/-! ### Groups -/

/-- What the kernel descriptor declares (13 R354, 04 R122). -/
structure Kernel where
  desc : W64
  entryE : W64
  entryA : W64
  entryM : W64
  scratch : Nat
  slip : Nat
  regs : Nat
  width : Nat
  cohort : Nat
  quadlock : Bool
  ftz : Bool
  checked : Bool
  curve : Nat
  tw : Nat
  th : Nat
  queues : W64
  bars : W128
  deriving DecidableEq, Repr

/-- A group (02 R30 to R36). `tasks` is the task table of its launch record (13 R355). `core` and `clu` are the logical indices its lanes read, `pcore` and `pclu` the physical units
(52 * die + number, 13 * die + number). `scale`, keyed by 4 * row + slot and 1.0 where unlisted, holds the scale table before the
writes of `scalePend`; `mSeen`, keyed by 32 * reader + writer, is how many of a warp's writes a reader has synchronised with (a warp
by WID, the M-stream as 17); `fmtSeen` marks the participants that the establishing `mfmt` happens before, numbered as those of a barrier
(10 R284); `arrays` is keyed by the logical name 0 or 1. -/
structure Group where
  used : Bool
  part : Nat
  asid : Nat
  core : Nat
  clu : Nat
  pcore : Nat
  pclu : Nat
  slotA : Nat
  slotM : Nat
  kernel : Kernel
  lrec : W64
  krec : Store W8
  klen : Nat
  graph : Nat
  node : Nat
  task : Option (Nat × Nat)
  tasks : W512
  gidX : W32
  gidY : W32
  gidZ : W32
  taskid : W32
  index : Nat
  nwarp : Nat
  prio : Nat
  cohort : Nat
  cohpos : Nat
  stamp : Nat
  warps : Store Warp
  astr : Stream
  mstr : Stream
  gens : Store Gen
  idx : Store W32
  rr : Store Nat
  gbase : Store W32
  gw : List GWrite
  gcount : Nat
  gseen : Store Nat
  scratch : Store W8
  spoison : Store Bool
  qb : List W64
  bars : Store Bar
  cbar : Bar
  stall : Nat
  gfmt : W32
  est : Bool
  fmtSeen : BitVec 18
  claim : Nat
  phys : List Nat
  arrays : Store MArray
  scale : Store W32
  scalePend : List ScaleWrite
  mSeen : Store Nat
  copySeq : Nat
  cstat : Store W64
  resv : Store Nat
  tdone : Bool
  halted : Option Nat
  holdCopies : List Nat
  deriving DecidableEq, Repr

/-- The cohort barrier of a cohort (07 R191): open phase and the positions that have arrived. -/
structure Cohort where
  phase : W32
  groups : List Nat
  arrived : List Nat
  deriving DecidableEq, Repr

/-! ### Memory -/

/-- A line of an L1 or a cluster cache (08 R197 to R199): tag, physical line, valid and dirty byte masks, data, the order
numbers of its first dirtying and of its making, the aliased mark (19 R452), poison by sector, the order number of the last write that
reached it. -/
structure Line where
  part : Nat
  asid : Nat
  vline : Nat
  pline : Nat
  valid : BitVec 128
  dirty : BitVec 128
  data : BitVec 1024
  stamp : Nat
  made : Nat
  shared : Bool
  poison : BitVec 4
  wrote : Nat
  deriving DecidableEq, Repr

/-- A release record at a meeting point (08 R214): the core of the L1 or the cluster of the cache that it is attached to, neither for the
home slice; the location and its bytes; the releaser's context; the caches it names. A record in an L1 is that of a release at .grp or
.core, which only a .rem acquire finds (08 R218). -/
structure RelRec where
  core : Option Nat
  clu : Option Nat
  addr : Nat
  size : Nat
  ctx : Nat
  caches : List CacheId
  deriving DecidableEq, Repr

/-- A write-back under way from a cluster (08 R219). -/
structure WriteBack where
  cluster : Nat
  part : Nat
  asid : Nat
  vline : Nat
  pline : Nat
  dirty : BitVec 128
  data : BitVec 1024
  made : Nat
  poison : BitVec 4
  deriving DecidableEq, Repr

/-- A range-lock entry (08 R229): core, copy, destination or source, global range of an address space or scratchpad range
of a group, first and last byte. -/
structure Lock where
  core : Nat
  copy : Nat
  dest : Bool
  scratch : Option Nat
  part : Nat
  asid : Nat
  lo : Nat
  hi : Nat
  deriving DecidableEq, Repr

/-- A cached translation (19 R446): tag, page, page bytes, physical base, permissions R W X, protected. -/
structure Tlb where
  part : Nat
  asid : Nat
  vpage : Nat
  phys : Nat
  r : Bool
  w : Bool
  x : Bool
  deriving DecidableEq, Repr

/-- An invalidation under way (17 R424, 19 R450): partition, ASID or all, and whether it came through XINV. -/
structure Inval where
  part : Nat
  asid : Option Nat
  xinv : Bool
  deriving DecidableEq, Repr

/-- Memory, its caches and its ordering state (chapter 08, 19, 20 R464 to R467, 21 R496). -/
structure Mem where
  home : Store W8
  poison : Store Bool
  tags : Store Bool
  l1 : Store (List Line)
  cc : Store (List Line)
  fills : List (Nat × Nat × Nat × Nat)
  rel : List RelRec
  dir : Store (Nat × Nat)
  wbq : List WriteBack
  forced : Store W64
  conflict : Store W64
  locks : List Lock
  tlb : List Tlb
  inval : List Inval
  heldXinv : List (Nat × W64)
  rsets : Store Nat
  stamp : Nat
  deriving DecidableEq, Repr

/-! ### Contexts -/

/-- Where a context stands between stops (18 R430). -/
inductive Run where
  | running | stopping | saved | ended
  deriving DecidableEq, Repr

/-- A context descriptor in force and the context's run state (17 R407, 18 R430, R431; 20 R469). -/
structure Ctx where
  used : Bool
  desc : Nat
  tbase : W64
  part : Nat
  asid : Nat
  sys : Bool
  prot : Bool
  fmask : BitVec 4
  fspeer : Bool
  fsnode : Nat
  bplimit : Nat
  save : W64
  ptroot : W64
  cstat : W64
  run : Run
  seq : W32
  resumeDue : Bool
  byDevice : Bool
  savedGroups : List (Nat × Group)
  comp : Nat
  capTab : W64
  capCount : Nat
  firstCore : Nat
  coreCount : Nat
  allot : Nat
  deriving DecidableEq, Repr

/-! ### Work -/

/-- A running node activation of a graph (13 R363). For a kernel: its record and descriptor, the next position on the curve, the
groups not yet placed, the covered regions of a pixel launch that are left, and the groups resident; for a copy: its number; for a
wait: the word, comparand and condition; for a task node: the queue's place field and the producers. `cut`: a failure has stopped its
placing, so it ends without completing (R364). -/
structure Act where
  node : Nat
  kind : Nat
  succ : List Nat
  lrec : W64
  record : BitVec 2048
  kernel : Kernel
  start : Nat
  next : Nat
  total : Nat
  regions : List (Nat × Nat)
  resident : Nat
  copy : Nat
  addr : W64
  value : W64
  cond : Nat
  cut : Bool
  deriving DecidableEq, Repr

/-- A launch graph being walked (13 R361 to R364): `owed` counts activations that a node is due, `completed` those it has
completed, `tok` is the fault the walker waits on and its node, `fail` the failing node and the reason. -/
structure Graph where
  used : Bool
  part : Nat
  queue : Nat
  asid : Nat
  base : W64
  nn : Nat
  start : Nat
  status : W64
  counts : Store Nat
  acts : List Act
  owed : Store Nat
  done : Nat
  completed : Store Nat
  tok : Option (Nat × Nat)
  fail : Option (Nat × Nat)
  deriving DecidableEq, Repr

/-- A doorbell enqueue held at the counter slice (13 R360): whether a fence preceded it, and the order number of its arrival. -/
structure Hold where
  part : Nat
  queue : Nat
  phys : Nat
  hart : Nat
  fenced : Bool
  seq : Nat
  deriving DecidableEq, Repr

/-- Launches, tasks and queues (chapter 13). `heads` and `tails` are keyed by 32 * physical queue + shard, `stage` and `answers`
by 32 * (4096 * partition + logical queue) + hart, `marked` by physical queue: the load has reached HIGH and not fallen below LOW since
(R367); `stageOld`, keyed as `stage`, holds what was staged before since the last fenced doorbell (08 R211); `qtok`, by physical queue, is the fault that the launch of a queue's next task waits on. -/
structure Work where
  graphs : Store Graph
  nextGraph : Nat
  nextGroup : Nat
  nextStart : Nat
  heads : Store W64
  tails : Store W64
  stage : Store W512
  stageOld : Store (List W512)
  answers : Store W64
  holds : List Hold
  marked : Store Bool
  qtok : Store Nat
  deriving DecidableEq, Repr

/-! ### Engines -/

/-- States of a copy (09 R268). -/
inductive CopyRun where
  | waiting | queued | running | done | cancelled | failed
  deriving DecidableEq, Repr

/-- A copy under way (09 R262 to R268): its group, or the graph and node it stands for; the block as read; the list of
(source, length) pieces in destination order; progress. `dead`: the cause of the payload fault that was declared FATAL (R267). -/
structure Copy where
  used : Bool
  grp : Option Nat
  graph : Nat
  node : Nat
  part : Nat
  asid : Nat
  pcore : Nat
  eng : Nat
  seq : Nat
  kind : Nat
  block : BitVec 1024
  pieces : List (Nat × Nat)
  total : Nat
  done : Nat
  run : CopyRun
  cancel : Bool
  cause : Nat
  tok : Option Nat
  completing : Bool
  dead : Option Nat
  deriving DecidableEq, Repr

/-- Where a ray stands: the reads of its block and of its descriptor, its steps, its write-back. -/
inductive RayPhase where
  | start | desc | run | ending
  deriving DecidableEq, Repr

/-- A ray in flight (11 R303 to R331). `rsb` is the block's address, `blk` its contents; `stack` the entries the unit and the
spill area hold, the top first, as node or leaf words and keys; `back` holds while the block is to be written back; `err` is what it
ends with, `flt` the fault whose verdict `tok` awaits. -/
structure Ray where
  used : Bool
  grp : Nat
  wid : Nat
  lane : Nat
  dreg : Nat
  tag : Nat
  slotPc : W64
  rsb : W64
  space : Space
  desc : W64
  form : Nat
  any : Bool
  mode : Nat
  param : W32
  blk : W512
  dsc : W512
  stack : List (W32 × W32)
  phase : RayPhase
  back : Bool
  susp : Bool
  err : Option (Cause × Nat × W64)
  tok : Option Nat
  flt : Option (Cause × W64)
  deriving DecidableEq, Repr

/-- A lane's texture or image load that met a fault (12 R351): the form (0 `tex`, 1 `texl`, 2 `texg`, 3 `texq`, 4 `imld`), how many
coordinates, the descriptor's address, the coordinates of quad lanes 0, 1 and 2 and of the lane itself, the words of operand C, whether
the kernel is quad-locked, the slot, the fault, and the verdict awaited if there is one. -/
structure TexReq where
  used : Bool
  grp : Nat
  wid : Nat
  lane : Nat
  form : Nat
  n : Nat
  desc : W64
  pts : List (List W32)
  aux : List W32
  quad : Bool
  slotPc : W64
  cause : Cause
  addr : W64
  tok : Option Nat
  deriving DecidableEq, Repr

/-- A draw or reprojection record under way (12 R333 to R344). -/
structure Draw where
  used : Bool
  repro : Bool
  unit : Nat
  part : Nat
  asid : Nat
  record : W512
  tile : Nat
  tiles : Nat
  tok : Option Nat
  dead : Bool
  deriving DecidableEq, Repr

/-- Engine commands of an accepted list (14 R380). -/
inductive Cmd where
  | layer (x : LayerArgs) | layerOff (l : Nat) | frame (x : FrameArgs) | headOff
  | encode (x : EncodeArgs) | keyNow | encOff
  deriving DecidableEq, Repr

/-- A display head (12 R345). -/
structure Head where
  part : Nat
  layers : Store LayerArgs
  frame : Option FrameArgs
  pending : List Cmd
  removed : Bool
  deriving DecidableEq, Repr

/-- A frame that an encoder slot is working on: the context it acts in, the superblock rows left, and where the next byte goes (12
R345). -/
structure EncJob where
  key : Nat
  left : Nat
  off : Nat
  deriving DecidableEq, Repr

/-- An encoder stream slot (12 R345). -/
structure EncSlot where
  part : Nat
  args : Option EncodeArgs
  offset : Nat
  frames : Nat
  key : Bool
  pending : List Cmd
  removed : Bool
  job : Option EncJob
  deriving DecidableEq, Repr

/-- A command of a list (14 R380): whether it names an encoder slot or a head, its place field, whether its opcode, its reserved bytes and
its operands keep their limits, and what it says. -/
structure CmdEntry where
  slot : Bool
  place : W16
  ok : Bool
  cmd : Cmd
  deriving DecidableEq, Repr

/-- The command list a partition's `ivld` is reading (14 R380 to R382), and the context and address of its next command. -/
structure CmdList where
  cmds : List CmdEntry
  next : Option (Nat × W64)
  deriving DecidableEq, Repr

/-- The engines' state. `claims` is the list of groups waiting for arrays, by core, in order of arrival (10 R278); `ended`, by group, are the
rays that the stop under way has ended (11 R330); `aTurn`, by access sequencer (four to a core), is the slot after the one that issued last (18
R429). -/
structure Eng where
  copies : Store Copy
  rays : Store Ray
  texs : Store TexReq
  draws : Store Draw
  heads : Store Head
  slots : Store EncSlot
  claims : Store (List (Nat × Bool))
  lists : Store CmdList
  listAnswer : Store Nat
  cycles : Store W64
  nextId : Nat
  ended : Store (List Ray)
  aTurn : Store Nat
  deriving DecidableEq, Repr

/-! ### Faults outstanding -/

/-- A fault record sent to a fault server (17 R419, R420): the context, page and kind it stands for, its 64 bytes, whether
it has been delivered, where to, whether it is a stage-2 fault (19 R449). -/
structure FaultOut where
  used : Bool
  part : Nat
  asid : Nat
  page : Nat
  kind : Nat
  record : W512
  posted : Bool
  stage2 : Option Nat
  peer : Bool
  dest : Nat
  cause : Cause
  deriving DecidableEq, Repr

/-! ### Partitions -/

/-- The hypervisor's and the partitions' tables (chapters 19 and 20). `place` is keyed by (7 * partition + kind - 1) * 4096 +
index, `mbox` and `replies` by 64 * partition + mailbox, `peers` by 64 * partition + module, `qtab` and `qbind` by physical
queue. -/
structure Part where
  entries : Store W512
  hverr : W64
  place : Store W32
  vf : Store (BitVec 256)
  fw : Store W16
  peers : Store W64
  mbox : Store W128
  replies : Store W64
  qtab : Store W512
  qbind : Store Nat
  resizing : Store (List Nat)
  deriving DecidableEq, Repr

/-! ### Security core -/

/-- A call window (20 R472): TAG and CALL, arguments, DONE, STATUS, RTAG, RESULT. -/
structure CallState where
  word0 : W64
  args : Store W64
  done : Bool
  status : Nat
  rtag : W16
  result : W32
  deriving DecidableEq, Repr

/-- A request taken at submission (20 R472). -/
structure CallReq where
  win : CallWin
  hart : Nat
  call : Nat
  tag : W16
  args : List W64
  deriving DecidableEq, Repr

/-- A tenant world (20 R469, R473): agent harts, and the key slot plus one of each open compartment. -/
structure World where
  used : Bool
  harts : W64
  slots : Store Nat
  deriving DecidableEq, Repr

/-- A gate (20 R470). -/
structure Gate where
  sg : W128
  dg : W128
  deriving DecidableEq, Repr

/-- A scrub job (20 R478, R479): caches, register files, allotments, granules of the context, and the units done. -/
structure Job where
  part : Nat
  asid : Nat
  cores : List Nat
  clusters : List Nat
  allot : Nat
  granules : List Nat
  total : Nat
  done : Nat
  deriving DecidableEq, Repr

/-- Security-core state (20 R472 to R481). `slots` lists the active key slots with their owners (4 * partition + compartment
+ 1); `binds` lists bound queues, heads and slots by (kind, unit) with the context's key; `retained` survives a reset. -/
structure Sec where
  worlds : Store World
  slots : Store Nat
  gates : Store Gate
  wins : Store CallState
  pending : List CallReq
  held : List (CallWin × Nat)
  round : List CallReq
  binds : List (Nat × Nat × Nat)
  jobs : List Job
  prog : Store W64
  retained : List Job
  unlock : Nat
  counter : W64
  deriving DecidableEq, Repr

/-! ### Host side -/

/-- A firmware image in the boot flash (21 R486). -/
structure BootImage where
  bytes : List W8
  sig : List W8
  version : Nat
  minVersion : Nat
  deriving DecidableEq, Repr

/-- The SPDM responder (21 R487): negotiation progress, session, the last response. -/
structure Spdm where
  stage : Nat
  session : Nat
  code : Nat
  reply : List W8
  draw : Nat
  deriving DecidableEq, Repr

/-- Checkpoint state (21 R492, R493). -/
structure Ckpt where
  peer : Bool
  peerMod : Nat
  hold : Bool
  ctxs : List Nat
  deriving DecidableEq, Repr

/-- What the device knows of a checkpoint image in host memory (21 R493): where it lies, the hypervisor window's tables, and the saved
contexts with the work that their save areas stand for (notes/assumptions/34.md, 37.md). -/
structure Image where
  base : Nat
  part : Part
  ctxs : Store Ctx
  cohorts : Store Cohort
  copies : Store Copy
  rays : Store Ray
  texs : Store TexReq
  deriving DecidableEq, Repr

/-- Ports, registers of the management window and service life (chapter 21). -/
structure HostSide where
  level : W64
  ckptAddr : W64
  ckptStat : W64
  ckpt : Option Ckpt
  heldWrites : List (Nat × List W8)
  images : List Image
  heldPorts : List PortReq
  heldCores : List CoreAccess
  errsum : W64
  modid : Nat
  hostUp : Bool
  peersDown : BitVec 64
  capMhz : Option Nat
  cooling : Bool
  heldResumes : List Nat
  corr : List (UnitId × Nat)
  uncorr : List UnitId
  proposals : List UnitId
  spares : List UnitId
  flash : List BootImage
  meas : List (List W8)
  spdm : Spdm
  reply : List W8
  replyOk : Bool
  coreReply : W64
  deriving DecidableEq, Repr

/-! ### The issue under way -/

/-- A split that is to issue in the second place of an issue pair (02 R39). -/
structure Place where
  grp : Nat
  wid : Nat
  lanes : Lanes
  pc : W64
  deriving DecidableEq, Repr

/-- What issues: the group, stream, warp and lanes (lane 0 stands for the A- or M-stream), the slot's address, the address of the
slot that follows it (04 R96), its word and its bundle's control word; whether the form has taken its own effect; whether write-backs that it
must wait for are held by a range lock (08 R215, R216, R230); and the split that issues in the second place of the pair (02 R39, R41). -/
structure Cur where
  valid : Bool
  grp : Nat
  strm : Strm
  wid : Nat
  lanes : Lanes
  pc : W64
  npc : W64
  word : W64
  ctl : W64
  done : Bool
  stuck : Bool
  partner : Option Place
  deriving DecidableEq, Repr

/-- The machine. `agenda` lists external events that are to happen next, `draws` counts free values, `rot` turns the
units' service order: the model's own fields. -/
structure State where
  cur : Cur
  agenda : List Instr
  draws : Nat
  rot : Nat
  time : Nat
  groups : Store Group
  cohorts : Store Cohort
  mem : Mem
  ctxs : Store Ctx
  work : Work
  eng : Eng
  faults : Store FaultOut
  verdicts : Store Nat
  nextTok : Nat
  part : Part
  sec : Sec
  host : HostSide
  deriving DecidableEq, Repr

/-! ### Why a step stops -/

/-- Why the machine stops with a fault. -/
inductive Fault where
  /-- An encoded form is executed while no stream stands at an issue. Raised by every form's frame when `cur` is not valid;
  no step reaches it. Safe: the machine stops where the hardware has nothing to say. -/
  | notIssued
  deriving DecidableEq, Repr

/-- Why an instruction has no meaning here. -/
inductive Refusal where
  /-- The instruction's arm has no meaning yet. Raised by the arms of `exec` only. Safe. -/
  | notModelled (mnemonic : String)
  deriving DecidableEq, Repr

/-! ### After reset -/

/-- No issue under way. -/
def Cur.none : Cur := ⟨false, 0, .e, 0, 0, 0, 0, 0, 0, false, false, .none⟩

/-- Memory after power-on: no byte listed, no line cached. -/
def Mem.reset : Mem := ⟨[], [], [], [], [], [], [], [], [], [], [], [], [], [], [], [], 0⟩

/-- No work. -/
def Work.reset : Work := ⟨[], 1, 1, 0, [], [], [], [], [], [], [], []⟩

/-- Idle engines. -/
def Eng.reset : Eng := ⟨[], [], [], [], [], [], [], [], [], [], 1, [], []⟩

/-- Every table of the windows at zero (19 R448, R453; 20 R456 to R463; 21 R484). -/
def Part.reset : Part := ⟨[], 0, [], [], [], [], [], [], [], [], []⟩

/-- No world, no key, no job (20 R472 to R481). -/
def Sec.reset : Sec := ⟨[], [], [], [], [], [], [], [], [], [], [], 0, 0⟩

/-- The management window at its reset values, links up, nothing counted (21 R488, R492, R496). -/
def HostSide.reset : HostSide :=
  ⟨0, 0, 0, none, [], [], [], [], 0, 0, true, 0, none, false, [], [], [], [], [], [], [], ⟨0, 0, 0, [], 0⟩, [], false, 0⟩

/-- The machine right after reset: nothing is resident, every table reads zero, SVCLEVEL.LEVEL is 0 (21 R488). -/
def State.reset : State :=
  ⟨Cur.none, [], 0, 0, 0, [], [], Mem.reset, [], Work.reset, Eng.reset, [], [], 1, Part.reset, Sec.reset, HostSide.reset⟩

end Sys2Proof.Machine
end

