-- ==== Sys2Proof/Machine/Store.lean ====
section
/-!
DEFINITION. The operations of a sparse store, which keep its canonical form, the values unlisted entries of the state's stores
read as, and lists of lanes.
-/

namespace Sys2Proof

/-- The value of number k; d where k is not listed. -/
def Store.get {α : Type} (s : Store α) (d : α) (k : Nat) : α :=
  match s with
  | [] => d
  | (n, x) :: r => if n = k then x else Store.get r d k

/-- The store without number k. -/
def Store.erase {α : Type} (s : Store α) (k : Nat) : Store α := s.filter fun p => p.1 != k

/-- The store with (k, x) before the first greater number. -/
def Store.insert {α : Type} (s : Store α) (k : Nat) (x : α) : Store α :=
  match s with
  | [] => [(k, x)]
  | p :: r => if k < p.1 then (k, x) :: p :: r else p :: Store.insert r k x

/-- The store in which number k reads x; the default is not listed. -/
def Store.put {α : Type} [DecidableEq α] (s : Store α) (d : α) (k : Nat) (x : α) : Store α :=
  if x = d then Store.erase s k else Store.insert (Store.erase s k) k x

/-- The store in which the numbers of a list read its values. -/
def Store.putAll {α : Type} [DecidableEq α] (s : Store α) (d : α) (l : List (Nat × α)) : Store α :=
  l.foldl (fun t p => Store.put t d p.1 p.2) s

/-- The numbers listed. -/
def Store.keys {α : Type} (s : Store α) : List Nat := s.map Prod.fst

/-- Strictly rising numbers above a bound. -/
def Store.rising {α : Type} (s : Store α) (b : Nat) : Bool :=
  match s with
  | [] => true
  | p :: r => decide (b ≤ p.1) && Store.rising r (p.1 + 1)

/-- The canonical form: strictly rising numbers, and no entry equal to the default. -/
def Store.wf {α : Type} [DecidableEq α] (s : Store α) (d : α) : Bool :=
  Store.rising s 0 && s.all fun p => p.2 != d

namespace Machine

/-- The lanes of a mask in ascending order. -/
def laneList (m : Lanes) : List Nat := (List.range 64).filter fun n => m.getLsbD n

/-- The mask of lane n. -/
def laneBit (n : Nat) : Lanes := 1#64 <<< n

/-- The mask of the lanes for which p holds. -/
def laneMask (m : Lanes) (p : Nat → Bool) : Lanes :=
  (laneList m).foldl (fun acc n => if p n then acc ||| laneBit n else acc) 0

/-- The lowest lane of a mask. -/
def lowLane (m : Lanes) : Option Nat := (laneList m).head?

/-- The number of lanes of a mask. -/
def laneCount (m : Lanes) : Nat := (laneList m).length

/-! ### What unlisted entries read as -/

/-- A queue before anything was allocated; a slip limit of 0 stands for the kernel's default (03 R63). -/
def Queue.blank : Queue := ⟨[], 0, [], 0, false⟩

/-- A warp position that holds no warp (17 R409: trap registers 0; 02 R44: WDLIMIT 1,048,576). -/
def Warp.blank : Warp :=
  ⟨false, 0, 0, 0, 0, [], [], false, [], [], [], [], 0, 1048576, 0, 0, 0, 0, 0, 0, 0, 0, 0, none, none, [], [], [], [], [], [],
    0, 0, false, 0, 0, true⟩

/-- A stream that is not there. -/
def Stream.blank : Stream := ⟨false, 0, [], 0, 0, .ready, 0, none, false, none, true, 0, []⟩

/-- A generator after group start (04 R501). -/
def Gen.blank : Gen := ⟨0, 0, 0, 0, 0, 0, 0⟩

/-- A barrier in phase 0 (07 R186). -/
def Bar.blank : Bar := ⟨0, 0, false, false, [], [], 0, [], false⟩

/-- A plane of zeros (10 R279). -/
def Plane.blank : Plane := ⟨[], 0, false⟩

/-- An array before it is claimed. -/
def MArray.blank : MArray := ⟨Plane.blank, Plane.blank, [], [], []⟩

/-- No kernel. -/
def Kernel.blank : Kernel := ⟨0, 0, 0, 0, 0, 0, 0, 0, 0, false, false, false, 0, 0, 0, 0, 0⟩

/-- A group number that is not in use. -/
def Group.blank : Group :=
  { used := false, part := 0, asid := 0, core := 0, clu := 0, pcore := 0, pclu := 0, slotA := 0, slotM := 0, kernel := Kernel.blank,
    lrec := 0, krec := [], klen := 0, graph := 0, node := 0, task := none, tasks := 0, gidX := 0, gidY := 0, gidZ := 0, taskid := 0,
    index := 0, nwarp := 0, prio := 0, cohort := 0, cohpos := 0, stamp := 0, warps := [], astr := Stream.blank,
    mstr := Stream.blank, gens := [], idx := [], rr := [], gbase := [], gw := [], gcount := 0, gseen := [], scratch := [],
    spoison := [], qb := [], bars := [], cbar := Bar.blank, stall := 0, gfmt := 0, est := false, fmtSeen := 0, claim := 0,
    phys := [], arrays := [], scale := [], scalePend := [], mSeen := [], copySeq := 0, cstat := [], resv := [], tdone := false,
    halted := none, holdCopies := [] }

/-- A context key that names no context. -/
def Ctx.blank : Ctx :=
  { used := false, desc := 0, tbase := 0, part := 0, asid := 0, sys := false, prot := false, fmask := 0, fspeer := false,
    fsnode := 0, bplimit := 0, save := 0, ptroot := 0, cstat := 0, run := .running, seq := 0, resumeDue := false,
    byDevice := false, savedGroups := [], comp := 0, capTab := 0, capCount := 0, firstCore := 0, coreCount := 0, allot := 0 }

/-- A cohort number that is not in use. -/
def Cohort.blank : Cohort := ⟨0, [], []⟩

/-- A graph number that is not in use. -/
def Graph.blank : Graph := ⟨false, 0, 0, 0, 0, 0, 0, 0, [], [], [], 0, [], none, none⟩

/-- A copy number that is not in use. -/
def Copy.blank : Copy := ⟨false, none, 0, 0, 0, 0, 0, 0, 0, 0, 0, [], 0, 0, .waiting, false, 0, none, false, none⟩

/-- A ray number that is not in use. -/
def Ray.blank : Ray :=
  ⟨false, 0, 0, 0, 0, 0, 0, 0, .g, 0, 0, false, 0, 0, 0, 0, [], .start, false, false, none, none, none⟩

/-- A texture request number that is not in use. -/
def TexReq.blank : TexReq := ⟨false, 0, 0, 0, 0, 0, 0, [], [], false, 0, .addrFault, 0, none⟩

/-- A record number that is not in use. -/
def Draw.blank : Draw := ⟨false, false, 0, 0, 0, 0, 0, 0, none, false⟩

/-- A display head with nothing set. -/
def Head.blank : Head := ⟨0, [], none, [], false⟩

/-- An encoder slot with nothing set. -/
def EncSlot.blank : EncSlot := ⟨0, none, 0, 0, false, [], false, none⟩

/-- An empty command list. -/
def CmdList.blank : CmdList := ⟨[], none⟩

/-- A fault number that is not outstanding. -/
def FaultOut.blank : FaultOut := ⟨false, 0, 0, 0, 0, 0, false, none, false, 0, .addrFault⟩

/-- A call window at reset (20 R472). -/
def CallState.blank : CallState := ⟨0, [], false, 0, 0, 0⟩

/-- A partition with no world. -/
def World.blank : World := ⟨false, 0, []⟩

/-- A gate that passes nothing. -/
def Gate.blank : Gate := ⟨0, 0⟩

end Machine

end Sys2Proof
end

