-- ==== Sys2Proof/Machine/Ops.lean ====
section
/-!
DEFINITION. The named operations over the state: groups, warps, streams and contexts; registers and pending results (04 R85 to
R112); splits (02 R37); fault records (17 R419); taking a trap (17 R412, R413) and returning from one (17 R414).
-/

namespace Sys2Proof.Machine

/-! ### Parts of the state -/

/-- Group g. -/
def State.group (s : State) (g : Nat) : Group := Store.get s.groups Group.blank g
/-- The state with group g changed. -/
def State.modGroup (s : State) (g : Nat) (f : Group → Group) : State :=
  { s with groups := Store.put s.groups Group.blank g (f (s.group g)) }
/-- Warp w of a group. -/
def Group.warp (x : Group) (w : Nat) : Warp := Store.get x.warps Warp.blank w
/-- The group with warp w changed. -/
def Group.modWarp (x : Group) (w : Nat) (f : Warp → Warp) : Group :=
  { x with warps := Store.put x.warps Warp.blank w (f (x.warp w)) }
/-- Warp w of group g. -/
def State.warp (s : State) (g w : Nat) : Warp := (s.group g).warp w
/-- The state with warp w of group g changed. -/
def State.modWarp (s : State) (g w : Nat) (f : Warp → Warp) : State := s.modGroup g (·.modWarp w f)
/-- The A- or M-stream of a group; for the E-stream a blank. -/
def Group.stream (x : Group) (st : Strm) : Stream :=
  match st with | .e => Stream.blank | .a => x.astr | .m => x.mstr
/-- The group with its A- or M-stream changed. -/
def Group.modStream (x : Group) (st : Strm) (f : Stream → Stream) : Group :=
  match st with
  | .e => x
  | .a => { x with astr := f x.astr }
  | .m => { x with mstr := f x.mstr }
/-- The state with a stream changed. -/
def State.modStream (s : State) (g : Nat) (st : Strm) (f : Stream → Stream) : State := s.modGroup g (·.modStream st f)
/-- The key of a context. -/
def ctxKey (part asid : Nat) : Nat := part * 65536 + asid
/-- The context with a key. -/
def State.ctx (s : State) (k : Nat) : Ctx := Store.get s.ctxs Ctx.blank k
/-- The state with a context changed. -/
def State.modCtx (s : State) (k : Nat) (f : Ctx → Ctx) : State :=
  { s with ctxs := Store.put s.ctxs Ctx.blank k (f (s.ctx k)) }
/-- The context key of a group. -/
def Group.ctxKey (x : Group) : Nat := Machine.ctxKey x.part x.asid
/-- The context of group g. -/
def State.gctx (s : State) (g : Nat) : Ctx := s.ctx (s.group g).ctxKey
/-- The warps of a group, by WID. -/
def Group.wids (x : Group) : List Nat := List.range x.nwarp
/-- The groups in use. -/
def State.gids (s : State) : List Nat := (s.groups.filter fun p => p.2.used).map Prod.fst
/-- The group, warp and stream that issue. -/
def State.curGroup (s : State) : Group := s.group s.cur.grp
/-- The warp that issues. -/
def State.curWarp (s : State) : Warp := s.warp s.cur.grp s.cur.wid
/-- The A- or M-stream that issues. -/
def State.curStream (s : State) : Stream := s.curGroup.stream s.cur.strm
/-- The state with the issuing group changed. -/
def State.modCur (s : State) (f : Group → Group) : State := s.modGroup s.cur.grp f
/-- The state with the issuing warp changed. -/
def State.modCurWarp (s : State) (f : Warp → Warp) : State := s.modWarp s.cur.grp s.cur.wid f
/-- The next occasion of a free choice. -/
def State.draw (s : State) : State := { s with draws := s.draws + 1 }
/-- One of the outcomes that an occasion permits (00 R9). -/
def pick {α : Type} (n : Nat) (d : α) (l : List α) : α :=
  match l with
  | [x] => x
  | _ => (l[Config.choice n % l.length]?).getD d
/-- The lowest-numbered warp of a group that has not ended. -/
def Group.firstWarp (x : Group) : Option Nat := x.wids.find? fun w => !(x.warp w).ended

/-! ### Registers -/

/-- The code of o28, the first register that a handler bank replaces (17 R408). -/
def codeO28 : Nat := 0x31C

/-- The key of a vector register of a lane: at level H, o28 to o31 name the handler bank (17 R408). -/
def Warp.regKey (w : Warp) (lane code : Nat) : Nat :=
  1024 * lane + (if w.level && decide (codeO28 ≤ code ∧ code < codeO28 + 4) then code + 8 else code)

/-- The value in a vector register. -/
def Warp.vreg (w : Warp) (lane code : Nat) : W32 := Store.get w.vregs 0 (w.regKey lane code)

/-- The warp with a vector register changed. -/
def Warp.setVreg (w : Warp) (lane code : Nat) (x : W32) : Warp :=
  { w with vregs := Store.put w.vregs 0 (w.regKey lane code) x }

/-- The bit of a lane's predicate byte that holds p0 to p6; at level H, p6 names the bank's (17 R408). -/
def Warp.predBit (w : Warp) (p : Nat) : Nat := if w.level && p == 6 then 7 else p

/-- Predicate p of a lane; p7 reads as true (04 R85). -/
def Warp.pred (w : Warp) (lane p : Nat) : Bool :=
  p == 7 || (Store.get w.preds 0 lane).getLsbD (w.predBit p)

/-- A byte with a bit set or cleared. -/
def setBit8 (x : W8) (n : Nat) (b : Bool) : W8 := if b then x ||| (1#8 <<< n) else x &&& ~~~(1#8 <<< n)

/-- The warp with a predicate of a lane changed. -/
def Warp.setPred (w : Warp) (lane p : Nat) (b : Bool) : Warp :=
  { w with preds := Store.put w.preds 0 lane (setBit8 (Store.get w.preds 0 lane) (w.predBit p) b) }

/-- The key under which a scalar register of a warp is pending. -/
def scalarKey (n : Nat) : Nat := 65536 + 0x340 + n

/-- Whether the register of a pending result is a scalar register. -/
def Pend.scalar (p : Pend) : Bool := decide (0x340 ≤ p.reg)

/-- The key of a pending result: of a lane's vector register, or of a scalar register of the warp. -/
def Pend.key (p : Pend) : Nat := if p.scalar then 65536 + p.reg else 1024 * p.lane + p.reg

/-- The number of a pending element among the choices of an occasion (04 R110: per element). -/
def Pend.elem (p : Pend) : Nat := 131072 * p.tag + p.key

/-- The pending results of a register, in order of issue. -/
def Warp.pendOf (w : Warp) (key : Nat) : List Pend := w.pend.filter fun p => p.key == key

/-- A read of a register with pending results: the value before, or a value that has not become visible (04 R110). -/
def readPend (n : Nat) (ps : List Pend) (x : W32) : W32 :=
  ps.foldl (fun acc p => if Config.choiceAt n p.elem then p.val else acc) x

/-- The value a lane reads in a vector register on a free occasion n. -/
def Warp.readVreg (w : Warp) (n lane code : Nat) : W32 :=
  readPend n (w.pendOf (w.regKey lane code)) (w.vreg lane code)

/-- A fixed-latency write over pending results leaves the register to a choice at the marker (04 R110). -/
def Warp.clash (w : Warp) (key : Nat) : Warp :=
  { w with pend := w.pend.map fun p => if p.key == key then { p with clash := true } else p }

/-- A fixed-latency write of a vector register. -/
def Warp.writeVreg (w : Warp) (lane code : Nat) (x : W32) : Warp :=
  (w.setVreg lane code x).clash (w.regKey lane code)

/-- The last-result file after one result (04 R87). -/
def Warp.shiftH (w : Warp) (lane : Nat) (x : W32) : Warp :=
  let h := fun n => w.vreg lane (0x320 + n)
  (((w.setVreg lane 0x323 (h 2)).setVreg lane 0x322 (h 1)).setVreg lane 0x321 (h 0)).setVreg lane 0x320 x

/-- A scalar register of the issuing stream. -/
def State.sreg (s : State) (n : Nat) : W32 :=
  match s.cur.strm with
  | .e =>
    let w := s.curWarp
    readPend s.draws (w.pendOf (scalarKey n)) (Store.get w.sregs 0 n)
  | st => Store.get (s.curGroup.stream st).sregs 0 n

/-- A fixed-latency write of a scalar register of the issuing stream. -/
def State.setSreg (s : State) (n : Nat) (x : W32) : State :=
  match s.cur.strm with
  | .e =>
    s.modCurWarp fun w =>
      { w with sregs := Store.put w.sregs 0 n x }.clash (scalarKey n)
  | st => s.modStream s.cur.grp st fun x' => { x' with sregs := Store.put x'.sregs 0 n x }

/-- The reader's number in the record of group-uniform writes: a warp by WID, 17 for the M-stream (03 R61). -/
def Cur.reader (c : Cur) : Nat := match c.strm with | .m => 17 | _ => c.wid

/-- A group-uniform register as the issuing stream reads it (03 R61). -/
def State.greg (s : State) (n : Nat) : W32 :=
  let x := s.curGroup
  let ws := x.gw.filter fun w => w.reg == n
  let b := Store.get x.gbase 0 n
  match s.cur.strm with
  | .a => ws.foldl (fun _ w => w.val) b
  | _ =>
    let seen := Store.get x.gseen 0 s.cur.reader
    ws.foldl (fun acc w => if decide (w.n ≤ seen) || Config.choiceAt s.draws (8192 + w.n) then w.val else acc) b

/-- A write of the A-stream to a group-uniform register (03 R61). -/
def State.setGreg (s : State) (n : Nat) (v : W32) : State :=
  s.modCur fun x => { x with gw := x.gw ++ [⟨x.gcount + 1, n, v⟩], gcount := x.gcount + 1 }

/-- Predicate p of a lane of the issuing stream. -/
def State.pred (s : State) (lane p : Nat) : Bool :=
  match s.cur.strm with
  | .e => s.curWarp.pred lane p
  | st => p == 7 || (s.curGroup.stream st).preds.getLsbD p

/-- A write of a predicate of a lane of the issuing stream. -/
def State.setPred (s : State) (lane p : Nat) (b : Bool) : State :=
  match s.cur.strm with
  | .e => s.modCurWarp (·.setPred lane p b)
  | st => s.modStream s.cur.grp st fun x => { x with preds := setBit8 x.preds p b }

/-- FSTAT of the issuing stream (05 R133). -/
def State.fstat (s : State) : W32 :=
  match s.cur.strm with
  | .e => s.curWarp.fstat
  | st => (s.curGroup.stream st).fstat

/-- The state with FSTAT of the issuing stream set. -/
def State.setFstat (s : State) (x : W32) : State :=
  match s.cur.strm with
  | .e => s.modCurWarp fun w => { w with fstat := x }
  | st => s.modStream s.cur.grp st fun y => { y with fstat := x }

/-! ### Pending results -/

/-- A result becomes visible: its value is written, unless the element was overwritten and the choice falls on the later
value (04 R110). -/
def Warp.land (w : Warp) (n : Nat) (p : Pend) : Warp :=
  if p.clash && Config.choiceAt n p.elem then w
  else if p.scalar then { w with sregs := Store.put w.sregs 0 (p.reg - 0x340) p.val }
  else { w with vregs := Store.put w.vregs 0 (1024 * p.lane + p.reg) p.val }

/-- A pending result is outstanding for the lanes given (04 R108, R109). DESIGN CHOICE: the pending result of a scalar register belongs to the
lane that wrote it, the lowest guard-true one, so that only the marker of that lane's split awaits it (notes/assumptions/53.md). -/
def Pend.awaitedBy (m : Lanes) (p : Pend) : Bool := m.getLsbD p.lane

/-- Every result of the lanes given becomes visible (04 R109, R112); a choice is one occasion. -/
def Warp.commit (w : Warp) (n : Nat) (m : Lanes) : Warp :=
  let w' := (w.pend.filter (Pend.awaitedBy m)).foldl (fun acc p => acc.land n p) w
  { w' with pend := w.pend.filter fun p => !p.awaitedBy m }

/-- The results of the lanes given have all been written. -/
def Warp.landedFor (w : Warp) (m : Lanes) : Bool := (w.pend.filter (Pend.awaitedBy m)).all (·.landed)

/-- A pending element is added; a second write of a pending element leaves the choice (04 R110). -/
def Warp.addPend (w : Warp) (p : Pend) : Warp :=
  { w with pend := w.pend ++ [{ p with clash := w.pend.any fun q => q.key == p.key }] }

/-! ### Splits and program counters -/

/-- A split that is not parked, at a program counter. -/
def Split.at (lanes : Lanes) (pc : W64) : Split := ⟨lanes, pc, .ready, 0, 0, 0, 0, false, false, 0⟩

/-- The start of the bundle a program counter lies in (04 R96). -/
def bundleOf (pc : W64) : W64 := pc &&& ~~~31#64

/-- The slot a program counter names, 1 to 3; a bundle start stands for slot 1 (04 R96). -/
def slotOf (pc : W64) : Nat := max 1 (pc.extractLsb' 3 2).toNat

/-- The address of the slot a program counter names (04 R96). -/
def slotAddr (pc : W64) : W64 := bundleOf pc + BitVec.ofNat 64 (8 * slotOf pc)

/-- Nothing holds a split in this wait: it is not parked, or it is a `wait` that every lane has satisfied (09 R244). -/
def Wait.isOver : Wait → Bool
  | .ready => true
  | .waitaddr ws => ws.all fun y => y.got.isSome
  | _ => false

/-- The wait of two splits whose waits are over, merged: the satisfied lanes of `wait` keep the values that they read. -/
def Wait.join (a b : Wait) : Wait :=
  match a, b with
  | .waitaddr xs, .waitaddr ys => .waitaddr (xs ++ ys)
  | .waitaddr xs, _ => .waitaddr xs
  | _, w => w

/-- Two splits merge under the regang rule: equal program counters and neither parked (02 R37). -/
def Split.merges (a b : Split) : Bool :=
  a.wait.isOver && b.wait.isOver && slotAddr a.pc == slotAddr b.pc && a.trapped == b.trapped && a.mark == b.mark

/-- The earlier of two arrivals of traversal requests, where zero is none. -/
def firstReq (a b : Nat) : Nat := if a = 0 then b else if b = 0 then a else min a b

/-- Two splits merged; the watchdog count is the larger (02 R44). DESIGN CHOICE: of two holds after `yield`, or after a stall hint, the
merged split keeps the smaller (notes/assumptions/54.md). -/
def Split.merge (a b : Split) : Split :=
  { a with
    lanes := a.lanes ||| b.lanes
    wait := a.wait.join b.wait
    wd := max a.wd b.wd
    bp := max a.bp b.bp
    hold := min a.hold b.hold
    stall := min a.stall b.stall
    req := firstReq a.req b.req }

/-- A split added to a list of splits, merged where the regang rule says so. -/
def addSplit (l : List Split) (x : Split) : List Split :=
  match l with
  | [] => [x]
  | y :: r => if y.merges x then y.merge x :: r else y :: addSplit r x

/-- The regang rule (02 R37). -/
def regang (l : List Split) : List Split := l.foldl addSplit []

/-- Lanes taken out of every split; empty splits go. -/
def removeLanes (m : Lanes) (l : List Split) : List Split :=
  (l.map fun x => { x with lanes := x.lanes &&& ~~~m }).filter fun x => x.lanes != 0

/-- The warp whose split with the given lanes is replaced. -/
def Warp.replaceSplit (w : Warp) (m : Lanes) (f : Split → List Split) : Warp :=
  { w with splits := w.splits.flatMap fun x => if x.lanes == m then f x else [x] }

/-- The issue has taken its own effect. -/
def State.markDone (s : State) : State := { s with cur := { s.cur with done := true }, draws := s.draws + 1 }

/-- The issuing split is replaced, or the issuing A- or M-stream changed. -/
def State.modSplit (s : State) (f : Split → List Split) (g : Stream → Stream) : State :=
  match s.cur.strm with
  | .e => s.modCurWarp (·.replaceSplit s.cur.lanes f)
  | st => s.modStream s.cur.grp st g

/-- The instruction completes and the next slot follows (04 R96). -/
def State.advance (s : State) : State :=
  (s.modSplit (fun x => [{ x with pc := s.cur.npc, wait := .ready, bp := 0, wd := 0 }])
    (fun x => { x with pc := s.cur.npc, wait := .ready, bp := 0 })).markDone

/-- The instruction completes and its split or stream waits behind it. -/
def State.advanceWait (s : State) (t : Wait) : State :=
  (s.modSplit (fun x => [{ x with pc := s.cur.npc, wait := t, bp := 0, wd := 0 }])
    (fun x => { x with pc := s.cur.npc, wait := t, bp := 0 })).markDone

/-- The form under way must wait for write-backs that a range lock holds, where `b` says so (08 R215, R216). -/
def State.stickIf (s : State) (b : Bool) : State := if b then { s with cur := { s.cur with stuck := true } } else s

/-- The wait holds an instruction that cannot issue (02 R38): it executes once the wait is over. -/
def Wait.holds : Wait → Bool
  | .qempty _ _ _ | .qfull | .qback | .trav _ | .backs | .locks _ | .hqget _ | .matrix _ _ _ _ => true
  | _ => false

/-- A split stands in a wait at the slot given. The blocked-port count restarts with each new wait (17 R417); a ready split has a count only
where a stop withdrew its wait, which goes on from it (17 R418, 18 R434). The watchdog's count restarts where the instruction has issued
(02 R44). -/
def Split.stand (x : Split) (pc : W64) (t : Wait) : Split :=
  { x with pc := pc, wait := t, bp := if x.wait == .ready then x.bp else 0, wd := if t.holds then x.wd else 0 }

/-- The instruction does not complete: its split or stream waits at it and executes it again. -/
def State.park (s : State) (t : Wait) : State :=
  s.modSplit (fun x => [x.stand s.cur.pc t]) (fun x => { x with pc := s.cur.pc, wait := t, bp := if x.wait == .ready then x.bp else 0 })

/-- The instruction completes in some lanes of its split, which go on; the others stay at it as a split of their own, and wait
(02 R37). -/
def State.splitOff (s : State) (stay : Lanes) (t : Wait) : State :=
  let go := s.cur.lanes &&& ~~~stay
  if stay = 0 then s.advance
  else if go = 0 then s.park t
  else
    let s1 := (s.modCurWarp (·.replaceSplit s.cur.lanes fun x =>
      [{ x with lanes := go, pc := s.cur.npc, wait := .ready, bp := 0, wd := 0 }, { x.stand s.cur.pc t with lanes := stay, wd := 0 }])).markDone
    { s1 with cur := { s1.cur with lanes := go } }

/-- The targets of a set of lanes, each once, ascending. -/
def targetsOf (m : Lanes) (tgt : Nat → W64) : List W64 :=
  (((laneList m).map tgt).foldl (fun (acc : Store Unit) x => Store.insert (Store.erase acc x.toNat) x.toNat ()) []).map
    fun p => BitVec.ofNat 64 p.1

/-- The instruction completes and each lane continues at its own target (02 R37). -/
def State.jump (s : State) (tgt : Nat → W64) : State :=
  (s.modSplit
    (fun x => (targetsOf x.lanes tgt).map fun t =>
      { x with lanes := laneMask x.lanes (fun l => tgt l == t), pc := t, wait := .ready, bp := 0, wd := 0 })
    (fun x => { x with pc := tgt 0, wait := .ready, bp := 0 })).markDone

/-! ### Causes -/

/-- The code of a cause (17 R410). -/
def Cause.code : Cause → Nat
  | .illegalOpcode => 0x01 | .reservedField => 0x02 | .pairRule => 0x03 | .targetMisaligned => 0x04
  | .featureMasked => 0x05 | .privileged => 0x06 | .hazard => 0x07 | .literalMisplaced => 0x08
  | .addrFault => 0x10 | .accessPerm => 0x11 | .misalignedAccess => 0x12 | .rangeLocked => 0x13
  | .scratchBounds => 0x14 | .capabilityFault => 0x15 | .placeUnmapped => 0x16 | .poisonData => 0x17
  | .queueFault => 0x20 | .queueUnderflow => 0x21 | .decoupleStall => 0x22
  | .fpException => 0x30 | .formatDivergence => 0x32 | .matrixState => 0x33 | .quadIllegal => 0x34
  | .watchdogSplits => 0x40 | .waitTimeout => 0x41 | .barrierMismatch => 0x42
  | .trapInsn => 0x50 | .upcallFail => 0x51 | .breakpoint => 0x52
  | .taskBudget => 0x60 | .travFormat => 0x70 | .travLimit => 0x71

/-- The code of a stream in TSTREAM (17 R409). -/
def strmCode : Strm → Nat
  | .e => 0 | .a => 1 | .m => 2

/-- The reason code of a wait (17 R416); a switch marker's reason depends on what it awaits (04 R109). -/
def Wait.code : Wait → Nat
  | .ready => 0 | .marker => 0 | .qempty _ _ _ => 1 | .qfull => 2 | .qback => 3
  | .barrier _ _ _ => 4 | .cbarrier _ _ => 4 | .wjoin _ _ => 4 | .rgrp _ => 4
  | .waitaddr _ => 5 | .taskres _ _ _ => 6 | .mclaim _ _ => 7 | .mswap _ _ => 7 | .matrix _ _ _ _ => 7
  | .trav _ => 8 | .backs => 0 | .locks _ => 0 | .tinv _ => 0 | .hqget _ => 9 | .hqput _ _ => 9
  | .fault _ _ => 11 | .faultQ _ => 11 | .escal _ _ => 11 | .mending => 7

/-! ### Fault records (17 R419, R420) -/

/-- What a fault record says: `tcause`, `i0` and `i1` are what the trap would hold, `bits` the bits of an address below its page. -/
structure FaultReq where
  part : Nat
  asid : Nat
  kind : Nat
  agent : Nat
  acc : Nat
  cause : Cause
  tcause : Cause
  addr : W64
  bits : Nat
  place : Nat
  pc : W64
  mask : Lanes
  i0 : W64
  i1 : W64
  reason : Nat
  stage2 : Option Nat
  deriving DecidableEq, Repr

/-- The 64 bytes of a fault record (17 R419). -/
def FaultReq.record (r : FaultReq) : W512 :=
  let w0 := r.kind + r.cause.code * 2 ^ 8 + r.acc * 2 ^ 16 + r.agent * 2 ^ 20 + r.reason * 2 ^ 24 + r.asid * 2 ^ 32 +
    r.part * 2 ^ 48
  BitVec.ofNat 512 (w0 + r.addr.toNat * 2 ^ 64 + r.place * 2 ^ 128 + r.pc.toNat * 2 ^ 192 + r.mask.toNat * 2 ^ 256 +
    r.tcause.code * 2 ^ 320 + r.i0.toNat * 2 ^ 384 + r.i1.toNat * 2 ^ 448)

/-- The fault is at a global address, of space code 0: other spaces have no pages. -/
def FaultReq.paged (r : FaultReq) : Bool := r.acc % 4 == 0

/-- The page a fault record stands for, by its first address; 2^64 where there is none. -/
def FaultReq.page (r : FaultReq) : Nat := if r.paged then r.addr.toNat - r.addr.toNat % 2 ^ r.bits else 2 ^ 64

/-- A record for the same context, page and kind is outstanding (17 R420); an escalation or a halt stands for itself alone. -/
def FaultReq.twin (r : FaultReq) (s : State) : Option Nat :=
  if 5 ≤ r.kind || !r.paged then none
  else
    (s.faults.find? fun p => p.2.used && p.2.part == r.part && p.2.asid == r.asid && p.2.page == r.page &&
      p.2.kind == r.kind && p.2.stage2 == r.stage2).map Prod.fst

/-- A fault goes to its server: the number of the verdict it waits for (17 R419, R420; 19 R449 for stage 2). -/
def State.postFault (s : State) (r : FaultReq) : Nat × State :=
  match r.twin s with
  | some t => (t, s)
  | none =>
    let c := s.ctx (ctxKey r.part r.asid)
    let peer := c.fspeer && r.stage2.isNone
    (s.nextTok, { s with
      nextTok := s.nextTok + 1
      faults := Store.put s.faults FaultOut.blank s.nextTok
        ⟨true, r.part, r.asid, r.page, r.kind, r.record, false, r.stage2, peer, r.stage2.getD c.fsnode, r.cause⟩ })

/-! ### Taking a trap -/

/-- The context has no handler: a user trap of it escalates (17 R411). -/
def State.noHandler (s : State) (g : Nat) : Bool := (s.gctx g).tbase == 0

/-- The fault record of an escalation (17 R411, R419: kind 5). -/
def escalation (x : Group) (wid agent : Nat) (t : Trap) : FaultReq :=
  ⟨x.part, x.asid, 5, agent, 0, t.cause, t.cause, 0, 0, x.core + wid * 2 ^ 16, t.pc, t.mask, t.i0, t.i1, 0, none⟩

/-- The trap of a warp at level H escalates, and the warp parks with FAULT (17 R413). -/
def State.escalateWarp (s : State) (g w : Nat) (t : Trap) : State :=
  let r := s.postFault (escalation (s.group g) w 0 t)
  r.2.modWarp g w fun x => { x with esc := some r.1 }

/-- The trap of a split at level U escalates, and the split parks with FAULT (17 R411). -/
def State.escalateSplit (s : State) (g w : Nat) (m : Lanes) (t : Trap) : State :=
  let r := s.postFault (escalation (s.group g) w 0 t)
  r.2.modWarp g w fun y => y.replaceSplit m fun (x : Split) => [{ x with wait := .escal r.1 x.wait }]

/-- The trap of a stream escalates, and the stream parks with FAULT (17 R411). -/
def State.escalateStream (s : State) (g : Nat) (st : Strm) (t : Trap) : State :=
  let r := s.postFault (escalation (s.group g) 0 (strmCode st) t)
  r.2.modStream g st fun x => { x with esc := some r.1, trap := none, stopped := true }

/-- The handler bank at trap entry: each lane position keeps what an earlier handler of the warp left, or reads zero (17 R408). -/
def Warp.enterBank (w : Warp) (n : Nat) : Warp :=
  (laneList w.live).foldl (fun acc l =>
    if Config.choiceAt n l then acc
    else
      { acc with
        vregs := [0x324, 0x325, 0x326, 0x327].foldl (fun v c => Store.put v 0 (1024 * l + c) 0) acc.vregs
        preds := Store.put acc.preds 0 l (setBit8 (Store.get acc.preds 0 l) 7 false) }) w

/-- TakeTrap of 17 R412, once every outstanding result of the warp has landed: results become visible, every split is saved, the
trap registers are written, and the live lanes run as one split from TBASE. -/
def Warp.takeTrap (w : Warp) (n : Nat) (tbase : W64) (st : Strm) (t : Trap) : Warp :=
  let w := w.commit n (~~~0)
  { w with
    saved := w.splits
    splits := [Split.at w.live tbase]
    tcause := BitVec.ofNat 64 t.cause.code
    tstream := BitVec.ofNat 64 (strmCode st)
    tpc := t.pc
    tmask := t.mask
    tinfo0 := t.i0
    tinfo1 := t.i1
    tinfo2 := t.i2
    tinfo3 := t.i3
    tpcin := t.pc
    level := true
    errs := w.errs.map fun (e : MarkErr) => { e with held := true }
    due := none }.enterBank n

/-- The outstanding results of a warp that a trap entry must wait for: those of rays, textures and upcalls. A load's value was
fixed when it issued, and it lands with the entry. -/
def Warp.mustWait (w : Warp) : Bool :=
  w.pend.any fun p => !p.landed && (match p.kind with | .mem => false | _ => true)

/-- Another split of the warp is still to issue in the same issue pair (02 R41). -/
def State.partnerOf (s : State) (g w : Nat) : Bool :=
  match s.cur.partner with
  | some p => p.grp == g && p.wid == w
  | none => false

/-- A warp's due trap is delivered once its results have landed and its issue pair is complete (02 R41, 17 R412). -/
def State.deliver (s : State) (g w : Nat) : State :=
  let x := s.warp g w
  match x.due with
  | none => s
  | some (st, t) =>
    if x.level || x.mustWait || s.partnerOf g w then s
    else (s.modWarp g w fun x => x.takeTrap s.draws (s.gctx g).tbase st t).draw

/-- A user trap of a warp (17 R411 to R413). It marks the split that issued the trapping instruction. At level H, or without a
handler, it escalates. After a trap of the same issue pair, the second issue is squashed (02 R41). -/
def State.trapWarp (s : State) (g w : Nat) (m : Lanes) (t : Trap) : State :=
  let x := s.warp g w
  if x.due.isSome || x.esc.isSome then s
  else if x.level then s.escalateWarp g w t
  else if s.noHandler g then s.escalateSplit g w m t
  else
    (s.modWarp g w fun x =>
      { x with
        due := some (.e, t)
        splits := x.splits.map fun y => { y with trapped := y.lanes == m } }).deliver g w

/-- A trap of the A- or M-stream (03 R82): the stream stops, and the trap waits for its warp. -/
def State.trapStream (s : State) (g : Nat) (st : Strm) (t : Trap) : State :=
  let x := s.group g
  if s.noHandler g || x.firstWarp.isNone then s.escalateStream g st t
  else s.modStream g st fun y => { y with trap := some t, stopped := true }

/-- The issuing instruction traps: it has no effect (17 R412). -/
def State.trap (s : State) (t : Trap) : State :=
  match s.cur.strm with
  | .e => s.trapWarp s.cur.grp s.cur.wid s.cur.lanes t
  | st => s.trapStream s.cur.grp st t

/-- A trap of the issuing instruction; TMASK is zero in the A- and M-streams (17 R409). -/
def State.mkTrap (s : State) (c : Cause) (m : Lanes) (i0 i1 i2 i3 : W64) : Trap :=
  ⟨c, s.cur.pc, if s.cur.strm = .e then m else 0, i0, i1, i2, i3⟩

/-- The next trap of a stream that waits for a warp is delivered (03 R82, R83): the E-stream's own first, then the A-stream's,
then the M-stream's. -/
def State.trapEntry (s : State) (g w : Nat) : State :=
  let s := s.deliver g w
  let x := s.group g
  let y := x.warp w
  if y.level || y.due.isSome || y.ended || y.esc.isSome || x.firstWarp != some w || y.mustWait then s
  else
    match x.astr.trap, x.mstr.trap with
    | some t, _ =>
      ((s.modStream g .a fun z => { z with trap := none }).modWarp g w fun z =>
        z.takeTrap s.draws (s.gctx g).tbase .a t).draw
    | none, some t =>
      ((s.modStream g .m fun z => { z with trap := none }).modWarp g w fun z =>
        z.takeTrap s.draws (s.gctx g).tbase .m t).draw
    | none, none => s

/-! ### Returning from a trap -/

/-- A saved split after `tret` (17 R414): one that issued the trapping instruction continues at TPC where the handler changed it;
any other resumes as saved, its blocked-port count at zero. -/
def Split.resume (x : Split) (strm : Nat) (tpc tpcin : W64) : Split :=
  if strm == 0 && x.trapped && tpc != tpcin then
    { x with pc := tpc, wait := .ready, bp := 0, trapped := false, req := 0 }
  else { x with bp := 0, trapped := false }

/-- The warp after `tret` (17 R414). Lanes that exited at level H have left their saved splits (17 R413). -/
def Warp.trapReturn (w : Warp) : Warp :=
  { w with
    splits := regang ((removeLanes (~~~(w.live ||| w.helper)) w.saved).map (·.resume w.tstream.toNat w.tpc w.tpcin))
    saved := []
    errs := w.errs.map fun (e : MarkErr) => { e with held := false }
    level := false }

/-- The claims that wait on arrays, without those of a group (10 R278). -/
def State.dropClaims (s : State) (g : Nat) : State :=
  { s with eng := { s.eng with claims := (s.eng.claims.map fun (p : Nat × List (Nat × Bool)) =>
      (p.1, p.2.filter fun (x : Nat × Bool) => x.1 != g)).filter fun p => !p.2.isEmpty } }

/-- `tret` on warp w of group g: the warp returns, and the stream whose trap was handled continues at TPC (17 R414); a wait for an array that it
leaves is abandoned with its place (17 R417, 10 R278). -/
def State.trapReturn (s : State) (g w : Nat) : State :=
  let x := s.warp g w
  let s := s.modWarp g w (·.trapReturn)
  let cont (y : Stream) : Stream :=
    if x.tpc == x.tpcin then { y with stopped := false, bp := 0 }
    else { y with pc := x.tpc, stopped := false, wait := .ready, bp := 0 }
  match x.tstream.toNat with
  | 1 => s.modStream g .a cont
  | 2 => (if x.tpc == x.tpcin then s else s.dropClaims g).modStream g .m cont
  | _ => s

end Sys2Proof.Machine
end

