-- ==== Sys2Proof/Machine/Operands.lean ====
section
/-!
DEFINITION. Every operand form of spec/04_registers_encoding.md (R90 to R94): guards, sources as lanes read them, queue sources
(03 R68), and destinations (R86 to R89).
-/

namespace Sys2Proof.Machine

/-! ### Guards and lanes -/

/-- The guard of a form selects a lane (04 R98). -/
def State.guard (s : State) (f : Full) (lane : Nat) : Bool := s.pred lane f.guard.val != f.neg

/-- The guard-true lanes of the issue, helper lanes included (02 R26). -/
def State.gLanes (s : State) (f : Full) : Lanes := laneMask s.cur.lanes (s.guard f)

/-- The lanes that are live; a stream counts as lane 0. -/
def State.liveMask (s : State) : Lanes := if s.cur.strm = .e then s.curWarp.live else 1

/-- The guard-true live lanes of the issue (09 R231). -/
def State.gLive (s : State) (f : Full) : Lanes := s.gLanes f &&& s.liveMask

/-- A lane is a helper lane. -/
def State.isHelper (s : State) (lane : Nat) : Bool := s.cur.strm = .e && s.curWarp.helper.getLsbD lane

/-! ### Sources -/

/-- The pattern of inline constant n (04 R91). -/
def inlineConst (n : Nat) : W32 :=
  match n with
  | 0 => 0 | 1 => 1 | 2 => 2 | 3 => 3 | 4 => 4 | 5 => 8 | 6 => 16 | 7 => 32 | 8 => 64 | 9 => 128
  | 10 => 0xFFFFFFFF | 11 => 0xFFFFFFFE | 12 => 0x7FFFFFFF | 13 => 0x80000000 | 14 => 0xFFFF | 15 => 0xFF
  | 16 => 0x3F000000 | 17 => 0x3F800000 | 18 => 0x40000000 | 19 => 0x40800000
  | 20 => 0xBF000000 | 21 => 0xBF800000 | 22 => 0xC0000000 | 23 => 0xC0800000
  | 24 => 0x3FB8AA3B | 25 => 0x3F317218 | 26 => 0x40490FDB | 27 => 0x3E22F983
  | 28 => 0x7F800000 | 29 => 0x7FC00000 | 30 => 0x3E800000 | _ => 0x40400000

/-- An inline constant as a 64-bit source: the codes of -1 and -2 are sign-extended (04 R91). -/
def inlineWide (n : Nat) : W64 := if n == 10 || n == 11 then (inlineConst n).signExtend 64 else (inlineConst n).setWidth 64

/-- An inline constant in a form that reads packed 16-bit sources: a floating one converted to the element format, an integer
one's low half, in both halves (04 R91). -/
def inlinePacked (F : Fmt) (n : Nat) : W32 :=
  let h : BitVec 16 :=
    if 16 ≤ n then BitVec.ofNat 16 (roundFmt F .rne false (Fmt.f32.dec (inlineConst n).toNat)).1
    else (inlineConst n).setWidth 16
  h ++ h

/-- The number of the counter CYCLE reads: of the warp's quarter, or of the sequencer that runs the stream (01 R23, 04 R92). -/
def Group.counter (x : Group) (st : Strm) (wid : Nat) : Nat :=
  match st with
  | .e => 4 * x.pcore + (x.warp wid).quarter
  | .a => 1024 + 4 * x.pcore + x.slotA / 4
  | .m => 2048 + 2 * x.pcore + x.slotM

/-- The counter that the issuing stream reads. -/
def State.cycle (s : State) : W64 := Store.get s.eng.cycles 0 (s.curGroup.counter s.cur.strm s.cur.wid)

/-- A special operand (02 R58, 04 R92). -/
def State.special (s : State) (x : Special) (lane : Nat) : W64 :=
  let g := s.curGroup
  let tid (a : Nat) : W64 := (Store.get s.curWarp.tids 0 (4 * lane + a)).setWidth 64
  match x with
  | .lane => BitVec.ofNat 64 lane
  | .tidX => tid 0
  | .tidY => tid 1
  | .tidZ => tid 2
  | .gidX => g.gidX.setWidth 64
  | .gidY => g.gidY.setWidth 64
  | .gidZ => g.gidZ.setWidth 64
  | .wid => BitVec.ofNat 64 s.cur.wid
  | .nwarp => BitVec.ofNat 64 g.nwarp
  | .width => BitVec.ofNat 64 g.kernel.width
  | .quad => BitVec.ofNat 64 (lane / 4)
  | .qlane => BitVec.ofNat 64 (lane % 4)
  | .core => BitVec.ofNat 64 g.core
  | .clu => BitVec.ofNat 64 g.clu
  | .taskid => g.taskid.setWidth 64
  | .cycleLo => s.cycle
  | .cycleHi => s.cycle >>> 32

/-- Queue q of a warp. -/
def Warp.queue (w : Warp) (q : Nat) : Queue := Store.get w.queues Queue.blank q

/-- The warp with queue q changed. -/
def Warp.modQueue (w : Warp) (q : Nat) (f : Queue → Queue) : Warp :=
  { w with queues := Store.put w.queues Queue.blank q (f (w.queue q)) }

/-- The head pointer of a lane (03 R68). -/
def Queue.head (q : Queue) (lane : Nat) : Nat := Store.get q.heads 0 lane

/-- The entry with a sequence number. -/
def Queue.entry (q : Queue) (n : Nat) : Option QEntry := q.entries.find? fun e => e.seq == n

/-- The element of the entry at a lane's head. -/
def Queue.elem (q : Queue) (lane : Nat) : Option QElem := (q.entry (q.head lane)).bind fun e => e.elems[lane]?

/-- The value a lane pops: zero for a helper lane (02 R50, 03 R68). -/
def State.popValue (s : State) (q lane : Nat) : W64 :=
  if s.isHelper lane then 0
  else match (s.curWarp.queue q).elem lane with | some (.data x) => x | _ => 0

/-- A register pair as 64 bits (04 R86). -/
def pair64 (lo hi : W32) : W64 := hi ++ lo

/-- A vector register or pair as a lane reads it. -/
def State.readV (s : State) (code : Nat) (wide : Bool) (lane : Nat) : W64 :=
  let w := s.curWarp
  if wide then pair64 (w.readVreg s.draws lane code) (w.readVreg s.draws lane (code + 1))
  else (w.readVreg s.draws lane code).setWidth 64

/-- A source operand as a lane reads it, 64 bits wide or in the low 32 (04 R86, R90 to R94). -/
def State.src (s : State) (f : Full) (x : Operand) (wide : Bool) (lane : Nat) : W64 :=
  match x with
  | .v n => s.readV n.val wide lane
  | .o n => s.readV (0x300 + n.val) wide lane
  | .h n => s.readV (0x320 + n.val) wide lane
  | .s n => if wide then pair64 (s.sreg n.val) (s.sreg (n.val + 1)) else (s.sreg n.val).setWidth 64
  | .g n => if wide then pair64 (s.greg n.val) (s.greg (n.val + 1)) else (s.greg n.val).setWidth 64
  | .k n => if wide then inlineWide n.val else (inlineConst n.val).setWidth 64
  | .q n => if wide then s.popValue n.val lane else ((s.popValue n.val lane).setWidth 32).setWidth 64
  | .qb => 0
  | .sp y => if wide then s.special y lane else ((s.special y lane).setWidth 32).setWidth 64
  | .litLo =>
    let l := ((f.lit.getD 0).setWidth 32)
    if wide then l.signExtend 64 else l.setWidth 64
  | .litHi =>
    let l := ((f.lit.getD 0).extractLsb' 32 32)
    if wide then l.signExtend 64 else l.setWidth 64
  | .lit64 => f.lit.getD 0
  | .null => 0

/-- A 32-bit source. -/
def State.src32 (s : State) (f : Full) (x : Operand) (lane : Nat) : W32 := (s.src f x false lane).setWidth 32

/-- A source of a form that reads packed 16-bit sources (04 R91). -/
def State.srcPacked (s : State) (F : Fmt) (f : Full) (x : Operand) (lane : Nat) : W32 :=
  match x with
  | .k n => inlinePacked F n.val
  | x => s.src32 f x lane

/-! ### Destinations -/

/-- A fixed-latency result written to a vector register or pair of a lane; a 64-bit result shifts the last-result file twice, and
a write to the handler bank does not shift it (04 R87). -/
def Warp.result (w : Warp) (code : Nat) (wide hist : Bool) (x : W64) (lane : Nat) : Warp :=
  let bank := w.level && decide (codeO28 ≤ code ∧ code < codeO28 + 4)
  let lo : W32 := x.setWidth 32
  let hi : W32 := x.extractLsb' 32 32
  let w := w.writeVreg lane code lo
  let w := if wide then w.writeVreg lane (code + 1) hi else w
  if bank || !hist then w
  else if wide then (w.shiftH lane hi).shiftH lane lo
  else w.shiftH lane lo

/-- A result for each lane given, written to a destination (04 R86 to R88, R90; 03 R61): an s register receives the lowest lane's. -/
def State.writeDst (s : State) (x : Operand) (wide hist : Bool) (lanes : Lanes) (val : Nat → W64) : State :=
  let vec (code : Nat) : State :=
    s.modCurWarp fun w => (laneList lanes).foldl (fun w l => w.result code wide hist (val l) l) w
  match x with
  | .v n => vec n.val
  | .o n => vec (0x300 + n.val)
  | .s n =>
    match lowLane lanes with
    | none => s
    | some l =>
      let s := s.setSreg n.val ((val l).setWidth 32)
      if wide then s.setSreg (n.val + 1) ((val l).extractLsb' 32 32) else s
  | .g n =>
    match lowLane lanes with
    | none => s
    | some l =>
      let s := s.setGreg n.val ((val l).setWidth 32)
      if wide then s.setGreg (n.val + 1) ((val l).extractLsb' 32 32) else s
  | _ => s

/-- A 64-bit value as the words of a destination. -/
def words64 (wide : Bool) (x : W64) : List W32 := if wide then [x.setWidth 32, x.extractLsb' 32 32] else [x.setWidth 32]

/-- A variable-latency result for each lane given: its elements are pending until a switch marker (04 R108). The words of a
result go to consecutive registers. -/
def State.pendDst (s : State) (x : Operand) (kind : Nat → PendKind) (landed : Bool) (lanes : Lanes) (val : Nat → List W32) : State :=
  let vec (code : Nat) : State :=
    s.modCurWarp fun w => (laneList lanes).foldl (fun w l =>
      ((val l).zipIdx).foldl (fun w (p : W32 × Nat) =>
        w.addPend ⟨l, w.regKey l (code + p.2) - 1024 * l, p.1, s.draws, kind l, landed, false⟩) w) w
  match x with
  | .v n => vec n.val
  | .o n => vec (0x300 + n.val)
  | .s n =>
    match lowLane lanes with
    | none => s
    | some l =>
      s.modCurWarp fun w => ((val l).zipIdx).foldl (fun w (p : W32 × Nat) =>
        w.addPend ⟨l, 0x340 + n.val + p.2, p.1, s.draws, kind l, landed, false⟩) w
  | _ => s

end Sys2Proof.Machine
end

