-- ==== Sys2Proof/Machine/Flags.lean ====
section
/-!
DEFINITION. The sticky flags and FP_EXCEPTION (spec/05_number_formats.md R133 to R136), and the frame in which the forms of
spec/06_isa_arithmetic.md compute lane by lane (R144).
-/

namespace Sys2Proof.Machine

/-- The flags that FSTAT enables, ESAT to ENV as SAT to NV (05 R133). -/
def enabledFlags (fstat : W32) : W8 := ((fstat >>> 8).setWidth 8) &&& 0x7F

/-- The OR of the flags of a list of lanes. -/
def orFlags (l : List (Nat × W8)) : W8 := l.foldl (fun acc p => acc ||| p.2) 0

/-- FP_EXCEPTION of the flags that live lanes would raise, if one of them is enabled; never at level H (05 R136, 17 R413). -/
def State.flagTrap (s : State) (l : List (Nat × W8)) : Option Trap :=
  let en := enabledFlags s.fstat
  let hit := l.filter fun p => p.2 &&& en != 0
  if (s.cur.strm = .e && s.curWarp.level) || hit.isEmpty then none
  else
    some (s.mkTrap .fpException (hit.foldl (fun acc p => acc ||| laneBit p.1) 0)
      ((((orFlags l) &&& en).setWidth 64) ||| ((orFlags l).setWidth 64 <<< 8)) 0 0 0)

/-- FSTAT after the flags of a list of lanes are raised; nothing at level H (05 R134, R135; 17 R413). -/
def State.raise (s : State) (l : List (Nat × W8)) : State :=
  if s.cur.strm = .e && s.curWarp.level then s else s.setFstat (s.fstat ||| (orFlags l).setWidth 32)

/-- What a form computes for one lane: a result, a predicate and the flags it raises. -/
structure AluOut where
  val : W64
  flags : W8
  pred : Bool
  deriving DecidableEq, Repr

/-- A result without flags. -/
def AluOut.pure (x : W64) : AluOut := ⟨x, 0, false⟩
/-- A result with flags. -/
def AluOut.of (r : W64 × W8) : AluOut := ⟨r.1, r.2, false⟩
/-- A predicate with flags. -/
def AluOut.ofPred (r : Bool × W8) : AluOut := ⟨0, r.2, r.1⟩

/-- The results of the guard-true lanes. -/
def lanesOut (g : Lanes) (op : Nat → AluOut) : List (Nat × AluOut) := (laneList g).map fun l => (l, op l)

/-- The result of a lane. -/
def outOf (o : List (Nat × AluOut)) (l : Nat) : AluOut := Store.get o (AluOut.pure 0) l

/-- The flags of the live lanes among the results. -/
def liveFlags (live : Lanes) (o : List (Nat × AluOut)) : List (Nat × W8) :=
  (o.filter fun p => live.getLsbD p.1).map fun p => (p.1, p.2.flags)

/-- A predicate written for each lane given. -/
def State.writePred (s : State) (p : Nat) (lanes : Lanes) (val : Nat → Bool) : State :=
  (laneList lanes).foldl (fun s l => s.setPred l p (val l)) s

/-- The frame of an arithmetic form (06 R144): every guard-true lane computes from the sources as they were, live lanes raise
flags, an enabled flag traps and leaves everything as it was; the result goes to d and the predicate to pd. -/
def State.alu (s : State) (f : Full) (wide : Bool) (pd : Option Nat) (op : Nat → AluOut) : State :=
  let g := s.gLanes f
  let o := lanesOut g op
  let fl := liveFlags s.liveMask o
  match s.flagTrap fl with
  | some t => s.trap t
  | none =>
    let s1 := s.writeDst f.d wide true g fun l => (outOf o l).val
    let s2 := match pd with
      | some p => s1.writePred p g fun l => (outOf o l).pred
      | none => s1
    (s2.raise fl).advance

end Sys2Proof.Machine
end

