-- ==== Sys2Proof/Machine/Memory.lean ====
section
/-!
DEFINITION. Home memory, the L1 and cluster caches and their write-backs (spec/08_memory_model.md R197 to R225; 19 R452; 20
R467; 21 R496). An access goes to one level: 0 the L1, 1 the cluster cache, 2 the home slice.
-/

namespace Sys2Proof.Machine

/-! ### Home memory -/

/-- A byte of home memory; a byte that nothing has written reads zero (notes/assumptions/1.md). -/
def Mem.byte (m : Mem) (a : Nat) : W8 := Store.get m.home 0 a

/-- n bytes of home memory, the lowest address least significant (00 R5). -/
def Mem.read (m : Mem) (a n : Nat) : Nat :=
  match n with
  | 0 => 0
  | k + 1 => (m.byte a).toNat + 256 * m.read (a + 1) k

/-- A byte written to home memory; the tag of its 16-byte unit clears (20 R467). -/
def Mem.setByte (m : Mem) (a : Nat) (x : W8) : Mem :=
  { m with home := Store.put m.home 0 a x, tags := Store.put m.tags false (a / 16) false }

/-- Home memory in its canonical form: bytes, tags and poison by rising number, none equal to what an unlisted number reads as. -/
def Mem.wf (m : Mem) : Bool := Store.wf m.home 0 && Store.wf m.tags false && Store.wf m.poison false

/-- A write of n bytes breaks the reservation sets of control cores that it touches (08 R217). -/
def Mem.breakSets (m : Mem) (a n : Nat) : Mem :=
  { m with rsets := m.rsets.filter fun p => decide (p.2 - 1 + 8 ≤ a ∨ a + n ≤ p.2 - 1) }

/-- The bytes of a value, the lowest first. -/
def bytesOf (n v : Nat) : List W8 :=
  match n with
  | 0 => []
  | k + 1 => BitVec.ofNat 8 v :: bytesOf k (v / 256)

/-- Bytes written to home memory at rising addresses. -/
def Mem.setBytes (m : Mem) (a : Nat) (l : List W8) : Mem :=
  match l with
  | [] => m
  | x :: r => (m.setByte a x).setBytes (a + 1) r

/-- A sector of home memory is poisoned (21 R496). -/
def Mem.bad (m : Mem) (a : Nat) : Bool := Store.get m.poison false (a / 32)

/-- A write of whole sectors clears their poison (21 R496). -/
def Mem.heal (m : Mem) (a n : Nat) : Mem :=
  { m with poison := m.poison.filter fun p => !(decide (a ≤ 32 * p.1 ∧ 32 * p.1 + 32 ≤ a + n)) }

/-- A write of bytes at the home slice. -/
def Mem.write (m : Mem) (a : Nat) (l : List W8) : Mem := ((m.setBytes a l).heal a l.length).breakSets a l.length

/-- A write of n bytes of a value at the home slice. -/
def Mem.writeNat (m : Mem) (a n v : Nat) : Mem := m.write a (bytesOf n v)

/-- Some sector of a range is poisoned. -/
def Mem.badRange (m : Mem) (a n : Nat) : Bool :=
  m.poison.any fun p => p.2 && decide (32 * p.1 < a + n ∧ a < 32 * p.1 + 32)

/-! ### Caches -/

/-- The lines that a cache has room for: 256 KiB of an L1, 4 MiB of a cluster cache (01 R13, R14). -/
def CacheId.lines : CacheId → Nat
  | .l1 _ => 2048
  | .cc _ => 32768

/-- The lines of one context. -/
def Line.ofCtx (part asid : Nat) (l : Line) : Bool := l.part == part && l.asid == asid

/-- The lines of a cache. -/
def Mem.cache (m : Mem) (id : CacheId) : List Line :=
  match id with
  | .l1 c => Store.get m.l1 [] c
  | .cc c => Store.get m.cc [] c

/-- The state of memory with the lines of a cache replaced. -/
def Mem.setCache (m : Mem) (id : CacheId) (l : List Line) : Mem :=
  match id with
  | .l1 c => { m with l1 := Store.put m.l1 [] c l }
  | .cc c => { m with cc := Store.put m.cc [] c l }

/-- The tag of a line: partition, ASID, virtual line (08 R197). -/
structure LineTag where
  part : Nat
  asid : Nat
  vline : Nat
  deriving DecidableEq, Repr

/-- The tag of a line. -/
def Line.tag (l : Line) : LineTag := ⟨l.part, l.asid, l.vline⟩

/-- The line has the tag. -/
def Line.has (l : Line) (t : LineTag) : Bool := l.part == t.part && l.asid == t.asid && l.vline == t.vline

/-- The line of a cache with a tag. -/
def Mem.line (m : Mem) (id : CacheId) (t : LineTag) : Option Line := (m.cache id).find? (·.has t)

/-- The line of a cache put in place of the one with its tag. -/
def Mem.putLine (m : Mem) (id : CacheId) (l : Line) : Mem :=
  let t : LineTag := ⟨l.part, l.asid, l.vline⟩
  let ls := m.cache id
  if ls.any (·.has t) then m.setCache id (ls.map fun x => if x.has t then l else x) else m.setCache id (ls ++ [l])

/-- The line of a cache with a tag leaves it. -/
def Mem.dropLine (m : Mem) (id : CacheId) (t : LineTag) : Mem := m.setCache id ((m.cache id).filter fun x => !x.has t)

/-- The line of a cache with a tag becomes clean. -/
def Mem.cleanLine (m : Mem) (id : CacheId) (t : LineTag) : Mem :=
  m.setCache id ((m.cache id).map fun x => if x.has t then { x with dirty := 0 } else x)

/-- The mask of n bytes from an offset in a line. -/
def byteMask (off n : Nat) : BitVec 128 := (BitVec.ofNat 128 (2 ^ n - 1)) <<< off

/-- A byte mask as a bit mask. -/
def bitMask (m : BitVec 128) : BitVec 1024 :=
  (List.range 128).foldl (fun acc i => if m.getLsbD i then acc ||| (0xFF#1024 <<< (8 * i)) else acc) 0

/-- Data merged under a byte mask. -/
def mergeData (old new : BitVec 1024) (m : BitVec 128) : BitVec 1024 :=
  let b := bitMask m
  (old &&& ~~~b) ||| (new &&& b)

/-- n bytes of a line from an offset. -/
def Line.read (l : Line) (off n : Nat) : Nat := (l.data.extractLsb' (8 * off) (8 * n)).toNat

/-- The sectors that a range of a line touches. -/
def sectorsOf (off n : Nat) : BitVec 4 :=
  (List.range 4).foldl (fun acc i => if decide (32 * i < off + n ∧ off < 32 * i + 32) then acc ||| (1#4 <<< i) else acc) 0

/-- The sectors that a mask covers whole. -/
def fullSectors (m : BitVec 128) : BitVec 4 :=
  (List.range 4).foldl (fun acc i => if m.extractLsb' (32 * i) 32 == 0xFFFFFFFF#32 then acc ||| (1#4 <<< i) else acc) 0

/-- A new line with no byte valid. -/
def newLine (t : LineTag) (pline made : Nat) : Line := ⟨t.part, t.asid, t.vline, pline, 0, 0, 0, 0, made, false, 0, 0⟩

/-- Bytes stored into a line: valid and dirty; poison of sectors that are now whole clears. -/
def Line.store (l : Line) (m : BitVec 128) (data : BitVec 1024) (stamp : Nat) : Line :=
  let d := l.dirty ||| m
  { l with
    data := mergeData l.data data m
    valid := l.valid ||| m
    dirty := d
    stamp := if l.dirty = 0 then stamp else l.stamp
    poison := l.poison &&& ~~~fullSectors d
    wrote := stamp }

/-- Bytes filled into a line: those not valid yet. -/
def Line.fill (l : Line) (m : BitVec 128) (data : BitVec 1024) (poison : BitVec 4) : Line :=
  let n := m &&& ~~~l.valid
  { l with data := mergeData l.data data n, valid := l.valid ||| n, poison := l.poison ||| poison }

/-- The next order number. -/
def Mem.tick (m : Mem) : Mem := { m with stamp := m.stamp + 1 }

/-- Every line of a physical line is marked aliased (19 R452). -/
def Mem.markShared (m : Mem) (pline : Nat) : Mem :=
  let f (l : Line) : Line := if l.pline == pline then { l with shared := true } else l
  { m with l1 := m.l1.map fun p => (p.1, p.2.map f), cc := m.cc.map fun p => (p.1, p.2.map f) }

/-- A physical line is known under two tags. -/
def Mem.isShared (m : Mem) (pline : Nat) : Bool := decide (2 ≤ (m.fills.filter fun e => e.1 == pline).length)

/-- The line with a tag, or a new one. -/
def Mem.lineOr (m : Mem) (id : CacheId) (t : LineTag) (pline : Nat) : Line :=
  (m.line id t).getD { newLine t pline m.stamp with shared := m.isShared pline }

/-- A line is filled, or allocated by a store, under a tag; under a second one it is aliased in every cache (19 R452; of a store,
notes/assumptions/58.md). -/
def Mem.served (m : Mem) (t : LineTag) (pline : Nat) : Mem :=
  let e := (pline, t.part, t.asid, t.vline)
  if m.fills.contains e then m
  else
    let m1 := { m with fills := m.fills ++ [e] }
    if m1.isShared pline then m1.markShared pline else m1

/-! ### Range locks (08 R229, R230) -/

/-- A byte range of an address space lies under a lock; `dest` asks for destination ranges only. -/
def Mem.locked (m : Mem) (part asid a n : Nat) (destOnly : Bool) : Bool :=
  m.locks.any fun k => k.scratch.isNone && k.part == part && k.asid == asid && (k.dest || !destOnly) &&
    decide (k.lo < a + n ∧ a ≤ k.hi)

/-- A byte range of a group's window lies under a lock. -/
def Mem.lockedScratch (m : Mem) (grp a n : Nat) (destOnly : Bool) : Bool :=
  m.locks.any fun k => k.scratch == some grp && (k.dest || !destOnly) && decide (k.lo < a + n ∧ a ≤ k.hi)

/-! ### Write-backs (08 R219) -/

/-- The bytes of a write-back that another cluster's write-back merged after this cluster's copy was made. -/
def Mem.conflicts (m : Mem) (w : WriteBack) : Nat :=
  ((List.range 128).filter fun i =>
    w.dirty.getLsbD i &&
      (let d := Store.get m.dir (0, 0) (128 * w.pline + i)
       d.1 != 0 && d.1 != w.cluster + 1 && decide (w.made < d.2))).length

/-- A write-back merges at its home slice byte by byte. -/
def Mem.merge (m : Mem) (w : WriteBack) : Mem :=
  let n := m.conflicts w
  let st := m.stamp + 1
  let base := 128 * w.pline
  let ds := (List.range 128).filter fun i => w.dirty.getLsbD i
  let m1 := ds.foldl (fun m i =>
    { m.setByte (base + i) (w.data.extractLsb' (8 * i) 8) with
      dir := Store.put m.dir (0, 0) (base + i) (w.cluster + 1, st) }) m
  let m2 := (List.range 4).foldl (fun m i =>
    let sec := base / 32 + i
    if (fullSectors w.dirty).getLsbD i then { m with poison := Store.put m.poison false sec (w.poison.getLsbD i) }
    else if w.poison.getLsbD i && w.dirty.extractLsb' (32 * i) 32 != 0 then
      { m with poison := Store.put m.poison false sec true }
    else m) m1
  let m3 := ds.foldl (fun m i => m.breakSets (base + i) 1) m2
  { m3 with
    stamp := st
    conflict := Store.put m3.conflict 0 w.part (Store.get m3.conflict 0 w.part + BitVec.ofNat 64 n) }

/-- The bytes of a write-back that the home slice holds: those of sectors under a range lock, of a destination or of a source (08 R229,
R230). -/
def Mem.heldBytes (m : Mem) (w : WriteBack) : BitVec 128 :=
  (List.range 4).foldl (fun acc i =>
    if m.locked w.part w.asid (128 * w.vline + 32 * i) 32 false then acc ||| (w.dirty &&& (0xFFFFFFFF#128 <<< (32 * i))) else acc) 0

/-- The part of a write-back that can merge. -/
def Mem.free (m : Mem) (w : WriteBack) : WriteBack := { w with dirty := w.dirty &&& ~~~m.heldBytes w }

/-- The part of a write-back that stays held, if any does: it keeps its place, so that each byte merges in the order of arrival. -/
def Mem.rest (m : Mem) (w : WriteBack) : Option WriteBack :=
  if m.heldBytes w = 0 then none else some { w with dirty := m.heldBytes w }

/-- A write-back is held in all its bytes. -/
def Mem.holds (m : Mem) (w : WriteBack) : Bool := w.dirty != 0 && (m.free w).dirty == 0

/-- The write-backs under way of a cluster merge in their order, as far as no lock holds their bytes (08 R219, R230). -/
def Mem.drain (m : Mem) (cluster : Nat) : Mem :=
  let q := m.wbq
  let go := q.filter fun w => w.cluster == cluster && !m.holds w
  go.foldl (fun x w => x.merge (m.free w)) { m with wbq := q.filterMap fun w => if w.cluster == cluster then m.rest w else some w }

/-- The oldest write-back of a cluster that no lock holds entirely merges. -/
def Mem.mergeOne (m : Mem) (cluster : Nat) : Mem :=
  match m.wbq.findIdx? fun w => w.cluster == cluster && !m.holds w with
  | none => m
  | some i =>
    match m.wbq[i]? with
    | none => m
    | some w => { m with wbq := m.wbq.take i ++ (m.rest w).toList ++ m.wbq.drop (i + 1) }.merge (m.free w)

/-- A write-back of one of the clusters of some caches, of one context or of any, is held by a lock. -/
def Mem.owes (m : Mem) (clusters : List Nat) (ctx : Option Nat) : Bool :=
  m.wbq.any fun w => clusters.contains w.cluster && ctx.all (· == w.part * 65536 + w.asid) && m.heldBytes w != 0

/-- Write-backs of a partition, or of one of its contexts, are held by range locks (08 R230). -/
def Mem.backsHeld (m : Mem) (part : Nat) (asid : Option Nat) : Bool :=
  m.wbq.any fun w => w.part == part && (asid.isNone || asid == some w.asid)

/-- A dirty line of a cluster cache is sent to its home slice; the line stays clean. -/
def Mem.sendCC (m : Mem) (clu : Nat) (l : Line) : Mem :=
  if l.dirty = 0 then m
  else
    { m.cleanLine (.cc clu) ⟨l.part, l.asid, l.vline⟩ with
      wbq := m.wbq ++ [⟨clu, l.part, l.asid, l.vline, l.pline, l.dirty, l.data, l.made, l.poison⟩] }

/-- The dirty lines of a cache. -/
def Mem.dirtyLines (m : Mem) (id : CacheId) : List Line := (m.cache id).filter fun l => l.dirty != 0

/-- The oldest dirty line of a cache (08 R222). -/
def Mem.oldest (m : Mem) (id : CacheId) : Option Line :=
  (m.dirtyLines id).foldl (fun acc l =>
    match acc with
    | none => some l
    | some x => if l.stamp < x.stamp then some l else some x) none

/-- The line that a full cache gives up for a new one: any of its lines (notes/assumptions/2.md). -/
def Mem.victim (m : Mem) (id : CacheId) (t : LineTag) : Option Line :=
  let ls := m.cache id
  if (m.line id t).isSome || decide (ls.length < id.lines) then none else ls[Config.choice m.stamp % ls.length]?

/-- A cluster cache has room for a line. -/
def Mem.roomCC (m : Mem) (clu : Nat) (t : LineTag) : Mem :=
  match m.victim (.cc clu) t with
  | none => m
  | some l => (m.sendCC clu l).dropLine (.cc clu) l.tag

/-- A store into a cluster cache; at 8,192 dirty lines the oldest is sent first (08 R198, R222). -/
def Mem.storeCC (m : Mem) (clu : Nat) (t : LineTag) (pline : Nat) (mask : BitVec 128) (data : BitVec 1024) (poison : BitVec 4) : Mem :=
  let fresh : Bool := match m.line (.cc clu) t with | some l => l.dirty == 0 | none => true
  let m := if fresh = true ∧ 8192 ≤ (m.dirtyLines (.cc clu)).length then
      (match m.oldest (.cc clu) with | some l => m.sendCC clu l | none => m)
    else m
  let m := ((m.roomCC clu t).served t pline).tick
  let l := m.lineOr (.cc clu) t pline
  m.putLine (.cc clu) (let x := l.store mask data m.stamp; { x with poison := x.poison ||| poison })

/-- A dirty line of an L1 is written back to its cluster cache; the line stays clean. -/
def Mem.backL1 (m : Mem) (core clu : Nat) (l : Line) : Mem :=
  if l.dirty = 0 then m
  else
    let t : LineTag := ⟨l.part, l.asid, l.vline⟩
    (m.cleanLine (.l1 core) t).storeCC clu t l.pline l.dirty l.data
      ((List.range 4).foldl (fun acc i =>
        if l.poison.getLsbD i && (l.dirty.extractLsb' (32 * i) 32 != 0) then acc ||| (1#4 <<< i) else acc) 0)

/-- An L1 has room for a line. -/
def Mem.roomL1 (m : Mem) (core clu : Nat) (t : LineTag) : Mem :=
  match m.victim (.l1 core) t with
  | none => m
  | some l => (m.backL1 core clu l).dropLine (.l1 core) l.tag

/-- A store into an L1; at 512 dirty lines the oldest is written back first (08 R198, R222). -/
def Mem.storeL1 (m : Mem) (core clu : Nat) (t : LineTag) (pline : Nat) (mask : BitVec 128) (data : BitVec 1024) : Mem :=
  let fresh : Bool := match m.line (.l1 core) t with | some l => l.dirty == 0 | none => true
  let m := if fresh = true ∧ 512 ≤ (m.dirtyLines (.l1 core)).length then
      (match m.oldest (.l1 core) with | some l => m.backL1 core clu l | none => m)
    else m
  let m := ((m.roomL1 core clu t).served t pline).tick
  let l := m.lineOr (.l1 core) t pline
  m.putLine (.l1 core) (l.store mask data m.stamp)

/-- The write-back of dirty lines of an L1 to its cluster cache: the lines written back. -/
def Mem.flushL1 (m : Mem) (core clu : Nat) (own : Line → Bool) : Mem × Nat :=
  let ls := (m.dirtyLines (.l1 core)).filter own
  (ls.foldl (fun m l => m.backL1 core clu l) m, ls.length)

/-- The write-back of dirty lines of a cluster cache, merged at the home slices: the lines written back. -/
def Mem.flushCC (m : Mem) (clu : Nat) (own : Line → Bool) : Mem × Nat :=
  let ls := (m.dirtyLines (.cc clu)).filter own
  ((ls.foldl (fun m l => m.sendCC clu l) m).drain clu, ls.length)

/-- The clean lines of a context leave a cache; a dirty line keeps its dirty bytes (08 R215 step 3). -/
def Mem.dropClean (m : Mem) (id : CacheId) (part asid : Nat) : Mem :=
  let ls := m.cache id
  m.setCache id ((ls.filter fun l => !(l.part == part && l.asid == asid && l.dirty == 0)).map fun l =>
    if l.part == part && l.asid == asid then { l with valid := l.dirty } else l)

/-- The core that an L1 number names lies in the cluster 13 * die + (core mod 52) / 4 (19 R454). -/
def cluOfCore (core : Nat) : Nat := 13 * (core / 52) + core % 52 / 4

/-! ### Fills -/

/-- The sectors of a line that an access of n bytes needs, as byte masks. -/
def needMask (off n : Nat) : BitVec 128 :=
  (List.range 4).foldl (fun acc i => if (sectorsOf off n).getLsbD i then acc ||| byteMask (32 * i) 32 else acc) 0

/-- A byte at its home slice as a cluster sees it: its own write-back of the byte, where a lock holds it, comes before home memory (08
R208). -/
def Mem.byteFor (m : Mem) (clu a : Nat) : W8 :=
  match (m.wbq.filter fun w => w.cluster == clu && w.pline == a / 128 && w.dirty.getLsbD (a % 128)).getLast? with
  | some w => w.data.extractLsb' (8 * (a % 128)) 8
  | none => m.byte a

/-- n bytes at their home slice as a cluster sees them. -/
def Mem.readFor (m : Mem) (clu a n : Nat) : Nat :=
  match n with
  | 0 => 0
  | k + 1 => (m.byteFor clu a).toNat + 256 * m.readFor clu (a + 1) k

/-- The sectors of a home line as line data for a cluster. -/
def Mem.homeData (m : Mem) (clu pline : Nat) (secs : BitVec 4) : BitVec 1024 :=
  (List.range 4).foldl (fun acc i =>
    if secs.getLsbD i then acc ||| ((BitVec.ofNat 1024 (m.readFor clu (128 * pline + 32 * i) 32)) <<< (256 * i)) else acc) 0

/-- The poison of the sectors of a home line. -/
def Mem.homePoison (m : Mem) (pline : Nat) (secs : BitVec 4) : BitVec 4 :=
  (List.range 4).foldl (fun acc i => if secs.getLsbD i && m.bad (128 * pline + 32 * i) then acc ||| (1#4 <<< i) else acc) 0

/-- A line holds every byte of an access. -/
def Line.covers (l : Line) (off n : Nat) : Bool := byteMask off n &&& ~~~l.valid == 0

/-- Every write-back that no lock holds merges at its home slice. -/
def Mem.drainAll (m : Mem) : Mem := ((m.wbq.map (·.cluster)).dedup).foldl (fun m c => m.drain c) m

/-- The dirty lines of every L1 and cluster cache that a condition names are written back, L1 first, and merge with what was on its way. -/
def Mem.flushAll (m : Mem) (own : Line → Bool) : Mem :=
  let m1 := m.l1.foldl (fun m p => (m.flushL1 p.1 (cluOfCore p.1) own).1) m
  (m1.cc.foldl (fun m p => (m.flushCC p.1 own).1) m1).drainAll

/-- The lines that a condition names leave every cache. -/
def Mem.without (m : Mem) (gone : Line → Bool) : Mem :=
  let f (p : Nat × List Line) : Nat × List Line := (p.1, p.2.filter fun l => !gone l)
  { m with l1 := (m.l1.map f).filter fun p => !p.2.isEmpty, cc := (m.cc.map f).filter fun p => !p.2.isEmpty }

/-- The lines that a condition names are written back, and leave every cache. -/
def Mem.purgeLines (m : Mem) (hit : Line → Bool) : Mem := (m.flushAll hit).without hit

/-- The dirty bytes of every copy of a physical line merge at the home slice. -/
def Mem.backLine (m : Mem) (pline : Nat) : Mem := m.flushAll (·.pline == pline)

/-- The home slice serves a line under a tag. Where it then becomes aliased, what its other copies hold dirty merges first
(notes/assumptions/58.md). -/
def Mem.serve (m : Mem) (t : LineTag) (pline : Nat) : Mem :=
  let m1 := m.served t pline
  if m1.isShared pline && !m.isShared pline then m1.backLine pline else m1

/-- A cache holds a line with the bytes of an access. -/
def Mem.hit (m : Mem) (id : CacheId) (t : LineTag) (off n : Nat) : Bool := (m.line id t).any (·.covers off n)

/-- The cluster cache holds the sectors of an access: missing ones come from the home slice, after the cluster's own
write-backs of the line have merged. -/
def Mem.fillCC (m : Mem) (clu : Nat) (t : LineTag) (pline off n : Nat) : Mem :=
  if m.hit (.cc clu) t off n then m
  else
    let m := ((((m.drain clu).serve t pline).roomCC clu t)).tick
    let l := m.lineOr (.cc clu) t pline
    let secs := sectorsOf off n
    m.putLine (.cc clu) (l.fill (needMask off n) (m.homeData clu l.pline secs) (m.homePoison l.pline secs))

/-- The L1 holds the sectors of an access: missing ones come from the cluster cache. -/
def Mem.fillL1 (m : Mem) (core clu : Nat) (t : LineTag) (pline off n : Nat) : Mem :=
  if m.hit (.l1 core) t off n then m
  else
    let pl := ((m.line (.l1 core) t).map (·.pline)).getD pline
    let m := ((m.roomL1 core clu t).fillCC clu t pl off n).tick
    match m.line (.cc clu) t with
    | some c => m.putLine (.l1 core) ((m.lineOr (.l1 core) t c.pline).fill (needMask off n &&& c.valid) c.data (c.poison &&& sectorsOf off n))
    | none => m

/-! ### Accesses along a path -/

/-- An agent's path and context: the core and the cluster whose caches it uses (none: the home slice alone). -/
structure Agent where
  part : Nat
  asid : Nat
  path : Option (Nat × Nat)
  deriving DecidableEq, Repr

/-- A place in memory: the address in its space, and the physical byte it names. -/
structure Loc where
  va : Nat
  phys : Nat
  deriving DecidableEq, Repr

/-- The tag of a place for an agent. -/
def Agent.tag (a : Agent) (l : Loc) : LineTag := ⟨a.part, a.asid, l.va / 128⟩

/-- The agent's own dirty bytes of a line below a level are written back to it, so that the level holds its own writes. -/
def Mem.push (m : Mem) (a : Agent) (l : Loc) (lvl : Nat) : Mem :=
  match a.path with
  | none => m
  | some (core, clu) =>
    let t := a.tag l
    let m1 := if 1 ≤ lvl then (match m.line (.l1 core) t with | some x => m.backL1 core clu x | none => m) else m
    if 2 ≤ lvl then
      (match m1.line (.cc clu) t with | some x => m1.sendCC clu x | none => m1).drain clu
    else m1

/-- The agent's own clean copies of a line below a level leave its caches, so that a later plain load cannot return an older
value (08 R208). -/
def Mem.drop (m : Mem) (a : Agent) (l : Loc) (lvl : Nat) : Mem :=
  match a.path with
  | none => m
  | some (core, clu) =>
    let t := a.tag l
    let clean (m : Mem) (id : CacheId) : Mem :=
      match m.line id t with
      | some x => if x.dirty = 0 then m.dropLine id t else m
      | none => m
    let m1 := if 1 ≤ lvl then clean m (.l1 core) else m
    if 2 ≤ lvl then clean m1 (.cc clu) else m1

/-- A read of n bytes at a level: the value, whether a poisoned sector was read, and memory after. -/
def Mem.readAt (m : Mem) (a : Agent) (l : Loc) (n lvl : Nat) : Nat × Bool × Mem :=
  let off := l.va % 128
  let m := m.push a l lvl
  match a.path with
  | none => (m.read l.phys n, m.badRange l.phys n, m)
  | some (core, clu) =>
    let t := a.tag l
    match lvl with
    | 0 =>
      let m := m.fillL1 core clu t (l.phys / 128) off n
      match m.line (.l1 core) t with
      | some x => (x.read off n, x.poison &&& sectorsOf off n != 0, m)
      | none => (0, false, m)
    | 1 =>
      let m := m.fillCC clu t (l.phys / 128) off n
      match m.line (.cc clu) t with
      | some x => (x.read off n, x.poison &&& sectorsOf off n != 0, m.drop a l 1)
      | none => (0, false, m)
    | _ => (m.readFor clu l.phys n, m.badRange l.phys n, m.drop a l 2)

/-- A write of n bytes at a level. -/
def Mem.writeAt (m : Mem) (a : Agent) (l : Loc) (n v lvl : Nat) : Mem :=
  let off := l.va % 128
  let m := m.push a l lvl
  match a.path with
  | none => m.writeNat l.phys n v
  | some (core, clu) =>
    let t := a.tag l
    let mask := byteMask off n
    let data : BitVec 1024 := BitVec.ofNat 1024 (v % 2 ^ (8 * n)) <<< (8 * off)
    match lvl with
    | 0 => m.storeL1 core clu t (l.phys / 128) mask data
    | 1 => (m.storeCC clu t (l.phys / 128) mask data 0).drop a l 1
    | _ => (m.writeNat l.phys n v).drop a l 2

/-! ### Releases and acquires (08 R214 to R218) -/

/-- The wider of two scopes as ranks: 0 grp, 1 core, 2 clu, 3 dev, 4 sys, 5 rem, 6 plain. -/
def scopeRank : Scope → Nat
  | .grp => 0 | .core => 1 | .clu => 2 | .dev => 3 | .sys => 4 | .rem => 5 | .plain => 6

/-- The level at which accesses of a scope rank meet (08 R202); a plain access goes to the first level. -/
def levelOf (rank : Nat) : Nat := if rank ≤ 1 then 0 else if rank = 2 then 1 else if rank ≤ 5 then 2 else 0

/-- FORCED_LINES counts lines written back by acquires (08 R221). -/
def Mem.countForced (m : Mem) (part n : Nat) : Mem :=
  if n = 0 then m
  else { m with forced := Store.put m.forced 0 part (Store.get m.forced 0 part + BitVec.ofNat 64 n) }

/-- Dirty lines of caches go as far as a level; how many. -/
def Mem.flush (m : Mem) (caches : List CacheId) (own : Line → Bool) (lvl : Nat) : Mem × Nat :=
  caches.foldl (fun (acc : Mem × Nat) id =>
    match id with
    | .l1 c =>
      if 1 ≤ lvl then
        let x := acc.1.flushL1 c (cluOfCore c) own
        (x.1, acc.2 + x.2)
      else acc
    | .cc c =>
      if 2 ≤ lvl then
        let x := acc.1.flushCC c own
        (x.1, acc.2 + x.2)
      else acc) (m, 0)

/-- Step 1 of R215 for the caches a record names: dirty lines of the context go as far as the acquire's level. -/
def Mem.force (m : Mem) (caches : List CacheId) (ctx lvl : Nat) : Mem :=
  let r := m.flush caches (Line.ofCtx (ctx / 65536) (ctx % 65536)) lvl
  r.1.countForced (ctx / 65536) r.2

/-- Step 3 of R215: the clean lines of the agent's context leave its own path below a level. -/
def Mem.refresh (m : Mem) (a : Agent) (lvl : Nat) : Mem :=
  match a.path with
  | none => m
  | some (core, clu) =>
    let m1 := if 1 ≤ lvl then m.dropClean (.l1 core) a.part a.asid else m
    if 2 ≤ lvl then m1.dropClean (.cc clu) a.part a.asid else m1

/-- A record's location has a byte of a range. -/
def RelRec.touches (r : RelRec) (phys n : Nat) : Bool := decide (r.addr < phys + n ∧ phys < r.addr + r.size)

/-- The records that a read of a location can return: of the agent's cluster and of the home slice. -/
def Mem.records (m : Mem) (a : Agent) (phys n : Nat) : List RelRec :=
  m.rel.filter fun r => r.touches phys n && r.core.isNone && (r.clu.isNone || r.clu == a.path.map Prod.snd)

/-- An acquire of a location at a level (08 R215 steps 1 and 3). -/
def Mem.acquire (m : Mem) (a : Agent) (phys n lvl : Nat) : Mem :=
  ((m.records a phys n).foldl (fun m r => m.force r.caches r.ctx lvl) m).refresh a lvl

/-- The cluster whose cache a cache is, or goes through. -/
def CacheId.cluster : CacheId → Nat
  | .l1 c => cluOfCore c
  | .cc c => c

/-- Step 2 of R215: a write-back that an acquire through some records has forced to the home slices has not merged, since a lock holds it. -/
def Mem.waits (m : Mem) (rs : List RelRec) (lvl : Nat) : Bool :=
  decide (2 ≤ lvl) && rs.any fun r => m.owes (r.caches.map CacheId.cluster) (some r.ctx)

/-- Some byte of a location is dirty in a line. -/
def Line.dirtyAt (l : Line) (phys n : Nat) : Bool :=
  l.pline == phys / 128 && (l.dirty &&& byteMask (phys % 128) n != 0)

/-- The cache is an L1. -/
def CacheId.isL1 : CacheId → Bool
  | .l1 _ => true
  | .cc _ => false

/-- The caches that a remote-scope promotion finds: those that hold the location dirty or that a record of it stands in or names, and the
cluster caches above them (08 R218 step 1). -/
def Mem.holders (m : Mem) (phys n : Nat) : List CacheId :=
  let l1s := (m.l1.filter fun p => p.2.any (·.dirtyAt phys n)).map fun p => CacheId.l1 p.1
  let ccs := (m.cc.filter fun p => p.2.any (·.dirtyAt phys n)).map fun p => CacheId.cc p.1
  let named := (m.rel.filter (·.touches phys n)).flatMap fun r => r.caches ++ r.clu.toList.map CacheId.cc
  let l1all := (l1s ++ named.filter CacheId.isL1).dedup
  l1all ++ (ccs ++ (named.filter fun c => !c.isL1) ++ l1all.map fun c => CacheId.cc c.cluster).dedup

/-- Remote-scope promotion (08 R218 steps 1 and 2): every dirty line of the caches found is written back to the home slices. -/
def Mem.promote (m : Mem) (a : Agent) (phys n : Nat) : Mem :=
  let r := m.flush (m.holders phys n) (fun _ => true) 2
  r.1.countForced a.part r.2

/-- Where a level's records stand for an agent: the core of its L1, its cluster, or neither. -/
def Agent.meet (a : Agent) (lvl : Nat) : Option Nat × Option Nat :=
  (if lvl = 0 then a.path.map Prod.fst else none, if lvl = 1 then a.path.map Prod.snd else none)

/-- The caches that a release at a rank names (08 R214). One at .grp or .core names its L1 for .rem acquires alone
(notes/assumptions/52.md). -/
def Agent.named (a : Agent) (rank : Nat) : List CacheId :=
  match a.path with
  | none => []
  | some (core, c) => if rank ≤ 2 then [.l1 core] else if rank = 3 then [.l1 core, .cc c] else []

/-- The records at a release's meeting point that a read-modify-write with release replaces: their releases' sequences go on with it, so their
caches are written back first, unless the new record names them as well (08 R206, R214; notes/assumptions/52.md). -/
def Mem.replaced (m : Mem) (a : Agent) (phys n lvl rank : Nat) : List RelRec :=
  m.rel.filter fun r => (r.core, r.clu) == a.meet lvl && r.touches phys n &&
    !(r.ctx == ctxKey a.part a.asid && r.caches.all (a.named rank).contains)

/-- What the meeting point keeps after a write of a location (08 R206, R214, R218): a release attaches its record, which replaces those
before it; a read-modify-write or reduction without release continues the sequence of the release before it, whose record stays; any other
write ends it. -/
def Mem.noteWrite (m : Mem) (a : Agent) (phys n lvl : Nat) (rel : Option Nat) (rmw : Bool) : Mem :=
  let gone (r : RelRec) : Bool := (r.core, r.clu) == a.meet lvl && decide (phys ≤ r.addr ∧ r.addr + r.size ≤ phys + n)
  match rel with
  | some rank =>
    let m1 := if rmw then
        (m.replaced a phys n lvl rank).foldl (fun m r => (m.flush r.caches (Line.ofCtx (r.ctx / 65536) (r.ctx % 65536)) lvl).1) m
      else m
    let kept := m1.rel.filter fun r => !gone r
    if (a.named rank).isEmpty then { m1 with rel := kept }
    else { m1 with rel := kept ++ [⟨(a.meet lvl).1, (a.meet lvl).2, phys, n, ctxKey a.part a.asid, a.named rank⟩] }
  | none => if rmw then m else { m with rel := m.rel.filter fun r => !gone r }

/-- Before a release at .sys every dirty line of its caches is written back to the home slices (08 R216). -/
def Mem.sysRelease (m : Mem) (a : Agent) : Mem :=
  match a.path with
  | none => m
  | some (core, clu) => ((m.flushL1 core clu fun _ => true).1.flushCC clu fun _ => true).1

/-- A release record attached to an 8-byte location by a publication of the device (08 R500). -/
def Mem.publish (m : Mem) (a : Agent) (phys : Nat) : Mem := m.noteWrite a phys 8 2 (some 3) false

/-- The records of the home slice at a location. -/
def Mem.homeRecords (m : Mem) (phys n : Nat) : List RelRec := m.rel.filter fun r => r.touches phys n && r.core.isNone

/-- Step 1 of R215 for a control core's read of n bytes (08 R217). -/
def Mem.coreRead (m : Mem) (phys n : Nat) : Mem := (m.homeRecords phys n).foldl (fun m r => m.force r.caches r.ctx 2) m

/-- Every dirty line of a context in every cache is written back to the home slices, L1 first (08 R224). -/
def Mem.flushCtx (m : Mem) (part asid : Nat) : Mem := m.flushAll (Line.ofCtx part asid)

/-- Every line of a context leaves every cache, and so do its cached translations (17 R424 step 2). -/
def Mem.invalidate (m : Mem) (part : Nat) (asid : Option Nat) : Mem :=
  let gone (p a : Nat) : Bool := p == part && (asid.isNone || asid == some a)
  { m.without fun l => gone l.part l.asid with tlb := m.tlb.filter fun t => !gone t.part t.asid }

/-- The aliased lines of an agent's context in its own caches are written back, and the clean ones leave (19 R452). -/
def Mem.fenceShared (m : Mem) (a : Agent) : Mem :=
  match a.path with
  | none => m
  | some (core, clu) =>
    let own (l : Line) : Bool := l.shared && l.part == a.part && l.asid == a.asid
    let m1 := ((m.dirtyLines (.l1 core)).filter own).foldl (fun m l => m.backL1 core clu l) m
    let m2 := (((m1.dirtyLines (.cc clu)).filter own).foldl (fun m l => m.sendCC clu l) m1).drain clu
    let f (m : Mem) (id : CacheId) : Mem := m.setCache id ((m.cache id).filter fun l => !(own l && l.dirty == 0))
    f (f m2 (.l1 core)) (.cc clu)

/-- Every copy of a physical range leaves every cache after its dirty bytes have merged (08 R229, 20 R464). -/
def Mem.purge (m : Mem) (lo n : Nat) : Mem :=
  m.purgeLines fun l => decide (128 * l.pline < lo + n ∧ lo < 128 * l.pline + 128)

end Sys2Proof.Machine
end

