-- ==== Sys2Proof/Machine/Translate.lean ====
section
/-!
DEFINITION. Address translation, its second stage, and the firewall (spec/19_translation_places.md R441 to R450;
spec/20_partitions_security.md R463, R464, R471; 21 R485).
-/

namespace Sys2Proof.Machine

/-! ### The firewall -/

/-- The first physical address beyond device memory (20 R463). -/
def deviceTop : Nat := 0x6000000000
/-- Host memory begins here among the model's physical addresses. -/
def hostBase : Nat := 2 ^ 60
/-- Memory of peer module n begins here plus n * 2^52. -/
def peerBase : Nat := 2 ^ 61

/-- The firewall entry of the granule of a device address (20 R463). -/
def State.granule (s : State) (a : Nat) : W16 := Store.get s.part.fw 0 (a / 0x200000)

/-- An entry's fields. -/
def fwValid (e : W16) : Bool := e.getLsbD 15
/-- PROT -/
def fwProt (e : W16) : Bool := e.getLsbD 14
/-- PART -/
def fwPart (e : W16) : Nat := (e.extractLsb' 8 6).toNat
/-- CMASK -/
def fwCmask (e : W16) : BitVec 4 := e.extractLsb' 4 4
/-- SCRUB -/
def fwScrub (e : W16) : Bool := e.getLsbD 3

/-- The firewall passes an agent of a partition, protected in a compartment or not (20 R464), to no quarantined granule (R481); memory that is not the device's
has no granule. -/
def State.fwPass (s : State) (part : Nat) (comp : Option Nat) (a : Nat) : Bool :=
  if hostBase ≤ a then true
  else if deviceTop ≤ a then false
  else
    let e := s.granule a
    fwValid e && fwPart e == part && !fwScrub e && (!fwProt e || comp.any fun c => (fwCmask e).getLsbD c)

/-- The compartment of a protected context. -/
def Ctx.compartment (c : Ctx) : Option Nat := if c.prot then some c.comp else none

/-- The page-table walker of a context may read a table there (20 R464, R471). -/
def State.walkPass (s : State) (c : Ctx) (a : Nat) : Bool :=
  if deviceTop ≤ a then false
  else
    let e := s.granule a
    fwValid e && fwPart e == c.part && !fwScrub e && (if c.prot then fwProt e && fwCmask e == 0 else !fwProt e)

/-- Memory outside the device is reachable: the host link is up, the peer's entry valid and its path up (21 R484, R485). -/
def State.reachable (s : State) (part a : Nat) : Bool :=
  if a < hostBase then true
  else if a < peerBase then s.host.hostUp
  else
    let n := (a - peerBase) / 2 ^ 52
    (Store.get s.part.peers 0 (64 * part + n)).getLsbD 63 && !s.host.peersDown.getLsbD n

/-! ### Page-table entries (19 R443, R444) -/

/-- TYPE -/
def pteType (e : W64) : Nat := (e.extractLsb' 0 2).toNat
/-- The address in bits [51:12]. -/
def ptePpn (e : W64) : Nat := (e.extractLsb' 12 40).toNat * 4096
/-- C64 -/
def pteC64 (e : W64) : Bool := e.getLsbD 5
/-- The bits of an address below a leaf's page at a level. -/
def pageBits (level : Nat) : Nat := 12 + 9 * level

/-- The entry makes a walk fail at its level (19 R444). -/
def pteBad (level : Nat) (e : W64) : Bool :=
  let rz := e.extractLsb' 62 2 != 0 || e.extractLsb' 58 2 != 0 || e.extractLsb' 6 3 != 0
  match pteType e with
  | 1 => rz || e.extractLsb' 52 10 != 0 || e.extractLsb' 2 10 != 0 || level == 0
  | 2 =>
    rz || decide (3 ≤ level) || ptePpn e % 2 ^ pageBits level != 0 || (e.getLsbD 3 && !e.getLsbD 2) ||
      e.extractLsb' 9 2 == 3 || (e.extractLsb' 52 6 != 0 && e.extractLsb' 9 2 != 2) || (pteC64 e && level != 0)
  | _ => true

/-- Why a walk fails: in its own stage, or in stage 2 at a guest-physical address. -/
inductive WalkFail where
  | own
  | stage2 (gpa : Nat) (perm : Bool)
  deriving DecidableEq, Repr

/-- A leaf found: the entry and the address it gives. -/
structure Leaf where
  e : W64
  addr : Nat
  deriving DecidableEq, Repr

/-- The address that entry k of a 64 KiB group gives for an address in it. -/
def leaf64 (k va : Nat) (e : W64) : Option Leaf :=
  if pteType e != 2 || pteBad 0 e then none
  else some ⟨e, ptePpn e - 4096 * k + va % 65536⟩

/-- The 16 entries agree as R444 asks: the same fields, each with C64 and its own position. -/
def agree64 (es : List W64) : Bool :=
  match es with
  | [] => true
  | e0 :: _ => (es.zipIdx).all fun p => p.1 == e0 + BitVec.ofNat 64 (4096 * p.2)

/-- A leaf of a 64 KiB page: the 16 entries of its group; where they differ, the translation is one of those they give
(19 R444), chosen on occasion n. -/
def group64 (n va : Nat) (rd : Nat → Except WalkFail W64) (slot : Nat) (e : W64) : Except WalkFail Leaf := do
  let base := slot - slot % 128
  let es ← (List.range 16).mapM fun k => rd (base + 8 * k)
  let e0 := es.headD 0
  if ptePpn e0 % 65536 != 0 then .error .own
  else
    let k := if agree64 es then slot % 128 / 8 else Config.choice n % 16
    match leaf64 k va ((es[k]?).getD e) with
    | some l => .ok l
    | none => .error .own

/-- A walk of the levels below n from a table's base (19 R441). -/
def walk (n : Nat) (occ va base : Nat) (rd : Nat → Except WalkFail W64) : Except WalkFail Leaf :=
  match n with
  | 0 => .error .own
  | level + 1 => do
    let slot := base + 8 * (va / 2 ^ pageBits level % 512)
    let e ← rd slot
    if pteBad level e then .error .own
    else if pteType e = 1 then walk level occ va (ptePpn e) rd
    else if pteC64 e then group64 occ va rd slot e
    else .ok ⟨e, ptePpn e + va % 2 ^ pageBits level⟩

/-- The VF descriptor that covers a context, the lowest-numbered (19 R448). -/
def State.vfOf (s : State) (part asid : Nat) : Option (BitVec 256) :=
  (s.part.vf.find? fun p =>
    p.2.getLsbD 83 && (p.2.extractLsb' 90 6).toNat == part && decide ((p.2.extractLsb' 96 16).toNat ≤ asid) &&
      decide (asid ≤ (p.2.extractLsb' 112 16).toNat)).map Prod.snd

/-- A table entry read at its home slice; a table the walker may not read fails the walk (19 R447, 20 R464). -/
def State.readPte (s : State) (c : Ctx) (a : Nat) : Except WalkFail W64 :=
  if s.walkPass c a then .ok (BitVec.ofNat 64 (s.mem.read a 8)) else .error .own

/-- A stage-2 walk of a guest-physical address (19 R449). -/
def State.walk2 (s : State) (c : Ctx) (d : BitVec 256) (gpa : Nat) : Except WalkFail Leaf :=
  if 2 ^ 52 ≤ gpa then .error (.stage2 gpa false)
  else
    match walk 5 s.draws gpa ((d.extractLsb' 12 40).toNat * 4096) (s.readPte c) with
    | .ok l => .ok l
    | .error _ => .error (.stage2 gpa false)

/-- The bits of an address below its page, as a walk finds it; those of a 4 KiB page where there is no leaf (19 R441, R444). -/
def walkBits (n va base : Nat) (rd : Nat → Except WalkFail W64) : Nat :=
  match n with
  | 0 => 12
  | level + 1 =>
    match rd (base + 8 * (va / 2 ^ pageBits level % 512)) with
    | .error _ => 12
    | .ok e =>
      if pteBad level e then 12
      else if pteType e = 1 then walkBits level va (ptePpn e) rd
      else if pteC64 e then 16
      else pageBits level

/-- A stage-1 table entry read through stage 2. -/
def State.readPte2 (s : State) (c : Ctx) (d : BitVec 256) (gpa : Nat) : Except WalkFail W64 := do
  let l ← s.walk2 c d gpa
  if l.e.getLsbD 2 then s.readPte c l.addr else .error (.stage2 gpa true)

/-- The model's physical address of a leaf's target (19 R443). -/
def targetAddr (e : W64) (addr : Nat) : Nat :=
  match (e.extractLsb' 9 2).toNat with
  | 0 => addr
  | 1 => hostBase + addr
  | _ => peerBase + (e.extractLsb' 52 6).toNat * 2 ^ 52 + addr

/-- A protected context's leaf is refused (20 R471): PROT set with another compartment, or a granule that lacks it. -/
def State.leafRefused (s : State) (c : Ctx) (e : W64) (addr : Nat) : Bool :=
  c.prot && e.getLsbD 11 &&
    ((e.extractLsb' 60 2).toNat != c.comp || !(fwCmask (s.granule addr)).getLsbD c.comp)

/-- A translation: physical address and permissions. -/
structure Xlat where
  phys : Nat
  r : Bool
  w : Bool
  x : Bool
  deriving DecidableEq, Repr

/-- The permissions of a leaf over an address. -/
def leafXlat (e : W64) (addr : Nat) : Xlat := ⟨addr, e.getLsbD 2, e.getLsbD 3, e.getLsbD 4⟩

/-- What an access needs. -/
structure Need where
  r : Bool
  w : Bool
  x : Bool
  deriving DecidableEq, Repr

/-- The permissions suffice (19 R445). -/
def Xlat.gives (t : Xlat) (n : Need) : Bool := (!n.r || t.r) && (!n.w || t.w) && (!n.x || t.x)

/-- A full walk of a virtual address in one or two stages, for an access of a given need: a permission that stage 1 gives and stage 2 lacks is
a stage-2 fault (19 R441, R442, R449). -/
def State.fullWalk (s : State) (c : Ctx) (va : Nat) (n : Need) : Except WalkFail Xlat :=
  if c.ptroot.extractLsb' 52 12 != 0 || c.ptroot.extractLsb' 0 12 != 0 then .error .own
  else
    let root := (c.ptroot.extractLsb' 12 40).toNat * 4096
    match s.vfOf c.part c.asid with
    | none => do
      let l ← walk 5 s.draws va root (s.readPte c)
      if s.leafRefused c l.e l.addr then .error .own else .ok (leafXlat l.e (targetAddr l.e l.addr))
    | some d => do
      let l ← walk 5 s.draws va root (s.readPte2 c d)
      let k ← s.walk2 c d l.addr
      if s.leafRefused c k.e k.addr then .error .own
      else if (leafXlat l.e 0).gives n && !(leafXlat k.e 0).gives n then .error (.stage2 l.addr true)
      else
        .ok ⟨targetAddr k.e k.addr, l.e.getLsbD 2 && k.e.getLsbD 2, l.e.getLsbD 3 && k.e.getLsbD 3,
          l.e.getLsbD 4 && k.e.getLsbD 4⟩

/-! ### Accesses -/

/-- Why an access fails: the cause, the kind of fault record where the fault server comes first (17 R411, R419), the address
the record names, and the mailbox of a stage-2 fault (19 R449). -/
structure AccFault where
  cause : Cause
  kind : Option Nat
  addr : W64
  stage2 : Option Nat
  deriving DecidableEq, Repr

/-- The fault of a failed walk. -/
def State.walkFault (s : State) (c : Ctx) (va : Nat) (f : WalkFail) : AccFault :=
  match f with
  | .own => ⟨.addrFault, some 1, BitVec.ofNat 64 va, none⟩
  | .stage2 gpa perm =>
    ⟨if perm then .accessPerm else .addrFault, some (if perm then 2 else 1), BitVec.ofNat 64 gpa,
      (s.vfOf c.part c.asid).map fun d => (d.extractLsb' 84 6).toNat⟩

/-- The bits of a faulting address below its page (17 R420): of its virtual page, or of its guest-physical page in stage 2. -/
def State.faultBits (s : State) (c : Ctx) (f : AccFault) : Nat :=
  let root := (c.ptroot.extractLsb' 12 40).toNat * 4096
  match s.vfOf c.part c.asid with
  | none => walkBits 5 (f.addr.toNat % 2 ^ 57) root (s.readPte c)
  | some d =>
    if f.stage2.isSome then walkBits 5 f.addr.toNat ((d.extractLsb' 12 40).toNat * 4096) (s.readPte c)
    else walkBits 5 (f.addr.toNat % 2 ^ 57) root (s.readPte2 c d)

/-- A cached translation of a page. -/
def Mem.cached (m : Mem) (part asid vpage : Nat) : Option Xlat :=
  (m.tlb.find? fun t => t.part == part && t.asid == asid && t.vpage == vpage).map fun t => ⟨t.phys, t.r, t.w, t.x⟩

/-- A translation enters the caches of a die. -/
def Mem.cacheXlat (m : Mem) (part asid vpage : Nat) (t : Xlat) : Mem :=
  { m with
    tlb := (m.tlb.filter fun e => !(e.part == part && e.asid == asid && e.vpage == vpage)) ++
      [⟨part, asid, vpage, t.phys, t.r, t.w, t.x⟩] }

/-- The translation of a canonical virtual address (57 bits) for a need: from the cached translations, and before a fault is
posted by one more walk without them (19 R450). -/
def State.translate (s : State) (c : Ctx) (va : Nat) (n : Need) : Except AccFault (Nat × State) :=
  let v := va % 2 ^ 57
  match (s.mem.cached c.part c.asid (v / 4096)).filter (·.gives n) with
  | some t => .ok (t.phys + v % 4096, s)
  | none =>
    match s.fullWalk c v n with
    | .error f => .error (s.walkFault c va f)
    | .ok t =>
      if t.gives n then
        .ok (t.phys, { s with mem := s.mem.cacheXlat c.part c.asid (v / 4096) { t with phys := t.phys - v % 4096 } })
      else .error ⟨.accessPerm, some 2, BitVec.ofNat 64 va, none⟩

/-- The fault of a translated address that the firewall does not pass or that cannot be reached (20 R464, 21 R485). -/
def State.barred (s : State) (c : Ctx) (va phys : Nat) : Option AccFault :=
  if !s.reachable c.part phys then some ⟨.addrFault, some 1, BitVec.ofNat 64 va, none⟩
  else if !s.fwPass c.part c.compartment phys then some ⟨.accessPerm, some 2, BitVec.ofNat 64 va, none⟩
  else none

/-- A global address is canonical (08 R194). -/
def canonical (va : W64) : Bool := va.extractLsb' 57 7 == (if va.getLsbD 56 then 0x7F#7 else 0#7)

/-- The physical line that a cache on the agent's path holds for an address, at a level or above it. -/
def Mem.onPath (m : Mem) (a : Agent) (va lvl : Nat) : Option Nat :=
  match a.path with
  | none => none
  | some (core, clu) =>
    let t : LineTag := ⟨a.part, a.asid, va / 128⟩
    match if lvl = 0 then m.line (.l1 core) t else none with
    | some l => some l.pline
    | none => if lvl = 2 then none else (m.line (.cc clu) t).map (·.pline)

/-- A read of the bytes of an access at a level is served below the home slices. -/
def Mem.holdsBytes (m : Mem) (a : Agent) (va n lvl : Nat) : Bool :=
  match a.path with
  | none => false
  | some (core, clu) =>
    let t : LineTag := ⟨a.part, a.asid, va / 128⟩
    let own : BitVec 128 := if lvl = 0 then 0 else ((m.line (.l1 core) t).map (·.dirty)).getD 0
    (lvl == 0 && m.hit (.l1 core) t (va % 128) n) ||
      (m.line (.cc clu) t).any fun l => byteMask (va % 128) n &&& ~~~(l.valid ||| own) == 0

/-- The place of a global access at a level (09 R233 steps 1 to 5): canonical form, alignment, translation and permission where
the access misses its caches or goes to the home slice (08 R198, R199; 19 R445), the firewall, range locks (08 R230). DESIGN CHOICE: an
atomic that reaches a locked source range traps as the store in it does (notes/assumptions/67.md). -/
def State.globalLoc (s : State) (a : Agent) (va : W64) (size lvl : Nat) (n : Need) : Except AccFault (Loc × State) :=
  if !canonical va then .error ⟨.addrFault, none, va, none⟩
  else if va.toNat % size != 0 then .error ⟨.misalignedAccess, none, va, none⟩
  else
    let c := s.ctx (ctxKey a.part a.asid)
    let v := va.toNat
    let lockFault : Bool :=
      if lvl = 2 then s.mem.locked a.part a.asid v size (!n.w)
      else n.r && !s.mem.holdsBytes a v size lvl && s.mem.locked a.part a.asid v size true
    let close (p : Nat) (s : State) : Except AccFault (Loc × State) :=
      if lockFault then .error ⟨.rangeLocked, none, va, none⟩ else .ok (⟨v, p⟩, s)
    match s.mem.onPath a v lvl with
    | some pl =>
      let p := 128 * pl + v % 128
      if n.r && !s.mem.holdsBytes a v size lvl then
        match s.barred c v p with
        | some f => .error f
        | none => close p s
      else close p s
    | none =>
      match s.translate c v n with
      | .error f => .error f
      | .ok (p, s) =>
        match s.barred c v p with
        | some f => .error f
        | none => close p s

end Sys2Proof.Machine
end

