-- ==== Sys2Proof/Machine/Checks.lean ====
section
/-!
DEFINITION. What an issue checks before its instruction takes effect: the decode-level traps that the stream, the level, the
kernel and the context decide (04 R113 to R116), HAZARD in checked mode (04 R111), and the readiness of queue sources (03 R69,
R72, R80).
-/

namespace Sys2Proof.Machine

/-! ### Decode-level traps -/

/-- The opcode of an encoded form; 0x3FF, which no form has, for a pair word and for the steps without encoding. -/
def opcOf (i : Instr) : Nat := match rawOf i with | some (_, r) => r.opc.toNat | none => 0x3FF

/-- The maskable feature an opcode belongs to (04 R116). -/
def featureOf (c : Nat) : Option Nat :=
  if 0x380 ≤ c ∧ c ≤ 0x38A then some 0
  else if 0x3A0 ≤ c ∧ c ≤ 0x3A4 then some 1
  else if 0x3C0 ≤ c ∧ c ≤ 0x3C5 then some 2
  else if 0x330 ≤ c ∧ c ≤ 0x334 then some 3
  else none

/-- The forms that all three streams execute (04 R118). -/
def inAllStreams (c : Nat) : Bool :=
  decide (c ≤ 0x01C) || c == 0x117 ||
    [0x200, 0x202, 0x203, 0x204, 0x205, 0x207, 0x20C, 0x210, 0x211, 0x212, 0x218, 0x2D0].contains c

/-- The forms of the A-stream alone (04 R118). -/
def onlyA (c : Nat) : Bool := c == 0x308 || decide (0x310 ≤ c ∧ c ≤ 0x325)

/-- The forms of the M-stream alone (04 R118). -/
def onlyM (c : Nat) : Bool := c == 0x380 || c == 0x381 || decide (0x384 ≤ c ∧ c ≤ 0x38A)

/-- The stream may execute the opcode (04 R118). -/
def streamMay (st : Strm) (c : Nat) : Bool :=
  match st with
  | .e => inAllStreams c || !(onlyA c || onlyM c)
  | .a => inAllStreams c || onlyA c
  | .m => inAllStreams c || onlyM c

/-- SVCLEVEL.LEVEL (21 R488). -/
def State.svcLevel (s : State) : Nat := (s.host.level.extractLsb' 0 4).toNat

/-- A feature is masked: by the context's FMASK, or at the reduced service level (04 R116, 21 R490). -/
def State.masked (s : State) (n : Nat) : Bool :=
  (s.gctx s.cur.grp).fmask.getLsbD n || (s.svcLevel == 2 && decide (n ≤ 2))

/-- The E-stream of the issuing warp is at level H. -/
def State.levelH (s : State) : Bool := s.cur.strm = .e && s.curWarp.level

/-- A decode-level trap of the issuing slot, with its sub-cause, feature number and lanes (04 R115). -/
def State.decodeTrap (s : State) (c : Cause) (sub feature : Nat) (m : Lanes) : Trap :=
  s.mkTrap c m (BitVec.ofNat 64 (sub + 256 * feature + 65536 * slotOf s.cur.pc)) s.cur.word s.cur.ctl 0

/-- The decode-level traps that an opcode decides together with stream, level and kernel, in the order of 04 R114. -/
def State.codeTrap (s : State) (c : Nat) : Option Trap :=
  let m := s.cur.lanes
  match (featureOf c).filter s.masked with
  | some n => some (s.decodeTrap .featureMasked 0 n m)
  | none =>
    if (0x278 ≤ c ∧ c ≤ 0x27B) ∧ ¬ s.levelH then some (s.decodeTrap .privileged 0 0 m)
    else if c = 0x27A ∧ ¬ (s.gctx s.cur.grp).sys then some (s.decodeTrap .privileged 1 0 m)
    else if ¬ streamMay s.cur.strm c then some (s.decodeTrap .illegalOpcode 1 0 m)
    else if (c = 0x20B ∨ c = 0x18A) ∧ s.levelH then some (s.decodeTrap .illegalOpcode 3 0 m)
    else if (0x186 ≤ c ∧ c ≤ 0x189) ∧ ¬ s.curGroup.kernel.quadlock then some (s.decodeTrap .quadIllegal 0 0 m)
    else none

/-- How many registers an operand field names (04 R86, 09 R239, 11 R303, 12 R349). -/
def slotSpan : Slot → Nat
  | .src w _ => if w then 2 else 1
  | .dst w => if w then 2 else 1
  | .cas k => k
  | .vrun n _ => n
  | .desc => 2
  | .sreg64 => 2
  | .none | .raw | .dstAny | .queue | .backq | .matrix => 1

/-- An operand field is a destination. -/
def slotIsDst : Slot → Bool
  | .dst _ => true
  | .dstAny => true
  | _ => false

/-- Queue n is declared (13 R354: byte n of QUEUES). -/
def Kernel.hasQueue (k : Kernel) (n : Nat) : Bool := k.queues.getLsbD (8 * n + 7)
/-- Queue n has 64-bit elements. -/
def Kernel.queueWide (k : Kernel) (n : Nat) : Bool := k.queues.getLsbD (8 * n + 6)
/-- The depth of queue n. -/
def Kernel.queueDepth (k : Kernel) (n : Nat) : Nat := (k.queues.extractLsb' (8 * n) 4).toNat + 1

/-- A special operand that the A- and M-streams do not read (04 R92). -/
def specialOfLane : Special → Bool
  | .lane | .tidX | .tidY | .tidZ | .wid | .quad | .qlane => true
  | .gidX | .gidY | .gidZ | .nwarp | .width | .core | .clu | .taskid | .cycleLo | .cycleHi => false

/-- How many registers a field of a form names where it issues: the queue's width decides for `qpop` and `qpeek` (09 R246). -/
def State.span (s : State) (f : Full) (sl : Slot) : Nat :=
  match sl, f.a with
  | .dstAny, .q n => if s.curGroup.kernel.queueWide n.val then 2 else 1
  | sl, _ => slotSpan sl

/-- The stream and the kernel allow an operand in a field (02 R29; 03 R61, R65; 04 R90, R92). -/
def State.operandOk (s : State) (f : Full) (sl : Slot) (x : Operand) : Bool :=
  let e := decide (s.cur.strm = .e)
  let k := s.curGroup.kernel
  match x with
  | .v n => e && decide (n.val + s.span f sl ≤ k.regs)
  | .o _ => e
  | .h _ => e
  | .g _ => !slotIsDst sl || decide (s.cur.strm = .a)
  | .q n =>
    k.hasQueue n.val && (match sl with | .queue => true | .src w _ => e && k.queueWide n.val == w | _ => false)
  | .sp y => e || !specialOfLane y
  | .s _ | .k _ | .qb | .litLo | .litHi | .lit64 | .null => true

/-- The four fields of a form with their operands. -/
def fieldsOf (f : Full) (sh : Shape) : List (Slot × Operand) := [(sh.a, f.a), (sh.b, f.b), (sh.c, f.c), (sh.d, f.d)]

/-- Every operand is admitted where the form issues. -/
def State.operandsOk (s : State) (i : Instr) (f : Full) : Bool :=
  (fieldsOf f (shapeOf i)).all fun p => s.operandOk f p.1 p.2

/-- No slot after the issuing one holds anything but the literal word of the form (04 R117, 07 R184). -/
def State.lastSlot (s : State) : Bool :=
  let n := slotOf s.cur.pc
  [1, 2, 3].all fun k =>
    decide (k ≤ n) || ctlKind s.cur.ctl k == .empty || (k == n + 1 && ctlKind s.cur.ctl k == .literal)

/-- The destination of `qpop` or `qpeek` is even where the queue has 64-bit elements (09 R246). -/
def State.popDstOk (s : State) (f : Full) : Bool :=
  match f.a with
  | .q n => !s.curGroup.kernel.queueWide n.val || (Slot.dst true).ok f.d
  | _ => true

/-- The queue of an `aload` has the width of its access, and the warp its selector names exists (09 R253). -/
def State.aloadFits (s : State) (f : Full) (acc : BitVec 3) (sel : BitVec 10) : Bool :=
  (match f.d with
   | .q n => s.curGroup.kernel.queueWide n.val == (acc == 3)
   | _ => true) &&
  (sel.extractLsb' 8 2 != 0 || decide ((sel.extractLsb' 0 8).toNat < s.curGroup.nwarp))

/-- A register pair or LIT64. -/
def isPairSrc : Operand → Bool
  | .v _ | .o _ | .h _ | .s _ | .g _ | .lit64 => true
  | .k _ | .q _ | .qb | .sp _ | .litLo | .litHi | .null => false

/-- A pair of s or g registers, or LIT64. -/
def isUniformPair : Operand → Bool
  | .s _ | .g _ | .lit64 => true
  | .v _ | .o _ | .h _ | .k _ | .q _ | .qb | .sp _ | .litLo | .litHi | .null => false

/-- An s or g register, an inline constant or a literal code. -/
def isUniform : Operand → Bool
  | .s _ | .g _ | .k _ | .litLo | .litHi | .lit64 => true
  | .v _ | .o _ | .h _ | .q _ | .qb | .sp _ | .null => false

/-- A ray form's block is an even register in global memory, its descriptor an even pair or LIT64 (11 R323). -/
def rayOperands (f : Full) (sp : Space) : Bool := (sp != .g || isPairSrc f.a && f.a != .lit64) && isPairSrc f.b

/-- The sources whose rules list what they may name (07 R178; 09 R252, R255; 10 R287; 11 R323). -/
def State.sourcesOk (s : State) (i : Instr) : Bool :=
  let e := decide (s.cur.strm = .e)
  match i with
  | .jmpi f | .calli f | .ret f => e || isUniformPair f.a
  | .agen f _ field => field != 0 || isUniformPair f.a
  | .astore f _ _ _ _ => isUniform f.d
  | .mwld f _ _ => isUniform f.a && isUniform f.b
  | .mact f _ _ | .mst f _ _ => isUniform f.a && isUniform f.b && isUniform f.c
  | .mzero f _ => isUniform f.b && isUniform f.c
  | .rtbvh f _ sp | .rtmesh f _ sp | .rtloc f sp | .rtres f sp => rayOperands f sp
  | _ => true

/-- What the kernel, the stream and the bundle decide about a form beyond its operands (04 R117; 07 R167, R184, R192; 09 R246,
R253, R258). -/
def State.formOk (s : State) (i : Instr) : Bool :=
  match i with
  | .shfl _ _ seg _ => seg == 0 || decide (2 ^ seg.toNat ≤ s.curGroup.kernel.width)
  | .call _ _ => s.lastSlot
  | .calli _ => s.lastSlot
  | .rgrp _ => s.lastSlot
  | .qpop f => s.popDstOk f
  | .qpeek f => s.popDstOk f
  | .aload f _ acc _ sel _ => s.aloadFits f acc sel
  | .aslip _ q => s.curGroup.kernel.hasQueue q.val
  | .srd _ _ num => decide (s.cur.strm = .e) || num == 0
  | _ => true

/-! ### HAZARD -/

/-- The first register code an operand names, where results can be pending in it. -/
def baseCode : Operand → Option Nat
  | .v n => some n.val
  | .o n => some (0x300 + n.val)
  | .s n => some (0x340 + n.val)
  | _ => none

/-- The lanes in which one of the registers an operand names is pending, among the lanes given (04 R111). -/
def State.hazardIn (s : State) (g : Lanes) (code span : Nat) : Lanes :=
  let w := s.curWarp
  laneMask g fun l => (List.range span).any fun j =>
    w.pend.any fun p => (p.scalar || p.lane == l) && p.key ==
      (if 0x340 ≤ code then scalarKey (code - 0x340 + j) else w.regKey l (code + j))

/-- HAZARD over a list of register codes, each with how many registers follow (04 R111). -/
def State.hazardOf (s : State) (g : Lanes) (l : List (Nat × Nat)) : Option Trap :=
  if s.cur.strm ≠ .e ∨ ¬ s.curGroup.kernel.checked then none
  else
    (l.find? fun p => s.hazardIn g p.1 p.2 != 0).map fun p =>
      s.mkTrap .hazard (s.hazardIn g p.1 p.2) (BitVec.ofNat 64 p.1) 0 0 0

/-- HAZARD of a form's operands; no helper lane raises it (02 R50). -/
def State.hazard (s : State) (i : Instr) (f : Full) : Option Trap :=
  s.hazardOf (s.gLive f) ((fieldsOf f (shapeOf i)).filterMap fun p => (baseCode p.2).map fun c => (c, s.span f p.1))

/-! ### Queue sources -/

/-- The element has returned. -/
def QElem.returned : QElem → Bool
  | .pending _ => false
  | .pendingFault _ _ _ => false
  | .data _ => true
  | .fault _ _ _ => true

/-- Every element of the entry has returned: READY or POISONED (03 R66). -/
def QEntry.complete (e : QEntry) : Bool := e.elems.all QElem.returned

/-- The lane's head stands at the tail of a closed queue (03 R80). -/
def Queue.under (q : Queue) (lane : Nat) : Bool := q.closed && q.head lane == q.tail

/-- A lane holds nothing back: the entry at its head has landed, or the queue is closed and empty for it (03 R69). -/
def Queue.laneReady (q : Queue) (lane : Nat) : Bool :=
  q.under lane || (match q.entry (q.head lane) with | some e => e.complete | none => false)

/-- The queues a form names as sources. -/
def queuesOf (f : Full) (sh : Shape) : List Nat :=
  ((fieldsOf f sh).filterMap fun p =>
    match p.1, p.2 with
    | .src _ _, .q n => some n.val
    | _, _ => none).dedup

/-- QUEUE_UNDERFLOW at the lowest queue with a lane at its closed tail (03 R80). -/
def State.underflow (s : State) (g : Lanes) (qs : List Nat) : Option Trap :=
  let w := s.curWarp
  ((List.range 8).find? fun q => qs.contains q && (laneList g).any (w.queue q).under).map fun q =>
    s.mkTrap .queueUnderflow (laneMask g (w.queue q).under) (BitVec.ofNat 64 (256 * q)) 0 0 0

/-- The fault record a lane would pop from a queue. -/
def Warp.poison (w : Warp) (q lane : Nat) : Option (Cause × W64 × Bool) :=
  match (w.queue q).elem lane with
  | some (.fault c a srv) => some (c, a, srv)
  | _ => none

/-- The kind of fault record of a cause that goes to the fault server (17 R419). -/
def kindOf : Cause → Nat
  | .addrFault => 1
  | .accessPerm => 2
  | .poisonData => 3
  | _ => 4

/-- The bytes of an access code (04 R118): 1, 2, 4 or 8. -/
def accSize (acc : BitVec 3) : Nat :=
  match acc.toNat with | 0 => 1 | 1 => 2 | 2 => 4 | 3 => 8 | 4 => 1 | _ => 2

/-- QUEUE_FAULT of the popped fault records (03 R73). -/
def State.queueFault (s : State) (g : Lanes) (qs : List Nat) : Option Trap :=
  let w := s.curWarp
  let bad (l : Nat) : Option Nat := (List.range 8).find? fun q => qs.contains q && (w.poison q l).isSome
  let m := laneMask g fun l => (bad l).isSome
  match (List.range 8).find? (fun q => qs.contains q && (laneList g).any fun l => (w.poison q l).isSome), lowLane m with
  | some q, some l =>
    let ql := (bad l).getD q
    let e := (w.queue ql).entry ((w.queue ql).head l)
    match w.poison ql l with
    | some (c, a, _) =>
      some (s.mkTrap .queueFault m (BitVec.ofNat 64 (256 * q + c.code)) a
        (BitVec.ofNat 64 (e.elim 0 fun e => accSize e.acc)) (BitVec.ofNat 64 ((w.queue ql).head l)))
    | none => none
  | _, _ => none

/-- Where the queue sources leave an instruction. -/
inductive QueueGate where
  /-- it executes -/
  | go
  /-- it does not: the state in which it waits or has trapped -/
  | stop (s : State)

/-- The fault record of a popped element (17 R419): QUEUE_FAULT's registers are those that the trap would hold (03 R73). -/
def State.poisonRecord (s : State) (q lane : Nat) (c : Cause) (a : W64) : FaultReq :=
  let x := s.curGroup
  let y := s.curWarp.queue q
  let sp : Space := ((y.entry (y.head lane)).map fun (e : QEntry) => e.m.space).getD .g
  { part := x.part, asid := x.asid, kind := kindOf c, agent := 0, acc := sp.code.toNat, cause := c, tcause := .queueFault, addr := a,
    bits := if sp = .g then s.faultBits (s.gctx s.cur.grp) ⟨c, none, a, none⟩ else 12, place := x.core + s.cur.wid * 2 ^ 16, pc := s.cur.pc,
    mask := laneBit lane, i0 := BitVec.ofNat 64 (256 * q + c.code), i1 := a, reason := 0, stage2 := none }

/-- The fault records of the popped elements go to the server, one request each (03 R72 path 1). -/
def State.sendPoison (s : State) (l : List (Nat × Nat)) : State × List Replay :=
  l.foldl (fun (acc : State × List Replay) (p : Nat × Nat) =>
    match s.curWarp.poison p.1 p.2 with
    | some (c, a, _) =>
      let r := acc.1.postFault (s.poisonRecord p.1 p.2 c a)
      (r.2, acc.2 ++ [⟨p.1, p.2, (s.curWarp.queue p.1).head p.2, r.1⟩])
    | none => acc) (s, [])

/-- Readiness of queue sources for a set of guard-true live lanes (03 R69, R72, R80). -/
def State.queueGate (s : State) (g : Lanes) (qs : List Nat) : QueueGate :=
  let w := s.curWarp
  if qs.isEmpty || g == 0 then .go
  else if !(qs.all fun q => (laneList g).all (w.queue q).laneReady) then .stop (s.park (.qempty g qs []))
  else
    match s.underflow g qs with
    | some t => .stop (s.trap t)
    | none =>
      let srv := qs.flatMap fun q => (laneList g).filterMap fun l =>
        if (w.poison q l).any (·.2.2) then some (q, l) else none
      if !srv.isEmpty then
        let r := s.sendPoison srv
        .stop (r.1.park (.faultQ r.2))
      else
        match s.queueFault g qs with
        | some t => .stop (s.trap t)
        | none => .go

/-- An entry is held: it has not landed, or a live lane has not passed it (03 R66, R70). -/
def QEntry.held (e : QEntry) (q : Queue) (live : Lanes) : Bool :=
  !e.complete || (laneList live).any fun l => decide (q.head l ≤ e.seq)

/-- The entries that every live lane has passed return to EMPTY (03 R66, R70). -/
def Queue.retire (q : Queue) (live : Lanes) : Queue := { q with entries := q.entries.filter fun e => e.held q live }

/-- The heads of the lanes given advance by n, and passed entries retire. -/
def Queue.popBy (q : Queue) (lanes live : Lanes) (n : Nat → Nat) : Queue :=
  { q with heads := (laneList lanes).foldl (fun h l => Store.put h 0 l (Store.get h 0 l + n l)) q.heads }.retire live

/-- The pops of an instruction that has taken effect: each lane's head advances once for each queue named (03 R68). -/
def State.popQueues (s : State) (g : Lanes) (qs : List Nat) : State :=
  if qs.isEmpty || g == 0 then s
  else s.modCurWarp fun w => qs.foldl (fun w q => w.modQueue q (·.popBy g w.live fun _ => 1)) w

/-! ### The frame of every encoded form -/

/-- The decode-level trap that keeps a form from executing where it issues. -/
def State.issueTrap (s : State) (i : Instr) (f : Full) : Option Trap :=
  match s.codeTrap (opcOf i) with
  | some t => some t
  | none => if s.operandsOk i f && s.sourcesOk i && s.formOk i then s.hazard i f else some (s.decodeTrap .reservedField 0 0 s.cur.lanes)

/-- The frame of an encoded form: it issues from a stream, traps at decode or at a hazard, waits for its queues or for write-backs that a lock
holds, or takes its effect and pops its queue sources, in the lanes in which it completed. -/
def State.issue (s : State) (i : Instr) (f : Full) (body : State → State) : Host.Outcome State Fault Refusal :=
  if !s.cur.valid then .fault .notIssued
  else
    match s.issueTrap i f with
    | some t => .next (s.trap t)
    | none =>
      let g := s.gLive f
      let qs := if s.cur.strm = .e then queuesOf f (shapeOf i) else []
      match s.queueGate g qs with
      | .stop s' => .next s'
      | .go =>
        let s' := body s
        .next (if s'.cur.stuck then s.park .backs else if s'.cur.done then s'.popQueues (g &&& s'.cur.lanes) qs else s')

/-- RESERVED_FIELD that a form's own rules raise before any effect. -/
def State.reserved (s : State) : State := s.trap (s.decodeTrap .reservedField 0 0 s.cur.lanes)

end Sys2Proof.Machine
end

