-- ==== Sys2Proof/Machine/Access.lean ====
section
/-!
DEFINITION. Accesses of lanes and streams: addresses (09 R232), the checks of R233, reads and writes in the three spaces (08
R194 to R196), and what orders and scopes make of them (08 R202 to R218).
-/

namespace Sys2Proof.Machine

/-! ### Scratchpad and record space -/

/-- n bytes of a sparse byte store, the lowest first. -/
def readBytes (b : Store W8) (a n : Nat) : Nat :=
  match n with
  | 0 => 0
  | k + 1 => (Store.get b 0 a).toNat + 256 * readBytes b (a + 1) k

/-- Bytes put into a sparse byte store. -/
def putBytes (b : Store W8) (a : Nat) (l : List W8) : Store W8 :=
  match l with
  | [] => b
  | x :: r => putBytes (Store.put b 0 a x) (a + 1) r

/-- Some sector of a range of a group's window is poisoned (21 R496). -/
def Group.scratchBad (x : Group) (a n : Nat) : Bool :=
  x.spoison.any fun p => p.2 && decide (32 * p.1 < a + n ∧ a < 32 * p.1 + 32)

/-- Bytes written to a group's window; a sector written whole loses its poison (21 R496). -/
def Group.scratchWrite (x : Group) (a : Nat) (l : List W8) : Group :=
  { x with
    scratch := putBytes x.scratch a l
    spoison := x.spoison.filter fun p => !(decide (a ≤ 32 * p.1 ∧ 32 * p.1 + 32 ≤ a + l.length)) }

/-! ### The place of an access -/

/-- An access: space, exact address, size in bytes, what it needs, and the level it goes to. -/
structure Access where
  space : Space
  ea : Int
  size : Nat
  need : Need
  lvl : Nat
  deriving DecidableEq, Repr

/-- Where an access lands. -/
inductive Spot where
  | g (l : Loc)
  | s (off : Nat)
  | k (off : Nat)
  deriving DecidableEq, Repr

/-- A load's need. -/
def Need.load : Need := ⟨true, false, false⟩
/-- A store's need. -/
def Need.store : Need := ⟨false, true, false⟩
/-- A read-modify-write's need. -/
def Need.both : Need := ⟨true, true, false⟩

/-- Some sector anywhere is poisoned. -/
def Mem.anyBad (m : Mem) : Bool :=
  !m.poison.isEmpty || m.l1.any (fun p => p.2.any fun l => l.poison != 0) || m.cc.any fun p => p.2.any fun l => l.poison != 0

/-- The checks of 09 R233 on an access of a group, in their order. -/
def State.spot (s : State) (grp : Nat) (a : Agent) (x : Access) : Except AccFault (Spot × State) :=
  let va : W64 := BitVec.ofInt 64 x.ea
  let off := x.ea.toNat
  match x.space with
  | .k =>
    if x.ea < 0 ∨ (s.group grp).klen < off + x.size then .error ⟨.addrFault, none, va, none⟩
    else if off % x.size ≠ 0 then .error ⟨.misalignedAccess, none, va, none⟩
    else .ok (.k off, s)
  | .s =>
    if x.ea < 0 ∨ (s.group grp).kernel.scratch < off + x.size then .error ⟨.scratchBounds, none, va, none⟩
    else if off % x.size ≠ 0 then .error ⟨.misalignedAccess, none, va, none⟩
    else if s.mem.lockedScratch grp off x.size (!x.need.w) then .error ⟨.rangeLocked, none, va, none⟩
    else if x.need.r && (s.group grp).scratchBad off x.size then .error ⟨.poisonData, some 3, va, none⟩
    else .ok (.s off, s)
  | .g =>
    match s.globalLoc a va x.size x.lvl x.need with
    | .error f => .error f
    | .ok (l, t) =>
      if x.need.r && t.mem.anyBad && (t.mem.readAt a l x.size x.lvl).2.1 then .error ⟨.poisonData, some 3, va, none⟩
      else .ok (.g l, t)

/-- The bytes at a place, read at a level. -/
def State.readSpot (s : State) (grp : Nat) (a : Agent) (p : Spot) (n lvl : Nat) : Nat × State :=
  match p with
  | .g l =>
    let r := s.mem.readAt a l n lvl
    (r.1, { s with mem := r.2.2 })
  | .s off => (readBytes (s.group grp).scratch off n, s)
  | .k off => (readBytes (s.group grp).krec off n, s)

/-- A value written at a place, at a level; the record space takes no write. -/
def State.writeSpot (s : State) (grp : Nat) (a : Agent) (p : Spot) (n v lvl : Nat) : State :=
  match p with
  | .g l => { s with mem := s.mem.writeAt a l n v lvl }
  | .s off => s.modGroup grp (·.scratchWrite off (bytesOf n v))
  | .k _ => s

/-! ### Ordering -/

/-- The agent of a group's lanes and streams (08 R201). -/
def Group.agent (x : Group) : Agent := ⟨x.part, x.asid, some (x.pcore, x.pclu)⟩

/-- The agent that issues. -/
def State.agent (s : State) : Agent := s.curGroup.agent

/-- The order has an acquire. -/
def orderAcq : Order → Bool
  | .acq | .ar => true
  | .rlx | .rel => false

/-- The order has a release. -/
def orderRel : Order → Bool
  | .rel | .ar => true
  | .rlx | .acq => false

/-- Where an access reads: plain and relaxed accesses with .fr at the home slice, others at their scope's level (08 R212). -/
def readLevel (m : MemMod) : Nat := if m.fr then 2 else levelOf (scopeRank m.scope)

/-- The rank of the scope of a lane's earlier release fence, plus one; zero where there is none (08 R206). -/
def State.fenceRank (s : State) (lane : Nat) : Nat :=
  if s.cur.strm = .e then Store.get s.curWarp.relScope 0 lane else s.curStream.relScope

/-- The scope rank at which an atomic write of a lane is a release, if it is one (08 R206, R214). One of scope .rem executes at the home
slice and is a release at .dev. -/
def State.releaseRank (s : State) (lane : Nat) (m : MemMod) : Option Nat :=
  let own := if m.scope = .rem then 3 else scopeRank m.scope
  let f := s.fenceRank lane
  match m.scope with
  | .plain => none
  | _ =>
    if f = 0 then (if orderRel m.order then some own else none)
    else some (max own (f - 1))

/-- The level at which a write of a lane executes (08 R214). -/
def State.writeLevel (s : State) (lane : Nat) (m : MemMod) : Nat :=
  levelOf ((s.releaseRank lane m).getD (scopeRank m.scope))

/-- What precedes an access of a lane: a release at .sys writes its caches back (08 R216), a .rem acquire promotes (R218). -/
def State.before (s : State) (a : Agent) (p : Spot) (n : Nat) (m : MemMod) (rel : Option Nat) : State :=
  match p with
  | .g l =>
    let s1 := if rel == some 4 then
        let x := s.mem.sysRelease a
        ({ s with mem := x } : State).stickIf (x.owes (a.path.toList.map Prod.snd) none)
      else s
    if m.scope = .rem then
      let x := s1.mem.promote a l.phys n
      ({ s1 with mem := x } : State).stickIf (x.owes ((s1.mem.holders l.phys n).map CacheId.cluster) none)
    else s1
  | _ => s

/-- The records of an atomic read stay for a later acquire fence of its lane. -/
def State.keepRecords (s : State) (lane : Nat) (rs : List RelRec) : State :=
  let new (l : List AcqRead) : List AcqRead := (l ++ rs.map fun r => (⟨lane, r.ctx, r.caches⟩ : AcqRead)).dedup
  if rs.isEmpty then s
  else if s.cur.strm = .e then s.modCurWarp fun w => { w with acqs := new w.acqs }
  else s.modStream s.cur.grp s.cur.strm fun y => { y with acqs := new y.acqs }

/-- What follows an atomic read of a lane: an acquire performs R215; one that does not reach the home slices, or none, leaves what a later
acquire fence needs (08 R206). -/
def State.afterRead (s : State) (lane : Nat) (a : Agent) (p : Spot) (n : Nat) (m : MemMod) (lvl : Nat) : State :=
  match p with
  | .g l =>
    if m.scope = .plain then s
    else
      let rs := s.mem.records a l.phys n
      let s1 := if orderAcq m.order then
          let x := s.mem.acquire a l.phys n lvl
          ({ s with mem := x } : State).stickIf (x.waits rs lvl)
        else s
      if orderAcq m.order && lvl == 2 then s1 else s1.keepRecords lane rs
  | _ => s

/-- What follows a write of a lane: the meeting point's records (08 R214), or none for a plain store. -/
def State.afterWrite (s : State) (a : Agent) (p : Spot) (n : Nat) (m : MemMod) (lvl : Nat) (rel : Option Nat) (rmw : Bool) : State :=
  match p with
  | .g l =>
    if m.scope = .plain then s
    else
      let x := s.mem.noteWrite a l.phys n lvl rel rmw
      ({ s with mem := x } : State).stickIf (rmw && rel.any fun rank => x.waits (s.mem.replaced a l.phys n lvl rank) lvl)
  | _ => s

/-- A load of a lane or stream at a place it may read: the value and the state after. -/
def State.loadAt (s : State) (grp lane : Nat) (a : Agent) (p : Spot) (n : Nat) (m : MemMod) : Nat × State :=
  let s0 := s.before a p n m none
  let r := s0.readSpot grp a p n (readLevel m)
  (r.1, r.2.afterRead lane a p n m (readLevel m))

/-- A store of a lane or stream at a place it may write. -/
def State.storeAt (s : State) (grp lane : Nat) (a : Agent) (p : Spot) (n v : Nat) (m : MemMod) : State :=
  let rel := s.releaseRank lane m
  let lvl := s.writeLevel lane m
  let s0 := s.before a p n m rel
  (s0.writeSpot grp a p n v lvl).afterWrite a p n m lvl rel false

/-! ### Lanes -/

/-- What a lane's access found: its place, or why it fails. -/
abbrev LaneSpot := Nat × Except AccFault Spot

/-- The checks of a list of lanes, in order. -/
def State.spots (s : State) (grp : Nat) (a : Agent) (acc : Nat → Access) (lanes : List Nat) : List LaneSpot × State :=
  lanes.foldl (fun (r : List LaneSpot × State) l =>
    match r.2.spot grp a (acc l) with
    | .ok (p, t) => (r.1 ++ [(l, .ok p)], t)
    | .error f => (r.1 ++ [(l, .error f)], r.2)) ([], s)

/-- The lanes that fail. -/
def failing (l : List LaneSpot) : List (Nat × AccFault) :=
  l.filterMap fun p => match p.2 with | .error f => some (p.1, f) | .ok _ => none

/-- The access field of a fault record (17 R419). -/
def accField (n : Need) (sp : Space) : Nat := (if n.w then 8 else 0) + (if n.x then 4 else 0) + sp.code.toNat

/-- The fault record of an access of the issuing stream. -/
def State.accRecord (s : State) (f : AccFault) (k acc : Nat) (t : Trap) (m : Lanes) : FaultReq :=
  let x := s.curGroup
  ⟨x.part, x.asid, k, strmCode s.cur.strm, acc, f.cause, t.cause, f.addr, s.faultBits (s.gctx s.cur.grp) f, x.core + s.cur.wid * 2 ^ 16,
    s.cur.pc, m, t.i0, t.i1, 0, f.stage2⟩

/-- The failure of an access: the fault server first where 17 R411 says so, otherwise the trap. -/
def State.accStop (s : State) (f : AccFault) (acc : Nat) (t : Trap) (m : Lanes) : State :=
  match f.kind with
  | some k =>
    let r := s.postFault (s.accRecord f k acc t m)
    r.2.park (.fault r.1 t)
  | none => s.trap t

/-- The failure of a memory form (09 R233): the cause of the lowest failing lane, in all the lanes that fail with it. -/
def State.accFail (s : State) (size : Nat) (sp : Space) (need : Need) (ea : Nat → Int) (l : List (Nat × AccFault)) : State :=
  match l with
  | [] => s
  | (n, f) :: _ =>
    let m := l.foldl (fun acc p => if p.2.cause = f.cause then acc ||| laneBit p.1 else acc) 0
    let t := s.mkTrap f.cause m (BitVec.ofNat 64 (size + 16 * sp.code.toNat)) (BitVec.ofInt 64 (ea n)) 0 0
    s.accStop f (accField need sp) t m

/-- The effective address of a lane (09 R232). -/
def State.ea (s : State) (f : Full) (sp : Space) (idx : Operand) (size : Nat) (off : BitVec 10) (lane : Nat) : Int :=
  let i : Int := if idx = .null then 0 else (s.src32 f idx lane).toInt
  let d : Int := (i + off.toInt) * size
  match sp with
  | .g => ((s.src f f.a true lane + BitVec.ofInt 64 d).toNat : Int)
  | _ => (s.src32 f f.a lane).toNat + d

end Sys2Proof.Machine
end

