-- ==== Sys2Proof/Machine/Barriers.lean ====
section
/-!
DEFINITION. Numbered barriers (spec/03_decoupled_streams.md R81; spec/07_isa_lanes_control.md R186 to R190) and the cohort barrier
(R191).
-/

namespace Sys2Proof.Machine

/-! ### Declarations and phases -/

/-- Barrier n of a kernel: warps that arrive, whether the A-stream and the M-stream take part; an undeclared barrier has every
warp (03 R81, 13 R354). -/
def Kernel.barrier (k : Kernel) (nwarp n : Nat) : Nat × Bool × Bool :=
  let b : W8 := k.bars.extractLsb' (8 * n) 8
  if b.getLsbD 7 then ((b.extractLsb' 0 5).toNat, b.getLsbD 6, b.getLsbD 5) else (nwarp, false, false)

/-- Barrier n of a group. -/
def Group.bar (x : Group) (n : Nat) : Bar := Store.get x.bars Bar.blank n

/-- The group with barrier n changed. -/
def Group.modBar (x : Group) (n : Nat) (f : Bar → Bar) : Group := { x with bars := Store.put x.bars Bar.blank n (f (x.bar n)) }

/-- The lanes of a warp that have arrived in the open phase. -/
def Bar.got (b : Bar) (w : Nat) : Lanes := Store.get b.lanes 0 w

/-- The participant's last arrival is in the open phase. -/
def Bar.pendingAt (b : Bar) (k : Nat) : Bool := b.ever.getLsbD k && Store.get b.last 0 k == b.phase

/-- Participant k (a warp by WID, 16 the A-stream, 17 the M-stream) arrives in the open phase; what it had written for others, and whether it
knew of the establishing `mfmt`, is noted (03 R61; 10 R284, R286). -/
def Bar.arrive (b : Bar) (k stamp : Nat) (fmt : Bool) : Bar :=
  { b with
    arrived := if k < 16 then b.arrived ||| (1#16 <<< k) else b.arrived
    aArr := b.aArr || k == 16
    mArr := b.mArr || k == 17
    last := Store.put b.last 0 k b.phase
    ever := b.ever ||| (1#18 <<< k)
    stamps := Store.put b.stamps 0 k stamp
    fmt := b.fmt || fmt }

/-- Lanes of a warp arrive; the warp does once every live lane has, if any has (07 R187). -/
def Bar.laneArrive (b : Bar) (w : Nat) (live m : Lanes) (stamp : Nat) (fmt : Bool) : Bar :=
  let g := b.got w ||| m
  let b := { b with lanes := Store.put b.lanes 0 w g }
  if g != 0 && live &&& ~~~g == 0 && !b.arrived.getLsbD w then b.arrive w stamp fmt else b

/-- A warp holds a partial arrival (07 R187). -/
def Bar.partialAt (b : Bar) (w : Nat) : Bool := b.got w != 0 && !b.arrived.getLsbD w

/-- The phase completed: flags clear, the open phase advances (07 R186). -/
def Bar.next (b : Bar) : Bar :=
  { b with phase := b.phase + 1, arrived := 0, aArr := false, mArr := false, lanes := [], stamps := [], fmt := false }

/-! ### Completion of a phase (07 R186) -/

/-- A split that waits for a completed phase is released: it continues behind the form or executes it again. One that is parked with FAULT
meanwhile is released once the verdict lands. -/
def Wait.release (w : Wait) (hit : Wait → Bool) (pc : W64) : Wait × W64 :=
  match w with
  | .escal tok p => let r := p.release hit pc; (.escal tok r.1, r.2)
  | .barrier b p next => if hit (.barrier b p next) then (.ready, next.getD pc) else (.barrier b p next, pc)
  | .cbarrier p next => if hit (.cbarrier p next) then (.ready, next.getD pc) else (.cbarrier p next, pc)
  | w => (w, pc)

/-- The splits of a list that a completed phase releases; their blocked-port counts are over (17 R417). -/
def releaseSplits (hit : Wait → Bool) (l : List Split) : List Split :=
  l.map fun x =>
    let r := x.wait.release hit x.pc
    { x with wait := r.1, pc := r.2, bp := if r.1 == x.wait then x.bp else 0 }

/-- The warp's waits on a completed phase end; a saved split is released at `tret` (17 R412). -/
def Warp.releaseOn (w : Warp) (hit : Wait → Bool) : Warp :=
  { w with splits := releaseSplits hit w.splits, saved := releaseSplits hit w.saved }

/-- The stream's wait on a completed phase ends. -/
def Stream.releaseOn (y : Stream) (hit : Wait → Bool) : Stream :=
  let r := y.wait.release hit y.pc
  { y with wait := r.1, pc := r.2, bp := if r.1 == y.wait then y.bp else 0 }

/-- Every warp of a group changed. -/
def Group.mapWarps (x : Group) (f : Nat → Warp → Warp) : Group :=
  { x with warps := x.warps.map fun p => (p.1, f p.1 p.2) }

/-- The wait is for phase p of barrier n. -/
def Wait.onBar (n : Nat) (p : W32) : Wait → Bool
  | .barrier m q _ => m == n && q == p
  | _ => false

/-- The wait is for phase p of the cohort barrier. -/
def Wait.onCbar (p : W32) : Wait → Bool
  | .cbarrier q _ => q == p
  | _ => false

/-- The warps that count for a phase: those that arrived, and those that have ended (07 R186). -/
def Group.counted (x : Group) (b : Bar) : Nat :=
  (x.wids.filter fun w => b.arrived.getLsbD w || (x.warp w).ended).length

/-- The open phase of barrier n is complete; ended warps and streams alone may complete it (07 R186). -/
def Group.barFull (x : Group) (n : Nat) : Bool :=
  let b := x.bar n
  let d := x.kernel.barrier x.nwarp n
  decide (d.1 ≤ x.counted b) && (!d.2.1 || b.aArr || x.astr.ended) && (!d.2.2 || b.mArr || x.mstr.ended)

/-- A participant knows of the establishing `mfmt`: it happens before what the participant does now (10 R284). -/
def Group.knowsFmt (x : Group) (k : Nat) : Bool := x.est && x.fmtSeen.getLsbD k

/-- The participants that have arrived in a phase, as a mask. -/
def Bar.mask (b : Bar) : BitVec 18 :=
  b.arrived.setWidth 18 ||| (if b.aArr then 1#18 <<< 16 else 0) ||| (if b.mArr then 1#18 <<< 17 else 0)

/-- The participants that count as arrived because they have ended (07 R186), by number. -/
def Group.endedIn (x : Group) (n : Nat) : List Nat :=
  let d := x.kernel.barrier x.nwarp n
  (x.wids.filter fun w => (x.warp w).ended) ++ (if d.2.1 && x.astr.ended then [16] else []) ++ (if d.2.2 && x.mstr.ended then [17] else [])

/-- What a participant of a completed phase had written for others: as it arrived, or, where it counts as arrived by its end, all of it. -/
def Group.stampIn (x : Group) (b : Bar) (k : Nat) : Nat :=
  if b.mask.getLsbD k then Store.get b.stamps 0 k else if k = 16 then x.gcount else (x.warp k).mWrites

/-- What participants of a completed phase have seen of each other: warps and the M-stream the A-stream's writes of g registers
(03 R61), every reader the scale-table writes of the warps (10 R286), and all of them the establishing `mfmt` that one of them knew
(10 R284). -/
def Group.sync (x : Group) (n : Nat) : Group :=
  let b := x.bar n
  let gone := x.endedIn n
  let readers := (x.wids.filter b.arrived.getLsbD) ++ (if b.mArr then [17] else [])
  let writers := x.wids.filter fun w => b.arrived.getLsbD w || gone.contains w
  let see (g : Store Nat) (key v : Nat) : Store Nat := Store.put g 0 key (max (Store.get g 0 key) v)
  { x with
    gseen := if b.aArr || gone.contains 16 then readers.foldl (fun g k => see g k (x.stampIn b 16)) x.gseen else x.gseen
    mSeen := readers.foldl (fun g r => writers.foldl (fun g k => see g (32 * r + k) (x.stampIn b k)) g) x.mSeen
    fmtSeen := if b.fmt || gone.any x.knowsFmt then x.fmtSeen ||| b.mask else x.fmtSeen }

/-- Writes of g registers that every reader has seen become the registers' base values. -/
def Group.foldG (x : Group) : Group :=
  let rs := (x.wids.filter fun w => !(x.warp w).ended) ++ (if x.mstr.on && !x.mstr.ended then [17] else [])
  let n := rs.foldl (fun m k => min m (Store.get x.gseen 0 k)) x.gcount
  { x with
    gbase := (x.gw.filter fun w => decide (w.n ≤ n)).foldl (fun b w => Store.put b 0 w.reg w.val) x.gbase
    gw := x.gw.filter fun w => !decide (w.n ≤ n) }

/-- The open phase of barrier n completes: waits end, flags clear, the phase advances (07 R186). -/
def Group.completeBar (x : Group) (n : Nat) : Group :=
  let b := x.bar n
  let hit := Wait.onBar n b.phase
  let y := (x.sync n).mapWarps fun _ w => w.releaseOn hit
  { y with astr := y.astr.releaseOn hit, mstr := y.mstr.releaseOn hit }.modBar n Bar.next |>.foldG

/-- Every numbered barrier of a group that is full completes. -/
def Group.settleBars (x : Group) : Group :=
  (List.range 16).foldl (fun x n => if x.barFull n then x.completeBar n else x) x

/-! ### The cohort barrier (07 R191) -/

/-- The group has arrived at its cohort barrier: every warp that has not ended has, and some warp has. -/
def Group.cohArrived (x : Group) : Bool :=
  x.cbar.arrived != 0 && x.wids.all fun w => (x.warp w).ended || x.cbar.arrived.getLsbD w

/-- Cohort c. -/
def State.cohort (s : State) (c : Nat) : Cohort := Store.get s.cohorts Cohort.blank c

/-- The state with a cohort changed. -/
def State.modCohort (s : State) (c : Nat) (f : Cohort → Cohort) : State :=
  { s with cohorts := Store.put s.cohorts Cohort.blank c (f (s.cohort c)) }

/-- Every warp of a group has ended, or the group is gone. -/
def State.groupDone (s : State) (g : Nat) : Bool :=
  let x := s.group g
  !x.used || x.wids.all fun w => (x.warp w).ended

/-- The release and acquire at .clu of a group's lanes: its core's dirty lines reach the cluster cache, and clean ones leave
(07 R191). -/
def State.cluSync (s : State) (g : Nat) : State :=
  let a := (s.group g).agent
  let x := s.group g
  { s with mem := ((s.mem.flushL1 x.pcore x.pclu (Line.ofCtx x.part x.asid)).1).refresh a 1 }

/-- A completed phase of the cohort barrier ends the waits of a group's warps. -/
def Group.completeCbar (x : Group) : Group :=
  let hit := Wait.onCbar x.cbar.phase
  { x.mapWarps (fun _ w => w.releaseOn hit) with
    fmtSeen := if x.cbar.fmt then x.fmtSeen ||| x.cbar.mask else x.fmtSeen
    cbar := x.cbar.next }

/-- The groups of a cohort that have arrived in its open phase. -/
def State.cohortArrived (s : State) (c : Nat) : List Nat := (s.cohort c).groups.filter fun g => (s.group g).cohArrived

/-- The cohort barrier of group g completes once every group of the cohort has arrived or ended, and one has arrived. -/
def State.settleCbar (s : State) (g : Nat) : State :=
  let c := (s.group g).cohort
  let co := s.cohort c
  let arr := s.cohortArrived c
  if !arr.isEmpty && co.groups.all fun h => arr.contains h || s.groupDone h then
    let live := co.groups.filter fun h => (s.group h).used
    let s1 := live.foldl State.cluSync s
    (live.foldl (fun s h => s.modGroup h Group.completeCbar) s1).modCohort c fun k => { k with phase := k.phase + 1, arrived := [] }
  else s.modCohort c fun k => { k with arrived := arr }

/-- Barriers of a group after an arrival, an exit or an end. -/
def State.settleBarriers (s : State) (g : Nat) : State := (s.modGroup g Group.settleBars).settleCbar g

/-! ### Forms -/

/-- BARRIER_MISMATCH of the issuing form (07 R189). -/
def State.barTrap (s : State) (n reason : Nat) (coh : Bool) : State :=
  s.trap (s.mkTrap .barrierMismatch s.cur.lanes (BitVec.ofNat 64 (n + 16 * reason + if coh then 256 else 0)) 0 0 0)

/-- The issuing split holds helper lanes only (07 R187). -/
def State.onlyHelpers (s : State) : Bool := s.cur.strm = .e && s.cur.lanes &&& s.curWarp.live == 0

/-- Why a stream may not use barrier n (07 R189, reasons 1 to 3); helper lanes pass. -/
def State.barWrong (s : State) (n : Nat) : Option Nat :=
  let d := s.curGroup.kernel.barrier s.curGroup.nwarp n
  match s.cur.strm with
  | .e => if d.1 = 0 ∧ ¬ s.onlyHelpers then some 1 else none
  | .a => if d.2.1 then none else some 2
  | .m => if d.2.2 then none else some 3

/-- The number of the issuing participant. -/
def Cur.participant (c : Cur) : Nat := match c.strm with | .e => c.wid | .a => 16 | .m => 17

/-- What the issuing participant has written for others (03 R61, 10 R286). -/
def State.stampNow (s : State) : Nat :=
  match s.cur.strm with
  | .e => s.curWarp.mWrites
  | .a => s.curGroup.gcount
  | .m => 0

/-- The issuing participant knows of the establishing `mfmt` (10 R284). -/
def State.fmtNow (s : State) : Bool := s.curGroup.knowsFmt s.cur.participant

/-- The issuing split divides under `bar.sync` or `bar.arrive` (07 R187): lanes that arrive now continue, or wait for the phase
and then continue; lanes whose last phase is still open wait for it and execute the form again. DESIGN CHOICE: helper lanes of a split that
also holds live lanes pass the form, and part from the live lanes where these wait (notes/assumptions/55.md). -/
def barSplits (sync : Bool) (now late : Lanes) (wait : Option W64 → Wait) (pc npc : W64) (x : Split) : List Split :=
  let helpers := x.lanes &&& ~~~(now ||| late)
  let go := if sync then helpers else helpers ||| now
  ([{ x with lanes := go, pc := npc, wait := .ready, bp := 0, wd := 0 },
    { x with lanes := if sync then now else 0, pc := pc, wait := wait (some npc), bp := 0, wd := 0 },
    { x with lanes := late, pc := pc, wait := wait none, bp := 0, wd := 0 }]).filter fun y => y.lanes != 0

/-- `bar.sync` or `bar.arrive` by a split or stream (07 R187). -/
def State.barForm (s : State) (n : Nat) (sync : Bool) : State :=
  match s.barWrong n with
  | some r => s.barTrap n r false
  | none =>
    let b := s.curGroup.bar n
    let k := s.cur.participant
    let w := fun (nx : Option W64) => Wait.barrier n b.phase nx
    match s.cur.strm with
    | .e =>
      let live := s.curWarp.live
      let mine := s.cur.lanes &&& live
      let late := mine &&& b.got k
      let now := mine &&& ~~~late
      let s1 := s.modCur fun x => x.modBar n fun b => b.laneArrive k live now s.stampNow s.fmtNow
      ((s1.modSplit (barSplits sync now late w s.cur.pc s.cur.npc) id).markDone).settleBarriers s.cur.grp
    | _ =>
      if b.pendingAt k then s.park (w none)
      else
        let s1 := s.modCur fun x => x.modBar n fun b => b.arrive k s.stampNow s.fmtNow
        let s2 := if sync then (s1.park (w (some s.cur.npc))).markDone else s1.advance
        s2.settleBarriers s.cur.grp

/-- BAR_SYNC (07 R187) -/
def execBarSync (f : Full) (n : Fin 16) (s : State) : Host.Outcome State Fault Refusal :=
  s.issue (.barSync f n) f fun s => s.barForm n.val true

/-- BAR_ARRIVE (07 R187) -/
def execBarArrive (f : Full) (n : Fin 16) (s : State) : Host.Outcome State Fault Refusal :=
  s.issue (.barArrive f n) f fun s => s.barForm n.val false

/-- A wait for the phase of the participant's last arrival: over at once where it has completed (07 R188). A split that holds a live lane waits
as a whole, its helper lanes too (notes/assumptions/55.md). -/
def State.barWaitOn (s : State) (b : Bar) (w : Wait) : State :=
  if s.onlyHelpers then s.advance
  else if b.pendingAt s.cur.participant then (s.park w).markDone
  else s.advance

/-- BAR_WAIT (07 R188) -/
def execBarWait (f : Full) (n : Fin 16) (s : State) : Host.Outcome State Fault Refusal :=
  s.issue (.barWait f n) f fun s =>
    let b := s.curGroup.bar n.val
    match s.barWrong n.val with
    | some r => s.barTrap n.val r false
    | none =>
      if !b.ever.getLsbD s.cur.participant && !s.onlyHelpers then s.barTrap n.val 4 false
      else s.barWaitOn b (.barrier n.val b.phase (some s.cur.npc))

/-- CBAR (07 R191) -/
def execCbar (f : Full) (mode : BitVec 2) (s : State) : Host.Outcome State Fault Refusal :=
  s.issue (.cbar f mode) f fun s =>
    let b := s.curGroup.cbar
    let k := s.cur.wid
    let w := fun (nx : Option W64) => Wait.cbarrier b.phase nx
    if mode = 2 then
      if !b.ever.getLsbD k && !s.onlyHelpers then s.barTrap 0 4 true else s.barWaitOn b (w (some s.cur.npc))
    else
      let live := s.curWarp.live
      let mine := s.cur.lanes &&& live
      let late := mine &&& b.got k
      let now := mine &&& ~~~late
      let s1 := s.modCur fun x => { x with cbar := x.cbar.laneArrive k live now 0 s.fmtNow }
      ((s1.modSplit (barSplits (mode == 0) now late w s.cur.pc s.cur.npc) id).markDone).settleBarriers s.cur.grp

end Sys2Proof.Machine
end

