-- ==== Sys2Proof/Machine/RayMath.lean ====
section
/-!
DEFINITION. The exact arithmetic of the traversal unit (spec/11_traversal_unit.md R303 to R322): boxes, the triangle test,
weights of points in triangles, quadrilaterals and tetrahedra, the crossing of R318 and the absorption of R319. Quantities are
exact until one rounding to FP32, and special values follow IEEE 754-2019.
-/

namespace Sys2Proof.Machine

/-! ### Exact operations without flags -/

/-- A sum. -/
def xplus (a b : XR) : XR := (xadd .rne a b).1
/-- A difference. -/
def xminus (a b : XR) : XR := (xadd .rne a b.negate).1
/-- A product. -/
def xtimes (a b : XR) : XR := (xmul a b).1
/-- A quotient. -/
def xover (a b : XR) : XR := (xdiv a b).1
/-- The order a ≤ b; false beside a NaN. -/
def xle (a b : XR) : Bool := !a.isNan && !b.isNan && !xlt b a
/-- Equal numbers; false beside a NaN. -/
def xeq (a b : XR) : Bool := xle a b && xle b a
/-- The greater of two. -/
def xmax (a b : XR) : XR := if xlt a b then b else a
/-- The smaller of two. -/
def xmin (a b : XR) : XR := if xlt b a then b else a
/-- A value rounded to an FP32 word. -/
def xround (m : Rnd) (x : XR) : W32 := BitVec.ofNat 32 (roundFmt .f32 m false x).1
/-- The rational that a finite value is. -/
def XR.rat? : XR → Option Rat
  | .zero _ => some 0
  | .num q => some q
  | _ => none
/-- A rational as a value. -/
def xrat (q : Rat) : XR := .ofRat q false
/-- A value is finite. -/
def XR.finite (x : XR) : Bool := x.rat?.isSome
/-- A value is an infinity. -/
def XR.isInf (x : XR) : Bool := match x with | .inf _ => true | _ => false
/-- The exact scalar product. -/
def xdot (a b : List XR) : XR := (sumExact (List.zipWith xmul a b)).1
/-- The sign of a rational. -/
def ratSign (q : Rat) : Int := if q.num = 0 then 0 else if q.num < 0 then -1 else 1
/-- The point o + t * d, each coordinate rounded once (R315). -/
def pointAt (o d : List XR) (t : XR) : List XR :=
  List.zipWith (fun a b => xrOf (xround .rne (xplus a (xtimes t b)))) o d

/-- Three rationals, where all values are finite. -/
def rats (l : List XR) : Option (List Rat) := l.mapM XR.rat?

/-! ### Vectors of rationals -/

/-- Coordinate n. -/
def at3 (v : List Rat) (n : Nat) : Rat := v.getD n 0
/-- The difference of two vectors. -/
def vsub (a b : List Rat) : List Rat := List.zipWith (· - ·) a b
/-- The scalar product. -/
def vdot (a b : List Rat) : Rat := (List.zipWith (· * ·) a b).foldl (· + ·) 0
/-- The vector product in space. -/
def vcross (a b : List Rat) : List Rat :=
  [at3 a 1 * at3 b 2 - at3 a 2 * at3 b 1, at3 a 2 * at3 b 0 - at3 a 0 * at3 b 2, at3 a 0 * at3 b 1 - at3 a 1 * at3 b 0]
/-- The vector product in the plane. -/
def cross2 (a b : List Rat) : Rat := at3 a 0 * at3 b 1 - at3 a 1 * at3 b 0

/-- The axis of greatest magnitude, the lowest on a tie (R310, R316). -/
def greatestAxis (v : List XR) : Nat :=
  let mag (n : Nat) : XR := match v.getD n (.zero false) with
    | .num q => xrat (ratAbs q) | .inf _ => .inf false | x => x
  (List.range 3).foldl (fun k n => if xlt (mag k) (mag n) then n else k) 0

/-! ### Boxes (R308, R309) -/

/-- The parameters at which a line meets a slab; none where it misses it. -/
def slab (lo hi o d : XR) : Option (XR × XR) :=
  if lo.isNan || hi.isNan then none
  else if xeq d (.zero false) then (if xle lo o && xle o hi then some (.inf true, .inf false) else none)
  else
    let a := xover (xminus lo o) d
    let b := xover (xminus hi o) d
    some (if d.neg then (b, a) else (a, b))

/-- The parameter interval in which a line lies in a closed box. -/
def boxInterval (l : List (XR × XR × XR × XR)) : Option (XR × XR) :=
  l.foldl (fun acc p =>
    match acc, slab p.1 p.2.1 p.2.2.1 p.2.2.2 with
    | some x, some y => some (xmax x.1 y.1, xmin x.2 y.2)
    | _, _ => none) (some (.inf true, .inf false))

/-! ### Triangles (R310) -/

/-- The projected edge from p to q of a triangle whose interior lies to its left owns its points. -/
def ownsEdge (p q : List Rat) : Bool :=
  let d := vsub q p
  decide (at3 d 1 < 0) || (decide (at3 d 1 = 0) && decide (0 < at3 d 0))

/-- The triangle test of R310 on exact values: the words t, u and v of a hit. A triangle with a coordinate that is not finite gives
no t and so no hit. -/
def hitTriangle (o d : List Rat) (vs : List (List Rat)) : Option (W32 × W32 × W32) :=
  let kz := greatestAxis (d.map xrat)
  let flip := decide (at3 d kz < 0)
  let a := (kz + 1) % 3
  let b := (kz + 2) % 3
  let kx := if flip then b else a
  let ky := if flip then a else b
  let A := vs.map fun v => vsub v o
  let P := A.map fun v =>
    [at3 v kx - at3 v kz * at3 d kx / at3 d kz, at3 v ky - at3 v kz * at3 d ky / at3 d kz]
  let p (n : Nat) : List Rat := P.getD (n % 3) []
  let E (n : Nat) : Rat := cross2 (p (n + 1)) (p (n + 2))
  let S := E 0 + E 1 + E 2
  let owns (n : Nat) : Bool := if 0 < S then ownsEdge (p (n + 1)) (p (n + 2)) else ownsEdge (p (n + 2)) (p (n + 1))
  let good (n : Nat) : Bool := if E n = 0 then owns n else ratSign (E n) == ratSign S
  if S = 0 ∨ !((List.range 3).all good) then none
  else
    let z (n : Nat) : Rat := at3 (A.getD n []) kz
    some (xround .rne (xrat ((E 0 * z 0 + E 1 * z 1 + E 2 * z 2) / (S * at3 d kz))), xround .rne (xrat (E 1 / S)),
      xround .rne (xrat (E 2 / S)))

/-! ### Numbers x + y * sqrt D (R316: bilinear faces) -/

/-- A number x + y * sqrt D for a D that the context names; y is 0 where D is the square of a rational. -/
structure Surd where
  x : Rat
  y : Rat
  deriving DecidableEq, Repr

/-- The square root of a rational that is the square of one. -/
def ratRoot (q : Rat) : Option Rat :=
  let n := q.num.natAbs * q.den
  let r := isqrt (Nat.log2 n / 2 + 1) n 0
  if 0 ≤ q.num ∧ r * r = n then some (mkRat r q.den) else none

/-- The sign of a number. -/
def Surd.sign (D : Rat) (a : Surd) : Int :=
  let sx := ratSign a.x
  let sy := ratSign a.y
  if sx = sy ∨ sy = 0 then sx
  else if sx = 0 then sy
  else if a.y * a.y * D < a.x * a.x then sx else if a.x * a.x < a.y * a.y * D then sy else 0

/-- A rational as such a number. -/
def Surd.ofRat (q : Rat) : Surd := ⟨q, 0⟩
/-- A sum. -/
def Surd.add (a b : Surd) : Surd := ⟨a.x + b.x, a.y + b.y⟩
/-- A difference. -/
def Surd.sub (a b : Surd) : Surd := ⟨a.x - b.x, a.y - b.y⟩
/-- A product. -/
def Surd.mul (D : Rat) (a b : Surd) : Surd := ⟨a.x * b.x + a.y * b.y * D, a.x * b.y + a.y * b.x⟩
/-- A quotient. -/
def Surd.div (D : Rat) (a b : Surd) : Surd :=
  let n := b.x * b.x - b.y * b.y * D
  (a.mul D ⟨b.x, -b.y⟩).mul D ⟨1 / n, 0⟩
/-- The order a < b. -/
def Surd.lt (D : Rat) (a b : Surd) : Bool := (a.sub b).sign D == -1
/-- The greater of two. -/
def Surd.max (D : Rat) (a b : Surd) : Surd := if a.lt D b then b else a

/-- A rational that every rounding to FP32 treats as a number known to lie strictly between n / 2^160 and (n + 1) / 2^160: every value
at which a rounding changes is a multiple of 2^-150. -/
def between (n : Int) : Rat := mkRat (2 * n + 1) (2 ^ 161)

/-- A rational that every rounding to FP32 treats as the number. -/
def Surd.near (D : Rat) (a : Surd) : Rat :=
  if a.y.num = 0 then a.x
  else
    let p : Int := a.x.num * (a.y.den * D.den : Nat) * 2 ^ 160
    let z := (a.y.num.natAbs * a.x.den) * (a.y.num.natAbs * a.x.den) * (D.num.natAbs * D.den) * 2 ^ 320
    let q : Int := (a.x.den * a.y.den * D.den : Nat)
    let r : Int := isqrt (Nat.log2 z / 2 + 1) z 0
    between ((if a.y.num < 0 then p - r - 1 else p + r) / q)

/-- The roots of a * u^2 + b * u + c, with the D of their numbers; a and b are not both zero. -/
def quadRoots (a b c : Rat) : Rat × List Surd :=
  if a = 0 then (0, [⟨-c / b, 0⟩])
  else
    let D := b * b - 4 * a * c
    if D < 0 then (0, [])
    else match ratRoot D with
      | some r => (0, [⟨(-b - r) / (2 * a), 0⟩, ⟨(-b + r) / (2 * a), 0⟩])
      | none => (D, [⟨-b / (2 * a), -1 / (2 * a)⟩, ⟨-b / (2 * a), 1 / (2 * a)⟩])

/-- The distance of (u, v) from the unit square in the maximum norm. -/
def squareDist (D : Rat) (u v : Surd) : Surd :=
  let one : Surd := .ofRat 1
  let zero : Surd := .ofRat 0
  ((((zero.max D (zero.sub u)).max D (u.sub one)).max D (zero.sub v)).max D (v.sub one))

/-- Of two places, the one nearer the unit square; the smaller u and then v on a tie. -/
def nearerUV (D : Rat) (p q : Surd × Surd) : Surd × Surd :=
  let a := squareDist D p.1 p.2
  let b := squareDist D q.1 q.2
  if a.lt D b then p else if b.lt D a then q
  else if p.1.lt D q.1 then p else if q.1.lt D p.1 then q
  else if q.2.lt D p.2 then q else p

/-- How far a coordinate lies outside the unit interval. -/
def unitDist (u : Rat) : Rat := max 0 (max (-u) (u - 1))

/-- The (u, v) that map to a point of a quadrilateral's plane under bilinear interpolation, as R316 chooses among them. -/
def bilinearAt (vs : List (List Rat)) (p : List Rat) : Option (Rat × Surd × Surd) :=
  let V (n : Nat) : List Rat := vs.getD n []
  let a := vsub (V 1) (V 0)
  let b := vsub (V 3) (V 0)
  let g := vsub (vsub (V 2) (V 1)) b
  let e := vsub p (V 0)
  let qa := -cross2 a g
  let qb := cross2 e g - cross2 a b
  let qc := cross2 e b
  if qa = 0 ∧ qb = 0 then
    if qc ≠ 0 then none
    else
      -- every u solves it: a + v0 g = 0 and e = v0 b for one v0, and a second line u = u0 where b + u0 g = 0
      let v0 := vdot e b / vdot b b
      let onV : Surd × Surd := (.ofRat (-unitDist v0), .ofRat v0)
      let u0 := -(vdot b g) / vdot g g
      let onU : Surd × Surd := (.ofRat u0, .ofRat (-unitDist u0))
      let line := decide (at3 b 0 + u0 * at3 g 0 = 0 ∧ at3 b 1 + u0 * at3 g 1 = 0)
      let r := if line then nearerUV 0 onV onU else onV
      some (0, r.1, r.2)
  else
    let r := quadRoots qa qb qc
    let D := r.1
    let lift (c : List Rat) (d : List Rat) (u : Surd) (n : Nat) : Surd := (Surd.ofRat (at3 c n)).add (u.mul D (.ofRat (at3 d n)))
    let places := r.2.filterMap fun u =>
      let w0 := lift b g u 0
      let w1 := lift b g u 1
      let f0 := (lift e (a.map (- ·)) u 0)
      let f1 := (lift e (a.map (- ·)) u 1)
      let n := (w0.mul D w0).add (w1.mul D w1)
      if n.sign D == 0 then
        if f0.sign D == 0 && f1.sign D == 0 then some (u, Surd.ofRat (-unitDist (u.near D))) else none
      else some (u, ((f0.mul D w0).add (f1.mul D w1)).div D n)
    match places with
    | [] => none
    | x :: l => let y := l.foldl (nearerUV D) x; some (D, y.1, y.2)

/-- Twice the area of a projected polygon. -/
def area2 (vs : List (List Rat)) : Rat :=
  (List.range vs.length).foldl (fun acc n => acc + cross2 (vs.getD n []) (vs.getD ((n + 1) % vs.length) [])) 0

/-- The weights of a bilinear interpolation. -/
def bilinearWeights (vs : List (List Rat)) (p : List Rat) : Option (Rat × List Surd) :=
  if area2 vs = 0 then none
  else (bilinearAt vs p).map fun r =>
    let D := r.1
    let u := r.2.1
    let v := r.2.2
    let u' := (Surd.ofRat 1).sub u
    let v' := (Surd.ofRat 1).sub v
    (D, [u'.mul D v', u.mul D v', u.mul D v, u'.mul D v])

/-! ### Weights of triangles and tetrahedra (R316) -/

/-- The weights of a point in a projected triangle; none where its area is zero. -/
def triWeights (vs : List (List Rat)) (p : List Rat) : Option (List Rat) :=
  let V (n : Nat) : List Rat := vs.getD n []
  let s := cross2 (vsub (V 1) (V 0)) (vsub (V 2) (V 0))
  if s = 0 then none
  else
    let b := cross2 (vsub p (V 0)) (vsub (V 2) (V 0)) / s
    let c := cross2 (vsub (V 1) (V 0)) (vsub p (V 0)) / s
    some [1 - b - c, b, c]

/-- The weights of a point in a tetrahedron; none where its volume is zero. -/
def tetWeights (vs : List (List Rat)) (p : List Rat) : Option (List Rat) :=
  let e (n : Nat) : List Rat := vsub (vs.getD n []) (vs.getD 0 [])
  let q := vsub p (vs.getD 0 [])
  let s := vdot (e 1) (vcross (e 2) (e 3))
  if s = 0 then none
  else
    let b := vdot q (vcross (e 2) (e 3)) / s
    let c := vdot (e 1) (vcross q (e 3)) / s
    let d := vdot (e 1) (vcross (e 2) q) / s
    some [1 - b - c - d, b, c, d]

/-- The first list of weights that contains its point; else the first of those whose least weight is greatest. Pieces without weights
take no part (DEDUCED, notes/assumptions/27.md). -/
def bestWeights {α : Type} (l : List (List Rat × α)) : Option (List Rat × α) :=
  let least (w : List Rat) : Rat := w.foldl min (w.headD 0)
  match l.find? fun p => p.1.all fun w => 0 ≤ w with
  | some p => some p
  | none =>
    match l with
    | [] => none
    | x :: r => some (r.foldl (fun b p => if least b.1 < least p.1 then p else b) x)

/-- A sum of values with exact weights, rounded once. -/
def mixRat (ws : List Rat) (vs : List W32) : W32 :=
  xround .rne (sumExact (List.zipWith (fun w v => xmul (xrat w) (xrOf v)) ws vs)).1

/-- A sum of values with the weights of a bilinear interpolation, rounded once. -/
def mixSurd (D : Rat) (ws : List Surd) (vs : List W32) : W32 :=
  match rats (vs.map xrOf) with
  | some qs => xround .rne (xrat (((List.zipWith (fun w q => w.mul D (.ofRat q)) ws qs).foldl Surd.add (.ofRat 0)).near D))
  | none => xround .rne (sumExact (List.zipWith (fun w v => xmul (xrat (w.near D)) (xrOf v)) ws vs)).1

/-- The mean of values, rounded once. -/
def meanWord (vs : List XR) : W32 :=
  xround .rne (xover (sumExact (vs.map fun x => (x, 0))).1 (xrat (vs.length : Rat)))

/-- The parameters between which the line o + t d lies in a tetrahedron, where they differ. -/
def tetInterval (o d : List Rat) (vs : List (List Rat)) : Option (Rat × Rat) :=
  let V (n : Nat) : List Rat := vs.getD n []
  let side (a b c k : Nat) : Rat × Rat :=
    let n := vcross (vsub (V b) (V a)) (vsub (V c) (V a))
    let s : Rat := (ratSign (vdot n (vsub (V k) (V a))) : Rat)
    (s * vdot n (vsub o (V a)), s * vdot n d)
  let sides := [side 0 1 2 3, side 0 1 3 2, side 0 2 3 1, side 1 2 3 0]
  let r := sides.foldl (fun (acc : Bool × Option Rat × Option Rat) (h : Rat × Rat) =>
    let t := -h.1 / h.2
    if h.2 = 0 then (acc.1 && decide (0 ≤ h.1), acc.2)
    else if 0 < h.2 then (acc.1, some (match acc.2.1 with | some x => max x t | none => t), acc.2.2)
    else (acc.1, acc.2.1, some (match acc.2.2 with | some x => min x t | none => t))) (true, none, none)
  match r with
  | (true, some a, some b) => if a < b then some (a, b) else none
  | _ => none

/-! ### The crossing of R318 -/

/-- The crossing of a segment: its word t and its value. `first` holds for the first segment of the march, `prev` is the value at the
end of the segment before; a NaN in any of the values finds no crossing (notes/assumptions/28.md). -/
def isoHit (iso : XR) (first : Bool) (prev : XR) (t0w t1w f0w f1w : W32) : Option (W32 × W32) :=
  let t0 := xrOf t0w
  let t1 := xrOf t1w
  let f0 := xrOf f0w
  let f1 := xrOf f1w
  let sgn (a b : XR) : XR := xtimes (xminus a iso) (xminus b iso)
  if !first && prev.isNan then none
  else if first && xeq f0 iso then some (t0w, f0w)
  else if !first && !xeq prev iso && xle (sgn prev f0) (.zero false) then some (t0w, f0w)
  else if (xlt (sgn f0 f1) (.zero false) || (xeq f1 iso && !xeq f0 iso && !f0.isNan)) then
    if xeq t1 t0 then some (t0w, f1w)
    else if f0.isInf && f1.finite then some (t1w, f1w)
    else if f1.isInf then some (t0w, f0w)
    else
      let r := xrOf (xround .rne (xplus t0 (xover (xtimes (xminus iso f0) (xminus t1 t0)) (xminus f1 f0))))
      let th := xmin (xmax r t0) t1
      some (xround .rne th,
        xround .rne (xplus f0 (xover (xtimes (xminus f1 f0) (xminus th t0)) (xminus t1 t0))))
  else none

/-! ### The exponential of R319 -/

/-- A positive rational rounded down, or up, to a number of significant bits. -/
def cutBits (up : Bool) (p : Nat) (q : Rat) : Rat :=
  if q.num ≤ 0 then q
  else
    let t := floorLog2 q - p
    mkRat (roundNat (if up then .rup else .rtz) false (q * pow2 (-t))) 1 * pow2 t

/-- Partial sums of the exponential series of y, 0 ≤ y ≤ 1: k terms from number n, where term is y^n / n!, rounded one way. -/
def expSum (up : Bool) (p : Nat) (y : Rat) (k n : Nat) (term acc : Rat) : Rat :=
  match k with
  | 0 => if up then cutBits up p (acc + 2 * term) else acc
  | m + 1 => expSum up p y m (n + 1) (cutBits up p (term * y / (n + 1))) (cutBits up p (acc + term))

/-- A number squared k times, rounded one way. -/
def squareUp (up : Bool) (p k : Nat) (x : Rat) : Rat :=
  match k with
  | 0 => x
  | m + 1 => squareUp up p m (cutBits up p (x * x))

/-- Bounds of Exp(y) for 0 ≤ y < 1000, by p significant bits. -/
def expPos (p : Nat) (y : Rat) : Rat × Rat :=
  let r := y / (2 ^ 10 : Nat)
  let k := p / 2 + 8
  (squareUp false p 10 (expSum false p r k 0 1 0), squareUp true p 10 (expSum true p r k 0 1 0))

/-- Bounds strictly below and above Exp(x) for x ≠ 0. Beyond 1000 the bounds are those at which every rounding of R319 has settled. -/
def expBounds (p : Nat) (x : Rat) : Rat × Rat :=
  if 1000 ≤ x then (pow2 1400, pow2 100000)
  else if x ≤ -1000 then (0, pow2 (-1400))
  else if 0 < x then expPos p x
  else let r := expPos p (-x); (1 / r.2, 1 / r.1)

/-- The word that a number strictly between lo and hi rounds to, where the bounds decide it. -/
def decided (lo hi : Rat) : Option W32 :=
  let f (q : Rat) : Int := q.num / (q.den : Int)
  let a := f (lo * pow2 160)
  let b := -f (-(hi * pow2 160))
  if b ≤ a + 1 then some (xround .rne (xrat (between a)))
  else
    let big := pow2 130
    if big ≤ lo then some (xround .rne (.inf false)) else if hi ≤ -big then some (xround .rne (.inf true)) else none

/-- The word that a * Exp(x) + c rounds to, for a ≠ 0 and x ≠ 0, by bounds of growing precision. -/
def expMix (x a c : Rat) : W32 :=
  let tryAt (p : Nat) : Option W32 :=
    let e := expBounds p x
    let u := c + a * e.1
    let v := c + a * e.2
    decided (min u v) (max u v)
  match tryAt 400 with
  | some w => w
  | none => match tryAt 1200 with
    | some w => w
    | none => match tryAt 4000 with
      | some w => w
      | none => Config.expFallback a.num a.den (-x).num x.den c.num c.den

/-- One segment of R319: L and Tr after it. -/
def integrate (L Tr e0 k0 e1 k1 : W32) (t0 t1 : XR) : W32 × W32 :=
  let l := xrOf L
  let tr := xrOf Tr
  let half (a b : W32) : XR := xover (xplus (xrOf a) (xrOf b)) (xrat 2)
  let kb := half k0 k1
  let eb := half e0 e1
  let s := xminus t1 t0
  let tau := xtimes kb s
  let kzero := xeq kb (.zero false)
  let newL : W32 :=
    if kzero then xround .rne (xplus l (xtimes tr (xtimes eb s)))
    else
      match l.rat?, tr.rat?, eb.rat?, kb.rat?, tau.rat? with
      | some l', some tr', some eb', some kb', some x =>
        let m := tr' * eb' / kb'
        if x = 0 ∨ m = 0 then xround .rne l else expMix (-x) (-m) (l' + m)
      | _, _, _, _, _ =>
        xround .rne (xplus l (xtimes tr (xover (xtimes eb (xminus (xrat 1) (expSign tau))) kb)))
  let newTr : W32 :=
    match tr.rat?, tau.rat? with
    | some tr', some x => if x = 0 ∨ tr' = 0 then xround .rne tr else expMix (-x) tr' 0
    | _, _ => xround .rne (xtimes tr (expSign tau))
  (newL, newTr)
where
  /-- Exp(-tau) for a special tau; for a finite one a value on the same side of 1. -/
  expSign (tau : XR) : XR :=
    match tau with
    | .nan _ => .nan false
    | .inf n => if n then .inf false else .zero false
    | .zero _ => xrat 1
    | .num q => if q.num < 0 then xrat 2 else xrat (mkRat 1 2)

end Sys2Proof.Machine
end

