-- ==== Sys2Proof/Machine/Engine.lean ====
section
/-!
DEFINITION. What the engines share: place fields (spec/09_isa_memory_engines.md R259, R260; spec/19_translation_places.md R453,
R454), capabilities (spec/20_partitions_security.md R466 to R470), accesses of engines at the home slices, and their faults (17
R411, R419, R420).
-/

namespace Sys2Proof.Machine

/-! ### Places -/

/-- The kinds of a place field (09 R259). -/
def placeKind (p : W16) : Nat := (p.extractLsb' 12 4).toNat
/-- The logical index of a place field. -/
def placeIndex (p : W16) : Nat := (p.extractLsb' 0 12).toNat
/-- A place field. -/
def placeField (kind idx : Nat) : W16 := BitVec.ofNat 16 (4096 * kind + idx)

/-- The physical unit that a place-table entry names, numbered over the package (19 R453, R454). -/
def unitOf (kind : Nat) (e : W32) : Option Nat :=
  let die := (e.extractLsb' 16 2).toNat
  let u := (e.extractLsb' 0 16).toNat
  if !e.getLsbD 31 || e.extractLsb' 18 13 != 0 then none
  else match kind with
    | 1 => if u < 52 then some (52 * die + u) else none
    | 2 => if u < 13 then some (13 * die + u) else none
    | 3 => if u < 18 then some u else none
    | 4 => if u < 4096 then some u else none
    | 5 => if u < 64 then some u else none
    | 6 => if u < 64 then some u else none
    | 7 => if u < 9 then some (9 * die + u) else none
    | _ => none

/-- How many logical indices a kind can have (09 R259). -/
def placeLimit (kind : Nat) : Nat :=
  match kind with | 3 => 16 | 4 => 4096 | 5 => 64 | 6 => 64 | 7 => 32 | _ => 4096

/-- The place-table entry of a logical index (19 R453). -/
def State.placeEntry (s : State) (part kind idx : Nat) : W32 :=
  Store.get s.part.place 0 ((7 * part + kind - 1) * 4096 + idx)

/-- The physical unit of a logical index of a partition (09 R260). -/
def State.unit (s : State) (part kind idx : Nat) : Option Nat :=
  if idx < placeLimit kind then unitOf kind (s.placeEntry part kind idx) else none

/-- The unit of a place field whose kind is the one a form accepts (09 R260). -/
def State.place (s : State) (part kind : Nat) (p : W16) : Option Nat :=
  if placeKind p = kind then s.unit part kind (placeIndex p) else none

/-! ### Capabilities (20 R466 to R470) -/

/-- A capability as checked: base, length, permissions, compartment, and whether its tag is set and its RZ bits zero. -/
structure Cap where
  base : Int
  len : Nat
  r : Bool
  w : Bool
  comp : Nat
  good : Bool
  deriving DecidableEq, Repr

/-- The capability in 128 bits with a tag. -/
def capOf (x : W128) (tag : Bool) : Cap :=
  ⟨(x.extractLsb' 0 57).toInt, (x.extractLsb' 64 40).toNat, x.getLsbD 124, x.getLsbD 125, (x.extractLsb' 126 2).toNat,
    tag && x.extractLsb' 104 20 == 0 && x.extractLsb' 57 7 == 0⟩

/-- The range of offset o and extent n passes a capability's bounds and permissions, and its compartment unless a gate applies
(20 R468). -/
def Cap.passes (k : Cap) (c : Ctx) (o n : Nat) (need : Need) (gate : Bool) : Bool :=
  k.good && decide (o + n ≤ k.len) && (!need.r || k.r) && (!need.w || k.w) && (k.comp == c.comp || gate)

/-- The tag of a 16-byte unit of home memory. -/
def Mem.tag (m : Mem) (a : Nat) : Bool := Store.get m.tags false (a / 16)

/-- Entry i of a context's capability table, in sealed memory (20 R468, R473). -/
def State.tableCap (s : State) (c : Ctx) (i : Nat) : Cap :=
  let a := c.capTab.toNat + 16 * i
  if i < c.capCount then capOf (BitVec.ofNat 128 (s.mem.read a 16)) (s.mem.tag a) else ⟨0, 0, false, false, 0, false⟩

/-- The address that an engine derives from a record's address field, o bytes on and n bytes long: the field itself, or in a
protected context the capability reference (20 R468). -/
def State.engAddr (s : State) (c : Ctx) (field : W64) (o n : Nat) (need : Need) : Except AccFault W64 :=
  if !c.prot then .ok (field + BitVec.ofNat 64 o)
  else
    let i := (field.extractLsb' 52 12).toNat
    let off := (field.extractLsb' 0 52).toNat + o
    let k := s.tableCap c i
    if k.passes c off n need false then .ok (BitVec.ofInt 64 (k.base + off))
    else .error ⟨.capabilityFault, some 4, c.capTab + BitVec.ofNat 64 (16 * i), none⟩

/-! ### Accesses of engines -/

/-- The kind of fault record of an engine's fault (17 R419): translation, permission, poison, or engine. -/
def engKind (f : AccFault) : Nat :=
  match f.cause, f.kind with
  | .poisonData, _ => 3
  | _, some k => k
  | _, none => 4

/-- A range cut at page boundaries. -/
def pageParts (fuel va n : Nat) : List (Nat × Nat) :=
  match fuel with
  | 0 => []
  | k + 1 =>
    let room := 4096 - va % 4096
    if n = 0 then [] else if n ≤ room then [(va, n)] else (va, room) :: pageParts k (va + room) (n - room)

/-- A range of an address space lies under a lock that another copy holds. -/
def Mem.lockedOther (m : Mem) (own : Option Nat) (part asid a n : Nat) (destOnly : Bool) : Bool :=
  m.locks.any fun k => k.scratch.isNone && some k.copy != own && k.part == part && k.asid == asid && (k.dest || !destOnly) &&
    decide (k.lo < a + n ∧ a ≤ k.hi)

/-- The physical pieces of a range that an engine of a context may access: canonical form, translation, firewall, locks of other
copies, poison of what it reads (09 R233). -/
def State.engParts (s : State) (c : Ctx) (own : Option Nat) (va : W64) (n : Nat) (need : Need) : Except AccFault (List (Nat × Nat) × State) :=
  (pageParts (n / 4096 + 2) va.toNat n).foldl (fun r p =>
    match r with
    | .error f => .error f
    | .ok (l, s) =>
      let a : W64 := BitVec.ofNat 64 p.1
      if !canonical a then .error ⟨.addrFault, none, a, none⟩
      else match s.translate c p.1 need with
        | .error f => .error f
        | .ok (q, s) =>
          match s.barred c p.1 q with
          | some f => .error f
          | none =>
            if s.mem.lockedOther own c.part c.asid p.1 p.2 (!need.w) then .error ⟨.rangeLocked, none, a, none⟩
            else if need.r && s.mem.badRange q p.2 then .error ⟨.poisonData, some 3, a, none⟩
            else .ok (l ++ [(q, p.2)], s)) (.ok ([], s))

/-- The bytes of a list of physical pieces at the home slices. -/
def Mem.readParts (m : Mem) (l : List (Nat × Nat)) : Nat :=
  match l with
  | [] => 0
  | p :: r => m.read p.1 p.2 + 2 ^ (8 * p.2) * m.readParts r

/-- A value written to a list of physical pieces at the home slices. -/
def Mem.writeParts (m : Mem) (l : List (Nat × Nat)) (v : Nat) : Mem :=
  match l with
  | [] => m
  | p :: r => (m.writeNat p.1 p.2 v).writeParts r (v / 2 ^ (8 * p.2))

/-- An engine reads n bytes of a context's address space at the home slices. -/
def State.engRead (s : State) (c : Ctx) (own : Option Nat) (va : W64) (n : Nat) : Except AccFault (Nat × State) :=
  match s.engParts c own va n .load with
  | .error f => .error f
  | .ok (l, t) => .ok (t.mem.readParts l, t)

/-- An engine writes n bytes of a context's address space at the home slices. -/
def State.engWrite (s : State) (c : Ctx) (own : Option Nat) (va : W64) (n v : Nat) : Except AccFault State :=
  match s.engParts c own va n .store with
  | .error f => .error f
  | .ok (l, t) => .ok { t with mem := t.mem.writeParts l v }

/-- An engine reads n bytes that a record's address field names, o bytes on. -/
def State.engGet (s : State) (c : Ctx) (field : W64) (o n : Nat) : Except AccFault (Nat × State) :=
  match s.engAddr c field o n .load with
  | .error f => .error f
  | .ok a => s.engRead c none a n

/-- An engine writes n bytes that a record's address field names, o bytes on. -/
def State.engPut (s : State) (c : Ctx) (field : W64) (o n v : Nat) : Except AccFault State :=
  match s.engAddr c field o n .store with
  | .error f => .error f
  | .ok a => s.engWrite c none a n v

/-- A computation of an engine over the state; a fault comes with what its access needed. -/
abbrev EngM (α : Type) := StateT State (Except (AccFault × Need)) α

/-- The fault record of an engine's access (17 R419). -/
def State.engRecord (s : State) (c : Ctx) (agent : Nat) (place : W16) (f : AccFault) (need : Need) (sp : Space) : FaultReq :=
  ⟨c.part, c.asid, engKind f, agent, accField need sp, f.cause, f.cause, f.addr, if sp = .g then s.faultBits c f else 12, place.toNat, 0, 0, 0,
    f.addr, 0, f.stage2⟩

/-- The verdict on a fault: 0 while there is none, 1 RESOLVED, 2 FATAL (17 R420). -/
def State.verdictOf (s : State) (tok : Nat) : Nat := Store.get s.verdicts 0 tok

/-- An engine's wait on a verdict: over, still on, or FATAL. -/
inductive EngWait where
  | go | held | fatal
  deriving DecidableEq, Repr

/-- What an engine's outstanding fault allows. -/
def State.engWait (s : State) (tok : Option Nat) : EngWait :=
  match tok with
  | none => .go
  | some t => match s.verdictOf t with | 0 => .held | 1 => .go | _ => .fatal

/-- The context's engines may work: it is running (18 R433). -/
def Ctx.runs (c : Ctx) : Bool := c.used && c.run == .running

end Sys2Proof.Machine
end

