-- ==== Sys2Proof/Machine/Float.lean ====
section
/-!
DEFINITION. The floating-point forms (spec/06_isa_arithmetic.md R150 to R154).
-/

namespace Sys2Proof.Machine

/-- The issuing kernel is declared .ftz (05 R130). -/
def State.ftz (s : State) : Bool := s.curGroup.kernel.ftz

/-! ### Effects on one lane's sources -/

/-- A format's encoding with its sign inverted when n holds (06 R151: zeros and NaNs included). -/
def negBits (F : Fmt) (n : Bool) (x : Nat) : Nat := if n then F.withSign (!F.sign x) (F.absBits x) else x

/-- A source of a format: its low bits, flushed in FP32 under .ftz, negated where the variant says so. -/
def fsrc (F : Fmt) (ftz n : Bool) (x : Nat) : Nat :=
  negBits F n (if F = .f32 then ftzIn ftz (x % 2 ^ F.width) else x % 2 ^ F.width)

/-- An exact result rounded once (05 R128, R130). -/
def fround (F : Fmt) (ftz sat : Bool) (m : Rnd) (r : XR × W8) : Nat × W8 :=
  let q := roundFmt F m sat r.1
  let q := if F = .f32 then ftzOut ftz q else q
  (q.1, q.2 ||| r.2)

/-- fadd, hadd2 of one element -/
def opFadd (F : Fmt) (ftz : Bool) (m : AluMod) (a b : Nat) : Nat × W8 :=
  fround F ftz m.sat m.rnd (xadd m.rnd (F.dec (fsrc F ftz (m.var.getLsbD 0) a)) (F.dec (fsrc F ftz (m.var.getLsbD 1) b)))
/-- fsub -/
def opFsub (F : Fmt) (ftz : Bool) (m : AluMod) (a b : Nat) : Nat × W8 :=
  fround F ftz m.sat m.rnd
    (xadd m.rnd (F.dec (fsrc F ftz (m.var.getLsbD 0) a)) (F.dec (fsrc F ftz (m.var.getLsbD 1) b)).negate)
/-- fmul, hmul2 of one element -/
def opFmul (F : Fmt) (ftz : Bool) (m : AluMod) (a b : Nat) : Nat × W8 :=
  fround F ftz m.sat m.rnd (xmul (F.dec (fsrc F ftz (m.var.getLsbD 0) a)) (F.dec (fsrc F ftz (m.var.getLsbD 1) b)))
/-- ffma, hfma2 of one element -/
def opFfma (F : Fmt) (ftz : Bool) (m : AluMod) (a b c : Nat) : Nat × W8 :=
  fround F ftz m.sat m.rnd
    (xfma m.rnd (F.dec (fsrc F ftz (m.var.getLsbD 0) a)) (F.dec (fsrc F ftz (m.var.getLsbD 1) b))
      (F.dec (fsrc F ftz (m.var.getLsbD 2) c)))

/-- The order of fmin and fmax: -0 lies below +0 (06 R152). -/
def minOrder (F : Fmt) (x y : Nat) : Bool :=
  if F.absBits x = 0 ∧ F.absBits y = 0 then F.sign x && !F.sign y else xlt (F.dec x) (F.dec y)

/-- fmin and fmax of one element (06 R152). -/
def opFminmax (F : Fmt) (ftz isMax : Bool) (m : AluMod) (a b : Nat) : Nat × W8 :=
  let x := fsrc F ftz (m.var.getLsbD 0) a
  let y := fsrc F ftz (m.var.getLsbD 1) b
  let fl := sigNV [F.dec x, F.dec y]
  match (F.dec x).isNan, (F.dec y).isNan with
  | true, true => (F.nanBits, fl)
  | true, false => (y, fl)
  | false, true => (x, fl)
  | false, false => (if minOrder F x y != isMax then x else if minOrder F y x != isMax then y else x, fl)

/-- fcmp (06 R153): 0 eq, 1 ne, 2 lt, 3 le, 4 gt, 5 ge, 6 num, 7 nan. -/
def opFcmp (ftz : Bool) (cc : Nat) (a b : Nat) : Bool × W8 :=
  let x := Fmt.f32.dec (fsrc .f32 ftz false a)
  let y := Fmt.f32.dec (fsrc .f32 ftz false b)
  let nan := x.isNan || y.isNan
  let fl := if 2 ≤ cc ∧ cc ≤ 5 then flagIf nan flagNV else sigNV [x, y]
  let lt := xlt x y
  let gt := xlt y x
  let r :=
    match cc with
    | 0 => !nan && !lt && !gt
    | 1 => nan || lt || gt
    | 2 => !nan && lt
    | 3 => !nan && !gt
    | 4 => !nan && gt
    | 5 => !nan && !lt
    | 6 => !nan
    | _ => nan
  (r, fl)

/-- frnd (06 R154): an integral value in a direction, keeping the sign; no NX. -/
def opFrnd (ftz : Bool) (m : Rnd) (a : Nat) : Nat × W8 :=
  let x := fsrc .f32 ftz false a
  match Fmt.f32.dec x with
  | .nan s => (Fmt.f32.nanBits, flagIf s flagNV)
  | .num q => (Fmt.f32.enc (.ofRat (mkRat (roundInt m q) 1) (q.num < 0)), 0)
  | .inf _ => (x, 0)
  | .zero _ => (x, 0)

/-- fclass (06 R154): the one-hot class. -/
def opFclass (F : Fmt) (ftz : Bool) (a : Nat) : Nat :=
  let x := fsrc F ftz false a
  match F.dec x with
  | .nan s => if s then 1 else 2
  | .inf n => if n then 4 else 512
  | .zero n => if n then 32 else 64
  | .num q =>
    if q.num < 0 then (if F.isSub x then 16 else 8) else (if F.isSub x then 128 else 256)

/-- fcpsgn (06 R154). -/
def opFcpsgn (ftz : Bool) (m : AluMod) (a b : Nat) : Nat :=
  let x := fsrc .f32 ftz false a
  Fmt.f32.withSign (((m.var.getLsbD 1) && Fmt.f32.sign a) != (Fmt.f32.sign b != m.var.getLsbD 0)) (Fmt.f32.absBits x)

/-- Both halves of a packed form (06 R151): the results and the flags of both. -/
def bothHalves (op : (W32 → Nat) → Nat × W8) : W32 × W8 :=
  let lo := op fun x => x.toNat % 65536
  let hi := op fun x => x.toNat / 65536
  (BitVec.ofNat 32 (lo.1 + 65536 * hi.1), lo.2 ||| hi.2)

/-- The element format of a packed form. -/
def packedFmt (t : Ty) : Fmt := if t = .f16 then .f16 else .bf16

/-- A floating result as a register value. -/
def fval (r : Nat × W8) : AluOut := ⟨BitVec.ofNat 64 r.1, r.2, false⟩

/-! ### Meanings -/

/-- FADD (06 R151) -/
def execFadd (f : Full) (m : AluMod) (s : State) : Host.Outcome State Fault Refusal :=
  s.issue (.fadd f m) f fun s =>
    s.alu f false none fun l => fval (opFadd .f32 s.ftz m (s.src32 f f.a l).toNat (s.src32 f f.b l).toNat)

/-- FSUB (06 R151) -/
def execFsub (f : Full) (m : AluMod) (s : State) : Host.Outcome State Fault Refusal :=
  s.issue (.fsub f m) f fun s =>
    s.alu f false none fun l => fval (opFsub .f32 s.ftz m (s.src32 f f.a l).toNat (s.src32 f f.b l).toNat)

/-- FMUL (06 R151) -/
def execFmul (f : Full) (m : AluMod) (s : State) : Host.Outcome State Fault Refusal :=
  s.issue (.fmul f m) f fun s =>
    s.alu f false none fun l => fval (opFmul .f32 s.ftz m (s.src32 f f.a l).toNat (s.src32 f f.b l).toNat)

/-- FFMA (06 R151) -/
def execFfma (f : Full) (m : AluMod) (s : State) : Host.Outcome State Fault Refusal :=
  s.issue (.ffma f m) f fun s =>
    s.alu f false none fun l => fval (opFfma .f32 s.ftz m (s.src32 f f.a l).toNat (s.src32 f f.b l).toNat (s.src32 f f.c l).toNat)

/-- FMIN (06 R152) -/
def execFmin (f : Full) (m : AluMod) (s : State) : Host.Outcome State Fault Refusal :=
  s.issue (.fmin f m) f fun s =>
    s.alu f false none fun l => fval (opFminmax .f32 s.ftz false m (s.src32 f f.a l).toNat (s.src32 f f.b l).toNat)

/-- FMAX (06 R152) -/
def execFmax (f : Full) (m : AluMod) (s : State) : Host.Outcome State Fault Refusal :=
  s.issue (.fmax f m) f fun s =>
    s.alu f false none fun l => fval (opFminmax .f32 s.ftz true m (s.src32 f f.a l).toNat (s.src32 f f.b l).toNat)

/-- FCMP (06 R153): a predicate result -/
def execFcmp (f : Full) (m : AluMod) (p : Fin 8) (s : State) : Host.Outcome State Fault Refusal :=
  s.issue (.fcmp f m p) f fun s =>
    s.alu f false (some p.val) fun l => .ofPred (opFcmp s.ftz m.var.toNat (s.src32 f f.a l).toNat (s.src32 f f.b l).toNat)

/-- FRND (06 R154) -/
def execFrnd (f : Full) (m : AluMod) (s : State) : Host.Outcome State Fault Refusal :=
  s.issue (.frnd f m) f fun s =>
    s.alu f false none fun l => fval (opFrnd s.ftz m.rnd (s.src32 f f.a l).toNat)

/-- FCLASS (06 R154) -/
def execFclass (f : Full) (m : AluMod) (s : State) : Host.Outcome State Fault Refusal :=
  s.issue (.fclass f m) f fun s =>
    s.alu f false none fun l => .pure (BitVec.ofNat 64 (opFclass ((Fmt.ofTy m.ty).getD .f32) s.ftz (s.src32 f f.a l).toNat))

/-- FCPSGN (06 R154) -/
def execFcpsgn (f : Full) (m : AluMod) (s : State) : Host.Outcome State Fault Refusal :=
  s.issue (.fcpsgn f m) f fun s =>
    s.alu f false none fun l => .pure (BitVec.ofNat 64 (opFcpsgn s.ftz m (s.src32 f f.a l).toNat (s.src32 f f.b l).toNat))

/-- HADD2 (06 R151) -/
def execHadd2 (f : Full) (m : AluMod) (s : State) : Host.Outcome State Fault Refusal :=
  s.issue (.hadd2 f m) f fun s =>
    let F := packedFmt m.ty
    s.alu f false none fun l =>
      let r := bothHalves fun h => opFadd F false m (h (s.srcPacked F f f.a l)) (h (s.srcPacked F f f.b l))
      ⟨r.1.setWidth 64, r.2, false⟩

/-- HMUL2 (06 R151) -/
def execHmul2 (f : Full) (m : AluMod) (s : State) : Host.Outcome State Fault Refusal :=
  s.issue (.hmul2 f m) f fun s =>
    let F := packedFmt m.ty
    s.alu f false none fun l =>
      let r := bothHalves fun h => opFmul F false m (h (s.srcPacked F f f.a l)) (h (s.srcPacked F f f.b l))
      ⟨r.1.setWidth 64, r.2, false⟩

/-- HFMA2 (06 R151) -/
def execHfma2 (f : Full) (m : AluMod) (s : State) : Host.Outcome State Fault Refusal :=
  s.issue (.hfma2 f m) f fun s =>
    let F := packedFmt m.ty
    s.alu f false none fun l =>
      let r := bothHalves fun h => opFfma F false m (h (s.srcPacked F f f.a l)) (h (s.srcPacked F f f.b l)) (h (s.srcPacked F f f.c l))
      ⟨r.1.setWidth 64, r.2, false⟩

/-- HMIN2 (06 R152) -/
def execHmin2 (f : Full) (m : AluMod) (s : State) : Host.Outcome State Fault Refusal :=
  s.issue (.hmin2 f m) f fun s =>
    let F := packedFmt m.ty
    s.alu f false none fun l =>
      let r := bothHalves fun h => opFminmax F false false m (h (s.srcPacked F f f.a l)) (h (s.srcPacked F f f.b l))
      ⟨r.1.setWidth 64, r.2, false⟩

/-- HMAX2 (06 R152) -/
def execHmax2 (f : Full) (m : AluMod) (s : State) : Host.Outcome State Fault Refusal :=
  s.issue (.hmax2 f m) f fun s =>
    let F := packedFmt m.ty
    s.alu f false none fun l =>
      let r := bothHalves fun h => opFminmax F false true m (h (s.srcPacked F f f.a l)) (h (s.srcPacked F f f.b l))
      ⟨r.1.setWidth 64, r.2, false⟩

end Sys2Proof.Machine
end

