-- ==== Sys2Proof/Machine/MemForms.lean ====
section
/-!
DEFINITION. Loads, stores, atomics, reductions, fences, `wait` and `pf` (spec/09_isa_memory_engines.md R231 to R245).

DESIGN CHOICE: the value of a load is fixed when it issues and becomes visible at a marker (notes/assumptions/22.md).
-/

namespace Sys2Proof.Machine

/-! ### The frame (09 R231, R233) -/

/-- The guard-true lanes of a memory form that are live, and those that are helpers. -/
def State.helperLanes (s : State) (f : Full) : Lanes := s.gLanes f &&& ~~~s.liveMask

/-- Every live lane's access is checked before any takes effect; helper lanes with a fault drop out (02 R50). -/
def State.memForm (s : State) (f : Full) (sp : Space) (size : Nat) (need : Need) (ea : Nat → Int) (lvl : Nat → Nat)
    (helpers : Bool) (k : List (Nat × Spot) → State → State) : State :=
  let grp := s.cur.grp
  let acc (l : Nat) : Access := ⟨sp, ea l, size, need, lvl l⟩
  let r := s.spots grp s.agent acc (laneList (s.gLive f))
  match failing r.1 with
  | [] =>
    let h := if helpers then r.2.spots grp s.agent acc (laneList (s.helperLanes f)) else ([], r.2)
    k ((r.1 ++ h.1).filterMap fun p => match p.2 with | .ok q => some (p.1, q) | .error _ => none) h.2
  | l => s.accFail size sp need ea l

/-- The value of lane l in a list of results. -/
def laneVal (l : List (Nat × Nat)) (n : Nat) : Nat := Store.get l 0 n

/-! ### Loads and stores -/

/-- A loaded value as the words of the destination (09 R237). -/
def loadWords (acc : BitVec 3) (x : Nat) : List W32 :=
  match acc.toNat with
  | 0 => [BitVec.ofNat 32 x]
  | 1 => [BitVec.ofNat 32 x]
  | 2 => [BitVec.ofNat 32 x]
  | 3 => [BitVec.ofNat 32 x, BitVec.ofNat 32 (x / 2 ^ 32)]
  | 4 => [(BitVec.ofNat 8 x).signExtend 32]
  | _ => [(BitVec.ofNat 16 x).signExtend 32]

/-- The loads of a list of lanes, in order. -/
def State.loads (s : State) (a : Agent) (n : Nat) (m : MemMod) (l : List (Nat × Spot)) : List (Nat × Nat) × State :=
  l.foldl (fun (r : List (Nat × Nat) × State) p =>
    let x := r.2.loadAt s.cur.grp p.1 a p.2 n m
    (r.1 ++ [(p.1, x.1)], x.2)) ([], s)

/-- LD (09 R237) -/
def execLd (f : Full) (acc : BitVec 3) (m : MemMod) (off : BitVec 10) (s : State) : Host.Outcome State Fault Refusal :=
  s.issue (.ld f acc m off) f fun s =>
    let n := accSize acc
    s.memForm f m.space n .load (s.ea f m.space f.b n off) (fun _ => readLevel m) true fun l t =>
      let r := t.loads t.agent n m l
      (r.2.pendDst f.d (fun _ => .mem) false (s.gLanes f) fun k => loadWords acc (laneVal r.1 k)).advance

/-- ST (09 R237) -/
def execSt (f : Full) (acc : BitVec 3) (m : MemMod) (off : BitVec 10) (s : State) : Host.Outcome State Fault Refusal :=
  s.issue (.st f acc m off) f fun s =>
    let n := accSize acc
    s.memForm f m.space n .store (s.ea f m.space f.b n off) (fun l => s.writeLevel l m) false fun l t =>
      (l.foldl (fun t p => t.storeAt s.cur.grp p.1 s.agent p.2 n (s.src f f.d (acc == 3) p.1).toNat m) t).advance

/-! ### Atomics (09 R238 to R241) -/

/-- A BF16 subnormal replaced by a zero of its sign (05 R131). -/
def flushBF16 (x : Nat) : Nat := if Fmt.bf16.isSub x then Fmt.bf16.withSign (Fmt.bf16.sign x) 0 else x

/-- Halves combined by an operation on each. -/
def twoHalves (op : Nat → Nat → Nat) (a b : Nat) : Nat :=
  op (a % 65536) (b % 65536) + 65536 * op (a / 65536 % 65536) (b / 65536 % 65536)

/-- One half of .bfadd2 (09 R240). -/
def bfaddHalf (home : Bool) (x y : Nat) : Nat :=
  let fl (z : Nat) : Nat := if home then flushBF16 z else z
  fl (opFadd .bf16 false { plainMod with ty := .bf16 } (fl x) (fl y)).1
where
  plainMod : AluMod := ⟨0, false, .rne, .f32⟩

/-- A NaN replaced by the canonical one (09 R240). -/
def canonF32 (x : Nat) : Nat := if (Fmt.f32.dec x).isNan then Fmt.f32.nanBits else x

/-- A BF16 NaN replaced by the canonical one. -/
def canonBF16 (x : Nat) : Nat := if (Fmt.bf16.dec x).isNan then Fmt.bf16.nanBits else x

/-- The new value of an operation other than .cas; `home` holds at the home slice (09 R238, R240). -/
def atomNew (op : Nat) (home : Bool) (old v : Nat) : Nat :=
  let i32 (x : Nat) : Int := (BitVec.ofNat 32 x).toInt
  let i64 (x : Nat) : Int := (BitVec.ofNat 64 x).toInt
  let fm : AluMod := ⟨0, false, .rne, .f32⟩
  match op with
  | 0x00 => (old + v) % 2 ^ 32
  | 0x01 => (old + v) % 2 ^ 64
  | 0x02 => if i32 v < i32 old then v else old
  | 0x03 => if i64 v < i64 old then v else old
  | 0x04 => min old v
  | 0x05 => min old v
  | 0x06 => if i32 old < i32 v then v else old
  | 0x07 => if i64 old < i64 v then v else old
  | 0x08 => max old v
  | 0x09 => max old v
  | 0x0A => old &&& v
  | 0x0B => old &&& v
  | 0x0C => old ||| v
  | 0x0D => old ||| v
  | 0x0E => old ^^^ v
  | 0x0F => old ^^^ v
  | 0x14 => (opFadd .f32 false fm old v).1
  | 0x15 => (opFminmax .f32 false false fm old v).1
  | 0x16 => (opFminmax .f32 false true fm old v).1
  | 0x17 => twoHalves (bfaddHalf home) old v
  | _ => v

/-- The value that `atom` returns for an old value: NaNs of the floating operations canonical (09 R240). -/
def atomReturn (op old : Nat) : Nat :=
  match op with
  | 0x14 => canonF32 old
  | 0x15 => canonF32 old
  | 0x16 => canonF32 old
  | 0x17 => twoHalves (fun x _ => canonBF16 x) old 0
  | _ => old

/-- The register k places after the one an operand names. -/
def operandPlus (x : Operand) (k : Nat) : Operand :=
  match x with
  | .v n => .v (Fin.ofNat 768 (n.val + k))
  | .o n => .o (Fin.ofNat 32 (n.val + k))
  | .s n => .s (Fin.ofNat 64 (n.val + k))
  | .g n => .g (Fin.ofNat 32 (n.val + k))
  | x => x

/-- cmp and swap of `.cas` in a lane (09 R239). -/
def State.casPair (s : State) (f : Full) (wide : Bool) (lane : Nat) : Nat × Nat :=
  let k := if wide then 2 else 1
  ((s.src f f.b wide lane).toNat, (s.src f (operandPlus f.b k) wide lane).toNat)

/-- The operand of an atomic; `.bfadd2` reads packed 16-bit sources (04 R91). -/
def State.atomSrc (s : State) (f : Full) (x : Operand) (op : BitVec 5) (lane : Nat) : Nat :=
  if op = 0x17 then (s.srcPacked .bf16 f x lane).toNat else (s.src f x (atomWide op) lane).toNat

/-- What one lane's step stores, if it stores (09 R240). -/
def State.atomStep (s : State) (f : Full) (x : Operand) (op : BitVec 5) (home : Bool) (lane old : Nat) : Option Nat :=
  if op = 0x12 ∨ op = 0x13 then
    let p := s.casPair f (op == 0x13) lane
    if old = p.1 then some p.2 else none
  else some (atomNew op.toNat home old (s.atomSrc f x op lane))

/-- The size of an atomic operation's word. -/
def atomSize (op : BitVec 5) : Nat := if op = 0x13 ∨ atomWide op then 8 else 4

/-- One lane's read-modify-write at its place: the old value and the state after (09 R240, 08 R214, R215). -/
def State.rmwAt (s : State) (lane : Nat) (a : Agent) (p : Spot) (n : Nat) (m : MemMod) (step : Nat → Option Nat) : Nat × State :=
  let rel := s.releaseRank lane m
  let lvl := s.writeLevel lane m
  let grp := s.cur.grp
  let peek := (s.before a p n m none).readSpot grp a p n lvl
  let old := peek.1
  match step old with
  | none => (old, peek.2.afterRead lane a p n m lvl)
  | some v =>
    let s1 := (s.before a p n m rel).readSpot grp a p n lvl
    let s2 := s1.2.afterRead lane a p n m lvl
    (old, (s2.writeSpot grp a p n v lvl).afterWrite a p n m lvl rel true)

/-- A cluster cache can take k more lines and k more dirty lines without sending one back. -/
def Mem.spare (fuel : Nat) (m : Mem) (clu k : Nat) : Mem :=
  match fuel with
  | 0 => m
  | j + 1 =>
    if 8192 < (m.dirtyLines (.cc clu)).length + k then
      match m.oldest (.cc clu) with
      | some l => (m.sendCC clu l).spare j clu k
      | none => m
    else if 32768 < (m.cache (.cc clu)).length + k then
      match (m.cache (.cc clu))[Config.choice m.stamp % (m.cache (.cc clu)).length]? with
      | some l => (((m.sendCC clu l).dropLine (.cc clu) l.tag).tick).spare j clu k
      | none => m
    else m

/-- Before the first of an instruction's atomics at a cluster cache applies, the cache holds all their sectors, and room for all their dirty
lines (15 R386). -/
def State.gather (s : State) (a : Agent) (n : Nat) (l : List Spot) : State :=
  let ls := l.filterMap fun p => match p with | .g x => some x | _ => none
  match a.path, ls with
  | none, _ => s
  | _, [] => s
  | some (_, clu), _ =>
    let m := ls.foldl (fun m x => m.push a x 1) s.mem
    { s with mem := ls.foldl (fun m x => m.fillCC clu (a.tag x) (x.phys / 128) (x.va % 128) n) (m.spare 128 clu ls.length) }

/-- The steps of a list of lanes, in ascending order. -/
def State.rmws (s : State) (f : Full) (x : Operand) (op : BitVec 5) (m : MemMod) (l : List (Nat × Spot)) :
    List (Nat × Nat) × State :=
  let s := s.gather s.agent (atomSize op) ((l.filter fun p => s.writeLevel p.1 m == 1).map Prod.snd)
  l.foldl (fun (r : List (Nat × Nat) × State) p =>
    let home : Bool := m.space == .g && s.writeLevel p.1 m == 2
    let y := r.2.rmwAt p.1 s.agent p.2 (atomSize op) m (s.atomStep f x op home p.1)
    (r.1 ++ [(p.1, y.1)], y.2)) ([], s)

/-- ATOM (09 R240) -/
def execAtom (f : Full) (op : BitVec 5) (m : MemMod) (off : BitVec 10) (s : State) : Host.Outcome State Fault Refusal :=
  s.issue (.atom f op m off) f fun s =>
    let n := atomSize op
    s.memForm f m.space n .both (s.ea f m.space .null n off) (fun l => s.writeLevel l m) false fun l t =>
      let r := t.rmws f f.b op m l
      (r.2.pendDst f.d (fun _ => .mem) false (s.gLive f) fun k =>
        words64 (n == 8) (BitVec.ofNat 64 (atomReturn op.toNat (laneVal r.1 k)))).advance

/-- RED (09 R241) -/
def execRed (f : Full) (op : BitVec 5) (m : MemMod) (off : BitVec 10) (s : State) : Host.Outcome State Fault Refusal :=
  s.issue (.red f op m off) f fun s =>
    let n := atomSize op
    s.memForm f m.space n .both (s.ea f m.space f.b n off) (fun l => s.writeLevel l m) false fun l t =>
      (t.rmws f f.d op m l).2.advance

/-! ### Fences (09 R242) -/

/-- The earlier atomic reads of the lanes of an acquire fence become acquires at its scope (08 R206, R215). -/
def Mem.fenceAcquire (m : Mem) (a : Agent) (rs : List AcqRead) (lvl : Nat) : Mem :=
  (rs.foldl (fun m r => m.force r.caches r.ctx lvl) m).refresh a lvl

/-- The release side of a fence: later atomic writes of its lanes are releases (08 R206). -/
def State.fenceRelease (s : State) (lanes : Lanes) (rank : Nat) : State :=
  if s.cur.strm = .e then
    s.modCurWarp fun w =>
      { w with relScope := (laneList lanes).foldl (fun r l => Store.put r 0 l (max (Store.get r 0 l) (rank + 1))) w.relScope }
  else s.modStream s.cur.grp s.cur.strm fun y => { y with relScope := max y.relScope (rank + 1) }

/-- The acquire side of a fence, which waits for what a lock holds (08 R215, R230). A read forced as far as the home slices needs no later fence. -/
def State.fenceAcq (s : State) (lanes : Lanes) (rank : Nat) : State :=
  let lvl := levelOf rank
  let mine (r : AcqRead) : Bool := decide (s.cur.strm ≠ .e) || lanes.getLsbD r.lane
  let all := if s.cur.strm = .e then s.curWarp.acqs else s.curStream.acqs
  let x := s.mem.fenceAcquire s.agent (all.filter mine) lvl
  let s1 := ({ s with mem := x } : State).stickIf
    (decide (lvl = 2) && (all.filter mine).any fun r => x.owes (r.caches.map CacheId.cluster) (some r.ctx))
  let rest := if lvl = 2 then all.filter fun r => !mine r else all
  if s.cur.strm = .e then s1.modCurWarp fun w => { w with acqs := rest }
  else s1.modStream s.cur.grp s.cur.strm fun y => { y with acqs := rest }

/-- FENCE (09 R242). Of scope .core or wider it is also the fence of 08 R200. -/
def execFence (f : Full) (order : Order) (scope : Scope) (s : State) : Host.Outcome State Fault Refusal :=
  s.issue (.fence f order scope) f fun s =>
    let g := s.gLive f
    let rank := scopeRank scope
    if g = 0 then s.advance
    else
      let s1 := if orderRel order then s.fenceRelease g rank else s
      let s2 := if orderAcq order then s1.fenceAcq g rank else s1
      (if 1 ≤ rank then { s2 with mem := s2.mem.fenceShared s.agent } else s2).advance

/-! ### Waiting (09 R243, R244) -/

/-- The comparison of a `wait`, unsigned. -/
def waitCond (cond : BitVec 2) (x v : W64) : Bool :=
  match cond.toNat with
  | 0 => x == v
  | 1 => x != v
  | 2 => decide (v.toNat ≤ x.toNat)
  | _ => decide (x.toNat < v.toNat)

/-- The access of a waiting lane. -/
def LaneWait.access (w : LaneWait) : Access :=
  ⟨w.space, if w.space = .g then (w.addr.toNat : Int) else w.addr.toInt, if w.wide then 8 else 4, .load, levelOf w.rank⟩

/-- A waiting lane reads again: at a cache, a write has reached its word's line there since it read; at the home slices and in scratchpad a
read that nothing has changed finds what the last one found (09 R244). -/
def State.waitDue (s : State) (g : Nat) (w : LaneWait) : Bool :=
  let wrote (id : CacheId) (t : LineTag) : Bool := (s.mem.line id t).any fun l => decide (w.seen < l.wrote)
  w.got.isNone && match w.space, (s.group g).agent.path with
    | .g, some (core, clu) =>
      let t : LineTag := ⟨(s.group g).part, (s.group g).asid, w.addr.toNat / 128⟩
      if w.rank ≤ 1 then wrote (.l1 core) t else if w.rank = 2 then wrote (.cc clu) t else true
    | _, _ => true

/-- The modifiers of a `wait`'s read: an acquire at a scope of the given rank. -/
def waitMod (space : Space) (rank : Nat) : MemMod :=
  ⟨0, false, [Scope.grp, .core, .clu, .dev, .sys, .rem].getD rank .grp, .acq, space⟩

/-- A waiting lane reads its word, the first time or since a write reached it: satisfied, it acquires and keeps the value (08 R228). The first
read of a lane at .rem promotes, as any read at that scope does (08 R218). -/
def State.waitRead (s : State) (g : Nat) (first : Bool) (w : LaneWait) : LaneWait × State :=
  if !(first || s.waitDue g w) then (w, s)
  else
    match s.spot g (s.group g).agent w.access with
    | .error _ => (w, s)
    | .ok (p, t) =>
      let a := (s.group g).agent
      let n := w.access.size
      let m := waitMod w.space w.rank
      let peek := (if first then t.before a p n m none else t).readSpot g a p n w.access.lvl
      let again : LaneWait := { w with seen := if w.space = .g then peek.2.mem.stamp else w.seen }
      if waitCond w.cond (BitVec.ofNat 64 peek.1) w.v then
        let r := t.loadAt g w.lane a p n m
        if waitCond w.cond (BitVec.ofNat 64 r.1) w.v then ({ w with got := some (BitVec.ofNat 64 r.1) }, r.2) else (again, peek.2)
      else if first || (w.space = .g && decide (w.rank ≤ 2)) then (again, peek.2)
      else (w, s)

/-- Every lane of a list reads. -/
def State.waitReads (s : State) (g : Nat) (first : Bool) (ws : List LaneWait) : List LaneWait × State :=
  ws.foldl (fun (r : List LaneWait × State) w =>
    let x := r.2.waitRead g first w
    (r.1 ++ [x.1], x.2)) ([], s)

/-- The lanes of a `wait` as they first execute it. -/
def State.newWaits (s : State) (f : Full) (cond : BitVec 2) (wide : Bool) (scope : Scope) (space : Space) (off : BitVec 10)
    (lanes : List Nat) : List LaneWait :=
  let n := if wide then 8 else 4
  lanes.map fun l =>
    ⟨l, BitVec.ofInt 64 (s.ea f space .null n off l), space, wide, cond, s.src f f.b wide l, scopeRank scope, none, 0⟩

/-- The lanes that the issuing split holds in a `wait` it executes again. -/
def State.heldWaits (s : State) (f : Full) : List LaneWait :=
  match s.curWarp.splits.find? fun x => x.lanes == s.cur.lanes with
  | some x => (match x.wait with | .waitaddr ws => ws.filter fun w => (s.gLive f).getLsbD w.lane | _ => [])
  | none => []

/-- The value of a lane that has been satisfied. -/
def gotOf (ws : List LaneWait) (l : Nat) : W64 := ((ws.find? fun w => w.lane == l).bind (·.got)).getD 0

/-- WAIT (09 R244): lanes that do not wait at it yet are checked and read. -/
def execWait (f : Full) (cond : BitVec 2) (wide : Bool) (scope : Scope) (space : Space) (off : BitVec 10) (s : State) :
    Host.Outcome State Fault Refusal :=
  s.issue (.wait f cond wide scope space off) f fun s =>
    let n := if wide then 8 else 4
    let ea := s.ea f space .null n off
    let held := s.heldWaits f
    let todo := (laneList (s.gLive f)).filter fun l => held.all fun w => w.lane != l
    let c := s.spots s.cur.grp s.agent (fun l => ⟨space, ea l, n, .load, levelOf (scopeRank scope)⟩) todo
    match failing c.1 with
    | [] =>
      let r := c.2.waitReads s.cur.grp true (s.newWaits f cond wide scope space off todo)
      let ws := held ++ r.1
      if ws.all (·.got.isSome) then (r.2.writeDst f.d wide true (s.gLive f) (gotOf ws)).advance else r.2.park (.waitaddr ws)
    | l => s.accFail n space .load ea l

/-- WAIT_RECHECK (09 R244): a write to the word's line reached its meeting point. A lane that is now satisfied acquires, unless a lock holds
what it acquires; where a lane's access fails, the form executes again and meets the failure. -/
def execWaitRecheck (grp wid lane : Nat) (s : State) : Host.Outcome State Fault Refusal :=
  .next (match (s.warp grp wid).splits.find? fun x => x.lanes.getLsbD lane with
    | some sp =>
      match sp.wait with
      | .waitaddr ws =>
        let r := ({ s with cur := { s.cur with grp := grp, strm := .e, wid := wid, stuck := false } } : State).waitReads grp false ws
        let bad := ws.any fun w => s.waitDue grp w && match s.spot grp (s.group grp).agent w.access with | .error _ => true | .ok _ => false
        if r.2.cur.stuck then s
        else
          ({ r.2 with cur := s.cur } : State).modWarp grp wid fun w =>
            w.replaceSplit sp.lanes fun x => [{ x with wait := if bad then .ready else .waitaddr r.1 }]
      | _ => s
    | none => s)

/-- PF (09 R245): no access for any rule, and no trap but at decode. -/
def execPf (f : Full) (hint : BitVec 2) (off : BitVec 10) (s : State) : Host.Outcome State Fault Refusal :=
  s.issue (.pf f hint off) f fun s => s.advance

end Sys2Proof.Machine
end

