-- ==== Sys2Proof/Machine/Work.lean ====
section
/-!
DEFINITION. Hardware queues and their rings, the task forms, `hqget` and `hqput`, mailboxes and `upcall`, and the enqueue window
(spec/13_work_creation.md R358 to R360, R365 to R370; spec/09_isa_memory_engines.md R270 to R277; spec/07_isa_lanes_control.md
R181; spec/08_memory_model.md R500).
-/

namespace Sys2Proof.Machine

/-! ### Queue descriptors (13 R358) -/

/-- A queue descriptor's bytes. -/
abbrev QDesc := W512

/-- BASE -/
def qBase (d : QDesc) : W64 := d.extractLsb' 0 64
/-- BIND -/
def qBind (d : QDesc) : Nat := (d.extractLsb' 126 2).toNat
/-- BINDIDX -/
def qBindIdx (d : QDesc) : Nat := (d.extractLsb' 114 12).toNat
/-- KIND: 0 launch, 1 task, 2 port -/
def qKind (d : QDesc) : Nat := (d.extractLsb' 112 2).toNat
/-- SHARDS -/
def qShards (d : QDesc) : Nat := (d.extractLsb' 107 5).toNat
/-- LOG2CAP -/
def qLogCap (d : QDesc) : Nat := (d.extractLsb' 102 5).toNat
/-- HIGH -/
def qHigh (d : QDesc) : Nat := (d.extractLsb' 80 16).toNat
/-- LOW -/
def qLow (d : QDesc) : Nat := (d.extractLsb' 64 16).toNat
/-- TMO -/
def qTmo (d : QDesc) : Nat := (d.extractLsb' 128 32).toNat
/-- TEMPLATE -/
def qTemplate (d : QDesc) : W64 := d.extractLsb' 192 64
/-- The capacity in slots. -/
def qCap (d : QDesc) : Nat := 2 ^ qLogCap d
/-- The number of shards. -/
def qNum (d : QDesc) : Nat := 2 ^ qShards d
/-- The slots of one shard. -/
def qSlots (d : QDesc) : Nat := qCap d / qNum d

/-- The entry breaks a limit that R358 states; reserved bits are no limit (00 R7). -/
def qBad (d : QDesc) : Bool :=
  (qBase d).extractLsb' 0 6 != 0 || qBind d == 3 || qKind d == 3 || decide (5 < qShards d) || (qShards d != 0 && qKind d != 1) ||
    decide (16 < qLogCap d) || decide (qLogCap d < qShards d) || (qBind d == 2 && decide (3 < qBindIdx d))

/-- A descriptor as the table keeps it: reserved bits read zero (00 R7). -/
def qKeep (d : QDesc) : QDesc :=
  d &&& ~~~((BitVec.ofNat 512 0x3F <<< 96) ||| (BitVec.ofNat 512 0xFFFFFFFF <<< 160) ||| (BitVec.ofNat 512 (2 ^ 256 - 1) <<< 256))

/-- The descriptor of a physical queue. -/
def State.qdesc (s : State) (q : Nat) : QDesc := Store.get s.part.qtab 0 q

/-- The context that a queue, head or slot is bound to by BIND, if any (20 R473). -/
def State.boundTo (s : State) (kind unit : Nat) : Option Nat :=
  (s.sec.binds.find? fun b => b.1 == kind && b.2.1 == unit).map (·.2.2)

/-! ### Rings -/

/-- The head counter of a shard. -/
def State.qHead (s : State) (q sh : Nat) : W64 := Store.get s.work.heads 0 (32 * q + sh)
/-- The tail counter of a shard. -/
def State.qTail (s : State) (q sh : Nat) : W64 := Store.get s.work.tails 0 (32 * q + sh)
/-- The records of a shard. -/
def State.shardCount (s : State) (q sh : Nat) : Nat := (s.qTail q sh - s.qHead q sh).toNat
/-- The records of a queue. -/
def State.qCount (s : State) (q : Nat) : Nat :=
  (List.range (qNum (s.qdesc q))).foldl (fun n k => n + s.shardCount q k) 0
/-- A shard has a free slot. -/
def State.shardFree (s : State) (q sh : Nat) : Bool := decide (s.shardCount q sh < qSlots (s.qdesc q))

/-- The first shard from a number onward, cyclically, with a free slot (13 R360, R365). -/
def State.freeShard (s : State) (q sh : Nat) : Option Nat :=
  let n := qNum (s.qdesc q)
  ((List.range n).map fun k => (sh + k) % n).find? (s.shardFree q)

/-- The device address of n bytes at a virtual address of a context that it may access. -/
def State.ownPhys (s : State) (c : Ctx) (va : W64) (need : Need) : Option Nat :=
  if !canonical va then none
  else match s.translate c va.toNat need with
    | .error _ => none
    | .ok (p, _) => if (s.barred c va.toNat p).isNone then some p else none

/-- The physical address of the slot with a count in a shard of a partition's queue. BASE is a device physical address where it lies in device
memory, and otherwise a virtual address of the partition's lowest-numbered context that maps it; in a queue bound to a protected context it
is a capability reference (notes/assumptions/23.md). -/
def State.slotPhys (s : State) (part q sh : Nat) (count : W64) (need : Need) : Option Nat :=
  let d := s.qdesc q
  let o := 64 * (sh * qSlots d + count.toNat % qSlots d)
  match s.boundTo 4 q with
  | none =>
    let a := (qBase d).toNat + o
    if a < deviceTop then (if s.fwPass part none a then some a else none)
    else (s.ctxs.filter fun c => c.2.used && c.2.part == part && !c.2.prot).findSome? fun c =>
      s.ownPhys c.2 (BitVec.ofNat 64 a) need
  | some k =>
    match s.engAddr (s.ctx k) (qBase d) o 64 need with
    | .error _ => none
    | .ok va => s.ownPhys (s.ctx k) va need

/-- The queue can be used: its descriptor is within its limits and its ring can be reached (13 R358). -/
def State.qUsable (s : State) (part q : Nat) : Bool := !qBad (s.qdesc q) && (s.slotPhys part q 0 0 .both).isSome

/-- The tags of the four 16-byte units from a physical address. -/
def Mem.tags4 (m : Mem) (a : Nat) : BitVec 4 := BitVec.ofNat 4 ((List.range 4).foldl (fun n k => n + if m.tag (a + 16 * k) then 2 ^ k else 0) 0)

/-- The tags of four units set as given (20 R467). -/
def Mem.setTags4 (m : Mem) (a : Nat) (t : BitVec 4) : Mem :=
  (List.range 4).foldl (fun m k => if t.getLsbD k then { m with tags := Store.put m.tags false (a / 16 + k) true } else m) m

/-- A record enters a shard at its tail, which is its publication by an agent (13 R360; 08 R500). -/
def State.enqueue (s : State) (part q sh : Nat) (a : Agent) (rel : Bool) (r : W512) (t : BitVec 4) : State :=
  match s.slotPhys part q sh (s.qTail q sh) .store with
  | none => s
  | some p =>
    let m1 := (s.mem.writeNat p 64 r.toNat).setTags4 p t
    let m2 := if rel then m1.noteWrite a p 64 2 (some 3) false else m1.noteWrite a p 64 2 none false
    { s with mem := m2, work := { s.work with tails := Store.put s.work.tails 0 (32 * q + sh) (s.qTail q sh + 1) } }

/-- The record at the head of a shard. -/
def State.headRecord (s : State) (part q sh : Nat) : W512 :=
  match s.slotPhys part q sh (s.qHead q sh) .load with
  | some p => BitVec.ofNat 512 (s.mem.read p 64)
  | none => 0

/-- The claim of the record at the head of a shard must wait: a lock holds what its acquire forces to the home slices (08 R215 step 2). -/
def State.claimWaits (s : State) (part q sh : Nat) (a : Agent) : Bool :=
  match s.slotPhys part q sh (s.qHead q sh) .load with
  | none => false
  | some p => (s.mem.acquire a p 64 2).waits (s.mem.records a p 64) 2

/-- The record at the head of a shard is claimed: an acquire at .dev of its publication by an agent, and the slot frees. -/
def State.claim (s : State) (part q sh : Nat) (a : Agent) : W512 × State :=
  match s.slotPhys part q sh (s.qHead q sh) .load with
  | none => (0, s)
  | some p =>
    let m := s.mem.acquire a p 64 2
    (BitVec.ofNat 512 (m.read p 64),
      { s with mem := m, work := { s.work with heads := Store.put s.work.heads 0 (32 * q + sh) (s.qHead q sh + 1) } })

/-! ### Tasks (09 R271 to R274; 13 R365 to R367) -/

/-- The shard of an affinity address (13 R365). -/
def shardOf (bits : Nat) (aff : W64) : Nat :=
  if bits = 0 then 0
  else
    let x := (aff.extractLsb' 7 50).toNat
    (List.range (50 / bits + 1)).foldl (fun h k => h ^^^ (x / 2 ^ (bits * k) % 2 ^ bits)) 0

/-- The place field of a group's task node; 0 where it has none (13 R355). -/
def Group.taskPlace (x : Group) (n : Nat) : W16 := if n < 16 then x.tasks.extractLsb' (32 * n) 16 else 0

/-- The physical queue of a group's task node. -/
def State.taskQueue (s : State) (x : Group) (n : Nat) : Option Nat :=
  if x.taskPlace n = 0 then none else s.place x.part 4 (x.taskPlace n)

/-- The unused reservation of a group for a node. -/
def Group.resvOf (x : Group) (n : Nat) : Nat := Store.get x.resv 0 n

/-- The groups that exist: those resident and those in save areas. -/
def State.allGroups (s : State) : List Group :=
  (s.groups.map Prod.snd).filter (·.used) ++ s.ctxs.flatMap fun c => c.2.savedGroups.map Prod.snd

/-- The unused reservations that groups hold on a queue. -/
def State.reserved4 (s : State) (part q : Nat) : Nat :=
  s.allGroups.foldl (fun n x =>
    if x.part != part then n
    else (List.range 16).foldl (fun n k => if s.taskQueue x k == some q then n + x.resvOf k else n) n) 0

/-- A queue's load (13 R367). -/
def State.load (s : State) (part q : Nat) : Nat := s.qCount q + s.reserved4 part q

/-- TASK_BUDGET of the issuing form (09 R274). -/
def State.budgetTrap (s : State) (reason n : Nat) (m : Lanes) : State :=
  s.trap (s.mkTrap .taskBudget m (BitVec.ofNat 64 (reason + 256 * (n % 256))) (BitVec.ofNat 64 (s.curGroup.resvOf n)) 0 0)

/-- PLACE_UNMAPPED or ACCESS_PERM of the issuing form, with the place field (09 R260, R277). -/
def State.placeTrap (s : State) (c : Cause) (p : W16) (m : Lanes) : State := s.trap (s.mkTrap c m (p.setWidth 64) 0 0 0)

/-- A reservation is granted now: the whole of it fits (09 R271, 13 R367). -/
def State.canReserve (s : State) (g n count : Nat) : Bool :=
  match s.taskQueue (s.group g) n with
  | some q => decide (s.load (s.group g).part q + count ≤ qCap (s.qdesc q))
  | none => false

/-- The group's reservation grows. -/
def Group.reserve (x : Group) (n count : Nat) : Group := { x with resv := Store.put x.resv 0 n (x.resvOf n + count) }

/-- TRESERVE (09 R271) -/
def execTreserve (f : Full) (s : State) : Host.Outcome State Fault Refusal :=
  s.issue (.treserve f) f fun s =>
    match lowLane (s.gLive f) with
    | none => s.advance
    | some l =>
      let m := s.gLive f
      let n := (s.src32 f f.a l).toNat
      let count := (s.src32 f f.b l).toNat
      let x := s.curGroup
      if x.taskPlace n = 0 then s.budgetTrap 1 n m
      else match s.taskQueue x n with
        | none => s.placeTrap .placeUnmapped (x.taskPlace n) m
        | some q =>
          if qKind (s.qdesc q) ≠ 1 ∨ ¬ s.qUsable x.part q then s.placeTrap .accessPerm (x.taskPlace n) m
          else if qCap (s.qdesc q) < count then s.budgetTrap 2 n m
          else if x.tdone then s.budgetTrap 4 n m
          else if count = 0 then s.advance
          else if s.canReserve s.cur.grp n count then (s.modCur (·.reserve n count)).advance
          else (s.park (.taskres n count s.cur.npc)).markDone

/-- TRESERVE_GRANT (09 R271): a parked reservation is granted once it fits whole. -/
def execTreserveGrant (grp wid lane : Nat) (s : State) : Host.Outcome State Fault Refusal :=
  .next (match (s.warp grp wid).splits.find? fun x => x.lanes.getLsbD lane with
    | some sp =>
      match sp.wait with
      | .taskres n count next =>
        if s.canReserve grp n count then
          (s.modGroup grp (·.reserve n count)).modWarp grp wid fun w =>
            w.replaceSplit sp.lanes fun x => [{ x with wait := .ready, pc := next, bp := 0 }]
        else s
      | _ => s
    | none => s)

/-! ### Records of lanes -/

/-- A lane's record, read as R233 lays down, with the tags of its units. -/
structure LaneRec where
  lane : Nat
  key : Nat
  place : W16
  record : W512
  tags : BitVec 4
  deriving DecidableEq, Repr

/-- Why a lane's form fails: its cause, the first two TINFO values, and the fault of an access if one failed. -/
structure LaneErr where
  cause : Cause
  i0 : W64
  i1 : W64
  acc : Option AccFault
  deriving DecidableEq, Repr

/-- The address of a lane's record. -/
def State.recAddr (s : State) (f : Full) (x : Operand) (sp : Space) (l : Nat) : Int :=
  match sp with
  | .g => ((s.src f x true l).toNat : Int)
  | _ => ((s.src32 f x l).toNat : Int)

/-- 64 bytes of a lane's record, with their tags (09 R272, R276; 20 R467). Of a failing read's size TINFO0 has only four bits
(notes/assumptions/59.md). -/
def State.laneRecord (s : State) (sp : Space) (ea : Int) : Except LaneErr (W512 × BitVec 4 × State) :=
  match s.spot s.cur.grp s.agent ⟨sp, ea, 64, .load, 0⟩ with
  | .error f => .error ⟨f.cause, BitVec.ofNat 64 (16 * sp.code.toNat), BitVec.ofInt 64 ea, some f⟩
  | .ok (p, t) =>
    let r := t.readSpot s.cur.grp s.agent p 64 0
    let tags := match p with | .g l => r.2.mem.tags4 l.phys | _ => 0
    .ok (BitVec.ofNat 512 r.1, tags, r.2)

/-- The failure of a record form: the cause of the lowest failing lane, in the lanes that fail with it. -/
def State.recFail (s : State) (sp : Space) (l : List (Nat × LaneErr)) : State :=
  match l with
  | [] => s
  | (_, e) :: _ =>
    let m := l.foldl (fun acc p => if p.2.cause = e.cause then acc ||| laneBit p.1 else acc) 0
    let t := s.mkTrap e.cause m e.i0 e.i1 0 0
    match e.acc with
    | some f => s.accStop f (accField .load sp) t m
    | none => s.trap t

/-- Every lane's record, or the lanes that fail. -/
def State.laneRecords (s : State) (lanes : List Nat) (one : Nat → State → Except LaneErr (LaneRec × State)) :
    List LaneRec × List (Nat × LaneErr) × State :=
  lanes.foldl (fun (r : List LaneRec × List (Nat × LaneErr) × State) l =>
    match one l r.2.2 with
    | .ok (x, t) => (r.1 ++ [x], r.2.1, t)
    | .error e => (r.1, r.2.1 ++ [(l, e)], r.2.2)) ([], [], s)

/-! ### `tpost` and `tdone` -/

/-- How many of the lanes given name a node. -/
def State.postsTo (s : State) (f : Full) (n : Nat) : Nat := ((laneList (s.gLive f)).filter fun l => (s.src32 f f.a l).toNat == n).length

/-- Why a lane's post is refused before its record is read (09 R272, R274). -/
def State.postErr (s : State) (f : Full) (l : Nat) : Option (Nat × Nat) :=
  let n := (s.src32 f f.a l).toNat
  let x := s.curGroup
  if x.taskPlace n = 0 then some (1, n)
  else if x.resvOf n < s.postsTo f n then some (if x.tdone then 4 else 3, n)
  else if x.tdone then some (4, n)
  else none

/-- A lane's continuation record and its queue. AFF must be canonical (13 R365; the trap, notes/assumptions/60.md). -/
def State.postRecord (s : State) (f : Full) (sp : Space) (l : Nat) (t : State) : Except LaneErr (LaneRec × State) :=
  let n := (s.src32 f f.a l).toNat
  let p := s.curGroup.taskPlace n
  match s.taskQueue s.curGroup n with
  | none => .error ⟨.placeUnmapped, p.setWidth 64, 0, none⟩
  | some q =>
    if qKind (s.qdesc q) ≠ 1 ∨ ¬ s.qUsable s.curGroup.part q then .error ⟨.accessPerm, p.setWidth 64, 0, none⟩
    else match t.laneRecord sp (s.recAddr f f.b sp l) with
      | .error e => .error e
      | .ok (v, tags, t) =>
        if canonical (v.extractLsb' 0 64) then .ok (⟨l, n, p, v, tags⟩, t)
        else .error ⟨.addrFault, BitVec.ofNat 64 (16 * sp.code.toNat), v.extractLsb' 0 64, none⟩

/-- One record enters its shard, or the next with room, and uses one unit of the reservation (09 R272, 13 R365), which keeps a slot free for
it. -/
def State.post (s : State) (r : LaneRec) : State :=
  let x := s.curGroup
  match s.taskQueue x r.key with
  | none => s
  | some q =>
    match s.freeShard q (shardOf (qShards (s.qdesc q)) (r.record.extractLsb' 0 64)) with
    | none => s.stickIf true
    | some sh =>
      (s.enqueue x.part q sh s.agent true r.record r.tags).modCur fun x =>
        { x with resv := Store.put x.resv 0 r.key (x.resvOf r.key - 1) }

/-- TPOST (09 R272) -/
def execTpost (f : Full) (space : Space) (s : State) : Host.Outcome State Fault Refusal :=
  s.issue (.tpost f space) f fun s =>
    let ls := laneList (s.gLive f)
    match ls.findSome? fun l => (s.postErr f l).map fun e => (l, e) with
    | some (_, e) => s.budgetTrap e.1 e.2 (laneMask (s.gLive f) fun l => (s.postErr f l).isSome)
    | none =>
      let r := s.laneRecords ls (s.postRecord f space)
      match r.2.1 with
      | [] => (r.1.foldl State.post r.2.2).advance
      | l => s.recFail space l

/-- The group's posting is complete: unused reservations return (09 R273). -/
def Group.endPosting (x : Group) : Group := { x with tdone := true, resv := [] }

/-- TDONE (09 R273): the release that it makes is carried by the completion of the task node, before which every dirty line of the context is
written back (08 R224, R500). -/
def execTdone (f : Full) (s : State) : Host.Outcome State Fault Refusal :=
  s.issue (.tdone f) f fun s => if s.gLive f = 0 then s.advance else (s.modCur (·.endPosting)).advance

/-! ### `hqget` and `hqput` (09 R275 to R277) -/

/-- The physical queue that a lane's place field names, for a form that accepts some kinds. -/
def State.hqQueue (s : State) (kinds : List Nat) (p : W16) : Except LaneErr Nat :=
  match s.place s.curGroup.part 4 p with
  | none => .error ⟨.placeUnmapped, p.setWidth 64, 0, none⟩
  | some q =>
    if kinds.contains (qKind (s.qdesc q)) && s.qUsable s.curGroup.part q then .ok q
    else .error ⟨.accessPerm, p.setWidth 64, 0, none⟩

/-- The place field of a lane. -/
def State.placeArg (s : State) (f : Full) (l : Nat) : W16 := (s.src32 f f.a l).setWidth 16

/-- The sixteen words of a record. -/
def recordWords (r : W512) : List W32 := (List.range 16).map fun k => r.extractLsb' (32 * k) 32

/-- The lanes take records in ascending order, as far as there are any: what each obtained (09 R275). -/
def State.claims (s : State) (l : List (Nat × Nat)) : Store W512 × State :=
  l.foldl (fun (r : Store W512 × State) p =>
    if r.2.shardCount p.2 0 = 0 then r
    else
      let x := r.2.claim s.curGroup.part p.2 0 s.agent
      (r.1 ++ [(p.1, x.1)], x.2.stickIf (r.2.claimWaits s.curGroup.part p.2 0 s.agent))) ([], s)

/-- HQGET (09 R275) -/
def execHqget (f : Full) (s : State) : Host.Outcome State Fault Refusal :=
  s.issue (.hqget f) f fun s =>
    let r := s.laneRecords (laneList (s.gLive f)) fun l t =>
      (s.hqQueue [2] (s.placeArg f l)).map fun q => (⟨l, q, s.placeArg f l, 0, 0⟩, t)
    match r.2.1 with
    | [] =>
      let c := s.claims (r.1.map fun x => (x.lane, x.key))
      let got := laneMask (s.gLive f) fun l => c.1.any fun p => p.1 == l
      let stay := s.gLive f &&& ~~~got
      (c.2.pendDst f.d (fun _ => .mem) false got fun l => recordWords (Store.get c.1 0 l)).splitOff stay
        (.hqget ((r.1.filter fun x => stay.getLsbD x.lane).map (·.key)))
    | l => s.recFail .g l

/-- A lane's record and queue for `hqput`. -/
def State.putRecord (s : State) (f : Full) (sp : Space) (l : Nat) (t : State) : Except LaneErr (LaneRec × State) :=
  let p := s.placeArg f l
  match s.hqQueue [0, 2] p with
  | .error e => .error e
  | .ok q =>
    match t.laneRecord sp (s.recAddr f f.b sp l) with
    | .error e => .error e
    | .ok (v, tags, t) => .ok (⟨l, q, p, v, tags⟩, t)

/-- The order numbers of the enqueues held at a queue: from its window, and of `hqput` (09 R276, 13 R360). -/
def State.holdSeqs (s : State) (q : Nat) : List Nat :=
  ((s.work.holds.filter fun h => h.phys == q).map (·.seq)) ++
    s.groups.flatMap fun p => if !p.2.used then [] else p.2.warps.flatMap fun w => w.2.splits.flatMap fun y =>
      match y.wait with
      | .hqput hs _ => (hs.filter fun h => h.q == q).map (·.seq)
      | _ => []

/-- The records enter their queues in order, as far as there is room and nothing is held ahead of them; a queue once full holds its later
lanes (09 R276, 13 R360). -/
def State.puts (s : State) (qs : List Nat) (l : List LaneRec) : List HqHold × State :=
  l.foldl (fun (r : List HqHold × State) x =>
    if r.2.shardFree x.key 0 && (r.2.holdSeqs x.key).isEmpty && !(r.1.any fun h => h.q == x.key) then
      (r.1, r.2.enqueue s.curGroup.part x.key 0 s.agent true x.record x.tags)
    else (r.1 ++ [⟨x.lane, x.place, x.key, x.record, x.tags, qs, s.draws⟩], r.2)) ([], s)

/-- HQPUT (09 R276) -/
def execHqput (f : Full) (space : Space) (s : State) : Host.Outcome State Fault Refusal :=
  s.issue (.hqput f space) f fun s =>
    let r := s.laneRecords (laneList (s.gLive f)) (s.putRecord f space)
    match r.2.1 with
    | [] =>
      let p := r.2.2.puts (queuesOf f (shapeOf (.hqput f space))) r.1
      let stay := p.1.foldl (fun m h => m ||| laneBit h.lane) (0 : Lanes)
      let t := p.2.splitOff stay (.hqput p.1 s.cur.npc)
      if stay ≠ 0 ∧ s.cur.lanes &&& ~~~stay = 0 then { t.markDone with cur := { t.cur with done := true, lanes := 0 } } else t
    | l => s.recFail space l

/-- A held enqueue of a lane may be published: a slot is free, nothing reached its queue before it, and no lower lane of its form is held on the
same queue. -/
def State.canPublish (s : State) (hs : List HqHold) (h : HqHold) : Bool :=
  s.shardFree h.q 0 && (s.holdSeqs h.q).all (fun k => decide (h.seq ≤ k)) &&
    hs.all fun k => k.q != h.q || k.seq != h.seq || decide (h.lane ≤ k.lane)

/-- HQPUT_HOLD_RELEASE (09 R276): a held enqueue publishes, and its lane goes on. -/
def execHqputHoldRelease (grp wid lane : Nat) (s : State) : Host.Outcome State Fault Refusal :=
  .next (match (s.warp grp wid).splits.find? fun x => x.lanes.getLsbD lane with
    | some sp =>
      match sp.wait with
      | .hqput hs next =>
        match hs.find? fun h => h.lane == lane with
        | some h =>
          if s.canPublish hs h then
            let x := s.group grp
            let t := s.enqueue x.part h.q 0 x.agent true h.record h.tags
            let rest := hs.filter fun k => k.lane != lane
            t.modWarp grp wid fun y =>
              let w := h.pops.foldl (fun w q => w.modQueue q (·.popBy (laneBit lane) w.live fun _ => 1)) y
              { w with splits := regang (w.replaceSplit sp.lanes fun x =>
                  ([{ x with lanes := laneBit lane, wait := .ready, pc := next, bp := 0 },
                    { x with lanes := x.lanes &&& ~~~laneBit lane, wait := .hqput rest next }]).filter fun y => y.lanes != 0).splits }
          else s
        | none => s
      | _ => s
    | none => s)

/-! ### Mailboxes and upcalls (13 R369, R370; 07 R181) -/

/-- A mailbox table entry of a partition (20 R460). -/
def State.mbox (s : State) (part n : Nat) : W128 := Store.get s.part.mbox 0 (64 * part + n)
/-- MBASE -/
def mbBase (e : W128) : Nat := (e.extractLsb' 0 64).toNat
/-- LOG2N -/
def mbLog (e : W128) : Nat := (e.extractLsb' 64 5).toNat
/-- The mailbox is configured. -/
def State.mboxOk (s : State) (part n : Nat) : Bool :=
  let e := s.mbox part n
  decide (n < 64) && e.getLsbD 127 && decide (1 ≤ mbLog e ∧ mbLog e ≤ 16) && mbBase e % 4096 == 0

/-- The mailbox has room for an entry. -/
def State.mboxRoom (s : State) (part n : Nat) : Bool :=
  let b := mbBase (s.mbox part n)
  decide ((s.mem.read (b + 8) 8 + 2 ^ 64 - s.mem.read b 8) % 2 ^ 64 < 2 ^ mbLog (s.mbox part n))

/-- A release record kept beside those that a location carries: the device's advance of TAIL carries the releases of every entry
before it (13 R369, 08 R500). -/
def Mem.alsoRelease (m : Mem) (old : List RelRec) : Mem :=
  { m with rel := (old.filter fun r => !m.rel.contains r) ++ m.rel }

/-- An entry is written and TAIL advances (13 R369): the message, TOKEN, and the word at 0x48; `rel` is the agent whose lanes
released. -/
def State.mboxPost (s : State) (part n : Nat) (msg : W512) (token : W64) (who : Nat) (rel : Option Agent) : State :=
  let e := s.mbox part n
  let b := mbBase e
  let tail := s.mem.read (b + 8) 8
  let a := b + 128 + 128 * (tail % 2 ^ mbLog e)
  let old := s.mem.rel.filter fun r => r.addr == b + 8
  let m1 := (s.mem.writeNat a 128 (msg.toNat + token.toNat * 2 ^ 512 + who % 2 ^ 64 * 2 ^ 576)).writeNat (b + 8) 8 ((tail + 1) % 2 ^ 64)
  let m2 := match rel with
    | some ag => m1.publish ag (b + 8)
    | none => m1
  { s with mem := m2.alsoRelease old }

/-- CORE and WID of a mailbox entry. -/
def Group.whoWord (x : Group) (wid : Nat) : Nat := x.core % 65536 + 65536 * (wid % 16)

/-- The next TOKEN: a value of its own (13 R369). -/
def State.token (s : State) : W64 := Config.tokenMask ^^^ BitVec.ofNat 64 s.nextTok

/-- An upcall of a warp is posted where its mailbox has room. -/
def State.postUpcall (s : State) (g w : Nat) : State :=
  match (s.warp g w).ups.find? fun u => !u.posted with
  | none => s
  | some u =>
    let x := s.group g
    if !s.mboxRoom x.part u.mbox then s
    else
      (s.mboxPost x.part u.mbox u.msg u.token (x.whoWord w) (some x.agent)).modWarp g w fun y =>
        { y with ups := y.ups.map fun v => if v.token = u.token then { v with posted := true } else v }

/-- UPCALL (07 R181), its checks in their order: the mailbox, the alignment, the read. The slot's result is pending until the reply lands, and none of the warp's splits issues. -/
def execUpcall (f : Full) (s : State) : Host.Outcome State Fault Refusal :=
  s.issue (.upcall f) f fun s =>
    let m := s.gLive f
    match lowLane m with
    | none => s.advance
    | some l =>
      let x := s.curGroup
      let n := (s.src32 f f.a l).toNat
      let ea := ((s.src f f.b true l).toNat : Int)
      if !s.mboxOk x.part n then s.trap (s.mkTrap .upcallFail m (BitVec.ofNat 64 n) 0 0 0)
      else if ea % 64 ≠ 0 then s.recFail .g [(l, ⟨.misalignedAccess, 0, BitVec.ofInt 64 ea, none⟩)]
      else match s.laneRecord .g ea with
        | .error e => s.recFail .g [(l, e)]
        | .ok (v, _, t) =>
          let tok := t.token
          let t1 := { t with nextTok := t.nextTok + 1 }
          let t2 := t1.pendDst f.d (fun _ => .upcall tok) false m fun _ => [0, 0]
          let t3 := t2.modCurWarp fun w => { w with ups := w.ups ++ [⟨tok, m, n, v, false, s.cur.pc, true⟩] }
          (t3.postUpcall s.cur.grp s.cur.wid).advance

/-- UPCALL_POST (07 R181): a held upcall is posted once the mailbox has room. -/
def execUpcallPost (grp wid : Nat) (s : State) : Host.Outcome State Fault Refusal := .next (s.postUpcall grp wid)

/-- The reply reaches the pending elements of its upcall, low word in the even register, and the warp waits for it no longer. -/
def Warp.takeReply (w : Warp) (tok v : W64) : Warp :=
  { w with
    ups := w.ups.filter fun u => u.token != tok
    pend := w.pend.map fun p =>
      if p.kind = .upcall tok then
        { p with val := if p.reg % 2 = 0 then v.setWidth 32 else v.extractLsb' 32 32, landed := true }
      else p }

/-- Some warp of the group waits for the token. -/
def Group.awaits (x : Group) (tok : W64) : Bool := x.warps.any fun p => p.2.ups.any fun u => u.token == tok && u.posted

/-- A group takes a reply. -/
def Group.takeReply (x : Group) (tok v : W64) : Group := { x with warps := x.warps.map fun p => (p.1, p.2.takeReply tok v) }

/-- A reply to an upcall (07 R181, 13 R370): an acquire at .dev; in a context that is switched out it enters the saved group; a
token that no warp waits for is discarded. -/
def State.deliverReply (s : State) (part : Nat) (tok v : W64) : State :=
  match s.groups.find? fun p => p.2.used && p.2.part == part && p.2.awaits tok with
  | some (g, x) =>
    let s1 := s.modGroup g (·.takeReply tok v)
    { s1 with mem := s1.mem.refresh x.agent 2 }
  | none =>
    { s with ctxs := s.ctxs.map fun c =>
        if c.2.part = part then (c.1, { c.2 with savedGroups := c.2.savedGroups.map fun y => (y.1, y.2.takeReply tok v) }) else c }

/-! ### The enqueue window (13 R359, R360) -/

/-- The key of an enqueue-window area. -/
def stageKey (part queue hart : Nat) : Nat := 32 * (4096 * part + queue) + hart

/-- The record that a doorbell copies: STAGE where a fence precedes the AMO, else of each byte what is staged or something that was staged before
(13 R360; 08 R211). -/
def State.staged (s : State) (key : Nat) (fenced : Bool) : W512 :=
  let r := Store.get s.work.stage 0 key
  if fenced then r
  else
    let old := (Store.get s.work.stageOld [] key).zipIdx
    BitVec.ofNat 512 ((List.range 64).foldl (fun n k =>
      n + 2 ^ (8 * k) * ((old.foldl (fun b o => if Config.choiceAt s.draws (64 * o.2 + k) then o.1 else b) r).extractLsb' (8 * k) 8).toNat) 0)

/-- The AMO on a doorbell returns a value. -/
def State.answer (s : State) (key : Nat) (v : W64) : State :=
  { s with work := { s.work with answers := Store.put s.work.answers 0 key v } }

/-- The shard an enqueue starts from. -/
def startShard (d : QDesc) (r : W512) : Nat := if qKind d = 1 then shardOf (qShards d) (r.extractLsb' 0 64) else 0

/-- The shard that an enqueue of R360 enters, if one has a free slot. The slots that granted reservations of a task queue need are not free
(09 R271, R272; notes/assumptions/61.md). -/
def State.windowShard (s : State) (part q : Nat) (r : W512) : Option Nat :=
  if qKind (s.qdesc q) = 1 ∧ qCap (s.qdesc q) ≤ s.load part q then none else s.freeShard q (startShard (s.qdesc q) r)

/-- The enqueue of R360 where a shard has room. -/
def State.windowPut (s : State) (part queue q hart : Nat) (fenced : Bool) : Option State :=
  let key := stageKey part queue hart
  let r := s.staged key fenced
  match s.windowShard part q r with
  | none => none
  | some sh =>
    let old := s.qTail q sh
    let t := ((s.enqueue part q sh ⟨part, 0, none⟩ fenced r 0).answer key old).draw
    some (if fenced then { t with work := { t.work with stageOld := Store.erase t.work.stageOld key } } else t)

/-- The window's holds of a hart on a queue. -/
def State.holdOf (s : State) (part queue hart : Nat) : Option Hold :=
  s.work.holds.find? fun h => h.part == part && h.queue == queue && h.hart == hart

/-- The holds without one. -/
def State.dropHold (s : State) (part queue hart : Nat) : State :=
  { s with work := { s.work with holds := s.work.holds.filter fun h => !(h.part == part && h.queue == queue && h.hart == hart) } }

/-- An AMO on a doorbell, of a hart that is not already held (13 R360). -/
def State.doorbell (s : State) (part queue hart : Nat) (addend : W64) (fenced : Bool) : State :=
  let key := stageKey part queue hart
  if (s.holdOf part queue hart).isSome ∨ 32 ≤ hart then s
  else match s.unit part 4 queue with
    | none => s.answer key 0xFFFFFFFFFFFFFFFE
    | some q =>
      if addend ≠ 1 ∨ ¬ s.qUsable part q then s.answer key 0xFFFFFFFFFFFFFFFE
      else match (if (s.holdSeqs q).isEmpty then s.windowPut part queue q hart fenced else none) with
        | some t => t
        | none => ({ s with work := { s.work with holds := s.work.holds ++ [Hold.mk part queue q hart fenced s.draws] } } : State).draw

/-- DOORBELL (13 R360) -/
def execDoorbell (part queue hart : Nat) (addend : W64) (fenced : Bool) (s : State) : Host.Outcome State Fault Refusal :=
  .next (s.doorbell part queue hart addend fenced)

/-- A window's held enqueue is the first at its queue. -/
def State.holdFirst (s : State) (h : Hold) : Bool := (s.holdSeqs h.phys).all fun k => decide (h.seq ≤ k)

/-- ENQUEUE_HOLD_RELEASE (13 R360): a held enqueue goes on once a slot is free; holds enter in the order they reached the slice. -/
def execEnqueueHoldRelease (part queue hart : Nat) (s : State) : Host.Outcome State Fault Refusal :=
  .next (match s.holdOf part queue hart with
    | none => s
    | some h =>
      if !s.holdFirst h then s
      else match s.windowPut part queue h.phys hart h.fenced with
        | some t => t.dropHold part queue hart
        | none => s)

/-- ENQUEUE_HOLD_TIMEOUT (13 R360): a hold whose queue has a limit runs out; nothing is enqueued. -/
def execEnqueueHoldTimeout (part queue hart : Nat) (s : State) : Host.Outcome State Fault Refusal :=
  .next (match s.holdOf part queue hart with
    | none => s
    | some h =>
      if qTmo (s.qdesc h.phys) = 0 ∨ (s.holdFirst h && (s.windowPut part queue h.phys hart h.fenced).isSome) then s
      else (s.dropHold part queue hart).answer (stageKey part queue hart) 0xFFFFFFFFFFFFFFFF)

end Sys2Proof.Machine
end

