-- ==== Sys2Proof/Machine/Raster.lean ====
section
/-!
DEFINITION. Draw and reprojection records (spec/12_graphics_pipeline.md R333 to R344): claims of the units, tiles, completion words.

DESIGN CHOICE: the manual names no address space for a record of a queue that is not bound; it takes one of its partition's running
contexts (notes/assumptions/30.md).
-/

namespace Sys2Proof.Machine

/-! ### Records -/

/-- The record with a number. -/
def State.drawRec (s : State) (id : Nat) : Draw := Store.get s.eng.draws Draw.blank id
/-- The state with a record replaced. -/
def State.setDraw (s : State) (id : Nat) (d : Draw) : State :=
  { s with eng := { s.eng with draws := Store.put s.eng.draws Draw.blank id d } }
/-- The 64-bit field at word k of a record. -/
def recWord (r : W512) (k : Nat) : W64 := r.extractLsb' (64 * k) 64
/-- KIND (R333) -/
def recKind (r : W512) : Nat := (r.extractLsb' 508 4).toNat
/-- The completion word's address; 0 for none (R333). -/
def recCompletion (r : W512) : W64 := ((r.extractLsb' 448 54) ++ 0#3).signExtend 64

/-- Buffer width and height of a record. -/
def recSize (repro : Bool) (r : W512) : Nat × Nat :=
  if repro then ((r.extractLsb' 384 16).toNat, (r.extractLsb' 400 16).toNat)
  else ((r.extractLsb' 192 16).toNat, (r.extractLsb' 208 16).toNat)

/-- The rectangle a record works on: first column and row, and those after the last. -/
def recRect (repro : Bool) (r : W512) : (Nat × Nat) × (Nat × Nat) :=
  let wh := recSize repro r
  if repro then ((0, 0), wh)
  else
    let f (k : Nat) : Nat := (r.extractLsb' (256 + 16 * k) 16).toNat
    ((f 0, f 1), (min (f 2) wh.1, min (f 3) wh.2))

/-- The fields of a record break a limit, or its KIND is not its unit's (R333 to R335, R343). -/
def recBad (repro : Bool) (r : W512) : Bool :=
  let mis (k n : Nat) : Bool := (recWord r k).toNat % n != 0
  if repro then
    let tol := xrOf (r.extractLsb' 416 32)
    recKind r != 1 || mis 0 128 || mis 1 128 || mis 5 8 || !xle (.zero false) tol
  else recKind r != 0 || mis 0 16 || mis 1 128 || (recSize false r).1 == 0 || (recSize false r).2 == 0

/-- The tiles of 64 by 64 pixels, aligned to the buffer's origin, that a record's rectangle meets: columns, then rows (R339). -/
def recTiles (repro : Bool) (r : W512) : (Nat × Nat) × (Nat × Nat) :=
  let q := recRect repro r
  if q.2.1 ≤ q.1.1 ∨ q.2.2 ≤ q.1.2 then ((0, 0), (0, 0))
  else ((q.1.1 / 64, (q.2.1 - 1) / 64 - q.1.1 / 64 + 1), (q.1.2 / 64, (q.2.2 - 1) / 64 - q.1.2 / 64 + 1))

/-- The pixels of a tile by number, row by row. -/
def recPixels (repro : Bool) (r : W512) (tile : Nat) : List (Nat × Nat) :=
  let t := recTiles repro r
  let q := recRect repro r
  let tx := t.1.1 + tile % t.1.2
  let ty := t.2.1 + tile / t.1.2
  (List.range 64).flatMap fun j => (List.range 64).filterMap fun i =>
    let x := 64 * tx + i
    let y := 64 * ty + j
    if q.1.1 ≤ x ∧ x < q.2.1 ∧ q.1.2 ≤ y ∧ y < q.2.2 then some (x, y) else none

/-! ### Accesses -/

/-- The context of a record. -/
def State.drawCtx (s : State) (d : Draw) : Ctx := s.ctx (ctxKey d.part d.asid)

/-- n bytes that a record's field names, o bytes on. -/
def Draw.get (d : Draw) (field : W64) (o n : Nat) : EngM Nat := fun s => (s.engGet (s.drawCtx d) field o n).mapError fun f => (f, .load)
/-- A value written where a record's field names, o bytes on. -/
def Draw.put (d : Draw) (field : W64) (o n v : Nat) : EngM Unit := fun s =>
  match s.engPut (s.drawCtx d) field o n v with
  | .ok t => .ok ((), t)
  | .error f => .error (f, .store)
/-- The minimum of a 64-bit word and a candidate stored at the home slice (R337, R353). -/
def Draw.redMin (d : Draw) (field : W64) (o v : Nat) : EngM Unit := fun s =>
  let c := s.drawCtx d
  match s.engAddr c field o 8 .both with
  | .error f => .error (f, .both)
  | .ok a =>
    match s.engParts c none a 8 .both with
    | .error f => .error (f, .both)
    | .ok (l, t) => .ok ((), { t with mem := t.mem.writeParts l (min v (t.mem.readParts l)) })

/-! ### Triangles (R336, R337) -/

/-- A triangle as three vertices of X, Y and Z; none where a coordinate is not finite. -/
def triangleOf (x : Nat) : Option (List (List Rat)) :=
  (List.range 3).mapM fun v => (List.range 3).mapM fun k => (xrOf (BitVec.ofNat 32 (x / 2 ^ (128 * v + 32 * k)))).rat?

/-- The vertices in the order of a positive area, and that area; none where the triangle is discarded (R336). -/
def orientTriangle (cullF cullB : Bool) (vs : List (List Rat)) : Option (List (List Rat) × Rat) :=
  let V (n : Nat) : List Rat := vs.getD n []
  let A := cross2 (vsub (V 1) (V 0)) (vsub (V 2) (V 0))
  if A = 0 ∨ (0 < A ∧ cullF) ∨ (A < 0 ∧ cullB) then none
  else if A < 0 then some ([V 0, V 2, V 1], -A) else some (vs, A)

/-- The depth word of a pixel that an oriented triangle covers, if it lies in [0, 1] (R336, R337). -/
def pixelDepth (vs : List (List Rat)) (A : Rat) (x y : Nat) : Option W32 :=
  let V (n : Nat) : List Rat := vs.getD (n % 3) []
  let c : List Rat := [mkRat (2 * x + 1) 2, mkRat (2 * y + 1) 2]
  let e (n : Nat) : Rat := cross2 (vsub (V (n + 1)) (V n)) (vsub c (V n))
  let covers (n : Nat) : Bool := decide (0 < e n) || (decide (e n = 0) && ownsEdge (V n) (V (n + 1)))
  if (List.range 3).all covers then
    -- the weight of a vertex is the edge function opposite to it over the area
    let z := xround .rne (xrat ((e 1 * at3 (V 0) 2 + e 2 * at3 (V 1) 2 + e 0 * at3 (V 2) 2) / A))
    let z := if z = 0x80000000 then 0 else z
    if z.toNat ≤ 0x3F800000 then some z else none
  else none

/-- All triangles of a draw over one tile (R336 to R339). -/
def Draw.rasterTile (d : Draw) : EngM Unit := do
  let r := d.record
  let w1 := recWord r 2
  let vw := (recSize false r).1
  let px := recPixels false r d.tile
  (List.range ((w1.extractLsb' 0 20).toNat + 1)).foldlM (fun _ k => do
    let x ← d.get (recWord r 0) (48 * k) 48
    match (triangleOf x).bind (orientTriangle (w1.getLsbD 37) (w1.getLsbD 36)) with
    | none => pure ()
    | some (vs, A) =>
      px.foldlM (fun _ p =>
        match pixelDepth vs A p.1 p.2 with
        | none => pure ()
        | some z => d.redMin (recWord r 1) (8 * (p.2 * vw + p.1))
            (z.toNat * 2 ^ 32 + (w1.extractLsb' 20 12).toNat * 2 ^ 20 + k)) ()) ()

/-! ### Reprojection (R344) -/

/-- A pixel's place in the previous frame, where it has one (R344). -/
def reprojectTo (w h x y mv : Nat) : Option (Nat × Nat) :=
  match (Fmt.f16.dec (mv % 65536)).rat?, (Fmt.f16.dec (mv / 65536 % 65536)).rat? with
  | some mx, some my =>
    let f (q : Rat) : Int := q.num / (q.den : Int)
    let qx := f (mkRat (2 * x + 1) 2 + mx)
    let qy := f (mkRat (2 * y + 1) 2 + my)
    if 0 ≤ qx ∧ qx < w ∧ 0 ≤ qy ∧ qy < h then some (qx.toNat, qy.toNat) else none
  | _, _ => none

/-- The magnitude of a value. -/
def xabs (x : XR) : XR := match x with | .num q => xrat (ratAbs q) | .inf _ => .inf false | .zero _ => .zero false | x => x

/-- The depths differ by more than the tolerance, or the previous one is a NaN (R344). -/
def depthDiffers (zp z tol : XR) : Bool :=
  zp.isNan || xlt (xtimes tol (xmax (xabs z) (xabs zp))) (xabs (xminus zp z))

/-- One pixel: its colour where it is carried, and its redo bit. -/
def Draw.reproPixel (d : Draw) (x y : Nat) : EngM Bool := do
  let r := d.record
  let wh := recSize true r
  let o := y * wh.1 + x
  let v ← d.get (recWord r 3) (8 * o) 8
  let mv ← d.get (recWord r 2) (4 * o) 4
  match (if v = 2 ^ 64 - 1 then none else reprojectTo wh.1 wh.2 x y mv) with
  | none => pure true
  | some q =>
    let oq := q.2 * wh.1 + q.1
    let zp ← d.get (recWord r 1) (4 * oq) 4
    if depthDiffers (xrOf (BitVec.ofNat 32 zp)) (xrOf (BitVec.ofNat 32 (v / 2 ^ 32))) (xrOf (r.extractLsb' 416 32)) then pure true
    else
      let col ← d.get (recWord r 0) (4 * oq) 4
      d.put (recWord r 4) (4 * o) 4 col
      pure false

/-- One tile: its pixels row by row, and each row's mask word written whole; bits past the width are free (R344). -/
def Draw.reproTile (d : Draw) : EngM Unit := do
  let r := d.record
  let w := (recSize true r).1
  let rows := ((recPixels true r d.tile).map (·.2)).dedup
  rows.foldlM (fun _ y => do
    let px := (recPixels true r d.tile).filter fun p => p.2 == y
    let m ← px.foldlM (fun (m : Nat) p => do
      let redo ← d.reproPixel p.1 p.2
      pure (if redo then m + 2 ^ (p.1 % 64) else m)) 0
    let tx := (px.headD (0, 0)).1 / 64
    let free ← (fun s => .ok ((Config.freeWord s.draws 0).toNat, s.draw) : EngM Nat)
    let used := 2 ^ px.length
    d.put (recWord r 5) (8 * (y * ((w + 63) / 64) + tx)) 8 (m + free / used * used)) ()

/-! ### Events -/

/-- The partition whose place table maps a physical queue. -/
def State.queuePart (s : State) (q : Nat) : Option Nat :=
  (List.range 64).find? fun p => (s.part.place.any fun e =>
    e.1 / 4096 / 7 == p && e.1 / 4096 % 7 == 3 && unitOf 4 e.2 == some q)

/-- The running contexts of a partition. -/
def State.runningIn (s : State) (part : Nat) : List Nat :=
  (s.ctxs.filter fun p => p.2.used && p.2.part == part && p.2.run == .running).map Prod.fst

/-- The context of a record from a queue: the one the queue is bound to, or one of the partition's. -/
def State.recordCtx (s : State) (part q : Nat) : Option Nat :=
  match s.boundTo 4 q with
  | some k => if (s.ctx k).runs then some k else none
  | none => let l := s.runningIn part; if l.isEmpty then none else some (pick s.draws 0 l)

/-- The unit that a port queue is bound to (R333, 13 R358). -/
def State.recordUnit (s : State) (part q : Nat) (repro : Bool) : Option Nat :=
  let d := s.qdesc q
  if qKind d ≠ 2 ∨ qBind d ≠ (if repro then 2 else 1) then none
  else if repro then some (qBindIdx d) else s.unit part 2 (qBindIdx d)

/-- A unit claims the next record of a queue, an acquire at .dev of its publication (R333). It works on one record at a time. -/
def State.takeRecord (s : State) (q : Nat) (repro : Bool) : State :=
  match s.queuePart q with
  | none => s
  | some p =>
    match s.recordUnit p q repro, s.recordCtx p q with
    | some u, some k =>
      if !s.qUsable p q || s.qCount q == 0 || s.eng.draws.any (fun e => e.2.used && e.2.repro == repro && e.2.unit == u) then s
      else
        if s.claimWaits p q 0 ⟨p, (s.ctx k).asid, none⟩ then s else
        let r := s.claim p q 0 ⟨p, (s.ctx k).asid, none⟩
        let t := recTiles repro r.1
        let bad := recBad repro r.1
        let id := r.2.eng.nextId
        let d : Draw := ⟨true, repro, u, p, (s.ctx k).asid, r.1, 0, if bad then 0 else t.1.2 * t.2.2, none, bad⟩
        ({ r.2 with eng := { r.2.eng with nextId := id + 1 } }.setDraw id d).draw
    | _, _ => s

/-- RASTER_DRAW_RECORD (R333, R335) -/
def execRasterDrawRecord (queue : Nat) (s : State) : Host.Outcome State Fault Refusal := .next (s.takeRecord queue false)

/-- REPROJECTION_RECORD (R333, R343) -/
def execReprojectionRecord (queue : Nat) (s : State) : Host.Outcome State Fault Refusal := .next (s.takeRecord queue true)

/-- The logical index of a unit in its partition; the unit's own number where no entry names it (09 R259). -/
def State.logical (s : State) (part kind unit : Nat) : Nat :=
  ((s.part.place.find? fun e => e.1 / 4096 == 7 * part + kind - 1 && unitOf kind e.2 == some unit).map (·.1 % 4096)).getD unit

/-- The place field of a record's unit: the raster unit's cluster; a reprojection unit, which has no kind of place, by its number. -/
def State.drawPlace (s : State) (d : Draw) : W16 :=
  if d.repro then BitVec.ofNat 16 d.unit else placeField 2 (s.logical d.part 2 d.unit)

/-- The fault of a record's access goes to the fault server (17 R411, R419). -/
def State.drawFault (s : State) (id : Nat) (f : AccFault × Need) : State :=
  let d := s.drawRec id
  let r := s.postFault (s.engRecord (s.drawCtx d) (if d.repro then 6 else 5) (s.drawPlace d) f.1 f.2 .g)
  r.2.setDraw id { d with tok := some r.1 }

/-- The next tile of a record of one kind; a FATAL verdict ends the record's work (R339, R344; 17 R411). -/
def State.drawTile (s : State) (id : Nat) (repro : Bool) : State :=
  let d := s.drawRec id
  if !d.used || d.repro != repro || d.tiles ≤ d.tile || !(s.drawCtx d).runs then s
  else
    match s.engWait d.tok with
    | .held => s
    | .fatal => s.setDraw id { d with tok := none, tile := d.tiles, dead := true }
    | .go =>
      match (if repro then d.reproTile s else d.rasterTile s) with
      | .ok (_, t) => t.setDraw id { d with tok := none, tile := d.tile + 1 }
      | .error f => s.drawFault id f

/-- RASTER_TILE (R336 to R339) -/
def execRasterTile (id : Nat) (s : State) : Host.Outcome State Fault Refusal := .next (s.drawTile id false)

/-- REPROJECTION_TILE (R344) -/
def execReprojectionTile (id : Nat) (s : State) : Host.Outcome State Fault Refusal := .next (s.drawTile id true)

/-- A 64-bit word at the home slice, increased by 1 as a release at .dev (R334). -/
def State.addOne (s : State) (c : Ctx) (a : W64) : Except (AccFault × Need) State :=
  match s.engParts c none a 8 .both with
  | .error f => .error (f, .both)
  | .ok (l, t) =>
    let m := t.mem.writeParts l ((t.mem.readParts l + 1) % 2 ^ 64)
    .ok { t with mem := match l with | [p] => m.noteWrite ⟨c.part, c.asid, none⟩ p.1 8 2 (some 3) true | _ => m }

/-- RECORD_COMPLETE (R334): the completion word, and the record is gone. A fault on the word goes to the server; after a FATAL verdict
the record ends without it. -/
def execRecordComplete (id : Nat) (s : State) : Host.Outcome State Fault Refusal :=
  .next (
    let d := s.drawRec id
    let gone (t : State) : State := t.setDraw id Draw.blank
    if !d.used || d.tile < d.tiles || !(s.drawCtx d).runs then s
    else if recCompletion d.record = 0 then gone s
    else
      match s.engWait d.tok with
      | .held => s
      | .fatal => gone s
      | .go =>
        match s.addOne (s.drawCtx d) (recCompletion d.record) with
        | .ok t => gone t
        | .error f => s.drawFault id f)

end Sys2Proof.Machine
end

