-- ==== Sys2Proof/Machine/Commands.lean ====
section
/-!
DEFINITION. Engine commands, display heads and encoder slots (spec/14_portable_code.md R380 to R382; spec/12_graphics_pipeline.md
R345).

`ivld` reads a list command by command, and END ends it. What a head writes for a frame and what an encoder appends are free bytes, and
where an operand lies in a command is free: the manual gives no output format, no blending arithmetic, no bitstream and no operand layout
(notes/assumptions/33.md).
-/

namespace Sys2Proof.Machine

/-! ### Lists (14 R380 to R382) -/

/-- The list that a partition's `ivld` is assembling. -/
def State.cmdList (s : State) (part : Nat) : CmdList := Store.get s.eng.lists CmdList.blank part
/-- The state with a partition's list replaced. -/
def State.setList (s : State) (part : Nat) (l : CmdList) : State :=
  { s with eng := { s.eng with lists := Store.put s.eng.lists CmdList.blank part l } }
/-- A head by physical number. -/
def State.head (s : State) (n : Nat) : Head := Store.get s.eng.heads Head.blank n
/-- The state with a head changed. -/
def State.modHead (s : State) (n : Nat) (f : Head → Head) : State :=
  { s with eng := { s.eng with heads := Store.put s.eng.heads Head.blank n (f (s.head n)) } }
/-- An encoder slot by physical number. -/
def State.encSlot (s : State) (n : Nat) : EncSlot := Store.get s.eng.slots EncSlot.blank n
/-- The state with an encoder slot changed. -/
def State.modEnc (s : State) (n : Nat) (f : EncSlot → EncSlot) : State :=
  { s with eng := { s.eng with slots := Store.put s.eng.slots EncSlot.blank n (f (s.encSlot n)) } }

/-- LAYER's operands keep their limits. -/
def layerOk (x : LayerArgs) : Bool :=
  decide (x.layer < 8) && x.src.extractLsb' 0 8 == 0 && decide (1 ≤ x.width ∧ x.width ≤ 7680) &&
    decide (1 ≤ x.height ∧ x.height ≤ 4320) && decide (x.fmt < 3) && decide (x.blend < 2)

/-- FRAME's operands keep their limits. -/
def frameOk (x : FrameArgs) : Bool := decide (1 ≤ x.rate ∧ x.rate ≤ 240000)

/-- ENCODE's operands keep their limits. -/
def encodeOk (x : EncodeArgs) : Bool :=
  decide (x.codec < 3) && decide (1 ≤ x.keyInt ∧ x.keyInt ≤ 1024) && decide (65536 ≤ x.size ∧ x.size ≤ 2 ^ 30) &&
    x.size == 2 ^ Nat.log2 x.size

/-- The 32 bytes of a command in a context's memory, read as an acquire at .dev (14 R380); none where they cannot be read yet. -/
def State.readCommand (s : State) (part asid : Nat) (addr : W64) : Option (BitVec 256 × State) :=
  let c := s.ctx (ctxKey part asid)
  if !c.used then none
  else match s.engParts c none addr 32 .load with
    | .error _ => none
    | .ok (l, t) =>
      let a : Agent := ⟨part, asid, none⟩
      let m := l.foldl (fun m p => m.acquire a p.1 p.2 2) t.mem
      if l.any fun p => m.waits (t.mem.records a p.1 p.2) 2 then none else some (BitVec.ofNat 256 (m.readParts l), { t with mem := m })

/-- The opcode of a command. -/
def cmdOp (w : BitVec 256) : Nat := (w.extractLsb' 0 8).toNat
/-- Bytes 4 to 31 of a command. -/
def cmdArgs (w : BitVec 256) : BitVec 224 := w.extractLsb' 32 224
/-- The opcodes of 14 R380. -/
def cmdOps : List Nat := [0x01, 0x02, 0x03, 0x04, 0x10, 0x11, 0x12, 0xFF]

/-- A command with its place field and its byte 3, which must be zero. -/
def cmdEntry (w : BitVec 256) (slot ok : Bool) (c : Cmd) : CmdEntry := ⟨slot, w.extractLsb' 8 16, ok && w.extractLsb' 24 8 == 0, c⟩

/-- A command whose opcode is unknown. -/
def CmdEntry.unknown : CmdEntry := ⟨false, 0, false, .headOff⟩

/-- The place that a command names is the partition's now, and so is the source head of ENCODE (14 R382; 09 R260). -/
def State.cmdUnit (s : State) (part : Nat) (e : CmdEntry) : Option Nat :=
  (s.place part (if e.slot then 6 else 5) e.place).bind fun u =>
    match e.cmd with
    | .encode x => (s.unit part 5 x.head).map fun _ => u
    | _ => some u

/-- The index of the first offending command (14 R382). -/
def State.firstBad (s : State) (part : Nat) (l : List CmdEntry) : Option Nat := l.findIdx? fun e => !e.ok || (s.cmdUnit part e).isNone

/-- The list ends with an answer: the index of an offending command plus one, or 0. -/
def State.answerList (s : State) (part n : Nat) : State :=
  let t := s.setList part CmdList.blank
  { t with eng := { t.eng with listAnswer := Store.put t.eng.listAnswer 0 part n } }

/-- A command joins the list; a 257th refuses it (14 R382). -/
def State.addCommand (s : State) (part asid : Nat) (addr : W64) (e : CmdEntry) : State :=
  let l := (s.cmdList part).cmds
  if 256 ≤ l.length then s.answerList part ((s.firstBad part l).getD 256 + 1) else s.setList part ⟨l ++ [e], some (asid, addr + 32)⟩

/-- The command at an address of a list, if it is the next one: one with the opcode given does what `f` says, one that no form has joins the
list as offending, and one of another form is not this form's. -/
def State.command (s : State) (part asid : Nat) (addr : W64) (op : Nat) (f : BitVec 256 → State → State) : State :=
  if !(s.cmdList part).next.all (· == (asid, addr)) then s
  else match s.readCommand part asid addr with
    | none => s
    | some (w, t) =>
      if cmdOp w = op then f w t
      else if cmdOps.contains (cmdOp w) then s
      else t.addCommand part asid addr CmdEntry.unknown

/-- LAYER (14 R380) -/
def execLayer (part asid : Nat) (addr : W64) (s : State) : Host.Outcome State Fault Refusal :=
  .next (s.command part asid addr 0x01 fun w t =>
    let x := Config.layerOperands (cmdArgs w)
    t.addCommand part asid addr (cmdEntry w false (layerOk x && Config.unusedZero 0x01 (cmdArgs w)) (.layer x)))

/-- LAYEROFF (14 R380) -/
def execLayerOff (part asid : Nat) (addr : W64) (s : State) : Host.Outcome State Fault Refusal :=
  .next (s.command part asid addr 0x02 fun w t =>
    let n := Config.layerOffOperand (cmdArgs w)
    t.addCommand part asid addr (cmdEntry w false (decide (n < 8) && Config.unusedZero 0x02 (cmdArgs w)) (.layerOff n)))

/-- FRAME (14 R380) -/
def execFrame (part asid : Nat) (addr : W64) (s : State) : Host.Outcome State Fault Refusal :=
  .next (s.command part asid addr 0x03 fun w t =>
    let x := Config.frameOperands (cmdArgs w)
    t.addCommand part asid addr (cmdEntry w false (frameOk x && Config.unusedZero 0x03 (cmdArgs w)) (.frame x)))

/-- HEADOFF (14 R380) -/
def execHeadOff (part : Nat) (cmd : Nat × W64) (s : State) : Host.Outcome State Fault Refusal :=
  .next (s.command part cmd.1 cmd.2 0x04 fun w t => t.addCommand part cmd.1 cmd.2 (cmdEntry w false (cmdArgs w == 0) .headOff))

/-- ENCODE (14 R380) -/
def execEncode (part asid : Nat) (addr : W64) (s : State) : Host.Outcome State Fault Refusal :=
  .next (s.command part asid addr 0x10 fun w t =>
    let x := Config.encodeOperands (cmdArgs w)
    t.addCommand part asid addr (cmdEntry w true (encodeOk x && Config.unusedZero 0x10 (cmdArgs w)) (.encode x)))

/-- KEYNOW (14 R380) -/
def execKeyNow (part : Nat) (cmd : Nat × W64) (s : State) : Host.Outcome State Fault Refusal :=
  .next (s.command part cmd.1 cmd.2 0x11 fun w t => t.addCommand part cmd.1 cmd.2 (cmdEntry w true (cmdArgs w == 0) .keyNow))

/-- ENCOFF (14 R380) -/
def execEncOff (part : Nat) (cmd : Nat × W64) (s : State) : Host.Outcome State Fault Refusal :=
  .next (s.command part cmd.1 cmd.2 0x12 fun w t => t.addCommand part cmd.1 cmd.2 (cmdEntry w true (cmdArgs w == 0) .encOff))

/-- One command of an accepted list waits for its unit's next frame; ENCODE keeps the physical number of its head. -/
def State.queueCommand (s : State) (part : Nat) (e : CmdEntry) : State :=
  match s.cmdUnit part e with
  | none => s
  | some u =>
    let c := match e.cmd with | .encode x => .encode { x with head := (s.unit part 5 x.head).getD 0 } | c => c
    if e.slot then s.modEnc u fun x => { x with part := part, pending := x.pending ++ [c] }
    else s.modHead u fun x => { x with part := part, pending := x.pending ++ [c] }

/-- END (14 R380 to R382): the whole list is refused, with the offending command's index plus one as the answer, or its commands wait for
the next frames of their units, and the answer is 0. The bytes of END after its opcode must be zero. -/
def execEndList (cmd : Nat × Nat × W64) (s : State) : Host.Outcome State Fault Refusal :=
  .next (s.command cmd.1 cmd.2.1 cmd.2.2 0xFF fun w t =>
    let l := (t.cmdList cmd.1).cmds
    match (t.firstBad cmd.1 l).or (if w.extractLsb' 8 248 = 0 then none else some l.length) with
    | some n => t.answerList cmd.1 (n + 1)
    | none => l.foldl (fun t e => t.queueCommand cmd.1 e) (t.answerList cmd.1 0))

/-! ### Frames (12 R345) -/

/-- A head after one command of a list. -/
def Head.apply (h : Head) (c : Cmd) : Head :=
  match c with
  | .layer x => { h with layers := Store.put h.layers ⟨0, 0, 0, 0, 0, 0, 0, 0, 0⟩ x.layer x }
  | .layerOff n => { h with layers := Store.erase h.layers n }
  | .frame x => { h with frame := some x }
  | .headOff => { h with frame := none, layers := [] }
  | _ => h

/-- An encoder slot after one command of a list. -/
def EncSlot.apply (e : EncSlot) (c : Cmd) : EncSlot :=
  match c with
  | .encode x => { e with args := some x, offset := 0, frames := 0, key := false }
  | .keyNow => { e with key := true }
  | .encOff => { e with args := none, key := false }
  | _ => e

/-- The context in which a head (kind 5) or an encoder slot (kind 6) works: the one it is bound to, or one of its partition's
(notes/assumptions/30.md). -/
def State.unitCtx (s : State) (part kind unit : Nat) : Option Nat :=
  match s.boundTo kind unit with
  | some k => if (s.ctx k).runs then some k else none
  | none => let l := s.runningIn part; if l.isEmpty then none else some (pick s.draws 0 l)

/-- Free bytes written over a range, where the context reaches it. -/
def State.putFree (s : State) (c : Ctx) (field : W64) (o n seed : Nat) : State :=
  let v := (List.range n).foldl (fun v k => v + (Config.freeByte s.draws (seed + k)).toNat * 2 ^ (8 * k)) 0
  match s.engPut c field o n v with
  | .ok t => t
  | .error _ => s

/-- A counter word that a unit's field names, increased by 1 as a release at .dev (12 R334). -/
def State.countWord (s : State) (c : Ctx) (field : W64) : State :=
  match s.engAddr c field 0 8 .both with
  | .error _ => s
  | .ok a => if a.extractLsb' 0 3 != 0 then s else match s.addOne c a with
    | .ok t => t
    | .error _ => s

/-- HEAD_FRAME (12 R345, 14 R381): at the boundary the lists received take effect; then the head writes one frame and counts it. -/
def execHeadFrame (head : Nat) (s : State) : Host.Outcome State Fault Refusal :=
  .next (
    let h := s.head head
    if h.removed then s.modHead head fun _ => Head.blank
    else
      let h := { h.pending.foldl Head.apply h with pending := [] }
      let s1 := s.modHead head fun _ => h
      match h.frame, s1.unitCtx h.part 5 head with
      | some x, some k =>
        let c := s1.ctx k
        let s2 := (List.range x.height).foldl (fun (t : State) j => t.putFree c x.out (x.pitch * j) x.pitch (x.pitch * j)) s1
        (s2.countWord c x.counter).draw
      | _, _ => s1)

/-- The frame is within what an encoder slot accepts (14 R381). -/
def encodable (x : FrameArgs) : Bool := decide (x.width * x.height ≤ 3840 * 2160 ∧ x.rate ≤ 60000)

/-- Bytes appended to an encoder's ring from an offset on; the offset after them. -/
def State.appendFree (s : State) (c : Ctx) (x : EncodeArgs) (off n : Nat) : Nat × State :=
  let room := x.size - off
  let s1 := s.putFree c x.ring off (min n room) 0
  ((off + n) % x.size, if room < n then s1.putFree c x.ring 0 (n - room) room else s1)

/-- The write offset of an encoder's ring is published (12 R345). -/
def State.putOffset (s : State) (c : Ctx) (x : EncodeArgs) (off : Nat) : State :=
  match s.engAddr c x.offWord 0 8 .store with
  | .error _ => s
  | .ok a =>
    match s.engParts c none a 8 .store with
    | .error _ => s
    | .ok (l, t) =>
      let m := t.mem.writeParts l off
      { t with mem := l.foldl (fun m (p : Nat × Nat) => m.publish ⟨c.part, c.asid, none⟩ p.1) m }

/-- An encoder slot encodes one superblock row of the frame it works on, while the frame's context runs; the last row ends the frame. -/
def State.encodeRow (s : State) (slot : Nat) (x : EncodeArgs) (j : EncJob) : State :=
  let c := s.ctx j.key
  if !c.used || c.run == .ended then s.modEnc slot fun e => { e with job := none }
  else if !c.runs then s
  else
    let r := s.appendFree c x j.off (Config.frameBytes s.draws % (x.size + 1))
    if 1 < j.left then (r.2.modEnc slot fun e => { e with job := some ⟨j.key, j.left - 1, r.1⟩ }).draw
    else ((r.2.putOffset c x r.1).modEnc slot fun e => { e with offset := r.1, frames := e.frames + 1, key := false, job := none }).draw

/-- The lists received take effect at the next frame that a slot begins (14 R381): the slot, and the frame it begins if it can. -/
def State.beginEncode (s : State) (slot : Nat) : State :=
  let e := s.encSlot slot
  let e := { e.pending.foldl EncSlot.apply e with pending := [] }
  let s1 := s.modEnc slot fun _ => e
  match e.args, s1.unitCtx e.part 6 slot with
  | some x, some k =>
    match (s1.head x.head).frame with
    | some y =>
      if encodable y then
        s1.modEnc slot fun e => { e with job := some ⟨k, Config.superRows x.codec y.height + 1, e.offset⟩ }
      else s1
    | none => s1
  | _, _ => s1

/-- ENCODE_FRAME (12 R345, 14 R381): a slot that begins a frame takes its lists, and each superblock row is a step of its own, at which a
stop finds it; after the last row the write offset is published as a release at .dev. -/
def execEncodeFrame (slot : Nat) (s : State) : Host.Outcome State Fault Refusal :=
  .next (
    if (s.encSlot slot).removed then s.modEnc slot fun _ => EncSlot.blank
    else
      let t := if (s.encSlot slot).job.isSome then s else s.beginEncode slot
      match (t.encSlot slot).args, (t.encSlot slot).job with
      | some x, some j => t.encodeRow slot x j
      | _, _ => t)

end Sys2Proof.Machine
end

