-- ==== Sys2Proof/Machine/Control.lean ====
section
/-!
DEFINITION. Branches, calls, `exit`, `trap`, `yield`, `wdog`, `nop`, `wjoin` and `rgrp` (spec/07_isa_lanes_control.md R173, R176
to R185; spec/02_execution_model.md R51 to R57).
-/

namespace Sys2Proof.Machine

/-! ### Branches and calls (07 R176, R177; 04 R117) -/

/-- The bundle an offset of a branch names (07 R176). -/
def State.branchTarget (s : State) (off : BitVec 30) : W64 := bundleOf s.cur.pc + (off.signExtend 64 <<< 5)

/-- The issue continues at a target in the lanes of a mask, and at the next slot in the others. -/
def State.branchIn (s : State) (m : Lanes) (tgt : Nat → W64) : State :=
  s.jump fun l => if m.getLsbD l then tgt l else s.cur.npc

/-- BR (07 R176) -/
def execBr (f : Full) (off : BitVec 30) (s : State) : Host.Outcome State Fault Refusal :=
  s.issue (.br f off) f fun s => s.branchIn (s.gLanes f) fun _ => s.branchTarget off

/-- BRALL (07 R176): the split goes as a whole. -/
def execBrall (f : Full) (any : Bool) (off : BitVec 30) (s : State) : Host.Outcome State Fault Refusal :=
  s.issue (.brall f any off) f fun s =>
    let t := s.gLanes f
    let take : Bool := if any then t != 0 else t == s.cur.lanes
    s.branchIn (if take then s.cur.lanes else 0) fun _ => s.branchTarget off

/-- The lanes whose target register names no bundle start (04 R117): every active lane with a target; a lane whose guard is
false has none in a queue. -/
def State.badTargets (s : State) (f : Full) : Lanes :=
  let m := match f.a with
    | .q _ => s.gLanes f
    | _ => s.cur.lanes
  laneMask m fun l => (s.src f f.a true l).extractLsb' 0 5 != 0

/-- A form with target registers: TARGET_MISALIGNED first (04 R117). -/
def State.withTargets (s : State) (f : Full) (k : State → State) : State :=
  let bad := s.badTargets f
  if bad != 0 then s.trap (s.decodeTrap .targetMisaligned 0 0 bad) else k s

/-- JMPI (07 R176) -/
def execJmpi (f : Full) (s : State) : Host.Outcome State Fault Refusal :=
  s.issue (.jmpi f) f fun s => s.withTargets f fun s => s.branchIn (s.gLanes f) fun l => s.src f f.a true l

/-- RET (07 R176) -/
def execRet (f : Full) (s : State) : Host.Outcome State Fault Refusal :=
  s.issue (.ret f) f fun s => s.withTargets f fun s => s.branchIn (s.gLanes f) fun l => s.src f f.a true l

/-- The return address goes to a link, and the guard-true lanes to their targets (07 R177). -/
def State.callTo (s : State) (f : Full) (link : Operand) (tgt : Nat → W64) : State :=
  let g := s.gLanes f
  (s.writeDst link true true g fun _ => bundleOf s.cur.pc + 32).branchIn g tgt

/-- CALL (07 R177) -/
def execCall (f : Full) (off : BitVec 30) (s : State) : Host.Outcome State Fault Refusal :=
  s.issue (.call f off) f fun s => s.callTo f f.c fun _ => s.branchTarget off

/-- CALLI (07 R177) -/
def execCalli (f : Full) (s : State) : Host.Outcome State Fault Refusal :=
  s.issue (.calli f) f fun s => s.withTargets f fun s => s.callTo f f.d fun l => s.src f f.a true l

/-! ### Ending lanes and warps (07 R179; 02 R36, R51; 17 R413) -/

/-- Lanes leave a warp: they stand in no split, hold no pending result, no message and no traversal error, and have passed every
queue entry (07 R179, 04 R112, 03 R70); entries that have not landed stay until they do (03 R66). -/
def Warp.dropLanes (w : Warp) (m : Lanes) : Warp :=
  let live := w.live &&& ~~~m
  { w with
    live := live
    helper := w.helper &&& ~~~m
    splits := removeLanes m w.splits
    saved := removeLanes m w.saved
    pend := w.pend.filter fun p => !m.getLsbD p.lane
    errs := w.errs.filter fun e => !m.getLsbD e.lane
    queues := w.queues.map fun p => (p.1, p.2.retire live) }

/-- The quads of a warp, as lane masks. -/
def quadMasks : List Lanes := (List.range 16).map fun k => 0xF#64 <<< (4 * k)

/-- `exit` by the lanes of a mask: at level U of a quad-locked kernel a lane with a live quad neighbour becomes a helper, and
the helpers of a quad leave with its last live lane (02 R51); at level H the lanes end (17 R413). -/
def Warp.exitLanes (w : Warp) (quadlock : Bool) (m : Lanes) : Warp :=
  if !quadlock then w.dropLanes m
  else
    let left := w.live &&& ~~~m
    let dead := quadMasks.foldl (fun acc q => if left &&& q == 0 then acc ||| q else acc) 0
    if w.level then (w.dropLanes (m &&& w.live)).dropLanes dead
    else
      let stay := w.live &&& m &&& ~~~dead
      let w := w.dropLanes dead
      let live := w.live &&& ~~~stay
      { w with live := live, helper := w.helper ||| stay, queues := w.queues.map fun p => (p.1, p.2.retire live) }

/-- Partial arrivals of a warp that the lanes still missing have left behind become arrivals (07 R187). -/
def Group.settleWarp (x : Group) (w : Nat) : Group :=
  let y := x.warp w
  let f (b : Bar) : Bar := if b.partialAt w then b.laneArrive w y.live 0 y.mWrites (x.knowsFmt w) else b
  { x with bars := x.bars.map fun p => (p.1, f p.2), cbar := f x.cbar }

/-- The A-stream ends and every queue closes (03 R80). -/
def Group.endA (x : Group) : Group :=
  { x.mapWarps fun _ w => { w with queues := (List.range 8).foldl (fun qs n =>
      if x.kernel.hasQueue n then Store.put qs Queue.blank n { Store.get qs Queue.blank n with closed := true } else qs) w.queues } with
    astr := { x.astr with ended := true, stopped := false, trap := none, wait := .ready } }

/-- Operations of some classes are outstanding on some array (10 R295). -/
def Group.outstanding (x : Group) (ld cmp st : Bool) : Bool :=
  x.arrays.any fun p => (ld && !p.2.loadQ.isEmpty) ||
    p.2.compQ.any fun o => (cmp && (o.kind == .act || o.kind == .zero)) || (st && o.kind == .st)

/-- The claim is released and the format is no longer established (10 R283, R298). -/
def Group.release (x : Group) : Group :=
  if x.claim = 0 then x
  else
    { x with
      claim := 0
      phys := []
      arrays := []
      est := false
      gfmt := 0
      fmtSeen := 0
      bars := x.bars.map fun p => (p.1, { p.2 with fmt := false })
      cbar := { x.cbar with fmt := false } }

/-- Every operation of the claimed arrays has completed. -/
def Group.idleArrays (x : Group) : Bool := !x.outstanding true true true

/-- The M-stream ends (10 R298). -/
def Group.endM (x : Group) : Group :=
  { x.release with mstr := { x.mstr with ended := true, stopped := false, trap := none, wait := .ready } }

/-- An M-stream that is to end as by `mend` ends once its operations have completed (17 R413, 10 R298). -/
def State.settleMend (s : State) (g : Nat) : State :=
  if (s.group g).mstr.wait == .mending && (s.group g).idleArrays then (s.modGroup g Group.endM).settleBarriers g else s

/-- A warp with no live lane ends (02 R36); if it handled a trap of another stream, that stream ends as by `aend` or `mend` (17 R413). -/
def State.endWarp (s : State) (g w : Nat) : State :=
  let y := s.warp g w
  if y.ended || y.live != 0 then s
  else
    let s1 := s.modWarp g w fun y =>
      { (y.dropLanes (~~~0)) with ended := true, level := false, saved := [], splits := [], pend := [], errs := [], ups := [], due := none }
    let s2 :=
      if !y.level then s1
      else match y.tstream.toNat with
        | 1 => s1.modGroup g Group.endA
        | 2 => ((s1.modStream g .m fun z => { z with stopped := false, trap := none, wait := .mending }).dropClaims g).settleMend g
        | _ => s1
    let orphan (s : State) (st : Strm) : State :=
      match ((s.group g).stream st).trap with
      | some t => if (s.group g).firstWarp.isNone then s.escalateStream g st t else s
      | none => s
    orphan (orphan s2 .a) .m

/-! ### `wjoin` (07 R173) -/

/-- A lane's `wjoin` is complete: every lane it named has exited or is parked at a `wjoin` at the same address. -/
def Warp.joined (w : Warp) (x : Split) (lane : Nat) : Bool :=
  match x.wait with
  | .wjoin masks _ =>
    let here := w.splits.foldl (fun acc y =>
      match y.wait with
      | .wjoin _ _ => if slotAddr y.pc == slotAddr x.pc then acc ||| y.lanes else acc
      | _ => acc) (0 : Lanes)
    Store.get masks 0 lane &&& (w.live ||| w.helper) &&& ~~~here == 0
  | _ => false

/-- The lanes of a split at `wjoin` whose wait is over go on; the others stay. -/
def Warp.leaveJoin (w : Warp) (x : Split) : List Split :=
  match x.wait with
  | .wjoin _ next =>
    let go := laneMask x.lanes (w.joined x)
    ([{ x with lanes := go, pc := next, wait := .ready, bp := 0 }, { x with lanes := x.lanes &&& ~~~go }]).filter fun y => y.lanes != 0
  | _ => [x]

/-- Every `wjoin` of a warp that is complete ends, at level U. -/
def Warp.settleJoin (w : Warp) : Warp := if w.level then w else { w with splits := w.splits.flatMap w.leaveJoin }

/-- WJOIN (07 R173) -/
def execWjoin (f : Full) (s : State) : Host.Outcome State Fault Refusal :=
  s.issue (.wjoin f) f fun s =>
    let all : Lanes := (1#64 <<< s.curGroup.kernel.width) - 1
    let all := if s.curGroup.kernel.width = 64 then ~~~0 else all
    let masks : Store Lanes := (laneList s.cur.lanes).map fun l => (l, (s.src f f.a true l &&& all) ||| laneBit l)
    ((s.park (.wjoin masks s.cur.npc)).markDone).modCurWarp (·.settleJoin)

/-! ### `rgrp` (02 R52 to R57, 07 R184) -/

/-- The target of a lane that waits at `rgrp`. -/
def Warp.rgrpTarget (w : Warp) (lane : Nat) : W64 :=
  match w.splits.find? fun x => x.lanes.getLsbD lane with
  | some x => (match x.wait with | .rgrp t => Store.get t 0 lane | _ => 0)
  | none => 0

/-- Every split of a warp waits at `rgrp`. -/
def Warp.allRgrp (w : Warp) : Bool :=
  w.ended || (!w.level && w.due.isNone && w.esc.isNone && w.splits.all fun x => match x.wait with | .rgrp _ => true | _ => false)

/-- Every live and helper lane of the group has issued `rgrp` (02 R52). -/
def Group.rgrpJoined (x : Group) : Bool :=
  (x.wids.any fun w => !(x.warp w).ended) && x.wids.all fun w => (x.warp w).allRgrp

/-- No result is outstanding and no queue entry pending in a warp (02 R52, R56): loads have their values. -/
def Warp.quiet (w : Warp) : Bool :=
  (w.ended || !w.mustWait) && w.queues.all fun p => p.2.entries.all QEntry.complete

/-- A lane as `rgrp` moves it: where it was, its target, whether it is live (02 R54). -/
structure Mover where
  wid : Nat
  lane : Nat
  target : W64
  live : Bool
  deriving DecidableEq, Repr

/-- The lanes of a warp that have not exited. -/
def Warp.movers (w : Warp) (wid : Nat) : List Mover :=
  (laneList (w.live ||| w.helper)).map fun l => ⟨wid, l, w.rgrpTarget l, w.live.getLsbD l⟩

/-- The order of R53: target, then WID, then lane number. -/
def moverLe (a b : Nat × Nat × Nat) : Bool :=
  decide (a.1 < b.1) || (a.1 == b.1 && (decide (a.2.1 < b.2.1) || (a.2.1 == b.2.1 && decide (a.2.2 ≤ b.2.2))))

/-- An entry put into a list sorted by its key. -/
def insertBy {α : Type} (key : α → Nat × Nat × Nat) (x : α) (l : List α) : List α :=
  match l with
  | [] => [x]
  | y :: r => if moverLe (key y) (key x) then y :: insertBy key x r else x :: y :: r

/-- A list sorted by a key. -/
def sortBy {α : Type} (key : α → Nat × Nat × Nat) (l : List α) : List α := l.foldl (fun acc x => insertBy key x acc) []

/-- The positions, in order, that lanes are dealt into: none stays empty (02 R53, R55). -/
def Group.dealt (x : Group) : List (Option Mover) :=
  let ws := x.wids.filter fun w => !(x.warp w).ended
  let ms := ws.flatMap fun w => (x.warp w).movers w
  if x.kernel.quadlock then
    let quads := ws.flatMap fun w => (List.range 16).filterMap fun q =>
      let y := x.warp w
      match lowLane (y.live &&& (0xF#64 <<< (4 * q))) with
      | some l => some ((y.rgrpTarget l).toNat, w, q)
      | none => none
    (sortBy id quads).flatMap fun k => (List.range 4).map fun j => ms.find? fun m => m.wid == k.2.1 && m.lane == 4 * k.2.2 + j
  else (sortBy (fun m => (m.target.toNat, m.wid, m.lane)) ms).map some

/-- A lane's registers as they travel: v, o and h registers under a new lane number (02 R54). -/
def Warp.laneRegs (w : Warp) (lane new : Nat) : Store W32 :=
  (w.vregs.filter fun p => p.1 / 1024 == lane && decide (p.1 % 1024 < 0x324)).map fun p => (1024 * new + p.1 % 1024, p.2)

/-- A warp filled with the lanes dealt to it, by new lane number (02 R53 to R56). -/
def Group.refill (x : Group) (fstat : W32) (w : Nat) (l : List (Nat × Mover)) : Warp :=
  let y := x.warp w
  let src (m : Mover) : Warp := x.warp m.wid
  let put {α : Type} [DecidableEq α] (d : α) (base : Store α) (es : Store α) : Store α := es.foldl (fun b p => Store.put b d p.1 p.2) base
  let mask (p : Mover → Bool) : Lanes := l.foldl (fun acc q => if p q.2 then acc ||| laneBit q.1 else acc) 0
  let bank := y.vregs.filter fun p => decide (0x324 ≤ p.1 % 1024)
  let bankP := (y.preds.map fun p => (p.1, p.2 &&& 0x80)).filter fun p => p.2 != 0
  let live := mask (·.live)
  { y with
    live := live
    helper := mask fun m => !m.live
    vregs := l.foldl (fun v q => put 0 v ((src q.2).laneRegs q.2.lane q.1)) bank
    preds := l.foldl (fun v q =>
      Store.put v 0 q.1 ((Store.get v 0 q.1 &&& 0x80) ||| (Store.get (src q.2).preds 0 q.2.lane &&& 0x7F))) bankP
    tids := l.foldl (fun v q => [0, 1, 2].foldl (fun v a =>
      Store.put v 0 (4 * q.1 + a) (Store.get (src q.2).tids 0 (4 * q.2.lane + a))) v) []
    relScope := l.foldl (fun v q => Store.put v 0 q.1 (Store.get (src q.2).relScope 0 q.2.lane)) []
    acqs := l.flatMap fun q => ((src q.2).acqs.filter fun r => r.lane == q.2.lane).map fun r => { r with lane := q.1 }
    errs := l.flatMap fun q => ((src q.2).errs.filter fun e => e.lane == q.2.lane).map fun e => { e with lane := q.1 }
    splits := regang (l.map fun q => Split.at (laneBit q.1) q.2.target)
    fstat := fstat
    queues := y.queues.map fun p =>
      (p.1, { p.2 with entries := [], heads := (List.range x.kernel.width).foldl (fun h k => Store.put h 0 k p.2.tail) [] }) }

/-- The move of `rgrp` (02 R53 to R57). DESIGN CHOICE: the lanes that have arrived in a barrier's open phase stay recorded by WID and lane
position, whichever lanes the move deals there (07 R190; notes/assumptions/56.md). -/
def State.rgrpMove (s : State) (g : Nat) : State :=
  let s := (s.modGroup g fun x => x.mapWarps fun _ w => w.commit s.draws (~~~0)).draw
  let x := s.group g
  let ws := x.wids.filter fun w => !(x.warp w).ended
  let slots := x.dealt
  let fs := x.wids.foldl (fun acc w => acc ||| (x.warp w).fstat) 0
  let part (i : Nat) : List (Nat × Mover) :=
    (((slots.drop (i * x.kernel.width)).take x.kernel.width).zipIdx).filterMap fun p => p.1.map fun m => (p.2, m)
  let y := (ws.zipIdx).foldl (fun (acc : Group) p => acc.modWarp p.1 fun _ => x.refill fs p.1 (part p.2)) x
  let s1 := s.modGroup g fun _ => y
  (ws.foldl (fun s w => s.endWarp g w) s1).settleBarriers g

/-- Some warp holds a partial arrival: the number of the lowest barrier, or none for the cohort barrier (07 R184, R189). -/
def Group.partialBar (x : Group) : Option (Option Nat) :=
  let has (b : Bar) : Bool := x.wids.any fun w => !(x.warp w).ended && b.partialAt w
  match (List.range 16).find? fun n => has (x.bar n) with
  | some n => some (some n)
  | none => if has x.cbar then some none else none

/-- Two splits in the ranking of 02 R38: more lanes first, then the lower program counter. -/
def Split.before (a b : Split) : Bool :=
  decide (laneCount b.lanes < laneCount a.lanes) || (laneCount a.lanes == laneCount b.lanes && decide (a.pc.toNat ≤ b.pc.toNat))

/-- A split put into a ranked list. -/
def rankSplit (x : Split) (l : List Split) : List Split :=
  match l with
  | [] => [x]
  | y :: r => if y.before x then y :: rankSplit x r else x :: y :: r

/-- The splits of a warp as R38 ranks them. -/
def ranked (l : List Split) : List Split := l.foldl (fun acc x => rankSplit x acc) []

/-- Every split that waits at `rgrp` traps BARRIER_MISMATCH, reason 5: each warp delivers its first, and without a handler every one
escalates (07 R184, R189; 17 R411). -/
def State.rgrpTrap (s : State) (g : Nat) (bar : Option Nat) : State :=
  let i0 := (bar.getD 0) + 0x50 + (if bar.isNone then 256 else 0)
  (s.group g).wids.foldl (fun s w =>
    let y := s.warp g w
    if y.ended then s
    else
      let l := ranked y.splits
      let s1 := s.modWarp g w fun y => { y with splits := y.splits.map fun z => { z with wait := .ready, bp := 0 } }
      (if s.noHandler g then l else l.take 1).foldl (fun (t : State) x =>
        t.trapWarp g w x.lanes ⟨.barrierMismatch, slotAddr x.pc, x.lanes, BitVec.ofNat 64 i0, 0, 0, 0⟩) s1) s

/-- The collective of `rgrp`, once every lane has joined: a partial arrival traps; otherwise the move, once results have landed
and no queue entry is pending (02 R52, R56; 07 R184). -/
def State.settleRgrp (s : State) (g : Nat) : State :=
  let x := s.group g
  if !x.rgrpJoined then s
  else match x.partialBar with
    | some b => s.rgrpTrap g b
    | none => if x.wids.all fun w => (x.warp w).quiet then s.rgrpMove g else s

/-- RGRP (02 R52, 07 R184): the lanes join; the collective is looked at when the step settles. -/
def execRgrp (f : Full) (s : State) : Host.Outcome State Fault Refusal :=
  s.issue (.rgrp f) f fun s =>
    s.withTargets f fun s =>
      let t : Store W64 := ((laneList s.cur.lanes).map fun l => (l, s.src f f.a true l)).filter fun p => p.2 != 0
      (s.park (.rgrp t)).markDone

/-! ### `exit` and the rest -/

/-- Lanes of the issuing warp exit; the rest of the split goes on (07 R179). -/
def State.exitIn (s : State) (m : Lanes) : State :=
  let g := s.cur.grp
  let w := s.cur.wid
  let s1 := s.advance
  let s2 := s1.modWarp g w fun y => (y.exitLanes s.curGroup.kernel.quadlock m).settleJoin
  ((((s2.modGroup g (·.settleWarp w)).endWarp g w).settleBarriers g).settleRgrp g)

/-- EXIT (07 R179) -/
def execExit (f : Full) (s : State) : Host.Outcome State Fault Refusal :=
  s.issue (.exit f) f fun s => s.exitIn (s.gLanes f)

/-- TRAP (07 R180) -/
def execTrap (f : Full) (bkpt : Bool) (imm : BitVec 10) (s : State) : Host.Outcome State Fault Refusal :=
  s.issue (.trap f bkpt imm) f fun s =>
    let m := s.gLive f
    if m = 0 then s.advance
    else s.trap (s.mkTrap (if bkpt then .breakpoint else .trapInsn) m (imm.setWidth 64) (slotAddr s.cur.npc) 0 0)

/-- The age after those of every warp of a quarter (07 R182). -/
def State.youngest (s : State) (core quarter : Nat) : Nat :=
  s.groups.foldl (fun acc p =>
    if p.2.used && p.2.pcore == core then
      p.2.warps.foldl (fun acc q => if q.2.quarter == quarter then max acc (q.2.age + 1) else acc) acc
    else acc) 0

/-- YIELD (07 R182) -/
def execYield (f : Full) (imm : BitVec 10) (s : State) : Host.Outcome State Fault Refusal :=
  s.issue (.yield f imm) f fun s =>
    if s.gLanes f = 0 then s.advance
    else
      let n := s.youngest s.curGroup.pcore s.curWarp.quarter
      ((s.modSplit (fun x => [{ x with hold := imm.toNat }]) id).modCurWarp fun w => { w with age := n }).advance

/-- YIELD_EXPIRY (07 R182): the cycles for which a split is not ready have passed. -/
def execYieldExpiry (grp wid lane : Nat) (s : State) : Host.Outcome State Fault Refusal :=
  .next (s.modWarp grp wid fun w => { w with splits := w.splits.map fun x => if x.lanes.getLsbD lane then { x with hold := 0 } else x })

/-- STALL_HINT_EXPIRY (04 R97): the cycles for which a slot is held have passed. -/
def execStallHintExpiry (grp wid lane : Nat) (s : State) : Host.Outcome State Fault Refusal :=
  .next (s.modWarp grp wid fun w => { w with splits := w.splits.map fun x => if x.lanes.getLsbD lane then { x with stall := 0 } else x })

/-- WDLIMIT for a value given to `wdog` (07 R183). -/
def wdLimit (v : W32) : W32 := if v = 0 then 0 else if v.ult 1024 then 1024 else v

/-- WDOG (07 R183) -/
def execWdog (f : Full) (s : State) : Host.Outcome State Fault Refusal :=
  s.issue (.wdog f) f fun s =>
    match lowLane (s.gLanes f) with
    | some l => (s.modCurWarp fun w => { w with wdlimit := wdLimit (s.src32 f f.a l) }).advance
    | none => s.advance

/-- NOP (07 R185) -/
def execNop (f : Full) (s : State) : Host.Outcome State Fault Refusal :=
  s.issue (.nop f) f fun s => s.advance

end Sys2Proof.Machine
end

