-- ==== Sys2Proof/Machine/Queues.lean ====
section
/-!
DEFINITION. The queue forms of the E-stream (spec/09_isa_memory_engines.md R246 to R250), the forms of the A-stream (R251 to R258)
and the return of queue elements (spec/03_decoupled_streams.md R63 to R80).

DESIGN CHOICE: the loads of an entry read their values when the entry is allocated and return later (notes/assumptions/22.md).
-/

namespace Sys2Proof.Machine

/-! ### Queue forms of the E-stream -/

/-- The queue an operand names. -/
def queueNo (x : Operand) : Nat := match x with | .q n => n.val | _ => 0

/-- The entry at a lane's head, landed. -/
def Queue.headEntry (q : Queue) (lane : Nat) : Option QEntry :=
  match q.entry (q.head lane) with
  | some e => if e.complete then some e else none
  | none => none

/-- The entry is POISONED: complete, with at least one fault record (03 R66). -/
def QEntry.poisoned (e : QEntry) : Bool := e.complete && e.elems.any fun x => match x with | .fault _ _ _ => true | _ => false

/-- `qpop` or `qpeek` (09 R247). -/
def State.popForm (s : State) (f : Full) (pops : Bool) : State :=
  let q := queueNo f.a
  let g := s.gLive f
  match s.queueGate g [q] with
  | .stop t => t
  | .go =>
    let t := s.writeDst f.d (s.curGroup.kernel.queueWide q) true (s.gLanes f) (s.popValue q)
    (if pops then t.popQueues g [q] else t).advance

/-- QPOP (09 R247) -/
def execQpop (f : Full) (s : State) : Host.Outcome State Fault Refusal := s.issue (.qpop f) f fun s => s.popForm f true

/-- QPEEK (09 R247) -/
def execQpeek (f : Full) (s : State) : Host.Outcome State Fault Refusal := s.issue (.qpeek f) f fun s => s.popForm f false

/-- What `qtest` answers for a lane (09 R248). -/
def Queue.test (q : Queue) (mode : Nat) (lane : Nat) : Bool :=
  match mode with
  | 0 => q.under lane
  | 1 => (q.headEntry lane).isSome
  | _ => (q.headEntry lane).any QEntry.poisoned

/-- QTEST (09 R248) -/
def execQtest (f : Full) (mode : BitVec 2) (pd : Fin 8) (s : State) : Host.Outcome State Fault Refusal :=
  s.issue (.qtest f mode pd) f fun s =>
    let n := queueNo f.a
    let q := s.curWarp.queue n
    let g := s.gLive f
    if mode = 0 ∧ ¬ (laneList g).all q.laneReady then s.park (.qempty g [n] [])
    else (s.writePred pd.val (s.gLanes f) fun l => g.getLsbD l && q.test mode.toNat l).advance

/-- QBACK (09 R249, 03 R77): a release at .grp. -/
def execQback (f : Full) (wide : Bool) (s : State) : Host.Outcome State Fault Refusal :=
  s.issue (.qback f wide) f fun s =>
    match lowLane (s.gLive f) with
    | none => s.advance
    | some l =>
      if 16 ≤ s.curGroup.qb.length then s.park .qback
      else (s.modCur fun x => { x with qb := x.qb ++ [s.src f f.a wide l] }).advance

/-- The n entries at a lane's head have landed, as far as a closed queue goes (09 R250). -/
def Queue.haveN (q : Queue) (lane n : Nat) : Bool :=
  (List.range n).all fun k =>
    (q.closed && decide (q.tail ≤ q.head lane + k)) ||
      (match q.entry (q.head lane + k) with | some e => e.complete | none => false)

/-- How far a lane's head moves under `qskip`. -/
def Queue.skips (q : Queue) (lane n : Nat) : Nat := if q.closed then min n (q.tail - q.head lane) else n

/-- The entries each lane of a `qskip` skips. -/
def State.skipCount (s : State) (f : Full) (lane : Nat) : Nat := min (s.src32 f f.b lane).toNat 16

/-- QSKIP (09 R250) -/
def execQskip (f : Full) (s : State) : Host.Outcome State Fault Refusal :=
  s.issue (.qskip f) f fun s =>
    let n := queueNo f.a
    let q := s.curWarp.queue n
    let g := s.gLive f
    if (laneList g).all fun l => q.haveN l (s.skipCount f l) then
      (s.modCurWarp fun w => w.modQueue n fun q => q.popBy g w.live fun l => q.skips l (s.skipCount f l)).advance
    else s.park (.qempty g [n] ((laneList g).map fun l => (l, s.skipCount f l)))

/-! ### Generators (09 R251, R252) -/

/-- Generator k of a group. -/
def Group.gen (x : Group) (k : Nat) : Gen := Store.get x.gens Gen.blank k

/-- A generator with one field set (09 R252). -/
def Gen.set (y : Gen) (field : Nat) (x : W64) : Gen :=
  let v : W32 := x.setWidth 32
  match field with
  | 0 => { y with base := x }
  | 1 => { y with lane := v }
  | 2 => { y with warp := v }
  | 3 => { y with l0 := v }
  | 4 => { y with l1 := v }
  | 5 => { y with l2 := v }
  | _ => { y with l3 := v }

/-- AGEN (09 R252) -/
def execAgen (f : Full) (gen : Fin 8) (field : BitVec 3) (s : State) : Host.Outcome State Fault Refusal :=
  s.issue (.agen f gen field) f fun s =>
    if s.gLanes f = 0 then s.advance
    else
      (s.modCur fun x =>
        { x with gens := Store.put x.gens Gen.blank gen.val ((x.gen gen.val).set field.toNat (s.src f f.a (field == 0) 0)) }).advance

/-- A loop index. -/
def Group.index4 (x : Group) (k : Nat) : Int := ((Store.get x.idx 0 k).toNat : Int)

/-- The address of element p of warp w: modulo 2^64 in global memory, elsewhere an exact integer (09 R254). -/
def Group.genAddr (x : Group) (k : Nat) (sp : Space) (size : Nat) (off : BitVec 10) (p w : Nat) : Int :=
  let y := x.gen k
  let e : Int := y.base.toNat + p * y.lane.toInt + w * y.warp.toInt + x.index4 0 * y.l0.toInt + x.index4 1 * y.l1.toInt +
    x.index4 2 * y.l2.toInt + x.index4 3 * y.l3.toInt + off.toInt * size
  match sp with
  | .g => ((BitVec.ofInt 64 e).toNat : Int)
  | _ => e

/-! ### `aload` (09 R253, R254; 03 R66, R67, R75, R76) -/

/-- The warp from w on, in cyclic order, that has not ended. -/
def Group.nextWarp (x : Group) (w : Nat) : Option Nat :=
  ((List.range x.nwarp).map fun k => (w + k) % x.nwarp).find? fun k => !(x.warp k).ended

/-- The target warps of an `aload` on queue q (03 R76). -/
def State.targets (s : State) (q : Nat) (sel : BitVec 10) : List Nat :=
  let x := s.curGroup
  let open1 (w : Nat) : List Nat := if (x.warp w).ended then [] else [w]
  match (sel.extractLsb' 8 2).toNat with
  | 0 => open1 (sel.extractLsb' 0 8).toNat
  | 1 => (x.nextWarp (Store.get x.rr 0 q)).toList
  | 2 => x.wids.filter fun w => !(x.warp w).ended
  | _ => open1 (s.sreg (sel.extractLsb' 0 8).toNat).toNat

/-- The slip limit of a queue of a warp (03 R63, R75). -/
def Group.slipOf (x : Group) (w q : Nat) : Nat :=
  let set := ((x.warp w).queue q).slip
  let d := x.kernel.queueDepth q
  let dflt := if x.kernel.slip = 0 then d else x.kernel.slip
  min d (if set = 0 then dflt else set)

/-- The queue of a warp has room for an entry. -/
def Group.hasRoom (x : Group) (q w : Nat) : Bool := decide (((x.warp w).queue q).entries.length < x.slipOf w q)

/-- The data of an element as its queue holds it (09 R237, R253). -/
def elemData (acc : BitVec 3) (x : Nat) : W64 :=
  match loadWords acc x with
  | [a] => a.setWidth 64
  | [a, b] => pair64 a b
  | _ => 0

/-- A load of a queue element: its data, or its fault (03 R66). -/
def State.loadElem (s : State) (grp : Nat) (acc : BitVec 3) (m : MemMod) (ea : Int) : QElem × State :=
  let a := (s.group grp).agent
  match s.spot grp a ⟨m.space, ea, accSize acc, .load, readLevel m⟩ with
  | .error f => (.pendingFault f.cause (BitVec.ofInt 64 ea) f.kind.isSome, s)
  | .ok (p, t) =>
    let r := t.loadAt grp 64 a p (accSize acc) m
    (.pending (elemData acc r.1), r.2)

/-- An entry allocated at the tail of a queue of warp w, with its loads (03 R66, R67). -/
def State.allocEntry (s : State) (q : Nat) (acc : BitVec 3) (m : MemMod) (addr : Nat → Int) (w : Nat) : State :=
  let r := (List.range s.curGroup.kernel.width).foldl (fun (r : List QElem × State) p =>
    let e := r.2.loadElem s.cur.grp acc m (addr p)
    (r.1 ++ [e.1], e.2)) ([], s)
  r.2.modWarp s.cur.grp w fun y => y.modQueue q fun k => { k with entries := k.entries ++ [⟨k.tail, acc, m, r.1⟩], tail := k.tail + 1 }

/-- The round-robin pointer of a queue after a round-robin `aload` (03 R76). -/
def State.turn (s : State) (q : Nat) (sel : BitVec 10) (ts : List Nat) : State :=
  match (sel.extractLsb' 8 2).toNat, ts with
  | 1, w :: _ => s.modCur fun x => { x with rr := Store.put x.rr 0 q ((x.nextWarp (w + 1)).getD 0) }
  | _, _ => s

/-- The WID that an s register names is no warp's (09 R253). -/
def State.badSel (s : State) (sel : BitVec 10) : Bool :=
  sel.extractLsb' 8 2 == 3 && decide (s.curGroup.nwarp ≤ (s.sreg (sel.extractLsb' 0 8).toNat).toNat)

/-- ALOAD (09 R253, R254) -/
def execAload (f : Full) (gen : Fin 8) (acc : BitVec 3) (m : MemMod) (sel off : BitVec 10) (s : State) :
    Host.Outcome State Fault Refusal :=
  s.issue (.aload f gen acc m sel off) f fun s =>
    let q := queueNo f.d
    if s.gLanes f = 0 then s.advance
    else if s.badSel sel then
      s.trap { s.decodeTrap .reservedField 0 0 0 with i3 := (s.sreg (sel.extractLsb' 0 8).toNat).setWidth 64 }
    else
      let ts := s.targets q sel
      if !(ts.all (s.curGroup.hasRoom q)) then s.park .qfull
      else
        let addr (w p : Nat) : Int := s.curGroup.genAddr gen.val m.space (accSize acc) off p w
        ((ts.foldl (fun t w => t.allocEntry q acc m (addr w) w) s).turn q sel ts).advance

/-- The element has returned (03 R66). -/
def QElem.land : QElem → QElem
  | .pending x => .data x
  | .pendingFault c a srv => .fault c a srv
  | x => x

/-- QUEUE_ELEMENT_RETURN (03 R66): an entry becomes READY or POISONED with its last element; an entry that every live lane has
passed returns to EMPTY. -/
def execQueueElementReturn (grp wid q seq lane : Nat) (s : State) : Host.Outcome State Fault Refusal :=
  let landIn (e : QEntry) : QEntry :=
    if e.seq == seq then { e with elems := (e.elems.zipIdx).map fun p => if p.2 == lane then p.1.land else p.1 } else e
  .next (s.modWarp grp wid fun w => w.modQueue q fun k => Queue.retire { k with entries := k.entries.map landIn } w.live)

/-! ### The other A-stream forms -/

/-- ASTORE (09 R255) -/
def execAstore (f : Full) (gen : Fin 8) (acc : BitVec 3) (m : MemMod) (off : BitVec 10) (s : State) :
    Host.Outcome State Fault Refusal :=
  s.issue (.astore f gen acc m off) f fun s =>
    let n := accSize acc
    s.memForm f m.space n .store (fun _ => s.curGroup.genAddr gen.val m.space n off 0 0) (fun _ => s.writeLevel 64 m) false fun l t =>
      (l.foldl (fun t p => t.storeAt s.cur.grp 64 s.agent p.2 n (s.src f f.d (acc == 3) 0).toNat m) t).advance

/-- APF (09 R256) -/
def execApf (f : Full) (gen : Fin 8) (hint : BitVec 2) (off : BitVec 10) (s : State) : Host.Outcome State Fault Refusal :=
  s.issue (.apf f gen hint off) f fun s => s.advance

/-- ALOOP (09 R257) -/
def execAloop (f : Full) (k : Fin 4) (off : BitVec 30) (s : State) : Host.Outcome State Fault Refusal :=
  s.issue (.aloop f k off) f fun s =>
    if s.gLanes f = 0 then s.advance
    else
      let i := Store.get s.curGroup.idx 0 k.val + 1
      let t := bundleOf s.cur.pc + (off.signExtend 64 <<< 5)
      if i.ult (s.src32 f f.c 0) then (s.modCur fun x => { x with idx := Store.put x.idx 0 k.val i }).jump fun _ => t
      else (s.modCur fun x => { x with idx := Store.put x.idx 0 k.val 0 }).advance

/-- AEND (09 R258, 03 R80): an ended stream counts as arrived at every barrier (07 R186). -/
def execAend (f : Full) (s : State) : Host.Outcome State Fault Refusal :=
  s.issue (.aend f) f fun s =>
    if s.gLanes f = 0 then s.advance
    else (s.advance.modCur Group.endA).settleBarriers s.cur.grp

/-- APOP (09 R258, 03 R77): an acquire at .grp. -/
def execApop (f : Full) (s : State) : Host.Outcome State Fault Refusal :=
  s.issue (.apop f) f fun s =>
    if s.gLanes f = 0 then s.advance
    else match s.curGroup.qb with
      | [] => s.park .qback
      | v :: r => ((s.modCur fun x => { x with qb := r }).writeDst f.d true false 1 fun _ => v).advance

/-- ABQ (09 R258) -/
def execAbq (f : Full) (z : Bool) (off : BitVec 30) (s : State) : Host.Outcome State Fault Refusal :=
  s.issue (.abq f z off) f fun s =>
    if s.gLanes f = 0 then s.advance
    else match s.curGroup.qb with
      | [] => s.park .qback
      | v :: r =>
        let t := s.modCur fun x => { x with qb := r }
        if (v == 0) == z then t.jump fun _ => bundleOf s.cur.pc + (off.signExtend 64 <<< 5) else t.advance

/-- ASLIP (09 R258, 03 R75) -/
def execAslip (f : Full) (q : Fin 8) (s : State) : Host.Outcome State Fault Refusal :=
  s.issue (.aslip f q) f fun s =>
    if s.gLanes f = 0 then s.advance
    else
      let n := min (max (s.src32 f f.a 0).toNat 1) 16
      (s.modCur fun x => x.mapWarps fun _ w => w.modQueue q.val fun k => { k with slip := n }).advance

end Sys2Proof.Machine
end

