-- ==== Sys2Proof/Machine/Texture.lean ====
section
/-!
DEFINITION. Texture and image forms, `attr` and `vbw` (spec/12_graphics_pipeline.md R346 to R353). A sample is computed when its form
issues and becomes visible at a marker (notes/assumptions/22.md); a lane that meets a fault leaves a request, which
LOAD_RESULT_LAND makes again or ends (R351).
-/

namespace Sys2Proof.Machine

/-! ### Descriptors (R347) -/

/-- A texture descriptor. -/
abbrev TDesc := W512

/-- A field of a descriptor as a number. -/
def tField (d : TDesc) (lo n : Nat) : Nat := (d.extractLsb' lo n).toNat
/-- BASE -/
def tBase (d : TDesc) : W64 := d.extractLsb' 0 64
/-- WIDTH, HEIGHT and DEPTH in texels or layers. -/
def tSize (d : TDesc) (k : Nat) : Nat := tField d (64 + 16 * k) 16 + 1
/-- LEVELS, the number of levels less one. -/
def tLevels (d : TDesc) : Nat := tField d 112 4
/-- DIM -/
def tDim (d : TDesc) : Nat := tField d 116 4
/-- FMT -/
def tFmt (d : TDesc) : Nat := tField d 120 8
/-- MAGF and MINF: linear. -/
def tLinear (d : TDesc) (mag : Bool) : Bool := (if mag then tField d 128 2 else tField d 130 2) == 1
/-- MIP -/
def tMip (d : TDesc) : Nat := tField d 132 2
/-- The address mode of an axis. -/
def tAddr (d : TDesc) (k : Nat) : Nat := tField d (134 + 3 * k) 3
/-- NORM -/
def tNorm (d : TDesc) : Bool := d.getLsbD 143
/-- BIAS in units of 2^-8. -/
def tBias (d : TDesc) : Int := (d.extractLsb' 144 16).toInt
/-- BORDER channel k. -/
def tBorder (d : TDesc) (k : Nat) : Nat := tField d (192 + 16 * k) 16

/-- The mipmapped axes. -/
def tAxes (d : TDesc) : Nat := match tDim d with | 0 => 1 | 1 => 2 | 2 => 3 | _ => 2
/-- The coordinates of a DIM, the layer included. -/
def tCoords (d : TDesc) : Nat := match tDim d with | 0 => 1 | 1 => 2 | _ => 3
/-- The third coordinate is a layer. -/
def tArray (d : TDesc) : Bool := tDim d == 3
/-- The size of axis k at a level. -/
def tSizeAt (d : TDesc) (l k : Nat) : Nat := if k < tAxes d then max 1 (tSize d k / 2 ^ l) else tSize d k

/-- Bytes of a texel. -/
def texelBytes (fmt : Nat) : Nat :=
  match fmt with
  | 0x00 => 1 | 0x01 => 4 | 0x02 => 4 | 0x03 => 2 | 0x04 => 8 | 0x05 => 4 | 0x06 => 16 | 0x07 => 4 | 0x08 => 16 | _ => 2
/-- Channels of a format. -/
def texelChannels (fmt : Nat) : Nat :=
  match fmt with
  | 0x01 => 4 | 0x02 => 4 | 0x04 => 4 | 0x06 => 4 | 0x08 => 4 | _ => 1
/-- The format holds 32-bit integers. -/
def fmtU32 (fmt : Nat) : Bool := fmt == 0x07 || fmt == 0x08

/-- The descriptor is null (R347); n is the number of coordinates, where the form has any. -/
def tNull (d : TDesc) (n : Option Nat) : Bool :=
  let top := (List.range (tAxes d)).foldl (fun m k => max m (tSize d k)) 1
  decide (9 < tFmt d) || decide (3 < tDim d) || decide (1 < tField d 128 2) || decide (1 < tField d 130 2) || tMip d == 3 ||
    (List.range 3).any (fun k => decide (3 < tAddr d k)) || decide (Nat.log2 top < tLevels d) ||
    d.extractLsb' 160 32 != 0 || d.extractLsb' 256 256 != 0 || tField d 0 8 != 0 || n.any (· != tCoords d)

/-- The pitch of a level's rows in bytes. -/
def tPitch (d : TDesc) (l : Nat) : Nat := (tSizeAt d l 0 * texelBytes (tFmt d) + 127) / 128 * 128
/-- The rows of one slice or layer of a level, and its slices or layers. -/
def tRows (d : TDesc) (l : Nat) : Nat := if tDim d = 0 then 1 else tSizeAt d l 1
/-- Slices or layers of a level. -/
def tSlices (d : TDesc) (l : Nat) : Nat := if tDim d < 2 then 1 else tSizeAt d l 2
/-- The offset of a level from BASE. -/
def tLevelOff (d : TDesc) (l : Nat) : Nat :=
  (List.range l).foldl (fun a k => a + tPitch d k * tRows d k * tSlices d k) 0
/-- The address of a texel. -/
def texelAddr (d : TDesc) (l : Nat) (ix : List Nat) : W64 :=
  tBase d + BitVec.ofNat 64 (tLevelOff d l + tPitch d l * (tRows d l * ix.getD 2 0 + ix.getD 1 0) +
    texelBytes (tFmt d) * ix.getD 0 0)

/-! ### Texels (R348) -/

/-- The largest r with r^5 ≤ n, by bits from the given one down. -/
def root5 (bit : Nat) (n : Nat) (r : Nat) : Nat :=
  match bit with
  | 0 => if (r + 1) ^ 5 ≤ n then r + 1 else r
  | b + 1 => root5 b n (if (r + 2 ^ (b + 1)) ^ 5 ≤ n then r + 2 ^ (b + 1) else r)

/-- A rational that every rounding to FP32 treats as q^(12/5), for 0 < q ≤ 1. -/
def pow12over5 (q : Rat) : Rat :=
  let x := q ^ 12 * ((2 ^ 800 : Nat) : Rat)
  let n := x.num.natAbs / x.den
  let r := root5 160 n 0
  if mkRat (r ^ 5) 1 = x then mkRat r (2 ^ 160) else between r

/-- The sRGB decoding of a code (PRESUMED: the constants of IEC 61966-2-1, notes/assumptions/29.md). -/
def srgbDecode (v : Nat) : Rat :=
  let c := mkRat v 255
  if c ≤ mkRat 4045 100000 then c * mkRat 100 1292 else pow12over5 ((c + mkRat 55 1000) / mkRat 1055 1000)

/-- The sRGB code nearest to the encoding of q in [0, 1], ties even: the codes below it are those whose upper midpoint the encoding
exceeds. -/
def srgbEncode (q : Rat) : Nat :=
  let above (k : Nat) : Bool :=
    let m := mkRat (2 * k + 1) 510
    if q ≤ mkRat 31308 10000000 then
      decide (m < q * mkRat 1292 100) || (decide (m = q * mkRat 1292 100) && k % 2 == 1)
    else
      let y := (m + mkRat 55 1000) / mkRat 1055 1000
      decide (y ^ 12 < q ^ 5) || (decide (y ^ 12 = q ^ 5) && k % 2 == 1)
  ((List.range 255).filter above).length

/-- A channel read to FP32, or as 32 bits (R348). -/
def channelRead (fmt k bits : Nat) : W32 :=
  match fmt with
  | 0x00 => xround .rne (xrat (mkRat bits 255))
  | 0x01 => xround .rne (xrat (mkRat bits 255))
  | 0x02 => xround .rne (xrat (if k = 3 then mkRat bits 255 else srgbDecode bits))
  | 0x03 => BitVec.ofNat 32 (Fmt.f32.enc (Fmt.f16.dec bits))
  | 0x04 => BitVec.ofNat 32 (Fmt.f32.enc (Fmt.f16.dec bits))
  | 0x05 => BitVec.ofNat 32 (Fmt.f32.enc (Fmt.f32.dec bits))
  | 0x06 => BitVec.ofNat 32 (Fmt.f32.enc (Fmt.f32.dec bits))
  | 0x09 => BitVec.ofNat 32 (Fmt.f32.enc (Fmt.bf16.dec bits))
  | _ => BitVec.ofNat 32 bits

/-- A value in [0, 1] as the nearest code of 255, ties even; NaN gives 0. -/
def unormWrite (x : XR) : Nat :=
  match x with
  | .nan _ => 0
  | .inf n => if n then 0 else 255
  | .zero _ => 0
  | .num q => roundNat .rne false (max 0 (min 1 q) * 255)

/-- A channel written from a register (R348). -/
def channelWrite (fmt k : Nat) (w : W32) : Nat :=
  let x := xrOf w
  match fmt with
  | 0x00 => unormWrite x
  | 0x01 => unormWrite x
  | 0x02 =>
    if k = 3 then unormWrite x
    else match x with
      | .num q => srgbEncode (max 0 (min 1 q))
      | .inf n => if n then 0 else 255
      | _ => 0
  | 0x03 => (roundFmt .f16 .rne false x).1
  | 0x04 => (roundFmt .f16 .rne false x).1
  | 0x09 => (roundFmt .bf16 .rne false x).1
  | _ => w.toNat

/-- The four channels of a texel's bytes; missing channels read 0, 0, 0 and 1. -/
def texelRead (fmt x : Nat) : List W32 :=
  let c := texelChannels fmt
  let w := 8 * texelBytes fmt / c
  (List.range 4).map fun k =>
    if k < c then channelRead fmt k (x / 2 ^ (w * k) % 2 ^ w)
    else if k = 3 then (if fmtU32 fmt then 1 else 0x3F800000) else 0

/-- The bytes of a texel written from four registers. -/
def texelWrite (fmt : Nat) (ws : List W32) : Nat :=
  let c := texelChannels fmt
  let w := 8 * texelBytes fmt / c
  (List.range c).foldl (fun acc k => acc + channelWrite fmt k (ws.getD k 0) * 2 ^ (w * k)) 0

/-! ### Sampling (R349) -/

/-- A computation of the texture path over the state. -/
abbrev TexM (α : Type) := StateT State (Except AccFault) α

/-- A plain load of a group's lane at an address aligned to n. -/
def texLoad (grp : Nat) (a : W64) (n : Nat) : TexM Nat := fun s =>
  match s.spot grp (s.group grp).agent ⟨.g, (a.toNat : Int), n, .load, 0⟩ with
  | .error f => .error f
  | .ok (p, t) => .ok (t.readSpot grp (s.group grp).agent p n 0)

/-- The index that an address mode makes of one; none reads BORDER. -/
def addrMode (mode : Nat) (i : Int) (n : Nat) : Option Nat :=
  match mode with
  | 0 => some (i % (n : Int)).toNat
  | 1 => some (clampInt 0 ((n : Int) - 1) i).toNat
  | 2 =>
    let m := (i % (2 * n : Nat)).toNat
    some (if m < n then m else 2 * n - 1 - m)
  | _ => if 0 ≤ i ∧ i < n then some i.toNat else none

/-- The greatest integer not above a rational. -/
def ratFloor (q : Rat) : Int := q.num / (q.den : Int)

/-- The texel positions of one axis with their weights, for a coordinate in texels. -/
def axisTaps (linear : Bool) (u : Rat) : List (Int × Rat) :=
  if linear then
    let x := u - mkRat 1 2
    let i := ratFloor x
    let a := mkRat (roundInt .rne ((x - mkRat i 1) * 256)) 256
    [(i, 1 - a), (i + 1, a)]
  else [(ratFloor u, 1)]

/-- The combinations of the axes' taps with the products of their weights. -/
def taps (l : List (List (Int × Rat))) : List (List Int × Rat) :=
  match l with
  | [] => [([], 1)]
  | x :: r => x.flatMap fun p => (taps r).map fun q => (p.1 :: q.1, p.2 * q.2)

/-- The four channels of the texel at indices of a level, after the address modes; the layer of an array is given apart. -/
def texelAt (grp : Nat) (d : TDesc) (l : Nat) (ix : List Int) (layer : Option Nat) : TexM (List W32) := fun s =>
  match (ix.zipIdx).mapM fun p => addrMode (tAddr d p.2) p.1 (tSizeAt d l p.2) with
  | none =>
    if fmtU32 (tFmt d) then .ok ((List.range 4).map fun k => (Config.freeWord s.draws k).setWidth 32, s.draw)
    else .ok ((List.range 4).map fun k => BitVec.ofNat 32 (Fmt.f32.enc (Fmt.f16.dec (tBorder d k))), s)
  | some js =>
    let js := match layer with | some y => [js.getD 0 0, js.getD 1 0, y] | none => js
    match texLoad grp (texelAddr d l js) (texelBytes (tFmt d)) s with
    | .error f => .error f
    | .ok (x, t) => .ok (texelRead (tFmt d) x, t)

/-- An exact weighted sum rounded once; the sign of a zero follows the terms (05 R128). -/
def weighted (l : List (Rat × W32)) : W32 :=
  match l.map fun p => xtimes (xrat p.1) (xrOf p.2) with
  | [] => 0
  | x :: r => xround .rne (r.foldl xplus x)

/-- The channels of weighted texels; 32-bit integers are the one texel's own bits. -/
def blend (fmt : Nat) (l : List (Rat × List W32)) : List W32 :=
  (List.range 4).map fun k =>
    if fmtU32 fmt then (l.head?.map fun p => p.2.getD k 0).getD 0
    else weighted (l.map fun p => (p.1, p.2.getD k 0))

/-- 256 * Log2 of the square root of r > 0, rounded to an integer; no r comes half way (R349). -/
def log2Units (r : Rat) : Int := (floorLog2 (r ^ 256) + 1) / 2

/-- A level of detail with its bias, in units of 2^-8: none is NaN; the infinities lie beyond every level. -/
def lodUnits (bias : Int) (x : XR) : Option Int :=
  match x with
  | .nan _ => none
  | .inf n => some (if n then -1000000 else 1000000)
  | .zero _ => some bias
  | .num q => some (roundInt .rne (q * 256 + mkRat bias 1))

/-- The squared norm of a vector. -/
def normSq (v : List XR) : XR := (sumExact (v.map fun x => xmul x x)).1

/-- Log2 of rho in units of 2^-8, from the square of rho. -/
def rhoUnits (r : XR) : Option Int :=
  match r with
  | .nan _ => none
  | .inf _ => some 1000000
  | .zero _ => some (-1000000)
  | .num q => some (log2Units q)

/-- The greater of two squared norms; a NaN stays. -/
def normMax (a b : XR) : XR := if a.isNan || b.isNan then .nan false else xmax a b

/-- lam of R349 before its clamp, in units of 2^-8. -/
def TexReq.lam (q : TexReq) (d : TDesc) : Int :=
  let n := tAxes d
  let pt (k : Nat) : List XR := (List.range n).map fun i => xrOf ((q.pts.getD k []).getD i 0)
  let scale (l : List XR) : List XR := (l.zipIdx).map fun p => xtimes p.1 (xrat (tSize d p.2 : Rat))
  let span (k : Nat) : XR := normSq (List.zipWith xminus (scale (pt k)) (scale (pt 0)))
  let biased (k : Option Int) : Option Int := k.map (· + tBias d)
  let own : Option Int :=
    match q.form with
    | 1 => lodUnits (tBias d) (xrOf (q.aux.getD 0 0))
    | 2 =>
      let g (o : Nat) : List XR := (List.range n).map fun i => xrOf (q.aux.getD (o + i) 0)
      biased (rhoUnits (normMax (normSq (scale (g 0))) (normSq (scale (g q.n)))))
    | _ => biased (if q.quad then rhoUnits (normMax (span 1) (span 2)) else some 0)
  own.getD 0

/-- The levels sampled and their weights, and whether the filter is MAGF (R349). -/
def TexReq.levels (q : TexReq) (d : TDesc) : List (Nat × Rat) × Bool :=
  if !tNorm d then ([(0, 1)], true)
  else
    let lam := q.lam d
    let c := (clampInt 0 (256 * (tLevels d : Int)) lam).toNat
    let mip := if fmtU32 (tFmt d) && tMip d == 2 then 1 else tMip d
    let ls : List (Nat × Rat) :=
      match mip with
      | 0 => [(0, 1)]
      | 1 => [((c + 128) / 256, 1)]
      | _ => let f := mkRat (c % 256) 256; [(c / 256, 1 - f), (min (c / 256 + 1) (tLevels d), f)]
    (ls, decide (lam ≤ 0))

/-- Four free values, where a coordinate is no number the manual gives a texel for. -/
def freeTexel : TexM (List W32) := fun s =>
  .ok ((List.range 4).map fun k => (Config.freeWord s.draws k).setWidth 32, s.draw)

/-- The layer that the third coordinate of an array names; none where it is a NaN. -/
def layerOf (d : TDesc) (x : XR) : Option Nat :=
  let top : Int := (tSize d 2 : Int) - 1
  match x with
  | .nan _ => none
  | .inf n => some (if n then 0 else top.toNat)
  | .zero _ => some 0
  | .num q => some (clampInt 0 top (roundInt .rne q)).toNat

/-- A sample (R349). -/
def TexReq.sample (q : TexReq) (d : TDesc) : TexM (List W32) := do
  let c := (q.pts.getD 3 []).map xrOf
  let lay := if tArray d then layerOf d (c.getD 2 (.nan false)) else some 0
  match rats (c.take (tAxes d)), lay with
  | some cs, some y =>
    let lv := q.levels d
    let linear := tLinear d lv.2 && !fmtU32 (tFmt d)
    let parts ← lv.1.mapM fun lw => do
      let us := (cs.zipIdx).map fun p => if tNorm d then p.1 * (tSizeAt d lw.1 p.2 : Rat) else p.1
      (taps (us.map (axisTaps linear))).mapM fun t => do
        let x ← texelAt q.grp d lw.1 t.1 (if tArray d then some y else none)
        pure (lw.2 * t.2, x)
    pure (blend (tFmt d) parts.flatten)
  | _, _ => freeTexel

/-- The indices of an image access that lie in the image's level (R350). -/
def imageIndex (d : TDesc) (level : Nat) (c : List W32) : Option (List Nat) :=
  if tLevels d < level then none
  else (((c.take (tCoords d)).zipIdx).mapM fun p =>
    if 0 ≤ p.1.toInt ∧ p.1.toInt < (tSizeAt d level p.2 : Int) then some p.1.toInt.toNat else none)

/-- The four words of a request (R347 to R350). -/
def TexReq.result (q : TexReq) : TexM (List W32) := do
  let x ← texLoad q.grp q.desc 64
  let d : TDesc := BitVec.ofNat 512 x
  let own := q.pts.getD 3 []
  if tNull d (if q.form = 3 then none else some q.n) then pure [0, 0, 0, 0]
  else
    match q.form with
    | 3 =>
      let l := (own.getD 0 0).toNat
      if tLevels d < l then pure [0, 0, 0, 0]
      else pure [BitVec.ofNat 32 (tSizeAt d l 0), BitVec.ofNat 32 (tSizeAt d l 1), BitVec.ofNat 32 (tSizeAt d l 2),
        BitVec.ofNat 32 (tLevels d + 1)]
    | 4 =>
      match imageIndex d (q.aux.getD 0 0).toNat own with
      | none => pure [0, 0, 0, 0]
      | some ix => do
        let v ← texLoad q.grp (texelAddr d (q.aux.getD 0 0).toNat ix) (texelBytes (tFmt d))
        pure (texelRead (tFmt d) v)
    | _ => q.sample d

/-! ### The loading forms (R346, R351) -/

/-- A request number. -/
def State.tex (s : State) (n : Nat) : TexReq := Store.get s.eng.texs TexReq.blank n
/-- The state with a request replaced. -/
def State.setTex (s : State) (n : Nat) (q : TexReq) : State :=
  { s with eng := { s.eng with texs := Store.put s.eng.texs TexReq.blank n q } }

/-- Words of a run of registers from an operand. -/
def State.srcRun (s : State) (f : Full) (x : Operand) (n lane : Nat) : List W32 :=
  (List.range n).map fun k => s.src32 f (operandPlus x k) lane

/-- The lane whose coordinates quad lane j supplies to lane l (02 R49). -/
def State.quadLane (s : State) (l j : Nat) : Nat :=
  let q := l - l % 4 + j
  if s.cur.lanes.getLsbD q then q else l

/-- A neighbour of a lane is absent from its quad (02 R49). -/
def State.quadAbsent (s : State) (l : Nat) : Bool := (List.range 4).any fun j => !s.cur.lanes.getLsbD (l - l % 4 + j)

/-- The request of a lane. -/
def State.texReq (s : State) (f : Full) (form n : Nat) (auxN : Nat) (l : Nat) : TexReq :=
  ⟨true, s.cur.grp, s.cur.wid, l, form, n, s.src f f.b true l,
    ([0, 1, 2].map fun j => s.srcRun f f.a n (s.quadLane l j)) ++ [s.srcRun f f.a n l],
    s.srcRun f f.c auxN l, s.curGroup.kernel.quadlock, s.cur.pc, .addrFault, 0, none⟩

/-- The fault record of a request's access (17 R419); the trap would hold 0 and the slot's address (R351). -/
def State.texRecord (s : State) (q : TexReq) (f : AccFault) (k : Nat) : FaultReq :=
  let x := s.group q.grp
  ⟨x.part, x.asid, k, 0, accField .load .g, f.cause, f.cause, f.addr, s.faultBits (s.ctx x.ctxKey) f, x.core + q.wid * 2 ^ 16, q.slotPc,
    laneBit q.lane, 0, q.slotPc, 0, f.stage2⟩

/-- The fault of a request: it waits on the fault server, or is to be delivered at the marker (R351). -/
def State.texFault (s : State) (id : Nat) (q : TexReq) (f : AccFault) : State :=
  match f.kind with
  | some k =>
    let r := s.postFault (s.texRecord q f k)
    r.2.setTex id { q with cause := f.cause, addr := f.addr, tok := some r.1 }
  | none => s.setTex id { q with cause := f.cause, addr := f.addr, tok := none }

/-- One lane of a loading form: its result, or the request it leaves. -/
def State.texLane (s : State) (live : Lanes) (q : TexReq) : Except Nat (List W32) × State :=
  match q.result s with
  | .ok (v, t) => (.ok v, t)
  | .error f =>
    if live.getLsbD q.lane then
      let id := s.eng.nextId
      let t := s.texFault id q f
      (.error id, { t with eng := { t.eng with nextId := id + 1 } })
    else (.ok [0, 0, 0, 0], s)

/-- A loading form: QPART where a sample misses a quad neighbour, then every guard-true lane's result or request. -/
def State.texForm (s : State) (f : Full) (form n auxN : Nat) : State :=
  let g := s.gLanes f
  let fl := if form = 0 && s.curGroup.kernel.quadlock then
      (laneList (s.gLive f)).map fun l => (l, flagIf (s.quadAbsent l) flagQPART)
    else []
  match s.flagTrap fl with
  | some t => s.trap t
  | none =>
    let live := s.liveMask
    let r := (laneList g).foldl (fun (acc : List (Nat × Except Nat (List W32)) × State) l =>
      let x := acc.2.texLane live (s.texReq f form n auxN l)
      (acc.1 ++ [(l, x.1)], x.2)) ([], s)
    let of (l : Nat) : Except Nat (List W32) := ((r.1.find? fun p => p.1 == l).map Prod.snd).getD (.ok [0, 0, 0, 0])
    let good := laneMask g fun l => match of l with | .ok _ => true | .error _ => false
    let tag := s.draws
    let t := { r.2 with draws := tag }
    let t := t.pendDst f.d (fun _ => .mem) false good fun l => match of l with | .ok v => v | .error _ => []
    let t := t.pendDst f.d (fun l => match of l with | .error id => .tex id | .ok _ => .mem) false (g &&& ~~~good) fun _ => [0, 0, 0, 0]
    (({ t with draws := r.2.draws }).raise fl).advance

/-- TEX (R349) -/
def execTex (f : Full) (n : BitVec 2) (s : State) : Host.Outcome State Fault Refusal :=
  s.issue (.tex f n) f fun s => s.texForm f 0 n.toNat 0

/-- TEXL (R349) -/
def execTexl (f : Full) (n : BitVec 2) (s : State) : Host.Outcome State Fault Refusal :=
  s.issue (.texl f n) f fun s => s.texForm f 1 n.toNat 1

/-- TEXG (R349) -/
def execTexg (f : Full) (n : BitVec 2) (s : State) : Host.Outcome State Fault Refusal :=
  s.issue (.texg f n) f fun s => s.texForm f 2 n.toNat (2 * n.toNat)

/-- TEXQ (R350) -/
def execTexq (f : Full) (s : State) : Host.Outcome State Fault Refusal :=
  s.issue (.texq f) f fun s => s.texForm f 3 1 0

/-- IMLD (R350) -/
def execImld (f : Full) (n : BitVec 2) (s : State) : Host.Outcome State Fault Refusal :=
  s.issue (.imld f n) f fun s => s.texForm f 4 n.toNat 1

/-! ### The landing of a request (R351) -/

/-- The results of a request land: its words, and a fatal fault awaits its marker. -/
def Warp.landTex (w : Warp) (id : Nat) (q : TexReq) (fatal : Bool) (v : List W32) : Warp :=
  let mine (p : Pend) : Bool := p.kind == .tex id
  let lane := (w.pend.find? mine).map (·.lane)
  { w with
    pend := w.pend.map fun p => if mine p then { p with val := v.getD (p.reg % 4) 0, landed := true } else p
    errs := match lane with
      | some l => if fatal then w.errs ++ [⟨l, q.cause, 0, q.slotPc, q.desc, q.addr, false⟩] else w.errs
      | none => w.errs }

/-- A request's results land in the warp that holds its lane. -/
def State.landTex (s : State) (id : Nat) (q : TexReq) (fatal : Bool) (v : List W32) : State :=
  (s.modGroup q.grp fun x => { x with warps := x.warps.map fun p => (p.1, p.2.landTex id q fatal v) }).setTex id TexReq.blank

/-- A request ends with its fault; the manual gives its lane no values. -/
def State.failTex (s : State) (id : Nat) (q : TexReq) : State :=
  (s.landTex id q true ((List.range 4).map fun k => (Config.freeWord s.draws k).setWidth 32)).draw

/-- What LOAD_RESULT_LAND does with a request: nothing while a verdict is out, the access again after RESOLVED, the end after FATAL. -/
def State.settleTex (s : State) (id : Nat) : State :=
  let q := s.tex id
  if !q.used then s
  else
    match q.tok with
    | none => s.failTex id q
    | some t =>
      match s.verdictOf t with
      | 0 => s
      | 1 =>
        match q.result s with
        | .ok (v, u) => u.landTex id q false v
        | .error f => s.texFault id q f
      | _ => s.failTex id q

/-! ### IMST and VBW (R350, R351, R353) -/

/-- Where a lane of `imst` stores, and what; nothing where R347 or R350 says so. -/
def State.imstLane (s : State) (f : Full) (n l : Nat) : Except (AccFault × Nat × W64) (Option (Spot × Nat × Nat) × State) :=
  let da := s.src f f.b true l
  match texLoad s.cur.grp da 64 s with
  | .error e => .error (e, 0, da)
  | .ok (x, t) =>
    let d : TDesc := BitVec.ofNat 512 x
    if tNull d (some n) then .ok (none, t)
    else
      let level := (s.src32 f f.c l).toNat
      match imageIndex d level (s.srcRun f f.a n l) with
      | none => .ok (none, t)
      | some ix =>
        let a := texelAddr d level ix
        let k := texelBytes (tFmt d)
        match t.spot s.cur.grp s.agent ⟨.g, (a.toNat : Int), k, .store, 0⟩ with
        | .error e => .error (e, k % 16, a)
        | .ok (p, t) => .ok (some (p, k, texelWrite (tFmt d) (s.srcRun f f.d 4 l)), t)

/-- The stores of the lanes, and the lanes that fail. -/
def State.imstLanes (s : State) (f : Full) (n : Nat) : List (Nat × Spot × Nat × Nat) × List (Nat × AccFault × Nat × W64) × State :=
  (laneList (s.gLive f)).foldl (fun acc l =>
    match acc.2.2.imstLane f n l with
    | .ok (some x, t) => (acc.1 ++ [(l, x.1, x.2.1, x.2.2)], acc.2.1, t)
    | .ok (none, t) => (acc.1, acc.2.1, t)
    | .error e => (acc.1, acc.2.1 ++ [(l, e.1, e.2.1, e.2.2)], acc.2.2)) ([], [], s)

/-- IMST (R350, R351) -/
def execImst (f : Full) (n : BitVec 2) (s : State) : Host.Outcome State Fault Refusal :=
  s.issue (.imst f n) f fun s =>
    let r := s.imstLanes f n.toNat
    match r.2.1 with
    | [] => (r.1.foldl (fun t p => t.storeAt s.cur.grp p.1 s.agent p.2.1 p.2.2.1 p.2.2.2 ⟨0, false, .plain, .rlx, .g⟩) r.2.2).advance
    | (_, e, size, a) :: _ =>
      let m := r.2.1.foldl (fun m p => if p.2.1.cause = e.cause then m ||| laneBit p.1 else m) 0
      s.accStop e (accField .store .g) (s.mkTrap e.cause m (BitVec.ofNat 64 size) a 0 0) m

/-- VBW (R353): `red.min.n64.rlx.dev` of b at a. -/
def execVbw (f : Full) (s : State) : Host.Outcome State Fault Refusal :=
  s.issue (.vbw f) f fun s =>
    let m : MemMod := ⟨0, false, .dev, .rlx, .g⟩
    s.memForm f .g 8 .both (fun l => ((s.src f f.a true l).toNat : Int)) (fun l => s.writeLevel l m) false fun l t =>
      (t.rmws f f.b 0x05 m l).2.advance

/-! ### ATTR (R352) -/

/-- log2 of sx or sy in a rate code: 3 is read as 2 (R340). -/
def rateLog (x : BitVec 2) : Nat := min 2 x.toNat

/-- The two results of `attr` for nine sources, a position and a rate code. -/
def attrOut (mode : Nat) (src : List W32) (pos : List W32) (rate : BitVec 4) : W32 × W32 :=
  match rats (src.map xrOf), rats (pos.map xrOf) with
  | some v, some p =>
    let V (i : Nat) : List Rat := [v.getD (3 * (i % 3)) 0, v.getD (3 * (i % 3) + 1) 0]
    let Q (i : Nat) : Rat := v.getD (3 * i + 2) 0
    let A := cross2 (vsub (V 1) (V 0)) (vsub (V 2) (V 0))
    let edge (i : Nat) : Rat := cross2 (vsub (V (i + 2)) (V (i + 1))) (vsub p (V (i + 1)))
    -- the derivative of an edge function in x and in y
    let dEdge (i : Nat) : Rat := let e := vsub (V (i + 2)) (V (i + 1)); if mode = 1 then -at3 e 1 else at3 e 0
    let den := edge 0 / A * Q 0 + edge 1 / A * Q 1 + edge 2 / A * Q 2
    let dden := dEdge 0 / A * Q 0 + dEdge 1 / A * Q 1 + dEdge 2 / A * Q 2
    if A = 0 ∨ den = 0 then (BitVec.ofNat 32 Fmt.f32.nanBits, BitVec.ofNat 32 Fmt.f32.nanBits)
    else
      let s : Rat := ((2 ^ (if mode = 1 then rateLog (rate.extractLsb' 0 2) else rateLog (rate.extractLsb' 2 2)) : Nat) : Rat)
      let w (i : Nat) : W32 :=
        xround .rne (xrat (if mode = 0 then edge i / A * Q i / den
          else s * (Q i * (dEdge i / A * den - edge i / A * dden) / (den * den))))
      (w 1, w 2)
  | _, _ => (BitVec.ofNat 32 Fmt.f32.nanBits, BitVec.ofNat 32 Fmt.f32.nanBits)

/-- ATTR (R352) -/
def execAttr (f : Full) (mode : BitVec 2) (s : State) : Host.Outcome State Fault Refusal :=
  s.issue (.attr f mode) f fun s =>
    s.alu f true none fun l =>
      let r := attrOut mode.toNat (s.srcRun f f.a 9 l) (s.srcRun f f.b 2 l) ((s.src32 f f.c l).setWidth 4)
      .pure (pair64 r.1 r.2)

end Sys2Proof.Machine
end

