-- ==== Sys2Proof/Machine/Traversal.lean ====
section
/-!
DEFINITION. The traversal unit (spec/11_traversal_unit.md R303 to R332): the five forms, the reads that start a ray, one step of a
hierarchy or a mesh, and the write-back that ends a ray.
-/

namespace Sys2Proof.Machine

/-! ### Rays and their blocks (R304 to R306) -/

/-- The ray with a number. -/
def State.ray (s : State) (n : Nat) : Ray := Store.get s.eng.rays Ray.blank n
/-- The state with a ray replaced. -/
def State.setRay (s : State) (n : Nat) (r : Ray) : State :=
  { s with eng := { s.eng with rays := Store.put s.eng.rays Ray.blank n r } }
/-- Word i of a block. -/
def rsbWord (b : W512) (i : Nat) : W32 := b.extractLsb' (32 * i) 32
/-- A block with word i replaced. -/
def setWord (b : W512) (i : Nat) (x : W32) : W512 :=
  (b &&& ~~~((0xFFFFFFFF#512) <<< (32 * i))) ||| (x.setWidth 512 <<< (32 * i))
/-- A block with two words replaced by the halves of a 64-bit value. -/
def setWide (b : W512) (i : Nat) (x : W64) : W512 := setWord (setWord b i (x.setWidth 32)) (i + 1) (x.extractLsb' 32 32)
/-- Two words of a block as 64 bits. -/
def blkWide (b : W512) (i : Nat) : W64 := pair64 (rsbWord b i) (rsbWord b (i + 1))
/-- Words of a block, decoded. -/
def blkVals (b : W512) (i n : Nat) : List XR := (List.range n).map fun k => xrOf (rsbWord b (i + k))

/-- STATUS values (R306). -/
inductive RayStatus where
  | hit | miss | endd | exit | opaque | full | suspended | degenerate | outside | error
  deriving DecidableEq, Repr

/-- The code of a status. -/
def RayStatus.code : RayStatus → Nat
  | .hit => 1 | .miss => 2 | .endd => 3 | .exit => 4 | .opaque => 5 | .full => 6 | .suspended => 7 | .degenerate => 8
  | .outside => 9 | .error => 10

/-- A STATE word. -/
def rayState (status mode depth cause zrun : Nat) : W32 :=
  BitVec.ofNat 32 (status * 2 ^ 28 + mode * 2 ^ 24 + depth * 2 ^ 16 + cause * 2 ^ 8 + zrun)
/-- STATUS of a block. -/
def blkStatus (b : W512) : Nat := ((rsbWord b 15).extractLsb' 28 4).toNat
/-- MODE of a block. -/
def blkMode (b : W512) : Nat := ((rsbWord b 15).extractLsb' 24 4).toNat
/-- ZRUN of a block. -/
def blkZrun (b : W512) : Nat := ((rsbWord b 15).extractLsb' 0 8).toNat
/-- NONE: no face, no accepted hit. -/
def noneWord : W32 := 0xFFFFFFFF
/-- STEPS of a block. -/
def blkSteps (b : W512) : Nat := (rsbWord b 14).toNat

/-- The ray has its final status or SUSPENDED and is to be written back. -/
def Ray.finish (r : Ray) (st : RayStatus) (depth : Nat) : Ray :=
  { r with
    phase := .ending
    blk := setWord r.blk 15 (rayState st.code (blkMode r.blk) depth 0 (blkZrun r.blk)) }

/-- The ray ends with ERROR (R327): its other words stand at the last completed step. -/
def Ray.fail (r : Ray) (c : Cause) (reason : Nat) (info : W64) : Ray :=
  { r with
    phase := .ending
    err := some (c, reason, info)
    tok := none
    blk := setWord r.blk 15 (rayState RayStatus.error.code (blkMode r.blk) 0 c.code (blkZrun r.blk)) }

/-! ### Accesses of a ray (R326, R327; 20 R468) -/

/-- Why a step of a ray does not complete: a fault on an access, a record of bad form, a limit. -/
inductive RayErr where
  | acc (f : AccFault) (need : Need) (space : Space)
  | fmt (reason : Nat) (addr : W64)
  | limit (reason : Nat)
  deriving DecidableEq, Repr

/-- A computation of a ray over the state. -/
abbrev RayM (α : Type) := StateT State (Except RayErr) α

/-- One access of a ray: n bytes at an address aligned to n. -/
def Ray.spot (r : Ray) (sp : Space) (a : W64) (n : Nat) (need : Need) : RayM Spot := fun s =>
  match s.spot r.grp (s.group r.grp).agent ⟨sp, (a.toNat : Int), n, need, 0⟩ with
  | .error f => .error (.acc f need sp)
  | .ok p => .ok p

/-- n bytes read at an address aligned to n. -/
def Ray.read1 (r : Ray) (sp : Space) (a : W64) (n : Nat) : RayM Nat := do
  let p ← r.spot sp a n .load
  fun s => .ok (s.readSpot r.grp (s.group r.grp).agent p n 0)

/-- k pieces of n bytes read from an address aligned to n. -/
def Ray.read (r : Ray) (sp : Space) (a : W64) (n k : Nat) : RayM Nat :=
  match k with
  | 0 => pure 0
  | m + 1 => do
    let x ← r.read1 sp a n
    let y ← r.read sp (a + BitVec.ofNat 64 n) n m
    pure (x + 2 ^ (8 * n) * y)

/-- A value written at an address aligned to its n bytes. -/
def Ray.write (r : Ray) (sp : Space) (a : W64) (n v : Nat) : RayM Unit := do
  let p ← r.spot sp a n .store
  fun s => .ok ((), s.writeSpot r.grp (s.group r.grp).agent p n v 0)

/-- The address that a descriptor's field names, o bytes on and n bytes long (20 R468). -/
def Ray.ref (r : Ray) (field : W64) (o n : Nat) : RayM W64 := fun s =>
  match s.engAddr (s.gctx r.grp) field o n .load with
  | .error f => .error (.acc f .load .g)
  | .ok a => .ok (a, s)

/-- A record of n bytes in pieces of its alignment, o bytes beyond what a descriptor's field names. -/
def Ray.record (r : Ray) (field : W64) (o align n : Nat) : RayM Nat := do
  let a ← r.ref field o n
  r.read .g a align (n / align)

/-- The computation ends with a record of bad form. -/
def badRecord {α : Type} (reason : Nat) (addr : W64) : RayM α := fun _ => .error (.fmt reason addr)
/-- The computation ends at a limit. -/
def atLimit {α : Type} (reason : Nat) : RayM α := fun _ => .error (.limit reason)
/-- A condition that a record must meet. -/
def check (ok : Bool) (reason : Nat) (addr : W64) : RayM Unit := if ok then pure () else badRecord reason addr

/-- 32-bit word i of a record read as a number. -/
def wordOf (x i : Nat) : W32 := BitVec.ofNat 32 (x / 2 ^ (32 * i))
/-- 64-bit field at word i of a record. -/
def wideOf (x i : Nat) : W64 := BitVec.ofNat 64 (x / 2 ^ (32 * i))
/-- Words of a record, decoded. -/
def valsOf (x i n : Nat) : List XR := (List.range n).map fun k => xrOf (wordOf x (i + k))

/-! ### Hierarchies (R307 to R311) -/

/-- The fields of a hierarchy descriptor. -/
def hDesc (d : W512) : (W64 × W64) × (Nat × Nat × Nat) × (Nat × Nat) :=
  ((blkWide d 0, blkWide d 2), ((rsbWord d 4).toNat, ((rsbWord d 5).extractLsb' 0 8).toNat, (rsbWord d 7).toNat),
    ((rsbWord d 6).toNat, (rsbWord d 8).toNat))
/-- NODEBASE -/
def nodeBase (d : W512) : W64 := (hDesc d).1.1
/-- TRIBASE -/
def triBase (d : W512) : W64 := (hDesc d).1.2
/-- ROOT -/
def hRoot (d : W512) : Nat := (hDesc d).2.1.1
/-- How many entries the spill area holds. -/
def spillRoom (d : W512) : Nat := 7 * (hDesc d).2.1.2.1 + 1
/-- NNODES -/
def hNodes (d : W512) : Nat := (hDesc d).2.1.2.2
/-- MAXSTEPS of a hierarchy -/
def hMaxSteps (d : W512) : Nat := (hDesc d).2.2.1
/-- NTRIS -/
def hTris (d : W512) : Nat := (hDesc d).2.2.2

/-- SPILL -/
def Ray.spill (r : Ray) : W64 := blkWide r.blk 12
/-- The mode is any-hit. -/
def Ray.isAny (r : Ray) : Bool := blkMode r.blk == 1
/-- The address of a record that lies n bytes beyond a field, for TINFO3. -/
def recAddr (field : W64) (o : Nat) : W64 := field + BitVec.ofNat 64 o

/-- Entries of a stack, given top first, written to their positions lo to hi - 1 from the bottom. -/
def Ray.spillOut (r : Ray) (stack : List (W32 × W32)) (lo hi : Nat) : RayM Unit :=
  ((stack.reverse.zipIdx).filter fun p => decide (lo ≤ p.2 ∧ p.2 < hi)).foldlM (fun _ p =>
    r.write r.space (r.spill + BitVec.ofNat 64 (8 * p.2)) 8 (p.1.1.toNat + 2 ^ 32 * p.1.2.toNat)) ()

/-- The entries of a spill area, the last one the top. -/
def Ray.spillIn (r : Ray) (n : Nat) : RayM (List (W32 × W32)) :=
  (List.range n).foldlM (fun acc k => do
    let x ← r.read1 r.space (r.spill + BitVec.ofNat 64 (8 * k)) 8
    pure ((wordOf x 0, wordOf x 1) :: acc)) []

/-- Entries whose key exceeds T are discarded in closest mode (R309). -/
def Ray.discard (r : Ray) : Ray :=
  if r.isAny then r
  else { r with stack := r.stack.dropWhile fun e => xlt (xrOf (rsbWord r.blk 8)) (xrOf e.2) }

/-- A traversal whose stack is empty has ended (R309). -/
def Ray.settle (r : Ray) : Ray :=
  let r := r.discard
  if r.stack.isEmpty then r.finish (if rsbWord r.blk 9 = noneWord then .miss else .hit) 0 else r

/-- The byte at an offset of a record. -/
def byteAt (x o : Nat) : Nat := x / 2 ^ (8 * o) % 256

/-- The box of child j of a node on axis a, rounded outward (R308). -/
def childBound (x j a : Nat) (hi : Bool) : XR :=
  let org := xrOf (wordOf x a)
  let e : Int := (BitVec.ofNat 8 (byteAt x (12 + a))).toInt
  let q : Rat := ((byteAt x (0x10 + 6 * j + a + (if hi then 3 else 0)) + (if hi then 1 else 0) : Nat) : Rat) * pow2 e
  xrOf (xround (if hi then .rup else .rdn) (xplus org (xrat q)))

/-- A child word names a node or triangles that exist (R308, R314 reason 1). -/
def childOk (d : W512) (w : W32) : Bool :=
  let n := (w.extractLsb' 0 29).toNat
  if w.getLsbD 31 then decide (n + (w.extractLsb' 29 2).toNat < hTris d) else decide (n < hNodes d)

/-- One pushed entry put among those of a visit, the nearest first; ties keep the lower child before the higher. -/
def pushSorted (e : XR × W32) (l : List (XR × W32)) : List (XR × W32) :=
  match l with
  | [] => [e]
  | x :: r => if xlt e.1 x.1 then e :: x :: r else x :: pushSorted e r

/-- The visit of an inner node: its hit children are pushed, the farthest first (R309). -/
def Ray.visitNode (r : Ray) (n : Nat) (rest : List (W32 × W32)) : RayM Ray := do
  let addr := recAddr (nodeBase r.dsc) (128 * n)
  check (decide (n < hNodes r.dsc)) 1 addr
  let x ← r.record (nodeBase r.dsc) (128 * n) 128 128
  let valid := (List.range 8).filter fun j => (byteAt x 15).testBit j
  let child (j : Nat) : W32 := wordOf x (16 + j)
  check (valid.all fun j =>
    childOk r.dsc (child j) && (List.range 3).all fun a => decide (byteAt x (0x10 + 6 * j + a) ≤ byteAt x (0x13 + 6 * j + a))) 1 addr
  let T := xrOf (rsbWord r.blk 8)
  let tmin := xrOf (rsbWord r.blk 6)
  let hits := valid.filterMap fun j =>
    (boxInterval ((List.range 3).map fun a =>
      (childBound x j a false, childBound x j a true, xrOf (rsbWord r.blk a), xrOf (rsbWord r.blk (3 + a))))).bind fun i =>
        if xle i.1 i.2 && xle i.1 T && xle tmin i.2 then some (i.1, child j) else none
  let new := (hits.foldl (fun l e => pushSorted e l) []).map fun e => (e.2, xround .rdn e.1)
  let stack := new ++ rest
  check (decide (stack.length ≤ spillRoom r.dsc)) 9 addr
  r.spillOut stack (rest.length + 1 - 8) (stack.length - 8)
  pure { r with stack := stack }

/-- A triangle tested and accepted (R310, R311): the ray after it, and whether the traversal ends. -/
def Ray.testTriangle (r : Ray) (k : Nat) : RayM (Ray × Bool) := do
  let x ← r.record (triBase r.dsc) (48 * k) 16 48
  let prim := wordOf x 9
  check (prim != noneWord) 2 (recAddr (triBase r.dsc) (48 * k))
  let hit := match rats (blkVals r.blk 0 3), rats (blkVals r.blk 3 3), rats (valsOf x 0 3), rats (valsOf x 3 3), rats (valsOf x 6 3) with
    | some o, some d, some v0, some v1, some v2 => hitTriangle o d [v0, v1, v2]
    | _, _, _, _, _ => none
  match hit with
  | none => pure (r, false)
  | some (t, u, v) =>
    let T := xrOf (rsbWord r.blk 8)
    let inside := xle (xrOf (rsbWord r.blk 6)) (xrOf t) && xle (xrOf t) (if r.isAny then xrOf (rsbWord r.blk 7) else T)
    let better := xlt (xrOf t) T || decide (prim.toNat < (rsbWord r.blk 9).toNat)
    if inside && (r.isAny || better) then
      pure ({ r with blk := setWord (setWord (setWord (setWord r.blk 8 t) 9 prim) 10 u) 11 v }, r.isAny)
    else pure (r, false)

/-- The tests of a leaf, in ascending order (R309). -/
def Ray.visitLeaf (r : Ray) (ks : List Nat) : RayM (Ray × Bool) :=
  match ks with
  | [] => pure (r, false)
  | k :: l => do
    let x ← r.testTriangle k
    if x.2 then pure x else x.1.visitLeaf l

/-- The block after one more completed step. -/
def Ray.stepped (r : Ray) : Ray := { r with blk := setWord r.blk 14 (rsbWord r.blk 14 + 1) }

/-- One step of a hierarchy: the visit of the node or leaf on top of the stack (R309, R315 for the budget). -/
def Ray.hStep (r : Ray) : RayM Ray := do
  if hMaxSteps r.dsc ≠ 0 ∧ blkSteps r.blk = hMaxSteps r.dsc then atLimit 1
  match r.stack with
  | [] => pure r.settle
  | e :: rest =>
    let n := (e.1.extractLsb' 0 29).toNat
    if e.1.getLsbD 31 then
      let ks := (List.range ((e.1.extractLsb' 29 2).toNat + 1)).map (n + ·)
      let x ← Ray.visitLeaf { r with stack := rest } ks
      let y := x.1.stepped
      pure (if x.2 then y.finish .hit 0 else y.settle)
    else
      let y ← r.visitNode n rest
      pure y.stepped.settle

/-! ### Meshes: records and their checks (R312 to R314) -/

/-- NFACES -/
def mFaces (d : W512) : Nat := (rsbWord d 8).toNat
/-- NCELLS -/
def mCells (d : W512) : Nat := (rsbWord d 9).toNat
/-- NVERTS -/
def mVerts (d : W512) : Nat := (rsbWord d 11).toNat
/-- CFMT -/
def mFull (d : W512) : Bool := (rsbWord d 10).getLsbD 7
/-- FIELDAT -/
def mPerCell (d : W512) : Bool := (rsbWord d 10).getLsbD 6
/-- NCOMP -/
def mComp (d : W512) : Nat := ((rsbWord d 10).extractLsb' 4 2).toNat
/-- MAXSTEPS of a mesh -/
def mMaxSteps (d : W512) : Nat := (rsbWord d 12).toNat

/-- The descriptor has the form that R314 asks for in a mode (reason 7). -/
def meshDescOk (d : W512) (mode : Nat) : Bool :=
  (rsbWord d 10) &&& 0xFFFFFF0F == 0 && rsbWord d 13 == 0 && blkWide d 14 == 0 && (mComp d == 1 || mComp d == 2) &&
    !(mode == 3 && mComp d == 1)

/-- A face as read (R313). -/
structure MeshFace where
  num : Nat
  addr : W64
  n : List XR
  w : XR
  a : Nat
  b : Nat
  orient : Bool
  fan : Bool
  vids : List Nat
  deriving DecidableEq, Repr

/-- A cell as read: its kind, and its faces with their SIGN bits. -/
structure MeshCell where
  num : Nat
  kind : Nat
  faces : List (MeshFace × Bool)
  deriving DecidableEq, Repr

/-- Face f, checked (R314 reasons 5 and 6). -/
def Ray.face (r : Ray) (f : Nat) : RayM MeshFace := do
  let d := r.dsc
  let base := blkWide d 0
  let addr := recAddr base (64 * f)
  check (decide (f < mFaces d)) 6 addr
  let x ← r.record base (64 * f) 64 64
  let h := wordOf x 6
  let nv := (h.extractLsb' 0 4).toNat
  let fan := h.getLsbD 30
  check (decide (3 ≤ nv ∧ nv ≤ 8) && (fan || decide (nv ≤ 4))) 5 addr
  let vids := (List.range nv).map fun k => (wordOf x (8 + k)).toNat
  let a := (wordOf x 4).toNat
  let b := (wordOf x 5).toNat
  check (decide (a < mCells d) && (b == noneWord.toNat || decide (b < mCells d)) && vids.all fun v => decide (v < mVerts d)) 6 addr
  pure ⟨f, addr, valsOf x 0 3, xrOf (wordOf x 3), a, b, h.getLsbD 31, fan, vids⟩

/-- The number of faces that a kind of cell may list (R314 reason 3). -/
def faceCountOk (kind nf : Nat) : Bool :=
  match kind with
  | 0 => nf == 4 | 1 => nf == 6 | 2 => nf == 5 | 3 => nf == 5 | 4 => decide (4 ≤ nf ∧ nf ≤ 16) | _ => false

/-- The distinct vertices of a cell, in the order of its faces. -/
def MeshCell.vids (c : MeshCell) : List Nat :=
  (c.faces.flatMap fun p => p.1.vids).foldl (fun acc v => if acc.contains v then acc else acc ++ [v]) []

/-- The other cell of a face. -/
def MeshFace.other (f : MeshFace) (c : Nat) : Nat := if f.b = c then f.a else f.b

/-- Cell c with its faces, checked (R314). -/
def Ray.cell (r : Ray) (c : Nat) : RayM MeshCell := do
  let d := r.dsc
  let base := blkWide d 2
  let size := if mFull d then 128 else 32
  let addr := recAddr base (size * c)
  check (decide (c < mCells d)) 6 addr
  let x ← r.record base (size * c) size size
  let h := wordOf x 0
  let kind := (h.extractLsb' 0 4).toNat
  let nf := (h.extractLsb' 4 5).toNat
  check (faceCountOk kind nf && (mFull d || decide (nf ≤ 7)) && h.extractLsb' 9 7 == 0) 3 addr
  let faces ← (List.range nf).mapM fun i => do
    let F ← r.face (wordOf x (1 + i)).toNat
    let sign := h.getLsbD (16 + i)
    check (!(kind == 0 && F.vids.length != 3)) 5 F.addr
    check (F.a == c || F.b == c) 4 F.addr
    check (sign == (if F.a == c then F.orient else !F.orient)) 4 F.addr
    pure (F, sign)
  let cell : MeshCell := ⟨c, kind, faces⟩
  check (kind != 0 || (cell.vids.length == 4 && faces.all fun p => p.1.vids.dedup.length == 3)) 5 addr
  pure cell

/-- The position of vertex n. -/
def Ray.vertex (r : Ray) (n : Nat) : RayM (List XR) := do
  let x ← r.record (blkWide r.dsc 4) (16 * n) 16 16
  pure (valsOf x 0 3)

/-- The value of vertex or cell n: its components. -/
def Ray.value (r : Ray) (n : Nat) : RayM (List W32) := do
  let k := mComp r.dsc
  let x ← r.record (blkWide r.dsc 6) (4 * k * n) 4 (4 * k)
  pure ((List.range k).map (wordOf x))

/-! ### Field values (R316) -/

/-- A value for each component. -/
def Ray.perComp (r : Ray) (f : Nat → W32) : List W32 := (List.range (mComp r.dsc)).map f
/-- Component k of a list of values. -/
def compOf (vs : List (List W32)) (k : Nat) : List W32 := vs.map fun v => v.getD k 0
/-- The canonical NaN. -/
def nanWord : W32 := BitVec.ofNat 32 Fmt.f32.nanBits
/-- A value with a NaN made canonical (R303). -/
def canonWord (x : W32) : W32 := if (xrOf x).isNan then nanWord else x

/-- The constant value of a cell. -/
def Ray.cellConst (r : Ray) (c : Nat) : RayM (List W32) := do
  let v ← r.value c
  pure (v.map canonWord)

/-- A free value for each component, where the manual states none. -/
def Ray.freeComps (r : Ray) : RayM (List W32) := fun s =>
  .ok (r.perComp fun k => (Config.freeWord s.draws k).setWidth 32, s.draw)

/-- The two coordinates that remain when an axis is dropped. -/
def dropAxis {α : Type} (l : List α) (n : Nat) : List α := l.eraseIdx n

/-- FaceValue (R316) in the march of a cell. -/
def Ray.faceValue (r : Ray) (cell : Nat) (F : MeshFace) (p : List XR) : RayM (List W32) := do
  if mPerCell r.dsc then r.cellConst cell
  else
    let vs ← F.vids.mapM r.vertex
    let vals ← F.vids.mapM r.value
    let ax := greatestAxis F.n
    match vs.mapM (fun v => rats (dropAxis v ax)), rats (dropAxis p ax) with
    | some P, some q =>
      if F.vids.length = 4 ∧ ¬ F.fan then
        match bilinearWeights P q with
        | some (D, ws) => pure (r.perComp fun k => mixSurd D ws (compOf vals k))
        | none => pure (r.perComp fun _ => nanWord)
      else
        let tris := (List.range (F.vids.length - 2)).filterMap fun j =>
          let ix := [0, j + 1, j + 2]
          (triWeights (ix.map fun n => P.getD n []) q).map fun w => (w, ix)
        match bestWeights tris with
        | some (w, ix) => pure (r.perComp fun k => mixRat w (ix.map fun n => (compOf vals k).getD n 0))
        | none => pure (r.perComp fun _ => nanWord)
    | _, _ => pure (r.perComp fun _ => nanWord)

/-- The triangles of a face's fan, as positions among its vertices. -/
def MeshFace.fanTris (F : MeshFace) : List (List Nat) :=
  (List.range (F.vids.length - 2)).map fun j => [F.vids.getD 0 0, F.vids.getD (j + 1) 0, F.vids.getD (j + 2) 0]

/-- A polyhedron's centroid, its value, and its fan tetrahedra in the order of face slots: positions and values of three vertices. -/
structure Poly where
  c : List XR
  cval : List W32
  tets : List (List (List XR) × List (List W32))
  deriving DecidableEq, Repr

/-- The centroid of a cell: the mean of its distinct vertices, rounded once (R316, R322). -/
def Ray.centroid (r : Ray) (c : MeshCell) : RayM (List W32) := do
  let vs ← c.vids.mapM r.vertex
  pure ((List.range 3).map fun a => meanWord (vs.map fun v => v.getD a (.zero false)))

/-- A polyhedron's fan tetrahedra. -/
def Ray.poly (r : Ray) (c : MeshCell) : RayM Poly := do
  let ctr ← r.centroid c
  let vals ← c.vids.mapM r.value
  let tets ← (c.faces.flatMap fun p => p.1.fanTris).mapM fun ids => do
    let vs ← ids.mapM r.vertex
    let fs ← ids.mapM r.value
    pure (vs, fs)
  pure ⟨ctr.map xrOf, r.perComp fun k => meanWord ((compOf vals k).map xrOf), tets⟩

/-- CellValue of a polyhedron. -/
def Ray.polyValue (r : Ray) (y : Poly) (p : List XR) : List W32 :=
  let ws := y.tets.filterMap fun t =>
    match ((y.c :: t.1).mapM rats), rats p with
    | some vs, some q => (tetWeights vs q).map fun w => (w, y.cval :: t.2)
    | _, _ => none
  match bestWeights ws with
  | some (w, fs) => r.perComp fun k => mixRat w (compOf fs k)
  | none => r.perComp fun _ => nanWord

/-- The exact line of a march: origin, direction, and the interval's ends (R315, R322). -/
structure MarchLine where
  o : List XR
  d : List XR
  tmin : XR
  tmax : XR
  tmaxW : W32
  deriving DecidableEq, Repr

/-- The line of a ray's block; `rtloc` walks from the centroid in D to the point in O. -/
def Ray.line (r : Ray) : MarchLine :=
  let o := blkVals r.blk 0 3
  let d := blkVals r.blk 3 3
  if blkMode r.blk = 6 then ⟨d, List.zipWith xminus o d, .zero false, xrat 1, 0x3F800000⟩
  else ⟨o, d, xrOf (rsbWord r.blk 6), xrOf (rsbWord r.blk 7), rsbWord r.blk 7⟩

/-- s * Dot(F.N, D) of a face of a cell (R315). -/
def leavingDot (l : MarchLine) (p : MeshFace × Bool) : XR :=
  let x := xdot p.1.n l.d
  if p.2 then x.negate else x

/-- The parameter at which a line crosses a face, rounded once (R315). -/
def crossing (l : MarchLine) (F : MeshFace) : W32 := xround .rne (xover (xminus F.w (xdot F.n l.o)) (xdot F.n l.d))

/-- The exit crossing of a cell: the earliest among the faces left through, the lower face on a tie (R315). -/
def exitOf (l : MarchLine) (c : MeshCell) : Option (W32 × MeshFace) :=
  c.faces.foldl (fun best p =>
    let t := crossing l p.1
    if xlt (.zero false) (leavingDot l p) && !(xrOf t).isNan then
      match best with
      | none => if xle (xrOf t) (.inf false) then some (t, p.1) else none
      | some b =>
        if xlt (xrOf t) (xrOf b.1) || (xeq (xrOf t) (xrOf b.1) && decide (p.1.num < b.2.num)) then some (t, p.1) else some b
    else best) none

/-- The last crossing of a line into a cell, the lower face on a tie. -/
def entryOf (l : MarchLine) (c : MeshCell) : Option (W32 × MeshFace) :=
  c.faces.foldl (fun best p =>
    let t := crossing l p.1
    if xlt (leavingDot l p) (.zero false) && !(xrOf t).isNan then
      match best with
      | none => some (t, p.1)
      | some b =>
        if xlt (xrOf b.1) (xrOf t) || (xeq (xrOf t) (xrOf b.1) && decide (p.1.num < b.2.num)) then some (t, p.1) else some b
    else best) none

/-- CellValue at the parameter t of a line (R316). -/
def Ray.cellValue (r : Ray) (l : MarchLine) (c : MeshCell) (t : XR) : RayM (List W32) := do
  let p := pointAt l.o l.d t
  if mPerCell r.dsc then r.cellConst c.num
  else if c.kind = 0 then
    let vs ← c.vids.mapM r.vertex
    let vals ← c.vids.mapM r.value
    match vs.mapM rats, rats p with
    | some P, some q =>
      match tetWeights P q with
      | some w => pure (r.perComp fun k => mixRat w (compOf vals k))
      | none => pure (r.perComp fun _ => nanWord)
    | _, _ => pure (r.perComp fun _ => nanWord)
  else if c.kind = 4 then
    let y ← r.poly c
    pure (r.polyValue y p)
  else
    match entryOf l c, exitOf l c with
    | some (te, Fe), some (tx, Fx) =>
      let fe ← r.faceValue c.num Fe (pointAt l.o l.d (xrOf te))
      let fx ← r.faceValue c.num Fx (pointAt l.o l.d (xrOf tx))
      let th := xover (xminus t (xrOf te)) (xminus (xrOf tx) (xrOf te))
      pure (r.perComp fun k =>
        let a := xrOf (fe.getD k 0)
        xround .rne (xplus a (xtimes (xminus (xrOf (fx.getD k 0)) a) th)))
    | _, _ => r.freeComps

/-! ### Marching (R315, R317 to R322) -/

/-- A segment: its ends and the values there. -/
structure MarchSeg where
  t0 : W32
  t1 : W32
  f0 : List W32
  f1 : List W32
  deriving DecidableEq, Repr

/-- A parameter put into an ascending list without repeats. -/
def insertParam (w : W32) (l : List W32) : List W32 :=
  match l with
  | [] => [w]
  | x :: r => if xlt (xrOf w) (xrOf x) then w :: x :: r else if xeq (xrOf w) (xrOf x) then x :: r else x :: insertParam w r

/-- The crossings of boundaries between a polyhedron's fan tetrahedra inside a segment (R316). -/
def polyCuts (y : Poly) (l : MarchLine) (t0 t1 : W32) : List W32 :=
  let ends := y.tets.flatMap fun t =>
    match ((y.c :: t.1).mapM rats), rats l.o, rats l.d with
    | some vs, some o, some d => match tetInterval o d vs with | some (a, b) => [a, b] | none => []
    | _, _, _ => []
  (ends.map fun q => xround .rne (xrat q)).foldl (fun acc w =>
    if xlt (xrOf t0) (xrOf w) && xlt (xrOf w) (xrOf t1) then insertParam w acc else acc) []

/-- A segment cut at the given parameters, with the values at every end (R316). -/
def cutSegs (val : W32 → List W32) (t0 t1 : W32) (cuts : List W32) : List MarchSeg :=
  match cuts with
  | [] => [⟨t0, t1, val t0, val t1⟩]
  | w :: r => ⟨t0, w, val t0, val w⟩ :: cutSegs val w t1 r

/-- The segments of a step: a polyhedron's sub-segments have CellValue at their ends (R316). -/
def Ray.segments (r : Ray) (l : MarchLine) (c : MeshCell) (s : MarchSeg) : RayM (List MarchSeg) := do
  if c.kind = 4 ∧ ¬ mPerCell r.dsc then
    let y ← r.poly c
    pure (cutSegs (fun w => r.polyValue y (pointAt l.o l.d (xrOf w))) s.t0 s.t1 (polyCuts y l s.t0 s.t1))
  else pure [s]

/-- The first component of a value. -/
def comp0 (v : List W32) : W32 := v.getD 0 0

/-- What the action of a mode on the segments leaves: the block, and the ending if there is one. -/
structure Acted where
  blk : W512
  fin : Option RayStatus
  deriving DecidableEq, Repr

/-- ISO over the segments of a step (R318). -/
def actIso (iso : XR) (first : Bool) (b : W512) (segs : List MarchSeg) : Acted :=
  match segs with
  | [] => ⟨b, none⟩
  | s :: r =>
    match isoHit iso first (xrOf (rsbWord b 10)) s.t0 s.t1 (comp0 s.f0) (comp0 s.f1) with
    | some (t, v) => ⟨setWord (setWord b 8 t) 10 v, some .hit⟩
    | none => actIso iso false (setWord b 10 (comp0 s.f1)) r

/-- INTEGRATE over the segments of a step (R319). -/
def actInteg (cut : XR) (b : W512) (segs : List MarchSeg) : Acted :=
  match segs with
  | [] => ⟨b, none⟩
  | s :: r =>
    let x := integrate (rsbWord b 10) (rsbWord b 11) (comp0 s.f0) (s.f0.getD 1 0) (comp0 s.f1) (s.f1.getD 1 0) (xrOf s.t0) (xrOf s.t1)
    let b := setWord (setWord b 10 x.1) 11 x.2
    if xlt (xrOf x.2) cut then ⟨setWord b 8 s.t1, some .opaque⟩ else actInteg cut b r

/-- The action of a mode on the segments of a step (R318 to R322); RECORD writes its entry, BOUNDARY and LOC keep the f1 of R315. -/
def Ray.act (r : Ray) (f1 : List W32) (segs : List MarchSeg) : RayM Acted := do
  let b := r.blk
  let param := rsbWord b 13
  match blkMode b with
  | 2 => pure (actIso (xrOf param) (blkSteps b == 0 && rsbWord b 12 == noneWord) b segs)
  | 3 => pure (actInteg (xrOf param) b segs)
  | 4 =>
    if param = 0 then pure ⟨b, some .full⟩
    else do
      let a := blkWide b 10
      r.write r.space a 8 ((rsbWord b 9).toNat + 2 ^ 32 * (rsbWord b 8).toNat)
      pure ⟨setWord (setWide b 10 (a + 8)) 13 (param - 1), none⟩
  | _ => pure ⟨setWord b 10 (comp0 f1), none⟩

/-- A block with ZRUN set. -/
def setZrun (b : W512) (z : Nat) : W512 := setWord b 15 ((rsbWord b 15 &&& 0xFFFFFF00) ||| BitVec.ofNat 32 (z % 256))

/-- The end of a march that has left its interval: `rtloc` has its own names for it (R322). -/
def Ray.marchEnd (r : Ray) (st : RayStatus) : Ray :=
  if blkMode r.blk = 6 then
    match st with
    | .endd => r.finish .hit 0
    | .exit => Ray.finish { r with blk := setWide r.blk 10 0 } .outside 0
    | st => r.finish st 0
  else r.finish st 0

/-- One step of a mesh (R315). -/
def Ray.mStep (r : Ray) : RayM Ray := do
  if mMaxSteps r.dsc ≠ 0 ∧ blkSteps r.blk = mMaxSteps r.dsc then atLimit 1
  if 64 ≤ blkZrun r.blk then atLimit 2
  let l := r.line
  let cur := (rsbWord r.blk 9).toNat
  let c ← r.cell cur
  let t0w := rsbWord r.blk 8
  let t0 := xrOf t0w
  let f0 ← (if rsbWord r.blk 12 = noneWord then r.cellValue l c t0
    else do
      let F ← r.face (rsbWord r.blk 12).toNat
      r.faceValue cur F (pointAt l.o l.d t0))
  match exitOf l c with
  | none => pure (r.marchEnd .degenerate)
  | some (txw, F) =>
    let txw := if xlt (xrOf txw) t0 || (xeq (xrOf txw) t0 && txw.msb) then t0w else txw
    let tx := xrOf txw
    let inside := xle tx l.tmax
    let t1w := if xlt l.tmax tx || (xeq l.tmax tx && l.tmaxW.msb) then l.tmaxW else txw
    let f1 ← (if inside then r.faceValue cur F (pointAt l.o l.d tx) else r.cellValue l c l.tmax)
    let segs ← r.segments l c ⟨t0w, t1w, f0, f1⟩
    let a ← r.act f1 segs
    match a.fin with
    | some .full => pure (r.finish .full 0)
    | fin =>
      let z := if xeq (xrOf t1w) t0 then blkZrun r.blk + 1 else 0
      let r := Ray.stepped { r with blk := setZrun a.blk z }
      match fin with
      | some st => pure (r.finish st 0)
      | none =>
        if F.b == noneWord.toNat && inside then
          pure (Ray.marchEnd { r with blk := setWord (setWord r.blk 8 txw) 12 (BitVec.ofNat 32 F.num) } .exit)
        else if !inside then pure (Ray.marchEnd { r with blk := setWord r.blk 8 l.tmaxW } .endd)
        else
          pure { r with blk := setWord (setWord (setWord r.blk 8 txw) 12 (BitVec.ofNat 32 F.num)) 9 (BitVec.ofNat 32 (F.other cur)) }

/-! ### The start of a ray (R317, R322, R324, R329) -/

/-- The block after the start's initialisation (R324). -/
def Ray.initBlk (r : Ray) (b : W512) : W512 :=
  match r.form with
  | 0 =>
    setWord (setWord (setWide (setWord (setWord b 8 (rsbWord b 7)) 9 noneWord) 10 0) 14 0) 15
      (rayState 0 (if r.any then 1 else 0) 0 0 0)
  | 1 =>
    let b := setWord (setWord (setWord (setWord b 8 (rsbWord b 6)) 12 noneWord) 14 0) 13 r.param
    let b := match r.mode with
      | 3 => setWord (setWord b 10 0) 11 0x3F800000
      | 4 => b
      | _ => setWide b 10 0
    setWord b 15 (rayState 0 r.mode 0 0 0)
  | _ => setWord (setWide (setWord (setWord (setWord (setWord b 8 0) 12 noneWord) 13 0) 14 0) 10 0) 15 (rayState 0 6 0 0 0)

/-- The read of the block, and what `rtres` makes of its STATUS (R324, R329). -/
def Ray.startBlk (r : Ray) : RayM Ray := do
  let x ← r.read1 r.space r.rsb 64
  let b : W512 := BitVec.ofNat 512 x
  let r := { r with blk := b, back := true }
  if r.form != 3 then pure { r with blk := r.initBlk b, phase := .desc }
  else
    let st := blkStatus b
    if st = 0 ∨ 10 < st ∨ 6 < blkMode b then pure (r.fail .travFormat 8 r.rsb)
    else if st = 6 ∨ st = 7 then pure { r with phase := .desc }
    else pure { r with phase := .ending }

/-- A ray that ends with DEGENERATE before any step (R317). -/
def degenerate (l : MarchLine) : Bool :=
  !(l.o.all XR.finite && l.d.all XR.finite && l.tmin.finite && l.tmax.finite) || l.d.all fun x => xeq x (.zero false)

/-- A ray whose interval is empty has nothing to march on: it ends with MISS before any record is read (R317). -/
def Ray.empty (r : Ray) : Bool := blkSteps r.blk = 0 && xlt r.line.tmax r.line.tmin

/-- The read of a hierarchy's descriptor, and the stack a ray begins or continues with. -/
def Ray.startHier (r : Ray) : RayM Ray := do
  let x ← r.read1 .g r.desc 64
  let r := { r with dsc := BitVec.ofNat 512 x, phase := .run }
  if degenerate r.line then pure (r.finish .degenerate 0)
  else if r.empty then pure (r.finish .miss 0)
  else if r.form = 3 then
    let st ← r.spillIn ((rsbWord r.blk 15).extractLsb' 16 8).toNat
    pure (Ray.settle { r with stack := st })
  else
    check (decide (hRoot r.dsc < hNodes r.dsc ∧ hRoot r.dsc < 2 ^ 29)) 1 (recAddr (nodeBase r.dsc) (128 * hRoot r.dsc))
    pure (Ray.settle { r with stack := [(BitVec.ofNat 32 (hRoot r.dsc), rsbWord r.blk 6)] })

/-- The walk of `rtloc` from the centroid of its start cell, which goes to D (R322). -/
def Ray.startLoc (r : Ray) : RayM Ray := do
  let c ← r.cell (rsbWord r.blk 9).toNat
  let ctr ← r.centroid c
  let r := { r with blk := setWord (setWord (setWord r.blk 3 (ctr.getD 0 0)) 4 (ctr.getD 1 0)) 5 (ctr.getD 2 0) }
  let l := r.line
  if !l.o.all XR.finite then pure (r.finish .degenerate 0)
  else if l.d.all fun x => xeq x (.zero false) then
    let v ← r.cellValue l c (xrat 1)
    pure (Ray.finish { r with blk := setWord (setWord r.blk 8 0x3F800000) 10 (comp0 v) } .hit 0)
  else pure r

/-- The read of a mesh's descriptor. DESIGN CHOICE: `rtloc` to a point that is not finite ends at once, with D as read
(notes/assumptions/68.md). -/
def Ray.startMesh (r : Ray) : RayM Ray := do
  let x ← r.read1 .g r.desc 64
  let r := { r with dsc := BitVec.ofNat 512 x, phase := .run }
  let bad := if r.form = 2 then !(blkVals r.blk 0 3).all XR.finite else degenerate r.line
  if bad then pure (r.finish .degenerate 0)
  else if r.empty then pure (r.finish .miss 0)
  else do
    check (meshDescOk r.dsc (blkMode r.blk)) 7 r.desc
    if r.form = 2 then r.startLoc else pure r

/-! ### Suspension (R328, R330) -/

/-- A ray stopped at a step boundary: the spill entries are written, then the block awaits its write-back. -/
def Ray.suspend (r : Ray) : RayM Ray := do
  if blkMode r.blk < 2 then r.spillOut r.stack 0 r.stack.length
  pure (r.finish .suspended (if blkMode r.blk < 2 then r.stack.length % 256 else 0))

/-- One step of a ray. -/
def Ray.step (r : Ray) : RayM Ray := if blkMode r.blk < 2 then r.hStep else r.mStep

/-- What a ray does next: its start reads, a step, or its suspension; a request that arrives while a step is under way leaves it
unspecified whether that step completes first (R328). -/
def Ray.next (r : Ray) : RayM Ray := do
  match r.phase with
  | .start => r.startBlk
  | .desc => if blkMode r.blk < 2 then r.startHier else r.startMesh
  | .ending => pure r
  | .run =>
    if !r.susp then r.step
    else do
      let also ← (fun s => .ok (Config.choiceAt s.draws 1, s.draw) : RayM Bool)
      let r ← (if also then r.step else pure r)
      if r.phase = .run then r.suspend else pure r

/-! ### Faults and endings (R325, R327) -/

/-- The fault record of a ray's access (17 R419); the trap would hold 0 and the slot's address (R327). -/
def State.rayRecord (s : State) (r : Ray) (f : AccFault) (need : Need) (sp : Space) : FaultReq :=
  let x := s.group r.grp
  ⟨x.part, x.asid, engKind f, 4, accField need sp, f.cause, f.cause, f.addr, s.faultBits (s.ctx x.ctxKey) f, x.core + r.wid * 2 ^ 16, 0,
    laneBit r.lane, 0, r.slotPc, 0, f.stage2⟩

/-- The fault goes to the fault server (17 R411). -/
def AccFault.routed (f : AccFault) : Bool := f.kind.isSome || f.cause == .rangeLocked || f.cause == .capabilityFault

/-- What an error of a computation makes of its ray. -/
def State.rayErr (s : State) (n : Nat) (r : Ray) (e : RayErr) : State :=
  match e with
  | .acc f need sp =>
    if f.routed then
      let p := s.postFault (s.rayRecord r f need sp)
      p.2.setRay n { r with tok := some p.1, flt := some (f.cause, f.addr) }
    else s.setRay n (r.fail f.cause 0 f.addr)
  | .fmt reason addr => s.setRay n (r.fail .travFormat reason addr)
  | .limit reason => s.setRay n (r.fail .travLimit reason ((rsbWord r.blk 14).setWidth 64))

/-- A ray whose first read met a fatal fault: nothing was read, so its words are free and nothing is written back. -/
def State.rayUnread (s : State) (n : Nat) (r : Ray) (c : Cause) (info : W64) : State :=
  if r.back then s.setRay n (r.fail c 0 info)
  else
    let b := (List.range 16).foldl (fun b i => setWord b i ((Config.freeWord s.draws i).setWidth 32)) r.blk
    let mode := match r.form with | 0 => if r.any then 1 else 0 | 1 => r.mode | 2 => 6 | _ => (Config.freeWord s.draws 16).toNat % 16
    (s.setRay n (Ray.fail { r with blk := setWord b 15 (rayState 0 mode 0 0 0) } c 0 info)).draw

/-- A FATAL verdict on a ray's access (R325, R327): one on the write-back leaves the ray's final words to its registers, any other stops
the ray at its last completed step. -/
def State.rayFatal (s : State) (n : Nat) (r : Ray) : State :=
  let e := r.flt.getD (.addrFault, 0)
  let q := { r with tok := none, flt := none }
  if r.phase = .ending then s.setRay n { q.fail e.1 0 e.2 with back := false } else s.rayUnread n q e.1 e.2

/-- A ray goes on once its verdict has landed: RESOLVED tries again, FATAL ends it (R327, 17 R420). -/
def State.withRay (s : State) (n : Nat) (k : Ray → State) : State :=
  let r := s.ray n
  if !r.used || !(s.group r.grp).used || !(s.gctx r.grp).runs then s
  else
    match s.engWait r.tok with
    | .held => s
    | .go => k { r with tok := none, flt := none }
    | .fatal => s.rayFatal n r

/-- The event of a unit's step on ray n, for hierarchies or for meshes; a ray whose MODE is not read yet counts by its form, and
`rtres` by either. -/
def State.rayStep (s : State) (n : Nat) (hier : Bool) : State :=
  s.withRay n fun r =>
    let mine := match r.phase with
      | .start => if r.form = 3 then true else (r.form == 0) == hier
      | .ending => false
      | _ => decide (blkMode r.blk < 2) == hier
    if !mine then s
    else
      match r.next s with
      | .ok (r', t) => t.setRay n r'
      | .error e => s.rayErr n r e

/-- HIERARCHY_STEP (R303, R307 to R311) -/
def execHierarchyStep (ray : Nat) (s : State) : Host.Outcome State Fault Refusal := .next (s.rayStep ray true)

/-- MESH_STEP (R303, R312 to R322) -/
def execMeshStep (ray : Nat) (s : State) : Host.Outcome State Fault Refusal := .next (s.rayStep ray false)

/-- The registers of a ray's lane receive words 0x20, 0x24, 0x28 and 0x3C, and an error awaits its marker (R325, R327). A lane that has
left has no pending results, and discards both. -/
def Warp.landRay (w : Warp) (n : Nat) (r : Ray) : Warp :=
  let mine (p : Pend) : Bool := p.kind == .trav n
  let word (p : Pend) : W32 := rsbWord r.blk (match p.reg % 4 with | 0 => 8 | 1 => 9 | 2 => 10 | _ => 15)
  let lane := (w.pend.find? mine).map (·.lane)
  { w with
    pend := w.pend.map fun p => if mine p then { p with val := word p, landed := true } else p
    errs := match lane, r.err with
      | some l, some e => w.errs ++ [⟨l, e.1, e.2.1, r.slotPc, r.rsb, e.2.2, false⟩]
      | _, _ => w.errs }

/-- A ray's results land and the ray is gone. -/
def State.landRay (s : State) (n : Nat) (r : Ray) : State :=
  (s.modGroup r.grp fun x => { x with warps := x.warps.map fun p => (p.1, p.2.landRay n r) }).setRay n Ray.blank

/-- The write-back of a ray, then its registers (R325). A fault that is not routed ends the ray with ERROR. -/
def State.endRay (s : State) (n : Nat) (r : Ray) : State :=
  if !r.back then s.landRay n r
  else
    match r.write r.space r.rsb 64 r.blk.toNat s with
    | .ok (_, t) => t.landRay n r
    | .error (.acc f need sp) =>
      if f.routed then
        let p := s.postFault (s.rayRecord r f need sp)
        p.2.setRay n { r with tok := some p.1, flt := some (f.cause, f.addr) }
      else s.setRay n { r.fail f.cause 0 f.addr with back := false }
    | .error _ => s

/-- RAY_END (R325, R327) -/
def execRayEnd (ray : Nat) (s : State) : Host.Outcome State Fault Refusal :=
  .next (s.withRay ray fun r => if r.phase = .ending then s.endRay ray r else s)

/-! ### The forms (R323, R324, R328) -/

/-- The rays in flight in a core's unit. -/
def State.rayCount (s : State) (pcore : Nat) : Nat :=
  (s.eng.rays.filter fun p => p.2.used && (s.group p.2.grp).used && (s.group p.2.grp).pcore == pcore).length

/-- There is room in a core's unit for so many more rays (R303). -/
def State.rayRoom (s : State) (pcore need : Nat) : Bool := decide (s.rayCount pcore + need ≤ 1024)

/-- Another request to a core's unit arrived before the issuing one and still waits for room (01 R21; 11 R303). A request of a warp or a group that
cannot issue, or of a split that a handler has set aside, lets others pass. -/
def State.requestAhead (s : State) : Bool :=
  let mine := ((s.curWarp.splits.find? fun y => y.lanes == s.cur.lanes).map (·.req)).getD 0
  s.groups.any fun p =>
    p.2.used && p.2.pcore == s.curGroup.pcore && (s.gctx p.1).runs && p.2.halted.isNone && p.2.wids.any fun w =>
      let x := p.2.warp w
      !x.ended && x.due.isNone && x.esc.isNone && x.ups.isEmpty && x.splits.any fun y =>
        y.req != 0 && (mine == 0 || decide (y.req < mine)) && (y.wait.isOver || y.wait.holds)

/-- Checks 1 and 2 of 09 R233 on a block or descriptor address of a lane (R323). -/
def State.rayAddrBad (s : State) (sp : Space) (a : W64) : Option AccFault :=
  match sp with
  | .g => if !canonical a then some ⟨.addrFault, none, a, none⟩ else if a.toNat % 64 ≠ 0 then some ⟨.misalignedAccess, none, a, none⟩ else none
  | _ =>
    if s.curGroup.kernel.scratch < a.toNat + 64 then some ⟨.scratchBounds, none, a, none⟩
    else if a.toNat % 64 ≠ 0 then some ⟨.misalignedAccess, none, a, none⟩ else none

/-- The failing lanes of a form, with the space and fault of each. -/
def State.rayChecks (s : State) (f : Full) (sp : Space) : List (Nat × Space × AccFault) :=
  (laneList (s.gLive f)).filterMap fun l =>
    match s.rayAddrBad sp (s.src f f.a (sp == .g) l) with
    | some e => some (l, sp, e)
    | none => (s.rayAddrBad .g (s.src f f.b true l)).map fun e => (l, .g, e)

/-- A traversal form: its checks, its turn and room for all its rays, then one ray for each guard-true live lane (R303, R323, R324). -/
def State.startRays (s : State) (f : Full) (sp : Space) (form mode : Nat) (any : Bool) (param : Nat → W32) : State :=
  match s.rayChecks f sp with
  | (_, p, e) :: l =>
    let m := l.foldl (fun m q => if q.2.2.cause = e.cause then m ||| laneBit q.1 else m)
      (((s.rayChecks f sp).head?.map fun q => laneBit q.1).getD 0)
    s.trap (s.mkTrap e.cause m (BitVec.ofNat 64 (16 * p.code.toNat)) e.addr 0 0)
  | [] =>
    let lanes := laneList (s.gLive f)
    if s.requestAhead || !s.rayRoom s.curGroup.pcore lanes.length then s.park (.trav lanes.length)
    else
      let id (l : Nat) : Nat := s.eng.nextId + l
      let ray (l : Nat) : Ray :=
        { Ray.blank with
          used := true, grp := s.cur.grp, wid := s.cur.wid, lane := l
          dreg := (match f.d with | .v n => n.val | _ => 0)
          tag := s.draws, slotPc := s.cur.pc, rsb := s.src f f.a (sp == .g) l, space := sp, desc := s.src f f.b true l
          form := form, any := any, mode := mode, param := param l }
      let t := lanes.foldl (fun t l => t.setRay (id l) (ray l)) s
      let t := { t with eng := { t.eng with nextId := t.eng.nextId + 64 } }
      let t := t.pendDst f.d (fun l => .trav (id l)) false (s.gLive f) fun _ => [0, 0, 0, 0]
      let t := t.pendDst f.d (fun _ => .mem) true (s.helperLanes f) fun _ => [0, 0, 0, 0]
      (t.modSplit (fun x => [{ x with req := 0 }]) fun z => z).advance

/-- RTBVH (R323, R324) -/
def execRtbvh (f : Full) (any : Bool) (space : Space) (s : State) : Host.Outcome State Fault Refusal :=
  s.issue (.rtbvh f any space) f fun s => s.startRays f space 0 (if any then 1 else 0) any fun _ => 0

/-- RTMESH (R323, R324) -/
def execRtmesh (f : Full) (mode : Fin 4) (space : Space) (s : State) : Host.Outcome State Fault Refusal :=
  s.issue (.rtmesh f mode space) f fun s =>
    s.startRays f space 1 (2 + mode.val) false fun l => if mode.val = 3 then 0 else s.src32 f f.c l

/-- RTLOC (R322 to R324) -/
def execRtloc (f : Full) (space : Space) (s : State) : Host.Outcome State Fault Refusal :=
  s.issue (.rtloc f space) f fun s => s.startRays f space 2 6 false fun _ => 0

/-- RTRES (R323, R329, R332) -/
def execRtres (f : Full) (space : Space) (s : State) : Host.Outcome State Fault Refusal :=
  s.issue (.rtres f space) f fun s => s.startRays f space 3 0 false fun _ => 0

/-- A ray of the split's guard-true live lanes whose results are still outstanding. -/
def Warp.hasRay (w : Warp) (m : Lanes) (n : Nat) : Bool :=
  w.pend.any fun p => p.kind == .trav n && !p.landed && m.getLsbD p.lane

/-- RTSAVE (R328) -/
def execRtsave (f : Full) (s : State) : Host.Outcome State Fault Refusal :=
  s.issue (.rtsave f) f fun s =>
    State.advance { s with eng := { s.eng with rays := s.eng.rays.map fun p =>
      if p.2.used && p.2.grp == s.cur.grp && s.curWarp.hasRay (s.gLive f) p.1 then (p.1, { p.2 with susp := true }) else p } }

end Sys2Proof.Machine
end

