-- ==== Sys2Proof/Machine/Copy.lean ====
section
/-!
DEFINITION. Copies: command blocks and their checks, registration and range locks, the engine's chunks, completion words, handles
and status (spec/09_isa_memory_engines.md R261 to R269; spec/08_memory_model.md R226 to R230).
-/

namespace Sys2Proof.Machine

/-! ### The command block (09 R262, R263) -/

/-- A command block. -/
abbrev Block := BitVec 1024

/-- The 64-bit word at byte offset 8 * k of a block. -/
def blkWord (b : Block) (k : Nat) : W64 := b.extractLsb' (64 * k) 64
/-- ENGINE -/
def blkEngine (b : Block) : W16 := b.extractLsb' 48 16
/-- CSCOPE -/
def blkScope (b : Block) : Nat := (b.extractLsb' 37 3).toNat
/-- CSPACE: the completion word lies in scratchpad. -/
def blkCs (b : Block) : Bool := b.getLsbD 36
/-- NOCOMP -/
def blkNoComp (b : Block) : Bool := b.getLsbD 35
/-- DSPACE -/
def blkDs (b : Block) : Bool := b.getLsbD 34
/-- SSPACE -/
def blkSs (b : Block) : Bool := b.getLsbD 33
/-- PROT -/
def blkProt (b : Block) : Bool := b.getLsbD 32
/-- COUNT -/
def blkCount (b : Block) : Nat := (b.extractLsb' 0 32).toNat
/-- LEN -/
def blkLen (b : Block) : Nat := (blkWord b 3).toNat
/-- A capability of the block: 0 SCAP, 1 DCAP, 2 CCAP. -/
def blkCap (b : Block) (k : Nat) : W128 := b.extractLsb' (0x280 + 128 * k) 128

/-- The first field of a block outside its limits (09 R262, R264 check 3): the cause and the field's byte offset. Kind 0 is
`cpy`, 1 `cpy2d`, 2 `cpyg`. -/
def blockFault (kind : Nat) (b : Block) : Option (Cause × Nat) :=
  let n := blkCount b
  let len := blkLen b
  let hi (k : Nat) : Bool := (blkWord b k).extractLsb' 32 32 != 0
  let countBad : Bool := match kind with
    | 0 => n != 0
    | 1 => !decide (1 ≤ n ∧ n ≤ 2 ^ 20)
    | _ => !decide (1 ≤ n ∧ n ≤ 24)
  let lenBad : Bool := match kind with
    | 0 => decide (2 ^ 36 < len)
    | 1 => !decide (1 ≤ len ∧ len ≤ 2 ^ 24)
    | _ => len != 0
  ([(b.extractLsb' 40 8 != 0 || countBad, Cause.addrFault, 0x00),
    (blkSs b && hi 1, .addrFault, 0x08),
    (kind == 2 && (blkWord b 1).extractLsb' 0 4 != 0, .misalignedAccess, 0x08),
    (blkDs b && hi 2, .addrFault, 0x10),
    (lenBad, .addrFault, 0x18),
    (kind != 1 && blkWord b 4 != 0, .addrFault, 0x20),
    (kind != 1 && blkWord b 5 != 0, .addrFault, 0x28),
    (blkCs b && hi 6, .addrFault, 0x30),
    ((blkWord b 6).extractLsb' 0 3 != 0, .misalignedAccess, 0x30),
    (b.extractLsb' 0x200 128 != 0, .addrFault, 0x40)].find? fun p => p.1).map (·.2)

/-- The completion scope is not one that the completion word's space takes (08 R227, 09 R264 check 5). -/
def scopeBad (b : Block) : Bool :=
  decide (4 < blkScope b) || (if blkCs b then decide (1 < blkScope b) else blkScope b == 0)

/-- The lowest offset and the extent of n bytes in each of `rows` rows with a pitch, from the first row's start (09 R265). -/
def rowSpan (pitch : Int) (rows n : Nat) : Int × Nat :=
  let far : Int := (rows - 1 : Nat) * pitch
  (min 0 far, far.natAbs + n)

/-- The rows of a block. -/
def blkRows (kind : Nat) (b : Block) : Nat := if kind = 1 then blkCount b else 1
/-- The source pitch. -/
def blkSPitch (kind : Nat) (b : Block) : Int := if kind = 1 then (blkWord b 4).toInt else 0
/-- The destination pitch. -/
def blkDPitch (kind : Nat) (b : Block) : Int := if kind = 1 then (blkWord b 5).toInt else 0

/-- Where a block's source addresses count from: 0, or the base of SCAP (20 R468). -/
def blkSBase (b : Block) : Int := if blkProt b && !blkSs b then (capOf (blkCap b 0) true).base else 0
/-- Where its destination address counts from. -/
def blkDBase (b : Block) : Int := if blkProt b && !blkDs b then (capOf (blkCap b 1) true).base else 0
/-- Where its completion address counts from. -/
def blkCBase (b : Block) : Int := if blkProt b && !blkCs b then (capOf (blkCap b 2) true).base else 0
/-- The source address. -/
def blkSrc (b : Block) : Int := blkSBase b + ((blkWord b 1).toNat : Int)
/-- The destination address. -/
def blkDst (b : Block) : Int := blkDBase b + ((blkWord b 2).toNat : Int)
/-- The completion address. -/
def blkCAddr (b : Block) : Int := blkCBase b + ((blkWord b 6).toNat : Int)

/-- Payload bytes of a block whose list entries are given. -/
def blkTotal (kind : Nat) (b : Block) (pieces : List (Nat × Nat)) : Nat :=
  match kind with
  | 0 => blkLen b
  | 1 => blkLen b * blkCount b
  | _ => pieces.foldl (fun n p => n + p.2) 0

/-! ### Ranges and locks (08 R229, R230; 09 R265) -/

/-- A range of a copy: whether it is the destination, whether it lies in scratchpad, first and last byte. -/
structure CRange where
  dest : Bool
  scr : Bool
  lo : Int
  hi : Int
  deriving DecidableEq, Repr

/-- A range put into a list sorted by its start. -/
def insertRange (x : Int × Nat) (l : List (Int × Nat)) : List (Int × Nat) :=
  match l with
  | [] => [x]
  | y :: r => if y.1 ≤ x.1 then y :: insertRange x r else x :: y :: r

/-- Overlapping and adjacent ranges merged (09 R265). -/
def mergeRanges (l : List (Int × Nat)) : List (Int × Nat) :=
  ((l.foldl (fun acc x => insertRange x acc) []).foldl (fun (acc : List (Int × Nat)) x =>
    match acc with
    | [] => [x]
    | y :: r => if x.1 ≤ y.1 + y.2 then (y.1, max y.2 ((x.1 - y.1).toNat + x.2)) :: r else x :: acc) []).reverse

/-- The exact ranges of a copy: the destination, then the sources (09 R265). -/
def copyRanges (kind : Nat) (b : Block) (pieces : List (Nat × Nat)) : List (Bool × Bool × Int × Nat) :=
  let rows := blkRows kind b
  let len := if kind = 2 then blkTotal kind b pieces else blkLen b
  let d := rowSpan (blkDPitch kind b) rows len
  let sp := rowSpan (blkSPitch kind b) rows len
  let dst := (true, blkDs b, blkDst b + d.1, d.2)
  if blkTotal kind b pieces = 0 then []
  else if kind = 2 then
    dst :: (false, blkSs b, blkSrc b, 16 * blkCount b) ::
      (mergeRanges (pieces.map fun p => (blkSBase b + (p.1 : Int), p.2))).map fun r => (false, blkSs b, r.1, r.2)
  else [dst, (false, blkSs b, blkSrc b + sp.1, sp.2)]

/-- A range rounded outward to 32-byte sectors (08 R229). -/
def lockRange (r : Bool × Bool × Int × Nat) : CRange :=
  ⟨r.1, r.2.1, 32 * (r.2.2.1 / 32), 32 * ((r.2.2.1 + r.2.2.2 - 1) / 32) + 31⟩

/-- The lock entry of a range of a copy. -/
def Copy.lockOf (c : Copy) (id : Nat) (r : CRange) : Lock :=
  ⟨c.pcore, id, r.dest, if r.scr then c.grp else none, c.part, c.asid, r.lo.toNat, r.hi.toNat⟩

/-- The lock entries that a copy takes. -/
def Copy.locks (c : Copy) (id : Nat) : List Lock := ((copyRanges c.kind c.block c.pieces).map lockRange).map (c.lockOf id)

/-- A new entry must wait for another: they overlap, and one of them is a destination (08 R229). -/
def Lock.blocks (k new : Lock) : Bool :=
  k.scratch == new.scratch && (k.scratch.isSome || (k.part == new.part && k.asid == new.asid)) && (k.dest || new.dest) &&
    decide (k.lo ≤ new.hi ∧ new.lo ≤ k.hi)

/-- The copies that wait for registration, earlier than a number. -/
def State.waitingBefore (s : State) (id : Nat) : List Lock :=
  s.eng.copies.flatMap fun p => if p.2.used && p.2.run == .waiting && decide (p.1 < id) then p.2.locks p.1 else []

/-- The entries overlap locked ones, or those of a copy that waits ahead (08 R229 step 1). -/
def State.overlaps (s : State) (id : Nat) (ls : List Lock) : Bool :=
  ls.any fun n => s.mem.locks.any (·.blocks n) || (s.waitingBefore id).any (·.blocks n)

/-- Free range-lock entries of a core (08 R229). -/
def Mem.freeLocks (m : Mem) (core : Nat) : Nat := 32 - (m.locks.filter fun k => k.core == core).length

/-- Every cached copy of a virtual range of an address space leaves every cache, its dirty bytes merged first (08 R229 step 3). -/
def Mem.purgeVirt (m : Mem) (part asid lo hi : Nat) : Mem :=
  m.purgeLines fun l => l.ofCtx part asid && decide (128 * l.vline ≤ hi ∧ lo ≤ 128 * l.vline + 127)

/-- A copy. -/
def State.copy (s : State) (id : Nat) : Copy := Store.get s.eng.copies Copy.blank id
/-- The state with a copy changed. -/
def State.modCopy (s : State) (id : Nat) (f : Copy → Copy) : State :=
  { s with eng := { s.eng with copies := Store.put s.eng.copies Copy.blank id (f (s.copy id)) } }

/-- The dirty bytes of a copy's global ranges written back to the home slices, and their cached copies gone (08 R226, R229 step 3). -/
def Mem.purgeLocks (m : Mem) (ls : List Lock) : Mem :=
  ls.foldl (fun m k => if k.scratch.isNone then m.purgeVirt k.part k.asid k.lo k.hi else m) m

/-- A copy takes its locks; cached copies of its global ranges are written back and invalidated (08 R229). -/
def State.registerCopy (s : State) (id : Nat) : State :=
  let ls := (s.copy id).locks id
  let m := s.mem.purgeLocks ls
  ({ s with mem := { m with locks := m.locks ++ ls } }).modCopy id fun c => { c with run := .queued }

/-- Some byte of the ranges is still held back from its home slice by another lock (08 R230): the engine would miss it (08 R226). -/
def Mem.heldIn (m : Mem) (ls : List Lock) : Bool :=
  ls.any fun k => k.scratch.isNone && m.wbq.any fun w => w.part == k.part && w.asid == k.asid && (List.range 4).any fun i =>
    decide (128 * w.vline + 32 * i ≤ k.hi ∧ k.lo ≤ 128 * w.vline + 32 * i + 31) && (m.heldBytes w).extractLsb' (32 * i) 32 != 0

/-- Entries can be registered on a core (08 R226, R229): nothing they overlap is locked or waits ahead, entries are free, and every earlier
write to the ranges can reach its home slice. -/
def State.lockable (s : State) (id core : Nat) (ls : List Lock) : Bool :=
  !s.overlaps id ls && decide (ls.length ≤ s.mem.freeLocks core) && !(s.mem.purgeLocks ls).heldIn ls

/-- The context of a copy. -/
def State.copyCtx (s : State) (c : Copy) : Ctx := s.ctx (ctxKey c.part c.asid)

/-- The group of a copy is resident; a copy of a graph node has none (08 R227). -/
def State.copySeated (s : State) (c : Copy) : Bool := c.grp.all fun g => (s.group g).used

/-- COPY_REGISTRATION (08 R229): a waiting copy registers once its entries can be; one of a context that was stopped after its resumption,
when its group has a place (18 R440). -/
def State.canRegister (s : State) (id : Nat) : Bool :=
  let c := s.copy id
  c.used && c.run == .waiting && !c.cancel && (s.copyCtx c).runs && s.copySeated c && s.lockable id c.pcore (c.locks id)

/-! ### The engine (09 R266, R267) -/

/-- The next piece of a copy after the bytes done: destination, source, and the bytes left in it. -/
def Copy.next (c : Copy) : Option (Int × Int × Nat) :=
  if c.total ≤ c.done then none
  else match c.kind with
    | 0 => some (blkDst c.block + c.done, blkSrc c.block + c.done, c.total - c.done)
    | 1 =>
      let len := blkLen c.block
      let i := c.done / len
      let j : Int := if blkDPitch 1 c.block < 0 then (blkRows 1 c.block - 1 - i : Nat) else i
      let o := c.done % len
      some (blkDst c.block + j * blkDPitch 1 c.block + o, blkSrc c.block + j * blkSPitch 1 c.block + o, len - o)
    | _ =>
      let r := c.pieces.foldl (fun (acc : Nat × Option (Nat × Nat)) p =>
        match acc.2 with
        | some _ => acc
        | none => if c.done < acc.1 + p.2 then (acc.1, some p) else (acc.1 + p.2, none)) (0, none)
      r.2.map fun p => (blkDst c.block + c.done, blkSBase c.block + (p.1 : Int) + (c.done - r.1 : Nat), p.2 - (c.done - r.1))

/-- The bytes of a copy's source (09 R266; 21 R496). -/
def State.copyRead (s : State) (id : Nat) (a : Int) (n : Nat) : Except AccFault (Nat × State) :=
  let c := s.copy id
  if blkSs c.block then
    let g := c.grp.getD 0
    if (s.group g).scratchBad a.toNat n then .error ⟨.poisonData, some 3, BitVec.ofInt 64 a, none⟩
    else .ok (readBytes (s.group g).scratch a.toNat n, s)
  else s.engRead (s.copyCtx c) (some id) (BitVec.ofInt 64 a) n

/-- Bytes written to a copy's destination. -/
def State.copyWrite (s : State) (id : Nat) (a : Int) (n v : Nat) : Except AccFault State :=
  let c := s.copy id
  if blkDs c.block then .ok (s.modGroup (c.grp.getD 0) (·.scratchWrite a.toNat (bytesOf n v)))
  else s.engWrite (s.copyCtx c) (some id) (BitVec.ofInt 64 a) n v

/-- The physical address of a byte of a context's address space, where it has one. -/
def State.physOf (s : State) (c : Ctx) (va : Int) : Option Nat :=
  match s.translate c (BitVec.ofInt 64 va).toNat .load with
  | .ok (p, _) => some p
  | .error _ => none

/-- Tags travel with whole aligned 16-byte units between protected granules of one compartment (20 R467). -/
def State.copyTags (s : State) (id : Nat) (dst src : Int) (n : Nat) (before : Mem) : State :=
  let c := s.copy id
  let x := s.copyCtx c
  if !x.prot || blkSs c.block || blkDs c.block || (dst - src) % 16 != 0 then s
  else
    let first : Int := (dst + 15) / 16 * 16
    let units := ((dst + n - first) / 16).toNat
    (List.range units).foldl (fun s k =>
      let d := first + 16 * k
      match s.physOf x d, s.physOf x (d - dst + src) with
      | some p, some q =>
        let e := s.granule p
        let f := s.granule q
        if fwProt e && fwProt f && (fwCmask e &&& fwCmask f).getLsbD x.comp && before.tag q then
          { s with mem := { s.mem with tags := Store.put s.mem.tags false (p / 16) true } }
        else s
      | _, _ => s) s

/-- One piece of a chunk. -/
def State.copyMove (s : State) (id : Nat) (dst src : Int) (n : Nat) : Except (AccFault × Bool) State :=
  match s.copyRead id src n with
  | .error f => .error (f, false)
  | .ok (v, t) =>
    match t.copyWrite id dst n v with
    | .error f => .error (f, true)
    | .ok u => .ok ((u.copyTags id dst src n t.mem).modCopy id fun c => { c with done := c.done + n })

/-- The pieces of a chunk: destinations from `lim` - 4096 to `lim`. -/
def State.copyRun (fuel : Nat) (s : State) (id : Nat) (lim : Int) : State × Option (AccFault × Bool) :=
  match fuel with
  | 0 => (s, none)
  | k + 1 =>
    match (s.copy id).next with
    | none => (s, none)
    | some (dst, src, n) =>
      if lim ≤ dst ∨ dst < lim - 4096 then (s, none)
      else match s.copyMove id dst src (min n (lim - dst).toNat) with
        | .error f => (s, some f)
        | .ok t => t.copyRun k id lim

/-- A copy's fault goes to the fault server (17 R411, R419). -/
def State.copyFault (s : State) (id : Nat) (f : AccFault) (write scratch : Bool) : State :=
  let c := s.copy id
  let r := s.postFault (s.engRecord (s.copyCtx c) 3 (placeField 3 c.eng) f (if write then .store else .load) (if scratch then .s else .g))
  r.2.modCopy id fun c => { c with tok := some r.1, cause := f.cause.code }

/-- The engine may work on a copy: it is registered, its context runs, its group is resident, and no verdict is awaited. -/
def State.copyReady (s : State) (id : Nat) : Bool :=
  let c := s.copy id
  c.used && (s.copyCtx c).runs && s.copySeated c && (s.engWait c.tok == .go) && !c.cancel && c.dead.isNone && !c.completing &&
    decide (c.done < c.total) && (c.run == .queued || c.run == .running)

/-- A chunk of 4 KiB of destination (09 R266). -/
def State.copyChunk (s : State) (id : Nat) : State :=
  if !s.copyReady id then s
  else
    let s := s.modCopy id fun c => { c with run := .running, tok := none, cause := 0 }
    match (s.copy id).next with
    | none => s
    | some (dst, _, _) =>
      match s.copyRun 4096 id (4096 * (dst / 4096) + 4096) with
      | (t, none) => t
      | (t, some f) => t.copyFault id f.1 f.2 (if f.2 then blkDs (s.copy id).block else blkSs (s.copy id).block)

/-! ### Completion (08 R227, 09 R267, R268) -/

/-- Locks of a copy are released, and the write-backs they held merge (08 R230). -/
def State.unlockCopy (s : State) (id : Nat) : State :=
  { s with mem := { s.mem with locks := s.mem.locks.filter fun k => k.copy != id }.drainAll }

/-- The STATE code of a `cstat` result (09 R268). -/
def copyState : CopyRun → Nat
  | .waiting => 0 | .queued => 0 | .running => 1 | .done => 2 | .cancelled => 3 | .failed => 4

/-- A `cstat` result (09 R268). -/
def cstatWord (run : CopyRun) (cause bytes : Nat) : W64 :=
  BitVec.ofNat 64 (copyState run * 2 ^ 60 + (if run = .failed then cause * 2 ^ 48 else 0) + bytes % 2 ^ 48)

/-- A number of a group's copies is among the 256 most recent (09 R268). -/
def Group.recentCopy (x : Group) (seq : Nat) : Bool := decide (x.copySeq ≤ seq + 256)

/-- The key of a copy in its group's table of status: its number in the group and its engine. -/
def cstatKey (seq eng : Nat) : Nat := 4096 * seq + eng

/-- A copy has ended: its state stays with its group, among the 256 most recent (09 R268), or with its graph node, where `completing` says
that a FATAL verdict cost the completion word. -/
def State.endCopy (s : State) (id : Nat) (run : CopyRun) : State :=
  let c := s.copy id
  match c.grp with
  | some g =>
    let s1 := s.modGroup g fun x =>
      { x with cstat := (Store.put x.cstat 0 (cstatKey c.seq c.eng) (cstatWord run c.cause c.done)).filter fun p =>
          x.recentCopy (p.1 / 4096) }
    { s1 with eng := { s1.eng with copies := Store.erase s1.eng.copies id } }
  | none => s.modCopy id fun c => { c with run := run, tok := none }

/-- The agent that writes a completion word: its group's path, or the home slices (08 R227). -/
def State.copyAgent (s : State) (c : Copy) : Agent :=
  match c.grp with
  | some g => (s.group g).agent
  | none => ⟨c.part, c.asid, none⟩

/-- The completion word is written as a release at its scope (08 R227). -/
def State.writeCompletion (s : State) (id : Nat) (v : W64) : Except AccFault State :=
  let c := s.copy id
  let b := c.block
  let a := s.copyAgent c
  if blkCs b then .ok (s.modGroup (c.grp.getD 0) (·.scratchWrite (blkCAddr b).toNat (bytesOf 8 v.toNat)))
  else
    let rank := blkScope b
    let lvl := levelOf rank
    match s.globalLoc a (BitVec.ofInt 64 (blkCAddr b)) 8 lvl .store with
    | .error f => .error f
    | .ok (l, t) =>
      let m := if rank = 4 then t.mem.sysRelease a else t.mem
      .ok { t with mem := (m.writeAt a l 8 v.toNat lvl).noteWrite a l.phys 8 lvl (some rank) false }

/-- The copy as it ends after its engine's wait: a FATAL verdict on its payload stays with it, whatever the completion write meets (09
R267). -/
def Copy.doomed (c : Copy) (w : EngWait) : Copy :=
  let d := c.dead.or (if w = .fatal then some c.cause else none)
  { c with dead := d, cause := d.getD 0 }

/-- How a copy that may end ends. -/
def Copy.how (c : Copy) : CopyRun := if c.dead.isSome then .failed else if c.cancel then .cancelled else .done

/-- A copy ends now: its payload is done, or it was cancelled, or a verdict was FATAL; its group is resident. -/
def State.copyEnds (s : State) (id : Nat) : Bool :=
  let c := s.copy id
  let w := s.engWait c.tok
  c.used && (c.run == .waiting || c.run == .queued || c.run == .running) && (s.copyCtx c).runs &&
    s.copySeated c && w != .held && (w == .fatal || c.dead.isSome || c.cancel || (c.total == c.done && c.run != .waiting))

/-- COPY_COMPLETE: locks are released, then the completion word is written; a fault there goes to the server, and a FATAL verdict
on it ends the copy without a word (08 R227, 09 R267). -/
def State.copyComplete (s : State) (id : Nat) : State :=
  if !s.copyEnds id then s
  else
    let w := s.engWait (s.copy id).tok
    let s := s.unlockCopy id
    if w = .fatal ∧ (s.copy id).completing then s.endCopy id .failed
    else
      let s := s.modCopy id fun c => c.doomed w
      let c := s.copy id
      let run := c.how
      if blkNoComp c.block then s.endCopy id run
      else
        let v := if run = .done then blkWord c.block 7 else blkWord c.block 7 ^^^ 0x8000000000000000
        match s.writeCompletion id v with
        | .ok t => (t.modCopy id fun c => { c with completing := false }).endCopy id run
        | .error f => (s.copyFault id f true false).modCopy id fun c => { c with completing := true }

/-- COPY_REGISTRATION (08 R229) -/
def execCopyRegistration (id : Nat) (s : State) : Host.Outcome State Fault Refusal :=
  .next (if s.canRegister id then s.registerCopy id else s)

/-- COPY_CHUNK (09 R266) -/
def execCopyChunk (id : Nat) (s : State) : Host.Outcome State Fault Refusal := .next (s.copyChunk id)

/-- COPY_COMPLETE (08 R227) -/
def execCopyComplete (id : Nat) (s : State) : Host.Outcome State Fault Refusal := .next (s.copyComplete id)

/-! ### Issue (09 R264, R265) -/

/-- Why a lane's copy is refused at issue: the cause, TINFO2, TINFO0, and the fault of an access if one failed. -/
structure CopyErr where
  cause : Cause
  off : W64
  i0 : W64
  acc : Option AccFault
  deriving DecidableEq, Repr

/-- A copy that has passed its checks. -/
structure CopySpec where
  lane : Nat
  eng : Nat
  block : Block
  pieces : List (Nat × Nat)
  deriving DecidableEq, Repr

/-- TINFO2 for a fault on the block read itself. -/
def noOff : W64 := 0xFFFFFFFFFFFFFFFF

/-- A refusal without an access fault. -/
def copyErr (c : Cause) (off : Nat) : CopyErr := ⟨c, BitVec.ofNat 64 off, 0, none⟩

/-- n bytes of a group's memory as a plain load of a lane (09 R233), in pieces that do not cross a line. -/
def State.laneBytes (s : State) (sp : Space) (ea : Int) (n step : Nat) : Except AccFault (Nat × State) :=
  (List.range (n / step)).foldl (fun r (k : Nat) =>
    match r with
    | .error f => .error f
    | .ok (v, s) =>
      match s.spot s.cur.grp s.agent ⟨sp, ea + ((step * k : Nat) : Int), step, .load, 0⟩ with
      | .error f => .error f
      | .ok (p, t) =>
        let x := t.readSpot s.cur.grp s.agent p step 0
        .ok (v + x.1 * 2 ^ (8 * (step * (k : Nat)) : Nat), x.2)) (.ok (0, s))

/-- The engine a place field names; 0xFFF lets the device choose one of the partition's (09 R259). -/
def State.copyEngine (s : State) (part : Nat) (p : W16) : Option Nat :=
  if placeKind p ≠ 3 then none
  else if placeIndex p = 0xFFF then
    match (List.range 16).filter fun i => (s.unit part 3 i).isSome with
    | [] => none
    | l => some (pick s.draws 0 l)
  else (s.place part 3 p).map fun _ => placeIndex p

/-- The tags of the block's capabilities, in home memory (20 R467). -/
def State.blockTag (s : State) (c : Ctx) (sp : Space) (ea : Int) (k : Nat) : Bool :=
  match sp with
  | .g => (s.physOf c ea).any fun p => s.mem.tag (p + 0x50 + 16 * k)
  | _ => false

/-- Some gate lets a copy from one compartment to another pass (20 R470). -/
def State.gatePasses (s : State) (c : Ctx) (sc dc : Cap) : Bool :=
  (List.range 16).any fun g =>
    let y := Store.get s.sec.gates Gate.blank (16 * c.part + g)
    let sg := capOf y.sg true
    let dg := capOf y.dg true
    sg.comp != dg.comp && sg.comp == c.comp && dg.comp == dc.comp && sc.r && dc.w &&
      decide (sg.base ≤ sc.base ∧ sc.base + sc.len ≤ sg.base + sg.len ∧ dg.base ≤ dc.base ∧ dc.base + dc.len ≤ dg.base + dg.len)

/-- The capability checks of a protected context's block: the first capability that fails (20 R468, R470). -/
def State.copyCaps (s : State) (c : Ctx) (sp : Space) (ea : Int) (b : Block) (ranges : List (Bool × Bool × Int × Nat)) :
    Option Nat :=
  let cap (k : Nat) : Cap := capOf (blkCap b k) (s.blockTag c sp ea k)
  let inCap (k : Nat) (r : Bool × Bool × Int × Nat) (need : Need) (gate : Bool) : Bool :=
    let o := r.2.2.1 - (cap k).base
    decide (0 ≤ o) && (cap k).passes c o.toNat r.2.2.2 need gate
  let srcs := ranges.filter fun r => !r.1 && !r.2.1
  let dsts := ranges.filter fun r => r.1 && !r.2.1
  let gate := s.gatePasses c (cap 0) (cap 1)
  if !(srcs.all fun r => inCap 0 r .load false) then some 0x50
  else if !(dsts.all fun r => inCap 1 r .store gate) then some 0x60
  else if !blkNoComp b && !blkCs b && !inCap 2 (false, false, blkCAddr b, 8) .store false then some 0x70
  else none

/-- The first scratchpad range outside the window (09 R264 check 6). -/
def windowFault (win : Nat) (b : Block) (ranges : List (Bool × Bool × Int × Nat)) : Option Nat :=
  let out (lo : Int) (n : Nat) : Bool := decide (lo < 0 ∨ (win : Int) < lo + n)
  match ranges.find? fun r => r.2.1 && out r.2.2.1 r.2.2.2 with
  | some r => some (if r.1 then 0x10 else 0x08)
  | none => if blkCs b && !blkNoComp b && out (blkCAddr b) 8 then some 0x30 else none

/-- The entries of a `cpyg` list; none where one breaks its limits (09 R263). -/
def listEntries (n : Nat) (v : Nat) : Option (List (Nat × Nat)) :=
  (List.range n).mapM fun k =>
    let e : W128 := BitVec.ofNat 128 (v / 2 ^ (128 * k))
    let len := (e.extractLsb' 64 32).toNat
    if e.extractLsb' 96 32 != 0 ∨ len = 0 ∨ 2 ^ 24 < len then none else some ((e.extractLsb' 0 64).toNat, len)

/-- The checks of a block that has been read (09 R264 checks 2 to 7). -/
def State.checkBlock (s : State) (kind lane : Nat) (sp : Space) (ea : Int) (b : Block) : Except CopyErr (CopySpec × State) :=
  let x := s.curGroup
  let c := s.gctx s.cur.grp
  match s.copyEngine x.part (blkEngine b) with
  | none => .error ⟨.placeUnmapped, 0, (blkEngine b).setWidth 64, none⟩
  | some eng =>
    match blockFault kind b with
    | some (cause, off) => .error (copyErr cause off)
    | none =>
      let pre := if kind = 2 then [] else copyRanges kind b []
      let listR : List (Bool × Bool × Int × Nat) := if kind = 2 then [(false, blkSs b, blkSrc b, 16 * blkCount b)] else []
      if blkProt b != c.prot then .error (copyErr .capabilityFault 0)
      else match (if c.prot then s.copyCaps c sp ea b (pre ++ listR) else none) with
        | some off => .error (copyErr .capabilityFault off)
        | none =>
          if scopeBad b then .error (copyErr .addrFault 0)
          else match windowFault x.kernel.scratch b (pre ++ listR) with
            | some off => .error (copyErr .scratchBounds off)
            | none =>
              if kind ≠ 2 then .ok (⟨lane, eng, b, []⟩, s)
              else match s.laneBytes (if blkSs b then .s else .g) (blkSrc b) (16 * blkCount b) 16 with
                | .error f => .error ⟨f.cause, 8, 0, some f⟩
                | .ok (v, t) =>
                  match listEntries (blkCount b) v with
                  | none => .error (copyErr .addrFault 8)
                  | some ps =>
                    let rs := copyRanges 2 b ps
                    match (if c.prot then t.copyCaps c sp ea b rs else none), windowFault x.kernel.scratch b rs with
                    | some off, _ => .error (copyErr .capabilityFault off)
                    | none, some off => .error (copyErr .scratchBounds off)
                    | none, none => .ok (⟨lane, eng, b, ps⟩, t)

/-- A lane's block is read and checked (09 R264). -/
def State.readBlock (s : State) (kind lane : Nat) (sp : Space) (ea : Int) : Except CopyErr (CopySpec × State) :=
  match s.laneBytes sp ea 128 128 with
  | .error f => .error ⟨f.cause, noOff, 0, some f⟩
  | .ok (v, t) => t.checkBlock kind lane sp ea (BitVec.ofNat 1024 v)

/-- The handle of a group's copy (09 R268). -/
def copyHandle (seq eng : Nat) : W32 := BitVec.ofNat 32 (65536 * (eng % 4096) + (Config.copySeqBase + seq) % 65536)

/-- A copy is accepted: it gets its number and registers; one without payload ends at once (09 R265, 08 R229). -/
def State.acceptCopy (s : State) (kind : Nat) (p : CopySpec) : State :=
  let x := s.curGroup
  let id := s.eng.nextId
  let c : Copy := { Copy.blank with
    used := true, grp := some s.cur.grp, part := x.part, asid := x.asid, pcore := x.pcore, eng := p.eng, seq := x.copySeq,
    kind := kind, block := p.block, pieces := p.pieces, total := blkTotal kind p.block p.pieces }
  let s1 := { s with eng := { s.eng with copies := Store.put s.eng.copies Copy.blank id c, nextId := id + 1 } }
  let s2 := s1.modCur fun x => { x with copySeq := x.copySeq + 1 }
  if c.total = 0 then (s2.modCopy id fun c => { c with run := .queued }).copyComplete id
  else s2.registerCopy id

/-- The range-lock entries that a lane's copy takes. -/
def State.lockEntries (s : State) (kind : Nat) (p : CopySpec) : List Lock :=
  let x := s.curGroup
  let c : Copy := { Copy.blank with grp := some s.cur.grp, part := x.part, asid := x.asid, pcore := x.pcore, kind := kind,
                                    block := p.block, pieces := p.pieces }
  c.locks s.eng.nextId

/-- A lane's copy can be registered, or takes no lock (08 R226, R229; 09 R265). -/
def State.fitsLocks (s : State) (kind : Nat) (p : CopySpec) : Bool :=
  decide (blkTotal kind p.block p.pieces = 0) || s.lockable s.eng.nextId s.curGroup.pcore (s.lockEntries kind p)

/-- The lanes of an issue register in ascending order, as far as locks go; the rest stay (09 R265). -/
def State.acceptCopies (s : State) (kind : Nat) (l : List CopySpec) : List (Nat × Nat) × State :=
  match l with
  | [] => ([], s)
  | p :: r =>
    if s.fitsLocks kind p then
      let q := (s.acceptCopy kind p).acceptCopies kind r
      ((p.lane, (copyHandle s.curGroup.copySeq p.eng).toNat) :: q.1, q.2)
    else ([], s)

/-- A refused issue: the cause of the lowest failing lane, in the lanes that fail with it (09 R264). -/
def State.copyTrap (s : State) (sp : Space) (ea : Nat → Int) (l : List (Nat × CopyErr)) : State :=
  match l with
  | [] => s
  | (n, e) :: _ =>
    let m := l.foldl (fun acc p => if p.2.cause = e.cause then acc ||| laneBit p.1 else acc) 0
    let t := s.mkTrap e.cause m e.i0 (BitVec.ofInt 64 (ea n)) e.off 0
    match e.acc with
    | some f => s.accStop f (accField .load sp) t m
    | none => s.trap t

/-- The address of a lane's command block. -/
def State.blockAddr (s : State) (f : Full) (sp : Space) (l : Nat) : Int :=
  match sp with
  | .g => ((s.src f f.a true l).toNat : Int)
  | _ => ((s.src32 f f.a l).toNat : Int)

/-- The blocks of the lanes given, read and checked in ascending order: the copies that pass, the lanes that fail, and the machine after
the reads (09 R264). -/
def State.copyBlocks (s : State) (kind : Nat) (f : Full) (sp : Space) : List CopySpec × List (Nat × CopyErr) × State :=
  (laneList (s.gLive f)).foldl (fun (acc : List CopySpec × List (Nat × CopyErr) × State) l =>
    match acc.2.2.readBlock kind l sp (s.blockAddr f sp l) with
    | .ok (p, t) => (acc.1 ++ [p], acc.2.1, t)
    | .error e => (acc.1, acc.2.1 ++ [(l, e)], acc.2.2)) ([], [], s)

/-- A copy form (09 R264, R265). -/
def State.copyForm (s : State) (kind : Nat) (f : Full) (sp : Space) : State :=
  let r := s.copyBlocks kind f sp
  match r.2.1 with
  | [] =>
    let q := r.2.2.acceptCopies kind r.1
    let got := q.1.foldl (fun acc p => acc ||| laneBit p.1) (0 : Lanes)
    (q.2.writeDst f.d false true got fun l => BitVec.ofNat 64 (Store.get q.1 0 l)).splitOff (s.gLive f &&& ~~~got)
      (.locks ((r.1[q.1.length]?).elim 0 fun p => (q.2.lockEntries kind p).length))
  | l => s.copyTrap sp (s.blockAddr f sp) l

/-- CPY (09 R264) -/
def execCpy (f : Full) (space : Space) (s : State) : Host.Outcome State Fault Refusal :=
  s.issue (.cpy f space) f fun s => s.copyForm 0 f space

/-- CPY2D (09 R264) -/
def execCpy2d (f : Full) (space : Space) (s : State) : Host.Outcome State Fault Refusal :=
  s.issue (.cpy2d f space) f fun s => s.copyForm 1 f space

/-- CPYG (09 R264) -/
def execCpyg (f : Full) (space : Space) (s : State) : Host.Outcome State Fault Refusal :=
  s.issue (.cpyg f space) f fun s => s.copyForm 2 f space

/-- The handle names the copy. -/
def isHandle (h : W32) (seq eng : Nat) : Bool := copyHandle seq eng == h

/-- The copy under way of a group that a handle names: the most recent, among the last 256 (09 R268). -/
def State.copyNamed (s : State) (g : Nat) (h : W32) : Option Nat :=
  ((s.eng.copies.filter fun p => p.2.used && p.2.grp == some g && isHandle h p.2.seq p.2.eng &&
    (s.group g).recentCopy p.2.seq).getLast?).map Prod.fst

/-- A copy under way is cancelled (09 R269); one whose payload has been declared FATAL ends FAILED all the same. -/
def Copy.cancelled (c : Copy) : Copy := { c with cancel := true }

/-- CCAN (09 R269) -/
def execCcan (f : Full) (s : State) : Host.Outcome State Fault Refusal :=
  s.issue (.ccan f) f fun s =>
    (((laneList (s.gLive f)).filterMap fun l => s.copyNamed s.cur.grp (s.src32 f f.a l)).foldl
      (fun t id => t.modCopy id Copy.cancelled) s).advance

/-- The status a handle reads (09 R268). -/
def State.cstatOf (s : State) (g : Nat) (h : W32) : W64 :=
  match s.copyNamed g h with
  | some id => let c := s.copy id; cstatWord c.run 0 c.done
  | none =>
    match ((s.group g).cstat.filter fun p => isHandle h (p.1 / 4096) (p.1 % 4096) && (s.group g).recentCopy (p.1 / 4096)).getLast? with
    | some p => p.2
    | none => 0x5000000000000000

/-- CSTAT (09 R268) -/
def execCstat (f : Full) (s : State) : Host.Outcome State Fault Refusal :=
  s.issue (.cstat f) f fun s =>
    (s.pendDst f.d (fun _ => .mem) false (s.gLanes f) fun l => words64 true (s.cstatOf s.cur.grp (s.src32 f f.a l))).advance

end Sys2Proof.Machine
end

