-- ==== Sys2Proof/Machine/Matrix.lean ====
section
/-!
DEFINITION. The matrix arrays and the matrix forms (spec/10_matrix.md), with the sums of spec/05_number_formats.md R137 to R142.
-/

namespace Sys2Proof.Machine

/-! ### The format word (05 R137, R138) -/

/-- AFMT -/
def fmtA (w : W32) : Ty := Ty.ofCode (w.extractLsb' 0 4)
/-- BFMT -/
def fmtB (w : W32) : Ty := Ty.ofCode (w.extractLsb' 4 4)
/-- ACC -/
def fmtAcc (w : W32) : Ty := Ty.ofCode (w.extractLsb' 8 4)
/-- SSAT -/
def fmtSat (w : W32) : Bool := w.getLsbD 12
/-- SRND -/
def fmtRnd (w : W32) : Rnd := Rnd.ofCode (w.extractLsb' 13 2)

/-- The type is an 8-bit float. -/
def isF8 (t : Ty) : Bool := t == .e4m3 || t == .e5m2
/-- The type is a matrix integer. -/
def isMInt (t : Ty) : Bool := t == .i8 || t == .i4
/-- The type is a 16-bit float. -/
def isF16 (t : Ty) : Bool := t == .f16 || t == .bf16

/-- The format word is valid (05 R138). -/
def fmtValid (w : W32) : Bool :=
  w.extractLsb' 15 17 == 0 && decide ((w.extractLsb' 0 4).toNat < 14 ∧ (w.extractLsb' 4 4).toNat < 14 ∧ (w.extractLsb' 8 4).toNat < 14) &&
    ((isF8 (fmtA w) && isF8 (fmtB w) && fmtAcc w == .f32) || (isMInt (fmtA w) && isMInt (fmtB w) && fmtAcc w == .i32) ||
      (isF16 (fmtA w) && fmtB w == fmtA w && fmtAcc w == .f32))

/-- K (10 R280). -/
def tileK (w : W32) : Nat := if fmtB w = .i4 then 256 else 128
/-- Bytes of a weight row. -/
def weightRow (w : W32) : Nat := if fmtB w = .i4 then 64 else 128
/-- Bytes of an activation row. -/
def actRow (w : W32) : Nat := tileK w * (fmtA w).width / 8
/-- The columns an operation acts on. -/
def actCols (w : W32) (p : Plane) : List Nat :=
  if isF16 (fmtB w) then (List.range 64).map fun n => n + (if p.cols then 64 else 0) else List.range 128

/-! ### Sums (05 R139 to R142) -/

/-- Element k of a packed row: its bits. -/
def elemBits (get : Nat → W8) (base : Nat) (t : Ty) (k : Nat) : Nat :=
  match t.width with
  | 4 => (get (base + k / 2)).toNat / (if k % 2 = 1 then 16 else 1) % 16
  | 8 => (get (base + k)).toNat
  | _ => (get (base + 2 * k)).toNat + 256 * (get (base + 2 * k + 1)).toNat

/-- A floating element. -/
def elemXR (t : Ty) (x : Nat) : XR := match Fmt.ofTy t with | some F => (F.dec x).quiet | none => .zero false

/-- A rounding to FP32, RNE, with the flags it raises. -/
def toF32 (x : XR × W8) : XR × W8 :=
  let r := roundFmt .f32 .rne false x.1
  ((Fmt.f32.dec r.1).quiet, x.2 ||| r.2)

/-- The products of two lists of elements. -/
def products (a w : List XR) : List (XR × W8) := List.zipWith xmul a w

/-- A sum rounded to FP32. -/
def addF32 (a b : XR) : XR × W8 := toF32 (xadd .rne a b)

/-- One block of 8-bit floats (05 R139). -/
def blockF8 (acc : XR) (a w : List XR) (rs ts : XR) : XR × W8 :=
  let t := toF32 (sumExact (products a w))
  let sc := toF32 (xmul rs ts)
  let u := toF32 (xmul t.1 sc.1)
  let r := addF32 acc u.1
  (r.1, t.2 ||| sc.2 ||| u.2 ||| r.2)

/-- Neighbours of a list added, each sum rounded (05 R142). -/
def treeStep (l : List (XR × W8)) : List (XR × W8) :=
  match l with
  | x :: y :: r => let z := addF32 x.1 y.1; (z.1, x.2 ||| y.2 ||| z.2) :: treeStep r
  | l => l

/-- One chunk of 32 products by the fixed tree, added to the accumulator (05 R142). -/
def chunk16 (acc : XR) (a w : List XR) : XR × W8 :=
  let x := (products a w).map toF32
  match treeStep (treeStep (treeStep (treeStep (treeStep x)))) with
  | y :: _ => let r := addF32 acc y.1; (r.1, y.2 ||| r.2)
  | [] => (acc, 0)

/-- One block of 16-bit floats: four chunks in ascending k (05 R142). -/
def block16 (acc : XR) (a w : List XR) : XR × W8 :=
  (List.range 4).foldl (fun r c =>
    let y := chunk16 r.1 ((a.drop (32 * c)).take 32) ((w.drop (32 * c)).take 32)
    (y.1, r.2 ||| y.2)) (acc, 0)

/-- An INT4 or INT8 element: 0b1000 reads as 0 and raises I4R (05 R126). -/
def elemInt (t : Ty) (x : Nat) : Int × W8 :=
  if t = .i4 ∧ x = 8 then (0, flagI4R) else (intOf t (BitVec.ofNat 64 x), 0)

/-- One integer block (05 R141). -/
def blockInt (acc : Int) (a w : List (Int × W8)) : Int × W8 :=
  let s := (List.zipWith (fun x y => x.1 * y.1) a w).foldl (· + ·) 0
  let r := clampInt (-(2 ^ 31)) (2 ^ 31 - 1) (acc + s)
  (r, (a ++ w).foldl (fun f p => f ||| p.2) (flagIf (r != acc + s) flagSAT))

/-- The encoding of an FP32 accumulator value. -/
def accBits (x : XR) : W32 := BitVec.ofNat 32 (Fmt.f32.enc x)

/-! ### Rows of operations (10 R290 to R293) -/

/-- The array with a logical name. -/
def Group.array (x : Group) (n : Nat) : MArray := Store.get x.arrays MArray.blank n
/-- The group with an array changed. -/
def Group.modArray (x : Group) (n : Nat) (f : MArray → MArray) : Group :=
  { x with arrays := Store.put x.arrays MArray.blank n (f (x.array n)) }
/-- A plane after `mclaim` (10 R279). -/
def Plane.fresh : Plane := ⟨[], 0x3F800000, false⟩
/-- An array after `mclaim`. -/
def MArray.fresh : MArray := ⟨Plane.fresh, Plane.fresh, [], [], []⟩

/-- How many of warp w's writes a reader has synchronised with (10 R286). -/
def Group.sees (x : Group) (reader w : Nat) : Nat := Store.get x.mSeen 0 (32 * reader + w)

/-- How many writes of each warp are ordered before what the M-stream issues now (10 R286). -/
def Group.mSees (x : Group) : List Nat := (List.range 16).map (x.sees 17)

/-- The scale-table entry an `mact` reads: writes ordered before its issue, and on occasion n others (10 R286). -/
def Group.scaleAt (x : Group) (seen : List Nat) (n key : Nat) : W32 :=
  ((x.scalePend.zipIdx).filter fun p => p.1.key == key).foldl (fun v p =>
    if decide (p.1.n ≤ seen.getD p.1.wid 0) || Config.choiceAt n (16384 + p.2) then p.1.val else v) (Store.get x.scale 0x3F800000 key)

/-- One accumulator row of an `mact`: the new words by column, and the flags (10 R290). -/
def Group.actLine (x : Group) (n : Nat) (y : MArray) (op : MOp) (i : Nat) : List (Nat × W32) × W8 :=
  let F := x.gfmt
  let P := y.active
  let r := op.b + i
  let sget (a : Nat) : W8 := Store.get x.scratch 0 a
  let wget (a : Nat) : W8 := Store.get P.bytes 0 a
  let base := op.a + i * actRow F
  let c0 (c : Nat) : Nat := if isF16 (fmtB F) && P.cols then c - 64 else c
  let wbits (k c : Nat) : Nat := elemBits wget (k * weightRow F) (fmtB F) (c0 c)
  let blocks := tileK F / 128
  let one (c : Nat) : W32 × W8 :=
    let old := Store.get y.acc 0 (128 * r + c)
    if isMInt (fmtA F) then
      let z := (List.range blocks).foldl (fun (z : Int × W8) j =>
        let ks := (List.range 128).map (· + 128 * j)
        let q := blockInt z.1 (ks.map fun k => elemInt (fmtA F) (elemBits sget base (fmtA F) k))
          (ks.map fun k => elemInt (fmtB F) (wbits k c))
        (q.1, z.2 ||| q.2)) (old.toInt, 0)
      (BitVec.ofInt 32 z.1, z.2)
    else
      let as := (List.range 128).map fun k => elemXR (fmtA F) (elemBits sget base (fmtA F) k)
      let ws := (List.range 128).map fun k => elemXR (fmtB F) (wbits k c)
      let z :=
        if isF8 (fmtA F) then blockF8 (xrOf old) as ws (xrOf (x.scaleAt op.seen n (4 * r + op.slot))) (xrOf P.ts)
        else block16 (xrOf old) as ws
      (accBits z.1, z.2)
  (actCols F P).foldl (fun (acc : List (Nat × W32) × W8) c =>
    let z := one c
    (acc.1 ++ [(128 * r + c, z.1)], acc.2 ||| z.2)) ([], 0)

/-- The bytes of one value converted by `mst`, as bits, and the flags (10 R293). -/
def mstConv (F : W32) (t : Ty) (w : W32) : Nat × W8 :=
  if fmtAcc F = .f32 then
    match t with
    | .f32 => (w.toNat, 0)
    | t => match Fmt.ofTy t with | some G => roundFmt G (fmtRnd F) (fmtSat F) (xrOf w) | none => (0, 0)
  else
    match t with
    | .i32 => (w.toNat, 0)
    | t =>
      let v := w.toInt
      let c := clampInt (intMin t) (intMax t) v
      if t = .i4 ∨ fmtSat F then ((c % 2 ^ t.width).toNat, flagIf (c != v) flagSAT)
      else (w.toNat % 2 ^ t.width, 0)

/-- `mst` may convert to the type (10 R293). -/
def mstType (F : W32) (t : Ty) : Bool :=
  if fmtAcc F = .f32 then t == .f32 || isF16 t || isF8 t else t == .i32 || t == .i16 || isMInt t

/-- Bytes of a row that `mst` stores. -/
def mstRow (t : Ty) : Nat := 128 * t.width / 8

/-- The bytes of row i of an `mst`, and the flags. -/
def Group.stLine (x : Group) (y : MArray) (op : MOp) (i : Nat) : List W8 × W8 :=
  let v := (List.range 128).foldl (fun (acc : Nat × W8) c =>
    let z := mstConv x.gfmt op.ty (Store.get y.acc 0 (128 * (op.b + i) + c))
    (acc.1 + z.1 * 2 ^ (op.ty.width * c), acc.2 ||| z.2)) (0, 0)
  (bytesOf (mstRow op.ty) v.1, v.2)

/-- Row i of a compute operation takes effect (10 R290 to R293). -/
def Group.doLine (x : Group) (n arr : Nat) (op : MOp) (i : Nat) : Group × W8 :=
  let y := x.array arr
  match op.kind with
  | .act =>
    let r := x.actLine n y op i
    (x.modArray arr fun y => { y with acc := r.1.foldl (fun s p => Store.put s 0 p.1 p.2) y.acc }, r.2)
  | .zero =>
    (x.modArray arr fun y => { y with acc := y.acc.filter fun p => p.1 / 128 != op.b + i }, 0)
  | .st =>
    let r := x.stLine y op i
    (x.scratchWrite (op.a + i * mstRow op.ty) r.1, r.2)
  | .wld => (x, 0)

/-- Rows i to i + k - 1 of a compute operation, with the flags of each row. -/
def Group.doLines (x : Group) (n arr : Nat) (op : MOp) (i k : Nat) : Group × List (Nat × W8) :=
  (List.range k).foldl (fun (r : Group × List (Nat × W8)) j =>
    let z := r.1.doLine n arr op (i + j)
    (z.1, r.2 ++ [(op.b + i + j, z.2)])) (x, [])

/-! ### The ports (10 R288, R289, R294, R295, R301) -/

/-- MWLD_COMPLETE (10 R288): the oldest load of an array's load port reads its tile into the shadow plane. -/
def Group.loadTile (x : Group) (arr : Nat) : Group :=
  let y := x.array arr
  match y.loadQ with
  | [] => x
  | op :: r =>
    let bytes := (List.range 16384).foldl (fun (s : Store W8) k => Store.put s 0 k (Store.get x.scratch 0 (op.a + k))) []
    x.modArray arr fun y => { y with shadow := ⟨bytes, op.ts, op.chi⟩, loadQ := r }

/-- MWLD_COMPLETE (10 R288) -/
def execMwldComplete (grp arr : Nat) (s : State) : Host.Outcome State Fault Refusal := .next (s.modGroup grp (·.loadTile arr))

/-- A block of 32 rows of the oldest operation of a compute port; when it completes, its flags enter the M-stream's FSTAT (10
R295, R301). -/
def Group.computeBlock (x : Group) (n arr : Nat) : Group :=
  match (x.array arr).compQ with
  | [] => x
  | op :: r =>
    let k := min 32 (op.c - op.next)
    let z := x.doLines n arr op op.next k
    let fl : W32 := op.flags ||| ((orFlags z.2).setWidth 32)
    if op.next + k < op.c then z.1.modArray arr fun y => { y with compQ := { op with next := op.next + k, flags := fl } :: r }
    else
      { z.1.modArray arr fun y => { y with compQ := r } with mstr := { z.1.mstr with fstat := z.1.mstr.fstat ||| fl } }

/-- MATRIX_BLOCK (10 R301) -/
def execMatrixBlock (grp arr : Nat) (s : State) : Host.Outcome State Fault Refusal :=
  .next (s.modGroup grp (·.computeBlock s.draws arr)).draw

/-- The planes of an array may be exchanged: no earlier load is under way, and no earlier `mact` still reads weights (10 R289). -/
def MArray.canSwap (y : MArray) : Bool := y.loadQ.isEmpty && y.compQ.all fun o => o.kind != .act

/-- The planes are exchanged. -/
def MArray.exchange (y : MArray) : MArray := { y with active := y.shadow, shadow := y.active }

/-- MSWAP_EXCHANGE (10 R289): the exchange takes effect and the M-stream goes on. -/
def execMswapExchange (grp arr : Nat) (s : State) : Host.Outcome State Fault Refusal :=
  .next (match (s.group grp).mstr.wait with
    | .mswap n next =>
      if n = arr ∧ ((s.group grp).array arr).canSwap then
        s.modGroup grp fun x =>
          { x.modArray arr MArray.exchange with mstr := { x.mstr with wait := .ready, pc := next, bp := 0 } }
      else s
    | _ => s)

/-- The condition of a MATRIX wait that executes its form again holds. -/
def Group.matrixDone (x : Group) (ld cmp st : Bool) (port : Option (Nat × Bool)) : Bool :=
  !x.outstanding ld cmp st &&
    port.all fun p => decide ((if p.2 then (x.array p.1).loadQ else (x.array p.1).compQ).length < 8)

/-! ### Claims (10 R278) -/

/-- The arrays of a core that no group holds. -/
def State.freeArrays (s : State) (core : Nat) : List Nat :=
  [0, 1].filter fun a => !(s.groups.any fun p => p.2.used && p.2.pcore == core && p.2.phys.contains a)

/-- A group's claim is granted. -/
def Group.grantClaim (x : Group) (both : Bool) (phys : List Nat) : Group :=
  { x with claim := if both then 2 else 1, phys := phys,
           arrays := (if both then [0, 1] else [0]).foldl (fun a n => Store.put a MArray.blank n MArray.fresh) [] }

/-- The claims that wait on a core. -/
def State.claimList (s : State) (core : Nat) : List (Nat × Bool) := Store.get s.eng.claims [] core

/-- The list of waiting claims changed. -/
def State.setClaims (s : State) (core : Nat) (l : List (Nat × Bool)) : State :=
  { s with eng := { s.eng with claims := Store.put s.eng.claims [] core l } }

/-- The arrays that a claim would take, if it can be granted. -/
def State.arraysFor (s : State) (core : Nat) (both : Bool) : Option (List Nat) :=
  let free := s.freeArrays core
  if both then (if free.length = 2 then some free else none) else free.head?.map fun a => [a]

/-- MCLAIM_GRANT (10 R278): the oldest waiting claim of a core is granted once it can be met; one whose stream no longer waits goes. -/
def execMclaimGrant (core : Nat) (s : State) : Host.Outcome State Fault Refusal :=
  .next (match s.claimList core with
    | [] => s
    | (g, both) :: r =>
      match (s.group g).mstr.wait with
      | .mclaim b next =>
        if b != both || !(s.group g).used then s.setClaims core r
        else match s.arraysFor core both with
          | some phys =>
            ((s.modGroup g (·.grantClaim both phys)).modStream g .m fun y => { y with wait := .ready, pc := next, bp := 0 }).setClaims core r
          | none => s
      | _ => s.setClaims core r)

/-! ### Traps -/

/-- MATRIX_STATE of the issuing form (10 R299). -/
def State.matrixTrap (s : State) (reason detail : Nat) (m : Lanes) : State :=
  s.trap (s.mkTrap .matrixState m (BitVec.ofNat 64 reason) (BitVec.ofNat 64 detail) 0 0)

/-- MCLAIM (10 R278) -/
def execMclaim (f : Full) (both : Bool) (s : State) : Host.Outcome State Fault Refusal :=
  s.issue (.mclaim f both) f fun s =>
    if s.gLanes f = 0 then s.advance
    else
      let x := s.curGroup
      if x.claim ≠ 0 then s.matrixTrap 3 (if x.claim = 2 then 1 else 0) 0
      else
        let l := s.claimList x.pcore
        match (if l.isEmpty then s.arraysFor x.pcore both else none) with
        | some phys => (s.modCur (·.grantClaim both phys)).advance
        | none => ((s.setClaims x.pcore (l ++ [(s.cur.grp, both)])).park (.mclaim both s.cur.npc)).markDone

/-- MREL (10 R298) -/
def execMrel (f : Full) (s : State) : Host.Outcome State Fault Refusal :=
  s.issue (.mrel f) f fun s =>
    if s.gLanes f = 0 then s.advance
    else if s.curGroup.idleArrays then (s.modCur (·.release)).advance
    else s.park (.matrix true true true none)

/-- MEND (10 R298): an ended M-stream counts as arrived at every later phase (07 R186). -/
def execMend (f : Full) (s : State) : Host.Outcome State Fault Refusal :=
  s.issue (.mend f) f fun s =>
    if s.gLanes f = 0 then s.advance
    else if s.curGroup.idleArrays then
      (s.advance.modCur Group.endM).settleBarriers s.cur.grp
    else s.park (.matrix true true true none)

/-! ### `mfmt` and `mscl` (10 R281 to R286) -/

/-- FORMAT_DIVERGENCE against a reference (10 R282). -/
def State.divergence (s : State) (f : Full) (ref : W32) : State :=
  let m := laneMask (s.gLive f) fun l => s.src32 f f.a l != ref
  let v := (lowLane m).elim 0 fun l => s.src32 f f.a l
  s.trap (s.mkTrap .formatDivergence m (ref.setWidth 64) (v.setWidth 64) 0 0)

/-- The warp has written one more thing for others. -/
def State.noteWrite (s : State) : State := s.modCurWarp fun w => { w with mWrites := w.mWrites + 1 }

/-- MFMT (10 R281) -/
def execMfmt (f : Full) (s : State) : Host.Outcome State Fault Refusal :=
  s.issue (.mfmt f) f fun s =>
    let m := s.gLive f
    match lowLane m with
    | none => s.advance
    | some l =>
      let x := s.src32 f f.a l
      let g := s.curGroup
      if !g.mstr.on then s.matrixTrap 8 0 m
      else if (laneList m).any fun k => s.src32 f f.a k != x then s.divergence f (if g.est then g.gfmt else x)
      else if g.est then (if x != g.gfmt then s.divergence f g.gfmt else s.advance)
      else if !fmtValid x then s.matrixTrap 1 x.toNat m
      else
        let s1 := s.noteWrite
        (s1.modCur fun y => { y with gfmt := x, est := true, fmtSeen := 1#18 <<< s.cur.wid }).advance

/-- Without the entries of the list of scale writes that a later one of their key has replaced for the M-stream and for every operation in
a compute port. -/
def Group.trimScale (x : Group) : Group :=
  let acts : List MOp := x.arrays.flatMap fun p => p.2.compQ.filter fun o => o.kind == .act
  let seen (w : ScaleWrite) : Bool := decide (w.n ≤ x.sees 17 w.wid) && acts.all fun o => decide (w.n ≤ o.seen.getD w.wid 0)
  { x with scalePend := ((x.scalePend.zipIdx).filter fun p =>
      !((x.scalePend.drop (p.2 + 1)).any fun q => q.key == p.1.key && seen q)).map (·.1) }

/-- The position before the writes of a key that no phase orders before a new one, behind every write of the key that is ordered before
it. -/
def Group.scaleSpot (x : Group) (w : ScaleWrite) : Nat :=
  let fixed (e : ScaleWrite) : Bool := e.key == w.key && (e.wid == w.wid || decide (e.n ≤ x.sees w.wid e.wid))
  (x.scalePend.zipIdx).foldl (fun k p => if fixed p.1 then p.2 + 1 else k) 0

/-- A write joins those of its key; on an occasion it comes before those that no phase orders before it (10 R286). -/
def Group.addScale (x : Group) (n : Nat) (w : ScaleWrite) : Group :=
  let k := x.scaleSpot w
  if (x.scalePend.drop k).any (·.key == w.key) && Config.choiceAt n w.key then
    { x with scalePend := x.scalePend.take k ++ w :: x.scalePend.drop k }
  else { x with scalePend := x.scalePend ++ [w] }

/-- MSCL (10 R285) -/
def execMscl (f : Full) (imm : BitVec 10) (s : State) : Host.Outcome State Fault Refusal :=
  s.issue (.mscl f imm) f fun s =>
    let m := s.gLive f
    let rb := 16 * (imm.extractLsb' 0 4).toNat
    let slot := (imm.extractLsb' 4 2).toNat
    let bad := laneMask m fun l => decide (255 < rb + l)
    if m = 0 then s.advance
    else if !s.curGroup.mstr.on then s.matrixTrap 8 0 m
    else match lowLane bad with
      | some l => s.matrixTrap 7 (rb + l) bad
      | none =>
        let s1 := s.noteWrite
        let n := s1.curWarp.mWrites
        (s1.modCur fun x => ((laneList m).foldl (fun (x : Group) l =>
          x.addScale s.draws ⟨4 * (rb + l) + slot, s.src32 f f.a l, s.cur.wid, n⟩) x).trimScale).advance

/-! ### Forms of the M-stream -/

/-- The M-stream finds the format established: certainly where phases order the establishing `mfmt` before it, otherwise on an occasion
(10 R284). -/
def State.estNow (s : State) : Bool :=
  let x := s.curGroup
  x.est && (x.knowsFmt 17 || Config.choiceAt s.draws 8191)

/-- The array is claimed (10 R287). -/
def Group.claims (x : Group) (arr : Nat) : Bool := decide (arr < x.claim)

/-- A failure of a matrix operation's scratchpad range (10 R288). -/
def State.rangeFail (s : State) (c : Cause) (a : W32) : State := s.trap (s.mkTrap c 0 0x10 (a.setWidth 64) 0 0)

/-- The checks of a matrix operation's scratchpad range: window, alignment, locks and poison (10 R288, R291, R293, R297; 21 R496). -/
def State.matrixRange (s : State) (a : W32) (n align : Nat) (writes : Bool) (k : State → State) : State :=
  let off := a.toNat
  if s.curGroup.kernel.scratch < off + n then s.rangeFail .scratchBounds a
  else if off % align ≠ 0 then s.rangeFail .misalignedAccess a
  else if s.mem.lockedScratch s.cur.grp off n (!writes) then s.rangeFail .rangeLocked a
  else if !writes && s.curGroup.scratchBad off n then
    s.accStop ⟨.poisonData, some 3, a.setWidth 64, none⟩ (accField .load .s) (s.mkTrap .poisonData 0 0x10 (a.setWidth 64) 0 0) 0
  else k s

/-- An operation enters a port of an array, which has room. -/
def State.enterPort (s : State) (arr : Nat) (op : MOp) : State :=
  (s.modCur (·.modArray arr fun y =>
    if op.kind = .wld then { y with loadQ := y.loadQ ++ [op] } else { y with compQ := y.compQ ++ [op] })).advance

/-- An operation whose port is full waits (10 R294). -/
def State.throughPort (s : State) (arr : Nat) (op : MOp) : State :=
  let ld : Bool := op.kind == .wld
  if s.curGroup.matrixDone false false false (some (arr, ld)) then s.enterPort arr op
  else s.park (.matrix false false false (some (arr, ld)))

/-- While FSTAT enables a flag, an `mact` or `mst` completes before the next instruction, or traps and writes nothing (10 R300). -/
def State.atOnce (s : State) (arr : Nat) (op : MOp) : State :=
  let en := enabledFlags s.fstat
  let mine := s.curGroup.arrays.any fun p => p.1 == arr && !p.2.compQ.isEmpty
  if en = 0 then s.throughPort arr op
  else if mine then s.park (.matrix false true true none)
  else
    let z := s.curGroup.doLines s.draws arr op 0 op.c
    let all := orFlags z.2
    match z.2.find? fun p => p.2 &&& en != 0 with
    | some p =>
      s.trap (s.mkTrap .fpException 0 (((all &&& en).setWidth 64) ||| (all.setWidth 64 <<< 8)) (BitVec.ofNat 64 p.1) 0 0)
    | none => ((s.modCur fun _ => z.1).setFstat (s.fstat ||| all.setWidth 32)).advance

/-- The rows that a form names are rows of the array (10 R291). -/
def rowsOk (b c : W32) : Bool := decide (1 ≤ c.toNat ∧ b.toNat + c.toNat ≤ 256)

/-- The detail of reason 5. -/
def rowsDetail (b c : W32) : Nat := b.toNat * 2 ^ 32 + c.toNat

/-- MWLD (10 R288) -/
def execMwld (f : Full) (arr : Fin 2) (chi : Bool) (s : State) : Host.Outcome State Fault Refusal :=
  s.issue (.mwld f arr chi) f fun s =>
    if s.gLanes f = 0 then s.advance
    else
      let a := s.src32 f f.a 0
      if !s.estNow then s.matrixTrap 4 0 0
      else if !s.curGroup.claims arr.val then s.matrixTrap 2 arr.val 0
      else s.matrixRange a 16384 128 false fun s =>
        s.throughPort arr.val ⟨.wld, a.toNat, 0, 0, 0, .i32, s.src32 f f.b 0, chi, 0, 0, []⟩

/-- MSWAP (10 R289) -/
def execMswap (f : Full) (arr : Fin 2) (s : State) : Host.Outcome State Fault Refusal :=
  s.issue (.mswap f arr) f fun s =>
    if s.gLanes f = 0 then s.advance
    else if !s.curGroup.claims arr.val then s.matrixTrap 2 arr.val 0
    else if (s.curGroup.array arr.val).canSwap then (s.modCur (·.modArray arr.val MArray.exchange)).advance
    else (s.park (.mswap arr.val s.cur.npc)).markDone

/-- MACT (10 R290, R291) -/
def execMact (f : Full) (arr : Fin 2) (slot : Fin 4) (s : State) : Host.Outcome State Fault Refusal :=
  s.issue (.mact f arr slot) f fun s =>
    if s.gLanes f = 0 then s.advance
    else
      let a := s.src32 f f.a 0
      let b := s.src32 f f.b 0
      let c := s.src32 f f.c 0
      if !s.estNow then s.matrixTrap 4 0 0
      else if !s.curGroup.claims arr.val then s.matrixTrap 2 arr.val 0
      else if !rowsOk b c then s.matrixTrap 5 (rowsDetail b c) 0
      else s.matrixRange a (c.toNat * actRow s.curGroup.gfmt) 64 false fun s =>
        s.atOnce arr.val ⟨.act, a.toNat, b.toNat, c.toNat, slot.val, .i32, 0, false, 0, 0, s.curGroup.mSees⟩

/-- MZERO (10 R292) -/
def execMzero (f : Full) (arr : Fin 2) (s : State) : Host.Outcome State Fault Refusal :=
  s.issue (.mzero f arr) f fun s =>
    if s.gLanes f = 0 then s.advance
    else
      let b := s.src32 f f.b 0
      let c := s.src32 f f.c 0
      if !s.curGroup.claims arr.val then s.matrixTrap 2 arr.val 0
      else if !rowsOk b c then s.matrixTrap 5 (rowsDetail b c) 0
      else s.throughPort arr.val ⟨.zero, 0, b.toNat, c.toNat, 0, .i32, 0, false, 0, 0, []⟩

/-- MST (10 R293) -/
def execMst (f : Full) (arr : Fin 2) (ty : Ty) (s : State) : Host.Outcome State Fault Refusal :=
  s.issue (.mst f arr ty) f fun s =>
    if s.gLanes f = 0 then s.advance
    else
      let a := s.src32 f f.a 0
      let b := s.src32 f f.b 0
      let c := s.src32 f f.c 0
      if !s.estNow then s.matrixTrap 4 0 0
      else if !s.curGroup.claims arr.val then s.matrixTrap 2 arr.val 0
      else if !rowsOk b c then s.matrixTrap 5 (rowsDetail b c) 0
      else if !mstType s.curGroup.gfmt ty then s.matrixTrap 6 ty.code.toNat 0
      else s.matrixRange a (c.toNat * mstRow ty) 64 true fun s =>
        s.atOnce arr.val ⟨.st, a.toNat, b.toNat, c.toNat, 0, ty, 0, false, 0, 0, []⟩

/-- MWAIT (10 R295) -/
def execMwait (f : Full) (ld cmp st : Bool) (s : State) : Host.Outcome State Fault Refusal :=
  s.issue (.mwait f ld cmp st) f fun s =>
    if s.gLanes f = 0 then s.advance
    else if s.curGroup.outstanding ld cmp st then s.park (.matrix ld cmp st none)
    else s.advance

end Sys2Proof.Machine
end

