-- ==== Sys2Proof/Machine/Launch.lean ====
section
/-!
DEFINITION. Kernel descriptors and launch records and their limits, the curves, the groups of a pixel launch, where groups fit, and
group start (spec/13_work_creation.md R354 to R357, R366, R368; spec/12_graphics_pipeline.md R340, R341;
spec/01_device_overview.md R19 to R22; spec/02_execution_model.md R25 to R34; spec/18_scheduling_preemption.md R427;
spec/04_registers_encoding.md R501).
-/

namespace Sys2Proof.Machine

/-! ### Records (13 R354, R355) -/

/-- A kernel descriptor's bytes as a kernel; none where it is invalid. Its RZ fields are ignored (00 R8). -/
def kernelOf (desc : W64) (r : W512) : Option Kernel :=
  let w := recWord r 3
  let width := (w.extractLsb' 18 2).toNat
  let curve := (w.extractLsb' 10 3).toNat
  let slip := (w.extractLsb' 27 5).toNat
  let qs := recWord r 4
  let k : Kernel :=
    { desc := desc, entryE := recWord r 0, entryA := recWord r 1, entryM := recWord r 2,
      scratch := 4096 * (w.extractLsb' 32 8).toNat, slip := slip, regs := 8 * ((w.extractLsb' 20 7).toNat + 1),
      width := 16 * 2 ^ width, cohort := (w.extractLsb' 16 2).toNat + 1, quadlock := w.getLsbD 15, ftz := w.getLsbD 14,
      checked := w.getLsbD 13, curve := curve, tw := 2 ^ (w.extractLsb' 7 3).toNat, th := 2 ^ (w.extractLsb' 4 3).toNat,
      queues := qs, bars := r.extractLsb' 320 128 }
  if desc.extractLsb' 0 6 != 0 || width == 3 ||
      decide (128 * 4096 < k.scratch) || decide (16 < slip) || decide (768 < k.regs) || decide (3 < curve) ||
      (curve != 3 && w.extractLsb' 4 6 != 0) || k.entryE.extractLsb' 0 5 != 0 || k.entryA.extractLsb' 0 5 != 0 ||
      k.entryM.extractLsb' 0 5 != 0
  then none else some k

/-- The registers that queue storage costs (02 R28). -/
def Kernel.queueCost (k : Kernel) : Nat :=
  (List.range 8).foldl (fun n q => if k.hasQueue q then n + k.queueDepth q * (if k.queueWide q then 2 else 1) else n) 0

/-- The register budget of a kernel is within its limit (02 R28). -/
def Kernel.budgetOk (k : Kernel) : Bool := decide (k.regs + k.queueCost ≤ 768)

/-- The bytes of a quarter's register file that one warp occupies (02 R28). -/
def Kernel.warpBytes (k : Kernel) : Nat := k.width * (k.regs + k.queueCost) * 4

/-- A launch record's bytes. -/
abbrev LRec := BitVec 2048

/-- The 64-bit word at byte offset 8 * k of a launch record. -/
def lrWord (r : LRec) (k : Nat) : W64 := r.extractLsb' (64 * k) 64
/-- PRIO -/
def lrPrio (r : LRec) : Nat := ((lrWord r 2).extractLsb' 32 3).toNat
/-- The group's shape: DX, DY, DZ. -/
def lrShape (r : LRec) : Nat × Nat × Nat :=
  let f (n : Nat) : Nat := ((lrWord r 2).extractLsb' (10 * n) 10).toNat + 1
  (f 0, f 1, f 2)
/-- The grid's dimensions: nx, ny, nz. -/
def lrGrid (r : LRec) : Nat × Nat × Nat :=
  let w := lrWord r 1
  ((w.extractLsb' 0 32).toNat + 1, (w.extractLsb' 32 16).toNat + 1, (w.extractLsb' 48 16).toNat + 1)
/-- A pixel launch. -/
def lrPixel (r : LRec) : Bool := lrWord r 3 != 0
/-- VW, VH -/
def lrBuffer (r : LRec) : Nat × Nat := (((lrWord r 6).extractLsb' 32 16).toNat, ((lrWord r 6).extractLsb' 48 16).toNat)
/-- The regions of a buffer in x and y. -/
def lrRegions (r : LRec) : Nat × Nat := (((lrBuffer r).1 + 7) / 8, ((lrBuffer r).2 + 7) / 8)
/-- TASKS -/
def lrTasks (r : LRec) : W512 := r.extractLsb' 512 512
/-- GINIT of register n. -/
def lrInit (r : LRec) (n : Nat) : W32 := r.extractLsb' (1024 + 32 * n) 32

/-- The warps of a group of the record's shape; 0 where it is no whole number. -/
def lrWarps (r : LRec) (width : Nat) : Nat :=
  let d := lrShape r
  let n := d.1 * d.2.1 * d.2.2
  if n % width = 0 then n / width else 0

/-- The grid of an ordinary launch keeps the limits of 02 R32 and R34. -/
def gridOk (r : LRec) (c : Nat) : Bool :=
  let g := lrGrid r
  let n := g.1 * g.2.1 * g.2.2
  decide (g.1 ≤ 2 ^ 31 ∧ n ≤ 2 ^ 31) && n % c == 0

/-- A group's shape keeps the limits of 02 R25 and R31. -/
def shapeOk (r : LRec) (k : Kernel) : Bool := decide (1 ≤ lrWarps r k.width ∧ lrWarps r k.width ≤ 16)

/-! ### Curves (13 R368) -/

/-- HilbertXY of 13 R368, from bit pair s upward. -/
def hilbertLoop (fuel n s t x y : Nat) : Nat × Nat :=
  match fuel with
  | 0 => (x, y)
  | f + 1 =>
    if n ≤ s then (x, y)
    else
      let rx := t / 2 % 2
      let ry := (t + rx) % 2
      let p := if ry = 0 then (if rx = 1 then (s - 1 - y, s - 1 - x) else (y, x)) else (x, y)
      hilbertLoop f n (2 * s) (t / 4) (p.1 + s * rx) (p.2 + s * ry)

/-- HilbertXY(n, d). -/
def hilbertXY (n d : Nat) : Nat × Nat := hilbertLoop 34 n 1 d 0 0

/-- The least power of two at or above n, as an exponent. -/
def log2Up (n : Nat) : Nat := if n ≤ 1 then 0 else Nat.log2 (n - 1) + 1

/-- The first place at or after key k on the 3-D morton curve inside a grid, in a cube of side 2^b that starts at (x, y, z). -/
def mortonNext (b nx ny nz x y z base k : Nat) : Option (Nat × Nat × Nat × Nat) :=
  match b with
  | 0 => if k ≤ base ∧ x < nx ∧ y < ny ∧ z < nz then some (base, x, y, z) else none
  | b + 1 =>
    (List.range 8).findSome? fun c =>
      let x' := x + 2 ^ b * (c % 2)
      let y' := y + 2 ^ b * (c / 2 % 2)
      let z' := z + 2 ^ b * (c / 4)
      let base' := base + c * 8 ^ b
      if base' + 8 ^ b ≤ k ∨ nx ≤ x' ∨ ny ≤ y' ∨ nz ≤ z' then none else mortonNext b nx ny nz x' y' z' base' k

/-- The same on the Hilbert curve of a square of side 2^m, in the run of 4^b places from `base`. -/
def hilbertNext (b m nx ny base k : Nat) : Option (Nat × Nat × Nat) :=
  match b with
  | 0 =>
    let p := hilbertXY (2 ^ m) base
    if k ≤ base ∧ p.1 < nx ∧ p.2 < ny then some (base, p.1, p.2) else none
  | b + 1 =>
    (List.range 4).findSome? fun c =>
      let base' := base + c * 4 ^ b
      let p := hilbertXY (2 ^ m) base'
      if base' + 4 ^ b ≤ k ∨ nx ≤ p.1 / 2 ^ b * 2 ^ b ∨ ny ≤ p.2 / 2 ^ b * 2 ^ b then none
      else hilbertNext b m nx ny base' k

/-- A curve that goes through the z planes one after another, each of `size` places. -/
def byPlane (nz size k : Nat) (f : Nat → Option (Nat × Nat × Nat)) : Option (Nat × Nat × Nat × Nat) :=
  let z := k / size
  let out (z : Nat) (p : Nat × Nat × Nat) : Nat × Nat × Nat × Nat := (z * size + p.1, p.2.1, p.2.2, z)
  if nz ≤ z then none
  else match f (k % size) with
    | some p => some (out z p)
    | none => if z + 1 < nz then (f 0).map (out (z + 1)) else none

/-- The next place of a tile of w by h at (x, y), from place j of it, row by row. -/
def tilePlace (nx ny tw th x y j : Nat) : Option (Nat × Nat × Nat) :=
  let w := min tw (nx - x)
  let h := min th (ny - y)
  let r := if j % tw < w then j / tw else j / tw + 1
  let c := if j % tw < w then j % tw else 0
  if r < h then some (r * tw + c, x + c, y + r) else none

/-- The same on the tiled curve of one plane. -/
def tiledNext (nx ny tw th k : Nat) : Option (Nat × Nat × Nat) :=
  let size := tw * th
  let tx := (nx + tw - 1) / tw
  let ty := (ny + th - 1) / th
  let b := log2Up (max tx ty)
  -- tile coordinates interleave on their own, so the cube's keys shrink from 3-D to 2-D
  let spread (k : Nat) : Nat := (List.range b).foldl (fun n i =>
    n + (k / 4 ^ i % 2) * 8 ^ i + (k / (2 * 4 ^ i) % 2) * (2 * 8 ^ i)) 0
  let shrink (k : Nat) : Nat := (List.range b).foldl (fun n i =>
    n + (k / 8 ^ i % 2) * 4 ^ i + (k / (2 * 8 ^ i) % 2) * (2 * 4 ^ i)) 0
  let from' (key j : Nat) : Option (Nat × Nat × Nat) :=
    (mortonNext b tx ty 1 0 0 0 0 key).bind fun p =>
      (tilePlace nx ny tw th (p.2.1 * tw) (p.2.2.1 * th) (if p.1 = key then j else 0)).map fun q =>
        (shrink p.1 * size + q.1, q.2.1, q.2.2)
  let key := spread (k / size)
  if 4 ^ b ≤ k / size then none
  else match from' key (k % size) with
    | some p => some p
    | none => from' (key + 1) 0

/-- The first place at or after key k on a kernel's curve inside a grid: its key and its coordinates. -/
def curveNext (kern : Kernel) (g : Nat × Nat × Nat) (k : Nat) : Option (Nat × Nat × Nat × Nat) :=
  let nx := g.1
  let ny := g.2.1
  let nz := g.2.2
  match kern.curve with
  | 0 => if k < nx * ny * nz then some (k, k % nx, k / nx % ny, k / (nx * ny)) else none
  | 1 => let b := log2Up (max nx (max ny nz)); mortonNext b nx ny nz 0 0 0 0 k
  | 2 => let m := log2Up (max nx ny); byPlane nz (4 ^ m) k fun k => hilbertNext m m nx ny 0 k
  | _ =>
    let b := log2Up (max ((nx + kern.tw - 1) / kern.tw) ((ny + kern.th - 1) / kern.th))
    byPlane nz (4 ^ b * (kern.tw * kern.th)) k fun k => tiledNext nx ny kern.tw kern.th k

/-- The linear index of coordinates (02 R32). -/
def linearOf (g : Nat × Nat × Nat) (p : Nat × Nat × Nat) : Nat := p.1 + p.2.1 * g.1 + p.2.2 * g.1 * g.2.1

/-- The first cohort head at or after a key: the group whose linear index is a multiple of c (02 R34, 13 R368). -/
def cohortNext (fuel : Nat) (kern : Kernel) (g : Nat × Nat × Nat) (k : Nat) : Option (Nat × Nat × Nat × Nat) :=
  match fuel with
  | 0 => none
  | f + 1 =>
    match curveNext kern g k with
    | none => none
    | some p => if linearOf g p.2 % kern.cohort = 0 then some p else cohortNext f kern g (p.1 + 1)

/-- The groups of the cohort whose head has a linear index. -/
def cohortGroups (kern : Kernel) (g : Nat × Nat × Nat) (lin : Nat) : List (Nat × Nat × Nat) :=
  (List.range kern.cohort).map fun j =>
    let n := lin + j
    (n % g.1, n / g.1 % g.2.1, n / (g.1 * g.2.1))

/-! ### Computations of the walker -/

/-- Why the walker cannot go on: a failure reason of 13 R364, a fault of an access, or an acquire that waits for write-backs that a range
lock holds (08 R215 step 2). -/
inductive WalkFail4 where
  | reason (n : Nat)
  | held
  | fault (f : AccFault) (write : Bool)
  deriving DecidableEq, Repr

/-- A computation of the walker over the state. -/
abbrev WalkM (α : Type) := StateT State (Except WalkFail4) α

/-- The walker's failure with a reason. -/
def walkFail {α : Type} (n : Nat) : WalkM α := fun _ => .error (.reason n)

/-- n bytes that a field of a record names, o bytes on, in the context with a key. -/
def walkGet (k : Nat) (field : W64) (o n : Nat) : WalkM Nat := fun s =>
  match s.engGet (s.ctx k) field o n with
  | .ok r => .ok r
  | .error f => .error (.fault f false)

/-- n bytes at an address of the context with a key. -/
def walkRead (k : Nat) (a : W64) (n : Nat) : WalkM Nat := fun s =>
  match s.engRead (s.ctx k) none a n with
  | .ok r => .ok r
  | .error f => .error (.fault f false)

/-- A launch record and its kernel, with the checks that any launch shares (13 R364 reasons 2 and 3). -/
def readLaunch (k : Nat) (field : W64) : WalkM (LRec × Kernel) := do
  if field.extractLsb' 0 8 != 0 then walkFail 3
  else
    let v ← walkGet k field 0 256
    let r : LRec := BitVec.ofNat 2048 v
    let d := lrWord r 0
    if d.extractLsb' 0 6 != 0 then walkFail 2
    else
      let x ← walkRead k d 64
      match kernelOf d (BitVec.ofNat 512 x) with
      | none => walkFail 2
      | some kern => if !kern.budgetOk then walkFail 2 else pure (r, kern)

/-! ### Pixel launches (12 R340, R341; 13 R356) -/

/-- The visibility word of an empty pixel (12 R337). -/
def emptyPixel : Nat := 2 ^ 64 - 1

/-- The visibility words of a region, by position row by row; a position outside the buffer reads as empty. -/
def regionWords (k : Nat) (r : LRec) (x y : Nat) : WalkM (List Nat) := do
  let b := lrBuffer r
  let rows ← (List.range 8).mapM fun j => do
    let n := min 8 (b.1 - 8 * x)
    if b.2 ≤ 8 * y + j then pure (List.replicate 8 emptyPixel)
    else
      let v ← walkRead k (lrWord r 3 + BitVec.ofNat 64 (8 * ((8 * y + j) * b.1 + 8 * x))) (8 * n)
      pure ((List.range 8).map fun i => if i < n then v / 2 ^ (64 * i) % 2 ^ 64 else emptyPixel)
  pure rows.flatten

/-- The covered regions of a launch in row-major order. -/
def coveredRegions (k : Nat) (r : LRec) : WalkM (List (Nat × Nat)) := do
  let n := lrRegions r
  let l ← (List.range (n.1 * n.2)).mapM fun i => do
    let w ← regionWords k r (i % n.1) (i / n.1)
    pure (if w.all (· == emptyPixel) then none else some (i % n.1, i / n.1))
  pure (l.filterMap id)

/-- The places of a plane along a kernel's curve, from a key on. -/
def curvePlaces (fuel : Nat) (kern : Kernel) (g : Nat × Nat × Nat) (k : Nat) : List (Nat × Nat) :=
  match fuel with
  | 0 => []
  | f + 1 =>
    match curveNext kern g k with
    | none => []
    | some p => (p.2.1, p.2.2.1) :: curvePlaces f kern g (p.1 + 1)

/-- Cohorts of covered regions along the kernel's curve, each as its groups in row-major order (02 R34, 13 R368). DESIGN CHOICE: a pixel
launch has no linear index, so consecutive covered regions in row-major order form a cohort (notes/assumptions/62.md). -/
def orderRegions (kern : Kernel) (r : LRec) (l : List (Nat × Nat)) : List (Nat × Nat) :=
  let n := lrRegions r
  let heads := (l.zipIdx).filter fun p => p.2 % kern.cohort == 0
  (curvePlaces (n.1 * n.2) kern (n.1, n.2, 1) 0).flatMap fun c =>
    match heads.find? fun p => p.1 == c with
    | some p => (l.drop p.2).take kern.cohort
    | none => []

/-- A rate field's part for one axis; 3 reads as 2 (12 R340). -/
def rateAxis (code axis : Nat) : Nat := min 2 (code / 4 ^ axis % 4)

/-- Comb of 12 R340 on two rates as (log2 sx, log2 sy). -/
def comb (op : Nat) (a b : Nat × Nat) : Nat × Nat :=
  match op with
  | 0 => a
  | 1 => b
  | 2 => (min a.1 b.1, min a.2 b.2)
  | _ => (max a.1 b.1, max a.2 b.2)

/-- The rate of a region (12 R340). -/
def regionRate (k : Nat) (r : LRec) (x y : Nat) (w : List Nat) : WalkM (Nat × Nat) := do
  let c := (lrWord r 6).toNat
  let rate (n : Nat) : Nat × Nat := (rateAxis n 0, rateAxis n 1)
  let op1 := c / 16 % 4
  let op2 := c / 64 % 4
  let ri ← if op1 = 0 then pure 0 else walkRead k (lrWord r 4 + BitVec.ofNat 64 (y * (lrRegions r).1 + x)) 1
  let draw := match w.find? (· != emptyPixel) with | some v => v / 2 ^ 20 % 4096 | none => 0
  let dr ← if op2 = 0 then pure 0 else walkRead k (lrWord r 5 + BitVec.ofNat 64 draw) 1
  pure (comb op2 (comb op1 (rate c) (rate ri)) (rate dr))

/-- A lane of a pixel group: its pixel-table entry, and whether it starts as a helper (12 R341). -/
def pixelLane (x y : Nat) (rate : Nat × Nat) (w : List Nat) (bx by' : Nat) : W64 × Bool :=
  let sx := 2 ^ rate.1
  let sy := 2 ^ rate.2
  let px := (List.range (sx * sy)).map fun i => (bx * sx + i % sx, by' * sy + i / sx)
  let full (p : Nat × Nat) : Bool := w.getD (8 * p.2 + p.1) emptyPixel != emptyPixel
  let a := (px.find? full).getD (bx * sx, by' * sy)
  let help := !px.any full
  (BitVec.ofNat 64 (8 * x + a.1 + (8 * y + a.2) * 2 ^ 16 + (rate.1 + 4 * rate.2) * 2 ^ 32 + (if help then 2 ^ 36 else 0)), help)

/-- The lanes of a region's group: its quads with a covered block, four lanes each (12 R341). -/
def pixelLanes (x y : Nat) (rate : Nat × Nat) (w : List Nat) : List (W64 × Bool) :=
  let nx := 8 / 2 ^ rate.1 / 2
  let ny := 8 / 2 ^ rate.2 / 2
  (List.range (nx * ny)).flatMap fun q =>
    let l := (List.range 4).map fun i => pixelLane x y rate w (2 * (q % nx) + i % 2) (2 * (q / nx) + i / 2)
    if l.all (·.2) then [] else l

/-! ### Cores (18 R427; 19 R453 to R455; 20 R469) -/

/-- The logical cores of a partition with their physical numbers, in ascending order: those of clusters whose entries agree. -/
def State.logCores (s : State) (part : Nat) : List (Nat × Nat) :=
  let ks := s.part.place.filterMap fun e =>
    if e.1 / 4096 = 7 * part + 1 ∧ (unitOf 2 e.2).isSome then some (e.1 % 4096) else none
  ks.flatMap fun k =>
    let cs := (List.range 4).map fun j => (4 * k + j, s.unit part 1 (4 * k + j))
    if cs.all fun c => match c.2 with | some p => s.unit part 2 k == some (cluOfCore p) | none => false
    then cs.filterMap fun c => c.2.map fun p => (c.1, p) else []

/-- A protected context holds a logical core of its partition. -/
def Ctx.holdsCore (c : Ctx) (core : Nat) : Bool :=
  c.used && c.prot && c.run != .ended && decide (c.firstCore ≤ core ∧ core < c.firstCore + c.coreCount)

/-- A physical core is quarantined (20 R480). -/
def State.quarantined (s : State) (pcore : Nat) : Bool := s.sec.jobs.any fun j => j.cores.contains pcore

/-- A die has failed: its DIEFAIL bit (21 R488, R491). -/
def State.dieFailed (s : State) (die : Nat) : Bool := s.host.level.getLsbD (24 + die)

/-- A checkpoint is stopping contexts or copying (21 R493). -/
def State.ckptBusy (s : State) : Bool := s.host.ckptStat.extractLsb' 60 4 == 1 || s.host.ckptStat.extractLsb' 60 4 == 2

/-- Nothing is placed and no context resumes: the module cools down, or a checkpoint is under way (21 R493, R499). -/
def State.paused (s : State) : Bool := s.host.cooling || s.ckptBusy

/-- The cores on which a context's groups may stand (20 R469, R480; 21 R491). -/
def State.coresFor (s : State) (key : Nat) : List (Nat × Nat) :=
  let c := s.ctx key
  (s.logCores c.part).filter fun p =>
    !s.quarantined p.2 && !s.dieFailed (p.2 / 52) && if c.prot then c.holdsCore p.1 else !(s.ctxs.any fun d => d.2.part == c.part && d.2.holdsCore p.1)

/-- The groups resident on a physical core. -/
def State.onCore (s : State) (pcore : Nat) : List Group := (s.groups.map Prod.snd).filter fun x => x.used && x.pcore == pcore

/-- What the groups on a core hold of a quarter: warps and register bytes. -/
def quarterUse (l : List Group) (q : Nat) : Nat × Nat :=
  l.foldl (fun acc x => x.wids.foldl (fun (acc : Nat × Nat) w =>
    if (x.warp w).quarter = q then (acc.1 + 1, acc.2 + x.kernel.warpBytes) else acc) acc) (0, 0)

/-- How many more warps of a cost a quarter takes (02 R27, R28). -/
def quarterRoom (use : Nat × Nat) (cost : Nat) : Nat := min (16 - use.1) ((262144 - use.2) / max cost 1)

/-- Warps dealt to the quarters (02 R30). DESIGN CHOICE: each goes to the first of those with room that hold the fewest
(notes/assumptions/64.md). -/
def dealWarps (n cost : Nat) (use : List (Nat × Nat)) : Option (List Nat) :=
  match n with
  | 0 => some []
  | k + 1 =>
    let ok := (List.range 4).filter fun q => decide (0 < quarterRoom (use.getD q (16, 0)) cost)
    let best := ok.foldl (fun (b : Option Nat) q => match b with
      | none => some q
      | some p => if (use.getD q (0, 0)).1 < (use.getD p (0, 0)).1 then some q else b) none
    match best with
    | none => none
    | some q => (dealWarps k cost (use.set q ((use.getD q (0, 0)).1 + 1, (use.getD q (0, 0)).2 + cost))).map (q :: ·)

/-- What a group takes of a core: quarters for its warps, an access-sequencer slot, a matrix-sequencer slot. -/
structure Seat where
  quarters : List Nat
  slotA : Nat
  slotM : Nat
  deriving DecidableEq, Repr

/-- A group fits on a core (01 R22): the seat it would take. `claim` is how many arrays it must have there. -/
def State.seat (s : State) (key pcore : Nat) (kern : Kernel) (nwarp claim : Nat) : Option Seat :=
  let l := s.onCore pcore
  let room := if (s.ctx key).prot then 4096 * (s.ctx key).allot else 524288
  let scratch := l.foldl (fun n x => n + x.kernel.scratch) 0
  let freeA := (List.range 16).find? fun n => !(l.any fun x => x.slotA == n)
  let freeM := (List.range 2).find? fun n => !(l.any fun x => x.mstr.on && x.slotM == n)
  match dealWarps nwarp kern.warpBytes ((List.range 4).map (quarterUse l)), freeA with
  | some qs, some a =>
    if room < scratch + kern.scratch ∨ (s.freeArrays pcore).length < claim then none
    else if kern.entryM = 0 then some ⟨qs, a, 0⟩
    else freeM.map fun m => ⟨qs, a, m⟩
  | _, _ => none

/-- The core for a group: of those on which it fits, the one with the fewest resident warps, then the lowest (18 R427). -/
def State.coreFor (s : State) (key : Nat) (kern : Kernel) (nwarp claim : Nat) : Option (Nat × Nat × Seat) :=
  let warps (c : Nat) : Nat := (s.onCore c).foldl (fun n x => n + x.nwarp) 0
  (s.coresFor key).foldl (fun best p =>
    match s.seat key p.2 kern nwarp claim with
    | none => best
    | some st =>
      match best with
      | some b => if warps p.2 < warps b.2.1 then some (p.1, p.2, st) else best
      | none => some (p.1, p.2, st)) none

/-- The cores for a cohort: the lowest logical cluster with enough cores on which its groups fit (18 R427). `l` gives each group's
kernel, warps and claim. -/
def State.coresForCohort (s : State) (key : Nat) (l : List (Kernel × Nat × Nat)) : Option (List (Nat × Nat × Seat)) :=
  let cs := s.coresFor key
  let clus := (cs.map fun p => p.1 / 4).dedup
  clus.findSome? fun k =>
    let r := (cs.filter fun p => p.1 / 4 == k).foldl (fun (acc : List (Nat × Nat × Seat)) p =>
      match l[acc.length]? with
      | none => acc
      | some x =>
        match s.seat key p.2 x.1 x.2.1 x.2.2 with
        | some st => acc ++ [(p.1, p.2, st)]
        | none => acc) []
    if r.length = l.length then some r else none

/-- The cores for a group or a cohort. -/
def State.seatsFor (s : State) (key : Nat) (l : List (Kernel × Nat × Nat)) : Option (List (Nat × Nat × Seat)) :=
  match l with
  | [x] => (s.coreFor key x.1 x.2.1 x.2.2).map fun c => [c]
  | l => s.coresForCohort key l

/-- One group or cohort can never fit: it exceeds what an empty core or cluster of the context has (13 R364 reason 4). -/
def State.tooBig (s : State) (key : Nat) (kern : Kernel) (nwarp : Nat) : Bool :=
  let c := s.ctx key
  let room := if c.prot then 4096 * c.allot else 524288
  decide (4 * quarterRoom (0, 0) kern.warpBytes < nwarp) || decide (room < kern.scratch) ||
    (c.prot && !((List.range c.coreCount).any fun i =>
      decide (kern.cohort ≤ ((List.range c.coreCount).filter fun j => (c.firstCore + j) / 4 == (c.firstCore + i) / 4).length)))

/-! ### Group start (02 R30, R31; 04 R501; 13 R355, R356, R366) -/

/-- What a group starts with. -/
structure Start where
  key : Nat
  kern : Kernel
  lrec : W64
  record : LRec
  krec : List W8
  graph : Nat
  node : Nat
  task : Option (Nat × Nat)
  gid : Nat × Nat × Nat
  taskid : W32
  index : Nat
  nwarp : Nat
  shape : Nat × Nat × Nat
  /-- the lanes of a pixel launch that start as helpers; none for an ordinary launch -/
  pixels : Option (List Bool)
  deriving DecidableEq, Repr

/-- How position t of a group starts: live, and helper. -/
def Start.lane (x : Start) (t : Nat) : Bool × Bool :=
  match x.pixels with
  | none => (true, false)
  | some l => match l[t]? with | some h => (!h, h) | none => (false, false)

/-- The segments of a warp's quarter that it takes (02 R27). DESIGN CHOICE: which ones follow from the warp's number in its quarter
(notes/assumptions/63.md). -/
def segsFor (width n : Nat) : BitVec 4 :=
  match width with
  | 16 => 1#4 <<< (n % 4)
  | 32 => if n % 2 = 0 then 0x3 else 0xC
  | _ => 0xF

/-- A warp at group start. -/
def Start.warp (x : Start) (quarter nth age wid : Nat) : Warp :=
  let W := x.kern.width
  let live := laneMask (BitVec.ofNat 64 (2 ^ W - 1)) fun l => (x.lane (wid * W + l)).1
  let helper := laneMask (BitVec.ofNat 64 (2 ^ W - 1)) fun l => (x.lane (wid * W + l)).2
  let d := x.shape
  { Warp.blank with
    placed := true, quarter := quarter, segs := segsFor W nth, live := live, helper := helper,
    splits := if live ||| helper = 0 then [] else [Split.at (live ||| helper) x.kern.entryE],
    tids := (List.range W).foldl (fun m l =>
      let t := wid * W + l
      Store.put (Store.put (Store.put m 0 (4 * l) (BitVec.ofNat 32 (t % d.1))) 0 (4 * l + 1) (BitVec.ofNat 32 (t / d.1 % d.2.1)))
        0 (4 * l + 2) (BitVec.ofNat 32 (t / (d.1 * d.2.1)))) [],
    prio := lrPrio x.record, age := age, ended := live = 0 }

/-- A stream at group start; one that is not declared stands ended. -/
def startStream (entry : W64) (on : Bool) : Stream :=
  if on then { Stream.blank with on := true, pc := entry, ended := false } else Stream.blank

/-- The group as it starts on a core. -/
def Start.group (x : Start) (s : State) (core pcore : Nat) (st : Seat) (cohort pos stamp : Nat) : Group :=
  let c := s.ctx x.key
  let l := s.onCore pcore
  { Group.blank with
    used := true, part := c.part, asid := c.asid, core := core, clu := core / 4, pcore := pcore, pclu := cluOfCore pcore,
    slotA := st.slotA, slotM := st.slotM, kernel := x.kern, lrec := x.lrec, krec := putBytes [] 0 x.krec, klen := x.krec.length,
    graph := x.graph, node := x.node, task := x.task, tasks := lrTasks x.record, gidX := BitVec.ofNat 32 x.gid.1,
    gidY := BitVec.ofNat 32 x.gid.2.1, gidZ := BitVec.ofNat 32 x.gid.2.2, taskid := x.taskid, index := x.index, nwarp := x.nwarp,
    prio := lrPrio x.record, cohort := cohort, cohpos := pos, stamp := stamp,
    warps := (List.range x.nwarp).foldl (fun m w =>
      let q := st.quarters.getD w 0
      let before := (quarterUse l q).1 + ((st.quarters.take w).filter (· == q)).length
      Store.put m Warp.blank w (x.warp q before (s.youngest pcore q + w) w)) [],
    astr := startStream x.kern.entryA true, mstr := startStream x.kern.entryM (x.kern.entryM != 0),
    gbase := (List.range 32).foldl (fun m n => Store.put m 0 n (lrInit x.record n)) [] }

/-- A group or a cohort becomes resident: each group on its core, with an acquire at .dev (02 R31, 13 R363). -/
def State.startAll (s : State) (l : List (Start × (Nat × Nat × Seat))) : State :=
  let first := s.work.nextGroup
  let r := (l.zipIdx).foldl (fun (t : State) p =>
    let g := first + p.2
    let x := p.1.1.group s p.1.2.1 p.1.2.2.1 p.1.2.2.2 first p.2 first
    let t1 := { t with groups := Store.put t.groups Group.blank g x }
    { t1 with mem := t1.mem.refresh x.agent 2 }) s
  { r with
    work := { r.work with nextGroup := first + l.length }
    cohorts := Store.put r.cohorts Cohort.blank first ⟨0, (List.range l.length).map (first + ·), []⟩ }

end Sys2Proof.Machine
end

