-- ==== Sys2Proof/Machine/Walker.lean ====
section
/-!
DEFINITION. The launch walker: graph requests and nodes (spec/13_work_creation.md R361 to R364), tasks (R366, R367), placement order
(spec/18_scheduling_preemption.md R426, R440), and the end of groups (spec/02_execution_model.md R36; spec/08_memory_model.md R224).

DEDUCED, notes/assumptions/32.md: DEPS of START is ignored at its first start only; a descriptor whose fields break R407, or with PROT
set outside a BIND, is not taken into force; which context a task of an unwatched queue runs in is a choice (30.md).
-/

namespace Sys2Proof.Machine

/-! ### Graphs -/

/-- The graph with a number. -/
def State.graphRec (s : State) (id : Nat) : Graph := Store.get s.work.graphs Graph.blank id
/-- The state with a graph changed. -/
def State.modGraph (s : State) (id : Nat) (f : Graph → Graph) : State :=
  { s with work := { s.work with graphs := Store.put s.work.graphs Graph.blank id (f (s.graphRec id)) } }
/-- The key of a graph's context. -/
def Graph.key (g : Graph) : Nat := ctxKey g.part g.asid
/-- The running activation of a node. -/
def Graph.act (g : Graph) (n : Nat) : Option Act := g.acts.find? fun a => a.node == n
/-- The graph with an activation changed. -/
def Graph.modAct (g : Graph) (n : Nat) (f : Act → Act) : Graph :=
  { g with acts := g.acts.map fun a => if a.node = n then f a else a }
/-- The graph fails; its first failure stands. -/
def Graph.failed (g : Graph) (n r : Nat) : Graph := { g with fail := g.fail.or (some (n, r)) }

/-- An activation with nothing set. -/
def Act.blank : Act := ⟨0, 0, [], 0, 0, Kernel.blank, 0, 0, 0, [], 0, 0, 0, 0, 0, false⟩

/-! ### Nodes (13 R362) -/

/-- KIND -/
def nodeKind (r : W512) : Nat := ((recWord r 0).extractLsb' 60 4).toNat
/-- DEPS -/
def nodeDeps (r : W512) : Nat := ((recWord r 0).extractLsb' 56 4).toNat
/-- Four 12-bit node numbers of a word. -/
def nodeList (w : W64) : List Nat := (List.range 4).map fun k => (w.extractLsb' (12 * k) 12).toNat
/-- OP -/
def nodeOp (r : W512) : Nat := ((recWord r 3).extractLsb' 56 2).toNat
/-- The numbers of a list that name a node. -/
def named (l : List Nat) : List Nat := l.filter (· != 0xFFF)

/-- A node record keeps its limits (13 R362, R363). -/
def nodeValid (nn : Nat) (r : W512) : Bool :=
  let ok (n : Nat) : Bool := n == 0xFFF || decide (n < nn)
  let sc := nodeList (recWord r 0)
  let k := nodeKind r
  decide (k ≤ 6) && (recWord r 0).extractLsb' 48 8 == 0 && (recWord r 3).extractLsb' 58 6 == 0 && (recWord r 3).extractLsb' 0 56 == 0 &&
    r.extractLsb' 256 256 == 0 && (nodeOp r == 0 || k == 4 || k == 5) && sc.all ok &&
    (if k = 2 ∨ k = 3 then sc.getD 2 0 == 0xFFF && sc.getD 3 0 == 0xFFF else true) &&
    (if k = 6 then recWord r 1 == 0 && (nodeList (recWord r 2)).all ok else true)

/-- The context's descriptor in force as its 64 bytes give it (17 R407). -/
def ctxOfDesc (old : Ctx) (addr : Nat) (d : W512) : Ctx :=
  let w := recWord d 1
  { (if old.used && old.run != .ended then old else Ctx.blank) with
    used := true, desc := addr, tbase := recWord d 0, part := (w.extractLsb' 52 6).toNat, asid := (w.extractLsb' 36 16).toNat,
    sys := w.getLsbD 35, prot := w.getLsbD 34, fmask := w.extractLsb' 30 4, fspeer := w.getLsbD 29, fsnode := (w.extractLsb' 23 6).toNat,
    bplimit := (w.extractLsb' 0 23).toNat, save := recWord d 2, ptroot := recWord d 3, cstat := recWord d 4 }

/-- A descriptor keeps the limits of 17 R407; its RZ fields are ignored (00 R8). -/
def descOk (d : W512) : Bool :=
  let w := recWord d 1
  (recWord d 0).extractLsb' 0 5 == 0 && decide ((w.extractLsb' 52 6).toNat < 40) && (recWord d 4).extractLsb' 0 3 == 0

/-- The context that a launch queue's requests run under, its descriptor read anew (20 R460, R473). -/
def State.requestCtx (s : State) (part q : Nat) : Option (Nat × State) :=
  match s.boundTo 4 q with
  | some k => if (s.ctx k).runs then some (k, s) else none
  | none =>
    let a := Store.get s.part.qbind 0 q
    let d : W512 := BitVec.ofNat 512 (s.mem.read a 64)
    let c := ctxOfDesc Ctx.blank a d
    let k := ctxKey c.part c.asid
    let old := s.ctx k
    if a = 0 ∨ !s.fwPass part none a ∨ !descOk d ∨ c.part ≠ part ∨ c.prot ∨ old.prot then none
    else if old.used && old.run != .running && old.run != .ended then none
    else some (k, s.modCtx k fun o => ctxOfDesc o a d)

/-- A graph request's fields that break a limit (13 R361); its RZ fields are ignored (00 R8). -/
def requestBad (r : W512) : Bool :=
  let w := recWord r 1
  (recWord r 0).extractLsb' 0 6 != 0 || decide ((w.extractLsb' 16 12).toNat ≤ (w.extractLsb' 0 12).toNat)

/-- GRAPH_REQUEST (13 R361): the walker claims the next request of a launch queue, an acquire at .dev of its publication. -/
def execGraphRequest (queue : Nat) (s : State) : Host.Outcome State Fault Refusal :=
  .next (match s.queuePart queue with
    | none => s
    | some p =>
      if qKind (s.qdesc queue) ≠ 0 ∨ !s.qUsable p queue ∨ s.qCount queue = 0 ∨
          64 ≤ (s.work.graphs.filter fun g => g.2.used && g.2.part == p).length ∨ s.ckptBusy then s
      else match s.requestCtx p queue with
        | none => s
        | some (k, t) =>
          if t.claimWaits p queue 0 ⟨p, (t.ctx k).asid, none⟩ then s else
          let r := t.claim p queue 0 ⟨p, (t.ctx k).asid, none⟩
          let w := recWord r.1 1
          let start := (w.extractLsb' 0 12).toNat
          let id := r.2.work.nextGraph
          ({ r.2 with work := { r.2.work with nextGraph := id + 1 } }).modGraph id fun _ =>
            { Graph.blank with
              used := true, part := p, queue := queue, asid := (t.ctx k).asid, base := recWord r.1 0, nn := (w.extractLsb' 16 12).toNat,
              start := start, status := recWord r.1 2, owed := [(start, 1)],
              fail := if requestBad r.1 then some (start, 1) else none })

/-- A node completes and adds to the counts of the nodes it releases (13 R363). -/
def State.completeNode (s : State) (id n : Nat) (l : List Nat) : State :=
  s.modGraph id fun g =>
    { g with
      acts := g.acts.filter fun a => a.node != n
      done := g.done + 1
      completed := Store.put g.completed 0 n (Store.get g.completed 0 n + 1)
      counts := (named l).foldl (fun c m => Store.put c 0 m (Store.get c 0 m + 1)) g.counts }

/-- An activation enters the graph. -/
def walkAdd (id : Nat) (a : Act) : WalkM Unit := fun s =>
  .ok ((), { (s.modGraph id fun g => { g with acts := g.acts ++ [{ a with start := s.work.nextStart }] }) with
    work := { (s.modGraph id fun g => { g with acts := g.acts ++ [{ a with start := s.work.nextStart }] }).work with
      nextStart := s.work.nextStart + 1 } })

/-- A node completes. -/
def walkDone (id n : Nat) (l : List Nat) : WalkM Unit := fun s => .ok ((), s.completeNode id n l)

/-- A node's activation ends short of completion, with no release and no count (R364). -/
def State.dropNode (s : State) (id n : Nat) : State :=
  s.modGraph id fun g => { g with acts := g.acts.filter fun a => a.node != n }

/-- A node's activation ends: it completes unless a failure has cut it short. -/
def State.endNode (s : State) (id : Nat) (a : Act) : State :=
  if a.cut then s.dropNode id a.node else s.completeNode id a.node a.succ

/-- The address of a 64-bit word that a node's field names; one not aligned to 8 makes the node invalid (13 R362, R364;
notes/assumptions/32.md). -/
def walkWord (k : Nat) (field : W64) (need : Need) : WalkM W64 := fun s =>
  match s.engAddr (s.ctx k) field 0 8 need with
  | .error f => .error (.fault f need.w)
  | .ok a => if a.extractLsb' 0 3 != 0 then .error (.reason 1) else .ok (a, s)

/-- A condition word, read as an acquire at .dev (13 R363). -/
def walkCond (k : Nat) (field : W64) : WalkM W64 := do
  let a ← walkWord k field .load
  fun s =>
    match s.engParts (s.ctx k) none a 8 .load with
    | .error f => .error (.fault f false)
    | .ok (l, t) =>
      let c := t.ctx k
      let m := l.foldl (fun m p => m.acquire ⟨c.part, c.asid, none⟩ p.1 8 2) t.mem
      if l.any fun p => m.waits (t.mem.records ⟨c.part, c.asid, none⟩ p.1 8) 2 then .error .held else
      .ok (BitVec.ofNat 64 (m.readParts l), { t with mem := m })

/-- A signal's write: a store or an addition, as a release at .dev or .sys (13 R362). -/
def walkSignal (k : Nat) (field : W64) (op : Nat) (v : W64) : WalkM Unit := do
  let a ← walkWord k field (if op % 2 = 1 then .both else .store)
  fun s =>
    match s.engParts (s.ctx k) none a 8 (if op % 2 = 1 then .both else .store) with
    | .error f => .error (.fault f true)
    | .ok (l, t) =>
      let c := t.ctx k
      let x := if op % 2 = 1 then (t.mem.readParts l + v.toNat) % 2 ^ 64 else v.toNat
      let m := t.mem.writeParts l x
      .ok ((), { t with mem := l.foldl (fun m p => m.noteWrite ⟨c.part, c.asid, none⟩ p.1 8 2 (some (if op < 2 then 3 else 4)) (op % 2 = 1)) m })

/-- A kernel node starts: its record, its descriptor and its groups (13 R354 to R356, R364). -/
def startKernel (id n k : Nat) (r : W512) : WalkM Unit := do
  let (rec, kern) ← readLaunch k (recWord r 1)
  let a : Act := { Act.blank with node := n, succ := nodeList (recWord r 0), lrec := recWord r 1, record := rec, kernel := kern }
  let s ← get
  if lrPixel rec then
    if !kern.quadlock then walkFail 3
    else if s.tooBig k kern 1 then walkFail 4
    else
      let l ← coveredRegions k rec
      if l.length % kern.cohort ≠ 0 then walkFail 3
      else walkAdd id { a with regions := orderRegions kern rec l, total := l.length }
  else if !shapeOk rec kern || !gridOk rec kern.cohort then walkFail 3
  else if s.tooBig k kern (lrWarps rec kern.width) then walkFail 4
  else
    let g := lrGrid rec
    walkAdd id { a with total := g.1 * g.2.1 * g.2.2 }

/-- The form of a copy node's block (13 R363). -/
def copyKind (b : Block) : Nat := if blkCount b = 0 then 0 else if blkLen b ≠ 0 then 1 else 2

/-- The checks of 09 R264 on a copy node's block that has been read. -/
def checkNodeBlock (part k : Nat) (ea : W64) (b : Block) : WalkM (Nat × List (Nat × Nat)) := do
  let s ← get
  let c := s.ctx k
  let kind := copyKind b
  match s.copyEngine part (blkEngine b) with
  | none => walkFail 6
  | some eng =>
    let pre := if kind = 2 then [(false, false, blkSrc b, 16 * blkCount b)] else copyRanges kind b []
    if (blockFault kind b).isSome || blkProt b != c.prot || scopeBad b || blkSs b || blkDs b || blkCs b then walkFail 6
    else if c.prot && (s.copyCaps c .g ea.toInt b pre).isSome then walkFail 6
    else if kind ≠ 2 then pure (eng, [])
    else
      let v ← walkRead k (BitVec.ofInt 64 (blkSrc b)) (16 * blkCount b)
      match listEntries (blkCount b) v with
      | none => walkFail 6
      | some ps =>
        if c.prot && (s.copyCaps c .g ea.toInt b (copyRanges 2 b ps)).isSome then walkFail 6 else pure (eng, ps)

/-- The copy of a graph node is issued by an agent of the module, which holds its range locks under a number of its own (13 R363). -/
def State.issueNodeCopy (s : State) (id n part asid eng : Nat) (b : Block) (ps : List (Nat × Nat)) : Nat × State :=
  let cid := s.eng.nextId
  let c : Copy := { Copy.blank with
    used := true, graph := id, node := n, part := part, asid := asid, pcore := 4096 + part, eng := eng, kind := copyKind b, block := b,
    pieces := ps, total := blkTotal (copyKind b) b ps }
  let s1 := { s with eng := { s.eng with copies := Store.put s.eng.copies Copy.blank cid c, nextId := cid + 1 } }
  if c.total = 0 then (cid, (s1.modCopy cid fun c => { c with run := .queued }).copyComplete cid)
  else if s1.canRegister cid then (cid, s1.registerCopy cid)
  else (cid, s1)

/-- A copy node starts. -/
def startCopy (id n k : Nat) (r : W512) : WalkM Unit := do
  let s ← get
  let g := s.graphRec id
  let field := recWord r 1
  match s.engAddr (s.ctx k) field 0 128 .load with
  | .error f => fun _ => .error (.fault f false)
  | .ok ea =>
    if ea.extractLsb' 0 7 != 0 then walkFail 6
    else
      let v ← walkRead k ea 128
      let b : Block := BitVec.ofNat 1024 v
      let (eng, ps) ← checkNodeBlock g.part k ea b
      let t ← get
      let (cid, t) := t.issueNodeCopy id n g.part g.asid eng b ps
      set t.draw
      walkAdd id { Act.blank with node := n, kind := 1, succ := nodeList (recWord r 0), copy := cid }

/-- A node starts (13 R362, R363): a cond, while or signal node completes at once. -/
def startNode (id n : Nat) : WalkM Unit := do
  let s ← get
  let g := s.graphRec id
  let k := g.key
  let v ← walkGet k g.base (64 * n) 64
  let r : W512 := BitVec.ofNat 512 v
  let sc := nodeList (recWord r 0)
  if !nodeValid g.nn r then walkFail 1
  else match nodeKind r with
    | 0 => startKernel id n k r
    | 1 => startCopy id n k r
    | 4 => do walkSignal k (recWord r 1) (nodeOp r) (recWord r 2); walkDone id n sc
    | 5 => do
      let _ ← walkWord k (recWord r 1) .load
      walkAdd id { Act.blank with node := n, kind := 5, succ := sc, addr := recWord r 1, value := recWord r 2, cond := nodeOp r }
    | 6 =>
      if (s.place g.part 4 ((recWord r 2).extractLsb' 48 16)).isNone then walkFail 1
      else walkAdd id { Act.blank with node := n, kind := 6, succ := sc, value := recWord r 2 }
    | _ => do
      let x ← walkCond k (recWord r 1)
      walkDone id n (if x ≠ 0 then [sc.getD 0 0xFFF] else [sc.getD 1 0xFFF])

/-- The node that the walker's own fault on the status word stands under. -/
def statusNode : Nat := 4096

/-- What the walker's fault on a node's count stands under: it leaves a running activation of that node alone. -/
def countNode (n : Nat) : Nat := 8192 + n

/-- The walker's computation for a node, with its failure or its fault (13 R364; 17 R411, R419). -/
def State.walk (s : State) (id n : Nat) (m : WalkM Unit) : State :=
  match m s with
  | .ok (_, t) => t
  | .error .held => s
  -- a status word that cannot be written: nothing is reported
  | .error (.reason r) => s.modGraph id fun g => if n = statusNode then Graph.blank else g.failed (n % 4096) r
  | .error (.fault f w) =>
    let c := s.ctx (s.graphRec id).key
    let r := s.postFault (s.engRecord c 7 0 f (if w then .store else .load) .g)
    r.2.modGraph id fun g => { g with tok := some (r.1, n) }

/-- A computation of the walker waits on a range lock. -/
def State.walkHeld (s : State) (m : WalkM Unit) : Bool :=
  match m s with
  | .error .held => true
  | _ => false

/-- A node whose count has reached its DEPS becomes due (13 R363); DEPS of 0 in a node that is not START breaks its limit. -/
def dueNode (id n : Nat) : WalkM Unit := do
  let s ← get
  let g := s.graphRec id
  let v ← walkGet g.key g.base (64 * n) 64
  let d := nodeDeps (BitVec.ofNat 512 v)
  let d := if n = g.start ∧ d = 0 then 1 else d
  let c := Store.get g.counts 0 n
  if d = 0 then walkFail 1
  else if d ≤ c then
    fun s => .ok ((), s.modGraph id fun g =>
      { g with counts := Store.put g.counts 0 n (c - d), owed := Store.put g.owed 0 n (Store.get g.owed 0 n + 1) })
  else pure ()

/-- The status word of a graph that has ended or failed (13 R364). -/
def Graph.statusWord (g : Graph) : W64 :=
  match g.fail with
  | none => BitVec.ofNat 64 (2 ^ 60 + g.done % 2 ^ 40)
  | some (n, r) => BitVec.ofNat 64 (2 * 2 ^ 60 + n % 4096 * 2 ^ 48 + r * 2 ^ 40 + g.done % 2 ^ 40)

/-- The status word is written, and the graph is gone. -/
def finishGraph (id : Nat) : WalkM Unit := do
  let s ← get
  let g := s.graphRec id
  walkSignal g.key g.status 0 g.statusWord
  fun s => .ok ((), s.modGraph id fun _ => Graph.blank)

/-- A copy node whose copy has ended completes; one whose completion write was declared FATAL fails the graph (13 R363, R364). -/
def State.reapCopyNode (s : State) (id : Nat) (a : Act) : State :=
  let bad := (s.copy a.copy).completing
  let t := { s with eng := { s.eng with copies := Store.erase s.eng.copies a.copy } }
  if bad then t.modGraph id fun g => { g.failed a.node 5 with acts := g.acts.filter fun b => b.node != a.node }
  else t.completeNode id a.node a.succ

/-- The copy of an activation has ended. -/
def State.copyNodeEnded (s : State) (a : Act) : Bool :=
  a.kind == 1 && (match (s.copy a.copy).run with | .done | .cancelled | .failed => true | _ => false)

/-- A failure stops a node's running activation: one with groups resident places no more, another ends (13 R364). -/
def Graph.cutAct (g : Graph) (n : Nat) : Graph :=
  { g with acts := (g.acts.filter fun a => a.node != n || a.resident != 0).map fun a =>
    if a.node = n then { a with total := 0, regions := [], cut := true } else a }

/-- The graph after a FATAL verdict on the walker's fault. -/
def Graph.fatal (g : Graph) (n : Nat) : Graph :=
  if n = statusNode then Graph.blank
  else { (if n < statusNode then g.cutAct n else g).failed (n % 4096) 5 with tok := none }

/-- One action of the walker for a graph (13 R363): a verdict, a copy's end, the start of a node that is due, a count, or the end. -/
def State.stepGraph (s : State) (id : Nat) : State :=
  let g := s.graphRec id
  -- the failure that ends with its context (reason 7) is still reported
  if !g.used || !((s.ctx g.key).runs || (g.fail.map Prod.snd) == some 7) then s
  else match s.engWait (g.tok.map Prod.fst) with
    | .held => s
    | .fatal => s.modGraph id fun g => g.fatal ((g.tok.map Prod.snd).getD 0)
    | .go =>
      let s := if g.tok.isSome then s.modGraph id fun g => { g with tok := none } else s
      match g.acts.find? s.copyNodeEnded with
      | some a => s.reapCopyNode id a
      | none =>
        let due := g.owed.find? fun p => (g.act p.1).isNone
        match (if g.fail.isSome then none else due) with
        | some (n, c) =>
          let t := s.modGraph id fun g => { g with owed := Store.put g.owed 0 n (c - 1) }
          let u := t.walk id n (startNode id n)
          -- a node that met a fault, or whose acquire waits, is still due
          if (u.graphRec id).tok.isSome || t.walkHeld (startNode id n) then u.modGraph id fun g => { g with owed := Store.put g.owed 0 n c } else u
        | none =>
          let counted := if g.fail.isSome then s else
            (g.counts.map Prod.fst).foldl (fun (t : State) n =>
              if (t.graphRec id).tok.isSome || (t.graphRec id).fail.isSome then t else t.walk id (countNode n) (dueNode id n)) s
          let h := counted.graphRec id
          if h.tok.isSome || !h.acts.isEmpty || (h.fail.isNone && !h.owed.isEmpty) then counted
          else counted.walk id statusNode (finishGraph id)

/-- One action for every graph. -/
def State.settleGraphs (s : State) : State := (s.work.graphs.map Prod.fst).foldl State.stepGraph s

/-- Cond of 09 R243 on a word. -/
def condHolds (cond : Nat) (x v : W64) : Bool :=
  match cond with | 0 => x == v | 1 => x != v | 2 => !x.ult v | _ => x.ult v

/-- WAITVAL_SATISFIED (13 R363): the walker reads the word, and the node completes if it satisfies the condition. -/
def execWaitvalSatisfied (graph node : Nat) (s : State) : Host.Outcome State Fault Refusal :=
  .next (
    let g := s.graphRec graph
    match g.act node with
    | some a =>
      if a.kind ≠ 5 ∨ !g.used ∨ !(s.ctx g.key).runs ∨ g.tok.isSome then s
      else s.walk graph node (do
        let x ← walkCond g.key a.addr
        if condHolds a.cond x a.value then walkDone graph node a.succ else pure ())
    | none => s)

/-- KERNEL_NODE_COMPLETE (08 R224, 13 R363): once every group has ended, the context's dirty lines are written back, and the node is
complete once all of them have reached their home slices. -/
def execKernelNodeComplete (graph node : Nat) (s : State) : Host.Outcome State Fault Refusal :=
  .next (
    let g := s.graphRec graph
    match g.act node with
    | some a =>
      if a.kind ≠ 0 ∨ !g.used ∨ !(s.ctx g.key).runs ∨ a.total ≠ 0 ∨ a.resident ≠ 0 then s
      else
        let t := { s with mem := s.mem.flushCtx g.part g.asid }
        if t.mem.backsHeld g.part (some g.asid) then t else t.endNode graph a
    | none => s)

/-! ### Task nodes (13 R367) -/

/-- The physical queue of a task node. -/
def State.actQueue (s : State) (part : Nat) (a : Act) : Option Nat :=
  if a.kind = 6 then s.place part 4 (a.value.extractLsb' 48 16) else none

/-- Some task group of a queue is resident or waits in a save area. -/
def State.taskAlive (s : State) (part q : Nat) : Bool :=
  s.allGroups.any fun x => x.part == part && (x.task.map Prod.fst) == some q

/-- TASK_NODE_COMPLETE (13 R367), once what the issuers of `tdone` wrote before has reached the home slices: its completion carries their
releases, of whatever context of the partition (08 R500; 09 R273; notes/assumptions/69.md). -/
def execTaskNodeComplete (graph node : Nat) (s : State) : Host.Outcome State Fault Refusal :=
  .next (
    let g := s.graphRec graph
    match g.act node with
    | some a =>
      let ended (n : Nat) : Bool :=
        decide (0 < Store.get g.completed 0 n) && (g.act n).isNone && Store.get g.owed 0 n == 0
      match s.actQueue g.part a with
      | some q =>
        if g.used && (s.ctx g.key).runs && (named (nodeList a.value)).all ended && s.load g.part q == 0 && !s.taskAlive g.part q
        then
          let t := { s with mem := s.mem.flushAll fun l => l.part == g.part }
          if t.mem.backsHeld g.part none then t else t.endNode graph a
        else s
      | none => s
    | none => s)

/-- The running task node that watches a queue: its graph and activation, the earliest started. -/
def State.taskNode (s : State) (part q : Nat) : Option (Nat × Act) :=
  (s.work.graphs.flatMap fun g =>
    if g.2.used && g.2.part == part then (g.2.acts.filter fun a => s.actQueue part a == some q).map fun a => (g.1, a) else []).foldl
    (fun (b : Option (Nat × Act)) p => match b with
      | none => some p
      | some x => if p.2.start < x.2.start then some p else some x) none

/-- The context in which a queue's tasks run: that of its task node's graph, or a bound one, or one of the partition's
(notes/assumptions/30.md). -/
def State.taskCtx (s : State) (part q : Nat) : Option Nat :=
  match s.taskNode part q with
  | some (g, _) => let k := (s.graphRec g).key; if (s.ctx k).runs then some k else none
  | none => s.recordCtx part q

/-- A queue's load stands at its high mark (13 R367): `marked` holds from HIGH until the load falls below LOW. -/
def State.isMarked (s : State) (q : Nat) : Bool := Store.get s.work.marked false q

/-- The marks of the task queues after a step. -/
def State.settleMarks (s : State) : State :=
  s.part.qtab.foldl (fun (t : State) p =>
    if qKind p.2 ≠ 1 then t
    else match t.queuePart p.1 with
      | none => t
      | some part =>
        let n := t.load part p.1
        let m := if qHigh p.2 ≤ n then true else if n < qLow p.2 then false else t.isMarked p.1
        { t with work := { t.work with marked := Store.put t.work.marked false p.1 m } }) s

/-- A launch record's groups can post to a queue that stands at its high mark, other than their own. -/
def State.postsMarked (s : State) (part : Nat) (own : Option Nat) (tasks : W512) : Bool :=
  (List.range 16).any fun n =>
    let p : W16 := tasks.extractLsb' (32 * n) 16
    p != 0 && (match s.place part 4 p with | some q => own != some q && s.isMarked q | none => false)

/-! ### Placement order (18 R426, R440) -/

/-- What waits to be placed: groups of a context that resumes, by cohort; the next cohort of a kernel node; a task of a queue. -/
inductive Waiter where
  | saved (key cohort : Nat)
  | node (graph node : Nat)
  | task (queue : Nat)
  deriving DecidableEq, Repr

/-- A waiting entry with its place in the order. -/
structure Entry where
  who : Waiter
  rank : Nat
  since : Nat
  deriving DecidableEq, Repr

/-- The rank of a priority: consumers of a queue at its high mark first, then the higher PRIO, then resumed groups. -/
def entryRank (first : Bool) (prio : Nat) (resumed : Bool) : Nat :=
  (if first then 0 else 16) + 2 * (7 - prio) + (if resumed then 0 else 1)

/-- When the node of a group started: for a task, the task node that watches its queue; 2^64 where there is none. -/
def State.nodeStart (s : State) (x : Group) : Nat :=
  match x.task with
  | some (q, _) => match s.taskNode x.part q with | some (_, a) => a.start | none => 2 ^ 64
  | none => match (s.graphRec x.graph).act x.node with | some a => a.start | none => 2 ^ 64

/-- A group consumes a queue that stands at its high mark. -/
def State.consumesMarked (s : State) (x : Group) : Bool := x.task.any fun t => s.isMarked t.1

/-- The saved groups of a context that are to be placed again. -/
def State.savedEntries (s : State) (part : Nat) : List Entry :=
  s.ctxs.flatMap fun c =>
    if c.2.part = part ∧ c.2.run = .running then
      ((c.2.savedGroups.map fun p => p.2.cohort).dedup).map fun co =>
        let x := ((c.2.savedGroups.find? fun p => p.2.cohort == co).map Prod.snd).getD Group.blank
        ⟨.saved c.1 co, entryRank (s.consumesMarked x) x.prio true, s.nodeStart x⟩
    else []

/-- The kernel nodes with groups to place. -/
def State.nodeEntries (s : State) (part : Nat) : List Entry :=
  s.work.graphs.flatMap fun g =>
    if g.2.used && g.2.part == part && (s.ctx g.2.key).runs && (g.2.tok.isNone || (s.engWait (g.2.tok.map Prod.fst)) == .go) then
      (g.2.acts.filter fun a => a.kind == 0 && a.total != 0 && !s.postsMarked part none (lrTasks a.record)).map fun a =>
        ⟨.node g.1 a.node, entryRank false (lrPrio a.record) false, a.start⟩
    else []

/-- A queue's template: the context, the record and its kernel. -/
def State.template (s : State) (part q : Nat) : Option (Nat × Except WalkFail4 (LRec × Kernel)) :=
  (s.taskCtx part q).map fun k =>
    (k, match readLaunch k (qTemplate (s.qdesc q)) s with
      | .ok (x, _) => if x.2.cohort ≠ 1 ∨ !shapeOk x.1 x.2 then .error (.reason 3)
                      else if s.tooBig k x.2 (lrWarps x.1 x.2.width) then .error (.reason 4) else .ok x
      | .error e => .error e)

/-- The task queues with records to launch. A template that cannot be launched ranks by priority 0. -/
def State.taskEntries (s : State) (part : Nat) : List Entry :=
  s.part.qtab.filterMap fun p =>
    let q := p.1
    if qKind p.2 ≠ 1 ∨ s.queuePart q ≠ some part ∨ !s.qUsable part q ∨ s.qCount q = 0 then none
    else if s.engWait ((Store.get (s.work.qtok.map fun t => (t.1, some t.2)) none q)) = .held then none
    else match s.template part q with
      | none => none
      | some (_, x) =>
        let since := match s.taskNode part q with | some (_, a) => a.start | none => 2 ^ 64
        match x with
        | .ok (r, _) => if s.postsMarked part (some q) (lrTasks r) then none else some ⟨.task q, entryRank (s.isMarked q) (lrPrio r) false, since⟩
        | .error _ => some ⟨.task q, entryRank (s.isMarked q) 0 false, since⟩

/-- The first entry of a partition's placement order; while the module cools down or is checkpointed nothing is placed (21 R493, R499). -/
def State.firstEntry (s : State) (part : Nat) : Option Entry :=
  if s.paused then none else (s.savedEntries part ++ s.nodeEntries part ++ s.taskEntries part).foldl (fun (b : Option Entry) e => match b with
    | none => some e
    | some x => if e.rank < x.rank ∨ (e.rank = x.rank ∧ e.since < x.since) then some e else some x) none

/-! ### Placing -/

/-- A group of an ordinary launch. -/
def Act.gridStart (a : Act) (graph key : Nat) (p : Nat × Nat × Nat) : Start :=
  ⟨key, a.kernel, a.lrec, a.record, bytesOf 256 a.record.toNat, graph, a.node, none, p, 0xFFFFFFFF, linearOf (lrGrid a.record) p,
    lrWarps a.record a.kernel.width, lrShape a.record, none⟩

/-- A group of a pixel launch, its table built by the walker (12 R341, 13 R356). -/
def Act.pixelStart (a : Act) (graph key : Nat) (p : Nat × Nat) : WalkM Start := do
  let w ← regionWords key a.record p.1 p.2
  let rate ← regionRate key a.record p.1 p.2 w
  let ls := pixelLanes p.1 p.2 rate w
  let W := a.kernel.width
  let n := (ls.length + W - 1) / W
  pure ⟨key, a.kernel, a.lrec, a.record, bytesOf 256 a.record.toNat ++ ls.flatMap fun l => bytesOf 8 l.1.toNat, graph, a.node, none,
    (p.1, p.2, 0), 0xFFFFFFFF, p.1 + p.2 * (lrRegions a.record).1, n, (W * n, 1, 1), some (ls.map (·.2))⟩

/-- The seats of a list of starts, in their order. -/
def State.seatStarts (s : State) (key : Nat) (l : List Start) : Option (List (Start × (Nat × Nat × Seat))) :=
  (s.seatsFor key (l.map fun x => (x.kern, x.nwarp, 0))).map fun seats => l.zip seats

/-- The next group or cohort of a kernel node is placed if it fits. -/
def placeNode (graph node : Nat) : WalkM Unit := do
  let s ← get
  let g := s.graphRec graph
  match g.act node with
  | none => pure ()
  | some a =>
    let c := a.kernel.cohort
    let place (l : List Start) (f : Act → Act) : WalkM Unit := fun t =>
      match t.seatStarts g.key l with
      | none => .ok ((), t)
      | some ls => .ok ((), (t.startAll ls).modGraph graph fun g => g.modAct node fun a =>
          f { a with total := a.total - l.length, resident := a.resident + l.length })
    if lrPixel a.record then
      let ls ← (a.regions.take c).mapM (a.pixelStart graph g.key)
      if ls.all fun x => x.nwarp = 0 then
        -- the pixels of the regions have become empty since the launch was read: nothing starts there
        fun t => .ok ((), t.modGraph graph fun g => g.modAct node fun a => { a with total := a.total - c, regions := a.regions.drop c })
      else place ls fun a => { a with regions := a.regions.drop c }
    else match cohortNext 65536 a.kernel (lrGrid a.record) a.next with
      | none => pure ()
      | some p =>
        place ((cohortGroups a.kernel (lrGrid a.record) (linearOf (lrGrid a.record) p.2)).map (a.gridStart graph g.key))
          fun a => { a with next := p.1 + 1 }

/-- The fault of a queue's next launch. -/
def State.setQtok (s : State) (q : Nat) (t : Option Nat) : State :=
  { s with work := { s.work with qtok := Store.put s.work.qtok 0 q (t.getD 0) } }

/-- A record of a queue that cannot be launched leaves its ring, and its task node's graph fails (13 R364). -/
def State.taskFail (s : State) (part q sh r : Nat) (k : Nat) : State :=
  let t := ((s.claim part q sh ⟨part, (s.ctx k).asid, none⟩).2).setQtok q none
  match s.taskNode part q with
  | some (g, a) => t.modGraph g fun g => g.failed a.node r
  | none => t

/-- The task at the head of a shard is placed if it fits (13 R366). -/
def State.placeTask (s : State) (part q sh : Nat) : State :=
  if s.shardCount q sh = 0 then s
  else match s.template part q with
    | none => s
    | some (_, .error .held) => s
    | some (k, .error (.reason r)) => s.taskFail part q sh r k
    | some (k, .error (.fault f w)) =>
      match s.engWait (Store.get (s.work.qtok.map fun t => (t.1, some t.2)) none q) with
      | .fatal => s.taskFail part q sh 5 k
      | .held => s
      | .go =>
        let r := s.postFault (s.engRecord (s.ctx k) 7 0 f (if w then .store else .load) .g)
        r.2.setQtok q (some r.1)
    | some (k, .ok (rec, kern)) =>
      let n := s.qHead q sh
      let node := s.taskNode part q
      let c := s.claim part q sh ⟨part, (s.ctx k).asid, none⟩
      let x : Start := ⟨k, kern, qTemplate (s.qdesc q), rec, bytesOf 64 c.1.toNat, (node.map Prod.fst).getD 0, (node.map (·.2.node)).getD 0,
        some (q, sh), (0, 0, 0), BitVec.ofNat 32 (sh * 2 ^ 26 + n.toNat % 2 ^ 26), (sh * 2 ^ 26 + n.toNat % 2 ^ 26), lrWarps rec kern.width,
        lrShape rec, none⟩
      match s.seatStarts k [x] with
      | none => s
      | some ls => if s.claimWaits part q sh ⟨part, (s.ctx k).asid, none⟩ then s else ((c.2.setQtok q none).startAll ls).draw

/-- A wait that a stop withdraws, for execution from the start (18 R434): `wait`, `hqget`, and the lanes of `hqput` still held. -/
def Wait.withdrawn : Wait → Bool
  | .waitaddr _ | .hqget _ | .hqput _ _ | .trav _ | .backs | .locks _ => true
  | _ => false

/-- A split whose context resumes: a withdrawn wait is executed again. -/
def Split.withdraw (y : Split) : Split := if y.wait.withdrawn then { y with wait := .ready, mark := false, req := 0 } else y

/-- A warp whose context resumes; the handler split's blocked-port count restarts (18 R438). -/
def Warp.resumed (w : Warp) : Warp :=
  { w with
    splits := w.splits.map fun y => let z := y.withdraw; if w.level then { z with bp := 0 } else z
    saved := w.saved.map Split.withdraw }

/-- An M-stream whose context resumes: a claim that waited is made again (18 R434). -/
def Stream.resumed (m : Stream) : Stream := match m.wait with | .mclaim _ _ => { m with wait := .ready } | _ => m

/-- A saved group stands on a core again (18 R440): warps in their new quarters, its copies' range locks to be registered. -/
def Group.reseat (x : Group) (s : State) (g core pcore : Nat) (st : Seat) : Group :=
  { x with
    core := core, clu := core / 4, pcore := pcore, pclu := cluOfCore pcore, slotA := st.slotA, slotM := st.slotM,
    phys := (s.freeArrays pcore).take x.claim,
    warps := x.warps.map fun p =>
      (p.1, { p.2.resumed with quarter := st.quarters.getD p.1 0, age := s.youngest pcore (st.quarters.getD p.1 0) + p.1 }),
    mstr := x.mstr.resumed,
    holdCopies := (s.eng.copies.filter fun c => c.2.used && c.2.grp == some g).map Prod.fst }

/-- The saved groups of a cohort are placed again if they fit (18 R440). -/
def State.placeSaved (s : State) (key co : Nat) : State :=
  let l := sortBy (fun (p : Nat × Group) => (p.2.cohpos, 0, 0)) ((s.ctx key).savedGroups.filter fun p => p.2.cohort == co)
  match s.seatsFor key (l.map fun p => (p.2.kernel, p.2.nwarp, p.2.claim)) with
  | none => s
  | some seats =>
    let t := (l.zip seats).foldl (fun (t : State) p =>
      let x := p.1.2.reseat s p.1.1 p.2.1 p.2.2.1 p.2.2.2
      let t1 := { t with groups := Store.put t.groups Group.blank p.1.1 x }
      let t2 := (t1.eng.copies.map Prod.fst).foldl (fun (t : State) id =>
        if (t.copy id).grp = some p.1.1 then t.modCopy id fun c => { c with pcore := x.pcore } else t) t1
      { t2 with mem := t2.mem.refresh x.agent 2 }) s
    t.modCtx key fun c => { c with savedGroups := c.savedGroups.filter fun p => p.2.cohort != co }

/-- The first entry of a partition's order is placed if it fits; `pickShard` names a task's shard. -/
def State.placeFirst (s : State) (part : Nat) (pickShard : Nat → Option Nat) (tasksOnly : Bool) : State :=
  match s.firstEntry part with
  | none => s
  | some e =>
    match e.who with
    | .task q => match pickShard q with | some sh => s.placeTask part q sh | none => s
    | .saved k co => if tasksOnly then s else s.placeSaved k co
    | .node g n => if tasksOnly then s else s.walk g n (placeNode g n)

/-- GROUP_PLACEMENT (18 R426) -/
def execGroupPlacement (part : Nat) (s : State) : Host.Outcome State Fault Refusal :=
  .next (s.placeFirst part (fun q =>
    let l := (List.range (qNum (s.qdesc q))).filter fun sh => s.shardCount q sh != 0
    if l.isEmpty then none else some (pick s.draws 0 l)) false)

/-- TASK_LAUNCH (13 R366): the task at the head of a shard, when its queue's entry is the first. -/
def execTaskLaunch (queue shard : Nat) (s : State) : Host.Outcome State Fault Refusal :=
  .next (match s.queuePart queue with
    | some p => if shard < qNum (s.qdesc queue) then s.placeFirst p (fun q => if q = queue then some shard else none) true else s
    | none => s)

/-! ### The end of groups (02 R36, 08 R224) -/

/-- Everything a group must have ended has ended: warps, streams, copies, rays. -/
def State.groupOver (s : State) (g : Nat) : Bool :=
  let x := s.group g
  x.used && x.halted.isNone && x.wids.all (fun w => (x.warp w).ended && (x.warp w).esc.isNone) && x.astr.ended && (!x.mstr.on || x.mstr.ended) &&
    !(s.eng.copies.any fun c => c.2.used && c.2.grp == some g) && !(s.eng.rays.any fun r => r.2.used && r.2.grp == g)

/-- A group frees what it holds (02 R36): its reservations return, its node counts one group less, the dirty lines of a task's context are
written back, and those of a cohort's group reach its cluster cache, for the cohort barriers it has arrived in (07 R191, 08 R207). -/
def State.endGroup (s : State) (g : Nat) : State :=
  let x := s.group g
  let s1 : State := { s with
    groups := Store.erase s.groups g
    eng := { s.eng with
      texs := s.eng.texs.filter fun p => p.2.grp != g
      claims := (s.eng.claims.map fun (p : Nat × List (Nat × Bool)) => (p.1, p.2.filter fun c => c.1 != g)).filter fun p => !p.2.isEmpty }
    cohorts := if (s.allGroups.filter fun y => y.cohort == x.cohort).length ≤ 1 then Store.erase s.cohorts x.cohort else s.cohorts }
  match x.task with
  | some _ => { s1 with mem := s1.mem.flushCtx x.part x.asid }
  | none => (if x.kernel.cohort = 1 then s1 else { s1 with mem := (s1.mem.flushL1 x.pcore x.pclu (Line.ofCtx x.part x.asid)).1 }).modGraph x.graph fun y => y.modAct x.node fun a => { a with resident := a.resident - 1 }

/-- The claim of an M-stream that has ended is released once its arrays are idle (10 R298, 17 R413). -/
def State.settleClaim (s : State) (g : Nat) : State :=
  let x := s.group g
  if x.used && x.mstr.on && x.mstr.ended && x.claim != 0 && x.idleArrays then s.modGroup g (·.release) else s

/-- Groups that are over end. -/
def State.settleGroups (s : State) : State :=
  s.gids.foldl (fun t g =>
    let t := t.settleClaim g
    if t.groupOver g then t.endGroup g else t) s

end Sys2Proof.Machine
end

