-- ==== Sys2Proof/Machine/Faults.lean ====
section
/-!
DEFINITION. Fault records, verdicts and the end of a context (spec/17_privileged_traps.md R417 to R421; spec/03_decoupled_streams.md R72,
R79; spec/02_execution_model.md R44 to R46), results that land and errors at markers (04 R109; 11 R327; 12 R351), and the readiness of
waits.
-/

namespace Sys2Proof.Machine

/-! ### Fault records (17 R419, R420) -/

/-- A fault record outstanding. -/
def State.faultOut (s : State) (n : Nat) : FaultOut := Store.get s.faults FaultOut.blank n
/-- The state with a fault record changed. -/
def State.modFault (s : State) (n : Nat) (f : FaultOut → FaultOut) : State :=
  { s with faults := Store.put s.faults FaultOut.blank n (f (s.faultOut n)) }

/-- The TOKEN that names a fault record. -/
def faultToken (n : Nat) : W64 := Config.tokenMask ^^^ BitVec.ofNat 64 n

/-- The path to a peer's fault mailbox: its entry is valid and the links are up (21 R484, R485). -/
def State.peerPath (s : State) (part n : Nat) : Bool :=
  (Store.get s.part.peers 0 (64 * part + n)).getLsbD 63 && !s.host.peersDown.getLsbD n

/-- FAULT_RECORD_DELIVER (17 R419): a record reaches its mailbox, or the peer that serves the partition, once the way is free. -/
def execFaultRecordDeliver (token : Nat) (s : State) : Host.Outcome State Fault Refusal :=
  .next (
    let f := s.faultOut token
    if !f.used || f.posted then s
    else if f.peer then (if s.peerPath f.part f.dest then s.modFault token fun f => { f with posted := true } else s)
    else if !s.mboxOk f.part f.dest || !s.mboxRoom f.part f.dest then s
    else
      (s.mboxPost f.part f.dest f.record (faultToken token) (f.record.extractLsb' 128 20).toNat none).modFault token fun f =>
        { f with posted := true })

/-! ### The end of a context (17 R421) -/

/-- A copy ends CANCELLED: its locks go and its completion word is written where it can be (09 R267). -/
def State.cancelCopy (s : State) (id : Nat) : State :=
  let c := s.copy id
  let t := s.unlockCopy id
  let u := if blkNoComp c.block then t else
    match t.writeCompletion id (blkWord c.block 7 ^^^ 0x8000000000000000) with
    | .ok u => u
    | .error _ => t
  { u with eng := { u.eng with copies := Store.erase u.eng.copies id } }

/-- The lowest node of a graph that has a group alive, or else the lowest that runs. -/
def State.liveNode (s : State) (id : Nat) : Nat :=
  let g := s.graphRec id
  let low (l : List Nat) : Option Nat := l.foldl (fun b n => some (match b with | none => n | some m => min m n)) none
  match low ((s.allGroups.filter fun x => x.task.isNone && x.graph == id && x.ctxKey == g.key).map (·.node)) with
  | some n => n
  | none => (low (g.acts.map (·.node))).getD g.start

/-- A word written to a context's status word with `st.rel.dev` (17 R421, 18 R431); where it cannot be reached it is lost. -/
def State.writeStatus (s : State) (key : Nat) (v : W64) : State :=
  let c := s.ctx key
  match s.engParts c none c.cstat 8 .store with
  | .error _ => s
  | .ok (l, t) =>
    let m := t.mem.writeParts l v.toNat
    { t with mem := l.foldl (fun m (p : Nat × Nat) => m.publish ⟨c.part, c.asid, none⟩ p.1) m }

/-- The value of a context status word (17 R421, 18 R431). -/
def statusValue (state low : Nat) : W64 := BitVec.ofNat 64 (state * 2 ^ 60 + low)

/-- The context ends (17 R421). -/
def State.terminate (s : State) (key cause kind : Nat) : State :=
  let c := s.ctx key
  let s1 := (s.eng.copies.map Prod.fst).foldl (fun (t : State) id =>
    let y := t.copy id
    if y.used && ctxKey y.part y.asid == key then t.cancelCopy id else t) s
  let gone (g : Nat) : Bool := (s.group g).ctxKey == key
  let s2 := { s1 with
    eng := { s1.eng with
      rays := s1.eng.rays.filter fun p => !gone p.2.grp
      texs := s1.eng.texs.filter fun p => !gone p.2.grp
      draws := s1.eng.draws.filter fun p => ctxKey p.2.part p.2.asid != key
      claims := (s1.eng.claims.map fun (p : Nat × List (Nat × Bool)) => (p.1, p.2.filter fun (x : Nat × Bool) => !gone x.1)).filter fun p => !p.2.isEmpty }
    mem := s1.mem.flushCtx c.part c.asid }
  let s3 := s2.writeStatus key (statusValue 2 (cause * 256 + kind))
  let s4 := (s3.work.graphs.map Prod.fst).foldl (fun (t : State) id =>
    if (t.graphRec id).used && (t.graphRec id).key == key then
      let n := t.liveNode id
      t.modGraph id fun g => { g.failed n 7 with acts := [], owed := [], tok := none }
    else t) s3
  { s4 with
    groups := s4.groups.filter fun p => p.2.ctxKey != key
    cohorts := s4.cohorts.filter fun p => !p.2.groups.any gone
    faults := s4.faults.filter fun p => ctxKey p.2.part p.2.asid != key
    sec := { s4.sec with binds := s4.sec.binds.filter fun b => b.2.2 != key } }.modCtx key fun c =>
      { c with run := .ended, savedGroups := [], resumeDue := false }

/-- A verdict lands (17 R420). Any value but 0 and 1 is 2; FATAL acts as 2 on an escalation, a halt and a stage-2 fault (19 R449). -/
def State.verdict (s : State) (n : Nat) (v : W64) : State :=
  let f := s.faultOut n
  if !f.used || !f.posted then s
  else
    let t := { s with faults := Store.erase s.faults n }
    let kind := f.kind
    if v = 0 then { t with verdicts := Store.put t.verdicts 0 n 1 }
    else if v = 1 && !(kind == 5 || kind == 6 || f.stage2.isSome) then { t with verdicts := Store.put t.verdicts 0 n 2 }
    else t.terminate (ctxKey f.part f.asid) f.cause.code kind

/-! ### Wait reasons (17 R416) -/

/-- What a pending result that a marker awaits makes of its wait reason: a ray, a ray or an access with the fault server (04 R109). -/
def State.pendReason (s : State) (k : PendKind) : Nat :=
  match k with
  | .trav n => if (Store.get s.eng.rays Ray.blank n).tok.isSome then 11 else 8
  | .tex n => if (Store.get s.eng.texs TexReq.blank n).tok.isSome then 11 else 0
  | .mem | .upcall _ => 0

/-- The wait reason of a split's own wait. -/
def State.splitReason (s : State) (w : Warp) (y : Split) : Nat :=
  match y.wait with
  | .marker => (w.pend.filter fun p => p.awaitedBy y.lanes && !p.landed).foldl (fun n p => max n (s.pendReason p.kind)) 0
  | t => t.code

/-- The wait reason of a split (17 R416): FAULT for a warp that has escalated, UPCALL for one that awaits a reply. -/
def State.waitReason (s : State) (w : Warp) (y : Split) : Nat :=
  if w.esc.isSome || s.splitReason w y == 11 then 11 else if !w.ups.isEmpty then 10 else s.splitReason w y

/-- The wait reason of a stream. -/
def Stream.waitReason (y : Stream) : Nat := if y.esc.isSome then 11 else y.wait.code

/-- Some split of a warp is parked with FAULT, or held so while a handler runs (17 R415, R416). -/
def State.warpFaults (s : State) (w : Warp) : Bool := (w.splits ++ w.saved).any fun y => s.waitReason w y == 11

/-- Some stream of a group is parked with FAULT. -/
def State.faulted (s : State) (x : Group) : Bool :=
  x.astr.waitReason == 11 || x.mstr.waitReason == 11 || x.wids.any fun w => s.warpFaults (x.warp w)

/-- Some stream of a group is parked with FAULT or runs at level H (17 R418). -/
def State.inService (s : State) (x : Group) : Bool := s.faulted x || x.wids.any fun w => (x.warp w).level

/-! ### The errors of a lane (04 R109; 11 R327) -/

/-- The errors of a warp's lanes that are delivered next: those of the first split with any, of the cause of its lowest erring lane. An
error that the warp has taken into a handler waits for its return (17 R415). -/
def State.deliverErrs (s : State) (g w : Nat) (m : Lanes) : State :=
  let x := s.warp g w
  let errsOf (y : Split) : List MarkErr := x.errs.filter fun e => (y.lanes &&& m).getLsbD e.lane && !e.held
  match (if x.due.isSome || x.esc.isSome then none else x.splits.find? fun y => !(errsOf y).isEmpty) with
  | none => s
  | some y =>
    let low (l : List MarkErr) : Option MarkErr := l.foldl (fun b e => some (match b with | none => e | some d => if e.lane < d.lane then e else d)) none
    match low (errsOf y) with
    | none => s
    | some e =>
      let hit (k : MarkErr) : Bool := y.lanes.getLsbD k.lane && k.cause == e.cause && !k.held
      let mask := (x.errs.filter hit).foldl (fun m k => m ||| laneBit k.lane) (0 : Lanes)
      let t : Trap := ⟨e.cause, slotAddr y.pc, mask, BitVec.ofNat 64 e.reason, e.slotPc, e.i2, e.i3⟩
      (s.modWarp g w fun z => { z with errs := z.errs.filter fun k => !hit k }).trapWarp g w y.lanes t

/-! ### What verdicts release -/

/-- Popped fault records whose verdicts are RESOLVED are loaded again; FATAL leaves the record to QUEUE_FAULT (03 R72). -/
def State.replay (s : State) (g w : Nat) (r : Replay) : State :=
  let x := s.warp g w
  match (x.queue r.q).entry r.seq with
  | none => s
  | some e =>
    match e.elems[r.lane]? with
    | some (.fault c a srv) =>
      if !srv then s
      else
        let p : QElem × State := if s.verdictOf r.tok = 1 then s.loadElem g e.acc e.m (a.toNat : Int) else (.fault c a false, s)
        p.2.modWarp g w fun y => y.modQueue r.q fun q =>
          { q with entries := q.entries.map fun k => if k.seq = e.seq then { k with elems := k.elems.set r.lane p.1.land } else k }
    | _ => s

/-- What the verdict on a split's fault does: it executes again, or traps with the original cause; one on its escalation lets it go on as
`tret` would (17 R420). -/
def State.releaseSplit (s : State) (g w : Nat) (x : Split) : State :=
  let ready (t : State) : State := t.modWarp g w (·.replaceSplit x.lanes fun y => [{ y with wait := .ready, bp := 0 }])
  match x.wait with
  | .fault tok t =>
    match s.verdictOf tok with
    | 0 => s
    | 1 => ready s
    | _ => if (s.warp g w).due.isSome || (s.warp g w).esc.isSome then s else (ready s).trapWarp g w x.lanes t
  | .faultQ rs => if rs.all fun r => s.verdictOf r.tok != 0 then rs.foldl (fun t r => t.replay g w r) (ready s) else s
  | .escal tok prev =>
    if s.verdictOf tok = 1 then
      (s.modWarp g w (·.replaceSplit x.lanes fun y => [{ y with wait := prev, bp := 0 }])).deliverErrs g w x.lanes
    else s
  | _ => s

/-- The verdict on a stream's fault or escalation. -/
def State.releaseStream (s : State) (g : Nat) (st : Strm) : State :=
  let y := (s.group g).stream st
  match y.esc with
  | some tok =>
    if s.verdictOf tok = 1 then s.modStream g st fun z => { z with esc := none, stopped := false, bp := 0 } else s
  | none =>
    match y.wait with
    | .fault tok t =>
      match s.verdictOf tok with
      | 0 => s
      | 1 => s.modStream g st fun z => { z with wait := .ready, bp := 0 }
      | _ => (s.modStream g st fun z => { z with wait := .ready, bp := 0 }).trapStream g st t
    | _ => s

/-- The verdict on a warp's escalation: RESOLVED resumes it as `tret` would. -/
def State.releaseWarp (s : State) (g w : Nat) : State :=
  let x := s.warp g w
  match x.esc with
  | some tok =>
    if s.verdictOf tok = 1 then
      let t := s.modWarp g w fun y => { y with esc := none, splits := y.splits.map fun z => { z with bp := 0 } }
      if x.level then (t.trapReturn g w).modWarp g w (·.settleJoin) else t
    else s
  | none => x.splits.foldl (fun t y => t.releaseSplit g w y) s

/-- The verdicts that have landed take effect in a group. -/
def State.settleVerdicts (s : State) (g : Nat) : State :=
  let s1 := match (s.group g).halted with
    | some tok => if s.verdictOf tok = 1 then s.modGroup g fun x => { x with halted := none } else s
    | none => s
  let s2 := (s1.group g).wids.foldl (fun t w => t.releaseWarp g w) s1
  (s2.releaseStream g .a).releaseStream g .m

/-! ### Results and markers (04 R109; 11 R327) -/

/-- A split whose results have all been written passes its switch marker; its errors are delivered there. -/
def State.passMarker (s : State) (g w : Nat) (y : Split) : State :=
  let x := s.warp g w
  if y.wait != .marker || !x.landedFor y.lanes || x.due.isSome || x.esc.isSome then s
  else
    let t := (s.modWarp g w fun x => (x.commit s.draws y.lanes).replaceSplit y.lanes fun z => [{ z with wait := .ready, bp := 0 }]).draw
    t.deliverErrs g w y.lanes

/-- A split that a marker awaits behind its wait stands at the marker once the wait is over. -/
def Warp.standMarks (w : Warp) : Warp :=
  { w with splits := w.splits.map fun y => if y.mark && y.wait == .ready then { y with wait := .marker, mark := false } else y }

/-- The markers of a warp. -/
def State.settleMarkers (s : State) (g w : Nat) : State :=
  let t := if (s.warp g w).splits.any fun y => y.mark && y.wait == .ready then s.modWarp g w (·.standMarks) else s
  (t.warp g w).splits.foldl (fun t y => t.passMarker g w y) t

/-- LOAD_RESULT_LAND (04 R109): the results of an issue are written; a texture request that met a fault goes on. -/
def execLoadResultLand (grp wid tag : Nat) (s : State) : Host.Outcome State Fault Refusal :=
  .next (
    let land (p : Pend) : Pend := if p.tag = tag ∧ p.kind = .mem then { p with landed := true } else p
    let w := s.warp grp wid
    if !w.pend.any fun p => p.tag == tag then s
    else
      let ids := (w.pend.filterMap fun p => match p.kind with | .tex id => if p.tag = tag then some id else none | _ => none).dedup
      ids.foldl State.settleTex (s.modWarp grp wid fun w => { w with pend := w.pend.map land }))

/-! ### Memory in the background -/

/-- WRITE_BACK_MERGE (08 R219): the oldest write-back of a cluster that is not held merges. -/
def execWriteBackMerge (cluster : Nat) (s : State) : Host.Outcome State Fault Refusal := .next { s with mem := s.mem.mergeOne cluster }

/-- PAGE_WALK (19 R447): a walk completes, and its translation is cached. -/
def execPageWalk (part asid vpage : Nat) (s : State) : Host.Outcome State Fault Refusal :=
  .next (
    let c := s.ctx (ctxKey part asid)
    if !c.used || 2 ^ 45 ≤ vpage || (s.mem.cached part asid vpage).isSome then s
    else match s.fullWalk c (4096 * vpage) ⟨false, false, false⟩ with
      | .ok t => ({ s with mem := s.mem.cacheXlat part asid vpage t }).draw
      | .error _ => s.draw)

/-! ### Readiness -/

/-- The context and the group let the group's streams issue: the context runs, nothing stops the group, and the range locks of its
resumed copies are registered (17 R425; 18 R433, R440). -/
def State.groupRuns (s : State) (g : Nat) : Bool :=
  let x := s.group g
  x.used && (s.gctx g).runs && x.halted.isNone && x.holdCopies.isEmpty

/-- The splits of a warp may issue as far as the warp decides. -/
def State.warpRuns (s : State) (g w : Nat) : Bool :=
  let x := s.warp g w
  s.groupRuns g && !x.ended && x.due.isNone && x.esc.isNone && x.ups.isEmpty

/-- A split may issue: no wait holds it. -/
def State.splitReady (s : State) (g w : Nat) (y : Split) : Bool :=
  s.warpRuns g w && y.hold == 0 && y.stall == 0 && y.wait.isOver

/-- A warp has a split that may issue. -/
def State.warpReady (s : State) (g w : Nat) : Bool := (s.warp g w).splits.any (s.splitReady g w)

/-- A stream may issue as far as its traps decide. -/
def State.streamRuns (s : State) (g : Nat) (st : Strm) : Bool :=
  let y := (s.group g).stream st
  s.groupRuns g && y.on && !y.ended && !y.stopped && y.trap.isNone && y.esc.isNone

/-- A stream may issue: no wait holds it. -/
def State.streamReady (s : State) (g : Nat) (st : Strm) : Bool := s.streamRuns g st && ((s.group g).stream st).wait.isOver

/-! ### Watchdogs and timeouts -/

/-- The wait is one at a blocked port (17 R416). -/
def Wait.blocked : Wait → Bool
  | .barrier _ _ _ | .cbarrier _ _ | .wjoin _ _ | .rgrp _ | .mclaim _ _ | .hqput _ _ => true
  | .waitaddr ws => ws.any fun y => y.got.isNone
  | _ => false

/-- TINFO0 and TINFO1 of WAIT_TIMEOUT (17 R417). -/
def Wait.timeoutInfo (t : Wait) : W64 × W64 :=
  let c := t.code
  match t with
  | .barrier b _ _ => (BitVec.ofNat 64 (c + 16 * b), 0)
  | .cbarrier _ _ => (BitVec.ofNat 64 (c + 256), 0)
  | .waitaddr ws => (BitVec.ofNat 64 c, ((ws.find? fun y => y.got.isNone).map (·.addr)).getD 0)
  | .hqput hs _ => (BitVec.ofNat 64 c, ((hs.head?).map fun h => h.place.setWidth 64).getD 0)
  | _ => (BitVec.ofNat 64 c, 0)

/-- The trap of a blocked-port count that has run out (17 R417). -/
def timeoutTrap (t : Wait) (pc : W64) (m : Lanes) : Trap := ⟨.waitTimeout, slotAddr pc, m, t.timeoutInfo.1, t.timeoutInfo.2, 0, 0⟩

/-- WAIT_TIMEOUT of the split that holds a lane, or of a stream (17 R417): a blocked-port count that has reached the context's limit traps at
its waiting instruction. -/
def State.timeout (s : State) (g : Nat) (st : Strm) (w lane : Nat) : State :=
  let lim := 1024 * (s.gctx g).bplimit
  if lim = 0 then s
  else match st with
    | .e =>
      let x := s.warp g w
      match x.splits.find? fun y => y.lanes.getLsbD lane with
      | some y =>
        if y.wait.blocked && decide (lim ≤ y.bp) && x.due.isNone && x.esc.isNone then s.trapWarp g w y.lanes (timeoutTrap y.wait y.pc y.lanes) else s
      | none => s
    | st =>
      let y := (s.group g).stream st
      if y.on && !y.ended && !y.stopped && y.trap.isNone && y.esc.isNone && y.wait.blocked && decide (lim ≤ y.bp)
      then s.trapStream g st (timeoutTrap y.wait y.pc 0) else s

/-- WAIT_TIMEOUT (17 R417) -/
def execWaitTimeout (grp : Nat) (strm : Strm) (wid lane : Nat) (s : State) : Host.Outcome State Fault Refusal :=
  .next (s.timeout grp strm wid lane)

/-- WATCHDOG_SPLITS (02 R45): some split's count has reached the warp's limit. -/
def State.watchdog (s : State) (g w : Nat) : State :=
  let x := s.warp g w
  let lim := x.wdlimit.toNat
  let late := x.splits.filter fun y => decide (lim ≤ y.wd)
  if lim = 0 || x.level || x.due.isSome || x.esc.isSome then s
  else match (ranked late).head? with
    | none => s
    | some y =>
      let pcs := (ranked x.splits).map fun z => slotAddr z.pc
      let info (k : Nat) : W64 := pcs.getD k 0xFFFFFFFFFFFFFFFF
      s.trapWarp g w y.lanes
        ⟨.watchdogSplits, slotAddr y.pc, late.foldl (fun m z => m ||| z.lanes) 0, info 0, info 1, info 2, info 3⟩

/-- WATCHDOG_SPLITS (02 R45) -/
def execWatchdogSplits (grp wid : Nat) (s : State) : Host.Outcome State Fault Refusal := .next (s.watchdog grp wid)

/-- Every split of a warp is parked with QEMPTY, QBACK or BARRIER. -/
def Warp.starved (w : Warp) : Bool :=
  w.splits.all fun y => match y.wait with
    | .qempty _ _ _ | .qback | .barrier _ _ _ | .cbarrier _ _ | .wjoin _ _ | .rgrp _ => true
    | _ => false

/-- The group stands as 03 R79 describes. -/
def Group.decoupled (x : Group) : Bool :=
  x.astr.on && !x.astr.ended && !x.astr.stopped && (x.astr.wait == .qback || x.astr.wait == .qfull) &&
    x.firstWarp.isSome && x.wids.all fun w => (x.warp w).ended || (x.warp w).starved

/-- DECOUPLE_STALL (03 R79): once the count of a blocked group has reached its stall warp's limit. -/
def State.decoupleStall (s : State) (g : Nat) : State :=
  let x := s.group g
  match x.firstWarp with
  | none => s
  | some w =>
    let lim := (x.warp w).wdlimit.toNat
    if !x.used || lim = 0 || x.stall < lim || !x.decoupled || x.astr.trap.isSome || x.astr.esc.isSome then s
    else
      let parked := x.wids.foldl (fun n w => if (x.warp w).ended then n else n + 2 ^ w) 0
      (s.modGroup g fun x => { x with stall := 0 }).trapStream g .a
        ⟨.decoupleStall, slotAddr x.astr.pc, 0, BitVec.ofNat 64 x.astr.wait.code, BitVec.ofNat 64 parked, 0, 0⟩

/-- DECOUPLE_STALL (03 R79) -/
def execDecoupleStall (grp : Nat) (s : State) : Host.Outcome State Fault Refusal := .next (s.decoupleStall grp)

/-- WARP_OVERDUE (18 R428) -/
def execWarpOverdue (grp wid : Nat) (s : State) : Host.Outcome State Fault Refusal :=
  .next (if s.warpReady grp wid && decide (32 ≤ (s.warp grp wid).unsel) then s.modWarp grp wid fun w => { w with overdue := true } else s)

end Sys2Proof.Machine
end

