-- ==== Sys2Proof/Machine/SaveImage.lean ====
section
/-!
DEFINITION. The bytes of the context save area (spec/18_scheduling_preemption.md R435 to R439).

DESIGN CHOICE, notes/assumptions/34.md: where R437 lists the contents of a section without offsets, they follow one another without
gaps, in its order, the lowest number first.
-/

namespace Sys2Proof.Machine

/-- A list of bytes with zeros up to n. -/
def padTo (n : Nat) (l : List W8) : List W8 := l ++ List.replicate (n - l.length) 0
/-- A list of bytes with zeros up to a multiple of n. -/
def padUp (n : Nat) (l : List W8) : List W8 := padTo ((l.length + n - 1) / n * n) l
/-- Words of four bytes. -/
def words4 (l : List W32) : List W8 := l.flatMap fun x => bytesOf 4 x.toNat
/-- The scalar registers s0 to s63. -/
def sregWords (m : Store W32) : List W8 := words4 ((List.range 64).map (Store.get m 0))

/-- A lane record (18 R438). -/
def laneImage (s : State) (w : Warp) (l : Nat) : List W8 :=
  let here := w.splits.find? fun y => y.lanes.getLsbD l
  let old := if w.level then w.saved.find? fun y => y.lanes.getLsbD l else none
  let counts := if w.level then old else here
  let state := if w.live.getLsbD l then 0 else if w.helper.getLsbD l then 1 else 2
  let pc (y : Option Split) : Nat := (y.map fun y => (slotAddr y.pc).toNat).getD 0
  let wait (y : Option Split) : Nat := (y.map (s.waitReason w)).getD 0
  bytesOf 8 (pc here) ++ bytesOf 8 (pc old) ++ bytesOf 4 ((counts.map (·.wd)).getD 0) ++ bytesOf 4 ((counts.map (·.bp)).getD 0) ++
    bytesOf 8 (wait here + 16 * ((old.map fun y => s.splitReason w y).getD 0) + (if old.isSome then 256 else 0) + 512 * state)

/-- The warp block (18 R439): REPLY and VERDICT are valid where a reply has landed or a verdict has come in. -/
def warpBlock (s : State) (w : Warp) : List W8 :=
  let reply := w.pend.findSome? fun p => match p.kind with
    | .upcall t => if p.landed then some (t, (w.pend.filter fun q => q.kind == .upcall t).foldl (fun n q => n + q.val.toNat * 2 ^ (32 * (q.reg % 2))) 0) else none
    | _ => none
  let landed (t : Nat) : Option Nat := match s.verdictOf t with | 0 => none | v => some (v - 1)
  let verdict := (w.esc.toList ++ (w.splits ++ w.saved).flatMap fun y => match y.wait with
    | .fault t _ => [t]
    | .escal t _ => [t]
    | .faultQ rs => rs.map (·.tok)
    | _ => []).findSome? landed
  padTo 1024 (sregWords w.sregs ++
    [w.tcause, w.tpc, w.tmask, w.tstream, w.tinfo0, w.tinfo1, w.tinfo2, w.tinfo3, w.tpcin].flatMap (fun x => bytesOf 8 x.toNat) ++
    bytesOf 4 w.fstat.toNat ++ bytesOf 4 w.wdlimit.toNat ++
    bytesOf 8 ((if w.level then 1 else 0) + (if reply.isSome then 2 else 0) + (if verdict.isSome then 4 else 0)) ++
    bytesOf 8 ((reply.map (·.2)).getD 0) ++ bytesOf 8 (verdict.getD 0))

/-- The vector registers of a warp's image: v0 up, o0 to o31, h0 to h3, the bank. -/
def imageCodes (n : Nat) : List Nat :=
  List.range n ++ (List.range 32).map (0x300 + ·) ++ [0x320, 0x321, 0x322, 0x323] ++ [0x324, 0x325, 0x326, 0x327]

/-- A register of a warp as it is saved: the bank only for a warp at level H (17 R408). -/
def Warp.imageReg (w : Warp) (l c : Nat) : W32 := if c < 0x324 || w.level then Store.get w.vregs 0 (1024 * l + c) else 0

/-- A predicate byte of a warp as it is saved: the bank's p6 only for a warp at level H (17 R408). -/
def Warp.imagePreds (w : Warp) (l : Nat) : W8 := if w.level then Store.get w.preds 0 l else Store.get w.preds 0 l &&& 0x7F

/-- The bytes of a warp in section 0, by width and registers. -/
def warpBytes (W n : Nat) : Nat := 32 * W + 1024 + 4 * W * (n + 40) + (W + 127) / 128 * 128

/-- Section 0. -/
def warpsImage (s : State) (x : Group) : List W8 :=
  let W := x.kernel.width
  x.wids.flatMap fun n =>
    let w := x.warp n
    (List.range W).flatMap (laneImage s w) ++ warpBlock s w ++
      (imageCodes x.kernel.regs).flatMap (fun c => (List.range W).flatMap fun l => bytesOf 4 (w.imageReg l c).toNat) ++
      padUp 128 ((List.range W).map w.imagePreds)

/-- A generator: its base and six strides. -/
def genImage (y : Gen) : List W8 := bytesOf 8 y.base.toNat ++ words4 [y.lane, y.warp, y.l0, y.l1, y.l2, y.l3]

/-- A group-uniform register after every write of the A-stream. -/
def Group.gLast (x : Group) (n : Nat) : W32 := (x.gw.filter fun w => w.reg == n).foldl (fun _ w => w.val) (Store.get x.gbase 0 n)

/-- Section 1. -/
def astreamImage (x : Group) : List W8 :=
  let a := x.astr
  padTo 1024 (bytesOf 8 (slotAddr a.pc).toNat ++ sregWords a.sregs ++ [a.preds] ++ bytesOf 4 a.fstat.toNat ++
    bytesOf 1 a.waitReason ++ bytesOf 1 (if a.ended then 1 else 0) ++ words4 ((List.range 32).map x.gLast) ++
    (List.range 8).flatMap (fun k => genImage (Store.get x.gens Gen.blank k)) ++ words4 ((List.range 4).map (Store.get x.idx 0)) ++
    (List.range 8).flatMap (fun q => bytesOf 1 (Store.get x.rr 0 q)) ++ x.qb.flatMap (fun v => bytesOf 8 v.toNat) ++ bytesOf 1 x.qb.length)

/-- An element's data, and its fault record. -/
def elemImage (e : QEntry) (k : QElem) : Nat × Option (List W8) :=
  match k with
  | .pending v => (v.toNat, none)
  | .data v => (v.toNat, none)
  | .pendingFault c a _ | .fault c a _ =>
    (0, some (bytesOf 8 a.toNat ++ bytesOf 8 (c.code + accSize e.acc * 2 ^ 8 + e.m.scope.code.toNat * 2 ^ 12 + e.m.order.code.toNat * 2 ^ 15 +
      e.m.space.code.toNat * 2 ^ 17 + (if e.m.fr then 2 ^ 19 else 0))))

/-- An entry of a queue with elements of E bytes for W lanes: state 0 EMPTY, 1 PENDING, 2 READY, 3 POISONED. -/
def entryImage (W E : Nat) (e : Option QEntry) : List W8 :=
  match e with
  | none => List.replicate (16 + W * (E + 16)) 0
  | some e =>
    let els := e.elems.map (elemImage e)
    let bad := (els.zipIdx).foldl (fun n p => if p.1.2.isSome then n + 2 ^ p.2 else n) 0
    let state := if !e.complete then 1 else if bad = 0 then 2 else 3
    bytesOf 4 state ++ bytesOf 4 e.seq ++ bytesOf 8 bad ++ padTo (W * E) (els.flatMap fun p => bytesOf E p.1) ++
      padTo (W * 16) (els.flatMap fun p => p.2.getD (List.replicate 16 0))

/-- Section 2. -/
def queuesImage (x : Group) : List W8 :=
  let W := x.kernel.width
  x.wids.flatMap fun w => ((List.range 8).filter x.kernel.hasQueue).flatMap fun q =>
    let y := (x.warp w).queue q
    let d := x.kernel.queueDepth q
    padTo 64 (bytesOf 4 y.tail ++ bytesOf 1 (x.slipOf w q) ++ bytesOf 1 (if y.closed then 1 else 0)) ++
      (List.range W).flatMap (fun l => bytesOf 4 (y.head l)) ++
      (List.range d).flatMap fun k => entryImage W (if x.kernel.queueWide q then 8 else 4) y.entries[k]?

/-- A barrier. -/
def barImage (b : Bar) : List W8 :=
  padTo 256 (bytesOf 4 b.phase.toNat ++ bytesOf 4 (b.arrived.toNat + (if b.aArr then 2 ^ 16 else 0) + (if b.mArr then 2 ^ 17 else 0)) ++
    (List.range 16).flatMap (fun w => bytesOf 8 (Store.get b.lanes 0 w).toNat) ++
    (List.range 16).flatMap fun w => bytesOf 4 (Store.get b.last 0 w).toNat)

/-- Section 3. -/
def barsImage (x : Group) : List W8 :=
  (List.range 16).flatMap (fun n => barImage (Store.get x.bars Bar.blank n)) ++ (if x.cohpos = 0 then barImage x.cbar else [])

/-- A matrix operation in a port's queue. Its operation word holds the kind in [3:0], the scale slot in [7:4], T in [11:8] and `.chi` in [12]
(notes/assumptions/34.md); operand b of an `mwld` is its tile scale. -/
def opImage (o : MOp) : List W8 :=
  let word := (match o.kind with | .wld => 0 | .act => 1 | .zero => 2 | .st => 3) + 16 * o.slot + 256 * o.ty.code.toNat + (if o.chi then 4096 else 0)
  padTo 32 (bytesOf 4 word ++ bytesOf 4 o.a ++ bytesOf 4 (if o.kind == .wld then o.ts.toNat else o.b) ++ bytesOf 4 o.c ++ bytesOf 4 o.next)

/-- A claimed array. -/
def arrayImage (y : MArray) : List W8 :=
  let plane (p : Plane) : List W8 := (List.range 16384).map (Store.get p.bytes 0)
  let attr (p : Plane) : List W8 := bytesOf 4 p.ts.toNat ++ bytesOf 4 (if p.cols then 1 else 0)
  plane y.active ++ plane y.shadow ++ (List.range 32768).flatMap (fun k => bytesOf 4 (Store.get y.acc 0 k).toNat) ++
    padTo 512 (attr y.active ++ attr y.shadow) ++ padTo 512 ((y.loadQ ++ y.compQ).flatMap opImage)

/-- A scale-table word after every write. -/
def Group.scaleLast (x : Group) (key : Nat) : W32 :=
  (x.scalePend.filter fun w => w.key == key).foldl (fun _ w => w.val) (Store.get x.scale 0x3F800000 key)

/-- Section 5; empty without an M-stream. -/
def matrixImage (x : Group) : List W8 :=
  let m := x.mstr
  if !m.on then []
  else
    padTo 512 (bytesOf 4 x.claim ++ bytesOf 4 x.gfmt.toNat ++ bytesOf 8 (slotAddr m.pc).toNat ++ sregWords m.sregs ++ [m.preds] ++
      bytesOf 4 m.fstat.toNat ++ bytesOf 1 m.waitReason) ++
    (List.range 1024).flatMap (fun k => bytesOf 4 (x.scaleLast k).toNat) ++
    (List.range x.claim).flatMap fun n => arrayImage (x.array n)

/-- A stopped lane's ray: `pending` for one whose start is pending. -/
def rayImage (r : Ray) (pending : Bool) : List W8 :=
  let w1 := r.rsb.toNat + (r.space.code.toNat + r.lane * 4 + r.wid * 256 + (if pending then 2 ^ 12 else 0)) * 2 ^ 64
  let m := if r.form = 1 then r.mode - 2 else 0
  let w2 := if pending then r.desc.toNat + (r.param.toNat + (r.form + (if r.any then 8 else 0) + m * 16) * 2 ^ 32) * 2 ^ 64 else 0
  bytesOf 16 w1 ++ bytesOf 16 w2

/-- Section 6. -/
def raysImage (l : List (Ray × Bool)) : List W8 :=
  if l.isEmpty then [] else padTo 16 (bytesOf 4 l.length) ++ l.flatMap fun p => rayImage p.1 p.2

/-- Section 7: the copies of a group that have not ended. -/
def copiesImage (s : State) (g : Nat) : List W8 :=
  (s.eng.copies.filter fun p => p.2.used && p.2.grp == some g).flatMap fun p =>
    bytesOf 128 p.2.block.toNat ++
      padTo 32 (bytesOf 4 (copyHandle p.2.seq p.2.eng).toNat ++ bytesOf 8 p.2.done ++ bytesOf 4 (p.2.locks p.1).length)

/-- Section 8. -/
def cstatImage (x : Group) : List W8 :=
  if x.cstat.isEmpty then [] else padTo 2048 ((x.cstat.drop (x.cstat.length - 256)).flatMap fun p => bytesOf 8 p.2.toNat)

/-- The sections of a group record (18 R437). -/
def groupSections (s : State) (g : Nat) (x : Group) (rays : List (Ray × Bool)) : List (List W8) :=
  [warpsImage s x, astreamImage x, queuesImage x, barsImage x, (List.range x.kernel.scratch).map (Store.get x.scratch 0), matrixImage x,
    raysImage rays, copiesImage s g, cstatImage x, if x.task.isSome then (List.range 64).map (Store.get x.krec 0) else []]

/-- A group record, aligned to 4 KiB (18 R436). -/
def groupImage (s : State) (g : Nat) (x : Group) (rays : List (Ray × Bool)) : List W8 :=
  let r := (groupSections s g x rays).foldl (fun (acc : List W8 × List W8) sec =>
    let body := padUp 128 acc.2
    (acc.1 ++ (if sec.isEmpty then bytesOf 8 0 else bytesOf 4 sec.length ++ bytesOf 4 (256 + body.length)), if sec.isEmpty then acc.2 else body ++ sec))
    ([], [])
  let index := if x.task.isSome then x.taskid.toNat else x.index
  let w0 := (if x.tdone then 1 else 0) + x.nwarp * 2 ^ 24 + x.cohpos * 2 ^ 29 + (if x.task.isSome then 2 ^ 31 else 0) + index * 2 ^ 32
  let head := padTo 0x40 (bytesOf 8 w0 ++ bytesOf 8 x.kernel.desc.toNat ++ bytesOf 8 x.lrec.toNat)
  let resv := (List.range 16).flatMap fun n => bytesOf 4 (Store.get x.resv 0 n)
  padUp 4096 (padTo 256 (padTo 0xA0 (head ++ r.1) ++ resv) ++ r.2)

/-- The save area past CAPACITY's word: the header, the offsets, the records (18 R435). The words FMT and NGROUP, CAPACITY, USED, SEQ. -/
def areaImage (capacity : W64) (seq : W32) (recs : List (List W8)) : List W8 :=
  let table := 0x40 + 8 * recs.length
  let first := (table + 4095) / 4096 * 4096
  let offs := (recs.foldl (fun (acc : List Nat × Nat) r => (acc.1 ++ [acc.2], acc.2 + r.length)) ([], first))
  let used := if recs.isEmpty then table else offs.2
  padTo first (padTo 0x40 (bytesOf 8 (recs.length + 2 ^ 48) ++ bytesOf 8 capacity.toNat ++ bytesOf 8 used ++ bytesOf 8 seq.toNat) ++
    offs.1.flatMap fun o => bytesOf 8 o) ++ recs.flatten

/-- The bytes that an area needs for groups of given sizes. -/
def areaBytes (sizes : List Nat) : Nat :=
  let table := 0x40 + 8 * sizes.length
  if sizes.isEmpty then table else (table + 4095) / 4096 * 4096 + sizes.foldl (· + ·) 0

end Sys2Proof.Machine
end

