-- ==== Sys2Proof/Machine/Context.lean ====
section
/-!
DEFINITION. Stopping, saving and resuming a context (spec/18_scheduling_preemption.md R430 to R440; spec/08_memory_model.md R225).

A stop is one step, the save another, and the resumption one step for each group or cohort. A saved group stays in its context as the
plain data it was; the bytes of the save area are written beside it (notes/assumptions/34.md).
-/

namespace Sys2Proof.Machine

/-! ### The save area (18 R431, R435) -/

/-- SAVE names physical memory: it lies in memory that the context cannot write, for a protected context in a sealed granule. -/
def Ctx.saveAt (c : Ctx) : Nat := c.save.toNat

/-- The resident groups of a context, in ascending order of placement. -/
def State.groupsOf (s : State) (key : Nat) : List (Nat × Group) :=
  sortBy (fun (p : Nat × Group) => (p.2.stamp, p.2.cohpos, 0)) (s.groups.filter fun p => p.2.used && p.2.ctxKey == key)

/-- The rays of a group. -/
def State.raysOf (s : State) (g : Nat) : List (Nat × Ray) := s.eng.rays.filter fun p => p.2.used && p.2.grp == g

/-- The start of a ray is pending (11 R330). -/
def Ray.pendingStart (r : Ray) : Bool := r.phase == .start || r.phase == .desc

/-- The bytes that a save of a context requires. -/
def State.saveNeeds (s : State) (key : Nat) : Nat :=
  areaBytes (((s.groupsOf key ++ (s.ctx key).savedGroups).map fun p =>
    (groupImage s p.1 p.2 ((s.raysOf p.1).map fun r => (r.2, r.2.pendingStart))).length))

/-- STOP (18 R430, R431): refused where the area is too small; otherwise accepted, and counted. -/
def State.stopCtx (s : State) (key : Nat) (byDevice : Bool) : State :=
  let c := s.ctx key
  if !c.runs then s
  else if s.mem.read (c.saveAt + 8) 8 < s.saveNeeds key then s.writeStatus key (statusValue 5 c.seq.toNat)
  else s.modCtx key fun c => { c with run := .stopping, seq := c.seq + 1, byDevice := byDevice, resumeDue := false }

/-- STOP (18 R433) -/
def execStop (part asid : Nat) (s : State) : Host.Outcome State Fault Refusal := .next (s.stopCtx (ctxKey part asid) false)

/-! ### What a stop does to the context's work (18 R432 to R434) -/

/-- The queue elements of a warp have all returned (03 R84). -/
def Queue.landAll (q : Queue) : Queue := { q with entries := q.entries.map fun e => { e with elems := e.elems.map QElem.land } }

/-- A result that becomes visible at a stop: not an upcall's reply that has not landed, nor a ray's whose start is pending (18 R433). -/
def Pend.stops (p : Pend) : Bool :=
  p.landed || match p.kind with | .mem | .tex _ => true | .trav _ | .upcall _ => false

/-- A warp at the stop: results that have landed become visible. A wait that the stop withdraws is saved as it stands (18 R438) and is over
when its group stands on a core again. -/
def Warp.atStop (w : Warp) (n : Nat) : Warp :=
  let go := w.pend.filter Pend.stops
  let w1 := go.foldl (fun acc p => acc.land n p) w
  { w1 with
    pend := w.pend.filter fun p => !p.stops
    queues := w.queues.map fun p => (p.1, p.2.landAll)
    overdue := false
    unsel := 0 }

/-- A group at the stop. -/
def Group.atStop (x : Group) (n : Nat) : Group := x.mapWarps fun _ w => w.atStop n

/-- A ray that has ended its write-back at the stop enters the list of its group. -/
def State.endRayAtStop (s : State) (n : Nat) (r : Ray) : State :=
  let t := s.endRay n r
  if (t.ray n).used then t
  else { t with eng := { t.eng with ended := Store.put t.eng.ended [] r.grp (Store.get t.eng.ended [] r.grp ++ [r]) } }

/-- A ray at the stop (11 R330): a pending start stays; any other is suspended at its step boundary and written back, one that waits on the
fault server at the boundary before the faulting step. A write that faults awaits its verdict (R325, R327). -/
def State.stopRay (s : State) (n : Nat) : State :=
  let r := s.ray n
  let q : Ray := { r with tok := none, flt := none }
  if r.pendingStart then s
  else match s.engWait r.tok with
    | .fatal => s.rayFatal n r
    | w =>
      if r.phase = .ending then if w = .held then s else s.endRayAtStop n q
      else match q.suspend s with
        | .ok (q', t) => t.endRayAtStop n q'
        | .error e => s.rayErr n q e

/-- The rays of a context at the stop. -/
def State.stopRays (s : State) (key : Nat) : State :=
  (s.groupsOf key).foldl (fun t p => (t.raysOf p.1).foldl (fun t r => t.stopRay r.1) t) s

/-- Every ray of a context has ended or is a pending start. -/
def State.raysStopped (s : State) (key : Nat) : Bool := (s.groupsOf key).all fun p => (s.raysOf p.1).all fun r => r.2.pendingStart

/-- Every texture and image result of a context has landed, also where its access waited on the fault server (18 R433 step 3). -/
def State.texsStopped (s : State) (key : Nat) : Bool :=
  (s.groupsOf key).all fun p => p.2.wids.all fun w => (p.2.warp w).pend.all fun q => match q.kind with | .tex _ => q.landed | _ => true

/-- Copies at the stop give up their locks; they register anew at the resumption (18 R433 step 4, R440; of copy nodes,
notes/assumptions/69.md). -/
def State.stopCopies (s : State) (own : Copy → Bool) : State :=
  (s.eng.copies.map Prod.fst).foldl (fun (t : State) id =>
    if (t.copy id).used && own (t.copy id) then
      (t.unlockCopy id).modCopy id fun c => if c.run = .queued ∨ c.run = .running then { c with run := .waiting } else c
    else t) s

/-- Bytes of the area are written where they lie in the device's memory. -/
def State.writeArea (s : State) (a : Nat) (l : List W8) : State :=
  if a + l.length ≤ deviceTop then { s with mem := s.mem.write a l } else s

/-- The warp blocks of a saved context are written anew where its area has them: a reply and a verdict that come in after the save enter
it (18 R434, R439). -/
def State.noteArea (s : State) (key : Nat) : State :=
  let c := s.ctx key
  if c.run != .saved then s
  else c.savedGroups.zipIdx.foldl (fun (t : State) p =>
    let x := p.1.2
    let W := x.kernel.width
    let at0 := c.saveAt + t.mem.read (c.saveAt + 0x40 + 8 * p.2) 8
    let sec := at0 + t.mem.read (at0 + 0x44) 4
    x.wids.foldl (fun (t : State) w => t.writeArea (sec + warpBytes W x.kernel.regs * w + 32 * W) (warpBlock s (x.warp w))) t) s

/-- A verdict on a posted record, which enters the save area of a context that is saved (17 R420; 18 R434). -/
def State.takeVerdict (s : State) (n : Nat) (v : W64) : State :=
  let f := s.faultOut n
  if f.used && f.posted then (s.verdict n v).noteArea (ctxKey f.part f.asid) else s

/-- FAULT_VERDICT (17 R420) -/
def execFaultVerdict (token : Nat) (verdict : W64) (s : State) : Host.Outcome State Fault Refusal := .next (s.takeVerdict token verdict)

/-- A token stored to a reply window delivers the value stored there to the fault record or the upcall it names; any other is discarded
(13 R370). A reply to a saved context enters its save area (18 R434). -/
def State.replyToken (s : State) (part mbox : Nat) (token : W64) : State :=
  let v := Store.get s.part.replies 0 (64 * part + mbox)
  let n := (token ^^^ Config.tokenMask).toNat
  if (s.faultOut n).used && (s.faultOut n).part == part then s.takeVerdict n v
  else
    (s.ctxs.filter fun c => c.2.part == part && c.2.savedGroups.any fun p => p.2.awaits token).foldl (fun t c => t.noteArea c.1)
      (s.deliverReply part token v)

/-- REPLY_TOKEN (13 R370) -/
def execReplyToken (part mbox : Nat) (token : W64) (s : State) : Host.Outcome State Fault Refusal := .next (s.replyToken part mbox token)

/-- A context whose saved groups have all been placed again reports RESUMED (18 R440). -/
def State.reportResumed (s : State) (key : Nat) : State :=
  let c := s.ctx key
  if c.resumeDue && c.run == .running && c.savedGroups.isEmpty &&
      (s.groupsOf key).all (fun p => p.2.holdCopies.isEmpty) then
    (s.writeStatus key (statusValue 4 c.seq.toNat)).modCtx key fun c => { c with resumeDue := false }
  else s

/-- The context runs again; its saved groups wait for places (18 R440). -/
def State.startResume (s : State) (key : Nat) : State :=
  s.modCtx key fun c => { c with run := .running, resumeDue := true, byDevice := false }

/-- A resume is held until the module is in service again (21 R493, R499). -/
def State.holdResume (s : State) (key : Nat) : State :=
  { s with host := { s.host with heldResumes := if s.host.heldResumes.contains key then s.host.heldResumes else s.host.heldResumes ++ [key] } }

/-- A group at the stop: its copies give up their locks, what is pending lands, a trap entry under way and a complete `rgrp` finish
(18 R433 steps 2 to 4, R434). -/
def State.stopGroup (s : State) (g n : Nat) : State :=
  let t := (s.stopCopies fun c => c.grp == some g).modGroup g fun x => x.atStop n
  ((s.group g).wids.foldl (fun t w => t.deliver g w) t).settleRgrp g

/-- The save itself: the area, the write-backs, SAVED (18 R433 steps 6 to 8). -/
def State.saveCtx (s : State) (key : Nat) : State :=
  let c := s.ctx key
  let gs := s.groupsOf key
  let s1 := gs.foldl (fun (t : State) p => t.stopGroup p.1 s.draws) (s.stopCopies fun c => c.grp.isNone && ctxKey c.part c.asid == key)
  let all := c.savedGroups ++ s1.groupsOf key
  let rays (g : Nat) : List (Ray × Bool) :=
    (Store.get s.eng.ended [] g).map (·, false) ++ (s.raysOf g).map fun r => (r.2, true)
  let image := areaImage (BitVec.ofNat 64 (s.mem.read (c.saveAt + 8) 8)) c.seq (all.map fun p => groupImage s1 p.1 p.2 (rays p.1))
  let s2 := s1.writeArea c.saveAt image
  let gone (g : Nat) : Bool := gs.any fun p => p.1 == g
  let s3 := { s2 with
    groups := s2.groups.filter fun p => !gone p.1
    mem := s2.mem.flushCtx c.part c.asid
    eng := { s2.eng with ended := s2.eng.ended.filter fun p => !gone p.1, claims := (s2.eng.claims.map fun (p : Nat × List (Nat × Bool)) =>
      (p.1, p.2.filter fun (x : Nat × Bool) => !gone x.1)).filter fun p => !p.2.isEmpty } }
  let s4 := (s3.writeStatus key (statusValue 3 c.seq.toNat)).modCtx key fun c => { c with run := .saved, savedGroups := all }
  if !(c.resumeDue && c.run == .stopping) then s4
  else if s.paused then (s4.modCtx key fun c => { c with resumeDue := false }).holdResume key
  else s4.startResume key

/-- CONTEXT_SAVE (18 R433): what is under way reaches its unit; once every ray is written and every texture result has landed, the save is
made. -/
def execContextSave (part asid : Nat) (s : State) : Host.Outcome State Fault Refusal :=
  .next (
    let key := ctxKey part asid
    if !(s.ctx key).used || (s.ctx key).run != .stopping then s
    else
      let t := s.stopRays key
      if t.raysStopped key && t.texsStopped key then (t.saveCtx key).draw else t)

/-- RESUME (18 R430, R440; 21 R493, R499): a saved context's groups wait for places; while the context is stopping the command is kept,
and while the module is cooling down or is checkpointed it is held. -/
def State.resumeCtx (s : State) (key : Nat) : State :=
  let c := s.ctx key
  if !c.used then s
  else if s.paused then s.holdResume key
  else match c.run with
    | .saved => (s.startResume key).reportResumed key
    | .stopping => s.modCtx key fun c => { c with resumeDue := true }
    | .running | .ended => s

/-- RESUME (18 R440) -/
def execResume (part asid : Nat) (s : State) : Host.Outcome State Fault Refusal := .next (s.resumeCtx (ctxKey part asid))

/-- The copies of resumed groups whose locks are registered hold their streams no longer (18 R440 step 1). -/
def State.settleHolds (s : State) (g : Nat) : State :=
  if (s.group g).holdCopies.isEmpty then s
  else s.modGroup g fun x => { x with holdCopies := x.holdCopies.filter fun id => (s.copy id).used && (s.copy id).run == .waiting && !(s.copy id).cancel }

/-- Contexts that have resumed report it. -/
def State.settleResumed (s : State) : State :=
  ((s.ctxs.filter fun p => p.2.resumeDue && p.2.run == .running).map Prod.fst).foldl State.reportResumed s

end Sys2Proof.Machine
end

