-- ==== Sys2Proof/Machine/Convert.lean ====
section
/-!
DEFINITION. Conversion, packing and the move (spec/06_isa_arithmetic.md R161 to R163).
-/

namespace Sys2Proof.Machine

/-- The type of the sources a pack form converts (06 R162). -/
def packSrc : Ty → Ty
  | .i16 | .i8 | .i4 => .i32
  | .n16 | .n8 => .n32
  | .i32 | .n32 | .i64 | .n64 | .f32 | .f16 | .bf16 | .e4m3 | .e5m2 => .f32

/-- One element converted for a pack form. -/
def packElem (ftz : Bool) (m : AluMod) (x : W64) : W64 × W8 :=
  let r := convElem ftz m.ty (packSrc m.ty) m.rnd m.sat x
  (r.1 &&& BitVec.ofNat 64 (2 ^ m.ty.width - 1), r.2)

/-- Two converted elements placed side by side at bit `pos` of a word (06 R162). -/
def packInto (ftz : Bool) (m : AluMod) (pos : Nat) (a b c : W64) : AluOut :=
  let x := packElem ftz m a
  let y := packElem ftz m b
  let w := m.ty.width
  let keep := c &&& ~~~(BitVec.ofNat 64 ((2 ^ (2 * w) - 1) * 2 ^ pos))
  ⟨(keep ||| (x.1 <<< pos) ||| (y.1 <<< (pos + w))).setWidth 32 |>.setWidth 64, x.2 ||| y.2, false⟩

/-- The element at bit `pos` of a word widened (06 R162). -/
def unpackAt (t : Ty) (pos : Nat) (a : W64) : AluOut := .of (widenElem t (a >>> pos))

/-- CVT (06 R161, 05 R132) -/
def execCvt (f : Full) (m : AluMod) (src : Ty) (s : State) : Host.Outcome State Fault Refusal :=
  s.issue (.cvt f m src) f fun s =>
    s.alu f (wideTy m.ty) none fun l => .of (convElem s.ftz m.ty src m.rnd m.sat (s.src f f.a (wideTy src) l))

/-- PK2 (06 R162) -/
def execPk2 (f : Full) (m : AluMod) (s : State) : Host.Outcome State Fault Refusal :=
  s.issue (.pk2 f m) f fun s =>
    s.alu f false none fun l => packInto s.ftz m 0 (s.src f f.a false l) (s.src f f.b false l) 0

/-- An inline constant in a form that unpacks 16-bit elements: a floating one converted to the element type, an integer one's low half, in
both halves (04 R91). -/
def inlineElem (t : Ty) (n : Nat) : W32 :=
  match Fmt.ofTy t with
  | some F => inlinePacked F n
  | none =>
    let h : BitVec 16 :=
      if 16 ≤ n then ((convElem false t .f32 .rne false ((inlineConst n).setWidth 64)).1).setWidth 16 else (inlineConst n).setWidth 16
    h ++ h

/-- The source of `upk2`. -/
def State.srcElems (s : State) (t : Ty) (f : Full) (x : Operand) (lane : Nat) : W64 :=
  match x with
  | .k n => (inlineElem t n.val).setWidth 64
  | x => s.src f x false lane

/-- UPK2 (06 R162) -/
def execUpk2 (f : Full) (m : AluMod) (s : State) : Host.Outcome State Fault Refusal :=
  s.issue (.upk2 f m) f fun s =>
    s.alu f false none fun l => unpackAt m.ty (16 * (m.var.toNat % 2)) (s.srcElems m.ty f f.a l)

/-- PK8 (06 R162) -/
def execPk8 (f : Full) (m : AluMod) (s : State) : Host.Outcome State Fault Refusal :=
  s.issue (.pk8 f m) f fun s =>
    s.alu f false none fun l => packInto s.ftz m (16 * (m.var.toNat % 2)) (s.src f f.a false l) (s.src f f.b false l) (s.src f f.c false l)

/-- UPK8 (06 R162) -/
def execUpk8 (f : Full) (m : AluMod) (s : State) : Host.Outcome State Fault Refusal :=
  s.issue (.upk8 f m) f fun s =>
    s.alu f false none fun l => unpackAt m.ty (8 * (m.var.toNat % 4)) (s.src f f.a false l)

/-- PK4 (06 R162) -/
def execPk4 (f : Full) (m : AluMod) (s : State) : Host.Outcome State Fault Refusal :=
  s.issue (.pk4 f m) f fun s =>
    s.alu f false none fun l => packInto s.ftz m (8 * (m.var.toNat % 4)) (s.src f f.a false l) (s.src f f.b false l) (s.src f f.c false l)

/-- UPK4 (06 R162) -/
def execUpk4 (f : Full) (m : AluMod) (s : State) : Host.Outcome State Fault Refusal :=
  s.issue (.upk4 f m) f fun s =>
    s.alu f false none fun l => unpackAt m.ty (4 * m.var.toNat) (s.src f f.a false l)

/-- MOV (06 R163) -/
def execMov (f : Full) (m : AluMod) (s : State) : Host.Outcome State Fault Refusal :=
  s.issue (.mov f m) f fun s =>
    s.alu f (wideTy m.ty) none fun l => .pure (s.src f f.a (wideTy m.ty) l)

end Sys2Proof.Machine
end

