-- ==== Sys2Proof/Machine/Helper.lean ====
section
/-!
DEFINITION. The helper forms (spec/06_isa_arithmetic.md R155 to R160).
-/

namespace Sys2Proof.Machine

/-! ### Effects on one lane's sources -/

/-- A NaN source: the canonical NaN, NV if it is signalling. -/
def nanOut (s : Bool) : Nat × W8 := (Fmt.f32.nanBits, flagIf s flagNV)
/-- The canonical NaN with NV. -/
def invalid : Nat × W8 := (Fmt.f32.nanBits, flagNV)
/-- The significand of a magnitude, in [1, 2). -/
def significand (q : Rat) : Rat := q * pow2 (-floorLog2 q)

/-- frcps (06 R156). -/
def opFrcps (ftz : Bool) (a : Nat) : Nat × W8 :=
  match Fmt.f32.dec (fsrc .f32 ftz false a) with
  | .nan s => nanOut s
  | .zero n => (Fmt.f32.enc (.inf n), flagDZ)
  | .inf n => (Fmt.f32.enc (.zero n), 0)
  | .num q =>
    let x := ratAbs q
    let j := ((significand x - 1) * 128).floor
    let y := roundToBits 12 (1 / (1 + (mkRat (2 * j + 1) 256)))
    let r := y * pow2 (-floorLog2 x)
    ftzOut ftz (roundFmt .f32 .rne false (.num (if q.num < 0 then -r else r)))

/-- frsqs (06 R156). -/
def opFrsqs (ftz : Bool) (a : Nat) : Nat × W8 :=
  match Fmt.f32.dec (fsrc .f32 ftz false a) with
  | .nan s => nanOut s
  | .zero n => (Fmt.f32.enc (.inf n), flagDZ)
  | .inf n => if n then invalid else (0, 0)
  | .num q =>
    if q.num < 0 then invalid
    else
      let e := floorLog2 q
      let m := if e % 2 = 1 then 2 * significand q else significand q
      let e := if e % 2 = 1 then e - 1 else e
      let j := ((m - 1) * 32).floor
      let y := roundToBits 12 (sqrtQ (1 / (1 + (mkRat (2 * j + 1) 64))))
      ((roundFmt .f32 .rne false (.num (y * pow2 (-(e / 2))))).1, 0)

/-- fexpr (06 R157): the reduced argument, or the integer part when `n` holds. DESIGN CHOICE: the reduced argument of -0 is -0
(notes/assumptions/65.md). -/
def opFexpr (ftz n : Bool) (a : Nat) : W32 × W8 :=
  match Fmt.f32.dec (fsrc .f32 ftz false a) with
  | .nan s => (if n then 0 else BitVec.ofNat 32 Fmt.f32.nanBits, flagIf s flagNV)
  | .inf neg => if n then (BitVec.ofInt 32 (if neg then -300 else 300), 0) else (0, 0)
  | .zero neg => if n then (0, 0) else (BitVec.ofNat 32 (Fmt.f32.enc (.zero neg)), 0)
  | .num q =>
    let k := roundInt .rne q
    if n then (BitVec.ofInt 32 (clampInt (-300) 300 k), 0)
    else (BitVec.ofNat 32 (Fmt.f32.enc (.ofRat (q - mkRat k 1) false)), 0)

/-- fscale (06 R155): a power-of-two scale beyond every exponent acts as the bound does. -/
def opFscale (ftz : Bool) (m : AluMod) (a : Nat) (b : Int) : Nat × W8 :=
  let v := Fmt.f32.dec (fsrc .f32 ftz false a)
  let r : XR :=
    match v with
    | .num q => .num (q * pow2 (clampInt (-700) 700 b))
    | v => v
  fround .f32 ftz m.sat m.rnd (r, sigNV [v])

/-- fgetexp (06 R158). -/
def opFgetexp (ftz : Bool) (a : Nat) : Nat × W8 :=
  match Fmt.f32.dec (fsrc .f32 ftz false a) with
  | .nan s => nanOut s
  | .zero _ => (Fmt.f32.enc (.inf true), flagDZ)
  | .inf _ => (Fmt.f32.enc (.inf false), 0)
  | .num q => (Fmt.f32.enc (.ofRat (mkRat (floorLog2 (ratAbs q)) 1) false), 0)

/-- fgetman (06 R158). -/
def opFgetman (ftz : Bool) (a : Nat) : Nat × W8 :=
  match Fmt.f32.dec (fsrc .f32 ftz false a) with
  | .nan s => nanOut s
  | .zero n => (Fmt.f32.enc (.zero n), 0)
  | .inf _ => invalid
  | .num q => (Fmt.f32.enc (.num (q * pow2 (-floorLog2 (ratAbs q)))), 0)

/-- flogr (06 R158): the reduced mantissa, or the exponent when `k` holds. -/
def opFlogr (ftz k : Bool) (a : Nat) : Nat × W8 :=
  match Fmt.f32.dec (fsrc .f32 ftz false a) with
  | .nan s => nanOut s
  | .zero _ => if k then (Fmt.f32.enc (.inf true), flagDZ) else (0, 0)
  | .inf n => if n then invalid else if k then (Fmt.f32.enc (.inf false), 0) else (0, 0)
  | .num q =>
    if q.num < 0 then invalid
    else
      let e := floorLog2 q
      let e := if significand q < mkRat 3 2 then e else e + 1
      if k then (Fmt.f32.enc (.ofRat (mkRat e 1) false), 0)
      else (Fmt.f32.enc (.ofRat (q * pow2 (-e) - 1) false), 0)

/-- fsinr (06 R159): the remainder by pi/2, or the quadrant when `quad` holds. DESIGN CHOICE: the remainder of -0 is -0
(notes/assumptions/66.md). -/
def opFsinr (ftz quad : Bool) (a : Nat) : Nat × W8 :=
  match Fmt.f32.dec (fsrc .f32 ftz false a) with
  | .nan s => if quad then (0, flagIf s flagNV) else nanOut s
  | .inf _ => if quad then (0, 0) else invalid
  | .zero n => if quad then (0, 0) else (Fmt.f32.enc (.zero n), 0)
  | .num x =>
    let q := roundInt .rne (x / (piQ / 2))
    if quad then ((q % 4).toNat, 0)
    else ((roundFmt .f32 .rne false (.ofRat (x - mkRat q 1 * (piQ / 2)) false)).1, 0)

/-- A normal finite value with its exponent in [-124, 125] (06 R160). -/
def easyExp (x : Nat) : Option Int :=
  match Fmt.f32.dec x with
  | .num q =>
    let e := floorLog2 (ratAbs q)
    if -124 ≤ e ∧ e ≤ 125 then some e else none
  | _ => none

/-- fdivfx (06 R160). -/
def opFdivfx (ftz : Bool) (m : Rnd) (a b c : Nat) : Nat × W8 :=
  let x := fsrc .f32 ftz false b
  let y := fsrc .f32 ftz false c
  match easyExp x, easyExp y with
  | some e, some e' =>
    if -124 ≤ e - e' ∧ e - e' ≤ 125 then (fsrc .f32 ftz false a, 0)
    else fround .f32 ftz false m (xdiv (Fmt.f32.dec x) (Fmt.f32.dec y))
  | _, _ => fround .f32 ftz false m (xdiv (Fmt.f32.dec x) (Fmt.f32.dec y))

/-- fsqrtfx (06 R160). -/
def opFsqrtfx (ftz : Bool) (m : Rnd) (a b : Nat) : Nat × W8 :=
  let x := fsrc .f32 ftz false b
  if (easyExp x).isSome && !Fmt.f32.sign x then (fsrc .f32 ftz false a, 0)
  else fround .f32 ftz false m (xsqrt (Fmt.f32.dec x))

/-! ### Meanings -/

/-- FRCPS (06 R156) -/
def execFrcps (f : Full) (m : AluMod) (s : State) : Host.Outcome State Fault Refusal :=
  s.issue (.frcps f m) f fun s =>
    s.alu f false none fun l => fval (opFrcps s.ftz (s.src32 f f.a l).toNat)

/-- FRSQS (06 R156) -/
def execFrsqs (f : Full) (m : AluMod) (s : State) : Host.Outcome State Fault Refusal :=
  s.issue (.frsqs f m) f fun s =>
    s.alu f false none fun l => fval (opFrsqs s.ftz (s.src32 f f.a l).toNat)

/-- FEXPR (06 R157) -/
def execFexpr (f : Full) (m : AluMod) (s : State) : Host.Outcome State Fault Refusal :=
  s.issue (.fexpr f m) f fun s =>
    s.alu f false none fun l =>
      let r := opFexpr s.ftz (m.var.getLsbD 0) (s.src32 f f.a l).toNat
      ⟨r.1.setWidth 64, r.2, false⟩

/-- FSCALE (06 R155) -/
def execFscale (f : Full) (m : AluMod) (s : State) : Host.Outcome State Fault Refusal :=
  s.issue (.fscale f m) f fun s =>
    s.alu f false none fun l => fval (opFscale s.ftz m (s.src32 f f.a l).toNat (s.src32 f f.b l).toInt)

/-- FGETEXP (06 R158) -/
def execFgetexp (f : Full) (m : AluMod) (s : State) : Host.Outcome State Fault Refusal :=
  s.issue (.fgetexp f m) f fun s =>
    s.alu f false none fun l => fval (opFgetexp s.ftz (s.src32 f f.a l).toNat)

/-- FGETMAN (06 R158) -/
def execFgetman (f : Full) (m : AluMod) (s : State) : Host.Outcome State Fault Refusal :=
  s.issue (.fgetman f m) f fun s =>
    s.alu f false none fun l => fval (opFgetman s.ftz (s.src32 f f.a l).toNat)

/-- FLOGR (06 R158) -/
def execFlogr (f : Full) (m : AluMod) (s : State) : Host.Outcome State Fault Refusal :=
  s.issue (.flogr f m) f fun s =>
    s.alu f false none fun l => fval (opFlogr s.ftz (m.var.getLsbD 0) (s.src32 f f.a l).toNat)

/-- FSINR (06 R159) -/
def execFsinr (f : Full) (m : AluMod) (s : State) : Host.Outcome State Fault Refusal :=
  s.issue (.fsinr f m) f fun s =>
    s.alu f false none fun l => fval (opFsinr s.ftz (m.var.getLsbD 0) (s.src32 f f.a l).toNat)

/-- FDIVFX (06 R160) -/
def execFdivfx (f : Full) (m : AluMod) (s : State) : Host.Outcome State Fault Refusal :=
  s.issue (.fdivfx f m) f fun s =>
    s.alu f false none fun l => fval (opFdivfx s.ftz m.rnd (s.src32 f f.a l).toNat (s.src32 f f.b l).toNat (s.src32 f f.c l).toNat)

/-- FSQRTFX (06 R160) -/
def execFsqrtfx (f : Full) (m : AluMod) (s : State) : Host.Outcome State Fault Refusal :=
  s.issue (.fsqrtfx f m) f fun s =>
    s.alu f false none fun l => fval (opFsqrtfx s.ftz m.rnd (s.src32 f f.a l).toNat (s.src32 f f.b l).toNat)

end Sys2Proof.Machine
end

