-- ==== Sys2Proof/Machine/Privileged.lean ====
section
/-!
DEFINITION. The privileged forms (spec/17_privileged_traps.md R422 to R425) and trap delivery as steps of their own (R412, 03
R82).
-/

namespace Sys2Proof.Machine

/-- After a warp's splits have come back: `wjoin`, barrier and `rgrp` waits that are over end. -/
def State.settleAll (s : State) (g : Nat) : State :=
  ((s.modGroup g fun x => x.mapWarps fun _ w => w.settleJoin).settleBarriers g).settleRgrp g

/-- TRET (17 R414). A trap that another stream has waiting is delivered before any instruction of the warp issues (03 R83). -/
def execTret (f : Full) (s : State) : Host.Outcome State Fault Refusal :=
  s.issue (.tret f) f fun s =>
    let g := s.cur.grp
    let w := s.cur.wid
    (((s.trapReturn g w).markDone).trapEntry g w).settleAll g

/-- TRAP_ENTRY (17 R412, 03 R82): a trap that waits for its warp is delivered. -/
def execTrapEntry (grp wid : Nat) (s : State) : Host.Outcome State Fault Refusal := .next (s.trapEntry grp wid)

/-- CTXID (17 R409). -/
def Ctx.ctxid (c : Ctx) : W64 :=
  BitVec.ofNat 64 (c.asid % 65536 + 65536 * (c.part % 64) + (if c.sys then 2 ^ 22 else 0) + if c.prot then 2 ^ 23 else 0)

/-- A trap register (17 R409). -/
def State.trapReg (s : State) (num : Nat) : W64 :=
  let w := s.curWarp
  let c := s.gctx s.cur.grp
  match num with
  | 0 => w.tcause
  | 1 => w.tpc
  | 2 => w.tmask
  | 3 => w.tstream
  | 4 => w.tinfo0
  | 5 => w.tinfo1
  | 6 => w.tinfo2
  | 7 => w.tinfo3
  | 8 => c.tbase
  | 9 => c.ctxid
  | _ => BitVec.ofNat 64 c.bplimit

/-- SWR (17 R423) -/
def execSwr (f : Full) (wr : Bool) (num : BitVec 6) (s : State) : Host.Outcome State Fault Refusal :=
  s.issue (.swr f wr num) f fun s =>
    if wr then
      match lowLane (s.gLanes f) with
      | none => s.advance
      | some l =>
        let x := s.src f f.a true l
        if x.extractLsb' 0 3 != 0 then s.trap (s.decodeTrap .targetMisaligned 0 0 s.cur.lanes)
        else (s.modCurWarp fun w => { w with tpc := x }).advance
    else s.alu f (num != 10) none fun _ => .pure (s.trapReg num.toNat)

/-- An ASID is assigned to a partition: some context of it has it. -/
def State.asidKnown (s : State) (part asid : Nat) : Bool := (s.ctx (ctxKey part asid)).used

/-- An invalidation starts (17 R424, 19 R450). -/
def State.startInval (s : State) (part : Nat) (asid : Option Nat) (xinv : Bool) : State :=
  { s with mem := { s.mem with inval := s.mem.inval ++ [⟨part, asid, xinv⟩] } }

/-- TINV (17 R424): the split waits behind it with NONE until the invalidation has completed. -/
def execTinv (f : Full) (s : State) : Host.Outcome State Fault Refusal :=
  s.issue (.tinv f) f fun s =>
    match lowLane (s.gLanes f) with
    | none => s.advance
    | some l =>
      let asid := ((s.src32 f f.a l).setWidth 16).toNat
      let part := s.curGroup.part
      if !s.asidKnown part asid then
        s.trap (s.mkTrap .accessPerm (s.gLanes f) (BitVec.ofNat 64 asid) 0 0 0)
      else (s.startInval part (some asid) false).advanceWait (.tinv asid)

/-- The cause with a code. -/
def causeOf (n : Nat) : Cause :=
  ([.reservedField, .pairRule, .targetMisaligned, .featureMasked, .privileged, .hazard, .literalMisplaced, .addrFault,
    .accessPerm, .misalignedAccess, .rangeLocked, .scratchBounds, .capabilityFault, .placeUnmapped, .poisonData, .queueFault,
    .queueUnderflow, .decoupleStall, .fpException, .formatDivergence, .matrixState, .quadIllegal, .watchdogSplits, .waitTimeout,
    .barrierMismatch, .trapInsn, .upcallFail, .breakpoint, .taskBudget, .travFormat, .travLimit].find? fun c : Cause =>
      c.code == n).getD .illegalOpcode

/-- HALT (17 R425): the group stops, and a record of kind 6 names the trap the handler is handling; the halting warp parks with FAULT, and
continues at the next slot once the record is RESOLVED. -/
def execHalt (f : Full) (imm : BitVec 10) (s : State) : Host.Outcome State Fault Refusal :=
  s.issue (.halt f imm) f fun s =>
    let m := s.gLanes f
    if m = 0 then s.advance
    else
      let x := s.curGroup
      let w := s.curWarp
      let c := causeOf w.tcause.toNat
      let r := s.postFault ⟨x.part, x.asid, 6, 0, 0, c, c, 0, 0, x.core + s.cur.wid * 2 ^ 16, s.cur.pc, m, w.tinfo0,
        w.tinfo1, imm.toNat % 256, none⟩
      (r.2.modCur fun y => { y with halted := some r.1 }).advanceWait (.escal r.1 .ready)

end Sys2Proof.Machine
end

