-- ==== Sys2Proof/Machine/Security.lean ====
section
/-!
DEFINITION. The security core's calls, worlds, compartments and gates, teardown and scrub
(spec/20_partitions_security.md R469 to R481; spec/21_host_fabric_bringup.md R489).

A write of DOORBELL puts a request in `pending`; the first call event after the last reply of a round takes every pending request into
the next round, and each call event serves the request at the round's head (R475). Which STATUS stands for an argument that breaks a
limit, where the manual names none, is BAD_ARG (notes/assumptions/38.md).
-/

namespace Sys2Proof.Machine

/-! ### Partitions as the hypervisor's table gives them (20 R457) -/

/-- The entry of a partition. -/
def State.partEntry (s : State) (p : Nat) : W512 := Store.get s.part.entries 0 p
/-- VALID -/
def peValid (e : W512) : Bool := e.getLsbD 63
/-- WORLD -/
def peWorld (e : W512) : Bool := e.getLsbD 62
/-- RESIZING -/
def peResizing (e : W512) : Bool := e.getLsbD 61
/-- CLUMASK -/
def peClu (e : W512) : BitVec 52 := e.extractLsb' 0 52

/-! ### Call windows (20 R472) -/

/-- The number of a call window: 0 the hypervisor's, p + 1 that of partition p. -/
def winNum : CallWin → Nat
  | .hyper => 0
  | .part p => p + 1

/-- A call window. -/
def State.callWin (s : State) (w : CallWin) : CallState := Store.get s.sec.wins CallState.blank (winNum w)
/-- The state with a call window changed. -/
def State.modWin (s : State) (w : CallWin) (f : CallState → CallState) : State :=
  { s with sec := { s.sec with wins := Store.put s.sec.wins CallState.blank (winNum w) (f (s.callWin w)) } }

/-- STATUS values (20 R474). -/
inductive CallStatus where
  | ok | badArg | noKeySlot | denied | quarantined | notFound | badSignature | inUse
  deriving DecidableEq, Repr

/-- The code of a status. -/
def CallStatus.code : CallStatus → Nat
  | .ok => 0 | .badArg => 1 | .noKeySlot => 2 | .denied => 3 | .quarantined => 4 | .notFound => 5 | .badSignature => 6 | .inUse => 7

/-- A reply lands in a window. -/
def CallState.reply (c : CallState) (tag : W16) (st : CallStatus) (r : Nat) : CallState :=
  { c with done := true, status := st.code, rtag := tag, result := BitVec.ofNat 32 r }

/-- The request that a window holds. -/
def CallState.request (c : CallState) (w : CallWin) (hart : Nat) : CallReq :=
  ⟨w, hart, (c.word0.extractLsb' 0 8).toNat, c.word0.extractLsb' 16 16, (List.range 7).map fun k => Store.get c.args 0 k⟩

/-- A request of the window has not been answered. -/
def State.callBusy (s : State) (w : CallWin) : Bool := s.sec.pending.any (·.win == w) || s.sec.round.any (·.win == w)

/-- A request is taken: the security core copies it, and DONE clears. A code that the table of R473 does not list is a call that it
allows to no caller. -/
def State.submitCall (s : State) (w : CallWin) (hart : Nat) : State :=
  let q := (s.callWin w).request w hart
  if 1 ≤ q.call ∧ q.call ≤ 9 then
    let t := s.modWin w fun c => { c with done := false }
    { t with sec := { t.sec with pending := t.sec.pending ++ [q] } }
  else s.modWin w fun c => c.reply q.tag .denied 0

/-- A write of DOORBELL: held while the window's earlier request is unanswered (20 R472). -/
def State.ringCall (s : State) (w : CallWin) (hart : Nat) : State :=
  if s.callBusy w then { s with sec := { s.sec with held := s.sec.held ++ [(w, hart)] } } else s.submitCall w hart

/-- A round in the order of 20 R475: an unlock that a creation must precede comes after the last creation. -/
def roundOrder (l : List CallReq) : List CallReq :=
  match (l.zipIdx.filter fun p => p.1.call == 3).getLast? with
  | none => l
  | some (_, n) => (l.take (n + 1)).filter (fun q => q.call != 9) ++ (l.take (n + 1)).filter (fun q => q.call == 9) ++ l.drop (n + 1)

/-- The requests to be served, in their order: the round under way, or the next. -/
def State.calls (s : State) : List CallReq := if s.sec.round.isEmpty then roundOrder s.sec.pending else s.sec.round

/-- The event that serves a request. -/
def CallReq.event (q : CallReq) : Instr :=
  match q.call with
  | 1 => .worldCreate q.win
  | 2 => .grant q.win
  | 3 => .ctxCreate q.win
  | 4 => .ctxDestroy q.win
  | 5 => .ptWrite q.win
  | 6 => .capMint q.win
  | 7 => .gate q.win
  | 8 => .bind q.win
  | _ => .debugUnlock q.win

/-- What a call answers: its status, RESULT, and the state after it. Only OK changes any state. -/
abbrev CallAns := CallStatus × Nat × State

/-- A refusal of a call. -/
def State.no (s : State) (st : CallStatus) : CallAns := (st, 0, s)

/-- The hypervisor's window. -/
def byHyper (w : CallWin) : Bool := w == .hyper

/-- The partition whose window it is. -/
def winPart : CallWin → Option Nat
  | .hyper => none
  | .part p => some p

/-- Argument k of a request. -/
def CallReq.arg (q : CallReq) (k : Nat) : W64 := (q.args[k]?).getD 0

/-- A call event: the request at the head of the round is answered if it came from the window and has the code; then a held DOORBELL
write of the window is taken. -/
def State.serve (s : State) (w : CallWin) (code : Nat) (f : CallReq → State → CallAns) : State :=
  match s.calls with
  | [] => s
  | q :: rest =>
    if q.win ≠ w ∨ q.call ≠ code then s
    else
      let s1 := if s.sec.round.isEmpty then { s with sec := { s.sec with pending := [], round := rest } } else { s with sec := { s.sec with round := rest } }
      let a := f q s1
      let t := (if a.1 = .ok then a.2.2 else s1).modWin w fun c => c.reply q.tag a.1 a.2.1
      match t.sec.held.find? fun h => h.1 == w with
      | none => t
      | some h => ({ t with sec := { t.sec with held := t.sec.held.erase h } }).submitCall w h.2

/-! ### Worlds, compartments and quarantine -/

/-- The world of a partition. -/
def State.world (s : State) (p : Nat) : World := Store.get s.sec.worlds World.blank p
/-- The state with a world changed. -/
def State.modWorld (s : State) (p : Nat) (f : World → World) : State :=
  { s with sec := { s.sec with worlds := Store.put s.sec.worlds World.blank p (f (s.world p)) } }
/-- The key slot of an open compartment. -/
def World.slot (w : World) (comp : Nat) : Option Nat := match Store.get w.slots 0 comp with | 0 => none | k + 1 => some k

/-- The state with a firewall entry set. -/
def State.setGranule (s : State) (g : Nat) (e : W16) : State := { s with part := { s.part with fw := Store.put s.part.fw 0 g e } }

/-- The number of a granule. -/
def granuleOf (a : Nat) : Nat := a / 0x200000

/-- The granule of an address is sealed and belongs to a partition (20 R463). -/
def State.sealedAt (s : State) (p a : Nat) : Bool :=
  decide (a < deviceTop) && (let e := s.granule a; fwValid e && fwProt e && fwPart e == p && fwCmask e == 0)

/-- The granule of an address belongs to a compartment of a partition. -/
def State.compAt (s : State) (p comp a : Nat) : Bool :=
  decide (a < deviceTop) && (let e := s.granule a; fwValid e && fwProt e && fwPart e == p && (fwCmask e).getLsbD comp)

/-- The granule of an address is quarantined (20 R480). -/
def State.scrubAt (s : State) (a : Nat) : Bool := decide (a < deviceTop) && fwScrub (s.granule a)

/-- A protected context that lives. -/
def Ctx.shielded (c : Ctx) : Bool := c.used && c.prot && c.run != .ended

/-- The physical cores that a protected context holds. -/
def State.heldCoresOf (s : State) (c : Ctx) : List Nat := (List.range c.coreCount).filterMap fun i => s.unit c.part 1 (c.firstCore + i)

/-! ### WORLD_CREATE, GRANT -/

/-- WORLD_CREATE (20 R473) -/
def State.worldCreate (s : State) (q : CallReq) : CallAns :=
  let p := (q.arg 0).toNat
  if !byHyper q.win then s.no .denied
  else if 40 ≤ p then s.no .badArg
  else if !peWorld (s.partEntry p) then s.no .denied
  else if (s.world p).used then s.no .inUse
  else (.ok, 0, s.modWorld p fun _ => ⟨true, q.arg 1, []⟩)

/-- WORLD_CREATE (20 R473) -/
def execWorldCreate (win : CallWin) (s : State) : Host.Outcome State Fault Refusal := .next (s.serve win 1 fun q t => t.worldCreate q)

/-- A range of home memory reads zero, with no poison and no tag. -/
def Mem.zeroRange (m : Mem) (a n : Nat) : Mem :=
  { m with
    home := m.home.filter fun p => !decide (a ≤ p.1 ∧ p.1 < a + n)
    tags := m.tags.filter fun p => !decide (a ≤ 16 * p.1 ∧ 16 * p.1 < a + n)
    poison := m.poison.filter fun p => !decide (a ≤ 32 * p.1 ∧ 32 * p.1 < a + n) }

/-- GRANT (20 R473, R464): the granule's lines leave every cache, it is zeroed, and it becomes protected. -/
def State.grantCall (s : State) (q : CallReq) : CallAns :=
  match winPart q.win with
  | none => s.no .denied
  | some p =>
    let a := (q.arg 0).toNat
    let e := s.granule a
    if !(s.world p).used then s.no .denied
    else if deviceTop ≤ a ∨ a % 0x200000 ≠ 0 then s.no .badArg
    else if fwScrub e then s.no .quarantined
    else if !fwValid e || fwPart e != p || fwProt e then s.no .badArg
    else
      let t := { s with mem := (s.mem.purge a 0x200000).zeroRange a 0x200000 }
      (.ok, 0, t.setGranule (granuleOf a) ((e &&& 0xBF0F#16) ||| 0x4000#16 ||| (((q.arg 1).extractLsb' 0 4).setWidth 16 <<< 4)))

/-- GRANT (20 R473) -/
def execGrant (win : CallWin) (s : State) : Host.Outcome State Fault Refusal := .next (s.serve win 2 fun q t => t.grantCall q)

/-! ### CTX_CREATE -/

/-- The protected context with an ASID in a partition. -/
def State.shieldedCtx (s : State) (p : Nat) (asid : W64) : Option Nat :=
  let k := ctxKey p (asid.extractLsb' 0 16).toNat
  if (s.ctx k).shielded ∧ asid.extractLsb' 16 48 = 0 then some k else none

/-- The free key slots. -/
def State.freeSlots (s : State) : List Nat := (List.range 128).filter fun k => Store.get s.sec.slots 0 k == 0

/-- Some request of CTX_CREATE breaks a limit (20 R473). -/
def State.createBad (s : State) (p : Nat) (q : CallReq) (d : W512) (c : Ctx) : Bool :=
  let first := ((q.arg 2).extractLsb' 0 12).toNat
  let count := ((q.arg 2).extractLsb' 16 8).toNat
  !descOk d || !c.prot || c.part != p || (s.ctx (ctxKey p c.asid)).used && (s.ctx (ctxKey p c.asid)).run != .ended ||
    !s.sealedAt p c.save.toNat || !s.sealedAt p ((c.ptroot.extractLsb' 12 40).toNat * 4096) ||
    decide ((q.arg 3).toNat < 1 ∨ 128 < (q.arg 3).toNat) || (q.arg 4).extractLsb' 0 4 != 0 || !s.sealedAt p (q.arg 4).toNat ||
    !s.sealedAt p ((q.arg 4).toNat + 16 * (q.arg 5).toNat - 1) ||
    decide (4096 < (q.arg 5).toNat) || (q.arg 6).extractLsb' 0 6 != 0 || !s.sealedAt p (q.arg 6).toNat || decide (count = 0) ||
    !((List.range count).all fun i => (s.unit p 1 (first + i)).isSome)

/-- CTX_CREATE (20 R473, R476, R477): the image is checked and copied, and its compartment opened. -/
def State.ctxCreateCall (s : State) (q : CallReq) : CallAns :=
  match winPart q.win with
  | none => s.no .denied
  | some p =>
    let d : W512 := BitVec.ofNat 512 (s.mem.read (q.arg 0).toNat 64)
    let first := ((q.arg 2).extractLsb' 0 12).toNat
    let count := ((q.arg 2).extractLsb' 16 8).toNat
    let comp := ((q.arg 1).extractLsb' 0 2).toNat
    let c : Ctx := { ctxOfDesc Ctx.blank (q.arg 6).toNat d with
      comp := comp, capTab := q.arg 4, capCount := (q.arg 5).toNat, firstCore := first, coreCount := count, allot := (q.arg 3).toNat }
    let k := ctxKey p c.asid
    let cores := s.heldCoresOf { c with part := p }
    if !(s.world p).used then s.no .denied
    else if s.createBad p q d c then s.no .badArg
    else if cores.any s.quarantined || s.scrubAt (q.arg 4).toNat || s.scrubAt (q.arg 6).toNat || s.scrubAt c.save.toNat ||
        s.scrubAt ((c.ptroot.extractLsb' 12 40).toNat * 4096) then s.no .quarantined
    else if cores.any (fun u => (s.onCore u).any fun x => x.ctxKey != k) ||
        s.ctxs.any (fun o => o.2.shielded && (s.heldCoresOf o.2).any cores.contains) then s.no .inUse
    else
      let open' (slot : Nat) (t : State) : CallAns :=
        let u := { t with mem := t.mem.write (q.arg 6).toNat (bytesOf 64 d.toNat) }
        let v := u.modCtx k fun _ => c
        (.ok, c.asid + slot * 65536, { v with sec := { v.sec with unlock := if v.sec.unlock = 1 then 2 else v.sec.unlock } })
      match (s.world p).slot comp with
      | some slot => open' slot s
      | none =>
        match s.freeSlots with
        | [] => s.no .noKeySlot
        | l =>
          let slot := pick s.draws 0 l
          let t := (s.draw).modWorld p fun w => { w with slots := Store.put w.slots 0 comp (slot + 1) }
          open' slot { t with sec := { t.sec with slots := Store.put t.sec.slots 0 slot (4 * p + comp + 1) } }

/-- CTX_CREATE (20 R473) -/
def execCtxCreate (win : CallWin) (s : State) : Host.Outcome State Fault Refusal := .next (s.serve win 3 fun q t => t.ctxCreateCall q)

/-! ### CTX_DESTROY (20 R478) -/

/-- The page tables that a table at a level reaches, itself included. -/
def State.tablesFrom (s : State) (level base : Nat) : List Nat :=
  match level with
  | 0 => [base]
  | n + 1 =>
    base :: (List.range 512).flatMap fun k =>
      let e : W64 := BitVec.ofNat 64 (s.mem.read (base + 8 * k) 8)
      if pteType e = 1 ∧ ¬ pteBad (n + 1) e then s.tablesFrom n (ptePpn e) else []

/-- The sealed granules of a protected context: those that hold its tables, its descriptor, its save area and its capability table. -/
def State.sealedOf (s : State) (c : Ctx) : List Nat :=
  let save := c.saveAt
  let area := (List.range (min (s.mem.read (save + 8) 8) deviceTop / 0x200000 + 2)).filterMap fun k =>
    let a := (save / 0x200000 + k) * 0x200000
    if k = 0 ∨ a < save + s.mem.read (save + 8) 8 then some a else none
  let caps := (List.range (16 * c.capCount / 0x200000 + 2)).filterMap fun k =>
    let a := (c.capTab.toNat / 0x200000 + k) * 0x200000
    if k = 0 ∨ a < c.capTab.toNat + 16 * c.capCount then some a else none
  (((s.tablesFrom 4 ((c.ptroot.extractLsb' 12 40).toNat * 4096) ++ [c.desc] ++ area ++ caps).filter (s.sealedAt c.part)).map granuleOf).dedup

/-- The granules of a partition whose CMASK is exactly one compartment. -/
def State.ownGranules (s : State) (p comp : Nat) : List Nat :=
  (s.part.fw.filter fun e => fwValid e.2 && fwProt e.2 && fwPart e.2 == p && fwCmask e.2 == (1#4 <<< comp)).map Prod.fst

/-- A firewall entry names a compartment of a partition, and others too. -/
def fwShares (p comp : Nat) (e : W16) : Bool :=
  fwValid e && fwProt e && fwPart e == p && (fwCmask e).getLsbD comp && fwCmask e != (1#4 <<< comp)

/-- A compartment's bit leaves the granules that name others too, once their lines have left every cache (20 R464). -/
def State.dropCompartment (s : State) (p comp : Nat) : State :=
  let m := (s.part.fw.filter fun e => fwShares p comp e.2).foldl (fun (m : Mem) e => m.purge (e.1 * 0x200000) 0x200000) s.mem
  { s with mem := m, part := { s.part with fw := s.part.fw.map fun e =>
      (e.1, if fwShares p comp e.2 then e.2 &&& ~~~(0x10#16 <<< comp) else e.2) } }

/-- Everything of a context stops at once: nothing is saved, copies end without a completion write, rays and records are discarded,
replies and verdicts dropped. -/
def State.dropWork (s : State) (key : Nat) : State :=
  let gone (g : Nat) : Bool := (s.group g).ctxKey == key
  let s1 := (s.eng.copies.filter fun p => p.2.used && ctxKey p.2.part p.2.asid == key).foldl (fun (t : State) p => t.unlockCopy p.1) s
  { s1 with
    eng := { s1.eng with
      copies := s1.eng.copies.filter fun p => !(ctxKey p.2.part p.2.asid == key)
      rays := s1.eng.rays.filter fun p => !gone p.2.grp
      texs := s1.eng.texs.filter fun p => !gone p.2.grp
      draws := s1.eng.draws.filter fun p => ctxKey p.2.part p.2.asid != key
      claims := (s1.eng.claims.map fun (p : Nat × List (Nat × Bool)) => (p.1, p.2.filter fun (x : Nat × Bool) => !gone x.1)).filter fun p => !p.2.isEmpty }
    groups := s1.groups.filter fun p => p.2.ctxKey != key
    cohorts := s1.cohorts.filter fun p => !p.2.groups.any gone
    faults := s1.faults.filter fun p => ctxKey p.2.part p.2.asid != key
    work := { s1.work with graphs := s1.work.graphs.filter fun p => p.2.key != key } }

/-- The graphs of a context that ends report it (13 R364), where their status words can still be reached. -/
def State.failGraphs (s : State) (key : Nat) : State :=
  (s.work.graphs.filter fun p => p.2.used && p.2.key == key).foldl (fun (t : State) p =>
    let u := t.modGraph p.1 fun g => g.failed (t.liveNode p.1) 7
    match finishGraph p.1 u with
    | .ok (_, v) => v
    | .error _ => t) s

/-- SCRUB_PROG (20 R479). -/
def scrubProg (state queued total done : Nat) : W64 := BitVec.ofNat 64 (state * 2 ^ 62 + queued % 2 ^ 14 * 2 ^ 48 + total % 2 ^ 24 * 2 ^ 24 + done % 2 ^ 24)

/-- The jobs of a partition. -/
def State.jobsOf (s : State) (p : Nat) : List Job := s.sec.jobs.filter (·.part == p)

/-- A job joins its partition's queue and the retained record. -/
def State.queueJob (s : State) (j : Job) : State :=
  let l := s.jobsOf j.part
  let old := Store.get s.sec.prog 0 j.part
  let prog := match l with
    | [] => scrubProg 1 0 j.total 0
    | _ => (old &&& ~~~(0x3FFF#64 <<< 48)) ||| (BitVec.ofNat 64 l.length <<< 48)
  { s with sec := { s.sec with jobs := s.sec.jobs ++ [j], retained := s.sec.retained ++ [j], prog := Store.put s.sec.prog 0 j.part prog } }

/-- Granules become quarantined. -/
def State.quarantineGranules (s : State) (l : List Nat) : State :=
  l.foldl (fun (t : State) g => t.setGranule g (Store.get t.part.fw 0 g ||| 8#16)) s

/-- The units of a job (20 R479): an L1 or a cluster cache 1, a register file 256, 4 KiB of scratchpad or memory 1. -/
def jobTotal (cores clusters allot granules : Nat) : Nat := cores + clusters + 256 * cores + allot * cores + 512 * granules

/-- The teardown of a protected context (20 R478): the zeroed key slot, if its compartment closes. -/
def State.destroy (s : State) (k : Nat) : Option Nat × State :=
  let c := s.ctx k
  let cores := s.heldCoresOf c
  let clus := (cores.map cluOfCore).dedup
  let sealed' := s.sealedOf c
  let s1 := ((s.failGraphs k).dropWork k).writeStatus k (statusValue 2 7)
  let s2 := s1.modCtx k fun c => { c with run := .ended, savedGroups := [], resumeDue := false }
  let last := !(s2.ctxs.any fun o => o.2.shielded && o.2.part == c.part && o.2.comp == c.comp)
  let slot := if last then (s2.world c.part).slot c.comp else none
  let own := if last then s2.ownGranules c.part c.comp else []
  let s3 := { s2 with sec := { s2.sec with binds := s2.sec.binds.filter fun b => b.2.2 != k } }
  let s4 := if last then
      let t := (s3.dropCompartment c.part c.comp).modWorld c.part fun w => { w with slots := Store.put w.slots 0 c.comp 0 }
      { t with sec := { t.sec with
          slots := match slot with | some n => Store.put t.sec.slots 0 n 0 | none => t.sec.slots
          gates := t.sec.gates.filter fun g =>
            !(g.1 / 16 == c.part && ((capOf g.2.sg true).comp == c.comp || (capOf g.2.dg true).comp == c.comp)) } }
    else s3
  let granules := sortBy (fun (n : Nat) => (n, 0, 0)) (sealed' ++ own).dedup
  let s5 := { s4 with mem := { s4.mem with tlb := s4.mem.tlb.filter fun t => !(t.part == c.part && t.asid == c.asid) } }
  (slot, (s5.quarantineGranules granules).queueJob
    ⟨c.part, c.asid, cores, clus, c.allot, granules, jobTotal cores.length clus.length c.allot granules.length, 0⟩)

/-- The protected contexts that a CTX_DESTROY can name: of the window's partition, or, for the hypervisor, of any. -/
def State.destroyable (s : State) (w : CallWin) (asid : W64) : List Nat :=
  match w with
  | .part p => (s.shieldedCtx p asid).toList
  | .hyper => (List.range 40).filterMap fun p => s.shieldedCtx p asid

/-- CTX_DESTROY (20 R473, R478) -/
def State.ctxDestroyCall (s : State) (q : CallReq) : CallAns :=
  match s.destroyable q.win (q.arg 0) with
  | [] => s.no .notFound
  | l =>
    let r := (s.draw).destroy (pick s.draws 0 l)
    (.ok, r.1.getD 0xFFFFFFFF, r.2)

/-- CTX_DESTROY (20 R478) -/
def execCtxDestroy (win : CallWin) (s : State) : Host.Outcome State Fault Refusal := .next (s.serve win 4 fun q t => t.ctxDestroyCall q)

/-! ### PT_WRITE, CAP_MINT, GATE, BIND -/

/-- A value that no table of a protected context may hold, whatever its level (19 R443, R444; 20 R471). -/
def pteRefused (comp : Nat) (e : W64) : Bool :=
  pteType e == 3 || (pteType e != 0 && pteBad 0 e && pteBad 1 e && pteBad 2 e) ||
    (pteType e == 2 && e.getLsbD 11 && (e.extractLsb' 60 2).toNat != comp)

/-- A change of an entry lowers a permission, or removes or moves a mapping (20 R471). -/
def pteLowers (old new : W64) : Bool :=
  pteType old != 0 &&
    (pteType new != pteType old || ptePpn new != ptePpn old || new.extractLsb' 9 2 != old.extractLsb' 9 2 ||
      new.extractLsb' 52 6 != old.extractLsb' 52 6 || (old.extractLsb' 2 3 &&& ~~~(new.extractLsb' 2 3)) != 0)

/-- The invalidation of an ASID in one step: its dirty lines are written back, its lines and its cached translations go (17 R424). -/
def Mem.invalidateNow (m : Mem) (part asid : Nat) : Mem := (m.flushCtx part asid).invalidate part (some asid)

/-- PT_WRITE (20 R473, R471) -/
def State.ptWriteCall (s : State) (q : CallReq) : CallAns :=
  match winPart q.win with
  | none => s.no .denied
  | some p =>
    match s.shieldedCtx p (q.arg 0) with
    | none => s.no .notFound
    | some k =>
      let c := s.ctx k
      let a := (q.arg 1).toNat
      if a % 8 ≠ 0 ∨ !s.sealedAt p a ∨ pteRefused c.comp (q.arg 2) then s.no .badArg
      else
        let old : W64 := BitVec.ofNat 64 (s.mem.read a 8)
        let m := s.mem.writeNat a 8 (q.arg 2).toNat
        (.ok, 0, { s with mem := if pteLowers old (q.arg 2) then m.invalidateNow p c.asid else m })

/-- PT_WRITE (20 R471) -/
def execPtWrite (win : CallWin) (s : State) : Host.Outcome State Fault Refusal := .next (s.serve win 5 fun q t => t.ptWriteCall q)

/-- CAP_MINT (20 R473, R466, R467) -/
def State.capMintCall (s : State) (q : CallReq) : CallAns :=
  match winPart q.win with
  | none => s.no .denied
  | some p =>
    match s.shieldedCtx p (q.arg 0) with
    | none => s.no .notFound
    | some k =>
      let c := s.ctx k
      let a := (q.arg 1).toNat
      let v : W128 := q.arg 3 ++ q.arg 2
      let inTable := decide (c.capTab.toNat ≤ a ∧ a + 16 ≤ c.capTab.toNat + 16 * c.capCount)
      if a % 16 ≠ 0 ∨ !(s.compAt p c.comp a || (inTable && s.sealedAt p a)) ∨ !(capOf v true).good ∨ (capOf v true).len = 0 ∨
          (capOf v true).comp ≠ c.comp then s.no .badArg
      else
        let m := s.mem.writeNat a 16 v.toNat
        (.ok, 0, { s with mem := { m with tags := Store.put m.tags false (a / 16) true } })

/-- CAP_MINT (20 R473) -/
def execCapMint (win : CallWin) (s : State) : Host.Outcome State Fault Refusal := .next (s.serve win 6 fun q t => t.capMintCall q)

/-- GATE (20 R470, R473) -/
def State.gateCall (s : State) (q : CallReq) : CallAns :=
  match winPart q.win with
  | none => s.no .denied
  | some p =>
    let g := (q.arg 0).toNat
    let sg : W128 := q.arg 3 ++ q.arg 2
    let dg : W128 := q.arg 5 ++ q.arg 4
    let set (y : Gate) : State := { s with sec := { s.sec with gates := Store.put s.sec.gates Gate.blank (16 * p + g) y } }
    if !(s.world p).used then s.no .denied
    else if 16 ≤ g ∨ (q.arg 1 ≠ 0 ∧ q.arg 1 ≠ 1) then s.no .badArg
    else if q.arg 1 = 0 then
      if Store.get s.sec.gates Gate.blank (16 * p + g) = Gate.blank then s.no .notFound else (.ok, 0, set Gate.blank)
    else if !(capOf sg true).good || !(capOf dg true).good || (capOf sg true).comp == (capOf dg true).comp then s.no .badArg
    else (.ok, 0, set ⟨sg, dg⟩)

/-- GATE (20 R470) -/
def execGate (win : CallWin) (s : State) : Host.Outcome State Fault Refusal := .next (s.serve win 7 fun q t => t.gateCall q)

/-- BIND (20 R473): the queue, head or slot acts for the context's compartment until the context ends. -/
def State.bindCall (s : State) (q : CallReq) : CallAns :=
  match winPart q.win with
  | none => s.no .denied
  | some p =>
    match s.shieldedCtx p (q.arg 0) with
    | none => s.no .notFound
    | some k =>
      let f : W16 := (q.arg 1).extractLsb' 0 16
      let kind := placeKind f
      if (q.arg 1).extractLsb' 16 48 ≠ 0 ∨ kind < 4 ∨ 6 < kind then s.no .badArg
      else match s.place p kind f with
        | none => s.no .badArg
        | some u =>
          match s.boundTo kind u with
          | some o => if o = k then (.ok, 0, s) else s.no .inUse
          | none => (.ok, 0, { s with sec := { s.sec with binds := s.sec.binds ++ [(kind, u, k)] } })

/-- BIND (20 R473) -/
def execBind (win : CallWin) (s : State) : Host.Outcome State Fault Refusal := .next (s.serve win 8 fun q t => t.bindCall q)

/-! ### DEBUG_UNLOCK (20 R477; 21 R489) -/

/-- n bytes of home memory, the lowest address first. -/
def Mem.bytesAt (m : Mem) (a n : Nat) : List W8 := (List.range n).map fun k => m.byte (a + k)

/-- The token at an address is accepted. -/
def State.tokenOk (s : State) (a : Nat) : Bool :=
  s.mem.read a 4 == 0x4B4E5544 && s.mem.read (a + 4) 4 == 1 && s.mem.bytesAt (a + 8) 32 == Config.deviceId &&
    s.mem.read (a + 0x28) 8 == s.sec.counter.toNat && s.mem.read (a + 0x30) 16 == 0 && s.mem.read (a + 0xB2) 14 == 0 &&
    Config.ed448 Config.debugKey (s.mem.bytesAt a 0x40) (s.mem.bytesAt (a + 0x40) 114)

/-- DEBUG_UNLOCK (20 R477): full where no protected context exists, else narrow; the retained counter moves on. -/
def State.debugUnlockCall (s : State) (q : CallReq) : CallAns :=
  let a := (q.arg 0).toNat
  let n := if s.ctxs.any fun c => c.2.shielded then 1 else 0
  if !byHyper q.win then s.no .denied
  else if a % 64 ≠ 0 ∨ deviceTop < a + 192 then s.no .badArg
  else if !s.tokenOk a then s.no .badSignature
  else (.ok, n, { s with sec := { s.sec with unlock := n + 1, counter := s.sec.counter + 1 } })

/-- DEBUG_UNLOCK (20 R477) -/
def execDebugUnlock (win : CallWin) (s : State) : Host.Outcome State Fault Refusal := .next (s.serve win 9 fun q t => t.debugUnlockCall q)

/-! ### The scrub engine (20 R479 to R481) -/

/-- The lines of a context leave a cache unwritten. -/
def Mem.eraseLines (m : Mem) (id : CacheId) (part asid : Nat) : Mem :=
  m.setCache id ((m.cache id).filter fun l => !(l.part == part && l.asid == asid))

/-- One unit of a job: a cache, a part of a register file or an allotment (whose contents went with the groups), or 4 KiB of a
granule. -/
def State.scrubOne (s : State) (j : Job) : State :=
  let n := j.done
  let nc := j.cores.length
  let nk := j.clusters.length
  let base := nc + nk + 256 * nc + j.allot * nc
  if n < nc then { s with mem := s.mem.eraseLines (.l1 (j.cores.getD n 0)) j.part j.asid }
  else if n < nc + nk then
    let k := j.clusters.getD (n - nc) 0
    { s with mem := { s.mem.eraseLines (.cc k) j.part j.asid with
      wbq := s.mem.wbq.filter fun w => !(w.cluster == k && w.part == j.part && w.asid == j.asid) } }
  else if n < base then s
  else { s with mem := s.mem.zeroRange (j.granules.getD ((n - base) / 512) 0 * 0x200000 + 4096 * ((n - base) % 512)) 4096 }

/-- A job is complete: its granules are plain again, and the quarantine lifts in one step. -/
def State.finishJob (s : State) (j : Job) : State :=
  let t := j.granules.foldl (fun (t : State) g => t.setGranule g (Store.get t.part.fw 0 g &&& 0xBF07#16)) s
  let same (k : Job) : Bool := k.part == j.part && k.asid == j.asid && k.granules == j.granules && k.cores == j.cores
  let rest := t.sec.jobs.eraseIdx ((t.sec.jobs.findIdx? (·.part == j.part)).getD 0)
  { t with sec := { t.sec with
      jobs := rest
      retained := t.sec.retained.eraseIdx ((t.sec.retained.findIdx? same).getD t.sec.retained.length)
      prog := Store.put t.sec.prog 0 j.part (scrubProg 2 ((rest.filter (·.part == j.part)).length) j.total j.total) } }

/-- SCRUB_UNIT (20 R479): the next unit of the partition's first job; the last one lifts the quarantine. -/
def execScrubUnit (part : Nat) (s : State) : Host.Outcome State Fault Refusal :=
  .next (match s.jobsOf part with
    | [] => s
    | j :: rest =>
      let t := s.scrubOne j
      if j.total ≤ j.done + 1 then t.finishJob j
      else
        let n := (t.sec.jobs.findIdx? (·.part == part)).getD 0
        { t with sec := { t.sec with
            jobs := t.sec.jobs.set n { j with done := j.done + 1 }
            prog := Store.put t.sec.prog 0 part (scrubProg 1 rest.length j.total (j.done + 1)) } })

end Sys2Proof.Machine
end

