-- ==== Sys2Proof/Machine/Partition.lean ====
section
/-!
DEFINITION. The hypervisor window, the partition control window, invalidation, binding and resizing
(spec/20_partitions_security.md R456 to R463; spec/19_translation_places.md R448, R450, R453 to R455; spec/17_privileged_traps.md R424;
spec/21_host_fabric_bringup.md R490).

A window write is taken entry by entry: the bytes it gives replace those of the entry, and the entry as a whole is checked and put in
force (notes/assumptions/39.md).
-/

namespace Sys2Proof.Machine

/-! ### Invalidation (17 R424, 19 R450, R451) -/

/-- An invalidation of the partition is under way: XINV.BUSY. -/
def State.invalBusy (s : State) (part : Nat) : Bool := s.mem.inval.any fun v => v.part == part

/-- The ASID that a value written to XINV names; none for every ASID. -/
def xinvAsid (v : W64) : Option Nat := if v.getLsbD 16 then none else some (v.extractLsb' 0 16).toNat

/-- A write to XINV is taken; an ASID that is not the partition's makes it have no effect. -/
def State.takeXinv (s : State) (part : Nat) (v : W64) : State :=
  match xinvAsid v with
  | none => s.startInval part none true
  | some a => if s.asidKnown part a then s.startInval part (some a) true else s

/-- A write to XINV: held at the window while an invalidation is under way. -/
def State.writeXinv (s : State) (part : Nat) (v : W64) : State :=
  if s.invalBusy part then { s with mem := { s.mem with heldXinv := s.mem.heldXinv ++ [(part, v)] } } else s.takeXinv part v

/-- XINV (19 R450) -/
def execXinv (part : Nat) (value : W64) (s : State) : Host.Outcome State Fault Refusal := .next (s.writeXinv part value)

/-- Step 1 of 17 R424 for an ASID, or for every one. -/
def Mem.flushFor (m : Mem) (part : Nat) (asid : Option Nat) : Mem := m.flushAll fun l => l.part == part && asid.all (· == l.asid)

/-- A warp whose `tinv` of an ASID has completed goes on. -/
def Warp.releaseTinv (w : Warp) (asid : Nat) : Warp :=
  { w with splits := w.splits.map fun x => if x.wait = .tinv asid then { x with wait := .ready } else x }

/-- The splits of a partition that wait for an invalidation of an ASID go on, those in save areas too. -/
def State.releaseTinv (s : State) (part asid : Nat) : State :=
  let one (x : Group) : Group := if x.part = part then x.mapWarps fun _ w => w.releaseTinv asid else x
  { s with
    groups := s.groups.map fun p => (p.1, one p.2)
    ctxs := s.ctxs.map fun p => (p.1, if p.2.part = part then { p.2 with savedGroups := p.2.savedGroups.map fun g => (g.1, one g.2) } else p.2) }

/-- The held write to XINV of a partition is taken once nothing is under way. -/
def State.admitXinv (s : State) (part : Nat) : State :=
  if s.invalBusy part then s
  else match s.mem.heldXinv.find? fun h => h.1 == part with
    | none => s
    | some h => ({ s with mem := { s.mem with heldXinv := s.mem.heldXinv.erase h } }).takeXinv part h.2

/-- INVALIDATION_COMPLETE (17 R424, 19 R450): the write-backs merge; once none is held by a range lock, the lines and the cached
translations go, a split parked by `tinv` goes on, BUSY clears, and a held write is taken. -/
def execInvalidationComplete (part : Nat) (s : State) : Host.Outcome State Fault Refusal :=
  .next (match s.mem.inval.find? fun v => v.part == part with
    | none => s
    | some v =>
      let m := s.mem.flushFor part v.asid
      if m.backsHeld part v.asid then { s with mem := m }
      else
        let n := { m with inval := m.inval.erase v }.invalidate part v.asid
        let t := { s with mem := n }
        let u := match v.asid with
          | some a => if v.xinv || n.inval.any (fun w => w.part == part && w.asid == v.asid && !w.xinv) then t else t.releaseTinv part a
          | none => t
        u.admitXinv part)

/-! ### QBIND (20 R460) -/

/-- A write to QBIND. -/
def State.writeQbind (s : State) (part : Nat) (v : W64) : State :=
  match s.unit part 4 (v.extractLsb' 52 12).toNat with
  | none => s
  | some q =>
    if qKind (s.qdesc q) ≠ 0 ∨ (s.boundTo 4 q).isSome then s
    else { s with part := { s.part with qbind := Store.put s.part.qbind 0 q ((v.extractLsb' 6 46).toNat * 64) } }

/-- QBIND (20 R460) -/
def execQbind (part : Nat) (value : W64) (s : State) : Host.Outcome State Fault Refusal := .next (s.writeQbind part value)

/-! ### Partition entries (20 R457) -/

/-- HEADMASK -/
def peHeads (e : W512) : BitVec 64 := e.extractLsb' 64 64
/-- SLOTMASK -/
def peSlots (e : W512) : BitVec 64 := e.extractLsb' 128 64
/-- CCMASK -/
def peCc (e : W512) : BitVec 36 := e.extractLsb' 192 36
/-- CEMASK -/
def peCe (e : W512) : BitVec 18 := e.extractLsb' 228 18
/-- QCOUNT -/
def peQCount (e : W512) : Nat := (e.extractLsb' 256 13).toNat
/-- QFIRST -/
def peQFirst (e : W512) : Nat := (e.extractLsb' 272 12).toNat
/-- VFFIRST -/
def peVfFirst (e : W512) : Nat := (e.extractLsb' 288 8).toNat
/-- VFCOUNT -/
def peVfCount (e : W512) : Nat := (e.extractLsb' 296 8).toNat

/-- A unit of a place kind lies inside a partition's masks and ranges. -/
def peHas (e : W512) (kind u : Nat) : Bool :=
  match kind with
  | 1 => (peClu e).getLsbD (cluOfCore u)
  | 2 => (peClu e).getLsbD u
  | 3 => (peCe e).getLsbD u
  | 4 => decide (peQFirst e ≤ u ∧ u < peQFirst e + peQCount e)
  | 5 => (peHeads e).getLsbD u
  | 6 => (peSlots e).getLsbD u
  | 7 => (peCc e).getLsbD u
  | _ => false

/-- A virtual function belongs to a partition. -/
def peHasVf (e : W512) (n : Nat) : Bool := decide (peVfFirst e ≤ n ∧ n < peVfFirst e + peVfCount e)

/-- Two ranges share a number. -/
def rangesMeet (a n b m : Nat) : Bool := decide (n ≠ 0 ∧ m ≠ 0 ∧ a < b + m ∧ b < a + n)

/-- Two entries claim a unit, a queue or a function both. -/
def peMeet (e f : W512) : Bool :=
  peClu e &&& peClu f != 0 || peHeads e &&& peHeads f != 0 || peSlots e &&& peSlots f != 0 || peCc e &&& peCc f != 0 ||
    peCe e &&& peCe f != 0 || rangesMeet (peQFirst e) (peQCount e) (peQFirst f) (peQCount f) ||
    rangesMeet (peVfFirst e) (peVfCount e) (peVfFirst f) (peVfCount f)

/-- A field of an entry lies outside its limits, or an RZ bit is set. -/
def peOut (e : W512) : Bool :=
  e.extractLsb' 52 9 != 0 || e.extractLsb' 246 10 != 0 || e.extractLsb' 269 3 != 0 || e.extractLsb' 284 4 != 0 ||
    e.extractLsb' 304 16 != 0 || e.extractLsb' 320 192 != 0 || decide (192 < peVfFirst e + peVfCount e ∨ 4096 < peQCount e ∨
    4096 < peQFirst e + peQCount e)

/-! ### Refused writes (20 R458) -/

/-- The lowest REASON of a list of checks, in the order of the codes. -/
def firstReason (l : List Bool) : Option Nat := (l.findIdx? id).map (· + 1)

/-- A write is refused: HVERR names the first since ERR was cleared. -/
def State.refuseWrite (s : State) (off reason : Nat) : State :=
  if s.part.hverr.getLsbD 63 then s
  else { s with part := { s.part with hverr := BitVec.ofNat 64 (2 ^ 63 + off % 2 ^ 32 * 65536 + reason) } }

/-- A checked write: refused with the lowest reason, or put in force. -/
def State.checked (s : State) (off : Nat) (l : List Bool) (t : State) : State :=
  match firstReason l with
  | some r => s.refuseWrite off r
  | none => t

/-- A write of HVERR clears ERR where its bit 63 is set. -/
def State.writeHverr (s : State) (v : W64) : State :=
  if v.getLsbD 63 then { s with part := { s.part with hverr := s.part.hverr &&& 0x7FFFFFFFFFFFFFFF#64 } } else s

/-- HVERR_CLEAR (20 R458) -/
def execHverrClear (value : W64) (s : State) : Host.Outcome State Fault Refusal := .next (s.writeHverr value)

/-! ### Writing a partition entry (20 R457, R458, R461, R462; 21 R490) -/

/-- The clusters that an entry puts at its partition's disposal. -/
def peLive (e : W512) : BitVec 52 := if peValid e then peClu e else 0

/-- The bits of a mask. -/
def bitsOf {w : Nat} (x : BitVec w) : List Nat := (List.range w).filter fun n => x.getLsbD n

/-- A cluster of a mask stands in a quarantine. -/
def State.anyQuarantined (s : State) (m : BitVec 52) : Bool := s.sec.jobs.any fun j => j.clusters.any fun k => m.getLsbD k

/-- A protected context of a partition holds a unit: a core's cluster of a mask, or a head or slot that is bound. -/
def State.holdsUnits (s : State) (p : Nat) (clus : BitVec 52) (heads slots : BitVec 64) : Bool :=
  (s.ctxs.any fun c => c.2.part == p && c.2.shielded && (s.heldCoresOf c.2).any fun u => clus.getLsbD (cluOfCore u)) ||
    s.sec.binds.any fun b => b.2.2 / 65536 == p && ((b.1 == 5 && heads.getLsbD b.2.1) || (b.1 == 6 && slots.getLsbD b.2.1))

/-- The checks of a write to a partition entry. -/
def State.entryChecks (s : State) (p : Nat) (new : W512) : List Bool :=
  let old := s.partEntry p
  let live (x : BitVec 64) : BitVec 64 := if peValid new then x else 0
  let added := peLive new &&& ~~~peLive old
  [s.part.entries.any fun e => e.1 != p && peValid e.2 && peMeet new e.2,
   s.anyQuarantined added,
   s.holdsUnits p (peLive old &&& ~~~peLive new) (peHeads old &&& ~~~live (peHeads new)) (peSlots old &&& ~~~live (peSlots new)),
   peResizing old,
   peOut new || (s.svcLevel == 2 && added &&& ~~~0xF#52 != 0)]

/-- The place-table entries of a partition that name units outside its entry are cleared. -/
def State.clearPlaces (s : State) (p : Nat) (e : W512) : State :=
  let out (kind : Nat) (x : W32) : Bool := match unitOf kind x with | some u => !peHas e kind u | none => false
  { s with part := { s.part with place := s.part.place.filter fun x =>
      let n := x.1 / 4096
      !(n / 7 == p && decide (2 ≤ n % 7) && out (n % 7 + 1) x.2) } }

/-- Heads and slots that a partition loses stop at their next frame; those it gains start idle (20 R462). -/
def State.moveScreens (s : State) (p : Nat) (old new : W512) : State :=
  let lost (a b : BitVec 64) : List Nat := bitsOf (a &&& ~~~b)
  let s1 := (lost (peHeads old) (peHeads new)).foldl (fun (t : State) u => if t.head u = Head.blank then t else t.modHead u fun h => { h with removed := true }) s
  let s2 := (lost (peSlots old) (peSlots new)).foldl (fun (t : State) u => if t.encSlot u = EncSlot.blank then t else t.modEnc u fun h => { h with removed := true }) s1
  let s3 := (lost (peHeads new) (peHeads old)).foldl (fun (t : State) u => t.modHead u fun _ => { Head.blank with part := p }) s2
  (lost (peSlots new) (peSlots old)).foldl (fun (t : State) u => t.modEnc u fun _ => { EncSlot.blank with part := p }) s3

/-- A partition is created: its tables and registers are at their reset values (19 R450, R453; 20 R459, R460, R472, R479; 21 R484). -/
def State.resetPartition (s : State) (p : Nat) (e : W512) : State :=
  let mine (k : Nat) : Bool := decide (64 * p ≤ k ∧ k < 64 * p + 64)
  let q (k : Nat) : Bool := peHas e 4 k
  { s with
    part := { s.part with
      place := s.part.place.filter fun x => x.1 / 4096 / 7 != p
      mbox := s.part.mbox.filter fun x => !mine x.1
      replies := s.part.replies.filter fun x => !mine x.1
      peers := s.part.peers.filter fun x => !mine x.1
      qtab := s.part.qtab.filter fun x => !q x.1
      qbind := s.part.qbind.filter fun x => !q x.1
      resizing := Store.erase s.part.resizing p }
    work := { s.work with
      heads := s.work.heads.filter fun x => !q (x.1 / 32)
      tails := s.work.tails.filter fun x => !q (x.1 / 32)
      stage := s.work.stage.filter fun x => x.1 / 32 / 4096 != p
      stageOld := s.work.stageOld.filter fun x => x.1 / 32 / 4096 != p
      holds := s.work.holds.filter fun h => h.part != p }
    mem := { s.mem with
      forced := Store.erase s.mem.forced p
      conflict := Store.erase s.mem.conflict p
      inval := s.mem.inval.filter fun v => v.part != p
      heldXinv := s.mem.heldXinv.filter fun v => v.1 != p }
    sec := { s.sec with
      wins := Store.erase s.sec.wins (p + 1)
      prog := if (s.jobsOf p).isEmpty then Store.erase s.sec.prog p else s.sec.prog } }

/-- The contexts of a partition with a group resident on a cluster of a mask. -/
def State.ctxsOn (s : State) (p : Nat) (m : BitVec 52) : List Nat :=
  ((s.groups.filter fun x => x.2.used && x.2.part == p && m.getLsbD x.2.pclu).map fun x => x.2.ctxKey).dedup

/-- Steps 1 and 2 of 20 R461: RESIZING is set, and the contexts on removed clusters are stopped. -/
def State.startResize (s : State) (p : Nat) (removed : BitVec 52) (e : W512) : State :=
  let ks := (s.ctxsOn p removed).filter fun k => (s.ctx k).runs
  let t := ks.foldl (fun (t : State) k => t.stopCtx k true) s
  { t with part := { t.part with
      entries := Store.put t.part.entries 0 p (e ||| (1#512 <<< 61))
      resizing := Store.put t.part.resizing [] p (ks.filter fun k => (t.ctx k).run == .stopping) } }

/-- An entry that has passed its checks is put in force. RESIZING is read-only. -/
def State.setEntry (s : State) (p : Nat) (new : W512) : State :=
  let old := s.partEntry p
  let e := new &&& ~~~(1#512 <<< 61)
  let s1 := if !peValid old && peValid e then s.resetPartition p e else s
  let s2 := (s1.clearPlaces p e).moveScreens p old e
  if peValid old && peValid e && peClu old != peClu e then s2.startResize p (peClu old &&& ~~~peClu e) e
  else { s2 with part := { s2.part with entries := Store.put s2.part.entries 0 p e } }

/-- A write to a partition entry at an offset of the window. -/
def State.writeEntry (s : State) (off p : Nat) (new : W512) : State := s.checked off (s.entryChecks p new) (s.setEntry p new)

/-- PARTITION_RESIZE (20 R461): a write of the entry's first word that changes CLUMASK. -/
def execPartitionResize (part : Nat) (mask : BitVec 52) (s : State) : Host.Outcome State Fault Refusal :=
  .next (if 40 ≤ part then s
    else s.writeEntry (64 * part) part ((s.partEntry part &&& ~~~0xFFFFFFFFFFFFF#512) ||| mask.setWidth 512))

/-- The cluster place table of a resized partition (20 R461 step 3): clusters that remain below the new count keep their index, and the
others fill the free indices in ascending order on both sides. -/
def resizedClusters (old : Nat → Option Nat) (mask : BitVec 52) : List (Nat × Nat) :=
  let n := (bitsOf mask).length
  let kept := (List.range n).filterMap fun k => match old k with | some c => if mask.getLsbD c then some (k, c) else none | none => none
  let rest := (bitsOf mask).filter fun c => !kept.any fun p => p.2 == c
  let free := (List.range n).filter fun k => !kept.any fun p => p.1 == k
  kept ++ free.zip rest

/-- A valid place-table entry. -/
def placeWord (die u : Nat) : W32 := BitVec.ofNat 32 (2 ^ 31 + die * 65536 + u)

/-- The cluster and core tables of a partition, rewritten from its entry. -/
def State.rewritePlaces (s : State) (p : Nat) : State :=
  let l := resizedClusters (fun k => s.unit p 2 k) (peClu (s.partEntry p))
  let gone := s.part.place.filter fun x => !(x.1 / 4096 / 7 == p && decide (x.1 / 4096 % 7 < 2))
  let put (t : Store W32) (kind idx die u : Nat) : Store W32 := Store.put t 0 ((7 * p + kind - 1) * 4096 + idx) (placeWord die u)
  { s with part := { s.part with place := l.foldl (fun t x =>
      let die := x.2 / 13
      let c := x.2 % 13
      (List.range 4).foldl (fun t j => put t 1 (4 * x.1 + j) die (4 * c + j)) (put t 2 x.1 die c)) gone } }

/-- RESIZE_COMPLETE (20 R461): once the stopped contexts are saved, the tables are rewritten, the contexts resume, and RESIZING clears. -/
def execResizeComplete (part : Nat) (s : State) : Host.Outcome State Fault Refusal :=
  .next (
    let ks := Store.get s.part.resizing [] part
    if !peResizing (s.partEntry part) || ks.any fun k => (s.ctx k).run == .stopping then s
    else
      let t := s.rewritePlaces part
      let u := { t with part := { t.part with
        resizing := Store.erase t.part.resizing part
        entries := Store.put t.part.entries 0 part (t.partEntry part &&& ~~~(1#512 <<< 61)) } }
      ks.foldl (fun (t : State) k => if (t.ctx k).run = .saved ∧ (t.ctx k).byDevice then t.resumeCtx k else t) u)

/-! ### Other tables of the hypervisor window -/

/-- The checks of a write to a VF descriptor (19 R448). -/
def State.vfChecks (s : State) (n : Nat) (d : BitVec 256) : List Bool :=
  let p := (d.extractLsb' 90 6).toNat
  [d.getLsbD 83 && s.part.entries.any fun e => e.1 != p && peValid e.2 && peHasVf e.2 n, false, false, false,
   d.extractLsb' 52 12 != 0 || d.extractLsb' 0 12 != 0 || d.extractLsb' 64 19 != 0 || d.extractLsb' 128 128 != 0 || decide (40 ≤ p)]

/-- The unit that a valid place-table entry names, whatever its RZ bits hold. -/
def namedUnit (kind : Nat) (e : W32) : Option Nat := unitOf kind (e &&& 0x8003FFFF#32)

/-- The unit is quarantined: a core, or a cluster with such a core. -/
def State.unitQuarantined (s : State) (kind : Nat) (u : Option Nat) : Bool :=
  match u with
  | none => false
  | some n => s.sec.jobs.any fun j => (kind == 1 && j.cores.contains n) || (kind == 2 && j.clusters.contains n)

/-- The checks of a write to a place-table entry (19 R453). -/
def State.placeChecks (s : State) (p kind idx : Nat) (new : W32) : List Bool :=
  let e := s.partEntry p
  let old := s.placeEntry p kind idx
  let u := namedUnit kind new
  let held := match kind with
    | 1 => s.ctxs.any fun c => c.2.part == p && c.2.holdsCore idx
    | 2 => s.ctxs.any fun c => c.2.part == p && (List.range 4).any fun j => c.2.holdsCore (4 * idx + j)
    | _ => (decide (kind = 5 ∨ kind = 6)) && (match unitOf kind old with | some n => s.boundTo kind n != none | none => false)
  [new.getLsbD 31 && (match u with | some n => !peHas e kind n | none => true),
   old != new && (s.unitQuarantined kind u || s.unitQuarantined kind (unitOf kind old)),
   old != new && held,
   peResizing e,
   new.extractLsb' 18 13 != 0]

/-- The checks of a write to a firewall entry (20 R458, R463; 21 R490). A quarantined granule counts as the quarantine's, not as its
owner's (20 R480, the example of R481). -/
def State.fwChecks (s : State) (g : Nat) (new : W16) : List Bool :=
  let old := Store.get s.part.fw 0 g
  let moved := fwValid new != fwValid old || fwPart new != fwPart old
  let held := fwProt old && s.ctxs.any fun c => c.2.shielded && c.2.part == fwPart old && (fwCmask old == 0 || (fwCmask old).getLsbD c.2.comp)
  [fwValid old && !fwScrub old && peValid (s.partEntry (fwPart old)) && fwValid new && fwPart new != fwPart old,
   fwScrub old && moved,
   held && moved,
   false,
   new.extractLsb' 0 3 != 0 || decide (40 ≤ fwPart new) || (s.svcLevel == 2 && fwValid new && decide (12288 ≤ g)),
   fwProt new || fwProt old]

/-- Bytes that replace those of a value from an offset. -/
def patchBytes {w : Nat} (x : BitVec w) (o : Nat) (l : List W8) : BitVec w :=
  match l with
  | [] => x
  | b :: r => patchBytes ((x &&& ~~~(BitVec.ofNat w 255 <<< (8 * o))) ||| (b.setWidth w <<< (8 * o))) (o + 1) r

/-- A list of bytes cut at the multiples that each offset asks for. -/
def cutWrite (size : Nat → Nat) (fuel off : Nat) (l : List W8) : List (Nat × List W8) :=
  match fuel, l with
  | 0, _ => []
  | _, [] => []
  | k + 1, l =>
    let n := max 1 (size off)
    let room := n - off % n
    (off, l.take room) :: cutWrite size k (off + room) (l.drop room)

/-- A write into a call window (20 R472): TAG and CALL, arguments, or DOORBELL. -/
def State.writeCall (s : State) (w : CallWin) (hart o : Nat) (l : List W8) : State :=
  let k := o / 8
  if k = 0 then s.modWin w fun c => { c with word0 := patchBytes c.word0 (o % 8) l &&& 0x00000000FFFF00FF#64 }
  else if k < 8 then s.modWin w fun c => { c with args := Store.put c.args 0 (k - 1) (patchBytes (Store.get c.args 0 (k - 1)) (o % 8) l) }
  else if k = 8 then s.ringCall w hart
  else s

/-- The size of the entry at an offset of the hypervisor window (20 R456). -/
def hyperSize (o : Nat) : Nat :=
  if o < 0xA00 then 64 else if o < 0x2000 then 8 else if o < 0x2000 + 192 * 32 then 32 else if o < 0x1000000 then 8
  else if o < 0x2000000 then 4 else 2

/-- A write of bytes within one entry of the hypervisor window. -/
def State.hyperPiece (s : State) (o : Nat) (l : List W8) : State :=
  if o < 0xA00 then s.writeEntry o (o / 64) (patchBytes (s.partEntry (o / 64)) (o % 64) l)
  else if o < 0x1000 then s
  else if o < 0x1008 then s.writeHverr (patchBytes 0 (o % 8) l)
  else if 0x2000 ≤ o ∧ o < 0x2000 + 192 * 32 then
    let n := (o - 0x2000) / 32
    let d := patchBytes (Store.get s.part.vf 0 n) (o % 32) l
    s.checked o (s.vfChecks n d) { s with part := { s.part with vf := Store.put s.part.vf 0 n d } }
  else if 0x4000 ≤ o ∧ o < 0x4050 then s.writeCall .hyper 0 (o - 0x4000) l
  else if 0x1000000 ≤ o ∧ o < 0x1000000 + 40 * 0x20000 then
    let p := (o - 0x1000000) / 0x20000
    let kind := (o - 0x1000000) % 0x20000 / 0x4000 + 1
    let idx := (o - 0x1000000) % 0x4000 / 4
    if 7 < kind then s
    else
      let e := patchBytes (s.placeEntry p kind idx) (o % 4) l
      s.checked o (s.placeChecks p kind idx e)
        { s with part := { s.part with place := Store.put s.part.place 0 ((7 * p + kind - 1) * 4096 + idx) e } }
  else if 0x2000000 ≤ o ∧ o < 0x2000000 + 2 * 196608 then
    let g := (o - 0x2000000) / 2
    let old := Store.get s.part.fw 0 g
    let raw := patchBytes (old &&& 0xBF00#16) (o % 2) l
    s.checked o (s.fwChecks g raw) (s.setGranule g ((old &&& 0x40F8#16) ||| (raw &&& 0xBF00#16)))
  else s

/-- A write to the hypervisor window, entry by entry. -/
def State.hyperWrite (s : State) (o : Nat) (l : List W8) : State :=
  (cutWrite hyperSize (l.length + 1) o l).foldl (fun t p => t.hyperPiece p.1 p.2) s

/-! ### The control window (20 R459, R460; 18 R430) -/

/-- A write to CTXCTL. -/
def State.writeCtxctl (s : State) (part : Nat) (v : W64) : State :=
  let k := ctxKey part (v.extractLsb' 0 16).toNat
  match (v.extractLsb' 16 2).toNat with
  | 1 => s.stopCtx k false
  | 2 => s.resumeCtx k
  | _ => s

/-- The size of the entry at an offset of a control window. -/
def ctlSize (o : Nat) : Nat := if 0x40000 ≤ o then 64 else if 0x1000 ≤ o ∧ o < 0x2000 then 16 else 8

/-- A write of bytes within one entry of a partition's control window, by a logical control core. -/
def State.ctlPiece (s : State) (part hart o : Nat) (l : List W8) : State :=
  let word : W64 := patchBytes 0 (o % 8) l
  if o < 0x40 then s
  else if o < 0x48 then s.writeCtxctl part word
  else if o < 0x50 then s.writeXinv part word
  else if o < 0x58 then s.writeQbind part word
  else if 0x1000 ≤ o ∧ o < 0x1400 then
    let k := 64 * part + (o - 0x1000) / 16
    let e := patchBytes (Store.get s.part.mbox 0 k) (o % 16) l &&& 0x800000000000001FFFFFFFFFFFFFFFFF#128
    { s with part := { s.part with mbox := Store.put s.part.mbox 0 k e } }
  else if 0x2000 ≤ o ∧ o < 0x2400 then
    let m := (o - 0x2000) / 16
    if o % 16 < 8 then
      let k := 64 * part + m
      { s with part := { s.part with replies := Store.put s.part.replies 0 k (patchBytes (Store.get s.part.replies 0 k) (o % 8) l) } }
    else s.replyToken part m word
  else if 0x3000 ≤ o ∧ o < 0x3050 then
    if (s.world part).harts.getLsbD hart then s.writeCall (.part part) hart (o - 0x3000) l else s
  else if 0x40000 ≤ o ∧ o < 0x80000 then
    match s.unit part 4 ((o - 0x40000) / 64) with
    | none => s
    | some q => { s with part := { s.part with qtab := Store.put s.part.qtab 0 q (qKeep (patchBytes (s.qdesc q) (o % 64) l)) } }
  else s

/-- A write to a control window, entry by entry. -/
def State.ctlWrite (s : State) (part hart o : Nat) (l : List W8) : State :=
  (cutWrite ctlSize (l.length + 1) o l).foldl (fun t p => t.ctlPiece part hart p.1 p.2) s

/-- A write to an enqueue window (13 R359): the bytes of STAGE; the other fields take no plain write. -/
def State.enqWrite (s : State) (part o : Nat) (l : List W8) : State :=
  (cutWrite (fun _ => 64) (l.length + 1) o l).foldl (fun (t : State) p =>
    if p.1 % 128 < 64 ∧ p.1 < 0x1000000 then
      let k := stageKey part (p.1 / 4096) (p.1 % 4096 / 128)
      let old := Store.get t.work.stage 0 k
      { t with work := { t.work with
        stage := Store.put t.work.stage 0 k (patchBytes old (p.1 % 64) p.2)
        stageOld := Store.put t.work.stageOld [] k (old :: Store.get t.work.stageOld [] k) } }
    else t) s

/-! ### Reads of the windows (00 R7; 13 R359; 20 R456 to R460, R472; 21 R483) -/

/-- Byte o of a value, the lowest first; zero beyond it. -/
def winByte {w : Nat} (x : BitVec w) (o : Nat) : W8 := x.extractLsb' (8 * o) 8

/-- The last word of a call window: DONE, STATUS, RTAG, RESULT. -/
def CallState.replyWord (c : CallState) : W64 :=
  BitVec.ofNat 64 (c.result.toNat + c.rtag.toNat * 2 ^ 32 + c.status % 256 * 2 ^ 48 + if c.done then 2 ^ 63 else 0)

/-- A byte of a call window; DOORBELL reads zero (20 R472). -/
def CallState.byte (c : CallState) (o : Nat) : W8 :=
  let k := o / 8
  winByte (if k = 0 then c.word0 else if k < 8 then Store.get c.args 0 (k - 1) else if k = 9 then c.replyWord else 0) (o % 8)

/-- A byte of the hypervisor window (20 R456). -/
def State.hyperByte (s : State) (o : Nat) : W8 :=
  if o < 0xA00 then winByte (s.partEntry (o / 64)) (o % 64)
  else if 0x1000 ≤ o ∧ o < 0x1008 then winByte s.part.hverr (o % 8)
  else if 0x1100 ≤ o ∧ o < 0x1100 + 8 * 40 then winByte (Store.get s.sec.prog 0 ((o - 0x1100) / 8)) (o % 8)
  else if 0x2000 ≤ o ∧ o < 0x2000 + 192 * 32 then winByte (Store.get s.part.vf 0 ((o - 0x2000) / 32)) (o % 32)
  else if 0x4000 ≤ o ∧ o < 0x4050 then (s.callWin .hyper).byte (o - 0x4000)
  else if 0x1000000 ≤ o ∧ o < 0x1000000 + 40 * 0x20000 then
    let kind := (o - 0x1000000) % 0x20000 / 0x4000 + 1
    if 7 < kind then 0 else winByte (s.placeEntry ((o - 0x1000000) / 0x20000) kind ((o - 0x1000000) % 0x4000 / 4)) (o % 4)
  else if 0x2000000 ≤ o ∧ o < 0x2000000 + 2 * 196608 then winByte (Store.get s.part.fw 0 ((o - 0x2000000) / 2)) (o % 2)
  else 0

/-- A byte of the management window (21 R483); what is written only to act reads zero. -/
def State.mgmtByte (s : State) (o : Nat) : W8 :=
  if o < 8 then winByte s.host.level o
  else if 0x10 ≤ o ∧ o < 0x18 then winByte s.host.ckptAddr (o % 8)
  else if 0x18 ≤ o ∧ o < 0x20 then winByte s.host.ckptStat (o % 8)
  else if 0x20 ≤ o ∧ o < 0x28 then winByte s.host.errsum (o % 8)
  else if 0x1000 ≤ o ∧ o < 0x1000 + 512 * 40 then winByte (Store.get s.part.peers 0 ((o - 0x1000) / 8)) (o % 8)
  else 0

/-- A byte of a partition's control window (20 R459): the memory status block (08 R221) among them. -/
def State.ctlByte (s : State) (p o : Nat) : W8 :=
  if o < 0x40 then winByte (s.partEntry p) o
  else if 0x48 ≤ o ∧ o < 0x50 then winByte (if s.invalBusy p then 0x8000000000000000#64 else 0) (o % 8)
  else if 0x60 ≤ o ∧ o < 0x68 then winByte (Store.get s.mem.conflict 0 p) (o % 8)
  else if 0x68 ≤ o ∧ o < 0x70 then winByte (Store.get s.mem.forced 0 p) (o % 8)
  else if 0x70 ≤ o ∧ o < 0x78 then winByte (Store.get s.sec.prog 0 p) (o % 8)
  else if 0x1000 ≤ o ∧ o < 0x1400 then winByte (s.mbox p ((o - 0x1000) / 16)) (o % 16)
  else if 0x3000 ≤ o ∧ o < 0x3050 then (s.callWin (.part p)).byte (o - 0x3000)
  else if 0x40000 ≤ o ∧ o < 0x80000 then
    match s.unit p 4 ((o - 0x40000) / 64) with
    | none => 0
    | some q => winByte (s.qdesc q) (o % 64)
  else 0

/-- The sum of a counter over the shards of a queue. -/
def State.shardSum (s : State) (q : Nat) (f : Nat → W64) : W64 :=
  (List.range (qNum (s.qdesc q))).foldl (fun n k => n + f k) 0

/-- A byte of a partition's enqueue window (13 R359): STAGE of the area, HEAD and TAIL of the queue. -/
def State.enqByte (s : State) (p o : Nat) : W8 :=
  let a := o % 128
  if 0x1000000 ≤ o then 0
  else if a < 64 then winByte (Store.get s.work.stage 0 (stageKey p (o / 4096) (o % 4096 / 128))) a
  else match s.unit p 4 (o / 4096) with
    | none => 0
    | some q =>
      if 0x48 ≤ a ∧ a < 0x50 then winByte (s.shardSum q (s.qHead q)) (a % 8)
      else if 0x50 ≤ a ∧ a < 0x58 then winByte (s.shardSum q (s.qTail q)) (a % 8)
      else 0

/-- A byte of a window. -/
def State.windowByte (s : State) (w : Window) (o : Nat) : W8 :=
  match w with
  | .hyper => s.hyperByte o
  | .mgmt => s.mgmtByte o
  | .ctl p _ => s.ctlByte p o
  | .enq p => s.enqByte p o

/-- A read of n bytes of a window. -/
def State.windowRead (s : State) (w : Window) (o n : Nat) : Nat :=
  match n with
  | 0 => 0
  | k + 1 => (s.windowByte w o).toNat + 256 * s.windowRead w (o + 1) k

/-- The window that an address of a control core of a partition names, and the offset in it (13 R359, 20 R459). -/
def windowAt (part hart a : Nat) : Option (Window × Nat) :=
  if Config.cwBase + 0x100000 * part ≤ a ∧ a < Config.cwBase + 0x100000 * (part + 1) then
    some (.ctl part hart, a - (Config.cwBase + 0x100000 * part))
  else if Config.enqBase + 0x1000000 * part ≤ a ∧ a < Config.enqBase + 0x1000000 * (part + 1) then
    some (.enq part, a - (Config.enqBase + 0x1000000 * part))
  else none

end Sys2Proof.Machine
end

