-- ==== Sys2Proof/Machine/HostIf.lean ====
section
/-!
DEFINITION. The host and fabric side: boot and SPDM, service levels, window writes, checkpoint and restore, port requests, control-core
accesses, errors and spares, links, power and cooling (spec/21_host_fabric_bringup.md; spec/20_partitions_security.md R464, R465, R481;
spec/08_memory_model.md R217, R230).
-/

namespace Sys2Proof.Machine

/-- The state with its host side changed. -/
def State.modHost (s : State) (f : HostSide → HostSide) : State := { s with host := f s.host }

/-! ### SVCLEVEL (21 R488) -/

/-- A value of SVCLEVEL. -/
def levelWord (dieOk dieFail : BitVec 4) (memGib : BitVec 16) (level : Nat) : W64 :=
  BitVec.ofNat 64 (dieOk.toNat * 2 ^ 28 + dieFail.toNat * 2 ^ 24 + memGib.toNat * 2 ^ 8 + level)

/-- DIEOK -/
def HostSide.dieOk (h : HostSide) : BitVec 4 := h.level.extractLsb' 28 4
/-- DIEFAIL -/
def HostSide.dieFail (h : HostSide) : BitVec 4 := h.level.extractLsb' 24 4
/-- MEMGIB -/
def HostSide.memGib (h : HostSide) : BitVec 16 := h.level.extractLsb' 8 16

/-- REDUCED_SERVICE (21 R490): LEVEL goes from 1 to 2 after a reset; 24 GiB are in service. -/
def execReducedService (s : State) : Host.Outcome State Fault Refusal :=
  .next (if s.svcLevel = 1 ∧ !s.host.cooling then s.modHost fun h => { h with level := levelWord h.dieOk h.dieFail 24 2 } else s)

/-- FULL_SERVICE (21 R491): LEVEL goes from 2 to 3 once each die is in service or has failed. -/
def execFullService (dieOk : BitVec 4) (memGib : BitVec 16) (s : State) : Host.Outcome State Fault Refusal :=
  .next (if s.svcLevel = 2 then s.modHost fun h => { h with level := levelWord dieOk (~~~dieOk) memGib 3 } else s)

/-! ### Boot (21 R486; 20 R481) -/

/-- An image verifies, and its security version is not below the fused minimum. -/
def bootOk (i : BootImage) : Bool :=
  Config.ed448 Config.vendorKey i.bytes i.sig && Config.shake256 Config.vendorKey 64 == Config.vendorKeyHash && decide (i.minVersion ≤ i.version)

/-- The boot ROM works through n images: whether all verify, and the measurements made. -/
def bootRun (n : Nat) (l : List BootImage) (meas : List (List W8)) : Bool × List (List W8) :=
  match n, l with
  | 0, _ => (true, meas)
  | _ + 1, [] => (false, meas)
  | k + 1, i :: r =>
    let m := meas ++ [Config.shake256 i.bytes 64]
    if bootOk i then bootRun k r m else (false, m)

/-- The progress registers of retained jobs after a reset: PENDING, nothing done. -/
def pendingProg (l : List Job) : Store W64 :=
  l.foldl (fun (t : Store W64) j =>
    if Store.get t 0 j.part = 0 then Store.put t 0 j.part (scrubProg 3 ((l.filter (·.part == j.part)).length - 1) j.total 0) else t) []

/-- The machine after a device reset: the retained record, the unlock counter, the boot flash and what lies outside the device stay
(20 R481; 21 R486, R489). -/
def State.afterReset (s : State) : State :=
  let jobs := s.sec.retained.map fun j => { j with done := 0 }
  let kept (g : Nat) : Bool := jobs.any fun j => j.granules.contains g
  let boot := bootRun 4 s.host.flash []
  { State.reset with
    agenda := s.agenda
    draws := s.draws
    rot := s.rot
    time := s.time
    nextTok := s.nextTok
    mem := { Mem.reset with home := s.mem.home, poison := s.mem.poison }
    part := { Part.reset with fw := s.part.fw.filter fun p => kept p.1 }
    sec := { Sec.reset with jobs := jobs, retained := s.sec.retained, counter := s.sec.counter, prog := pendingProg jobs }
    host := { HostSide.reset with
      level := levelWord 0 0 0 (if boot.1 then 1 else 15)
      meas := boot.2
      flash := s.host.flash
      modid := s.host.modid
      hostUp := s.host.hostUp
      peersDown := s.host.peersDown
      spares := s.host.spares
      images := s.host.images } }

/-- DEVICE_RESET (21 R486) -/
def execDeviceReset (s : State) : Host.Outcome State Fault Refusal := .next s.afterReset

/-! ### The SPDM responder (21 R487)

The manual names the messages and the algorithms and leaves the protocol to SPDM 1.3: message codes and the order of the negotiation are
that standard's (PRESUMED, notes/assumptions/40.md); the bytes of a response's body are free, but for the measurements. -/

/-- A response: its code and body. -/
def Spdm.respond (p : Spdm) (code : Nat) (body : List W8) : Spdm :=
  { p with code := code, reply := [0x13, BitVec.ofNat 8 code, 0, 0] ++ body, draw := p.draw + 1 }

/-- The free body of a response. -/
def Spdm.body (p : Spdm) : List W8 := (List.range (Config.spdmBytes p.draw)).map (Config.freeByte p.draw)

/-- The responder answers a request that its progress allows, and an error (UnexpectedRequest) to any other. -/
def State.spdm (s : State) (allowed : Bool) (code : Nat) (head : List W8) (f : Spdm → Spdm) : State :=
  let p := s.host.spdm
  let q := if allowed then f (p.respond code (head ++ p.body)) else { p with code := 0x7F, reply := [0x13, 0x7F, 0x04, 0] }
  s.modHost fun h => { h with spdm := q }

/-- Negotiation is complete. -/
def State.negotiated (s : State) : Bool := s.host.spdm.stage == 3

/-- GET_VERSION (21 R487): negotiation starts anew, and a session ends. -/
def execGetVersion (_msg : List W8) (s : State) : Host.Outcome State Fault Refusal :=
  .next (s.spdm true 0x04 [] fun p => { p with stage := 1, session := 0 })

/-- GET_CAPABILITIES (21 R487) -/
def execGetCapabilities (_msg : List W8) (s : State) : Host.Outcome State Fault Refusal :=
  .next (s.spdm (s.host.spdm.stage == 1) 0x61 [] fun p => { p with stage := 2 })

/-- NEGOTIATE_ALGORITHMS (21 R487) -/
def execNegotiateAlgorithms (_msg : List W8) (s : State) : Host.Outcome State Fault Refusal :=
  .next (s.spdm (s.host.spdm.stage == 2) 0x63 [] fun p => { p with stage := 3 })

/-- GET_DIGESTS (21 R487) -/
def execGetDigests (_msg : List W8) (s : State) : Host.Outcome State Fault Refusal := .next (s.spdm s.negotiated 0x01 [] id)

/-- GET_CERTIFICATE (21 R487) -/
def execGetCertificate (_msg : List W8) (s : State) : Host.Outcome State Fault Refusal := .next (s.spdm s.negotiated 0x02 [] id)

/-- CHALLENGE (21 R487) -/
def execChallenge (_msg : List W8) (s : State) : Host.Outcome State Fault Refusal := .next (s.spdm s.negotiated 0x03 [] id)

/-- GET_MEASUREMENTS (21 R487): the measurements as raw bit streams of the digests of R486. -/
def execGetMeasurements (_msg : List W8) (s : State) : Host.Outcome State Fault Refusal :=
  .next (s.spdm s.negotiated 0x60 s.host.meas.flatten id)

/-- KEY_EXCHANGE (21 R487) -/
def execKeyExchange (_msg : List W8) (s : State) : Host.Outcome State Fault Refusal :=
  .next (s.spdm (s.negotiated && s.host.spdm.session == 0) 0x64 [] fun p => { p with session := 1 })

/-- FINISH (21 R487) -/
def execFinish (_msg : List W8) (s : State) : Host.Outcome State Fault Refusal :=
  .next (s.spdm (s.host.spdm.session == 1) 0x65 [] fun p => { p with session := 2 })

/-- END_SESSION (21 R487) -/
def execEndSession (_msg : List W8) (s : State) : Host.Outcome State Fault Refusal :=
  .next (s.spdm (s.host.spdm.session == 2) 0x6C [] fun p => { p with session := 0 })

/-! ### The checkpoint image (21 R493) -/

/-- A granule in the image: its bytes, then its poison mask. -/
def imageSlot : Nat := 0x202000

/-- The assigned granules, ascending. -/
def assigned (p : Part) : List Nat :=
  ((Store.keys p.fw).filter fun g => decide (g < 196608) && fwValid (Store.get p.fw 0 g)).dedup

/-- The bytes that a granule has in the image, listed: its own, or free ones under the cipher where it is protected. -/
def State.granuleBytes (s : State) (g base : Nat) : Store W8 :=
  let a := g * 0x200000
  if fwProt (Store.get s.part.fw 0 g) then
    ((List.range 0x200000).map fun k => (base + k, Config.freeByte s.draws (a + k))).filter fun p => p.2 != 0
  else ((Store.keys s.mem.home).filter fun b => decide (a ≤ b ∧ b < a + 0x200000)).map fun b => (base + (b - a), s.mem.byte b)

/-- The poison mask of a granule, one bit for each sector. -/
def State.granuleMask (s : State) (g base : Nat) : Store W8 :=
  let first := g * 0x10000
  ((Store.keys s.mem.poison).filter fun n => Store.get s.mem.poison false n && decide (first ≤ n ∧ n < first + 0x10000)).foldl
    (fun (t : Store W8) n =>
      let k := base + (n - first) / 8
      Store.put t 0 k (Store.get t 0 k ||| (1#8 <<< ((n - first) % 8)))) []

/-- The hypervisor window's tables, at the offsets that they have in the window. -/
def tableBytes (p : Part) : List (Nat × List W8) :=
  (p.entries.map fun e => (64 * e.1, bytesOf 64 e.2.toNat)) ++ (p.vf.map fun e => (0x2000 + 32 * e.1, bytesOf 32 e.2.toNat)) ++
    (p.place.map fun e => (0x1000000 + 0x20000 * (e.1 / 4096 / 7) + 0x4000 * (e.1 / 4096 % 7) + 4 * (e.1 % 4096), bytesOf 4 e.2.toNat)) ++
    p.fw.map fun e => (0x2000000 + 2 * e.1, bytesOf 2 e.2.toNat)

/-- The image in host memory from an address: granules, then tables. -/
def State.writeImage (s : State) (base : Nat) : State :=
  let gs := assigned s.part
  let top := base + imageSlot * gs.length
  let granules := gs.zipIdx.flatMap fun p =>
    let a := base + imageSlot * p.2
    s.granuleBytes p.1 a ++ s.granuleMask p.1 (a + 0x200000)
  let home := Store.putAll (s.mem.home.filter fun p => !decide (base ≤ p.1 ∧ p.1 < top + 0x2060000)) 0 granules
  let m := (tableBytes s.part).foldl (fun (m : Mem) t => m.setBytes (top + t.1) t.2) { s.mem with home := home }
  let image : Image := ⟨base, s.part, s.ctxs, s.cohorts, s.eng.copies, s.eng.rays, s.eng.texs⟩
  { s with
    mem := m
    draws := s.draws + 1
    host := { s.host with images := image :: s.host.images.filter fun i => i.base != base } }

/-- CKPTSTAT. -/
def ckptWord (state reason kib : Nat) : W64 := BitVec.ofNat 64 (state * 2 ^ 60 + reason * 2 ^ 52 + kib % 2 ^ 36)

/-- Where the image lies. -/
def State.imageBase (s : State) : Nat := hostBase + s.host.ckptAddr.toNat

/-- The contexts that are running. -/
def State.runningCtxs (s : State) : List Nat := (Store.keys s.ctxs).filter fun k => (s.ctx k).runs

/-- The commands held while the module was checkpointed or cooled down take effect, in their order. -/
def State.releaseHeld (s : State) : State :=
  let ws := s.host.heldWrites
  let rs := s.host.heldResumes
  let t := s.modHost fun h => { h with heldWrites := [], heldResumes := [] }
  rs.foldl State.resumeCtx (ws.foldl (fun t w => t.hyperWrite w.1 w.2) t)

/-- A checkpoint is over: its STATE is written, the contexts that it stopped resume unless they are to be held, and what waited at the
window goes on. -/
def State.endCheckpoint (s : State) (word : W64) : State :=
  let c := s.host.ckpt
  let t := s.modHost fun h => { h with ckptStat := word, ckpt := none }
  let ks := match c with | some c => if c.hold then [] else c.ctxs | none => []
  (ks.foldl (fun (t : State) k => if (t.ctx k).run = .saved ∨ (t.ctx k).run = .stopping then t.resumeCtx k else t) t).releaseHeld

/-- Step 1 of 21 R493 for the contexts that run now; a context whose save area is too small makes the checkpoint fail. -/
def State.stopForCheckpoint (s : State) : State :=
  let ks := s.runningCtxs
  let t := ks.foldl (fun (t : State) k => t.stopCtx k true) s
  let u := t.modHost fun h => { h with ckpt := h.ckpt.map fun c => { c with ctxs := (c.ctxs ++ ks.filter fun k => (t.ctx k).run == .stopping).dedup } }
  if u.runningCtxs.isEmpty then u else u.endCheckpoint (ckptWord 4 2 0)

/-- A checkpoint starts (21 R493). -/
def State.startCheckpoint (s : State) (v : W64) : State :=
  if s.ckptBusy then s
  else (s.modHost fun h => { h with
    ckptStat := ckptWord 1 0 0
    ckpt := some ⟨v.getLsbD 61, (v.extractLsb' 55 6).toNat, v.getLsbD 54, []⟩ }).stopForCheckpoint

/-- CMD of CKPTCTL -/
def ckptCmd (v : W64) : Nat := (v.extractLsb' 62 2).toNat

/-- CHECKPOINT (21 R492, R493): a write of CKPTCTL with CMD 1. -/
def execCheckpoint (ctl : W64) (s : State) : Host.Outcome State Fault Refusal :=
  .next (if ckptCmd ctl = 1 then s.startCheckpoint ctl else s)

/-- CHECKPOINT_COMPLETE (21 R493): with every context saved the copying starts; then the image is written and STATE becomes DONE, or
FAILED where a link is lost or the peer cannot take it. -/
def execCheckpointComplete (s : State) : Host.Outcome State Fault Refusal :=
  .next (
    let n := (assigned s.part).length
    match s.host.ckpt with
    | none => s
    | some c =>
      if s.host.ckptStat.extractLsb' 60 4 == 1 then
        if !s.runningCtxs.isEmpty then s.stopForCheckpoint
        else if (Store.keys s.ctxs).any fun k => (s.ctx k).used && (s.ctx k).run == .stopping then s
        else s.modHost fun h => { h with ckptStat := ckptWord 2 0 0 }
      else if !s.host.hostUp then s.endCheckpoint (ckptWord 4 1 0)
      else if c.peer && s.host.peersDown.getLsbD c.peerMod then s.endCheckpoint (ckptWord 4 3 0)
      else (s.writeImage s.imageBase).endCheckpoint (ckptWord 3 0 (n * 2056 + 4873)))

/-- The bytes of a granule of the image go back. -/
def Mem.restoreGranule (m : Mem) (g src : Nat) : Mem :=
  let a := g * 0x200000
  let bytes := ((Store.keys m.home).filter fun b => decide (src ≤ b ∧ b < src + 0x200000)).map fun b => (a + (b - src), m.byte b)
  let mask := ((Store.keys m.home).filter fun b => decide (src + 0x200000 ≤ b ∧ b < src + imageSlot)).flatMap fun b =>
    (bitsOf (m.byte b)).map fun i => (g * 0x10000 + 8 * (b - src - 0x200000) + i, true)
  { m with
    home := Store.putAll (m.home.filter fun p => !decide (a ≤ p.1 ∧ p.1 < a + 0x200000)) 0 bytes
    poison := Store.putAll (m.poison.filter fun p => !decide (g * 0x10000 ≤ p.1 ∧ p.1 < (g + 1) * 0x10000)) false mask }

/-- The protected granules of a partition after a restore are quarantined and scrubbed. -/
def State.scrubRestored (s : State) (p : Nat) : State :=
  let gs := (s.part.fw.filter fun e => fwValid e.2 && fwProt e.2 && !fwScrub e.2 && fwPart e.2 == p).map Prod.fst
  if gs.isEmpty then s else (s.quarantineGranules gs).queueJob ⟨p, 65536, [], [], 0, gs, 512 * gs.length, 0⟩

/-- A restore (21 R495): accepted while no context is resident and an image lies at CKPTADDR. -/
def State.restore (s : State) : State :=
  let resident := (Store.keys s.ctxs).any fun k => (s.ctx k).used && ((s.ctx k).run == .running || (s.ctx k).run == .stopping)
  match s.host.images.find? fun i => i.base == s.imageBase with
  | none => s
  | some i =>
    if s.ckptBusy || resident then s
    else if !s.host.hostUp then s.modHost fun h => { h with ckptStat := ckptWord 4 1 0 }
    else
      let s0 := ((Store.keys s.ctxs).filter fun k => (s.ctx k).shielded).foldl (fun (t : State) k => (t.destroy k).2) s
      let m := (assigned i.part).zipIdx.foldl (fun (m : Mem) p =>
        if fwProt (Store.get i.part.fw 0 p.1) then m else m.restoreGranule p.1 (i.base + imageSlot * p.2)) s0.mem
      let ctxs := i.ctxs.filter fun c => !(Store.get i.ctxs Ctx.blank c.1).prot
      let top (l : List Nat) (n : Nat) : Nat := l.foldl (fun b k => max b (k + 1)) n
      let s1 := { s0 with
        mem := { Mem.reset with home := m.home, poison := m.poison, forced := m.forced, conflict := m.conflict, stamp := m.stamp }
        part := { s0.part with
          entries := i.part.entries
          vf := i.part.vf
          place := i.part.place
          -- a granule that a job still scrubs stays in its quarantine
          fw := s0.sec.jobs.foldl (fun t j => j.granules.foldl (fun t g => Store.put t 0 g (Store.get s0.part.fw 0 g)) t) i.part.fw }
        ctxs := ctxs
        groups := []
        cohorts := i.cohorts
        eng := { s0.eng with
          copies := i.copies
          rays := i.rays
          texs := i.texs
          nextId := top ((i.copies.map Prod.fst) ++ (i.rays.map Prod.fst) ++ i.texs.map Prod.fst) s0.eng.nextId }
        work := { s0.work with nextGroup := top (ctxs.flatMap fun c => c.2.savedGroups.map Prod.fst) s0.work.nextGroup }
        host := { s0.host with ckptStat := ckptWord 3 0 0 } }
      let s2 := (List.range 40).foldl State.scrubRestored s1
      ((Store.keys ctxs).filter fun k => (s1.ctx k).run == .saved).foldl State.resumeCtx s2

/-- RESTORE (21 R492, R495): a write of CKPTCTL with CMD 2. -/
def execRestore (ctl : W64) (s : State) : Host.Outcome State Fault Refusal := .next (if ckptCmd ctl = 2 then s.restore else s)

/-! ### Window writes (20 R456, R459; 21 R483) -/

/-- A write to the management window (21 R483, R484, R492). -/
def State.mgmtWrite (s : State) (o : Nat) (l : List W8) : State :=
  (cutWrite (fun _ => 8) (l.length + 1) o l).foldl (fun (t : State) p =>
    let o := p.1
    if 8 ≤ o ∧ o < 0x10 then
      let v : W64 := patchBytes 0 (o % 8) p.2
      match ckptCmd v with
      | 1 => t.startCheckpoint v
      | 2 => t.restore
      | _ => t
    else if 0x10 ≤ o ∧ o < 0x18 then t.modHost fun h => { h with ckptAddr := patchBytes h.ckptAddr (o % 8) p.2 &&& ~~~0x1FFFFF#64 }
    else if 0x1000 ≤ o ∧ o < 0x1000 + 512 * 40 then
      let k := (o - 0x1000) / 8
      let e := patchBytes (Store.get t.part.peers 0 k) (o % 8) p.2 &&& 0x800000000003FFC0#64
      { t with part := { t.part with peers := Store.put t.part.peers 0 k e } }
    else t) s

/-- A write to a window, checked and applied; while a checkpoint is under way a write to the hypervisor window is held (21 R493). At LEVEL 15 no
window works (R486). -/
def State.windowWrite (s : State) (win : Window) (offset : Nat) (data : List W8) : State :=
  if s.svcLevel = 15 then s
  else match win with
    | .hyper => if s.ckptBusy then s.modHost fun h => { h with heldWrites := h.heldWrites ++ [(offset, data)] } else s.hyperWrite offset data
    | .mgmt => s.mgmtWrite offset data
    | .ctl p h => if p < 40 then s.ctlWrite p h offset data else s
    | .enq p => if p < 40 then s.enqWrite p offset data else s

/-- REGISTER_WRITE (20 R456 to R463; 21 R483) -/
def execRegisterWrite (win : Window) (offset : Nat) (data : List W8) (s : State) : Host.Outcome State Fault Refusal :=
  .next (s.windowWrite win offset data)

/-! ### Ports and control cores (20 R464; 08 R217, R230) -/

/-- A physical range lies under a range lock; a write heeds source ranges too (08 R230). -/
def State.lockedPhys (s : State) (a n : Nat) (write : Bool) : Bool :=
  s.mem.locks.any fun k =>
    k.scratch.isNone && (k.dest || write) &&
      (pageParts ((k.hi + 1 - k.lo) / 4096 + 2) k.lo (k.hi + 1 - k.lo)).any fun p =>
        match s.physOf (s.ctx (ctxKey k.part k.asid)) p.1 with
        | some q => decide (q < a + n ∧ a < q + p.2)
        | none => false

/-- The partition of a requester: that of its function, or of its peer stream. -/
def State.portPart (s : State) (g : PortAgent) : Option Nat :=
  match g with
  | .fn n => if s.host.hostUp then (s.part.entries.find? fun e => peValid e.2 && peHasVf e.2 n).map Prod.fst else none
  | .peer n p => if !s.host.peersDown.getLsbD n.val && (Store.get s.part.peers 0 (64 * p + n.val)).getLsbD 63 then some p else none

/-- The firewall passes a port request to one granule; a protected one only on a stream keyed from a compartment of its CMASK. -/
def State.portPass (s : State) (p : Nat) (key : Option Nat) (a : Nat) : Bool :=
  let e := s.granule a
  let keyed := match key with
    | some k => (match Store.get s.sec.slots 0 k with
      | 0 => false
      | n + 1 => n / 4 == p && (fwCmask e).getLsbD (n % 4))
    | none => false
  fwValid e && fwPart e == p && !fwScrub e && (!fwProt e || keyed)

/-- Every granule of a range passes. -/
def State.portRange (s : State) (p : Nat) (key : Option Nat) (a n : Nat) : Bool :=
  decide (a + n ≤ deviceTop) && (List.range (n / 0x200000 + 2)).all fun k =>
    let x := if k = 0 then a else (a / 0x200000 + k) * 0x200000
    decide (a + n ≤ x) || s.portPass p key x

/-- The bytes that a request names. -/
def portSize (r : PortReq) : Nat := if r.write then r.data.length else r.size

/-- A port request meets the firewall: a refused read ends with Completer Abort, a refused write is dropped; a poisoned sector is not
returned as data (20 R464; 21 R496). -/
def State.portDo (s : State) (r : PortReq) : State :=
  let n := portSize r
  let ok := match s.portPart r.agent with | some p => s.portRange p r.keySlot r.addr n | none => false
  if r.write then
    if ok then
      let m := s.mem.write r.addr r.data
      { s with mem := { m with rel := m.rel.filter fun x => !decide (r.addr ≤ x.addr ∧ x.addr < r.addr + n) } }
    else s
  else if ok && !s.mem.badRange r.addr n then s.modHost fun h => { h with reply := s.mem.bytesAt r.addr n, replyOk := true }
  else s.modHost fun h => { h with reply := [], replyOk := false }

/-- PORT_REQUEST (20 R464): held while its range is locked (08 R230). -/
def execPortRequest (r : PortReq) (s : State) : Host.Outcome State Fault Refusal :=
  .next (
    let waits := s.host.heldPorts.contains r
    if s.lockedPhys r.addr (portSize r) r.write then
      if waits then s else s.modHost fun h => { h with heldPorts := h.heldPorts ++ [r] }
    else (if waits then s.modHost fun h => { h with heldPorts := h.heldPorts.erase r } else s).portDo r)

/-- What an AMO stores over an old value of w bits. -/
def coreAmo (op : CoreOp) (w : Nat) (old x : BitVec w) : BitVec w :=
  match op with
  | .swap => x
  | .add => old + x
  | .and => old &&& x
  | .or => old ||| x
  | .xor => old ^^^ x
  | .min => if old.slt x then old else x
  | .max => if old.slt x then x else old
  | .minu => if old.ult x then old else x
  | .maxu => if old.ult x then x else old
  | _ => x

/-- The access reads memory, or writes it. -/
def coreReads (op : CoreOp) : Bool := match op with | .store | .sc => false | _ => true
/-- The access writes memory. -/
def coreWrites (op : CoreOp) : Bool := match op with | .load | .lr => false | _ => true

/-- A size that an operation has: any power of two up to 8, and 4 or 8 for the others than loads and stores. -/
def coreSizeOk (a : CoreAccess) : Bool :=
  (match a.op with
    | .load | .store => a.size == 1 || a.size == 2 || a.size == 4 || a.size == 8
    | _ => a.size == 4 || a.size == 8) && a.addr % a.size == 0

/-- The reservation of a hart holds an address. -/
def State.reserves (s : State) (a : CoreAccess) : Bool := Store.get s.mem.rsets 0 (32 * a.part + a.hart) == a.addr / 8 * 8 + 1

/-- A control core's access to a window of its partition (13 R359, R360; 20 R459): a load reads, a store writes, and `amoadd.d` on a doorbell of
the enqueue window enqueues. -/
def State.coreWindow (s : State) (a : CoreAccess) : State :=
  if s.svcLevel = 15 then s
  else match windowAt a.part a.hart a.addr with
    | none => s
    | some (w, o) =>
      match a.op with
      | .load => s.modHost fun h => { h with coreReply := BitVec.ofNat 64 (s.windowRead w o a.size) }
      | .store => s.windowWrite w o (bytesOf a.size a.data.toNat)
      | .add =>
        if w == .enq a.part && o % 128 == 0x40 && a.size == 8 then s.doorbell a.part (o / 4096) (o % 4096 / 128) a.data a.rel else s
      | _ => s

/-- What a control core's read forces to the home slices has not merged, since a lock holds it (08 R215 step 2, R217). -/
def State.coreWaits (s : State) (a : CoreAccess) : Bool :=
  coreReads a.op && decide (a.addr < deviceTop) && (s.mem.coreRead a.addr a.size).waits (s.mem.homeRecords a.addr a.size) 2

/-- A control core's access is performed at the home slice (08 R217): a read makes the write-backs of the release records it meets;
every write breaks the reservation sets that hold it. -/
def State.coreDo (s : State) (a : CoreAccess) : State :=
  let hart := 32 * a.part + a.hart
  if !coreSizeOk a then s
  else if deviceTop ≤ a.addr then s.coreWindow a
  else if !s.fwPass a.part none a.addr then s
  else
    let m0 := if coreReads a.op then s.mem.coreRead a.addr a.size else s.mem
    if coreReads a.op && m0.badRange a.addr a.size then { s with mem := m0 }
    else
      let old := m0.read a.addr a.size
      let put (m : Mem) (v : Nat) : Mem :=
        (m.writeNat a.addr a.size v).noteWrite ⟨a.part, 0, none⟩ a.addr a.size 2 (if a.rel then some 3 else none)
          (coreReads a.op && !a.rel)
      let amo : Nat := (coreAmo a.op (8 * a.size) (BitVec.ofNat (8 * a.size) old) (BitVec.ofNat (8 * a.size) a.data.toNat)).toNat
      let answer (m : Mem) (v : Nat) : State := { s with mem := m, host := { s.host with coreReply := BitVec.ofNat 64 v } }
      match a.op with
      | .load => answer m0 old
      | .lr => answer { m0 with rsets := Store.put m0.rsets 0 hart (a.addr / 8 * 8 + 1) } old
      | .store => { s with mem := put m0 (a.data.toNat % 2 ^ (8 * a.size)) }
      | .sc =>
        let m1 := { m0 with rsets := Store.erase m0.rsets hart }
        if s.reserves a then answer (put m1 (a.data.toNat % 2 ^ (8 * a.size))) 0 else answer m1 1
      | _ => answer (put m0 amo) old

/-- CONTROL_CORE_ACCESS (08 R217): held while its range is locked (R230), and while a lock holds what its read forces. -/
def execControlCoreAccess (a : CoreAccess) (s : State) : Host.Outcome State Fault Refusal :=
  .next (
    let waits := s.host.heldCores.contains a
    if s.lockedPhys a.addr a.size (coreWrites a.op) || s.coreWaits a then
      if waits then s else s.modHost fun h => { h with heldCores := h.heldCores ++ [a] }
    else (if waits then s.modHost fun h => { h with heldCores := h.heldCores.erase a } else s).coreDo a)

/-! ### Links (21 R485, R493) -/

/-- A copy of a checkpoint loses a link that it uses. -/
def State.loseLink (s : State) (uses : Ckpt → Bool) : State :=
  match s.host.ckpt with
  | some c => if s.host.ckptStat.extractLsb' 60 4 == 2 && uses c then s.endCheckpoint (ckptWord 4 1 0) else s
  | none => s

/-- LINK_DOWN (21 R485) -/
def execLinkDown (l : Link) (s : State) : Host.Outcome State Fault Refusal :=
  .next (match l with
    | .host => (s.modHost fun h => { h with hostUp := false }).loseLink fun _ => true
    | .peer n => (s.modHost fun h => { h with peersDown := h.peersDown ||| (1#64 <<< n.val) }).loseLink fun c => c.peer && c.peerMod == n.val)

/-- LINK_UP (21 R485) -/
def execLinkUp (l : Link) (s : State) : Host.Outcome State Fault Refusal :=
  .next (match l with
    | .host => s.modHost fun h => { h with hostUp := true }
    | .peer n => s.modHost fun h => { h with peersDown := h.peersDown &&& ~~~(1#64 <<< n.val) })

/-! ### Errors and spares (21 R496, R498) -/

/-- A count that saturates. -/
def satInc (n : BitVec 32) : BitVec 32 := if n = 0xFFFFFFFF then n else n + 1

/-- ERRSUM after an error: corrected, or not. -/
def errSum (e : W64) (corrected : Bool) : W64 :=
  let c := e.extractLsb' 32 32
  let u := e.extractLsb' 0 32
  if corrected then satInc c ++ u else c ++ satInc u

/-- The corrected errors of a unit. -/
def HostSide.corrOf (h : HostSide) (u : UnitId) : Nat := ((h.corr.find? fun p => p.1 == u).map Prod.snd).getD 0

/-- CORRECTABLE_ERROR (21 R496) -/
def execCorrectableError (u : UnitId) (s : State) : Host.Outcome State Fault Refusal :=
  .next (s.modHost fun h => { h with errsum := errSum h.errsum true, corr := (u, h.corrOf u + 1) :: h.corr.filter fun p => p.1 != u })

/-- The sector at an error's place is poisoned. -/
def State.poisonAt (s : State) (l : ErrLoc) : State :=
  let mark (x : Line) (n : Nat) : Line := { x with poison := x.poison ||| (1#4 <<< n) }
  let cached (id : CacheId) (k n : Nat) : State :=
    match (s.mem.cache id)[k]? with
    | some x => { s with mem := s.mem.setCache id ((s.mem.cache id).set k (mark x n)) }
    | none => s
  match l with
  | .dev a => if a < deviceTop then { s with mem := { s.mem with poison := Store.put s.mem.poison false (a / 32) true } } else s
  | .scratch g o =>
    if (s.group g).used ∧ o < (s.group g).kernel.scratch then s.modGroup g fun x => { x with spoison := Store.put x.spoison false (o / 32) true } else s
  | .l1 c k n => cached (.l1 c) k n
  | .clu c k n => cached (.cc c) k n

/-- UNCORRECTABLE_ERROR (21 R496) -/
def execUncorrectableError (loc : ErrLoc) (u : UnitId) (s : State) : Host.Outcome State Fault Refusal :=
  .next ((s.poisonAt loc).modHost fun h =>
    { h with errsum := errSum h.errsum false, uncorr := if h.uncorr.contains u then h.uncorr else h.uncorr ++ [u] })

/-- SPARE_PROPOSAL (21 R498): more than 1,000 corrected errors, or one that was not. -/
def execSpareProposal (u : UnitId) (s : State) : Host.Outcome State Fault Refusal :=
  .next (if (1000 < s.host.corrOf u ∨ s.host.uncorr.contains u) ∧ !s.host.proposals.contains u
    then s.modHost fun h => { h with proposals := h.proposals ++ [u] } else s)

/-- The contexts with work on a unit are all saved: memory and links serve every context, a control core those of its partition. -/
def State.unitIdle (s : State) (u : UnitId) : Bool :=
  s.ctxs.all fun c => !c.2.used || c.2.run == .saved || c.2.run == .ended ||
    (match u.kind with
      | .controlCore => !peHas (s.partEntry c.2.part) 7 u.num
      | _ => false)

/-- The kinds of unit whose spares firmware brings in; clusters and copy engines come in through the place tables. -/
def firmwareKind (k : UnitKind) : Bool := match k with | .slice | .bank | .controlCore | .lane => true | .cluster | .copyEngine => false

/-- SPARE_BRING_IN (21 R498): the spare takes the unit's place; no address, home slice or figure changes. -/
def execSpareBringIn (u : UnitId) (s : State) : Host.Outcome State Fault Refusal :=
  .next (if firmwareKind u.kind && s.unitIdle u && !s.host.spares.contains u
    then s.modHost fun h => { h with
      spares := h.spares ++ [u]
      proposals := h.proposals.erase u
      corr := h.corr.filter fun p => p.1 != u
      uncorr := h.uncorr.erase u }
    else s)

/-! ### Power and cooling (21 R499; 00 R2) -/

/-- CLOCK_CAP (21 R499): the clock changes time only. -/
def execClockCap (mhz : Nat) (s : State) : Host.Outcome State Fault Refusal :=
  .next (s.modHost fun h => { h with capMhz := some mhz })

/-- CLOCK_CAP_LIFT (00 R2) -/
def execClockCapLift (s : State) : Host.Outcome State Fault Refusal := .next (s.modHost fun h => { h with capMhz := none })

/-- COOLING_FAILURE (21 R499): every context is stopped, and LEVEL reads 1. -/
def execCoolingFailure (s : State) : Host.Outcome State Fault Refusal :=
  .next (
    if s.svcLevel = 15 ∨ s.host.cooling then s
    else
      let t := s.modHost fun h => { h with level := levelWord h.dieOk h.dieFail h.memGib 1, cooling := true }
      t.runningCtxs.foldl (fun (t : State) k => t.stopCtx k true) t)

/-- COOLING_RECOVERY (21 R499): LEVEL goes from 1 to 3; a die that fails its self-test leaves with its 96 GiB (01 R15), and held
resumes take effect. -/
def execCoolingRecovery (fail : BitVec 4) (s : State) : Host.Outcome State Fault Refusal :=
  .next (
    if !s.host.cooling then s
    else
      let lost := (bitsOf (fail &&& ~~~s.host.dieFail)).length
      let t := s.modHost fun h => { h with
        level := levelWord (h.dieOk &&& ~~~fail) (h.dieFail ||| fail) (h.memGib - BitVec.ofNat 16 (96 * lost)) 3
        cooling := false }
      if t.ckptBusy then t else t.releaseHeld)

end Sys2Proof.Machine
end

