-- ==== Sys2Proof/Machine/Integer.lean ====
section
/-!
DEFINITION. The integer and logic forms (spec/06_isa_arithmetic.md R148, R149).
-/

namespace Sys2Proof.Machine

/-! ### Effects on one lane's sources (R149) -/

/-- iadd -/
def opIadd (t : Ty) (sat : Bool) (a b : W64) : W64 × W8 := fitInt t sat (intOf t a + intOf t b)
/-- isub -/
def opIsub (t : Ty) (sat : Bool) (a b : W64) : W64 × W8 := fitInt t sat (intOf t a - intOf t b)
/-- iaddc: sum and carry -/
def opIaddc (a b c : W64) : AluOut :=
  let t := (a.setWidth 32).toNat + (b.setWidth 32).toNat + (c.setWidth 1).toNat
  ⟨(BitVec.ofNat 32 t).setWidth 64, 0, 2 ^ 32 ≤ t⟩
/-- isubb: difference and borrow -/
def opIsubb (a b c : W64) : AluOut :=
  let t : Int := ((a.setWidth 32).toNat : Int) - (b.setWidth 32).toNat - (c.setWidth 1).toNat
  ⟨(BitVec.ofInt 32 t).setWidth 64, 0, t < 0⟩
/-- imul -/
def opImul (t : Ty) (sat : Bool) (a b : W64) : W64 × W8 := fitInt t sat (intOf t a * intOf t b)
/-- imulhi: bits [63:32] of the product -/
def opImulhi (t : Ty) (a b : W64) : W64 := (BitVec.ofInt 64 (intOf t a * intOf t b)) >>> 32
/-- imad -/
def opImad (t : Ty) (sat : Bool) (a b c : W64) : W64 × W8 := fitInt t sat (intOf t a * intOf t b + intOf t c)
/-- imadw: c is a 64-bit addend -/
def opImadw (t : Ty) (a b c : W64) : W64 := BitVec.ofInt 64 (intOf t a * intOf t b) + c
/-- iabs -/
def opIabs (t : Ty) (sat : Bool) (a : W64) : W64 × W8 := fitInt t sat ((intOf t a).natAbs : Int)
/-- ineg -/
def opIneg (t : Ty) (sat : Bool) (a : W64) : W64 × W8 := fitInt t sat (-intOf t a)
/-- imin -/
def opImin (t : Ty) (a b : W64) : W64 := if intOf t a ≤ intOf t b then a.setWidth t.width |>.setWidth 64 else b.setWidth t.width |>.setWidth 64
/-- imax -/
def opImax (t : Ty) (a b : W64) : W64 := if intOf t a ≤ intOf t b then b.setWidth t.width |>.setWidth 64 else a.setWidth t.width |>.setWidth 64
/-- The conditions of icmp: 0 eq, 1 ne, 2 lt, 3 le, 4 gt, 5 ge (R148). -/
def condInt (cc : Nat) (a b : Int) : Bool :=
  match cc with
  | 0 => a == b | 1 => a != b | 2 => decide (a < b) | 3 => decide (a ≤ b) | 4 => decide (b < a) | _ => decide (b ≤ a)
/-- isel -/
def opIsel (c inv : Bool) (a b : W64) : W64 := if c != inv then a else b
/-- tlog: bit a + 2b + 4c of the table -/
def opTlog (tab : W8) (a b c : W32) : W32 :=
  (List.range 32).foldl (fun acc i =>
    if tab.getLsbD ((a.getLsbD i).toNat + 2 * (b.getLsbD i).toNat + 4 * (c.getLsbD i).toNat) then acc ||| (1#32 <<< i)
    else acc) 0
/-- The shift count: the low 5 or 6 bits of a 32-bit source -/
def shiftCount (t : Ty) (b : W64) : Nat := b.toNat % t.width
/-- shl -/
def opShl (t : Ty) (a b : W64) : W64 := ((a.setWidth t.width) <<< shiftCount t b).setWidth 64
/-- shr -/
def opShr (t : Ty) (a b : W64) : W64 := ((a.setWidth t.width) >>> shiftCount t b).setWidth 64
/-- sar -/
def opSar (t : Ty) (a b : W64) : W64 := ((a.setWidth t.width).sshiftRight (shiftCount t b)).setWidth 64
/-- fsh -/
def opFsh (left : Bool) (a b : W32) (c : W64) : W32 :=
  let t : W64 := b ++ a
  let n := c.toNat % 32
  if left then (t <<< n).extractLsb' 32 32 else (t >>> n).setWidth 32
/-- bfe -/
def opBfe (t : Ty) (a : W32) (b : W64) : W32 :=
  let pos := b.toNat % 256
  let len := b.toNat / 256 % 256
  if len = 0 ∨ 31 < pos then 0
  else
    let w := min (pos + len) 32 - pos
    let f := a.extractLsb' pos w
    if t.signed then f.signExtend 32 else f.setWidth 32
/-- bfi -/
def opBfi (a b : W32) (c : W64) : W32 :=
  let pos := c.toNat % 256
  let len := c.toNat / 256 % 256
  if len = 0 ∨ 31 < pos then a
  else
    let m : W32 := ((BitVec.allOnes 32) >>> (32 - (min (pos + len) 32 - pos))) <<< pos
    ((b <<< pos) &&& m) ||| (a &&& ~~~m)
/-- popc -/
def opPopc (t : Ty) (a : W64) : W64 :=
  BitVec.ofNat 64 ((List.range t.width).filter fun i => a.getLsbD i).length
/-- clz -/
def opClz (t : Ty) (a : W64) : W64 :=
  let x := (a.setWidth t.width).toNat
  BitVec.ofNat 64 (if x = 0 then t.width else t.width - 1 - Nat.log2 x)
/-- The low n bits in reverse order. -/
def revBits (n : Nat) (a : W64) : W64 :=
  (List.range n).foldl (fun acc i => if a.getLsbD (n - 1 - i) then acc ||| (1#64 <<< i) else acc) 0
/-- brev -/
def opBrev (t : Ty) (a : W64) : W64 := revBits t.width a
/-- One output byte of bmix under its control byte. -/
def bmixByte (x : W64) (k : W8) : W8 :=
  let y : W8 := x.extractLsb' (8 * (k.setWidth 3).toNat) 8
  let y := if k.getLsbD 5 then (revBits 8 (y.setWidth 64)).setWidth 8 else y
  let y : W8 := if k.getLsbD 4 then (if y.getLsbD 7 then 0xFF else 0) else y
  if k.getLsbD 3 then 0 else y
/-- bmix -/
def opBmix (a b c : W32) : W32 :=
  let x : W64 := b ++ a
  bmixByte x (c.extractLsb' 24 8) ++ bmixByte x (c.extractLsb' 16 8) ++ bmixByte x (c.extractLsb' 8 8) ++
    bmixByte x (c.extractLsb' 0 8)

/-! ### Meanings -/

/-- IADD (06 R149) -/
def execIadd (f : Full) (m : AluMod) (s : State) : Host.Outcome State Fault Refusal :=
  s.issue (.iadd f m) f fun s =>
    s.alu f (wideTy m.ty) none fun l => .of (opIadd m.ty m.sat (s.src f f.a (wideTy m.ty) l) (s.src f f.b (wideTy m.ty) l))

/-- ISUB (06 R149) -/
def execIsub (f : Full) (m : AluMod) (s : State) : Host.Outcome State Fault Refusal :=
  s.issue (.isub f m) f fun s =>
    s.alu f (wideTy m.ty) none fun l => .of (opIsub m.ty m.sat (s.src f f.a (wideTy m.ty) l) (s.src f f.b (wideTy m.ty) l))

/-- IADDC: the carry or borrow goes to predicate MOD[9:7], none where it is 7 (06 R149) -/
def execIaddc (f : Full) (m : AluMod) (s : State) : Host.Outcome State Fault Refusal :=
  s.issue (.iaddc f m) f fun s =>
    s.alu f false (if m.var == 7 then none else some m.var.toNat) fun l => opIaddc (s.src f f.a false l) (s.src f f.b false l) (s.src f f.c false l)

/-- ISUBB: the carry or borrow goes to predicate MOD[9:7], none where it is 7 (06 R149) -/
def execIsubb (f : Full) (m : AluMod) (s : State) : Host.Outcome State Fault Refusal :=
  s.issue (.isubb f m) f fun s =>
    s.alu f false (if m.var == 7 then none else some m.var.toNat) fun l => opIsubb (s.src f f.a false l) (s.src f f.b false l) (s.src f f.c false l)

/-- IMUL (06 R149) -/
def execImul (f : Full) (m : AluMod) (s : State) : Host.Outcome State Fault Refusal :=
  s.issue (.imul f m) f fun s =>
    s.alu f false none fun l => .of (opImul m.ty m.sat (s.src f f.a false l) (s.src f f.b false l))

/-- IMULHI (06 R149) -/
def execImulhi (f : Full) (m : AluMod) (s : State) : Host.Outcome State Fault Refusal :=
  s.issue (.imulhi f m) f fun s =>
    s.alu f false none fun l => .pure (opImulhi m.ty (s.src f f.a false l) (s.src f f.b false l))

/-- IMAD (06 R149) -/
def execImad (f : Full) (m : AluMod) (s : State) : Host.Outcome State Fault Refusal :=
  s.issue (.imad f m) f fun s =>
    s.alu f false none fun l => .of (opImad m.ty m.sat (s.src f f.a false l) (s.src f f.b false l) (s.src f f.c false l))

/-- IMADW (06 R149) -/
def execImadw (f : Full) (m : AluMod) (s : State) : Host.Outcome State Fault Refusal :=
  s.issue (.imadw f m) f fun s =>
    s.alu f true none fun l => .pure (opImadw m.ty (s.src f f.a false l) (s.src f f.b false l) (s.src f f.c true l))

/-- IABS (06 R149) -/
def execIabs (f : Full) (m : AluMod) (s : State) : Host.Outcome State Fault Refusal :=
  s.issue (.iabs f m) f fun s =>
    s.alu f (wideTy m.ty) none fun l => .of (opIabs m.ty m.sat (s.src f f.a (wideTy m.ty) l))

/-- INEG (06 R149) -/
def execIneg (f : Full) (m : AluMod) (s : State) : Host.Outcome State Fault Refusal :=
  s.issue (.ineg f m) f fun s =>
    s.alu f (wideTy m.ty) none fun l => .of (opIneg m.ty m.sat (s.src f f.a (wideTy m.ty) l))

/-- IMIN (06 R149) -/
def execImin (f : Full) (m : AluMod) (s : State) : Host.Outcome State Fault Refusal :=
  s.issue (.imin f m) f fun s =>
    s.alu f (wideTy m.ty) none fun l => .pure (opImin m.ty (s.src f f.a (wideTy m.ty) l) (s.src f f.b (wideTy m.ty) l))

/-- IMAX (06 R149) -/
def execImax (f : Full) (m : AluMod) (s : State) : Host.Outcome State Fault Refusal :=
  s.issue (.imax f m) f fun s =>
    s.alu f (wideTy m.ty) none fun l => .pure (opImax m.ty (s.src f f.a (wideTy m.ty) l) (s.src f f.b (wideTy m.ty) l))

/-- ICMP (06 R149): a predicate result -/
def execIcmp (f : Full) (m : AluMod) (p : Fin 8) (s : State) : Host.Outcome State Fault Refusal :=
  s.issue (.icmp f m p) f fun s =>
    s.alu f (wideTy m.ty) (some p.val) fun l => .ofPred (condInt m.var.toNat (intOf m.ty (s.src f f.a (wideTy m.ty) l)) (intOf m.ty (s.src f f.b (wideTy m.ty) l)), 0)

/-- ISEL (06 R149) -/
def execIsel (f : Full) (m : AluMod) (p : Fin 8) (s : State) : Host.Outcome State Fault Refusal :=
  s.issue (.isel f m p) f fun s =>
    s.alu f (wideTy m.ty) none fun l => .pure (opIsel (s.pred l p.val) (m.var.getLsbD 0) (s.src f f.a (wideTy m.ty) l) (s.src f f.b (wideTy m.ty) l))

/-- AND (06 R149) -/
def execAnd (f : Full) (m : AluMod) (s : State) : Host.Outcome State Fault Refusal :=
  s.issue (.and f m) f fun s =>
    s.alu f (wideTy m.ty) none fun l => .pure ((s.src f f.a (wideTy m.ty) l) &&& (s.src f f.b (wideTy m.ty) l))

/-- OR (06 R149) -/
def execOr (f : Full) (m : AluMod) (s : State) : Host.Outcome State Fault Refusal :=
  s.issue (.or f m) f fun s =>
    s.alu f (wideTy m.ty) none fun l => .pure ((s.src f f.a (wideTy m.ty) l) ||| (s.src f f.b (wideTy m.ty) l))

/-- XOR (06 R149) -/
def execXor (f : Full) (m : AluMod) (s : State) : Host.Outcome State Fault Refusal :=
  s.issue (.xor f m) f fun s =>
    s.alu f (wideTy m.ty) none fun l => .pure ((s.src f f.a (wideTy m.ty) l) ^^^ (s.src f f.b (wideTy m.ty) l))

/-- ANDN (06 R149) -/
def execAndn (f : Full) (m : AluMod) (s : State) : Host.Outcome State Fault Refusal :=
  s.issue (.andn f m) f fun s =>
    s.alu f (wideTy m.ty) none fun l => .pure ((s.src f f.a (wideTy m.ty) l) &&& ~~~(s.src f f.b (wideTy m.ty) l))

/-- TLOG (06 R149) -/
def execTlog (f : Full) (tab : BitVec 8) (s : State) : Host.Outcome State Fault Refusal :=
  s.issue (.tlog f tab) f fun s =>
    s.alu f false none fun l => .pure ((opTlog tab (s.src32 f f.a l) (s.src32 f f.b l) (s.src32 f f.c l)).setWidth 64)

/-- SHL: the count is a 32-bit source (06 R149) -/
def execShl (f : Full) (m : AluMod) (s : State) : Host.Outcome State Fault Refusal :=
  s.issue (.shl f m) f fun s =>
    s.alu f (wideTy m.ty) none fun l => .pure (opShl m.ty (s.src f f.a (wideTy m.ty) l) (s.src f f.b false l))

/-- SHR: the count is a 32-bit source (06 R149) -/
def execShr (f : Full) (m : AluMod) (s : State) : Host.Outcome State Fault Refusal :=
  s.issue (.shr f m) f fun s =>
    s.alu f (wideTy m.ty) none fun l => .pure (opShr m.ty (s.src f f.a (wideTy m.ty) l) (s.src f f.b false l))

/-- SAR: the count is a 32-bit source (06 R149) -/
def execSar (f : Full) (m : AluMod) (s : State) : Host.Outcome State Fault Refusal :=
  s.issue (.sar f m) f fun s =>
    s.alu f (wideTy m.ty) none fun l => .pure (opSar m.ty (s.src f f.a (wideTy m.ty) l) (s.src f f.b false l))

/-- FSH (06 R149) -/
def execFsh (f : Full) (m : AluMod) (s : State) : Host.Outcome State Fault Refusal :=
  s.issue (.fsh f m) f fun s =>
    s.alu f false none fun l => .pure ((opFsh (m.var.getLsbD 0) (s.src32 f f.a l) (s.src32 f f.b l) (s.src f f.c false l)).setWidth 64)

/-- BFE (06 R149) -/
def execBfe (f : Full) (m : AluMod) (s : State) : Host.Outcome State Fault Refusal :=
  s.issue (.bfe f m) f fun s =>
    s.alu f false none fun l => .pure ((opBfe m.ty (s.src32 f f.a l) (s.src f f.b false l)).setWidth 64)

/-- BFI (06 R149) -/
def execBfi (f : Full) (m : AluMod) (s : State) : Host.Outcome State Fault Refusal :=
  s.issue (.bfi f m) f fun s =>
    s.alu f false none fun l => .pure ((opBfi (s.src32 f f.a l) (s.src32 f f.b l) (s.src f f.c false l)).setWidth 64)

/-- POPC (06 R149) -/
def execPopc (f : Full) (m : AluMod) (s : State) : Host.Outcome State Fault Refusal :=
  s.issue (.popc f m) f fun s =>
    s.alu f false none fun l => .pure (opPopc m.ty (s.src f f.a (wideTy m.ty) l))

/-- CLZ (06 R149) -/
def execClz (f : Full) (m : AluMod) (s : State) : Host.Outcome State Fault Refusal :=
  s.issue (.clz f m) f fun s =>
    s.alu f false none fun l => .pure (opClz m.ty (s.src f f.a (wideTy m.ty) l))

/-- BREV (06 R149) -/
def execBrev (f : Full) (m : AluMod) (s : State) : Host.Outcome State Fault Refusal :=
  s.issue (.brev f m) f fun s =>
    s.alu f (wideTy m.ty) none fun l => .pure (opBrev m.ty (s.src f f.a (wideTy m.ty) l))

/-- BMIX (06 R149) -/
def execBmix (f : Full) (m : AluMod) (s : State) : Host.Outcome State Fault Refusal :=
  s.issue (.bmix f m) f fun s =>
    s.alu f false none fun l => .pure ((opBmix (s.src32 f f.a l) (s.src32 f f.b l) (s.src32 f f.c l)).setWidth 64)

end Sys2Proof.Machine
end

