-- ==== Sys2Proof/Machine/Lanes.lean ====
section
/-!
DEFINITION. The cross-lane, quad and predicate forms and `srd` (spec/07_isa_lanes_control.md R168 to R175, R192, R193).

DEDUCED: QPART is raised by any absent neighbour of the issuing lane's quad, used by the form or not (notes/assumptions/21.md).
-/

namespace Sys2Proof.Machine

/-! ### Cross-lane (07 R168 to R172) -/

/-- The lane that `shfl` reads for lane l, and whether it lies in the segment (07 R169). -/
def shflFrom (seg mode l k : Nat) : Nat × Bool :=
  let base := l - l % seg
  match mode with
  | 0 => (base + k % seg, true)
  | 1 => (l - k, decide (k ≤ l - base))
  | 2 => (l + k, decide (l + k < base + seg))
  | _ => (Nat.xor l k, decide (base ≤ Nat.xor l k ∧ Nat.xor l k < base + seg))

/-- SHFL (07 R169) -/
def execShfl (f : Full) (mode : BitVec 2) (seg : BitVec 3) (wide : Bool) (s : State) : Host.Outcome State Fault Refusal :=
  s.issue (.shfl f mode seg wide) f fun s =>
    let n := if seg = 0 then s.curGroup.kernel.width else 2 ^ seg.toNat
    s.alu f wide none fun l =>
      let r := shflFrom n mode.toNat l (s.src32 f f.b l).toNat
      .pure (s.src f f.a wide (if r.2 && s.cur.lanes.getLsbD r.1 then r.1 else l))

/-- What `vote` answers for participants p, of which t hold a true predicate (07 R170). -/
def voteOf (mode : Nat) (p t : Lanes) : Bool :=
  match mode with
  | 0 => t == p
  | 1 => t != 0
  | _ => t == p || t == 0

/-- VOTE (07 R170) -/
def execVote (f : Full) (mode : BitVec 2) (pd pa : Fin 8) (s : State) : Host.Outcome State Fault Refusal :=
  s.issue (.vote f mode pd pa) f fun s =>
    let p := s.gLive f
    let r := voteOf mode.toNat p (laneMask p fun l => s.pred l pa.val)
    s.alu f false (some pd.val) fun _ => ⟨0, 0, r⟩

/-- BALLOT (07 R170) -/
def execBallot (f : Full) (wide : Bool) (pa : Fin 8) (s : State) : Host.Outcome State Fault Refusal :=
  s.issue (.ballot f wide pa) f fun s =>
    let m := laneMask (s.gLive f) fun l => s.pred l pa.val
    s.alu f wide none fun _ => .pure m

/-- MBCNT (07 R170) -/
def execMbcnt (f : Full) (s : State) : Host.Outcome State Fault Refusal :=
  s.issue (.mbcnt f) f fun s =>
    s.alu f false none fun l => .pure (BitVec.ofNat 64 (laneCount (s.src f f.a true l &&& (laneBit l - 1))))

/-- The modifiers of `fadd`, `fmin` and `fmax` as `redux` uses them: RNE, no negation (07 R171). -/
def plainF32 : AluMod := ⟨0, false, .rne, .f32⟩

/-- One step of the fold of `redux` (07 R171). -/
def reduxStep (ftz : Bool) (op : Nat) (ty : Ty) (a b : W32) : W32 × W8 :=
  let fp (r : Nat × W8) : W32 × W8 := (BitVec.ofNat 32 r.1, r.2)
  let less (x y : W32) : Bool := if ty = .i32 then x.slt y else x.ult y
  match ty, op with
  | .f32, 0 => fp (opFadd .f32 ftz plainF32 a.toNat b.toNat)
  | .f32, 1 => fp (opFminmax .f32 ftz false plainF32 a.toNat b.toNat)
  | .f32, _ => fp (opFminmax .f32 ftz true plainF32 a.toNat b.toNat)
  | _, 0 => (a + b, 0)
  | _, 1 => (if less b a then b else a, 0)
  | _, 2 => (if less a b then b else a, 0)
  | _, 3 => (a &&& b, 0)
  | _, 4 => (a ||| b, 0)
  | _, _ => (a ^^^ b, 0)

/-- REDUX (07 R171): the flags of the fold are raised once, and an enabled one traps with all participants in TMASK. -/
def execRedux (f : Full) (op : BitVec 3) (ty : Ty) (s : State) : Host.Outcome State Fault Refusal :=
  s.issue (.redux f op ty) f fun s =>
    let p := laneList (s.gLive f)
    match p.map (s.src32 f f.a) with
    | [] => s.advance
    | x :: xs =>
      let r := xs.foldl (fun (acc : W32 × W8) y =>
        let z := reduxStep s.ftz op.toNat ty acc.1 y
        (z.1, acc.2 ||| z.2)) (x, 0)
      let fl := p.map fun l => (l, r.2)
      match s.flagTrap fl with
      | some t => s.trap t
      | none => ((s.writeDst f.d false true (s.gLanes f) fun _ => r.1.setWidth 64).raise fl).advance

/-- MATCH (07 R172) -/
def execMatchv (f : Full) (all wide : Bool) (s : State) : Host.Outcome State Fault Refusal :=
  s.issue (.matchv f all wide) f fun s =>
    let p := s.gLive f
    let x := s.src f f.a wide
    let same : Bool := (lowLane p).all fun k => (laneList p).all fun l => x l == x k
    s.alu f true none fun l =>
      .pure (if all then (if same then p else 0) else laneMask p fun k => x k == x l)

/-! ### Quads (02 R49, 07 R174) -/

/-- The quad lane j of lane l's quad belongs to the issuing split. -/
def State.quadHas (s : State) (l j : Nat) : Bool := s.cur.lanes.getLsbD (l - l % 4 + j)

/-- The value quad lane j supplies to lane l: its own where lane j is absent (02 R49). -/
def State.quadVal (s : State) (f : Full) (l j : Nat) : W32 :=
  s.src32 f f.a (if s.quadHas l j then l - l % 4 + j else l)

/-- QPART where a neighbour of lane l is absent (02 R49). -/
def State.quadFlag (s : State) (l : Nat) : W8 := flagIf (!([0, 1, 2, 3].all (s.quadHas l))) flagQPART

/-- QSWAP (07 R174) -/
def execQswap (f : Full) (dir : BitVec 2) (s : State) : Host.Outcome State Fault Refusal :=
  s.issue (.qswap f dir) f fun s =>
    s.alu f false none fun l => .of ((s.quadVal f l (Nat.xor (l % 4) dir.toNat)).setWidth 64, s.quadFlag l)

/-- QBCST (07 R174) -/
def execQbcst (f : Full) (k : BitVec 2) (s : State) : Host.Outcome State Fault Refusal :=
  s.issue (.qbcst f k) f fun s =>
    s.alu f false none fun l => .of ((s.quadVal f l k.toNat).setWidth 64, s.quadFlag l)

/-- The difference of two quad lanes under RNE with the flags of `fsub` (07 R174). -/
def State.quadDiff (s : State) (f : Full) (l i j : Nat) : AluOut :=
  let r := opFsub .f32 s.ftz plainF32 (s.quadVal f l i).toNat (s.quadVal f l j).toNat
  ⟨BitVec.ofNat 64 r.1, r.2 ||| s.quadFlag l, false⟩

/-- DPDX (07 R174) -/
def execDpdx (f : Full) (fine : Bool) (s : State) : Host.Outcome State Fault Refusal :=
  s.issue (.dpdx f fine) f fun s =>
    s.alu f false none fun l =>
      if fine then s.quadDiff f l (Nat.lor (l % 4) 1) (Nat.land (l % 4) 2) else s.quadDiff f l 1 0

/-- DPDY (07 R174) -/
def execDpdy (f : Full) (fine : Bool) (s : State) : Host.Outcome State Fault Refusal :=
  s.issue (.dpdy f fine) f fun s =>
    s.alu f false none fun l =>
      if fine then s.quadDiff f l (Nat.lor (l % 4) 2) (Nat.land (l % 4) 1) else s.quadDiff f l 2 0

/-! ### Predicates (07 R175) -/

/-- The operations of `pset` (07 R175). -/
def psetOp (op : Nat) (a b : Bool) : Bool :=
  match op with
  | 0 => a && b
  | 1 => a || b
  | 2 => a != b
  | _ => a && !b

/-- PSET (07 R175) -/
def execPset (f : Full) (op : BitVec 2) (pd pa pb : Fin 8) (s : State) : Host.Outcome State Fault Refusal :=
  s.issue (.pset f op pd pa pb) f fun s =>
    s.alu f false (some pd.val) fun l => ⟨0, 0, psetOp op.toNat (s.pred l pa.val) (s.pred l pb.val)⟩

/-- p0 to p6 of a lane, p0 in bit 0. -/
def State.predByte (s : State) (l : Nat) : W64 :=
  (List.range 7).foldl (fun acc n => if s.pred l n then acc ||| laneBit n else acc) 0

/-- PMOV (07 R175) -/
def execPmov (f : Full) (wr : Bool) (s : State) : Host.Outcome State Fault Refusal :=
  s.issue (.pmov f wr) f fun s =>
    if wr then
      ((List.range 7).foldl (fun t n => t.writePred n (s.gLanes f) fun l => (s.src32 f f.a l).getLsbD n) s).advance
    else s.alu f false none fun l => .pure (s.predByte l)

/-! ### Special registers (07 R192, R193) -/

/-- The value of a special register. -/
def State.specialReg (s : State) (num : Nat) : W64 :=
  match num with
  | 0 => s.fstat.setWidth 64
  | 1 => s.curWarp.wdlimit.setWidth 64
  | 2 => s.cur.lanes
  | 3 => s.curWarp.live
  | 4 => s.curWarp.helper
  | _ => BitVec.ofNat 64 s.curWarp.splits.length

/-- FSTAT after `srd.w` (05 R133): bits [7:0] written as 1 clear their flags, bits [14:8] set the enables. -/
def fstatWrite (old x : W32) : W32 := (old &&& ~~~x &&& 0xFF) ||| (x &&& 0x7F00)

/-- SRD (07 R192) -/
def execSrd (f : Full) (wr : Bool) (num : BitVec 6) (s : State) : Host.Outcome State Fault Refusal :=
  s.issue (.srd f wr num) f fun s =>
    if wr then
      match lowLane (s.gLanes f) with
      | some l => (s.setFstat (fstatWrite s.fstat (s.src32 f f.a l))).advance
      | none => s.advance
    else s.alu f (num.toNat == 2 || num.toNat == 3 || num.toNat == 4) none fun _ => .pure (s.specialReg num.toNat)

end Sys2Proof.Machine
end

