-- ==== Sys2Proof/Machine/Pair.lean ====
section
/-!
DEFINITION. Pair words (spec/04_registers_encoding.md R103 to R105): two halves that issue as one instruction.
-/

namespace Sys2Proof.Machine

/-- The operand of a full word that an 8-bit code names (04 R93). -/
def pairOperand : POperand → Operand
  | .v n => .v ⟨n.val, by omega⟩
  | .o n => .o n
  | .h n => .h n
  | .s n => .s ⟨n.val, by omega⟩
  | .k n => .k n

/-- The full word whose guard a half carries. -/
def halfFull (neg : Bool) (guard : Fin 8) : Full := ⟨neg, guard, none, .null, .null, .null, .null⟩

/-- The modifiers of the full form a half stands for (04 R104). -/
def halfMod (p : PairOp) (r : Rnd) : AluMod :=
  match p with
  | .fadd | .fsub | .fmul | .fmin | .fmax => ⟨0, false, r, .f32⟩
  | .hadd2 | .hmul2 => ⟨0, false, r, .bf16⟩
  | .mov | .iadd | .isub | .and | .or | .xor | .shl | .shr | .sar | .imin | .imax | .movF => ⟨0, false, r, .i32⟩

/-- The result of a half in one lane: the full form with operands D, D, S (04 R104). -/
def State.halfOut (s : State) (p : PairOp) (r : Rnd) (d x : POperand) (l : Nat) : AluOut :=
  let f := halfFull false 7
  let m := halfMod p r
  let a := s.src f (pairOperand d) false l
  let b := s.src f (pairOperand x) false l
  let packed (o : POperand) : W32 := s.srcPacked .bf16 f (pairOperand o) l
  let both (op : Nat → Nat → Nat × W8) : AluOut :=
    let q := bothHalves fun h => op (h (packed d)) (h (packed x))
    ⟨q.1.setWidth 64, q.2, false⟩
  match p with
  | .mov => .pure b
  | .movF => .pure b
  | .iadd => .of (opIadd .i32 false a b)
  | .isub => .of (opIsub .i32 false a b)
  | .and => .pure (a &&& b)
  | .or => .pure (a ||| b)
  | .xor => .pure (a ^^^ b)
  | .shl => .pure (opShl .i32 a b)
  | .shr => .pure (opShr .i32 a b)
  | .sar => .pure (opSar .i32 a b)
  | .imin => .pure (opImin .i32 a b)
  | .imax => .pure (opImax .i32 a b)
  | .fadd => fval (opFadd .f32 s.ftz m a.toNat b.toNat)
  | .fsub => fval (opFsub .f32 s.ftz m a.toNat b.toNat)
  | .fmul => fval (opFmul .f32 s.ftz m a.toNat b.toNat)
  | .fmin => fval (opFminmax .f32 s.ftz false m a.toNat b.toNat)
  | .fmax => fval (opFminmax .f32 s.ftz true m a.toNat b.toNat)
  | .hadd2 => both (opFadd .bf16 false m)
  | .hmul2 => both (opFmul .bf16 false m)

/-- The operands of a half that the kernel must allow. -/
def halfOperands : Half → List Operand
  | .nop => []
  | .op _ _ _ _ d x => [pairOperand d, pairOperand x]

/-- The registers a half accesses in the live lanes its guard selects, for HAZARD (04 R111). DESIGN CHOICE: of S and D the source S is looked at
first, and TINFO0 holds the 10-bit code of the full word's operand (notes/assumptions/12.md). -/
def State.halfHazard (s : State) (h : Half) : Option Trap :=
  match h with
  | .nop => none
  | .op _ _ neg guard d x =>
    s.hazardOf (s.gLive (halfFull neg guard))
      ([pairOperand x, pairOperand d].filterMap fun o => (baseCode o).map fun c => (c, 1))

/-- What a half computes: its destination, its lanes and their results. -/
def State.halfOuts (s : State) (h : Half) : Operand × Lanes × List (Nat × AluOut) :=
  match h with
  | .nop => (.null, 0, [])
  | .op p r neg guard d x =>
    let g := s.gLanes (halfFull neg guard)
    (pairOperand d, g, lanesOut g (s.halfOut p r d x))

/-- Both halves compute from the sources as they were, and both write; no write enters the last-result file (04 R87, R105). -/
def State.pairBody (s : State) (h0 h1 : Half) : State :=
  let x := s.halfOuts h0
  let y := s.halfOuts h1
  let fl := liveFlags s.liveMask x.2.2 ++ liveFlags s.liveMask y.2.2
  match s.flagTrap fl with
  | some t => s.trap t
  | none =>
    let s1 := s.writeDst x.1 false false x.2.1 fun l => (outOf x.2.2 l).val
    let s2 := s1.writeDst y.1 false false y.2.1 fun l => (outOf y.2.2 l).val
    (s2.raise fl).advance

/-- PAIR_WORD (04 R105) -/
def execPairWord (h0 h1 : Half) (s : State) : Host.Outcome State Fault Refusal :=
  if !s.cur.valid then .fault .notIssued
  else if s.cur.strm ≠ .e then .next (s.trap (s.decodeTrap .illegalOpcode 1 0 s.cur.lanes))
  else if !((halfOperands h0 ++ halfOperands h1).all fun o => s.operandOk (halfFull false 7) (.src false false) o) then .next s.reserved
  else
    match s.halfHazard h0, s.halfHazard h1 with
    | some t, _ => .next (s.trap t)
    | none, some t => .next (s.trap t)
    | none, none => .next (s.pairBody h0 h1)

end Sys2Proof.Machine
end

