-- ==== Sys2Proof/Machine/Dispatch.lean ====
section
/-!
DEFINITION. One arm for each constructor of Instr: a direct call of its meaning.
-/

namespace Sys2Proof.Machine

/-- The meaning of an instruction in a state. -/
def exec (i : Instr) (s : State) : Host.Outcome State Fault Refusal :=
  match i with
  | .iadd f m => Sys2Proof.Machine.execIadd f m s
  | .isub f m => Sys2Proof.Machine.execIsub f m s
  | .iaddc f m => Sys2Proof.Machine.execIaddc f m s
  | .isubb f m => Sys2Proof.Machine.execIsubb f m s
  | .imul f m => Sys2Proof.Machine.execImul f m s
  | .imulhi f m => Sys2Proof.Machine.execImulhi f m s
  | .imad f m => Sys2Proof.Machine.execImad f m s
  | .imadw f m => Sys2Proof.Machine.execImadw f m s
  | .iabs f m => Sys2Proof.Machine.execIabs f m s
  | .ineg f m => Sys2Proof.Machine.execIneg f m s
  | .imin f m => Sys2Proof.Machine.execImin f m s
  | .imax f m => Sys2Proof.Machine.execImax f m s
  | .icmp f m p => Sys2Proof.Machine.execIcmp f m p s
  | .isel f m p => Sys2Proof.Machine.execIsel f m p s
  | .and f m => Sys2Proof.Machine.execAnd f m s
  | .or f m => Sys2Proof.Machine.execOr f m s
  | .xor f m => Sys2Proof.Machine.execXor f m s
  | .andn f m => Sys2Proof.Machine.execAndn f m s
  | .tlog f tab => Sys2Proof.Machine.execTlog f tab s
  | .shl f m => Sys2Proof.Machine.execShl f m s
  | .shr f m => Sys2Proof.Machine.execShr f m s
  | .sar f m => Sys2Proof.Machine.execSar f m s
  | .fsh f m => Sys2Proof.Machine.execFsh f m s
  | .bfe f m => Sys2Proof.Machine.execBfe f m s
  | .bfi f m => Sys2Proof.Machine.execBfi f m s
  | .popc f m => Sys2Proof.Machine.execPopc f m s
  | .clz f m => Sys2Proof.Machine.execClz f m s
  | .brev f m => Sys2Proof.Machine.execBrev f m s
  | .bmix f m => Sys2Proof.Machine.execBmix f m s
  | .fadd f m => Sys2Proof.Machine.execFadd f m s
  | .fsub f m => Sys2Proof.Machine.execFsub f m s
  | .fmul f m => Sys2Proof.Machine.execFmul f m s
  | .ffma f m => Sys2Proof.Machine.execFfma f m s
  | .fmin f m => Sys2Proof.Machine.execFmin f m s
  | .fmax f m => Sys2Proof.Machine.execFmax f m s
  | .fcmp f m p => Sys2Proof.Machine.execFcmp f m p s
  | .frnd f m => Sys2Proof.Machine.execFrnd f m s
  | .fclass f m => Sys2Proof.Machine.execFclass f m s
  | .fcpsgn f m => Sys2Proof.Machine.execFcpsgn f m s
  | .hadd2 f m => Sys2Proof.Machine.execHadd2 f m s
  | .hmul2 f m => Sys2Proof.Machine.execHmul2 f m s
  | .hfma2 f m => Sys2Proof.Machine.execHfma2 f m s
  | .hmin2 f m => Sys2Proof.Machine.execHmin2 f m s
  | .hmax2 f m => Sys2Proof.Machine.execHmax2 f m s
  | .frcps f m => Sys2Proof.Machine.execFrcps f m s
  | .frsqs f m => Sys2Proof.Machine.execFrsqs f m s
  | .fexpr f m => Sys2Proof.Machine.execFexpr f m s
  | .fscale f m => Sys2Proof.Machine.execFscale f m s
  | .fgetexp f m => Sys2Proof.Machine.execFgetexp f m s
  | .fgetman f m => Sys2Proof.Machine.execFgetman f m s
  | .flogr f m => Sys2Proof.Machine.execFlogr f m s
  | .fsinr f m => Sys2Proof.Machine.execFsinr f m s
  | .fdivfx f m => Sys2Proof.Machine.execFdivfx f m s
  | .fsqrtfx f m => Sys2Proof.Machine.execFsqrtfx f m s
  | .cvt f m src => Sys2Proof.Machine.execCvt f m src s
  | .pk2 f m => Sys2Proof.Machine.execPk2 f m s
  | .upk2 f m => Sys2Proof.Machine.execUpk2 f m s
  | .pk8 f m => Sys2Proof.Machine.execPk8 f m s
  | .upk8 f m => Sys2Proof.Machine.execUpk8 f m s
  | .pk4 f m => Sys2Proof.Machine.execPk4 f m s
  | .upk4 f m => Sys2Proof.Machine.execUpk4 f m s
  | .mov f m => Sys2Proof.Machine.execMov f m s
  | .pairWord h0 h1 => Sys2Proof.Machine.execPairWord h0 h1 s
  | .shfl f mode seg wide => Sys2Proof.Machine.execShfl f mode seg wide s
  | .vote f mode pd pa => Sys2Proof.Machine.execVote f mode pd pa s
  | .ballot f wide pa => Sys2Proof.Machine.execBallot f wide pa s
  | .mbcnt f => Sys2Proof.Machine.execMbcnt f s
  | .redux f op ty => Sys2Proof.Machine.execRedux f op ty s
  | .matchv f all wide => Sys2Proof.Machine.execMatchv f all wide s
  | .qswap f dir => Sys2Proof.Machine.execQswap f dir s
  | .qbcst f k => Sys2Proof.Machine.execQbcst f k s
  | .dpdx f fine => Sys2Proof.Machine.execDpdx f fine s
  | .dpdy f fine => Sys2Proof.Machine.execDpdy f fine s
  | .wjoin f => Sys2Proof.Machine.execWjoin f s
  | .pset f op pd pa pb => Sys2Proof.Machine.execPset f op pd pa pb s
  | .pmov f wr => Sys2Proof.Machine.execPmov f wr s
  | .br f off => Sys2Proof.Machine.execBr f off s
  | .brall f any off => Sys2Proof.Machine.execBrall f any off s
  | .jmpi f => Sys2Proof.Machine.execJmpi f s
  | .call f off => Sys2Proof.Machine.execCall f off s
  | .calli f => Sys2Proof.Machine.execCalli f s
  | .ret f => Sys2Proof.Machine.execRet f s
  | .exit f => Sys2Proof.Machine.execExit f s
  | .trap f bkpt imm => Sys2Proof.Machine.execTrap f bkpt imm s
  | .upcall f => Sys2Proof.Machine.execUpcall f s
  | .yield f imm => Sys2Proof.Machine.execYield f imm s
  | .wdog f => Sys2Proof.Machine.execWdog f s
  | .rgrp f => Sys2Proof.Machine.execRgrp f s
  | .nop f => Sys2Proof.Machine.execNop f s
  | .barSync f n => Sys2Proof.Machine.execBarSync f n s
  | .barArrive f n => Sys2Proof.Machine.execBarArrive f n s
  | .barWait f n => Sys2Proof.Machine.execBarWait f n s
  | .cbar f mode => Sys2Proof.Machine.execCbar f mode s
  | .srd f wr num => Sys2Proof.Machine.execSrd f wr num s
  | .tret f => Sys2Proof.Machine.execTret f s
  | .swr f wr num => Sys2Proof.Machine.execSwr f wr num s
  | .tinv f => Sys2Proof.Machine.execTinv f s
  | .halt f imm => Sys2Proof.Machine.execHalt f imm s
  | .ld f acc m off => Sys2Proof.Machine.execLd f acc m off s
  | .st f acc m off => Sys2Proof.Machine.execSt f acc m off s
  | .atom f op m off => Sys2Proof.Machine.execAtom f op m off s
  | .red f op m off => Sys2Proof.Machine.execRed f op m off s
  | .fence f order scope => Sys2Proof.Machine.execFence f order scope s
  | .wait f cond wide scope space off => Sys2Proof.Machine.execWait f cond wide scope space off s
  | .pf f hint off => Sys2Proof.Machine.execPf f hint off s
  | .qpop f => Sys2Proof.Machine.execQpop f s
  | .qpeek f => Sys2Proof.Machine.execQpeek f s
  | .qtest f mode pd => Sys2Proof.Machine.execQtest f mode pd s
  | .qback f wide => Sys2Proof.Machine.execQback f wide s
  | .qskip f => Sys2Proof.Machine.execQskip f s
  | .agen f gen field => Sys2Proof.Machine.execAgen f gen field s
  | .aload f gen acc m sel off => Sys2Proof.Machine.execAload f gen acc m sel off s
  | .astore f gen acc m off => Sys2Proof.Machine.execAstore f gen acc m off s
  | .apf f gen hint off => Sys2Proof.Machine.execApf f gen hint off s
  | .aloop f k off => Sys2Proof.Machine.execAloop f k off s
  | .aend f => Sys2Proof.Machine.execAend f s
  | .apop f => Sys2Proof.Machine.execApop f s
  | .abq f z off => Sys2Proof.Machine.execAbq f z off s
  | .aslip f q => Sys2Proof.Machine.execAslip f q s
  | .cpy f space => Sys2Proof.Machine.execCpy f space s
  | .cpy2d f space => Sys2Proof.Machine.execCpy2d f space s
  | .cpyg f space => Sys2Proof.Machine.execCpyg f space s
  | .ccan f => Sys2Proof.Machine.execCcan f s
  | .cstat f => Sys2Proof.Machine.execCstat f s
  | .treserve f => Sys2Proof.Machine.execTreserve f s
  | .tpost f space => Sys2Proof.Machine.execTpost f space s
  | .tdone f => Sys2Proof.Machine.execTdone f s
  | .hqget f => Sys2Proof.Machine.execHqget f s
  | .hqput f space => Sys2Proof.Machine.execHqput f space s
  | .mclaim f both => Sys2Proof.Machine.execMclaim f both s
  | .mrel f => Sys2Proof.Machine.execMrel f s
  | .mfmt f => Sys2Proof.Machine.execMfmt f s
  | .mscl f imm => Sys2Proof.Machine.execMscl f imm s
  | .mwld f arr chi => Sys2Proof.Machine.execMwld f arr chi s
  | .mswap f arr => Sys2Proof.Machine.execMswap f arr s
  | .mact f arr slot => Sys2Proof.Machine.execMact f arr slot s
  | .mzero f arr => Sys2Proof.Machine.execMzero f arr s
  | .mst f arr ty => Sys2Proof.Machine.execMst f arr ty s
  | .mwait f ld cmp st => Sys2Proof.Machine.execMwait f ld cmp st s
  | .mend f => Sys2Proof.Machine.execMend f s
  | .rtbvh f any space => Sys2Proof.Machine.execRtbvh f any space s
  | .rtmesh f mode space => Sys2Proof.Machine.execRtmesh f mode space s
  | .rtloc f space => Sys2Proof.Machine.execRtloc f space s
  | .rtres f space => Sys2Proof.Machine.execRtres f space s
  | .rtsave f => Sys2Proof.Machine.execRtsave f s
  | .tex f n => Sys2Proof.Machine.execTex f n s
  | .texl f n => Sys2Proof.Machine.execTexl f n s
  | .texg f n => Sys2Proof.Machine.execTexg f n s
  | .texq f => Sys2Proof.Machine.execTexq f s
  | .imld f n => Sys2Proof.Machine.execImld f n s
  | .imst f n => Sys2Proof.Machine.execImst f n s
  | .attr f mode => Sys2Proof.Machine.execAttr f mode s
  | .vbw f => Sys2Proof.Machine.execVbw f s
  | .loadResultLand grp wid tag => Sys2Proof.Machine.execLoadResultLand grp wid tag s
  | .queueElementReturn grp wid q seq lane => Sys2Proof.Machine.execQueueElementReturn grp wid q seq lane s
  | .waitRecheck grp wid lane => Sys2Proof.Machine.execWaitRecheck grp wid lane s
  | .writeBackMerge cluster => Sys2Proof.Machine.execWriteBackMerge cluster s
  | .pageWalk part asid vpage => Sys2Proof.Machine.execPageWalk part asid vpage s
  | .watchdogSplits grp wid => Sys2Proof.Machine.execWatchdogSplits grp wid s
  | .decoupleStall grp => Sys2Proof.Machine.execDecoupleStall grp s
  | .waitTimeout grp strm wid lane => Sys2Proof.Machine.execWaitTimeout grp strm wid lane s
  | .warpOverdue grp wid => Sys2Proof.Machine.execWarpOverdue grp wid s
  | .yieldExpiry grp wid lane => Sys2Proof.Machine.execYieldExpiry grp wid lane s
  | .stallHintExpiry grp wid lane => Sys2Proof.Machine.execStallHintExpiry grp wid lane s
  | .trapEntry grp wid => Sys2Proof.Machine.execTrapEntry grp wid s
  | .faultVerdict token verdict => Sys2Proof.Machine.execFaultVerdict token verdict s
  | .faultRecordDeliver token => Sys2Proof.Machine.execFaultRecordDeliver token s
  | .upcallPost grp wid => Sys2Proof.Machine.execUpcallPost grp wid s
  | .replyToken part mbox token => Sys2Proof.Machine.execReplyToken part mbox token s
  | .copyRegistration id => Sys2Proof.Machine.execCopyRegistration id s
  | .copyChunk id => Sys2Proof.Machine.execCopyChunk id s
  | .copyComplete id => Sys2Proof.Machine.execCopyComplete id s
  | .hierarchyStep ray => Sys2Proof.Machine.execHierarchyStep ray s
  | .meshStep ray => Sys2Proof.Machine.execMeshStep ray s
  | .rayEnd ray => Sys2Proof.Machine.execRayEnd ray s
  | .mclaimGrant core => Sys2Proof.Machine.execMclaimGrant core s
  | .mwldComplete grp arr => Sys2Proof.Machine.execMwldComplete grp arr s
  | .mswapExchange grp arr => Sys2Proof.Machine.execMswapExchange grp arr s
  | .matrixBlock grp arr => Sys2Proof.Machine.execMatrixBlock grp arr s
  | .rasterDrawRecord queue => Sys2Proof.Machine.execRasterDrawRecord queue s
  | .rasterTile id => Sys2Proof.Machine.execRasterTile id s
  | .reprojectionRecord queue => Sys2Proof.Machine.execReprojectionRecord queue s
  | .reprojectionTile id => Sys2Proof.Machine.execReprojectionTile id s
  | .recordComplete id => Sys2Proof.Machine.execRecordComplete id s
  | .headFrame head => Sys2Proof.Machine.execHeadFrame head s
  | .encodeFrame slot => Sys2Proof.Machine.execEncodeFrame slot s
  | .layer part asid addr => Sys2Proof.Machine.execLayer part asid addr s
  | .layerOff part asid addr => Sys2Proof.Machine.execLayerOff part asid addr s
  | .frame part asid addr => Sys2Proof.Machine.execFrame part asid addr s
  | .headOff part cmd => Sys2Proof.Machine.execHeadOff part cmd s
  | .encode part asid addr => Sys2Proof.Machine.execEncode part asid addr s
  | .keyNow part cmd => Sys2Proof.Machine.execKeyNow part cmd s
  | .encOff part cmd => Sys2Proof.Machine.execEncOff part cmd s
  | .endList cmd => Sys2Proof.Machine.execEndList cmd s
  | .graphRequest queue => Sys2Proof.Machine.execGraphRequest queue s
  | .groupPlacement part => Sys2Proof.Machine.execGroupPlacement part s
  | .kernelNodeComplete graph node => Sys2Proof.Machine.execKernelNodeComplete graph node s
  | .waitvalSatisfied graph node => Sys2Proof.Machine.execWaitvalSatisfied graph node s
  | .taskLaunch queue shard => Sys2Proof.Machine.execTaskLaunch queue shard s
  | .taskNodeComplete graph node => Sys2Proof.Machine.execTaskNodeComplete graph node s
  | .treserveGrant grp wid lane => Sys2Proof.Machine.execTreserveGrant grp wid lane s
  | .hqputHoldRelease grp wid lane => Sys2Proof.Machine.execHqputHoldRelease grp wid lane s
  | .doorbell part queue hart addend fenced => Sys2Proof.Machine.execDoorbell part queue hart addend fenced s
  | .enqueueHoldRelease part queue hart => Sys2Proof.Machine.execEnqueueHoldRelease part queue hart s
  | .enqueueHoldTimeout part queue hart => Sys2Proof.Machine.execEnqueueHoldTimeout part queue hart s
  | .stop part asid => Sys2Proof.Machine.execStop part asid s
  | .contextSave part asid => Sys2Proof.Machine.execContextSave part asid s
  | .resume part asid => Sys2Proof.Machine.execResume part asid s
  | .xinv part value => Sys2Proof.Machine.execXinv part value s
  | .invalidationComplete part => Sys2Proof.Machine.execInvalidationComplete part s
  | .qbind part value => Sys2Proof.Machine.execQbind part value s
  | .partitionResize part mask => Sys2Proof.Machine.execPartitionResize part mask s
  | .resizeComplete part => Sys2Proof.Machine.execResizeComplete part s
  | .hverrClear value => Sys2Proof.Machine.execHverrClear value s
  | .registerWrite win offset data => Sys2Proof.Machine.execRegisterWrite win offset data s
  | .worldCreate win => Sys2Proof.Machine.execWorldCreate win s
  | .grant win => Sys2Proof.Machine.execGrant win s
  | .ctxCreate win => Sys2Proof.Machine.execCtxCreate win s
  | .ctxDestroy win => Sys2Proof.Machine.execCtxDestroy win s
  | .ptWrite win => Sys2Proof.Machine.execPtWrite win s
  | .capMint win => Sys2Proof.Machine.execCapMint win s
  | .gate win => Sys2Proof.Machine.execGate win s
  | .bind win => Sys2Proof.Machine.execBind win s
  | .debugUnlock win => Sys2Proof.Machine.execDebugUnlock win s
  | .scrubUnit part => Sys2Proof.Machine.execScrubUnit part s
  | .checkpoint ctl => Sys2Proof.Machine.execCheckpoint ctl s
  | .restore ctl => Sys2Proof.Machine.execRestore ctl s
  | .getVersion msg => Sys2Proof.Machine.execGetVersion msg s
  | .getCapabilities msg => Sys2Proof.Machine.execGetCapabilities msg s
  | .negotiateAlgorithms msg => Sys2Proof.Machine.execNegotiateAlgorithms msg s
  | .getDigests msg => Sys2Proof.Machine.execGetDigests msg s
  | .getCertificate msg => Sys2Proof.Machine.execGetCertificate msg s
  | .challenge msg => Sys2Proof.Machine.execChallenge msg s
  | .getMeasurements msg => Sys2Proof.Machine.execGetMeasurements msg s
  | .keyExchange msg => Sys2Proof.Machine.execKeyExchange msg s
  | .finish msg => Sys2Proof.Machine.execFinish msg s
  | .endSession msg => Sys2Proof.Machine.execEndSession msg s
  | .fullService dieOk memGib => Sys2Proof.Machine.execFullService dieOk memGib s
  | .correctableError u => Sys2Proof.Machine.execCorrectableError u s
  | .uncorrectableError loc u => Sys2Proof.Machine.execUncorrectableError loc u s
  | .spareProposal u => Sys2Proof.Machine.execSpareProposal u s
  | .portRequest r => Sys2Proof.Machine.execPortRequest r s
  | .controlCoreAccess a => Sys2Proof.Machine.execControlCoreAccess a s
  | .linkDown l => Sys2Proof.Machine.execLinkDown l s
  | .linkUp l => Sys2Proof.Machine.execLinkUp l s
  | .coolingRecovery fail => Sys2Proof.Machine.execCoolingRecovery fail s
  | .clockCap mhz => Sys2Proof.Machine.execClockCap mhz s
  | .spareBringIn u => Sys2Proof.Machine.execSpareBringIn u s
  | .checkpointComplete => Sys2Proof.Machine.execCheckpointComplete s
  | .deviceReset => Sys2Proof.Machine.execDeviceReset s
  | .coolingFailure => Sys2Proof.Machine.execCoolingFailure s
  | .reducedService => Sys2Proof.Machine.execReducedService s
  | .clockCapLift => Sys2Proof.Machine.execClockCapLift s

end Sys2Proof.Machine
end

