-- ==== Sys2Proof/Machine/Fetch.lean ====
section
/-!
DEFINITION. Fetching a bundle and a slot of it, the traps of encodings that are no instruction, and what the switch marker and the
next slot's stall hint do behind an issue (spec/04_registers_encoding.md R95 to R97, R106, R109, R113 to R115; spec/19_translation_places.md R445).

DESIGN CHOICE: a fetch reads its bundle at the home slices (notes/assumptions/36.md); a stall hint is honoured by a free part of its
count, the other hints are ignored (48.md).
-/

namespace Sys2Proof.Machine

/-- What issues next: a stream of a group; for the E-stream a split of a warp by its lanes. -/
structure Target where
  grp : Nat
  strm : Strm
  wid : Nat
  lanes : Lanes
  pc : W64
  deriving DecidableEq, Repr

/-- The need of a fetch. -/
def Need.fetch : Need := ⟨false, false, true⟩

/-- The 32 bytes of a bundle, read through the context's translation (19 R445). -/
def State.fetchBundle (s : State) (g : Nat) (pc : W64) : Except AccFault (Bundle × State) :=
  let c := s.gctx g
  let a := bundleOf pc
  if !canonical a then .error ⟨.addrFault, none, a, none⟩
  else match s.translate c a.toNat .fetch with
    | .error f => .error f
    | .ok (p, t) =>
      match t.barred c a.toNat p with
      | some f => .error f
      | none =>
        if t.mem.badRange p 32 then .error ⟨.poisonData, some 3, a, none⟩
        else
          let w (k : Nat) : W64 := BitVec.ofNat 64 (t.mem.read (p + 8 * k) 8)
          .ok (⟨w 0, w 1, w 2, w 3⟩, t)

/-- The first slot from slot n on that issues (04 R96). -/
def slotFrom (b : Bundle) (n : Nat) : Option Nat := [1, 2, 3].find? fun k => decide (n ≤ k) && b.issues k

/-- The slot at which a split that continues at slot n issues: the first that issues from there on, or the literal slot that a handler named
(17 R423). -/
def entrySlot (b : Bundle) (n : Nat) : Option Nat := if ctlKind b.ctl n == .literal then some n else slotFrom b n

/-- Where a stream continues after slot n: at the bundle's next slot that issues, or at the next bundle (04 R96). -/
def slotAfter (b : Bundle) (pc : W64) (n : Nat) : W64 :=
  match slotFrom b (n + 1) with
  | some k => bundleOf pc + BitVec.ofNat 64 (8 * k)
  | none => bundleOf pc + 32

/-- The issue of a target at slot n of a bundle. -/
def State.atSlot (s : State) (t : Target) (b : Bundle) (n : Nat) (partner : Option Place) : State :=
  { s with cur := ⟨true, t.grp, t.strm, t.wid, t.lanes, bundleOf t.pc + BitVec.ofNat 64 (8 * n), slotAfter b t.pc n, b.slot n, b.ctl, false, false, partner⟩ }

/-- What decides the decode-level traps of a slot's kind: the opcode of a full word; of a pair word, 0x3FF, which stands for one; nothing for a
literal or an empty slot (04 R113). -/
def codeOf (k : Kind) (w : W64) : Option Nat :=
  match k with
  | .full => some (w.extractLsb' 0 10).toNat
  | .pair => some 0x3FF
  | .empty | .literal => none

/-- The trap of a word that is no instruction, in the order of 04 R114: what its kind and opcode decide with stream, level and kernel comes
before a misplaced literal, a pair rule and a reserved field. -/
def State.rejectTrap (s : State) (k : Kind) (r : Reject) : Trap :=
  let m := s.cur.lanes
  let late (c : Cause) : Trap := ((codeOf k s.cur.word).bind s.codeTrap).getD (s.decodeTrap c 0 0 m)
  match r with
  | .format => s.decodeTrap .illegalOpcode 2 0 m
  | .control => s.decodeTrap .reservedField 0 0 m
  | .illegal => s.decodeTrap .illegalOpcode 0 0 m
  | .literal => late .literalMisplaced
  | .pair => late .pairRule
  | .reserved => late .reservedField

/-- A fault of a fetch: to the fault server where 17 R411 says so, otherwise the trap. -/
def State.fetchFault (s : State) (t : Target) (f : AccFault) (partner : Option Place) : State :=
  let s1 := { s with cur := ⟨true, t.grp, t.strm, t.wid, t.lanes, slotAddr t.pc, slotAddr t.pc, 0, 0, false, false, partner⟩ }
  s1.accStop f (accField .fetch .g) (s1.mkTrap f.cause t.lanes 32 f.addr 0 0) t.lanes

/-- What a target is to do: an instruction, in the state at its issue; or no more than reach another state. -/
inductive Fetched where
  | run (i : Instr) (s : State)
  | done (s : State)

/-- The next slot of a target is fetched, checked and decoded. A bundle in which no slot issues is passed. DESIGN CHOICE: where a target enters
behind the last slot that issues, a failure of the control word is reported as for a bundle that is wholly empty, at its start with slot
number 1 (04 R114; notes/assumptions/57.md). -/
def State.fetch (s : State) (t : Target) (partner : Option Place) : Fetched :=
  match s.fetchBundle t.grp t.pc with
  | .error f => .done (s.fetchFault t f partner)
  | .ok (b, s) =>
    let n := slotOf t.pc
    match entrySlot b n, checkCtl b.ctl with
    | none, some r =>
      let s := s.atSlot t b 1 partner
      let s := { s with cur := { s.cur with pc := bundleOf t.pc } }
      .done (s.trap (s.rejectTrap .empty r))
    | some k, some r =>
      let s := s.atSlot t b k partner
      .done (s.trap (s.rejectTrap .empty r))
    | none, none => .done ({ s.atSlot t b n partner with cur := { (s.atSlot t b n partner).cur with npc := bundleOf t.pc + 32 } }.advance)
    | some k, none =>
      let s := s.atSlot t b k partner
      match b.decode k with
      | .ok i => .run i s
      | .error r => .done (s.trap (s.rejectTrap (ctlKind b.ctl k) r))

/-! ### Switch markers (04 R109) -/

/-- The wait stands behind its form: the form has taken its effect, and the split continues at the slot after it. -/
def Wait.behind : Wait → Bool
  | .barrier _ _ (some _) | .cbarrier _ (some _) | .wjoin _ _ | .taskres _ _ _ | .hqput _ _ | .tinv _ => true
  | _ => false

/-- A split of the issue meets the marker: those that go on park at it, those that wait behind the form meet it after their wait. -/
def Split.meetMarker (y : Split) (issued went : Lanes) : Split :=
  if y.lanes &&& ~~~issued != 0 then y
  else if y.wait == .ready && y.lanes &&& ~~~went == 0 then { y with wait := .marker }
  else if y.wait.behind then { y with mark := true }
  else y

/-- The stall hint of the next slot of the same bundle holds a split that has come there for at most the hinted count; how long is free
(04 R97). -/
def State.meetStall (s : State) (c : Cur) (level : Bool) : State :=
  let n := ctlStall c.ctl (slotOf s.cur.npc)
  if c.strm = .e && bundleOf s.cur.npc == bundleOf c.pc && n != 0 && (s.warp c.grp c.wid).level == level then
    (s.modWarp c.grp c.wid fun w => { w with splits := w.splits.map fun y =>
      if y.lanes &&& ~~~c.lanes == 0 && y.pc == s.cur.npc then { y with stall := Config.choice s.draws % (n + 1) } else y }).draw
  else s

/-- What follows the slot that has issued: its switch marker, and the stall hint of the next slot. `before` is the state at the issue. -/
def State.meetMarker (s before : State) : State :=
  let c := before.cur
  let level := (before.warp c.grp c.wid).level
  (if c.strm = .e && s.cur.done && ctlMarker c.ctl (slotOf c.pc) && (s.warp c.grp c.wid).level == level then
    s.modWarp c.grp c.wid fun w => { w with splits := w.splits.map fun y => y.meetMarker c.lanes s.cur.lanes }
  else s).meetStall c level

/-! ### A program in place -/

/-- The kernel of a machine into which nothing but a program was loaded: 16 lanes, every register, every queue of depth 1. -/
def soloKernel : Kernel :=
  { Kernel.blank with
    entryE := 0x10000, entryA := 0x10000, entryM := 0x10000, scratch := 524288, regs := 744, width := 16, cohort := 1, quadlock := true,
    queues := 0xC0C0C0C080808080, bars := 0 }

/-- A context with one page of code at 0x10000, readable, writable and executable, in a granule of partition 0. -/
def State.withSoloContext (s : State) : State :=
  { s with
    ctxs := Store.put s.ctxs Ctx.blank 0 { Ctx.blank with used := true, sys := true }
    mem := { s.mem with tlb := [⟨0, 0, 16, 0x10000, true, true, true⟩] ++ s.mem.tlb.filter fun t => !(t.part == 0 && t.asid == 0 && t.vpage == 16) }
    part := { s.part with fw := Store.put s.part.fw 0 0 0x8000 } }

/-- One group with one warp of 16 live lanes, of which one stream is ready to issue at 0x10000. -/
def soloGroup (st : Strm) : Group :=
  let w : Warp := { Warp.blank with
    placed := true, segs := 1, live := 0xFFFF, splits := [{ Split.at 0xFFFF 0x10000 with hold := if st = .e then 0 else 1 }], ended := false }
  let stream (on : Bool) : Stream := if on then { Stream.blank with on := true, pc := 0x10000, ended := false } else Stream.blank
  { Group.blank with
    used := true, kernel := soloKernel, nwarp := 1, warps := [(0, w)], astr := stream (st = .a), mstr := stream (st = .m), cohort := 1 }

/-- The stream that executes an instruction's opcode, the E-stream first. -/
def streamFor (i : Option Instr) : Strm :=
  match i with
  | none => .e
  | some i => if onlyA (opcOf i) then .a else if onlyM (opcOf i) then .m else .e

/-- A bundle's 32 bytes at an address of home memory. -/
def State.putBundle (s : State) (a : Nat) (b : Bundle) : State :=
  { s with mem := ((((s.mem.writeNat a 8 b.ctl.toNat).writeNat (a + 8) 8 b.w1.toNat).writeNat (a + 16) 8 b.w2.toNat).writeNat (a + 24) 8 b.w3.toNat) }

/-- The machine in which a program of one bundle is the only work (notes/assumptions/35.md). -/
def State.solo (s : State) (b : Bundle) (i : Option Instr) : State :=
  let t := (s.withSoloContext).putBundle 0x10000 b
  { t with cur := Cur.none, agenda := [], rot := 0, groups := [(1, soloGroup (streamFor i))], cohorts := [(1, ⟨0, [1], []⟩)] }

end Sys2Proof.Machine
end

