-- ==== Sys2Proof/Machine/Schedule.lean ====
section
/-!
DEFINITION. Which stream issues next (spec/02_execution_model.md R37 to R44; spec/18_scheduling_preemption.md R428, R429), the counts
of a cycle (02 R44 to R46; 03 R79; 17 R417, R418; 01 R23), which next instructions are held (02 R38), and what settles after a step.

A step of the machine is one issue, or one event of a device, and it is one cycle of every quarter and sequencer; the second place of
an issue pair belongs to the cycle of the first (notes/assumptions/8.md).
-/

namespace Sys2Proof.Machine

/-! ### Ranking -/

/-- The ready splits of a warp in the order of 02 R38. -/
def State.readySplits (s : State) (g w : Nat) : List Split := ranked ((s.warp g w).splits.filter (s.splitReady g w))

/-- The priority of a warp; at level H it is 8 (18 R428). -/
def Warp.priority (w : Warp) : Nat := if w.level then 8 else w.prio

/-- A warp and its group. -/
abbrev WarpRef := Nat × Nat

/-- The warps of a quarter that have a ready split. -/
def State.readyWarps (s : State) (pcore quarter : Nat) : List WarpRef :=
  s.groups.flatMap fun p =>
    if p.2.used ∧ p.2.pcore = pcore then
      (p.2.wids.filter fun w => (p.2.warp w).quarter == quarter && s.warpReady p.1 w).map fun w => (p.1, w)
    else []

/-- The scheduler's order of a list of warps: overdue ones by age, then by priority and age (18 R428). -/
def State.schedule (s : State) (l : List WarpRef) : List WarpRef :=
  sortBy (fun (r : WarpRef) =>
    let w := s.warp r.1 r.2
    (if w.overdue then 0 else 9 - w.priority, w.age, 32 * r.1 + r.2)) l

/-- The lanes of the quarter that a split of a warp occupies (02 R27). -/
def Warp.quarterLanes (w : Warp) (m : Lanes) : Lanes :=
  match w.segs.toNat with
  | 2 => m <<< 16
  | 4 => m <<< 32
  | 8 => m <<< 48
  | 12 => m <<< 32
  | _ => m

/-- A unit that issues: a quarter, an access sequencer of a core, the matrix sequencer of a group. -/
inductive Unit3 where
  | quarter (pcore q : Nat)
  | access (pcore k : Nat)
  | matrix (g : Nat)
  deriving DecidableEq, Repr

/-- The units with something to issue. -/
def State.units (s : State) : List Unit3 :=
  (s.groups.flatMap fun p =>
    if !p.2.used then []
    else
      (((p.2.wids.filter fun w => s.warpReady p.1 w).map fun w => Unit3.quarter p.2.pcore (p.2.warp w).quarter) ++
        (if s.streamReady p.1 .a then [.access p.2.pcore (p.2.slotA / 4)] else []) ++
        (if s.streamReady p.1 .m then [.matrix p.1] else []))).dedup

/-- A warp's issue position n. -/
def State.position (s : State) (r : WarpRef) (n : Nat) : Option Place :=
  ((s.readySplits r.1 r.2)[n]?).map fun y => ⟨r.1, r.2, y.lanes, y.pc⟩

/-- The issue pair of a quarter (02 R39): its first place, and its second if there is one. -/
def State.pairOf (s : State) (pcore quarter : Nat) : Option (Place × Option Place) :=
  match s.schedule (s.readyWarps pcore quarter) with
  | [] => none
  | r :: rest =>
    (s.position r 0).map fun p =>
      let mine := (s.warp r.1 r.2).quarterLanes p.lanes
      (p, match s.position r 1 with
        | some q => some q
        | none => rest.findSome? fun x =>
            (s.position x 0).bind fun q => if (s.warp x.1 x.2).quarterLanes q.lanes &&& mine = 0 then some q else none)

/-- A place of a pair as a target. -/
def Place.target (p : Place) : Target := ⟨p.grp, .e, p.wid, p.lanes, p.pc⟩

/-- The group whose A-stream an access sequencer issues: the first ready one in rotation by slot, from the slot after the one that issued last
(01 R20, 18 R429). -/
def State.accessTurn (s : State) (pcore k : Nat) : Option Nat :=
  let n := Store.get s.eng.aTurn 0 (4 * pcore + k)
  let l := s.groups.filter fun p => p.2.used && p.2.pcore == pcore && p.2.slotA / 4 == k && s.streamReady p.1 .a
  ((sortBy (fun (p : Nat × Group) => ((p.2.slotA + 4 - n) % 4, 0, 0)) l).head?).map Prod.fst

/-- A stream of a group as a target. -/
def State.streamTarget (s : State) (g : Nat) (st : Strm) : Target := ⟨g, st, 0, 1, ((s.group g).stream st).pc⟩

/-- What a unit issues. -/
def State.issueOf (s : State) (u : Unit3) : Option (Target × Option Place) :=
  match u with
  | .quarter c q => (s.pairOf c q).map fun p => (p.1.target, p.2)
  | .access c k => (s.accessTurn c k).map fun g => (s.streamTarget g .a, none)
  | .matrix g => some (s.streamTarget g .m, none)

/-- The units take turns (notes/assumptions/9.md). -/
def State.nextIssue (s : State) : Option (Target × Option Place) :=
  let l := s.units
  (l[s.rot / 2 % l.length]?).bind s.issueOf

/-- What the second place of the pair under way still issues: its split stands where it stood, and waits for nothing; lanes of it that the
first place ended are gone. A trap or an upcall of the first place does not keep it back; a trap squashes it only if it traps as well (02
R41, 07 R181). -/
def State.partnerNow (s : State) (p : Place) : Option Target :=
  if !s.groupRuns p.grp then none
  else
    ((s.warp p.grp p.wid).splits.find? fun y => y.lanes &&& ~~~p.lanes == 0 && y.pc == p.pc && y.wait.isOver).map fun y =>
      ⟨p.grp, .e, p.wid, y.lanes, y.pc⟩

/-! ### The counts of a cycle -/

/-- A blocked-port count advances (17 R417, R418). -/
def State.counts (s : State) (g : Nat) (t : Wait) : Bool :=
  let x := s.group g
  t.blocked && match t with
    | .barrier _ _ _ | .wjoin _ _ | .rgrp _ => !s.inService x
    | .cbarrier _ _ => !((s.cohort x.cohort).groups.any fun h => s.inService (s.group h))
    | .mclaim _ _ => !(s.groups.any fun p => p.2.used && p.2.pcore == x.pcore && p.2.claim != 0 && (s.inService p.2 || !(s.ctx p.2.ctxKey).runs))
    | _ => true

/-- The quarter of a warp issues in the cycle whose issues are listed. -/
def State.quarterIssues (s : State) (g w : Nat) (picked : List (WarpRef × Lanes)) : Bool :=
  picked.any fun p => (s.group p.1.1).pcore == (s.group g).pcore && (s.warp p.1.1 p.1.2).quarter == (s.warp g w).quarter

/-- A warp after a cycle; `picked` lists the splits that the cycle issues. A warp that stays ready waits for as many cycles as its quarter
issues without it, and is overdue after 32 (18 R428). -/
def State.tickWarp (s : State) (g w : Nat) (picked : List (WarpRef × Lanes)) : State :=
  let x := s.warp g w
  let mine := picked.any fun p => p.1 == (g, w)
  let taken (y : Split) : Bool := picked.contains ((g, w), y.lanes)
  let frozen := x.level || s.warpFaults x
  let waits := s.warpReady g w && !mine
  let unsel := if !waits then 0 else if s.quarterIssues g w picked then x.unsel + 1 else x.unsel
  s.modWarp g w fun x =>
    { x with
      unsel := unsel
      overdue := waits && (x.overdue || decide (32 ≤ unsel))
      splits := x.splits.map fun y =>
        { y with
          wd := if mine && !taken y && !frozen && s.splitReady g w y then y.wd + 1 else y.wd
          bp := if s.counts g y.wait then y.bp + 1 else y.bp
          hold := y.hold - 1
          stall := y.stall - 1 } }

/-- The counters of a group's quarters and sequencers. -/
def Group.counters (x : Group) : List Nat :=
  x.wids.map (x.counter .e) ++ [x.counter .a 0] ++ (if x.mstr.on then [x.counter .m 0] else [])

/-- A group after a cycle. -/
def State.tickGroup (s : State) (g : Nat) (picked : List (WarpRef × Lanes)) : State :=
  let x := s.group g
  if !(s.gctx g).runs then s
  else
    let s1 := x.wids.foldl (fun t w => t.tickWarp g w picked) s
    let stream (t : State) (st : Strm) : State :=
      if t.counts g ((t.group g).stream st).wait then t.modStream g st fun y => { y with bp := y.bp + 1 } else t
    (stream (stream s1 .a) .m).modGroup g fun y =>
      { y with stall := if s.faulted y then y.stall else if y.decoupled then y.stall + 1 else 0 }

/-- A cycle passes. -/
def State.tick (s : State) (picked : List (WarpRef × Lanes)) : State :=
  let t := s.gids.foldl (fun t g => t.tickGroup g picked) s
  let keys := (t.gids.flatMap fun g => (t.group g).counters).dedup
  { t with
    time := t.time + 1
    eng := { t.eng with cycles := keys.foldl (fun m k => Store.put m 0 k (Store.get m 0 k + 1)) t.eng.cycles } }

/-! ### Held instructions (02 R38) -/

/-- Why the next instruction of a target cannot issue, if it cannot: what it would do is looked at, and nothing of it happens. -/
def State.lookahead (s : State) (t : Target) : Option Wait :=
  match s.fetch t none with
  | .done _ => none
  | .run i u =>
    match exec i u with
    | .next v =>
      let w : Wait := match t.strm with
        | .e => (((v.warp t.grp t.wid).splits.find? fun y => y.lanes == t.lanes).map (·.wait)).getD .ready
        | st => ((v.group t.grp).stream st).wait
      if !v.cur.done && w.holds then some w else none
    | _ => none

/-- A split whose next instruction is held stands in its wait; a request to the traversal unit arrives with it (11 R303). -/
def Split.heldIn (y : Split) (w : Option Wait) (stamp : Nat) : Split :=
  match w with
  | none => { y with wait := .ready }
  | some t => { y with wait := t, req := (match t with | .trav _ => if y.req = 0 then stamp else y.req | _ => 0) }

/-- The splits of a warp whose next instruction cannot issue are held, and those that it no longer holds are free. With `free` unset, none is
freed. -/
def State.holdWarp (s : State) (free : Bool) (g w : Nat) : State :=
  if !s.warpRuns g w then s
  else
    (s.warp g w).splits.foldl (fun t y =>
      if y.wait == .ready || (free && y.wait.holds) then
        let h := t.lookahead ⟨g, .e, w, y.lanes, y.pc⟩
        let z := y.heldIn h t.eng.nextId
        if z == y then t
        else
          let u := t.modWarp g w (·.replaceSplit y.lanes fun _ => [z])
          if z.req == y.req then u else { u with eng := { u.eng with nextId := u.eng.nextId + 1 } }
      else t) s

/-- The A- or M-stream of a group is held where its next instruction cannot issue, and free where it no longer is. -/
def State.holdStream (s : State) (g : Nat) (st : Strm) : State :=
  let y := (s.group g).stream st
  if s.streamRuns g st && (y.wait == .ready || y.wait.holds) then
    let w := (s.lookahead ⟨g, st, 0, 1, y.pc⟩).getD .ready
    if w == y.wait then s else s.modStream g st fun z => { z with wait := w }
  else s

/-- Splits of every warp merge where the regang rule says so (02 R37). -/
def State.regangAll (s : State) : State :=
  { s with groups := s.groups.map fun p => (p.1, { p.2 with warps := p.2.warps.map fun w => (w.1, { w.2 with splits := regang w.2.splits }) }) }

/-- The end of a cycle: splits that have come together merge, held instructions are looked at, splits that are released merge, and a merged
split is looked at as a whole (02 R37, R38). -/
def State.endCycle (s : State) : State :=
  let hold (free : Bool) (t : State) : State := t.gids.foldl (fun t g => (t.group g).wids.foldl (fun t w => t.holdWarp free g w) t) t
  let streams (t : State) : State := t.gids.foldl (fun t g => (t.holdStream g .a).holdStream g .m) t
  streams (hold false (hold true s.regangAll).regangAll)

/-! ### What settles after a step -/

/-- A warp after a step: its markers, its due trap, the traps of streams that wait for it. -/
def State.settleWarp (s : State) (g w : Nat) : State := ((s.settleMarkers g w).deliver g w).trapEntry g w

/-- Errors that await delivery reach a warp that has come back from its handler (11 R327). -/
def State.settleReturn (s before : State) (g w : Nat) : State :=
  if (before.warp g w).level && !(s.warp g w).level && !(s.warp g w).ended then s.deliverErrs g w (~~~0) else s

/-- Blocked-port counts of a group that have run out, and its DECOUPLE_STALL (17 R417, 03 R79). -/
def State.settleCounts (s : State) (g : Nat) : State :=
  let s1 := (s.group g).wids.foldl (fun t w =>
    ((t.warp g w).splits.filterMap fun y => lowLane y.lanes).foldl (fun t l => t.timeout g .e w l) t) s
  (((s1.timeout g .a 0 0).timeout g .m 0 0)).decoupleStall g

/-- The streams of a group after a step, and its collective, which waits for results and queue entries to land (02 R52, R56). -/
def State.settleGroup (s before : State) (g : Nat) : State :=
  let s1 := (((s.settleHolds g).settleVerdicts g).settleBarriers g).settleMend g
  ((s1.group g).wids.foldl (fun t w => (t.settleReturn before g w).settleWarp g w) (s1.settleCounts g)).settleRgrp g

/-- The watchdog of a warp in which the cycle has counted a split up to the limit (02 R45). -/
def State.settleDog (s before : State) (g w : Nat) : State :=
  let x := before.warp g w
  let new (y : Split) : Bool := decide ((s.warp g w).wdlimit.toNat ≤ y.wd) && x.splits.all fun z => z.lanes != y.lanes || z.wd != y.wd
  if !x.level && (s.warp g w).splits.any new then s.watchdog g w else s

/-- The watchdogs after an issue; a trap of one is delivered when the issue pair is complete. -/
def State.settleDogs (s before : State) : State :=
  s.gids.foldl (fun t g => (t.group g).wids.foldl (fun t w => t.settleDog before g w) t) s

/-- What follows a step. While the second place of an issue pair is still to issue, nothing but the watchdogs does (02 R41). -/
def State.settle (s before : State) : State :=
  let s := s.settleDogs before
  if s.cur.partner.isSome then s
  else
    let s1 := s.gids.foldl (fun t g => t.settleGroup before g) s
    (s1.settleGroups.settleMarks.settleGraphs.settleResumed).endCycle

end Sys2Proof.Machine
end

