-- ==== Sys2Proof/Machine/Events.lean ====
section
/-!
DEFINITION. The issue of a target, the events that a device takes up on its own, and one cycle of the machine.

An event is one of the steps without encoding of the opcode table. An event from outside (a host write, a frame clock, an error, a
hypervisor command) stands in the agenda; a device's own goes when its turn comes (notes/assumptions/8.md, 9.md).
-/

namespace Sys2Proof.Machine

/-- The next state with a function applied to it. -/
def mapNext (f : State → State) (o : Host.Outcome State Fault Refusal) : Host.Outcome State Fault Refusal :=
  match o with
  | .next t => .next (f t)
  | .fault r => .fault r
  | .refused r => .refused r

/-- The issue is over; the second place of its pair is still to come, if there is one. -/
def State.close (s : State) : State := { s with cur := { Cur.none with partner := s.cur.partner } }

/-- A target issues: its slot is fetched and decoded, the instruction has its effect, and the marker behind it acts. -/
def State.runTarget (s : State) (t : Target) (partner : Option Place) : Host.Outcome State Fault Refusal :=
  match s.fetch t partner with
  | .done u => .next u.close
  | .run i u => mapNext (fun v => (v.meetMarker u).close) (exec i u)

/-! ### Events of the devices -/

/-- Landing results and returning elements of a warp, waits to look at again, and upcalls to post. -/
def State.warpEvents (s : State) (g w : Nat) : List Instr :=
  let x := s.warp g w
  let tags := ((x.pend.filter fun p => !p.landed).map (·.tag)).dedup
  let elems := x.queues.flatMap fun q => q.2.entries.flatMap fun e => (e.elems.zipIdx).filterMap fun p =>
    if p.1.returned then none else some (Instr.queueElementReturn g w q.1 e.seq p.2)
  let waits := x.splits.flatMap fun y => match y.wait with
    | .waitaddr ws => ws.map fun k => Instr.waitRecheck g w k.lane
    | .taskres _ _ _ => (lowLane y.lanes).toList.map fun l => .treserveGrant g w l
    | .hqput hs _ => hs.map fun h => .hqputHoldRelease g w h.lane
    | _ => []
  tags.map (.loadResultLand g w) ++ elems ++ waits ++ (if x.ups.any fun u => !u.posted then [.upcallPost g w] else [])

/-- Events of a group. -/
def State.groupEvents (s : State) (g : Nat) : List Instr :=
  let x := s.group g
  x.wids.flatMap (s.warpEvents g) ++ [0, 1].flatMap fun a => [.mwldComplete g a, .matrixBlock g a, .mswapExchange g a]

/-- A ray that its unit may work on: its context runs, and it awaits no verdict. -/
def State.rayGoes (s : State) (r : Ray) : Bool :=
  r.used && (s.group r.grp).used && (s.gctx r.grp).runs && s.engWait r.tok != .held

/-- The rays that the traversal units take up: of each core the one whose request arrived first (01 R21), and those that are asked to suspend
at their next step boundary (11 R328). -/
def State.servedRays (s : State) : List Nat :=
  let go := s.eng.rays.filter fun p => s.rayGoes p.2
  let core (p : Nat × Ray) : Nat := (s.group p.2.grp).pcore
  (go.filter fun p => p.2.susp || go.all fun q => core q != core p || decide (p.1 ≤ q.1)).map Prod.fst

/-- Events of the engines. -/
def State.engineEvents (s : State) : List Instr :=
  s.eng.copies.flatMap (fun p => [.copyRegistration p.1, .copyChunk p.1, .copyComplete p.1]) ++
  s.servedRays.flatMap (fun n => [.hierarchyStep n, .meshStep n, .rayEnd n]) ++
  s.eng.draws.flatMap (fun p => if p.2.repro then [.reprojectionTile p.1, .recordComplete p.1] else [.rasterTile p.1, .recordComplete p.1]) ++
  s.eng.claims.map (fun p => .mclaimGrant p.1) ++ (s.mem.wbq.map (fun w => Instr.writeBackMerge w.cluster)).dedup

/-- Events of queues, graphs and placement. -/
def State.workEvents (s : State) : List Instr :=
  (s.part.qtab.flatMap fun p =>
    if s.qCount p.1 = 0 then []
    else match qKind p.2 with
      | 0 => [.graphRequest p.1]
      | 2 => [.rasterDrawRecord p.1, .reprojectionRecord p.1]
      | _ => []) ++
  (s.work.graphs.flatMap fun g => g.2.acts.filterMap fun a => match a.kind with
    | 0 => if a.total = 0 ∧ a.resident = 0 then some (.kernelNodeComplete g.1 a.node) else none
    | 5 => some (.waitvalSatisfied g.1 a.node)
    | 6 => some (.taskNodeComplete g.1 a.node)
    | _ => none) ++
  ((s.part.place.map fun e => e.1 / 4096 / 7).dedup).map Instr.groupPlacement ++
  s.work.holds.flatMap fun h => [.enqueueHoldRelease h.part h.queue h.hart]

/-- Events of contexts, faults, invalidations, the security core, checkpoints, and accesses held at a lock. -/
def State.controlEvents (s : State) : List Instr :=
  (s.faults.filterMap fun p => if p.2.posted then none else some (.faultRecordDeliver p.1)) ++
  (s.ctxs.filterMap fun p => if p.2.run == .stopping then some (.contextSave p.2.part p.2.asid) else none) ++
  (s.mem.inval.map fun v => Instr.invalidationComplete v.part).dedup ++
  (s.part.entries.filterMap fun p => if peResizing p.2 then some (.resizeComplete p.1) else none) ++
  (s.sec.jobs.map fun j => Instr.scrubUnit j.part).dedup ++ (s.calls.head?.map (·.event)).toList ++
  (if s.host.ckpt.isSome then [.checkpointComplete] else []) ++ s.host.heldPorts.map .portRequest ++
  s.host.heldCores.map .controlCoreAccess

/-- Every event that a device might take up. -/
def State.events (s : State) : List Instr := s.gids.flatMap s.groupEvents ++ s.engineEvents ++ s.workEvents ++ s.controlEvents

/-- An event changes something. -/
def State.moves (s : State) (i : Instr) : Bool := match exec i s with | .next t => t != s | _ => false

/-- The event whose turn it is. -/
def State.nextEvent (s : State) : Option Instr :=
  let l := s.events
  let k := if l.isEmpty then 0 else s.rot / 2 % l.length
  (l.drop k ++ l.take k).find? s.moves

/-! ### One cycle -/

/-- The splits that an issue and its partner take. -/
def pickedBy (t : Target) (p : Option Place) : List (WarpRef × Lanes) :=
  (if t.strm = .e then [((t.grp, t.wid), t.lanes)] else []) ++ p.toList.map fun q => ((q.grp, q.wid), q.lanes)

/-- The turn passes. -/
def State.turned (s : State) : State := { s with rot := s.rot + 1 }

/-- The turn passes; that of an access sequencer which issues passes to the next slot (18 R429). -/
def State.passTurn (s : State) (t : Target) : State :=
  let x := s.group t.grp
  if t.strm = .a then { s.turned with eng := { s.eng with aTurn := Store.put s.eng.aTurn 0 (4 * x.pcore + x.slotA / 4) ((x.slotA + 1) % 4) } }
  else s.turned

/-- A stream issues, or nothing does. -/
def State.issueStep (s : State) : Host.Outcome State Fault Refusal :=
  match s.nextIssue with
  | some (t, p) => mapNext (·.settle s) (((s.tick (pickedBy t p)).passTurn t).runTarget t p)
  | none => .next ((s.tick []).turned.settle s)

/-- A device takes up an event. -/
def State.eventStep (s : State) (i : Instr) : Host.Outcome State Fault Refusal := mapNext (·.settle s) (exec i (s.tick []).turned)

/-- One step: what the agenda names; the second place of an issue pair; then, in turn, an issue and an event, either where there is
no other. -/
def State.cycleStep (s : State) : Host.Outcome State Fault Refusal :=
  match s.agenda with
  | i :: r => mapNext (·.settle s) (exec i { s with agenda := r })
  | [] =>
    match s.cur.partner with
    | some p =>
      let t := { s with cur := Cur.none }
      match t.partnerNow p with
      | some q => mapNext (·.settle s) (t.runTarget q none)
      | none => .next (t.settle s)
    | none =>
      if s.rot % 2 = 1 ∨ s.nextIssue.isNone then
        match s.nextEvent with
        | some i => s.eventStep i
        | none => s.issueStep
      else s.issueStep

end Sys2Proof.Machine
end

