-- ==== Sys2Proof/Machine/Step.lean ====
section
/-!
DEFINITION. The step of the machine, and where it fetches its next instruction.
-/

namespace Sys2Proof.Machine

/-- One step of the machine. -/
def step (s : State) : Host.Outcome State Fault Refusal := s.cycleStep

/-- The instruction whose bits are w, stored where the next step fetches (notes/assumptions/35.md): at the program counter of the
stream that issues next, or, where nothing can issue, as the program of a group that is put in place for it. -/
def State.withFetchWord (s : State) (nbits w : Nat) : State :=
  let b := tableBundle nbits w
  let i := decodeTableWord nbits w
  let s0 := { s with cur := Cur.none, agenda := [], rot := 0 }
  match s0.nextIssue with
  | some (t, _) =>
    match (s0.gctx t.grp).runs, s0.fetchBundle t.grp t.pc with
    | true, .ok (_, u) =>
      match u.translate (u.gctx t.grp) (bundleOf t.pc).toNat .fetch with
      | .ok (p, u) => if slotOf t.pc = 1 then u.putBundle p b else s0.solo b i
      | .error _ => s0.solo b i
    | _, _ => s0.solo b i
  | none => s0.solo b i

end Sys2Proof.Machine
end

