-- ==== Sys2Proof/WellFormed.lean ====
section
/-!
DEFINITION. Well-formed instructions: what an encoding can carry (spec/04_registers_encoding.md R90 to R106). Every instruction
the decoder answers is well formed, and every well-formed encoded instruction has an encoding.
-/

namespace Sys2Proof

/-- A field that reads an operand holds a literal code. -/
def slotNamesLit (sl : Slot) (o : Operand) : Bool :=
  match sl with
  | .raw => false
  | .none => false
  | _ => o.isLit

/-- Some operand field names the literal word (04 R94). -/
def Full.usesLit (f : Full) (sh : Shape) : Bool :=
  slotNamesLit sh.d f.d || slotNamesLit sh.a f.a || slotNamesLit sh.b f.b || slotNamesLit sh.c f.c

/-- The operands suit the form's fields, the guard is not the reserved one, and there is a literal word exactly where one is
named (04 R90 to R94, R99, R106). -/
def Full.wf (f : Full) (sh : Shape) : Bool :=
  sh.d.ok f.d && sh.a.ok f.a && sh.b.ok f.b && sh.c.ok f.c && !(f.guard == 7 && f.neg) && f.lit.isSome == f.usesLit sh

/-- A half of a pair word (04 R103, R104). -/
def Half.wf : Half → Bool
  | .nop => true
  | .op p rnd neg guard d _ => d.writable && !(guard == 7 && neg) && (p.fma || rnd == .rne)

/-- A well-formed instruction. A step of the device that has no encoding is well formed as it stands. -/
def Instr.wf (i : Instr) : Bool :=
  match i with
  | .pairWord h0 h1 => h0.wf && h1.wf && !pairBroken h0.bits h1.bits
  | i =>
    match rawOf i with
    | some (f, _) => f.wf (shapeOf i) && fieldsOk i
    | none => true

end Sys2Proof
end

