-- ==== Sys2Proof/Safety.lean ====
section
/-!
DEFINITION. The terms in which statements speak of the machine: when a form executes, what an instruction leaves alone, what a
destination holds after a result, and the invariants of a safe run. A run is safe while no step ends in a fault; the one fault is that a
form is executed where no stream stands at an issue, which no step does.
-/

namespace Sys2Proof.Machine

/-! ### When a form executes -/

/-- The queue gate is open. -/
def QueueGate.isGo : QueueGate → Bool
  | .go => true
  | .stop _ => false

/-- The queues that a form pops where it issues (03 R68). -/
def State.queuesRead (s : State) (i : Instr) (f : Full) : List Nat := if s.cur.strm = .e then queuesOf f (shapeOf i) else []

/-- A stream stands at an issue of which nothing has happened yet; lane 0 stands for an A- or M-stream. -/
def Cur.fresh (c : Cur) : Bool := c.valid && !c.done && !c.stuck && (c.strm == .e || c.lanes == 1)

/-- A form executes: a stream stands at its issue, no decode-level check and no hazard traps it (04 R111 to R118), and its queue sources
are ready (03 R69). -/
def State.executes (s : State) (i : Instr) (f : Full) : Bool :=
  i.wf && s.cur.fresh && (s.issueTrap i f).isNone && (s.queueGate (s.gLive f) (s.queuesRead i f)).isGo

/-! ### What stays as it was -/

/-- The warp that issued, in a later state. -/
def State.issuer (s t : State) : Warp := t.warp s.cur.grp s.cur.wid

/-- The machine with the groups, the record of the issue and the count of free choices of another. -/
def State.withWork (t s : State) : State := { t with groups := s.groups, cur := s.cur, draws := s.draws }

/-- A record of an issue with the progress of another. -/
def Cur.withDone (c d : Cur) : Cur := { c with done := d.done, lanes := d.lanes }

/-- Outside the issuing group nothing has changed but the record of the issue and the count of free choices. -/
def State.SameOutside (s t : State) : Prop :=
  t.withWork s = s ∧ t.cur.withDone s.cur = s.cur ∧ ∀ g, g ≠ s.cur.grp → t.group g = s.group g

/-- A stream with the program counter, wait, registers and flags of another. -/
def Stream.withRegs (y x : Stream) : Stream :=
  { y with pc := x.pc, wait := x.wait, bp := x.bp, sregs := x.sregs, preds := x.preds, fstat := x.fstat }

/-- A stream but for its program counter, wait, registers and flags. -/
def Stream.SameBut (x y : Stream) : Prop := y.withRegs x = x

/-- A warp with the registers, predicates, flags, splits, queues and pending results of another. -/
def Warp.withRegs (y x : Warp) : Warp :=
  { y with
    vregs := x.vregs
    sregs := x.sregs
    preds := x.preds
    fstat := x.fstat
    splits := x.splits
    queues := x.queues
    pend := x.pend }

/-- The pending results of a warp, whether or not a write has overtaken them. -/
def Warp.inFlight (w : Warp) : List Pend := w.pend.map fun p => { p with clash := false }

/-- A warp but for its registers, predicates, flags, splits and queues, and for pending results that a write has overtaken. -/
def Warp.SameBut (x y : Warp) : Prop := y.withRegs x = x ∧ y.inFlight = x.inFlight

/-- A group with the warps, streams and group-uniform registers of another. -/
def Group.withRegs (y x : Group) : Group :=
  { y with warps := x.warps, astr := x.astr, mstr := x.mstr, gw := x.gw, gcount := x.gcount }

/-- A group but for the registers, flags, program counters and queues of the issuing stream, and the group-uniform registers. -/
def State.SameGroup (s t : State) : Prop :=
  let x := s.curGroup
  let y := t.group s.cur.grp
  y.withRegs x = x ∧ (∀ w, w ≠ s.cur.wid → y.warp w = x.warp w) ∧ (x.warp s.cur.wid).SameBut (y.warp s.cur.wid) ∧
  (s.cur.strm ≠ .e → y.warp s.cur.wid = x.warp s.cur.wid) ∧
  (∀ st, st ≠ s.cur.strm → y.stream st = x.stream st) ∧ (x.stream s.cur.strm).SameBut (y.stream s.cur.strm)

/-- The frame of a form that computes: memory, every other group, warp and stream, the special, exception and control registers and the
scratchpad window stand as they were. -/
def State.Frame (s t : State) : Prop := s.SameOutside t ∧ s.SameGroup t

/-- The issuing split or stream continues at the next slot (04 R96), and no other split has moved. -/
def State.Advanced (s t : State) : Prop :=
  match s.cur.strm with
  | .e => (s.issuer t).splits = s.curWarp.splits.map fun x =>
      if x.lanes = s.cur.lanes then { x with pc := s.cur.npc, wait := .ready, bp := 0, wd := 0 } else x
  | st => ((t.group s.cur.grp).stream st).pc = s.cur.npc ∧ ((t.group s.cur.grp).stream st).wait = .ready

/-! ### Results -/

/-- The first register code of a vector destination (04 R90). -/
def vecBase : Operand → Option Nat
  | .v n => some n.val
  | .o n => some (0x300 + n.val)
  | _ => none

/-- The number of a scalar destination. -/
def scalarBase : Operand → Option Nat
  | .s n => some n.val
  | _ => none

/-- The number of a group-uniform destination. -/
def uniformBase : Operand → Option Nat
  | .g n => some n.val
  | _ => none

/-- The low word of a result. -/
def loWord (x : W64) : W32 := x.setWidth 32
/-- The high word of a result. -/
def hiWord (x : W64) : W32 := x.extractLsb' 32 32

/-- A vector register or h register of a lane after a fixed-latency result (04 R86 to R88; 17 R408): the destination, the last-result
file shifted, every other register as it was. -/
def Warp.after (w : Warp) (x : Operand) (wide : Bool) (g : Lanes) (val : Nat → W64) (l c : Nat) : W32 :=
  match vecBase x with
  | none => w.vreg l c
  | some b =>
    let bank := w.level && decide (codeO28 ≤ b ∧ b < codeO28 + 4)
    if !g.getLsbD l then w.vreg l c
    else if c = b then loWord (val l)
    else if wide && c == b + 1 then hiWord (val l)
    else if c < 0x320 || bank then w.vreg l c
    else if c = 0x320 then loWord (val l)
    else if wide then (if c = 0x321 then hiWord (val l) else w.vreg l (c - 2))
    else w.vreg l (c - 1)

/-- The scalar register file of the issuing stream. -/
def State.scalarFile (s t : State) (n : Nat) : W32 :=
  match s.cur.strm with
  | .e => Store.get (s.issuer t).sregs 0 n
  | st => Store.get ((t.group s.cur.grp).stream st).sregs 0 n

/-- A uniform or scalar register n after a result whose words go to b and b + 1, the value being that of the lowest lane. -/
def oneAfter (base : Option Nat) (wide : Bool) (g : Lanes) (val : Nat → W64) (n : Nat) (old : W32) : W32 :=
  match base, lowLane g with
  | some b, some l => if n = b then loWord (val l) else if wide && n == b + 1 then hiWord (val l) else old
  | _, _ => old

/-- The destination holds the results of the lanes given, and no other register has changed (04 R86 to R90, 03 R61). -/
def State.Wrote (s t : State) (x : Operand) (wide : Bool) (g : Lanes) (val : Nat → W64) : Prop :=
  (∀ l c, l < 64 → c < 0x324 → (s.issuer t).vreg l c = s.curWarp.after x wide g val l c) ∧
  (∀ n, n < 64 → s.scalarFile t n = oneAfter (scalarBase x) wide g val n (s.scalarFile s n)) ∧
  (s.cur.strm = .a → ∀ n, n < 32 → t.greg n = oneAfter (uniformBase x) wide g val n (s.greg n)) ∧
  (uniformBase x = none → (t.group s.cur.grp).gw = s.curGroup.gw)

/-- The predicate destination of the lanes given holds their results, and no other predicate has changed. -/
def State.WrotePred (s t : State) (pd : Option Nat) (g : Lanes) (val : Nat → Bool) : Prop :=
  ∀ l p, p < 8 → (s.cur.strm = .e ∧ l < 64 ∨ l = 0) → t.pred l p = if pd = some p ∧ g.getLsbD l = true then val l else s.pred l p

/-- FSTAT after live lanes raised flags: its sticky bits, at level U only (05 R133 to R135, 17 R413). -/
def State.Raised (s t : State) (fl : List (Nat × W8)) : Prop :=
  t.fstat = if s.cur.strm = .e ∧ s.curWarp.level = true then s.fstat else s.fstat ||| (orFlags fl).setWidth 32

/-- The flags that the live lanes of a form raise. -/
def State.flagsOf (s : State) (f : Full) (out : Nat → AluOut) : List (Nat × W8) := liveFlags s.liveMask (lanesOut (s.gLanes f) out)

/-- What an arithmetic form has done (06 R144): results, predicates and flags in the guard-true lanes, the next slot, nothing else. -/
structure State.Computed (s t : State) (i : Instr) (f : Full) (wide : Bool) (pd : Option Nat) (out : Nat → AluOut) : Prop where
  frame : s.Frame t
  result : s.Wrote t f.d wide (s.gLanes f) fun l => (out l).val
  pred : s.WrotePred t pd (s.gLanes f) fun l => (out l).pred
  flags : s.Raised t (s.flagsOf f out)
  advanced : s.Advanced t
  queues : s.queuesRead i f = [] → (s.issuer t).queues = s.curWarp.queues

/-- The form computes `out`: wherever it executes it completes with these results; where a flag that FSTAT enables would be raised it takes
FP_EXCEPTION instead (05 R136). -/
def Computes (i : Instr) (f : Full) (wide : Bool) (pd : Option Nat) (out : State → Nat → AluOut) : Prop :=
  ∀ s : State, s.executes i f = true →
    match s.flagTrap (s.flagsOf f (out s)) with
    | none => ∃ t, exec i s = .next t ∧ s.Computed t i f wide pd (out s)
    | some tr => exec i s = .next (s.trap tr)

/-! ### Operands and results of arithmetic -/

/-- The low bits of a source of a type, as a lane reads it. -/
def opnd (t : Ty) (f : Full) (x : Operand) (s : State) (l : Nat) : BitVec t.width := (s.src f x (wideTy t) l).setWidth t.width

/-- A source of a type as an integer: signed for .iN, unsigned for .nN (06 R149). -/
def opndInt (t : Ty) (f : Full) (x : Operand) (s : State) (l : Nat) : Int :=
  if t.signed then (opnd t f x s l).toInt else ((opnd t f x s l).toNat : Int)

/-- A result of a type's width. -/
def bitsOut {n : Nat} (x : BitVec n) : AluOut := ⟨x.setWidth 64, 0, false⟩

/-- An exact integer fitted to its type: clamped to the range, with SAT when that changes it (06 R149, `.sat`). -/
def clamped (t : Ty) (v : Int) : AluOut :=
  let c := max (intMin t) (min (intMax t) v)
  ⟨(BitVec.ofInt t.width c).setWidth 64, if c = v then 0 else flagSAT, false⟩

/-- The byte that a control byte of `bmix` makes of the eight source bytes (06 R149): the later steps take precedence. -/
def mixedByte (x : W64) (k : W8) : W8 :=
  let y : W8 := BitVec.ofNat 8 (x.toNat / 2 ^ (8 * (k.toNat % 8)))
  if k.getLsbD 3 then 0
  else if k.getLsbD 4 then (if (if k.getLsbD 5 then y.getLsbD 0 else y.getLsbD 7) then 0xFF else 0)
  else if k.getLsbD 5 then BitVec.ofFnLE fun i : Fin 8 => y.getLsbD (7 - i)
  else y

/-- The value is a zero. -/
def XR.isZero : XR → Bool
  | .zero _ => true
  | _ => false

/-- The value of an encoding, negated where the form says so (06 R151). -/
def fnum (F : Fmt) (neg : Bool) (x : Nat) : XR := if neg then (F.dec x).negate else F.dec x

/-- An FP32 source as a value: flushed under .ftz, negated by bit i of the variant (05 R130, 06 R151). -/
def State.fopnd (s : State) (f : Full) (m : AluMod) (i : Nat) (x : Operand) (l : Nat) : XR :=
  fnum .f32 (m.var.getLsbD i) (ftzIn s.ftz (s.src32 f x l).toNat)

/-- An FP32 source as an encoding: flushed under .ftz, its sign bit inverted by bit i of the variant. -/
def State.fbits (s : State) (f : Full) (m : AluMod) (i : Nat) (x : Operand) (l : Nat) : Nat :=
  negBits .f32 (m.var.getLsbD i) (ftzIn s.ftz (s.src32 f x l).toNat)

/-- Half h of a packed source as an encoding. -/
def State.half (s : State) (f : Full) (m : AluMod) (x : Operand) (l h : Nat) : Nat :=
  (s.srcPacked (packedFmt m.ty) f x l).toNat / 65536 ^ h % 65536

/-- Half h of a packed source as a value, negated by bit i of the variant. -/
def State.hopnd (s : State) (f : Full) (m : AluMod) (i : Nat) (x : Operand) (l h : Nat) : XR :=
  fnum (packedFmt m.ty) (m.var.getLsbD i) (s.half f m x l h)

/-- Half h of a packed source as an encoding, its sign bit inverted by bit i of the variant. -/
def State.hbits (s : State) (f : Full) (m : AluMod) (i : Nat) (x : Operand) (l h : Nat) : Nat :=
  negBits (packedFmt m.ty) (m.var.getLsbD i) (s.half f m x l h)

/-- A packed result: half 0 in the low bits, the flags of both (06 R151). -/
def packedOut (op : Nat → Nat × W8) : AluOut :=
  ⟨(BitVec.ofNat 32 ((op 0).1 + 65536 * (op 1).1)).setWidth 64, (op 0).2 ||| (op 1).2, false⟩

/-- The lesser or greater of two encodings, -0 below +0; a NaN gives way to the other operand, and two give the canonical NaN (06 R152). -/
def extreme (F : Fmt) (isMax : Bool) (x y : Nat) : Nat × W8 :=
  let a := F.dec x
  let b := F.dec y
  let r := if a.isNan && b.isNan then F.nanBits
    else if a.isNan then y
    else if b.isNan then x
    else if a.isZero && b.isZero then F.withSign (if isMax then F.sign x && F.sign y else F.sign x || F.sign y) 0
    else if isMax then (if xlt a b then y else x)
    else if xlt b a then y
    else x
  (r, flagIf (a.isSig || b.isSig) flagNV)

/-- The easy set of `fdivfx` (06 R160). -/
def easyQuotient (b c : XR) : Bool :=
  match b, c with
  | .num p, .num q =>
    let e := floorLog2 (ratAbs p)
    let e' := floorLog2 (ratAbs q)
    decide (-124 ≤ e ∧ e ≤ 125 ∧ -124 ≤ e' ∧ e' ≤ 125 ∧ -124 ≤ e - e' ∧ e - e' ≤ 125)
  | _, _ => false

/-- The easy set of `fsqrtfx` (06 R160). -/
def easyRoot (b : XR) : Bool :=
  match b with
  | .num p => decide (0 < p ∧ -124 ≤ floorLog2 p ∧ floorLog2 p ≤ 125)
  | _ => false

/-- A register image of an integer element: extended to 32 bits by its type, or 64 bits wide (06 R161). -/
def extended (t : Ty) (v : BitVec t.width) : W64 :=
  if t.width = 64 then v.setWidth 64 else if t.signed then (v.signExtend 32).setWidth 64 else (v.setWidth 32).setWidth 64

/-- The integer element in the low bits of a source; the .i4 code 0b1000 counts as 0 (05 R126). -/
def elementInt (t : Ty) (x : W64) : Int :=
  if t = .i4 ∧ x.setWidth 4 = 8#4 then 0 else if t.signed then (x.setWidth t.width).toInt else (x.setWidth t.width).toNat

/-- I4R where an .i4 element reads 0b1000 (05 R126). -/
def elementFlag (t : Ty) (x : W64) : W8 := flagIf (t = .i4 ∧ x.setWidth 4 = 8#4) flagI4R

/-- A word with `n` bits from `pos` replaced by the low bits of x. -/
def placed (c x : W32) (pos n : Nat) : W32 :=
  BitVec.ofFnLE fun i : Fin 32 => if pos ≤ i.val ∧ i.val < pos + n then x.getLsbD (i.val - pos) else c.getLsbD i.val

/-- Two elements converted by a pack form, side by side from bit pos of a word (06 R162). -/
def packedAt (ftz : Bool) (m : AluMod) (pos : Nat) (a b : W64) (c : W32) : AluOut :=
  let n := m.ty.width
  let x := convElem ftz m.ty (packSrc m.ty) m.rnd m.sat a
  let y := convElem ftz m.ty (packSrc m.ty) m.rnd m.sat b
  ⟨(placed (placed c (loWord x.1) pos n) (loWord y.1) (pos + n) n).setWidth 64, x.2 ||| y.2, false⟩

/-! ### Results of lanes and of pair words -/

/-- The lanes for which a property holds, as a mask (07 R168). -/
def lanesWhere (p : Nat → Bool) : Lanes := BitVec.ofFnLE fun i : Fin 64 => p i.val

/-- The result of a half in one lane (04 R104): the form of the table with D and S as its sources. -/
def State.halfResult (s : State) (p : PairOp) (r : Rnd) (d x : POperand) (l : Nat) : AluOut :=
  let f := halfFull false 7
  let a := s.src32 f (pairOperand d) l
  let b := s.src32 f (pairOperand x) l
  let fa := Fmt.f32.dec (ftzIn s.ftz a.toNat)
  let fb := Fmt.f32.dec (ftzIn s.ftz b.toNat)
  let m : AluMod := ⟨0, false, r, .bf16⟩
  match p with
  | .mov => bitsOut b
  | .movF => bitsOut b
  | .iadd => bitsOut (a + b)
  | .isub => bitsOut (a - b)
  | .and => bitsOut (a &&& b)
  | .or => bitsOut (a ||| b)
  | .xor => bitsOut (a ^^^ b)
  | .shl => bitsOut (a <<< (b.toNat % 32))
  | .shr => bitsOut (a >>> (b.toNat % 32))
  | .sar => bitsOut (a.sshiftRight (b.toNat % 32))
  | .imin => bitsOut (if b.toInt < a.toInt then b else a)
  | .imax => bitsOut (if a.toInt < b.toInt then b else a)
  | .fadd => fval (fround .f32 s.ftz false r (xadd r fa fb))
  | .fsub => fval (fround .f32 s.ftz false r (xadd r fa fb.negate))
  | .fmul => fval (fround .f32 s.ftz false r (xmul fa fb))
  | .fmin => fval (extreme .f32 false (ftzIn s.ftz a.toNat) (ftzIn s.ftz b.toNat))
  | .fmax => fval (extreme .f32 true (ftzIn s.ftz a.toNat) (ftzIn s.ftz b.toNat))
  | .hadd2 => packedOut fun h => fround .bf16 false false r (xadd r (s.hopnd f m 0 (pairOperand d) l h) (s.hopnd f m 0 (pairOperand x) l h))
  | .hmul2 => packedOut fun h => fround .bf16 false false r (xmul (s.hopnd f m 0 (pairOperand d) l h) (s.hopnd f m 0 (pairOperand x) l h))

/-- What a half writes: its destination, the lanes its guard selects, and the results. -/
def State.halfWrites (s : State) (h : Half) : Operand × Lanes × (Nat → AluOut) :=
  match h with
  | .nop => (.null, 0, fun _ => .pure 0)
  | .op p r neg guard d x => (pairOperand d, s.gLanes (halfFull neg guard), s.halfResult p r d x)

/-- The flags that the live lanes of a half raise. -/
def State.halfFlags (s : State) (h : Half) : List (Nat × W8) :=
  let x := s.halfWrites h
  liveFlags s.liveMask (lanesOut x.2.1 x.2.2)

/-- A pair word executes: a split stands at its issue, the kernel admits its operands and no half meets a hazard (04 R105, R111). -/
def State.pairExecutes (s : State) (h0 h1 : Half) : Bool :=
  (Instr.pairWord h0 h1).wf && s.cur.fresh && s.cur.strm == .e &&
  ((halfOperands h0 ++ halfOperands h1).all fun o => s.operandOk (halfFull false 7) (.src false false) o) &&
  (s.halfHazard h0).isNone && (s.halfHazard h1).isNone

/-- No register, predicate or flag has changed. -/
def State.SameRegs (s t : State) : Prop :=
  (∀ l c, l < 64 → c < 0x324 → (s.issuer t).vreg l c = s.curWarp.vreg l c) ∧ (∀ n, n < 64 → s.scalarFile t n = s.scalarFile s n) ∧
  (t.group s.cur.grp).gw = s.curGroup.gw ∧ (∀ n, n < 32 → t.greg n = s.greg n)

/-- No predicate has changed. -/
def State.SamePreds (s t : State) : Prop := ∀ l p, p < 8 → (s.cur.strm = .e ∧ l < 64 ∨ l = 0) → t.pred l p = s.pred l p

/-- The fold of `redux` over the participants in ascending lane order, with the flags of every step (07 R171). -/
def State.folded (s : State) (f : Full) (op : Nat) (ty : Ty) : AluOut :=
  match (laneList (s.gLive f)).map (s.src32 f f.a) with
  | [] => .pure 0
  | x :: xs =>
    let r := xs.foldl (fun (acc : W32 × W8) y =>
      let a := acc.1
      let fa := Fmt.f32.dec (ftzIn s.ftz a.toNat)
      let fy := Fmt.f32.dec (ftzIn s.ftz y.toNat)
      let lt (x y : W32) : Bool := if ty = .i32 then decide (x.toInt < y.toInt) else decide (x.toNat < y.toNat)
      let step : W32 × W8 :=
        if ty = .f32 then
          let r := if op = 0 then fround .f32 s.ftz false .rne (xadd .rne fa fy)
            else extreme .f32 (op != 1) (ftzIn s.ftz a.toNat) (ftzIn s.ftz y.toNat)
          (BitVec.ofNat 32 r.1, r.2)
        else match op with
          | 0 => (a + y, 0)
          | 1 => (if lt y a then y else a, 0)
          | 2 => (if lt a y then y else a, 0)
          | 3 => (a &&& y, 0)
          | 4 => (a ||| y, 0)
          | _ => (a ^^^ y, 0)
      (step.1, acc.2 ||| step.2)) (x, 0)
    ⟨r.1.setWidth 64, r.2, false⟩

/-- The value that quad lane j gives to lane l, its own where lane j is outside the issuing split (02 R49). -/
def State.quadAt (s : State) (f : Full) (l j : Nat) : W32 :=
  s.src32 f f.a (if s.cur.lanes.getLsbD (l / 4 * 4 + j) then l / 4 * 4 + j else l)

/-- QPART where a lane of the quad is outside the issuing split (02 R49). -/
def State.quadPart (s : State) (l : Nat) : W8 :=
  let q := l / 4 * 4
  flagIf (!(s.cur.lanes.getLsbD q && s.cur.lanes.getLsbD (q + 1) && s.cur.lanes.getLsbD (q + 2) && s.cur.lanes.getLsbD (q + 3))) flagQPART

/-- The difference of quad lanes i and j, rounded to nearest (07 R174). -/
def State.quadMinus (s : State) (f : Full) (l i j : Nat) : AluOut :=
  let r := fround .f32 s.ftz false .rne
    (xadd .rne (Fmt.f32.dec (ftzIn s.ftz (s.quadAt f l i).toNat)) (Fmt.f32.dec (ftzIn s.ftz (s.quadAt f l j).toNat)).negate)
  ⟨BitVec.ofNat 64 r.1, r.2 ||| s.quadPart l, false⟩

/-! ### Control -/

/-- The issuing split is one of its warp's; a stream stands as it is. -/
def State.stands (s : State) : Bool := s.cur.strm != .e || s.curWarp.splits.any fun x => x.lanes == s.cur.lanes

/-- Nothing of the machine has changed but where lanes or the stream continue: no register, predicate or flag, no memory. -/
def State.Kept (s t : State) : Prop := s.Frame t ∧ s.SameRegs t ∧ s.SamePreds t ∧ t.fstat = s.fstat

/-- Each lane of the issuing split stands at its target, with the lanes that go the same way, and the other splits where they were. -/
def State.ContinuesAt (s t : State) (tgt : Nat → W64) : Prop :=
  match s.cur.strm with
  | .e =>
    (∀ l, l < 64 → s.cur.lanes.getLsbD l = true → ∃ x ∈ (s.issuer t).splits, x.lanes.getLsbD l = true ∧ x.pc = tgt l ∧ x.wait = .ready ∧
      ∀ k, k < 64 → x.lanes.getLsbD k = true → s.cur.lanes.getLsbD k = true ∧ tgt k = x.pc) ∧
    ∀ x ∈ s.curWarp.splits, x.lanes ≠ s.cur.lanes → x ∈ (s.issuer t).splits
  | st => ((t.group s.cur.grp).stream st).pc = tgt 0 ∧ ((t.group s.cur.grp).stream st).wait = .ready

/-- The address that a branch offset names: bundles of 32 bytes from the start of the branch's own (07 R176). -/
def State.offsetTarget (s : State) (off : BitVec 30) : W64 := (s.cur.pc &&& ~~~31#64) + 32 * off.signExtend 64

/-- The address of the bundle after the issuing one. -/
def State.nextBundle (s : State) : W64 := (s.cur.pc &&& ~~~31#64) + 32

/-- The operand is a queue. -/
def readsQueue : Operand → Bool
  | .q _ => true
  | _ => false

/-- A lane's target register does not name the start of a bundle; a queue gives a target to guard-true lanes only (04 R117). -/
def State.offBundle (s : State) (f : Full) (l : Nat) : Bool :=
  s.cur.lanes.getLsbD l && ((s.gLanes f).getLsbD l || !readsQueue f.a) && (s.src f f.a true l).extractLsb' 0 5 != 0

/-- Some lane's target register does not name the start of a bundle. -/
def State.anyOffBundle (s : State) (f : Full) : Bool := (List.range 64).any (s.offBundle f)

/-- The form takes TARGET_MISALIGNED with the lanes concerned in TMASK, and has no effect (04 R117). -/
def State.MisalignedTarget (s : State) (i : Instr) (f : Full) : Prop :=
  exec i s = .next (s.trap (s.decodeTrap .targetMisaligned 0 0 (lanesWhere (s.offBundle f))))

/-- The lanes whose quad still has a live lane once the lanes of a mask have left (02 R51). -/
def quadAlive (live : Lanes) (l : Nat) : Bool :=
  let q := l / 4 * 4
  live.getLsbD q || live.getLsbD (q + 1) || live.getLsbD (q + 2) || live.getLsbD (q + 3)

/-- The lanes of a mask have left every split of a warp. -/
def Warp.Left (w : Warp) (m : Lanes) : Prop := ∀ x ∈ w.splits, x.lanes &&& m = 0

/-- A lane of the issuing split in a later state: its split, its program counter and its wait. -/
def State.LaneAt (s t : State) (l : Nat) (pc : W64) (p : Wait → Prop) : Prop :=
  ∃ x ∈ (s.issuer t).splits, x.lanes.getLsbD l = true ∧ x.pc = pc ∧ p x.wait

/-- The lanes parked at `wjoin` at the issuing address once the issuing split has joined them (07 R173). -/
def State.joinedHere (s : State) : Lanes :=
  s.cur.lanes ||| lanesWhere fun l => s.curWarp.splits.any fun x =>
    x.lanes.getLsbD l && slotAddr x.pc == slotAddr s.cur.pc && (match x.wait with | .wjoin _ _ => true | _ => false)

/-- The lanes a lane names at `wjoin`: its mask within the kernel's width, and itself. -/
def State.namedBy (s : State) (f : Full) (l : Nat) : Lanes :=
  lanesWhere fun k => k == l || (decide (k < s.curGroup.kernel.width) && (s.src f f.a true l).getLsbD k)

/-! ### Traps -/

/-- A warp can enter its handler at once: it is at level U, no trap is due or at the server, no result of a ray, texture or upcall is outstanding, no
partner issue is to come, and its context has a handler (17 R411, R412). -/
def State.canEnter (s : State) (g w : Nat) : Bool :=
  let y := s.warp g w
  !y.level && y.due.isNone && y.esc.isNone && !y.mustWait && !s.partnerOf g w && (s.gctx g).tbase != 0

/-- A warp that stands in its handler for a trap (17 R412): the trap registers, level H, every live lane at TBASE, the splits saved. -/
structure Warp.Entered (x y : Warp) (tbase : W64) (strm : Strm) (t : Trap) : Prop where
  cause : y.tcause = BitVec.ofNat 64 t.cause.code
  stream : y.tstream = BitVec.ofNat 64 (strmCode strm)
  pc : y.tpc = t.pc ∧ y.tpcin = t.pc
  mask : y.tmask = t.mask
  info : y.tinfo0 = t.i0 ∧ y.tinfo1 = t.i1 ∧ y.tinfo2 = t.i2 ∧ y.tinfo3 = t.i3
  level : y.level = true
  splits : y.splits = [Split.at x.live tbase]
  saved : y.saved.map (fun z => { z with trapped := false }) = x.splits.map fun z => { z with trapped := false }
  landed : ∀ p ∈ y.pend, 64 ≤ p.lane
  settled : ∀ l c, l < 64 → c < 0x31C → x.pendOf (1024 * l + c) = [] → y.vreg l c = x.vreg l c
  arrived : ∀ l c p, l < 64 → c < 0x31C → x.pendOf (1024 * l + c) = [p] → p.clash = false → y.vreg l c = p.val
  scalars : ∀ n, n < 64 → x.pendOf (scalarKey n) = [] → Store.get y.sregs 0 n = Store.get x.sregs 0 n
  preds : ∀ l p, p < 7 → (Store.get y.preds 0 l).getLsbD p = (Store.get x.preds 0 l).getLsbD p
  rest : y.live = x.live ∧ y.helper = x.helper ∧ y.fstat = x.fstat ∧ y.queues = x.queues ∧ y.wdlimit = x.wdlimit

/-! ### Memory -/

/-- The checks of 09 R233 on the accesses of the live guard-true lanes of a form, and the machine after them. -/
def State.accessChecks (s : State) (f : Full) (sp : Space) (n : Nat) (need : Need) (ea : Nat → Int) (lvl : Nat → Nat) : List LaneSpot × State :=
  s.spots s.cur.grp s.agent (fun l => ⟨sp, ea l, n, need, lvl l⟩) (laneList (s.gLive f))

/-- Every one of these accesses passes its checks. -/
def State.accessesPass (s : State) (f : Full) (sp : Space) (n : Nat) (need : Need) (ea : Nat → Int) (lvl : Nat → Nat) : Bool :=
  (failing (s.accessChecks f sp n need ea lvl).1).isEmpty

/-- The places of these accesses, by lane. -/
def State.places (s : State) (f : Full) (sp : Space) (n : Nat) (need : Need) (ea : Nat → Int) (lvl : Nat → Nat) : List (Nat × Spot) :=
  (s.accessChecks f sp n need ea lvl).1.filterMap fun p => match p.2 with | .ok q => some (p.1, q) | .error _ => none

/-- A later state with memory, the group's window, and the pending results and acquired reads of the issuing warp as they were. -/
def State.memoryUndone (s t : State) : State :=
  { (t.modWarp s.cur.grp s.cur.wid fun y => { y with pend := s.curWarp.pend, acqs := s.curWarp.acqs, relScope := s.curWarp.relScope }).modGroup
      s.cur.grp (fun x => { x with scratch := s.curGroup.scratch, spoison := s.curGroup.spoison }) with mem := s.mem }

/-- Nothing but memory, the window and pending results has changed. -/
def State.KeptButMemory (s t : State) : Prop := s.Kept (s.memoryUndone t)

/-- A form may meet write-backs that a range lock holds: it has a scope, in the global space, while something is locked (08 R215, R230). -/
def State.mayMeetLocks (s : State) (sp : Space) (sc : Scope) : Bool := sp == .g && sc != .plain && !s.mem.locks.isEmpty

/-- The form waits at its slot for write-backs that a range lock holds, and nothing of it has happened (08 R215, R216). -/
def State.WaitsForBacks (s : State) (i : Instr) : Prop := exec i s = .next (s.park .backs)

/-- A cache has room for k more lines. -/
def Mem.roomy (m : Mem) (id : CacheId) (k : Nat) : Bool := decide ((m.cache id).length + k ≤ id.lines)

/-- The group's window of the scratchpad is as it was. -/
def State.SameWindow (s t : State) : Prop :=
  (t.group s.cur.grp).scratch = s.curGroup.scratch ∧ (t.group s.cur.grp).spoison = s.curGroup.spoison

/-- The words of a result are pending in a destination until a switch marker (04 R108), in each lane given, or for the lowest one where it is a
scalar register; what was pending is so still. -/
def State.Awaits (s t : State) (d : Operand) (g : Lanes) (val : Nat → List W32) : Prop :=
  s.curWarp.pend <+: (s.issuer t).pend ∧
  (∀ l b, l < 64 → g.getLsbD l = true → vecBase d = some b → ∀ k x, (val l)[k]? = some x →
    ∃ p ∈ (s.issuer t).pend, p.key = s.curWarp.regKey l (b + k) ∧ p.val = x ∧ p.landed = false) ∧
  (∀ l n, lowLane g = some l → scalarBase d = some n → ∀ k x, (val l)[k]? = some x →
    ∃ p ∈ (s.issuer t).pend, p.key = scalarKey (n + k) ∧ p.val = x ∧ p.landed = false) ∧
  (vecBase d = none → scalarBase d = none → (s.issuer t).pend = s.curWarp.pend)

/-- Byte i of a value. -/
def byteOf (v i : Nat) : W8 := BitVec.ofNat 8 (v / 256 ^ i)

/-- The byte that the stores of lanes leave at an address of the window: the highest lane that covers it counts (09 R234). -/
def stored (n : Nat) (ea : Nat → Int) (data : Nat → Nat) (lanes : List Nat) (a : Nat) (before : W8) : W8 :=
  lanes.foldl (fun b l => if (ea l).toNat ≤ a ∧ a < (ea l).toNat + n then byteOf (data l) (a - (ea l).toNat) else b) before

/-- Byte i of the line of a cache with a tag, where it is valid there. -/
def Mem.cacheByte (m : Mem) (id : CacheId) (t : LineTag) (i : Nat) : Option W8 :=
  match m.line id t with
  | some x => if x.valid.getLsbD i then some (x.data.extractLsb' (8 * i) 8) else none
  | none => none

/-- The byte that a store of a place leaves in a line. -/
def storedInLine (a : Agent) (n v : Nat) (l : Loc) (t : LineTag) (i : Nat) (before : Option W8) : Option W8 :=
  if a.tag l = t ∧ l.va % 128 ≤ i ∧ i < l.va % 128 + n then some (byteOf v (i - l.va % 128)) else before

/-- One step of an atomic operation on the window: the value returned and the bytes after (09 R240). -/
def State.windowStep (s : State) (f : Full) (x : Operand) (op : BitVec 5) (off : Nat) (l : Nat) (b : Store W8) : Nat × Store W8 :=
  let n := atomSize op
  let old := readBytes b off n
  let put (v : Nat) : Store W8 := putBytes b off (bytesOf n v)
  if op = 0x12 then (old, if old = (s.src f f.b false l).toNat then put (s.src f (operandPlus f.b 1) false l).toNat else b)
  else if op = 0x13 then (old, if old = (s.src f f.b true l).toNat then put (s.src f (operandPlus f.b 2) true l).toNat else b)
  else if op = 0x17 then (old, put (atomNew op.toNat false old (s.srcPacked .bf16 f x l).toNat))
  else (old, put (atomNew op.toNat false old (s.src f x (n == 8) l).toNat))

/-- The steps of lanes in ascending order: what each reads, and the window after (09 R240). -/
def State.windowSteps (s : State) (f : Full) (x : Operand) (op : BitVec 5) (ea : Nat → Int) (lanes : List Nat) : List (Nat × Nat) × Store W8 :=
  lanes.foldl (fun (r : List (Nat × Nat) × Store W8) l =>
    let y := s.windowStep f x op (ea l).toNat l r.2
    (r.1 ++ [(l, y.1)], y.2)) ([], s.curGroup.scratch)

/-! ### Queues and the access stream -/

/-- The element at a lane's head of a queue as a pop gives it: zero to a helper lane (02 R50, 03 R68). -/
def State.queueValue (s : State) (q l : Nat) : W64 :=
  if s.cur.strm = .e ∧ s.curWarp.helper.getLsbD l = true then 0
  else match (s.curWarp.queue q).elem l with
    | some (.data x) => x
    | _ => 0

/-- The lanes given have passed n entries of a queue, and entries that every live lane has passed are gone (03 R66, R70). -/
def State.QueueMoved (s t : State) (q : Nat) (lanes : Lanes) (n : Nat → Nat) : Prop :=
  let x := s.curWarp.queue q
  let y := (s.issuer t).queue q
  (∀ l, l < 64 → y.head l = x.head l + if lanes.getLsbD l then n l else 0) ∧
  (lanes ≠ 0 → ∀ e, e ∈ y.entries ↔ e ∈ x.entries ∧ (e.complete = false ∨ ∃ l, l < 64 ∧ s.curWarp.live.getLsbD l = true ∧ y.head l ≤ e.seq)) ∧
  y.tail = x.tail ∧ y.closed = x.closed ∧ ∀ k, k ≠ q → (s.issuer t).queue k = s.curWarp.queue k

/-- The issuing split waits at the form for queues (03 R69), in the lanes given. -/
def State.WaitsForQueue (s t : State) (p : Wait → Prop) : Prop :=
  s.Kept t ∧ ∀ l, l < 64 → s.cur.lanes.getLsbD l = true → s.LaneAt t l s.cur.pc p

/-- The issuing stream waits at the form. -/
def State.StreamWaits (s t : State) (w : Wait) : Prop :=
  s.Kept t ∧ ((t.group s.cur.grp).stream s.cur.strm).wait = w ∧
  ((t.group s.cur.grp).stream s.cur.strm).pc = s.cur.pc

/-- A later state with the back-queue, the generators, indices and round-robin pointers of the issuing group as they were. -/
def State.accessUndone (s t : State) : State :=
  t.modGroup s.cur.grp fun x => { x with qb := s.curGroup.qb, gens := s.curGroup.gens, idx := s.curGroup.idx, rr := s.curGroup.rr }

/-- The address of element p of warp w of generator k (09 R254): mod 2^64 in the global space, exact in the scratchpad. -/
def State.elementAddress (s : State) (k : Nat) (global : Bool) (size : Nat) (off : BitVec 10) (p w : Nat) : Int :=
  let x := s.curGroup
  let y := x.gen k
  let i (n : Nat) : Int := ((Store.get x.idx 0 n).toNat : Int)
  let steps : Int := p * y.lane.toInt + w * y.warp.toInt + i 0 * y.l0.toInt + i 1 * y.l1.toInt + i 2 * y.l2.toInt + i 3 * y.l3.toInt +
    off.toInt * size
  if global then (y.base.toNat + steps) % 2 ^ 64 else y.base.toNat + steps

/-! ### Engines -/

/-- A later state with memory, the engines, outstanding faults and the issuing group's record of its copies as they were. -/
def State.engineUndone (s t : State) : State :=
  { (s.memoryUndone t).modGroup s.cur.grp (fun x => { x with copySeq := s.curGroup.copySeq, cstat := s.curGroup.cstat }) with
    eng := s.eng, faults := s.faults, nextTok := s.nextTok }

/-- The lanes of a list of copies. -/
def copyLanes (l : List CopySpec) : Lanes := lanesWhere fun k => l.any fun p => p.lane == k

/-- The handle of a lane among copies numbered from n (09 R268). -/
def handleOf (n : Nat) (l : List CopySpec) (k : Nat) : W64 :=
  match l.zipIdx.find? fun p => p.1.lane == k with
  | some (p, i) => (copyHandle (n + i) p.eng).setWidth 64
  | none => 0

/-- A later state with memory, the engines, the queues, outstanding faults, and the issuing group's copies, reservations and upcalls as
they were. -/
def State.workUndone (s t : State) : State :=
  { ((s.engineUndone t).modGroup s.cur.grp (fun x => { x with resv := s.curGroup.resv, tdone := s.curGroup.tdone })).modWarp s.cur.grp s.cur.wid
      (fun y => { y with ups := s.curWarp.ups }) with
    work := s.work }

/-- The lanes of the issuing split that a predicate picks wait at the form, the others go on. -/
def State.SomeWait (s t : State) (stays : Nat → Bool) (w : Wait → Prop) : Prop :=
  ∀ l, l < 64 → s.cur.lanes.getLsbD l = true → if stays l then s.LaneAt t l s.cur.pc w else s.LaneAt t l s.cur.npc (· = .ready)

/-! ### Matrix arrays -/

/-- A scratchpad range of a matrix operation passes its checks (10 R288, R291, R293): window, alignment, locks, and poison of what it reads. -/
def State.matrixRangeOk (s : State) (a : W32) (n align : Nat) (writes : Bool) : Bool :=
  decide (a.toNat + n ≤ s.curGroup.kernel.scratch) && a.toNat % align == 0 && !s.mem.lockedScratch s.cur.grp a.toNat n (!writes) &&
    (writes || !s.curGroup.scratchBad a.toNat n)

/-- A later state with the claim and the arrays of the issuing group as they were. -/
def State.arraysUndone (s t : State) : State :=
  t.modGroup s.cur.grp fun y => { y with claim := s.curGroup.claim, phys := s.curGroup.phys, arrays := s.curGroup.arrays }

/-- A later state with the format and the scale table of the issuing group, and the issuing warp's count of writes for others, as they
were. -/
def State.formatUndone (s t : State) : State :=
  (t.modGroup s.cur.grp fun y =>
    { y with gfmt := s.curGroup.gfmt, est := s.curGroup.est, fmtSeen := s.curGroup.fmtSeen, scalePend := s.curGroup.scalePend }).modWarp
    s.cur.grp s.cur.wid fun w => { w with mWrites := s.curWarp.mWrites }

/-- A later state with the claim, the arrays, the format and what barriers carry of it as they were. -/
def State.releaseUndone (s t : State) : State :=
  (s.formatUndone (s.arraysUndone t)).modGroup s.cur.grp fun y => { y with bars := s.curGroup.bars, cbar := s.curGroup.cbar }

/-- The issuing group gave up what it had claimed: the claim, its arrays, and the format with what barriers carry of it; all else of its barriers
is as it was (10 R283, R298). -/
def State.Released (s t : State) : Prop :=
  let x := s.curGroup
  let y := t.group s.cur.grp
  let cut (b : Bar) : Bar := if x.claim = 0 then b else { b with fmt := false }
  y.claim = 0 ∧ (x.claim ≠ 0 → y.phys = [] ∧ y.est = false) ∧ (∀ n, y.bar n = cut (x.bar n)) ∧ y.cbar = cut x.cbar

/-- The form takes MATRIX_STATE with a reason and a detail (10 R299). -/
def State.MatrixTrapped (s : State) (i : Instr) (reason detail : Nat) (m : Lanes) : Prop :=
  exec i s = .next (s.trap (s.mkTrap .matrixState m (BitVec.ofNat 64 reason) (BitVec.ofNat 64 detail) 0 0))

/-- An operation enters the port of an array, or its stream waits while eight are outstanding there (10 R294). -/
def State.EntersPort (s : State) (i : Instr) (arr : Nat) (op : MOp) : Prop :=
  let y := s.curGroup.array arr
  let ld : Bool := op.kind == .wld
  ∃ t, exec i s = .next t ∧
    if (if ld then y.loadQ else y.compQ).length < 8 then
      s.Kept (s.arraysUndone t) ∧ s.Advanced t ∧ (t.group s.cur.grp).claim = s.curGroup.claim ∧
      (∀ n, n ≠ arr → (t.group s.cur.grp).array n = s.curGroup.array n) ∧
      (t.group s.cur.grp).array arr = if ld then { y with loadQ := y.loadQ ++ [op] } else { y with compQ := y.compQ ++ [op] }
    else s.StreamWaits t (.matrix false false false (some (arr, ld)))

/-! ### Lists of engine commands -/

/-- The command at an address of the list that a partition's `ivld` reads is the next one, and can be read: what it says, and the machine after
the read, an acquire at .dev (14 R380). -/
def State.NextCommand (s : State) (part asid : Nat) (addr : W64) (w : BitVec 256) (u : State) : Prop :=
  (s.cmdList part).next.all (· == (asid, addr)) = true ∧ s.readCommand part asid addr = some (w, u)

/-- A command of a list that is to be refused (14 R382): its bytes or its operands break a limit, or its place is not the partition's now. -/
def State.Offends (s : State) (part : Nat) (l : List CmdEntry) (j : Nat) : Prop :=
  ∃ e, l[j]? = some e ∧ (e.ok = false ∨ s.cmdUnit part e = none)

/-- A command joined its partition's list, and nothing else happened but its read; a 257th refuses the list, with the first offending
command's index plus one as the answer, or 257 where none offends (14 R380, R382). -/
def State.JoinsList (s t : State) (part asid : Nat) (addr : W64) (u : State) (e : CmdEntry) : Prop :=
  let l := (s.cmdList part).cmds
  t.groups = s.groups ∧ t.mem = u.mem ∧ t.eng.heads = s.eng.heads ∧ t.eng.slots = s.eng.slots ∧
  (∀ p, p ≠ part → t.cmdList p = s.cmdList p) ∧
  if l.length < 256 then t.cmdList part = ⟨l ++ [e], some (asid, addr + 32)⟩ ∧ t.eng.listAnswer = s.eng.listAnswer
  else t.cmdList part = CmdList.blank ∧ ∃ b, Store.get t.eng.listAnswer 0 part = b + 1 ∧ (∀ j, j < b → ¬ s.Offends part l j) ∧
    (s.Offends part l b ∨ b = 256)

/-- What an accepted command leaves with its unit: ENCODE names its head by physical number. -/
def State.queuedAs (s : State) (part : Nat) (e : CmdEntry) : Cmd :=
  match e.cmd with
  | .encode x => .encode { x with head := (s.unit part 5 x.head).getD 0 }
  | c => c

/-- The commands of a list for a head or an encoder slot, in order. -/
def State.forUnit (s : State) (part : Nat) (l : List CmdEntry) (slot : Bool) (v : Nat) : List Cmd :=
  l.filterMap fun e => if e.slot = slot ∧ s.cmdUnit part e = some v then some (s.queuedAs part e) else none

/-- An encoder slot's state after a superblock row of a frame (12 R345): a row less is left and the bytes go on inside the ring, or, after the last
one, the frame is counted and the write offset moved. -/
def EncSlot.RowDone (e : EncSlot) (a : EncodeArgs) (j : EncJob) (x : EncSlot) : Prop :=
  ∃ off, (0 < a.size → off < a.size) ∧ x =
    if 1 < j.left then { e with job := some ⟨j.key, j.left - 1, off⟩ }
    else { e with offset := off, frames := e.frames + 1, key := false, job := none }

/-- The product sum of an integer row (05 R141). -/
def dotProduct (n : Nat) (a w : Nat → Int) : Int := (List.range n).foldl (fun acc k => acc + a k * w k) 0

end Sys2Proof.Machine
end

