-- ==== Sys2Proof/Certificates/Slice0/Obligations.lean ====
section
/-!
DEFINITION. The statements about the machine that the provers prove, each a proposition of its own.
-/

open Sys2Proof Sys2Proof.Machine

/-! ### Arithmetic (chapter 06) -/

/-- Sums, differences, products, magnitudes and extremes complete with the results of 06 R149: without `.sat` the low bits, with `.sat` the
exact value clamped; carry and borrow go to the predicate that MOD[9:7] names. -/
def Obligations.IntegerArithmeticResults : Prop :=
  ∀ (f : Full) (m : AluMod),
    (Computes (.iadd f m) f (wideTy m.ty) none fun s l =>
      if m.sat then clamped m.ty (opndInt m.ty f f.a s l + opndInt m.ty f f.b s l)
      else bitsOut (opnd m.ty f f.a s l + opnd m.ty f f.b s l)) ∧
    (Computes (.isub f m) f (wideTy m.ty) none fun s l =>
      if m.sat then clamped m.ty (opndInt m.ty f f.a s l - opndInt m.ty f f.b s l)
      else bitsOut (opnd m.ty f f.a s l - opnd m.ty f f.b s l)) ∧
    (Computes (.iaddc f m) f false (if m.var = 7 then none else some m.var.toNat) fun s l =>
      let t := (opnd .n32 f f.a s l).toNat + (opnd .n32 f f.b s l).toNat + (s.src f f.c false l).toNat % 2
      ⟨BitVec.ofNat 64 (t % 2 ^ 32), 0, decide (2 ^ 32 ≤ t)⟩) ∧
    (Computes (.isubb f m) f false (if m.var = 7 then none else some m.var.toNat) fun s l =>
      let a := (opnd .n32 f f.a s l).toNat
      let b := (opnd .n32 f f.b s l).toNat + (s.src f f.c false l).toNat % 2
      ⟨BitVec.ofNat 64 ((a + 2 ^ 33 - b) % 2 ^ 32), 0, decide (a < b)⟩) ∧
    (Computes (.imul f m) f false none fun s l =>
      if m.sat then clamped m.ty (opndInt m.ty f f.a s l * opndInt m.ty f f.b s l)
      else bitsOut (opnd m.ty f f.a s l * opnd m.ty f f.b s l)) ∧
    (Computes (.imulhi f m) f false none fun s l =>
      let x := s.src32 f f.a l
      let y := s.src32 f f.b l
      bitsOut (if m.ty = .i32 then (x.signExtend 64 * y.signExtend 64).extractLsb' 32 32
        else (x.setWidth 64 * y.setWidth 64).extractLsb' 32 32)) ∧
    (Computes (.imad f m) f false none fun s l =>
      if m.sat then clamped m.ty (opndInt m.ty f f.a s l * opndInt m.ty f f.b s l + opndInt m.ty f f.c s l)
      else bitsOut (opnd m.ty f f.a s l * opnd m.ty f f.b s l + opnd m.ty f f.c s l)) ∧
    (Computes (.imadw f m) f true none fun s l =>
      let x := s.src32 f f.a l
      let y := s.src32 f f.b l
      bitsOut ((if m.ty = .i32 then x.signExtend 64 * y.signExtend 64 else x.setWidth 64 * y.setWidth 64) + s.src f f.c true l)) ∧
    (Computes (.iabs f m) f (wideTy m.ty) none fun s l =>
      if m.sat then clamped m.ty |opndInt m.ty f f.a s l|
      else bitsOut (if (opnd m.ty f f.a s l).msb && m.ty.signed then -opnd m.ty f f.a s l else opnd m.ty f f.a s l)) ∧
    (Computes (.ineg f m) f (wideTy m.ty) none fun s l =>
      if m.sat then clamped m.ty (-opndInt m.ty f f.a s l) else bitsOut (-opnd m.ty f f.a s l)) ∧
    (Computes (.imin f m) f (wideTy m.ty) none fun s l =>
      bitsOut (if opndInt m.ty f f.b s l < opndInt m.ty f f.a s l then opnd m.ty f f.b s l else opnd m.ty f f.a s l)) ∧
    (Computes (.imax f m) f (wideTy m.ty) none fun s l =>
      bitsOut (if opndInt m.ty f f.a s l < opndInt m.ty f f.b s l then opnd m.ty f f.b s l else opnd m.ty f f.a s l))

/-- Comparisons, selection and bitwise forms complete with the results of 06 R149, bit by bit. -/
def Parts.LogicAndSelectionResults : Prop :=
  ∀ (f : Full) (m : AluMod) (p : Fin 8) (tab : BitVec 8),
    (Computes (.icmp f m p) f (wideTy m.ty) (some p.val) fun s l =>
      let a := opndInt m.ty f f.a s l
      let b := opndInt m.ty f f.b s l
      ⟨0, 0, match m.var.toNat with
        | 0 => decide (a = b) | 1 => decide (a ≠ b) | 2 => decide (a < b) | 3 => decide (a ≤ b) | 4 => decide (a > b) | _ => decide (a ≥ b)⟩) ∧
    (Computes (.isel f m p) f (wideTy m.ty) none fun s l =>
      .pure (if xor (s.pred l p.val) (m.var.getLsbD 0) then s.src f f.a (wideTy m.ty) l else s.src f f.b (wideTy m.ty) l)) ∧
    (Computes (.and f m) f (wideTy m.ty) none fun s l => .pure (s.src f f.a (wideTy m.ty) l &&& s.src f f.b (wideTy m.ty) l)) ∧
    (Computes (.or f m) f (wideTy m.ty) none fun s l => .pure (s.src f f.a (wideTy m.ty) l ||| s.src f f.b (wideTy m.ty) l)) ∧
    (Computes (.xor f m) f (wideTy m.ty) none fun s l => .pure (s.src f f.a (wideTy m.ty) l ^^^ s.src f f.b (wideTy m.ty) l)) ∧
    (Computes (.andn f m) f (wideTy m.ty) none fun s l => .pure (s.src f f.a (wideTy m.ty) l &&& ~~~(s.src f f.b (wideTy m.ty) l))) ∧
    (Computes (.tlog f tab) f false none fun s l => bitsOut (BitVec.ofFnLE fun i : Fin 32 =>
      tab.getLsbD (((s.src32 f f.a l).getLsbD i).toNat + 2 * ((s.src32 f f.b l).getLsbD i).toNat + 4 * ((s.src32 f f.c l).getLsbD i).toNat)))

/-- Shifts, bit fields, counts and byte mixes complete with the results of 06 R149, bit by bit. -/
def Parts.ShiftAndBitFieldResults : Prop :=
  ∀ (f : Full) (m : AluMod),
    (Computes (.shl f m) f (wideTy m.ty) none fun s l =>
      bitsOut (opnd m.ty f f.a s l <<< ((s.src f f.b false l).toNat % m.ty.width))) ∧
    (Computes (.shr f m) f (wideTy m.ty) none fun s l =>
      bitsOut (opnd m.ty f f.a s l >>> ((s.src f f.b false l).toNat % m.ty.width))) ∧
    (Computes (.sar f m) f (wideTy m.ty) none fun s l =>
      bitsOut ((opnd m.ty f f.a s l).sshiftRight ((s.src f f.b false l).toNat % m.ty.width))) ∧
    (Computes (.fsh f m) f false none fun s l =>
      let n := (s.src f f.c false l).toNat % 32
      bitsOut (BitVec.ofFnLE fun i : Fin 32 =>
        let j := if m.var.getLsbD 0 then i + 32 - n else i + n
        if j < 32 then (s.src32 f f.a l).getLsbD j else (s.src32 f f.b l).getLsbD (j - 32))) ∧
    (Computes (.bfe f m) f false none fun s l =>
      let pos := (s.src f f.b false l).toNat % 256
      let len := (s.src f f.b false l).toNat / 256 % 256
      let n := min len (32 - pos)
      bitsOut (BitVec.ofFnLE fun i : Fin 32 =>
        if n = 0 then false
        else if i < n then (s.src32 f f.a l).getLsbD (pos + i)
        else m.ty = .i32 && (s.src32 f f.a l).getLsbD (pos + n - 1))) ∧
    (Computes (.bfi f m) f false none fun s l =>
      let pos := (s.src f f.c false l).toNat % 256
      let len := (s.src f f.c false l).toNat / 256 % 256
      bitsOut (BitVec.ofFnLE fun i : Fin 32 =>
        if pos ≤ i ∧ i < pos + len then (s.src32 f f.b l).getLsbD (i - pos) else (s.src32 f f.a l).getLsbD i)) ∧
    (Computes (.popc f m) f false none fun s l =>
      .pure (BitVec.ofNat 64 ((List.range m.ty.width).countP fun i => (s.src f f.a (wideTy m.ty) l).getLsbD i))) ∧
    (Computes (.clz f m) f false none fun s l =>
      .pure (BitVec.ofNat 64 (((List.range m.ty.width).map fun i => (opnd m.ty f f.a s l).getLsbD (m.ty.width - 1 - i)).takeWhile (! ·)).length)) ∧
    (Computes (.brev f m) f (wideTy m.ty) none fun s l =>
      bitsOut (BitVec.ofFnLE fun i : Fin m.ty.width => (opnd m.ty f f.a s l).getLsbD (m.ty.width - 1 - i))) ∧
    (Computes (.bmix f m) f false none fun s l =>
      let x : W64 := s.src32 f f.b l ++ s.src32 f f.a l
      let c := s.src32 f f.c l
      bitsOut (mixedByte x (c.extractLsb' 24 8) ++ mixedByte x (c.extractLsb' 16 8) ++ mixedByte x (c.extractLsb' 8 8) ++
        mixedByte x (c.extractLsb' 0 8)))

/-- Logic, selection, shifts and bit fields (06 R149). -/
def Obligations.LogicShiftSelectResults : Prop :=
  Parts.LogicAndSelectionResults ∧ Parts.ShiftAndBitFieldResults


/-! ### Floating point (chapters 05 and 06) -/

/-- The arithmetic forms and each half of the packed ones complete with the exact result rounded once (06 R151, 05 R128, R130). -/
def Obligations.FloatArithmeticResults : Prop :=
  ∀ (f : Full) (m : AluMod),
    (Computes (.fadd f m) f false none fun s l =>
      fval (fround .f32 s.ftz m.sat m.rnd (xadd m.rnd (s.fopnd f m 0 f.a l) (s.fopnd f m 1 f.b l)))) ∧
    (Computes (.fsub f m) f false none fun s l =>
      fval (fround .f32 s.ftz m.sat m.rnd (xadd m.rnd (s.fopnd f m 0 f.a l) (s.fopnd f m 1 f.b l).negate))) ∧
    (Computes (.fmul f m) f false none fun s l =>
      fval (fround .f32 s.ftz m.sat m.rnd (xmul (s.fopnd f m 0 f.a l) (s.fopnd f m 1 f.b l)))) ∧
    (Computes (.ffma f m) f false none fun s l =>
      fval (fround .f32 s.ftz m.sat m.rnd (xfma m.rnd (s.fopnd f m 0 f.a l) (s.fopnd f m 1 f.b l) (s.fopnd f m 2 f.c l)))) ∧
    (Computes (.hadd2 f m) f false none fun s l =>
      packedOut fun h => fround (packedFmt m.ty) false m.sat m.rnd (xadd m.rnd (s.hopnd f m 0 f.a l h) (s.hopnd f m 1 f.b l h))) ∧
    (Computes (.hmul2 f m) f false none fun s l =>
      packedOut fun h => fround (packedFmt m.ty) false m.sat m.rnd (xmul (s.hopnd f m 0 f.a l h) (s.hopnd f m 1 f.b l h))) ∧
    (Computes (.hfma2 f m) f false none fun s l =>
      packedOut fun h => fround (packedFmt m.ty) false m.sat m.rnd
        (xfma m.rnd (s.hopnd f m 0 f.a l h) (s.hopnd f m 1 f.b l h) (s.hopnd f m 2 f.c l h)))

/-- Minimum and maximum complete with the results of 06 R152. -/
def Obligations.MinimumAndMaximumResults : Prop :=
  ∀ (f : Full) (m : AluMod),
    (Computes (.fmin f m) f false none fun s l => fval (extreme .f32 false (s.fbits f m 0 f.a l) (s.fbits f m 1 f.b l))) ∧
    (Computes (.fmax f m) f false none fun s l => fval (extreme .f32 true (s.fbits f m 0 f.a l) (s.fbits f m 1 f.b l))) ∧
    (Computes (.hmin2 f m) f false none fun s l =>
      packedOut fun h => extreme (packedFmt m.ty) false (s.hbits f m 0 f.a l h) (s.hbits f m 1 f.b l h)) ∧
    (Computes (.hmax2 f m) f false none fun s l =>
      packedOut fun h => extreme (packedFmt m.ty) true (s.hbits f m 0 f.a l h) (s.hbits f m 1 f.b l h))

/-- The floating comparison completes with the predicate and the flags of the table of 06 R153. -/
def Obligations.FloatComparisonResults : Prop :=
  ∀ (f : Full) (m : AluMod) (p : Fin 8), Computes (.fcmp f m p) f false (some p.val) fun s l =>
    let a := Fmt.f32.dec (ftzIn s.ftz (s.src32 f f.a l).toNat)
    let b := Fmt.f32.dec (ftzIn s.ftz (s.src32 f f.b l).toNat)
    let nan := a.isNan || b.isNan
    let eq := a == b || (a.isZero && b.isZero)
    let quiet := flagIf (a.isSig || b.isSig) flagNV
    let loud := flagIf nan flagNV
    match m.var.toNat with
    | 0 => ⟨0, quiet, !nan && eq⟩
    | 1 => ⟨0, quiet, nan || !eq⟩
    | 2 => ⟨0, loud, !nan && xlt a b⟩
    | 3 => ⟨0, loud, !nan && (xlt a b || eq)⟩
    | 4 => ⟨0, loud, !nan && xlt b a⟩
    | 5 => ⟨0, loud, !nan && (xlt b a || eq)⟩
    | 6 => ⟨0, quiet, !nan⟩
    | _ => ⟨0, quiet, nan⟩

/-- Rounding to an integer, classification and the sign copy complete with the results of 06 R154. -/
def Obligations.RoundClassifyCopySignResults : Prop :=
  ∀ (f : Full) (m : AluMod),
    (Computes (.frnd f m) f false none fun s l =>
      let x := ftzIn s.ftz (s.src32 f f.a l).toNat
      match Fmt.f32.dec x with
      | .nan sig => ⟨0x7FC00000, flagIf sig flagNV, false⟩
      | .num q => .pure (BitVec.ofNat 64 (Fmt.f32.enc (.ofRat (mkRat (roundInt m.rnd q) 1) (q.num < 0))))
      | _ => .pure (BitVec.ofNat 64 x)) ∧
    (Computes (.fclass f m) f false none fun s l =>
      let F := (Fmt.ofTy m.ty).getD .f32
      let x := if m.ty = .f16 ∨ m.ty = .bf16 then (s.src32 f f.a l).toNat % 65536 else ftzIn s.ftz (s.src32 f f.a l).toNat
      let n := F.sign x
      .pure (match F.dec x with
        | .nan sig => if sig then 0x001 else 0x002
        | .inf _ => if n then 0x004 else 0x200
        | .zero _ => if n then 0x020 else 0x040
        | .num _ =>
          if F.absBits x < 2 ^ F.f then (if n then 0x010 else 0x080) else (if n then 0x008 else 0x100))) ∧
    (Computes (.fcpsgn f m) f false none fun s l =>
      let a := s.src32 f f.a l
      let sign := xor (m.var.getLsbD 1 && a.msb) (xor (s.src32 f f.b l).msb (m.var.getLsbD 0))
      let mag := if s.ftz && Fmt.f32.isSub a.toNat then (0 : BitVec 31) else a.setWidth 31
      bitsOut (BitVec.ofBool sign ++ mag))

/-- The helper forms complete with the results of their operations (06 R155 to R160). -/
def Parts.HelperResults : Prop :=
  ∀ (f : Full) (m : AluMod),
    (Computes (.frcps f m) f false none fun s l => fval (opFrcps s.ftz (s.src32 f f.a l).toNat)) ∧
    (Computes (.frsqs f m) f false none fun s l => fval (opFrsqs s.ftz (s.src32 f f.a l).toNat)) ∧
    (Computes (.fexpr f m) f false none fun s l =>
      let r := opFexpr s.ftz (m.var.getLsbD 0) (s.src32 f f.a l).toNat
      ⟨r.1.setWidth 64, r.2, false⟩) ∧
    (Computes (.fscale f m) f false none fun s l =>
      let v := s.fopnd f ⟨0, false, .rne, .f32⟩ 0 f.a l
      let r : XR := match v with
        | .num q => .num (q * pow2 (max (-700) (min 700 (s.src32 f f.b l).toInt)))
        | v => v
      fval (fround .f32 s.ftz m.sat m.rnd (r, flagIf v.isSig flagNV))) ∧
    (Computes (.fgetexp f m) f false none fun s l => fval (opFgetexp s.ftz (s.src32 f f.a l).toNat)) ∧
    (Computes (.fgetman f m) f false none fun s l => fval (opFgetman s.ftz (s.src32 f f.a l).toNat)) ∧
    (Computes (.flogr f m) f false none fun s l => fval (opFlogr s.ftz (m.var.getLsbD 0) (s.src32 f f.a l).toNat)) ∧
    (Computes (.fsinr f m) f false none fun s l => fval (opFsinr s.ftz (m.var.getLsbD 0) (s.src32 f f.a l).toNat)) ∧
    (Computes (.fdivfx f m) f false none fun s l =>
      let b := s.fopnd f ⟨0, false, .rne, .f32⟩ 0 f.b l
      let c := s.fopnd f ⟨0, false, .rne, .f32⟩ 0 f.c l
      if easyQuotient b c then .pure (BitVec.ofNat 64 (ftzIn s.ftz (s.src32 f f.a l).toNat))
      else fval (fround .f32 s.ftz false m.rnd (xdiv b c))) ∧
    (Computes (.fsqrtfx f m) f false none fun s l =>
      let b := s.fopnd f ⟨0, false, .rne, .f32⟩ 0 f.b l
      if easyRoot b then .pure (BitVec.ofNat 64 (ftzIn s.ftz (s.src32 f f.a l).toNat))
      else fval (fround .f32 s.ftz false m.rnd (xsqrt b)))

/-- The helpers on a NaN, a zero, an infinity, a negative and a finite source (06 R156 to R159): the tables, and the exact reductions. -/
def Parts.HelperSpecialCases : Prop :=
  ∀ (ftz : Bool) (x : W32),
    let nan (sig : Bool) : Nat × W8 := (0x7FC00000, flagIf sig flagNV)
    let inf (n : Bool) : Nat := if n then 0xFF800000 else 0x7F800000
    let zero (n : Bool) : Nat := if n then 0x80000000 else 0
    match Fmt.f32.dec (ftzIn ftz x.toNat) with
    | .nan sig =>
      opFrcps ftz x.toNat = nan sig ∧ opFrsqs ftz x.toNat = nan sig ∧ opFexpr ftz false x.toNat = (0x7FC00000, flagIf sig flagNV) ∧
      opFexpr ftz true x.toNat = (0, flagIf sig flagNV) ∧ opFgetexp ftz x.toNat = nan sig ∧ opFgetman ftz x.toNat = nan sig ∧
      (∀ k, opFlogr ftz k x.toNat = nan sig) ∧ opFsinr ftz false x.toNat = nan sig ∧ opFsinr ftz true x.toNat = (0, flagIf sig flagNV)
    | .zero n =>
      opFrcps ftz x.toNat = (inf n, flagDZ) ∧ opFrsqs ftz x.toNat = (inf n, flagDZ) ∧ opFgetexp ftz x.toNat = (inf true, flagDZ) ∧
      opFgetman ftz x.toNat = (zero n, 0) ∧ opFlogr ftz false x.toNat = (0, 0) ∧ opFlogr ftz true x.toNat = (inf true, flagDZ)
    | .inf n =>
      opFrcps ftz x.toNat = (zero n, 0) ∧ opFrsqs ftz x.toNat = (if n then (0x7FC00000, flagNV) else (0, 0)) ∧
      opFexpr ftz false x.toNat = (0, 0) ∧ opFexpr ftz true x.toNat = (if n then BitVec.ofInt 32 (-300) else 300, 0) ∧
      opFgetexp ftz x.toNat = (inf false, 0) ∧ opFgetman ftz x.toNat = (0x7FC00000, flagNV) ∧
      opFlogr ftz false x.toNat = (if n then (0x7FC00000, flagNV) else (0, 0)) ∧
      opFlogr ftz true x.toNat = (if n then (0x7FC00000, flagNV) else (inf false, 0)) ∧
      opFsinr ftz false x.toNat = (0x7FC00000, flagNV) ∧ opFsinr ftz true x.toNat = (0, 0)
    | .num q =>
      (q < 0 → opFrsqs ftz x.toNat = (0x7FC00000, flagNV) ∧ ∀ k, opFlogr ftz k x.toNat = (0x7FC00000, flagNV)) ∧
      (opFexpr ftz false x.toNat).2 = 0 ∧ (opFexpr ftz true x.toNat).2 = 0 ∧ (opFgetexp ftz x.toNat).2 = 0 ∧ (opFgetman ftz x.toNat).2 = 0 ∧
      opFexpr ftz true x.toNat = (BitVec.ofInt 32 (max (-300) (min 300 (roundInt .rne q))), 0) ∧
      opFgetexp ftz x.toNat = (Fmt.f32.enc (.ofRat (floorLog2 (ratAbs q) : Rat) false), 0) ∧
      (opFsinr ftz true x.toNat).1 < 4 ∧ (opFsinr ftz true x.toNat).2 = 0 ∧ (opFsinr ftz false x.toNat).2 = 0

/-- The helper forms (06 R156 to R160): what each step returns, and the cases that it settles itself. -/
def Obligations.HelperResults : Prop :=
  Parts.HelperResults ∧ Parts.HelperSpecialCases

/-- A value that a format holds rounds to itself without a flag, in every mode, with and without saturation; a NaN rounds to the canonical
NaN (05 R124, R128). -/
def Parts.RoundingKeepsExactValues : Prop :=
  ∀ (F : Fmt) (m : Rnd) (sat : Bool) (x : Nat), F ∈ [Fmt.f32, .f16, .bf16, .e4m3, .e5m2] → x < 2 ^ F.width →
    match F.dec x with
    | .nan sig => roundFmt F m sat (.nan sig) = (F.nanBits, 0)
    | .inf n => roundFmt F m false (.inf n) = (x, 0) ∧ roundFmt F m true (.inf n) = (F.withSign n F.maxBits, flagSAT)
    | v => roundFmt F m sat v = (x, 0)

/-- A rounded magnitude lies on the side that the mode says, within one unit in the last place, and to nearest within half of one (05 R127, R128). -/
def Parts.RoundingDirection : Prop :=
  ∀ (F : Fmt) (neg : Bool) (q : Rat), F ∈ [Fmt.f32, .f16, .bf16, .e4m3, .e5m2] → 0 < q →
    let ulp := pow2 (max (floorLog2 q) F.eminN - F.f)
    F.roundMag .rtz neg q ≤ q ∧ q < F.roundMag .rtz neg q + ulp ∧
    (if neg then F.roundMag .rup neg q ≤ q ∧ q ≤ F.roundMag .rdn neg q else F.roundMag .rdn neg q ≤ q ∧ q ≤ F.roundMag .rup neg q) ∧
    F.roundMag .rup neg q - q < ulp ∧ q - F.roundMag .rup neg q < ulp ∧ F.roundMag .rdn neg q - q < ulp ∧ q - F.roundMag .rdn neg q < ulp ∧
    2 * (F.roundMag .rne neg q - q) ≤ ulp ∧ 2 * (q - F.roundMag .rne neg q) ≤ ulp

/-! ### Conversion, packing, the move and pair words -/

/-- Conversion, packing, unpacking and the move complete: packed elements side by side, an unpacked element widened, the move bit for bit
(06 R161 to R163). -/
def Parts.ConversionResults : Prop :=
  ∀ (f : Full) (m : AluMod) (src : Ty),
    (Computes (.cvt f m src) f (wideTy m.ty) none fun s l => .of (convElem s.ftz m.ty src m.rnd m.sat (s.src f f.a (wideTy src) l))) ∧
    (Computes (.pk2 f m) f false none fun s l => packedAt s.ftz m 0 (s.src f f.a false l) (s.src f f.b false l) 0) ∧
    (Computes (.upk2 f m) f false none fun s l => .of (widenElem m.ty (s.srcElems m.ty f f.a l >>> (16 * (m.var.toNat % 2))))) ∧
    (Computes (.pk8 f m) f false none fun s l =>
      packedAt s.ftz m (16 * (m.var.toNat % 2)) (s.src f f.a false l) (s.src f f.b false l) (s.src32 f f.c l)) ∧
    (Computes (.upk8 f m) f false none fun s l => .of (widenElem m.ty (s.src f f.a false l >>> (8 * (m.var.toNat % 4))))) ∧
    (Computes (.pk4 f m) f false none fun s l =>
      packedAt s.ftz m (8 * (m.var.toNat % 4)) (s.src f f.a false l) (s.src f f.b false l) (s.src32 f f.c l)) ∧
    (Computes (.upk4 f m) f false none fun s l => .of (widenElem m.ty (s.src f f.a false l >>> (4 * m.var.toNat)))) ∧
    (Computes (.mov f m) f (wideTy m.ty) none fun s l => .pure (s.src f f.a (wideTy m.ty) l))

/-- Conversion between integers and from floating to integer follows the table of 05 R132. -/
def Parts.ConversionRules : Prop :=
  ∀ (ftz : Bool) (t src : Ty) (m : Rnd) (x : W64), Fmt.ofTy t = none →
    match Fmt.ofTy src with
    | none =>
      let v := elementInt src x
      let c := max (intMin t) (min (intMax t) v)
      let clampedTo := (extended t (BitVec.ofInt t.width c), elementFlag src x ||| flagIf (c ≠ v) flagSAT)
      convElem ftz t src m true x = clampedTo ∧
      convElem ftz t src m false x =
        (if t = .i4 then clampedTo else (extended t (BitVec.ofInt t.width v), elementFlag src x))
    | some F => ∀ sat,
      let bad := if sat then flagSAT else flagNV
      let put (v : Int) : W64 := extended t (BitVec.ofInt t.width v)
      match F.dec (if src = .f32 then ftzIn ftz (x.setWidth 32).toNat else (x.setWidth src.width).toNat) with
      | .nan _ => convElem ftz t src m sat x = (0, bad)
      | .inf n => convElem ftz t src m sat x = (put (if n then intMin t else intMax t), bad)
      | .zero _ => convElem ftz t src m sat x = (0, 0)
      | .num q =>
        let n := roundInt m q
        convElem ftz t src m sat x =
          if n < intMin t then (put (intMin t), bad) else if intMax t < n then (put (intMax t), bad)
          else (put n, flagIf ((n : Rat) ≠ q) flagNX)

/-- Conversions (06 R161, R162; 05 R131, R132): results and special cases. -/
def Obligations.ConversionResults : Prop :=
  Parts.ConversionResults ∧ Parts.ConversionRules

/-- Widening to FP32 is exact, and a NaN widens to the canonical NaN, with NV where it is signalling (05 R132, 06 R162). -/
def Parts.WideningIsExact : Prop :=
  ∀ (t : Ty) (F : Fmt) (x : W64), Fmt.ofTy t = some F → t ≠ .f32 →
    let v := F.dec (x.setWidth t.width).toNat
    (widenElem t x).1.toNat < 2 ^ 32 ∧ (widenElem t x).2 = flagIf v.isSig flagNV ∧
    Fmt.f32.dec (widenElem t x).1.toNat = (if v.isNan then .nan false else v) ∧ (v.isNan = true → (widenElem t x).1 = 0x7FC00000)

/-- Rounding (05 R127, R128): exact values stay, others go in the direction of the mode, and a wider format holds every value of a narrower one. -/
def Obligations.RoundingIsExact : Prop :=
  Parts.RoundingKeepsExactValues ∧ Parts.RoundingDirection ∧ Parts.WideningIsExact

/-- A pair word completes: both halves compute from the sources as they were, each writes in the lanes of its own guard, and the
last-result file does not change (04 R104, R105, R87). -/
def Obligations.PairWordResults : Prop :=
  ∀ (s : State) (h0 h1 : Half), s.pairExecutes h0 h1 = true → s.flagTrap (s.halfFlags h0 ++ s.halfFlags h1) = none →
    let x := s.halfWrites h0
    let y := s.halfWrites h1
    ∃ t, exec (.pairWord h0 h1) s = .next t ∧ s.Frame t ∧ s.Advanced t ∧ s.SamePreds t ∧ s.Raised t (s.halfFlags h0 ++ s.halfFlags h1) ∧
      (s.issuer t).queues = s.curWarp.queues ∧ (t.group s.cur.grp).gw = s.curGroup.gw ∧
      (∀ l c, l < 64 → c < 0x324 → (s.issuer t).vreg l c =
        if vecBase y.1 = some c ∧ y.2.1.getLsbD l = true then loWord (y.2.2 l).val
        else if vecBase x.1 = some c ∧ x.2.1.getLsbD l = true then loWord (x.2.2 l).val
        else s.curWarp.vreg l c) ∧
      (∀ n, n < 64 → s.scalarFile t n =
        oneAfter (scalarBase y.1) false y.2.1 (fun l => (y.2.2 l).val) n
          (oneAfter (scalarBase x.1) false x.2.1 (fun l => (x.2.2 l).val) n (s.scalarFile s n)))

/-! ### Lanes, quads, predicates and special registers (chapter 07) -/

/-- The cross-lane forms complete with the results of 07 R169, R170 and R172. -/
def Parts.CrossLaneResults : Prop :=
  ∀ (f : Full) (mode : BitVec 2) (seg : BitVec 3) (wide all : Bool) (pd pa : Fin 8),
    (Computes (.shfl f mode seg wide) f wide none fun s l =>
      let n := if seg = 0 then s.curGroup.kernel.width else 2 ^ seg.toNat
      let base := l - l % n
      let k := (s.src32 f f.b l).toNat
      let from' : Option Nat := match mode.toNat with
        | 0 => some (base + k % n)
        | 1 => if base + k ≤ l then some (l - k) else none
        | 2 => if l + k < base + n then some (l + k) else none
        | _ => if base ≤ l ^^^ k ∧ l ^^^ k < base + n then some (l ^^^ k) else none
      .pure (match from' with
        | some j => s.src f f.a wide (if s.cur.lanes.getLsbD j then j else l)
        | none => s.src f f.a wide l)) ∧
    (Computes (.vote f mode pd pa) f false (some pd.val) fun s _ =>
      let inP := (List.range 64).filter fun l => s.guard f l && s.cur.lanes.getLsbD l && s.liveMask.getLsbD l
      let allTrue := inP.all fun l => s.pred l pa.val
      let anyTrue := inP.any fun l => s.pred l pa.val
      ⟨0, 0, match mode.toNat with | 0 => allTrue | 1 => anyTrue | _ => allTrue || !anyTrue⟩) ∧
    (Computes (.ballot f wide pa) f wide none fun s _ =>
      .pure (lanesWhere fun l => (s.gLive f).getLsbD l && s.pred l pa.val)) ∧
    (Computes (.mbcnt f) f false none fun s l =>
      .pure (BitVec.ofNat 64 ((List.range l).countP fun j => (s.src f f.a true l).getLsbD j))) ∧
    (Computes (.matchv f all wide) f true none fun s l =>
      .pure (if all then
          (if (List.range 64).all fun j => (List.range 64).all fun k =>
              !(s.gLive f).getLsbD j || !(s.gLive f).getLsbD k || s.src f f.a wide j == s.src f f.a wide k then s.gLive f else 0)
        else lanesWhere fun j => (s.gLive f).getLsbD j && s.src f f.a wide j == s.src f f.a wide l))

/-- `redux` folds the value of the participants in ascending lane order and gives the result to every guard-true lane; with no participant
it writes nothing (07 R171). -/
def Parts.ReductionResults : Prop :=
  ∀ (f : Full) (op : BitVec 3) (ty : Ty),
    (∀ s : State, s.executes (.redux f op ty) f = true → s.gLive f = 0 →
      ∃ t, exec (.redux f op ty) s = .next t ∧ s.Frame t ∧ s.SameRegs t ∧ s.SamePreds t ∧ t.fstat = s.fstat ∧ s.Advanced t) ∧
    (∀ s : State, s.executes (.redux f op ty) f = true → s.gLive f ≠ 0 →
      let r := s.folded f op.toNat ty
      s.flagTrap ((laneList (s.gLive f)).map fun l => (l, r.flags)) = none →
      ∃ t, exec (.redux f op ty) s = .next t ∧ s.Computed t (.redux f op ty) f false none fun _ => r)

/-- The quad forms complete with the results of 07 R174: an absent neighbour counts as the lane itself and raises QPART (02 R49). -/
def Parts.QuadResults : Prop :=
  ∀ (f : Full) (dir : BitVec 2) (fine : Bool),
    (Computes (.qswap f dir) f false none fun s l => ⟨(s.quadAt f l (l % 4 ^^^ dir.toNat)).setWidth 64, s.quadPart l, false⟩) ∧
    (Computes (.qbcst f dir) f false none fun s l => ⟨(s.quadAt f l dir.toNat).setWidth 64, s.quadPart l, false⟩) ∧
    (Computes (.dpdx f fine) f false none fun s l => s.quadMinus f l (if fine then l % 4 / 2 * 2 + 1 else 1) (if fine then l % 4 / 2 * 2 else 0)) ∧
    (Computes (.dpdy f fine) f false none fun s l => s.quadMinus f l (if fine then l % 2 + 2 else 2) (if fine then l % 2 else 0))

/-- Cross-lane, reduction and quad forms (07 R166 to R174). -/
def Obligations.LaneResults : Prop :=
  Parts.CrossLaneResults ∧ Parts.ReductionResults ∧ Parts.QuadResults

/-- Predicate forms and `srd` complete with the results of 07 R175, R192 and 05 R133. -/
def Obligations.PredicateAndSpecialRegisterResults : Prop :=
  ∀ (f : Full) (op : BitVec 2) (num : BitVec 6) (pd pa pb : Fin 8),
    (Computes (.pset f op pd pa pb) f false (some pd.val) fun s l =>
      let a := s.pred l pa.val
      let b := s.pred l pb.val
      ⟨0, 0, match op.toNat with | 0 => a && b | 1 => a || b | 2 => xor a b | _ => a && !b⟩) ∧
    (Computes (.pmov f false) f false none fun s l => .pure (BitVec.ofFnLE fun i : Fin 64 => decide (i.val < 7) && s.pred l i.val)) ∧
    (∀ s : State, s.executes (.pmov f true) f = true →
      ∃ t, exec (.pmov f true) s = .next t ∧ s.Frame t ∧ s.SameRegs t ∧ t.fstat = s.fstat ∧ s.Advanced t ∧
        ∀ l p, l < 64 → p < 7 → t.pred l p = if (s.gLanes f).getLsbD l = true then (s.src32 f f.a l).getLsbD p else s.pred l p) ∧
    (Computes (.srd f false num) f (num = 2 ∨ num = 3 ∨ num = 4) none fun s _ =>
      .pure (match num.toNat with
        | 0 => s.fstat.setWidth 64
        | 1 => s.curWarp.wdlimit.setWidth 64
        | 2 => s.cur.lanes
        | 3 => s.curWarp.live
        | 4 => s.curWarp.helper
        | _ => BitVec.ofNat 64 s.curWarp.splits.length)) ∧
    (∀ s : State, s.executes (.srd f true num) f = true →
      ∃ t, exec (.srd f true num) s = .next t ∧ s.Frame t ∧ s.SameRegs t ∧ s.SamePreds t ∧ s.Advanced t ∧
        ∀ i, i < 32 → t.fstat.getLsbD i =
          match lowLane (s.gLanes f) with
          | none => s.fstat.getLsbD i
          | some l =>
            if i < 8 then s.fstat.getLsbD i && !(s.src32 f f.a l).getLsbD i
            else decide (i < 15) && (s.src32 f f.a l).getLsbD i)

/-! ### Flags (chapter 05) -/

/-- FP_EXCEPTION is due where a live guard-true lane would raise an enabled flag, never at level H; TMASK names those lanes and TINFO0 the
flags (05 R136, 17 R413). -/
def Obligations.EnabledFlagTraps : Prop :=
  ∀ (s : State) (f : Full) (out : Nat → AluOut),
    let raises (l : Nat) : Prop := (s.gLanes f).getLsbD l = true ∧ s.liveMask.getLsbD l = true
    let hits (l : Nat) : Prop := raises l ∧ (out l).flags &&& enabledFlags s.fstat ≠ 0
    match s.flagTrap (s.flagsOf f out) with
    | none => (s.cur.strm = .e ∧ s.curWarp.level = true) ∨ ∀ l, ¬ hits l
    | some tr =>
      ¬ (s.cur.strm = .e ∧ s.curWarp.level = true) ∧ (∃ l, hits l) ∧ tr.cause = .fpException ∧ tr.pc = s.cur.pc ∧
      (∀ l, l < 64 → (tr.mask.getLsbD l = true ↔ s.cur.strm = .e ∧ hits l)) ∧
      (∀ b, b < 8 → (tr.i0.getLsbD b = true ↔ ∃ l, raises l ∧ (out l).flags.getLsbD b = true ∧ (enabledFlags s.fstat).getLsbD b = true)) ∧
      (∀ b, b < 8 → (tr.i0.getLsbD (8 + b) = true ↔ ∃ l, raises l ∧ (out l).flags.getLsbD b = true)) ∧
      tr.i0.toNat < 2 ^ 16 ∧ tr.i1 = 0 ∧ tr.i2 = 0 ∧ tr.i3 = 0

/-! ### Control flow (chapter 07) -/

/-- Branches complete: each guard-true lane goes to its target and each other lane to the next slot, and nothing else changes (07 R176,
R178); a misaligned target traps (04 R117). -/
def Obligations.BranchResults : Prop :=
  ∀ (f : Full) (any : Bool) (off : BitVec 30) (s : State), s.stands = true →
    let goes (i : Instr) (take : Nat → Bool) (tgt : Nat → W64) : Prop :=
      ∃ t, exec i s = .next t ∧ s.Kept t ∧ s.ContinuesAt t fun l => if take l then tgt l else s.cur.npc
    let guarded (l : Nat) : Bool := (s.gLanes f).getLsbD l
    (s.executes (.br f off) f = true → goes (.br f off) guarded fun _ => s.offsetTarget off) ∧
    (s.executes (.brall f any off) f = true →
      goes (.brall f any off) (fun _ => if any then s.gLanes f != 0 else s.gLanes f == s.cur.lanes) fun _ => s.offsetTarget off) ∧
    (s.executes (.jmpi f) f = true →
      if s.anyOffBundle f then s.MisalignedTarget (.jmpi f) f
      else goes (.jmpi f) guarded fun l => s.src f f.a true l) ∧
    (s.executes (.ret f) f = true →
      if s.anyOffBundle f then s.MisalignedTarget (.ret f) f
      else goes (.ret f) guarded fun l => s.src f f.a true l)

/-- Calls complete: the guard-true lanes go to their targets with the next bundle's address in the link register, the others to the next
slot, and nothing else changes (07 R177). -/
def Obligations.CallResults : Prop :=
  ∀ (f : Full) (off : BitVec 30) (s : State), s.stands = true →
    let calls (i : Instr) (link : Operand) (tgt : Nat → W64) : Prop :=
      ∃ t, exec i s = .next t ∧ s.Frame t ∧ s.Wrote t link true (s.gLanes f) (fun _ => s.nextBundle) ∧ s.SamePreds t ∧ t.fstat = s.fstat ∧
        s.ContinuesAt t fun l => if (s.gLanes f).getLsbD l then tgt l else s.cur.npc
    (s.executes (.call f off) f = true → calls (.call f off) f.c fun _ => s.offsetTarget off) ∧
    (s.executes (.calli f) f = true →
      if s.anyOffBundle f then s.MisalignedTarget (.calli f) f
      else calls (.calli f) f.d fun l => s.src f f.a true l)

/-- `trap`, `nop`, `yield` and `wdog` complete as 07 R180, R182, R183 and R185 say: `trap` raises TRAP_INSN or BREAKPOINT in its live
guard-true lanes, with its code and the next slot in the trap registers. -/
def Obligations.MinorControlResults : Prop :=
  ∀ (f : Full) (bkpt : Bool) (imm : BitVec 10) (s : State),
    (s.executes (.nop f) f = true → ∃ t, exec (.nop f) s = .next t ∧ s.Kept t ∧ s.Advanced t) ∧
    (s.executes (.trap f bkpt imm) f = true →
      if s.gLive f = 0 then ∃ t, exec (.trap f bkpt imm) s = .next t ∧ s.Kept t ∧ s.Advanced t
      else exec (.trap f bkpt imm) s = .next (s.trap ⟨if bkpt then .breakpoint else .trapInsn, s.cur.pc,
        if s.cur.strm = .e then s.gLive f else 0, imm.setWidth 64, slotAddr s.cur.npc, 0, 0⟩)) ∧
    (s.executes (.wdog f) f = true → ∃ t, exec (.wdog f) s = .next t ∧
      s.Kept (t.modWarp s.cur.grp s.cur.wid fun y => { y with wdlimit := s.curWarp.wdlimit }) ∧ s.Advanced t ∧
      (s.issuer t).wdlimit = match lowLane (s.gLanes f) with
        | none => s.curWarp.wdlimit
        | some l => if s.src32 f f.a l = 0 then 0 else BitVec.ofNat 32 (max (s.src32 f f.a l).toNat 1024)) ∧
    (s.executes (.yield f imm) f = true → s.stands = true → s.curGroup.used = true → ∃ t, exec (.yield f imm) s = .next t ∧
      if s.gLanes f = 0 then s.Kept t ∧ s.Advanced t
      else s.Kept (t.modWarp s.cur.grp s.cur.wid fun y => { y with age := s.curWarp.age }) ∧
        (∃ x ∈ (s.issuer t).splits, x.lanes = s.cur.lanes ∧ x.pc = s.cur.npc ∧ x.hold = imm.toNat) ∧
        ∀ p ∈ s.curGroup.warps, p.2.quarter = s.curWarp.quarter → p.2.age < (s.issuer t).age)

/-- `exit` completes (07 R179, 02 R51): the guard-true lanes leave the warp and every split, the others go to the next slot, and a warp
with no live lane ends; in a quad-locked kernel a lane stays as a helper while a lane of its quad is live. The collective that waits in
`rgrp` is then considered. -/
def Obligations.ExitResults : Prop :=
  ∀ (f : Full) (s : State), s.executes (.exit f) f = true → s.stands = true → s.curWarp.ended = false →
    let left := s.curWarp.live &&& ~~~(s.gLanes f)
    ∃ r : State, exec (.exit f) s = .next (r.settleRgrp s.cur.grp) ∧
      (s.issuer r).vregs = s.curWarp.vregs ∧ (s.issuer r).live = left ∧ (left = 0 ↔ (s.issuer r).ended = true) ∧
      (s.curGroup.kernel.quadlock = false →
        (s.issuer r).Left (s.gLanes f) ∧ (left = 0 → (s.issuer r).helper = 0) ∧
        (left ≠ 0 → (s.issuer r).helper = s.curWarp.helper &&& ~~~(s.gLanes f)) ∧
        (left ≠ 0 → ∀ l, l < 64 → s.cur.lanes.getLsbD l = true → (s.gLanes f).getLsbD l = false → s.LaneAt r l s.cur.npc (· = .ready))) ∧
      (s.curGroup.kernel.quadlock = true → s.curWarp.level = false → left ≠ 0 →
        (∀ l, l < 64 → (s.issuer r).helper.getLsbD l =
          ((s.curWarp.helper.getLsbD l || (s.curWarp.live.getLsbD l && (s.gLanes f).getLsbD l)) && quadAlive left l)) ∧
        (s.issuer r).Left (lanesWhere fun l => !quadAlive left l) ∧
        (∀ l, l < 64 → s.cur.lanes.getLsbD l = true → quadAlive left l = true → s.LaneAt r l s.cur.npc (· = .ready)))

/-- `wjoin` completes: a lane goes on once every lane it names has exited or stands at a `wjoin` at the same address, and waits until then
(07 R173). `rgrp` parks the lanes of its split with their targets (02 R52, 07 R184). -/
def Obligations.GatheringResults : Prop :=
  ∀ (f : Full) (s : State), s.stands = true →
    (s.executes (.wjoin f) f = true → s.curWarp.level = false → ∃ t, exec (.wjoin f) s = .next t ∧ s.Kept t ∧
      ∀ l, l < 64 → s.cur.lanes.getLsbD l = true →
        if s.namedBy f l &&& (s.curWarp.live ||| s.curWarp.helper) &&& ~~~s.joinedHere = 0 then s.LaneAt t l s.cur.npc (· = .ready)
        else s.LaneAt t l s.cur.pc (fun w => ∃ m, w = .wjoin m s.cur.npc ∧ Store.get m 0 l = s.namedBy f l)) ∧
    (s.executes (.rgrp f) f = true →
      if s.anyOffBundle f then s.MisalignedTarget (.rgrp f) f
      else ∃ r : State, exec (.rgrp f) s = .next r ∧ s.Kept r ∧
        ∀ l, l < 64 → s.cur.lanes.getLsbD l = true →
          s.LaneAt r l s.cur.pc (fun w => ∃ m, w = .rgrp m ∧ Store.get m 0 l = s.src f f.a true l))

/-! ### Barriers (chapter 07) -/

/-- Barrier forms complete (07 R187 to R191): live lanes that have not arrived arrive and go on, or wait for the open phase; lanes that have
arrived wait for it and execute the form again; a participant that `bar.wait` finds past its phase goes on at once; a stream that the kernel
does not declare, and a wait without an arrival, trap. -/
def Parts.BarrierFormResults : Prop :=
  ∀ (f : Full) (n : Fin 16) (mode : BitVec 2) (s : State), s.stands = true →
    let b := s.curGroup.bar n.val
    let c := s.curGroup.cbar
    let wrong (code : Nat) (i : Instr) : Prop := exec i s =
      .next (s.trap ⟨.barrierMismatch, s.cur.pc, if s.cur.strm = .e then s.cur.lanes else 0, BitVec.ofNat 64 code, 0, 0, 0⟩)
    let arrives (i : Instr) (sync : Bool) (got : Lanes) (now : State → Lanes) (wait : Option W64 → Wait) : Prop :=
      ∃ r : State, exec i s = .next (r.settleBarriers s.cur.grp) ∧ s.SameRegs r ∧ s.SamePreds r ∧ r.fstat = s.fstat ∧ r.mem = s.mem ∧
        now r = got ||| (s.cur.lanes &&& s.curWarp.live) ∧
        ∀ l, l < 64 → s.cur.lanes.getLsbD l = true →
          if s.curWarp.live.getLsbD l = false then s.LaneAt r l s.cur.npc (· = .ready)
          else if got.getLsbD l = true then s.LaneAt r l s.cur.pc (· = wait none)
          else if sync then s.LaneAt r l s.cur.pc (· = wait (some s.cur.npc)) else s.LaneAt r l s.cur.npc (· = .ready)
    let waits (i : Instr) (b : Bar) (wait : Wait) : Prop :=
      ∃ t, exec i s = .next t ∧ s.Kept t ∧
        if s.onlyHelpers = false ∧ b.pendingAt s.cur.participant = true then
          (s.cur.strm = .e → ∀ l, l < 64 → s.cur.lanes.getLsbD l = true → s.LaneAt t l s.cur.pc (· = wait)) ∧
          (s.cur.strm ≠ .e → ((t.group s.cur.grp).stream s.cur.strm).wait = wait)
        else s.Advanced t
    (∀ sync, s.executes (if sync then .barSync f n else .barArrive f n) f = true →
      let i : Instr := if sync then .barSync f n else .barArrive f n
      match s.barWrong n.val with
      | some r => wrong (n.val + 16 * r) i
      | none =>
        if s.cur.strm = .e then arrives i sync (b.got s.cur.wid) (fun r => (r.curGroup.bar n.val).got s.cur.wid) fun nx => .barrier n.val b.phase nx
        else if b.pendingAt s.cur.participant then
          ∃ t, exec i s = .next t ∧ s.StreamWaits t (.barrier n.val b.phase none)
        else ∃ r : State, exec i s = .next (r.settleBarriers s.cur.grp) ∧ r.curGroup.bar n.val = b.arrive s.cur.participant s.stampNow s.fmtNow ∧
          ((r.group s.cur.grp).stream s.cur.strm).wait = (if sync then .barrier n.val b.phase (some s.cur.npc) else .ready) ∧
          (sync = false → s.Advanced r)) ∧
    (s.executes (.barWait f n) f = true →
      match s.barWrong n.val with
      | some r => wrong (n.val + 16 * r) (.barWait f n)
      | none =>
        if b.ever.getLsbD s.cur.participant = false ∧ s.onlyHelpers = false then wrong (n.val + 64) (.barWait f n)
        else waits (.barWait f n) b (.barrier n.val b.phase (some s.cur.npc))) ∧
    (s.executes (.cbar f mode) f = true →
      if mode = 2 then
        if c.ever.getLsbD s.cur.wid = false ∧ s.onlyHelpers = false then wrong 320 (.cbar f mode)
        else waits (.cbar f mode) c (.cbarrier c.phase (some s.cur.npc))
      else arrives (.cbar f mode) (mode == 0) (c.got s.cur.wid) (fun r => r.curGroup.cbar.got s.cur.wid) fun nx => .cbarrier c.phase nx)

/-- A numbered barrier whose open phase is complete advances: its flags clear, and no split or stream of the group waits for that phase any more
(07 R186). -/
def Parts.BarrierPhaseCompletes : Prop :=
  ∀ (x : Group) (n : Nat), n < 16 → x.barFull n = true →
    let y := x.settleBars
    (y.bar n).phase = (x.bar n).phase + 1 ∧ (y.bar n).arrived = 0 ∧ (y.bar n).aArr = false ∧ (y.bar n).mArr = false ∧
    (∀ w z, z ∈ (y.warp w).splits ∨ z ∈ (y.warp w).saved → ¬ Wait.onBar n (x.bar n).phase z.wait) ∧
    ¬ Wait.onBar n (x.bar n).phase y.astr.wait ∧ ¬ Wait.onBar n (x.bar n).phase y.mstr.wait ∧
    ∀ w, (y.warp w).vregs = (x.warp w).vregs ∧ (y.warp w).live = (x.warp w).live

/-- Barriers (07 R186 to R190). -/
def Obligations.BarrierResults : Prop :=
  Parts.BarrierFormResults ∧ Parts.BarrierPhaseCompletes

/-! ### Traps (chapter 17) -/

/-- A user trap of a warp enters its handler: trap registers, level H, every live lane at TBASE, the splits saved with the one that trapped
marked, and nothing outside the warp changed (17 R409, R412). -/
def Parts.TrapEntersHandler : Prop :=
  ∀ (s : State) (g w : Nat) (m : Lanes) (t : Trap), s.canEnter g w = true →
    let u := s.trapWarp g w m t
    (s.warp g w).Entered (u.warp g w) (s.gctx g).tbase .e t ∧
    (u.warp g w).saved = (s.warp g w).splits.map (fun z => { z with trapped := z.lanes == m }) ∧
    (∀ h, h ≠ g → u.group h = s.group h) ∧ (∀ v, v ≠ w → u.warp g v = s.warp g v) ∧ u.mem = s.mem ∧ u.ctxs = s.ctxs ∧ u.cur = s.cur

/-- A trap of an A- or M-stream stops that stream and waits for the lowest warp that has not ended; TRAP_ENTRY delivers it there (03 R82, 17
R412). -/
def Parts.StreamTrapEntersHandler : Prop :=
  (∀ (s : State) (g : Nat) (st : Strm) (t : Trap), st ≠ .e → (s.gctx g).tbase ≠ 0 → (s.group g).firstWarp.isSome = true →
    let u := s.trapStream g st t
    ((u.group g).stream st).trap = some t ∧ ((u.group g).stream st).stopped = true ∧ (u.group g).warps = (s.group g).warps ∧ u.mem = s.mem) ∧
  (∀ (s : State) (g w : Nat) (t : Trap), s.canEnter g w = true → (s.group g).firstWarp = some w → (s.warp g w).ended = false →
    (s.warp g w).esc = none →
    ((s.group g).astr.trap = some t → ∃ u, exec (.trapEntry g w) s = .next u ∧
      (s.warp g w).Entered (u.warp g w) (s.gctx g).tbase .a t ∧ (u.group g).astr.trap = none ∧ u.mem = s.mem) ∧
    ((s.group g).astr.trap = none → (s.group g).mstr.trap = some t → ∃ u, exec (.trapEntry g w) s = .next u ∧
      (s.warp g w).Entered (u.warp g w) (s.gctx g).tbase .m t ∧ (u.group g).mstr.trap = none ∧ u.mem = s.mem))

/-- Taking a trap (17 R411, R412): of a warp, and of a stream. -/
def Obligations.TrapEntry : Prop :=
  Parts.TrapEntersHandler ∧ Parts.StreamTrapEntersHandler

/-- A trap at level H, or in a context without a handler, escalates: a fault record of kind 5 goes to the server, the warp at level H, or
the split at level U, waits for its verdict, and no trap register or register changes (17 R411, R413, R419). -/
def Parts.TrapEscalates : Prop :=
  ∀ (s : State) (g w : Nat) (m : Lanes) (t : Trap), (s.warp g w).due = none → (s.warp g w).esc = none →
    ((s.warp g w).level = true ∨ (s.gctx g).tbase = 0) →
    let u := s.trapWarp g w m t
    let r := Store.get u.faults FaultOut.blank s.nextTok
    u.warp g w = (if (s.warp g w).level then { s.warp g w with esc := some s.nextTok }
      else { s.warp g w with splits := (s.warp g w).splits.map fun x => if x.lanes = m then { x with wait := .escal s.nextTok x.wait } else x }) ∧
    r.used = true ∧ r.posted = false ∧ r.kind = 5 ∧ r.cause = t.cause ∧
    r.part = (s.group g).part ∧ r.asid = (s.group g).asid ∧ r.record.extractLsb' 0 8 = 5 ∧
    r.record.extractLsb' 8 8 = BitVec.ofNat 8 t.cause.code ∧ u.mem = s.mem ∧
    ((s.group g).asid < 2 ^ 16 → (s.group g).part < 2 ^ 6 → (s.group g).core < 2 ^ 16 → w < 16 →
      r.record.extractLsb' 192 64 = t.pc ∧ r.record.extractLsb' 256 64 = t.mask ∧ r.record.extractLsb' 320 64 = BitVec.ofNat 64 t.cause.code ∧
      r.record.extractLsb' 384 64 = t.i0 ∧ r.record.extractLsb' 448 64 = t.i1)

/-- `tret` returns to level U (17 R414): each saved split goes on in the lanes that have not exited, where it was and with its wait, but for
one that trapped when the handler changed TPC, which goes on there; registers keep the values the handler left; a stopped stream continues
at TPC. -/
def Parts.TrapReturns : Prop :=
  ∀ (f : Full) (s : State), s.executes (.tret f) f = true → s.curWarp.due = none → s.curGroup.astr.trap = none → s.curGroup.mstr.trap = none →
    let w := s.curWarp
    ∃ r : State, exec (.tret f) s = .next (r.settleAll s.cur.grp) ∧
      (s.issuer r).level = false ∧ (s.issuer r).saved = [] ∧ (s.issuer r).vregs = w.vregs ∧ (s.issuer r).preds = w.preds ∧
      (s.issuer r).sregs = w.sregs ∧ (s.issuer r).fstat = w.fstat ∧ (s.issuer r).queues = w.queues ∧ r.mem = s.mem ∧
      (∀ x ∈ w.saved, ∀ l, l < 64 → x.lanes.getLsbD l = true → (w.live ||| w.helper).getLsbD l = true →
        let moved := w.tstream = 0 ∧ x.trapped = true ∧ w.tpc ≠ w.tpcin
        ∃ z ∈ (s.issuer r).splits, z.lanes.getLsbD l = true ∧ (moved → slotAddr z.pc = slotAddr w.tpc ∧ z.wait.isOver = true) ∧
          (¬ moved → slotAddr z.pc = slotAddr x.pc ∧ (z.wait = x.wait ∨ x.wait.isOver = true ∧ z.wait.isOver = true))) ∧
      (∀ z ∈ (s.issuer r).splits, z.lanes ≠ 0 ∧ z.lanes &&& ~~~(w.live ||| w.helper) = 0) ∧
      (∀ st, (st = .a ∧ w.tstream = 1) ∨ (st = .m ∧ w.tstream = 2) →
        ((r.group s.cur.grp).stream st).stopped = false ∧
        ((r.group s.cur.grp).stream st).pc = if w.tpc = w.tpcin then (s.curGroup.stream st).pc else w.tpc)

/-- A trap that cannot enter a handler, and the return from one (17 R413 to R416). -/
def Obligations.TrapEscalationAndReturn : Prop :=
  Parts.TrapEscalates ∧ Parts.TrapReturns

/-- The privileged forms complete at level H (17 R409, R423 to R425): `swr` reads a trap register and writes TPC, `tinv` starts the
invalidation of an address space and waits behind it, `halt` stops the group, posts a fault record of kind 6 and waits behind it with
FAULT. -/
def Parts.PrivilegedResults : Prop :=
  ∀ (f : Full) (num : BitVec 6) (imm : BitVec 10),
    (Computes (.swr f false num) f (num != 10) none fun s _ =>
      let w := s.curWarp
      let c := s.gctx s.cur.grp
      .pure (match num.toNat with
        | 0 => w.tcause | 1 => w.tpc | 2 => w.tmask | 3 => w.tstream | 4 => w.tinfo0 | 5 => w.tinfo1 | 6 => w.tinfo2 | 7 => w.tinfo3
        | 8 => c.tbase
        | 9 => c.ctxid
        | _ => BitVec.ofNat 64 c.bplimit)) ∧
    (∀ s : State, s.executes (.swr f true num) f = true →
      match lowLane (s.gLanes f) with
      | none => ∃ t, exec (.swr f true num) s = .next t ∧ s.Kept t ∧ s.Advanced t
      | some l =>
        let x := s.src f f.a true l
        if x.extractLsb' 0 3 = 0 then ∃ t, exec (.swr f true num) s = .next t ∧ (s.issuer t).tpc = x ∧ s.Advanced t ∧
          s.Kept (t.modWarp s.cur.grp s.cur.wid fun y => { y with tpc := s.curWarp.tpc })
        else exec (.swr f true num) s = .next (s.trap (s.decodeTrap .targetMisaligned 0 0 s.cur.lanes))) ∧
    (∀ s : State, s.executes (.tinv f) f = true → s.stands = true →
      match lowLane (s.gLanes f) with
      | none => ∃ t, exec (.tinv f) s = .next t ∧ s.Kept t ∧ s.Advanced t
      | some l =>
        let asid := (s.src32 f f.a l).toNat % 65536
        let part := s.curGroup.part
        if (s.ctx (ctxKey part asid)).used then
          ∃ t, exec (.tinv f) s = .next t ∧ t.mem = { s.mem with inval := s.mem.inval ++ [⟨part, some asid, false⟩] } ∧
            s.Kept { t with mem := s.mem } ∧
            ∀ k, k < 64 → s.cur.lanes.getLsbD k = true → s.LaneAt t k s.cur.npc (· = .tinv asid)
        else exec (.tinv f) s = .next (s.trap ⟨.accessPerm, s.cur.pc, if s.cur.strm = .e then s.gLanes f else 0, BitVec.ofNat 64 asid, 0, 0, 0⟩)) ∧
    (∀ s : State, s.executes (.halt f imm) f = true → s.stands = true →
      ∃ t, exec (.halt f imm) s = .next t ∧
        if s.gLanes f = 0 then s.Kept t ∧ s.Advanced t
        else
          (∀ k, k < 64 → s.cur.lanes.getLsbD k = true → s.LaneAt t k s.cur.npc (· = .escal s.nextTok .ready)) ∧
          s.Kept { t.modGroup s.cur.grp (fun y => { y with halted := s.curGroup.halted }) with faults := s.faults, nextTok := s.nextTok } ∧
          (t.group s.cur.grp).halted = some s.nextTok ∧
          let r := Store.get t.faults FaultOut.blank s.nextTok
          r.used = true ∧ r.kind = 6 ∧ r.part = s.curGroup.part ∧ r.asid = s.curGroup.asid ∧ r.record.extractLsb' 0 8 = 6 ∧
          r.record.extractLsb' 24 8 = imm.setWidth 8)

/-- A privileged form at level U takes PRIVILEGED, and `tinv` takes it outside a system context; `wjoin` and `rgrp` take ILLEGAL_OPCODE at
level H; none of them has an effect (04 R114, 17 R413, R422). -/
def Parts.PrivilegeTraps : Prop :=
  ∀ (f : Full) (wr : Bool) (num : BitVec 6) (imm : BitVec 10) (s : State), s.cur.valid = true →
    let refused (i : Instr) (c : Cause) (sub : Nat) : Prop := exec i s = .next (s.trap (s.decodeTrap c sub 0 s.cur.lanes))
    (s.levelH = false → refused (.tret f) .privileged 0 ∧ refused (.swr f wr num) .privileged 0 ∧ refused (.tinv f) .privileged 0 ∧
      refused (.halt f imm) .privileged 0) ∧
    (s.levelH = true → (s.gctx s.cur.grp).sys = false → refused (.tinv f) .privileged 1) ∧
    (s.levelH = true → s.cur.strm = .e → refused (.wjoin f) .illegalOpcode 3 ∧ refused (.rgrp f) .illegalOpcode 3)

/-- Privileged forms (17 R408, R413, R414): their effects at level H, and the trap that they take at level U. -/
def Obligations.PrivilegedResults : Prop :=
  Parts.PrivilegedResults ∧ Parts.PrivilegeTraps

/-! ### Memory forms (chapters 08 and 09) -/

/-- A load whose accesses pass their checks completes: its values are pending in the destination, extended as 09 R237 says; a record or
scratchpad load takes the bytes at its address, the lowest least significant; no register, predicate or byte of a window changes, and
memory only in its caches. A plain load, and any load while no range is locked, completes so; one with a scope may wait at its slot for
write-backs that a lock holds (08 R215, R230). -/
def Obligations.LoadResults : Prop :=
  ∀ (f : Full) (acc : BitVec 3) (m : MemMod) (off : BitVec 10) (s : State),
    let n := accSize acc
    let ea := s.ea f m.space f.b n off
    let ld : Instr := .ld f acc m off
    let checked := (s.accessChecks f m.space n .load ea (fun _ => readLevel m)).2
    let loaded (t : State) (val : Nat → Nat) : Prop := s.KeptButMemory t ∧ s.SameWindow t ∧ s.Advanced t ∧
      s.Awaits t f.d (s.gLanes f) (fun l => match acc.toNat with
        | 3 => [BitVec.ofNat 32 (val l), BitVec.ofNat 32 (val l / 2 ^ 32)]
        | 4 => [(BitVec.ofNat 8 (val l)).signExtend 32]
        | 5 => [(BitVec.ofNat 16 (val l)).signExtend 32]
        | 0 => [(BitVec.ofNat 8 (val l)).setWidth 32]
        | 1 => [(BitVec.ofNat 16 (val l)).setWidth 32]
        | _ => [BitVec.ofNat 32 (val l)]) ∧
      (m.space = .k → t.mem = s.mem ∧ ∀ l, l < 64 → (s.gLive f).getLsbD l = true → val l = readBytes s.curGroup.krec (ea l).toNat n) ∧
      (m.space = .s → t.mem = s.mem ∧ ∀ l, l < 64 → (s.gLive f).getLsbD l = true → val l = readBytes s.curGroup.scratch (ea l).toNat n) ∧
      (m.space = .g → s.gLanes f = s.gLive f →
        let places := s.places f m.space n .load ea (fun _ => readLevel m)
        let r := checked.loads s.agent n m places
        t.mem = r.2.mem ∧ (∀ l, l < 64 → (s.gLive f).getLsbD l = true → val l = laneVal r.1 l) ∧
        ∀ l loc, places = [(l, .g loc)] → m.scope = .plain → val l = (checked.mem.readAt s.agent loc n (readLevel m)).1)
    s.executes ld f = true → s.accessesPass f m.space n .load ea (fun _ => readLevel m) = true →
      if s.mayMeetLocks m.space m.scope then (∃ t val, exec ld s = .next t ∧ loaded t val) ∨ s.WaitsForBacks ld
      else ∃ t val, exec ld s = .next t ∧ loaded t val

/-- A store whose accesses pass their checks completes. In the scratchpad each byte of the window holds what the highest lane that covers it
stored there, at the address of 09 R232, and every other byte is as it was. A plain global store leaves its bytes in the core's L1 under the
context's tag, and all of home memory and every other byte of that L1 as they were; a full L1 may give up lines for it. A store with a
scope may wait at its slot for write-backs that a lock holds (08 R216, R230). -/
def Obligations.StoreResults : Prop :=
  ∀ (f : Full) (acc : BitVec 3) (m : MemMod) (off : BitVec 10) (s : State),
    let n := accSize acc
    let ea := s.ea f m.space f.b n off
    let data (l : Nat) : Nat := (s.src f f.d (acc == 3) l).toNat
    let lvl (l : Nat) : Nat := s.writeLevel l m
    let st : Instr := .st f acc m off
    let written (t : State) : Prop := s.KeptButMemory t ∧ (s.issuer t).pend = s.curWarp.pend ∧ s.Advanced t ∧
      (m.space = .s → t.mem = s.mem ∧ ∀ a, Store.get (t.group s.cur.grp).scratch 0 a =
        stored n ea data (laneList (s.gLive f)) a (Store.get s.curGroup.scratch 0 a)) ∧
      (m.space = .g → s.SameWindow t ∧ (m.scope = .plain → t.mem.home = s.mem.home ∧
        ∀ tag i, i < 128 →
          let after := (s.places f .g n .store ea lvl).foldl (fun b p => match p.2 with
            | .g loc => storedInLine s.agent n (data p.1) loc tag i b
            | _ => b) (s.mem.cacheByte (.l1 s.curGroup.pcore) tag i)
          let byte := t.mem.cacheByte (.l1 s.curGroup.pcore) tag i
          (byte = after ∨ byte = none) ∧ (s.mem.roomy (.l1 s.curGroup.pcore) 64 = true → byte = after)))
    s.executes st f = true → s.accessesPass f m.space n .store ea lvl = true →
      if s.mayMeetLocks m.space m.scope then (∃ t, exec st s = .next t ∧ written t) ∨ s.WaitsForBacks st
      else ∃ t, exec st s = .next t ∧ written t

/-- Atomic operations whose accesses pass their checks complete. In the scratchpad the lanes apply their steps in ascending order, `atom`
returns the value that each lane's own step read, and the window is as the last step left it (09 R240, R241). In the global space an
operation may wait at its slot for write-backs that a lock holds (08 R215, R216, R230). -/
def Obligations.AtomicResults : Prop :=
  ∀ (f : Full) (op : BitVec 5) (m : MemMod) (off : BitVec 10) (s : State),
    let n := atomSize op
    let lvl (l : Nat) : Nat := s.writeLevel l m
    let eaA := s.ea f m.space .null n off
    let eaR := s.ea f m.space f.b n off
    let atom : Instr := .atom f op m off
    let red : Instr := .red f op m off
    let stepped (t : State) (old : Nat → Nat) : Prop := s.KeptButMemory t ∧ s.Advanced t ∧
        s.Awaits t f.d (s.gLive f) (fun l =>
          let x := BitVec.ofNat 64 (atomReturn op.toNat (old l))
          if n = 8 then [loWord x, hiWord x] else [loWord x]) ∧
        (m.space = .s → t.mem = s.mem ∧ (t.group s.cur.grp).scratch = (s.windowSteps f f.b op eaA (laneList (s.gLive f))).2 ∧
          ∀ p ∈ (s.windowSteps f f.b op eaA (laneList (s.gLive f))).1, old p.1 = p.2) ∧
        (m.space = .g → s.SameWindow t ∧
          t.mem = ((s.accessChecks f m.space n .both eaA lvl).2.rmws f f.b op m (s.places f m.space n .both eaA lvl)).2.mem)
    let reduced (t : State) : Prop := s.KeptButMemory t ∧ (s.issuer t).pend = s.curWarp.pend ∧ s.Advanced t ∧
        (m.space = .s → t.mem = s.mem ∧ (t.group s.cur.grp).scratch = (s.windowSteps f f.d op eaR (laneList (s.gLive f))).2) ∧
        (m.space = .g → s.SameWindow t ∧
          t.mem = ((s.accessChecks f m.space n .both eaR lvl).2.rmws f f.d op m (s.places f m.space n .both eaR lvl)).2.mem)
    (s.executes atom f = true → s.accessesPass f m.space n .both eaA lvl = true →
      if s.mayMeetLocks m.space m.scope then (∃ t old, exec atom s = .next t ∧ stepped t old) ∨ s.WaitsForBacks atom
      else ∃ t old, exec atom s = .next t ∧ stepped t old) ∧
    (s.executes red f = true → s.accessesPass f m.space n .both eaR lvl = true →
      if s.mayMeetLocks m.space m.scope then (∃ t, exec red s = .next t ∧ reduced t) ∨ s.WaitsForBacks red
      else ∃ t, exec red s = .next t ∧ reduced t)

/-- `fence`, `pf` and `wait` complete (09 R242 to R245): a release fence raises the scope of the lanes' later atomic writes; `pf` changes
nothing; `wait` writes the satisfying values once every live guard-true lane is satisfied, and parks its split until then, the lanes that it
held before keeping what they found. An acquire may wait at its slot for write-backs that a lock holds (08 R215, R230). -/
def Obligations.FenceWaitPrefetchResults : Prop :=
  ∀ (f : Full) (order : Order) (scope : Scope) (hint cond : BitVec 2) (wide : Bool) (space : Space) (off : BitVec 10) (s : State),
    let fence : Instr := .fence f order scope
    let raised (old : Nat) : Nat := max old (scopeRank scope + 1)
    let fenced (t : State) : Prop := s.Advanced t ∧
      if s.cur.strm = .e then
        s.KeptButMemory t ∧ s.SameWindow t ∧ (s.issuer t).pend = s.curWarp.pend ∧ (s.gLive f = 0 → t.mem = s.mem) ∧
        ∀ l, l < 64 → Store.get (s.issuer t).relScope 0 l =
          if orderRel order = true ∧ (s.gLive f).getLsbD l = true then raised (Store.get s.curWarp.relScope 0 l)
          else Store.get s.curWarp.relScope 0 l
      else s.SameRegs t ∧ s.SamePreds t ∧ ((t.group s.cur.grp).stream s.cur.strm).relScope =
        if orderRel order = true ∧ s.gLive f ≠ 0 then raised (s.curGroup.stream s.cur.strm).relScope
        else (s.curGroup.stream s.cur.strm).relScope
    let wait : Instr := .wait f cond wide scope space off
    let n := if wide then 8 else 4
    let ea := s.ea f space .null n off
    let held := s.heldWaits f
    let todo := (laneList (s.gLive f)).filter fun l => held.all fun w => w.lane != l
    let c := s.spots s.cur.grp s.agent (fun l => ⟨space, ea l, n, .load, levelOf (scopeRank scope)⟩) todo
    let waited (t : State) (r : List LaneWait) : Prop := s.SamePreds t ∧ t.fstat = s.fstat ∧
      (s.issuer t).pend.length = s.curWarp.pend.length ∧ s.SameWindow t ∧
      r = (c.2.waitReads s.cur.grp true (s.newWaits f cond wide scope space off todo)).1 ∧
      (if ∀ w ∈ held ++ r, w.got.isSome = true then s.Wrote t f.d wide (s.gLive f) (gotOf (held ++ r)) ∧ s.Advanced t
      else s.SameRegs t ∧ ∀ l, l < 64 → s.cur.lanes.getLsbD l = true → s.LaneAt t l s.cur.pc (· = .waitaddr (held ++ r))) ∧
      (space = .s → t.mem = s.mem ∧ r.map (fun w => (w.lane, w.got)) = todo.map fun l =>
        let x := BitVec.ofNat 64 (readBytes s.curGroup.scratch (ea l).toNat n)
        (l, if waitCond cond x (s.src f f.b wide l) then some x else none))
    (s.executes (.pf f hint off) f = true → ∃ t, exec (.pf f hint off) s = .next t ∧ s.Kept t ∧ s.Advanced t) ∧
    (s.executes fence f = true →
      if s.mem.locks ≠ [] ∧ orderAcq order = true then (∃ t, exec fence s = .next t ∧ fenced t) ∨ s.WaitsForBacks fence
      else ∃ t, exec fence s = .next t ∧ fenced t) ∧
    (s.executes wait f = true → s.stands = true → (failing c.1).isEmpty = true →
      if s.mayMeetLocks space scope then (∃ t r, exec wait s = .next t ∧ waited t r) ∨ s.WaitsForBacks wait
      else ∃ t r, exec wait s = .next t ∧ waited t r)

/-- The checks of one access (08 R194, R195, 09 R233), in their order: bounds and canonical form, alignment, translation and permission, range
locks, poison; the causes that go to the fault server first are those of 17 R411. -/
def Parts.AccessChecks : Prop :=
  ∀ (s : State) (grp : Nat) (a : Agent) (x : Access), x.size = 1 ∨ x.size = 2 ∨ x.size = 4 ∨ x.size = 8 →
    let r := s.spot grp a x
    let va : W64 := BitVec.ofInt 64 x.ea
    let fails (c : Cause) (kind : Option Nat) : Prop := r = .error ⟨c, kind, va, none⟩
    (x.space = .k →
      if x.ea < 0 ∨ ((s.group grp).klen : Int) < x.ea + x.size then fails .addrFault none
      else if x.ea % x.size ≠ 0 then fails .misalignedAccess none
      else r = .ok (.k x.ea.toNat, s)) ∧
    (x.space = .s →
      if x.ea < 0 ∨ ((s.group grp).kernel.scratch : Int) < x.ea + x.size then fails .scratchBounds none
      else if x.ea % x.size ≠ 0 then fails .misalignedAccess none
      else if s.mem.lockedScratch grp x.ea.toNat x.size (!x.need.w) then fails .rangeLocked none
      else if x.need.r && (s.group grp).scratchBad x.ea.toNat x.size then fails .poisonData (some 3)
      else r = .ok (.s x.ea.toNat, s)) ∧
    (x.space = .g →
      if va.extractLsb' 56 8 ≠ 0 ∧ va.extractLsb' 56 8 ≠ 0xFF then fails .addrFault none
      else if va.toNat % x.size ≠ 0 then fails .misalignedAccess none
      else (∃ l t, r = .ok (.g l, t) ∧ l.va = va.toNat ∧ { t with mem := { t.mem with tlb := s.mem.tlb } } = s) ∨
        ∃ c, r = .error c ∧ (c.cause = .rangeLocked ∧ c.kind = none ∨ c.cause = .addrFault ∧ c.kind = some 1 ∨
          c.cause = .accessPerm ∧ c.kind = some 2 ∨ c.cause = .poisonData ∧ c.kind = some 3))

/-- When lanes of a memory form fail their checks, none of its accesses takes effect (09 R233): the lowest failing lane gives the cause, TMASK
the lanes that fail with it, TINFO0 size and space, TINFO1 that lane's address; the split waits for the fault server where 17 R411 says
so, and traps otherwise. -/
def Parts.FailingAccessesTrap : Prop :=
  ∀ (f : Full) (acc : BitVec 3) (op : BitVec 5) (m : MemMod) (off : BitVec 10) (s : State),
    let stops (i : Instr) (n : Nat) (need : Need) (ea : Nat → Int) (lvl : Nat → Nat) : Prop :=
      s.executes i f = true → s.accessesPass f m.space n need ea lvl = false →
      ∃ (l : Nat) (c : AccFault) (mask : Lanes), (l, .error c) ∈ (s.accessChecks f m.space n need ea lvl).1 ∧
        (∀ k d, (k, .error d) ∈ (s.accessChecks f m.space n need ea lvl).1 → l ≤ k) ∧
        (∀ k, k < 64 → (mask.getLsbD k = true ↔ ∃ d, (k, .error d) ∈ (s.accessChecks f m.space n need ea lvl).1 ∧ d.cause = c.cause)) ∧
        let t : Trap := ⟨c.cause, s.cur.pc, if s.cur.strm = .e then mask else 0, BitVec.ofNat 64 (n + 16 * m.space.code.toNat), BitVec.ofInt 64 (ea l), 0, 0⟩
        match c.kind with
        | none => exec i s = .next (s.trap t)
        | some k =>
          let r := s.postFault (s.accRecord c k (accField need m.space) t mask)
          exec i s = .next (r.2.park (.fault r.1 t))
    stops (.ld f acc m off) (accSize acc) .load (s.ea f m.space f.b (accSize acc) off) (fun _ => readLevel m) ∧
    stops (.st f acc m off) (accSize acc) .store (s.ea f m.space f.b (accSize acc) off) (fun l => s.writeLevel l m) ∧
    stops (.atom f op m off) (atomSize op) .both (s.ea f m.space .null (atomSize op) off) (fun l => s.writeLevel l m) ∧
    stops (.red f op m off) (atomSize op) .both (s.ea f m.space f.b (atomSize op) off) (fun l => s.writeLevel l m)

/-- Addresses are computed as 09 R232 says: base and scaled index in 64 bits for the global space, and exactly for the others. -/
def Parts.EffectiveAddresses : Prop :=
  ∀ (s : State) (f : Full) (sp : Space) (idx : Operand) (n : Nat) (off : BitVec 10) (l : Nat),
    let i : Int := if idx = .null then 0 else (s.src32 f idx l).toInt
    (sp ≠ .g → s.ea f sp idx n off l = (s.src32 f f.a l).toNat + (i + off.toInt) * n) ∧
    (sp = .g → 0 ≤ s.ea f sp idx n off l ∧ s.ea f sp idx n off l < 2 ^ 64 ∧
      (s.ea f sp idx n off l - ((s.src f f.a true l).toNat + (i + off.toInt) * n)) % 2 ^ 64 = 0)

/-- Accesses (09 R232 to R236): addresses, checks, and what a failing access does. -/
def Obligations.AccessChecks : Prop :=
  Parts.AccessChecks ∧ Parts.FailingAccessesTrap ∧ Parts.EffectiveAddresses

/-- An agent that stores at a place and then reads it, at the same level of the memory path or another, reads what it stored, while nothing is
locked, its caches hold the line under one physical address, and no other cache or tag holds bytes of the physical line that are to be
written back (08 R197, R200, R208). -/
def Parts.AgentReadsItsOwnWrite : Prop :=
  ∀ (m : Mem) (a : Agent) (l : Loc) (n v lvl lvl' : Nat), n = 1 ∨ n = 2 ∨ n = 4 ∨ n = 8 → l.va % n = 0 → l.phys % 128 = l.va % 128 →
    m.locks = [] → (∀ p, a.path = some p → p.2 = cluOfCore p.1) →
    (∀ id x, x ∈ m.cache id → x.has (a.tag l) = true → x.pline = l.phys / 128) → (∀ w ∈ m.wbq, w.pline ≠ l.phys / 128) →
    (∀ id x, x ∈ m.cache id → x.pline = l.phys / 128 → x.dirty ≠ 0 →
      x.has (a.tag l) = true ∧ ∃ p, a.path = some p ∧ (id = .l1 p.1 ∨ id = .cc p.2)) →
    ((m.writeAt a l n v lvl).readAt a l n lvl').1 = v % 2 ^ (8 * n)

/-- A write changes no byte but its own (08 R197, R198): at the L1 and the cluster cache no other valid byte of that cache, of which a full one
may give up a line for it, at the home slice no other byte of home memory beyond the agent's own earlier write-backs. -/
def Parts.WritesChangeOnlyTheirBytes : Prop :=
  ∀ (m : Mem) (part asid core clu : Nat) (l : Loc) (n v : Nat), n = 1 ∨ n = 2 ∨ n = 4 ∨ n = 8 → l.va % n = 0 →
    let a : Agent := ⟨part, asid, some (core, clu)⟩
    let changes (before after : Mem) (id : CacheId) : Prop := ∀ t i, i < 128 →
      let byte := after.cacheByte id t i
      byte = storedInLine a n v l t i (before.cacheByte id t i) ∨
        (byte = none ∧ t ≠ a.tag l ∧ before.line id (a.tag l) = none ∧ before.roomy id 1 = false)
    changes m (m.writeAt a l n v 0) (.l1 core) ∧
    (m.writeAt a l n v 0).home = m.home ∧
    changes (m.push a l 1) (m.writeAt a l n v 1) (.cc clu) ∧
    (m.writeAt a l n v 1).home = m.home ∧
    (∀ b, (m.writeAt a l n v 2).byte b =
      if l.phys ≤ b ∧ b < l.phys + n then byteOf v (b - l.phys) else (m.push a l 2).byte b)

/-- What a write changes and a read returns (08 R196 to R203). -/
def Obligations.MemoryReadsAndWrites : Prop :=
  Parts.AgentReadsItsOwnWrite ∧ Parts.WritesChangeOnlyTheirBytes

/-! ### Queues (chapters 03 and 09) -/

/-- The queue forms of the E-stream complete (09 R247 to R250): `qpop` and `qpeek` give each lane the element at its head, `qpop` moves the heads;
`qtest` answers in each lane; `qback` pushes the value of the lowest live guard-true lane; `qskip` moves the heads without reading. -/
def Parts.QueueFormResults : Prop :=
  ∀ (f : Full) (mode : BitVec 2) (pd : Fin 8) (wide : Bool) (s : State), s.stands = true →
    let q := queueNo f.a
    let x := s.curWarp.queue q
    let g := s.gLive f
    let reads (i : Instr) (pops : Bool) : Prop :=
      s.executes i f = true → (s.queueGate g [q]).isGo = true → ∃ t, exec i s = .next t ∧ s.Frame t ∧
        s.Wrote t f.d (s.curGroup.kernel.queueWide q) (s.gLanes f) (s.queueValue q) ∧ s.SamePreds t ∧ t.fstat = s.fstat ∧ s.Advanced t ∧
        s.QueueMoved t q (if pops then g else 0) fun _ => 1
    reads (.qpop f) true ∧ reads (.qpeek f) false ∧
    (s.executes (.qtest f mode pd) f = true → ∃ t, exec (.qtest f mode pd) s = .next t ∧
      if mode = 0 ∧ ∃ l, l < 64 ∧ g.getLsbD l = true ∧ x.laneReady l = false then s.WaitsForQueue t (· = .qempty g [q] [])
      else s.Frame t ∧ s.SameRegs t ∧ t.fstat = s.fstat ∧ s.Advanced t ∧ (s.issuer t).queues = s.curWarp.queues ∧
        s.WrotePred t (some pd.val) (s.gLanes f) fun l => g.getLsbD l && match mode.toNat with
          | 0 => x.under l
          | 1 => (x.entry (x.head l)).any QEntry.complete
          | _ => (x.entry (x.head l)).any QEntry.poisoned) ∧
    (s.executes (.qback f wide) f = true → ∃ t, exec (.qback f wide) s = .next t ∧
      match lowLane g with
      | none => s.Kept t ∧ s.Advanced t
      | some l =>
        if s.curGroup.qb.length < 16 then
          s.Kept (s.accessUndone t) ∧ s.Advanced t ∧ (t.group s.cur.grp).qb = s.curGroup.qb ++ [s.src f f.a wide l]
        else s.WaitsForQueue t (· = .qback)) ∧
    (s.executes (.qskip f) f = true → ∃ t, exec (.qskip f) s = .next t ∧
      let n (l : Nat) : Nat := min (s.src32 f f.b l).toNat 16
      if ∀ l, l < 64 → g.getLsbD l = true → x.haveN l (n l) = true then
        s.Kept t ∧ s.Advanced t ∧ s.QueueMoved t q g fun l => if x.closed then min (n l) (x.tail - x.head l) else n l
      else s.WaitsForQueue t (fun w => ∃ m, w = .qempty g [q] m))

/-- The queue sources of an instruction hold it until their entries have landed (03 R69), trap QUEUE_UNDERFLOW at a closed tail (03 R80), and send
a fault record or trap QUEUE_FAULT for a poisoned element (03 R72, R73); otherwise the instruction executes. -/
def Parts.QueueSourcesGate : Prop :=
  ∀ (s : State) (g : Lanes) (qs : List Nat), qs ≠ [] → g ≠ 0 → (∀ q ∈ qs, q < 8) →
    let w := s.curWarp
    let lanes (p : Nat → Nat → Prop) : Prop := ∃ q l, q ∈ qs ∧ l < 64 ∧ g.getLsbD l = true ∧ p q l
    let unready := lanes fun q l => (w.queue q).laneReady l = false
    let under := lanes fun q l => (w.queue q).under l = true
    let poison (srv : Bool) := lanes fun q l => ∃ c a, (w.queue q).elem l = some (.fault c a srv)
    (unready → s.queueGate g qs = .stop (s.park (.qempty g qs []))) ∧
    (¬ unready → under → ∃ t, s.queueGate g qs = .stop (s.trap t) ∧ t.cause = .queueUnderflow ∧ t.pc = s.cur.pc) ∧
    (¬ unready → ¬ under → poison true → ∃ (u : State) (r : List Replay), s.queueGate g qs = .stop (u.park (.faultQ r)) ∧ r ≠ [] ∧ u.groups = s.groups) ∧
    (¬ unready → ¬ under → ¬ poison true → poison false → ∃ t, s.queueGate g qs = .stop (s.trap t) ∧ t.cause = .queueFault ∧ t.pc = s.cur.pc) ∧
    (¬ unready → ¬ under → ¬ poison true → ¬ poison false → s.queueGate g qs = .go)

/-- Queue forms and queue sources (03 R66 to R70; 09 R246 to R250). -/
def Obligations.QueueFormResults : Prop :=
  Parts.QueueFormResults ∧ Parts.QueueSourcesGate

/-- The forms of the A-stream but for loads complete (09 R252, R255 to R258): generators, indices, the back-queue and slip limits change as said,
and nothing else does. -/
def Parts.AccessStreamResults : Prop :=
  ∀ (f : Full) (gen q : Fin 8) (k : Fin 4) (field : BitVec 3) (hint : BitVec 2) (z : Bool) (off : BitVec 30) (goff : BitVec 10) (s : State),
    let x := s.curGroup
    let acts : Prop := s.gLanes f ≠ 0
    let idle (i : Instr) : Prop := s.executes i f = true → s.gLanes f = 0 → ∃ t, exec i s = .next t ∧ s.Kept t ∧ s.Advanced t
    let target : W64 := s.offsetTarget off
    idle (.agen f gen field) ∧ idle (.aloop f k off) ∧ idle (.aend f) ∧ idle (.apop f) ∧ idle (.abq f z off) ∧ idle (.aslip f q) ∧
    (s.executes (.apf f gen hint goff) f = true → ∃ t, exec (.apf f gen hint goff) s = .next t ∧ s.Kept t ∧ s.Advanced t) ∧
    (s.executes (.agen f gen field) f = true → acts → ∃ t, exec (.agen f gen field) s = .next t ∧ s.Kept (s.accessUndone t) ∧ s.Advanced t ∧
      (t.group s.cur.grp).qb = x.qb ∧ (t.group s.cur.grp).idx = x.idx ∧ (∀ n, n ≠ gen.val → (t.group s.cur.grp).gen n = x.gen n) ∧
      let y := x.gen gen.val
      let v := s.src32 f f.a 0
      (t.group s.cur.grp).gen gen.val = match field.toNat with
        | 0 => { y with base := s.src f f.a true 0 }
        | 1 => { y with lane := v }
        | 2 => { y with warp := v }
        | 3 => { y with l0 := v }
        | 4 => { y with l1 := v }
        | 5 => { y with l2 := v }
        | _ => { y with l3 := v }) ∧
    (s.executes (.aloop f k off) f = true → acts → ∃ t, exec (.aloop f k off) s = .next t ∧ s.Kept (s.accessUndone t) ∧
      (t.group s.cur.grp).qb = x.qb ∧ (t.group s.cur.grp).gens = x.gens ∧
      let i := Store.get x.idx 0 k.val + 1
      let more : Bool := decide (i.toNat < (s.src32 f f.c 0).toNat)
      (∀ n, Store.get (t.group s.cur.grp).idx 0 n = if n = k.val then (if more then i else 0) else Store.get x.idx 0 n) ∧
      s.ContinuesAt t fun _ => if more then target else s.cur.npc) ∧
    (s.executes (.aend f) f = true → acts → ∃ r : State, exec (.aend f) s = .next (r.settleBarriers s.cur.grp) ∧
      (r.group s.cur.grp).astr.ended = true ∧ r.mem = s.mem ∧
      ∀ w n, (w, (x.warp w)) ∈ x.warps → n < 8 → x.kernel.hasQueue n = true → (((r.group s.cur.grp).warp w).queue n).closed = true) ∧
    (s.executes (.apop f) f = true → acts → ∃ t, exec (.apop f) s = .next t ∧
      match x.qb with
      | [] => s.StreamWaits t .qback
      | v :: r => s.Frame (s.accessUndone t) ∧ s.Wrote t f.d true 1 (fun _ => v) ∧ s.SamePreds t ∧ t.fstat = s.fstat ∧ s.Advanced t ∧
        (t.group s.cur.grp).qb = r) ∧
    (s.executes (.abq f z off) f = true → acts → ∃ t, exec (.abq f z off) s = .next t ∧
      match x.qb with
      | [] => s.StreamWaits t .qback
      | v :: r => s.Kept (s.accessUndone t) ∧ (t.group s.cur.grp).qb = r ∧
        s.ContinuesAt t fun _ => if (if z then v = 0 else v ≠ 0) then target else s.cur.npc) ∧
    (s.executes (.aslip f q) f = true → acts → ∃ t, exec (.aslip f q) s = .next t ∧ s.Advanced t ∧ t.mem = s.mem ∧
      ∀ w, (w, (x.warp w)) ∈ x.warps →
        (((t.group s.cur.grp).warp w).queue q.val).slip = min (max (s.src32 f f.a 0).toNat 1) 16 ∧
        (((t.group s.cur.grp).warp w).queue q.val).entries = ((x.warp w).queue q.val).entries)

/-- Loads and stores of the A-stream complete (09 R253 to R255, 03 R66, R75, R76): `aload` waits for room, then allocates one entry in each target
warp, whose elements are those at the addresses of R254 or the fault that each met; `astore` writes one value, and after a release fence may wait at its
slot for write-backs that a lock holds (08 R216, R230); a returned element becomes visible in its entry. -/
def Parts.AccessStreamMemoryResults : Prop :=
  ∀ (f : Full) (gen : Fin 8) (acc : BitVec 3) (m : MemMod) (sel off : BitVec 10) (s : State),
    let q := queueNo f.d
    let n := accSize acc
    let x := s.curGroup
    let aload : Instr := .aload f gen acc m sel off
    let allocated (t : State) : Prop := s.Advanced t ∧ s.SameWindow t ∧ (m.space = .s → t.mem = s.mem) ∧
      (∀ w, w ∉ s.targets q sel → (t.group s.cur.grp).warp w = x.warp w) ∧
      ∀ w ∈ s.targets q sel, ∃ e, ((t.group s.cur.grp).warp w).queue q =
          { (x.warp w).queue q with entries := ((x.warp w).queue q).entries ++ [e], tail := ((x.warp w).queue q).tail + 1 } ∧
        e.seq = ((x.warp w).queue q).tail ∧ e.elems.length = x.kernel.width ∧
        ∀ p, p < x.kernel.width → m.space = .s →
          let ea := s.elementAddress gen.val false n off p w
          e.elems[p]? = some (match s.spot s.cur.grp s.agent ⟨.s, ea, n, .load, readLevel m⟩ with
            | .error c => .pendingFault c.cause (BitVec.ofInt 64 ea) c.kind.isSome
            | .ok _ => .pending (elemData acc (readBytes x.scratch ea.toNat n)))
    let astore : Instr := .astore f gen acc m off
    let global : Bool := m.space == .g
    let ea (_ : Nat) : Int := s.elementAddress gen.val global n off 0 0
    let lvl (_ : Nat) : Nat := s.writeLevel 64 m
    let data (_ : Nat) : Nat := (s.src f f.d (acc == 3) 0).toNat
    let written (t : State) : Prop := s.KeptButMemory t ∧ s.Advanced t ∧
      (m.space = .s → t.mem = s.mem ∧ ∀ a, Store.get (t.group s.cur.grp).scratch 0 a =
        stored n ea data (laneList (s.gLive f)) a (Store.get x.scratch 0 a)) ∧
      (m.space = .g → s.SameWindow t ∧ (m.scope = .plain → t.mem.home = s.mem.home ∧
        ∀ tag i, i < 128 →
          let after := (s.places f .g n .store ea lvl).foldl (fun b p => match p.2 with
            | .g loc => storedInLine s.agent n (data p.1) loc tag i b
            | _ => b) (s.mem.cacheByte (.l1 x.pcore) tag i)
          let byte := t.mem.cacheByte (.l1 x.pcore) tag i
          (byte = after ∨ byte = none) ∧ (s.mem.roomy (.l1 x.pcore) 64 = true → byte = after)))
    (s.executes aload f = true → s.gLanes f = 0 → ∃ t, exec aload s = .next t ∧ s.Kept t ∧ s.Advanced t) ∧
    (s.executes aload f = true → s.gLanes f ≠ 0 → s.badSel sel = false →
      if ∃ w ∈ s.targets q sel, x.slipOf w q ≤ ((x.warp w).queue q).entries.length then ∃ t, exec aload s = .next t ∧ s.StreamWaits t .qfull
      else ∃ t, exec aload s = .next t ∧ allocated t) ∧
    (s.executes astore f = true → s.accessesPass f m.space n .store ea lvl = true →
      if s.mayMeetLocks m.space m.scope then (∃ t, exec astore s = .next t ∧ written t) ∨ s.WaitsForBacks astore
      else ∃ t, exec astore s = .next t ∧ written t) ∧
    (∀ grp wid qn seq lane, ∃ t, exec (.queueElementReturn grp wid qn seq lane) s = .next t ∧ t.mem = s.mem ∧
      ∀ e ∈ ((s.warp grp wid).queue qn).entries, e.seq = seq →
        let e' : QEntry := { e with elems := (e.elems.zipIdx).map fun p => if p.2 = lane then p.1.land else p.1 }
        (e' ∈ ((t.warp grp wid).queue qn).entries ∨
          (e'.complete = true ∧ ∀ l, l < 64 → (s.warp grp wid).live.getLsbD l = true → seq < ((s.warp grp wid).queue qn).head l)))

/-- The access stream (09 R251 to R259). -/
def Obligations.AccessStreamResults : Prop :=
  Parts.AccessStreamResults ∧ Parts.AccessStreamMemoryResults

/-! ### Copies (chapter 09) -/

/-- The copy forms complete (09 R264, R265, R268, R269). Where every block passes its checks, the lanes are accepted in ascending order as far as
their copies can register (08 R229): each of those has a copy, registered unless it moves nothing, and receives its handle, and the rest wait at
the form; where some fail, the form traps with the cause of the lowest and no copy issues. While no copy is registered or waits, the first lane is
accepted. `ccan` marks the copies named, and `cstat` gives their status. -/
def Obligations.CopyFormResults : Prop :=
  ∀ (f : Full) (sp : Space) (s : State), s.stands = true →
    let issues (kind : Nat) (i : Instr) : Prop := s.executes i f = true →
      match s.copyBlocks kind f sp with
      | (l, [], _) => ∃ (t : State) (n : Nat), exec i s = .next t ∧ n ≤ l.length ∧
          (∀ p, l[n]? = some p → t.fitsLocks kind p = false) ∧
          (∀ p, l[0]? = some p → s.mem.locks = [] → (∀ c ∈ s.eng.copies, c.2.used = true → c.2.run ≠ .waiting) →
            (copyRanges kind p.block p.pieces).length ≤ 32 → 0 < n) ∧
          s.Frame (s.engineUndone t) ∧ s.Wrote t f.d false (copyLanes (l.take n)) (handleOf s.curGroup.copySeq l) ∧ s.SamePreds t ∧
          t.fstat = s.fstat ∧ (t.group s.cur.grp).copySeq = s.curGroup.copySeq + n ∧ ((∀ p ∈ l, blkTotal kind p.block p.pieces ≠ 0) → s.SameWindow t) ∧
          (∀ k, k < 64 → s.cur.lanes.getLsbD k = true →
            if (copyLanes (l.drop n)).getLsbD k = true then s.LaneAt t k s.cur.pc (fun w => ∃ m, w = .locks m) else s.LaneAt t k s.cur.npc (· = .ready)) ∧
          (∀ k p, l[k]? = some p → k < n → blkTotal kind p.block p.pieces ≠ 0 → ∃ id,
            let c := t.copy id
            c.used = true ∧ c.grp = some s.cur.grp ∧ c.seq = s.curGroup.copySeq + k ∧ c.eng = p.eng ∧ c.kind = kind ∧ c.block = p.block ∧
            c.pieces = p.pieces ∧ c.done = 0 ∧ c.run = .queued ∧ ∀ y ∈ c.locks id, y ∈ t.mem.locks)
      | (_, (n, e) :: r, _) => e.acc = none →
          exec i s = .next (s.trap (s.mkTrap e.cause (lanesWhere fun k => ((n, e) :: r).any fun p => p.1 == k && p.2.cause == e.cause) e.i0
            (BitVec.ofInt 64 (s.blockAddr f sp n)) e.off 0))
    issues 0 (.cpy f sp) ∧ issues 1 (.cpy2d f sp) ∧ issues 2 (.cpyg f sp) ∧
    (s.executes (.ccan f) f = true → ∃ t, exec (.ccan f) s = .next t ∧ s.Kept { t with eng := s.eng } ∧ s.Advanced t ∧
      t.eng = { s.eng with copies := t.eng.copies } ∧
      ∀ id, t.copy id =
        if (laneList (s.gLive f)).any fun l => s.copyNamed s.cur.grp (s.src32 f f.a l) == some id then (s.copy id).cancelled else s.copy id) ∧
    (s.executes (.cstat f) f = true → ∃ (t : State) (v : Nat → W64), exec (.cstat f) s = .next t ∧ s.KeptButMemory t ∧ t.mem = s.mem ∧
      s.SameWindow t ∧ s.Advanced t ∧ s.Awaits t f.d (s.gLanes f) (fun l => [loWord (v l), hiWord (v l)]) ∧
      ∀ l, l < 64 → (s.gLanes f).getLsbD l = true →
        match s.copyNamed s.cur.grp (s.src32 f f.a l) with
        | some id =>
          let c := s.copy id
          (v l).extractLsb' 60 4 = (match c.run with | .waiting | .queued => 0 | .running => 1 | .done => 2 | .cancelled => 3 | .failed => 4) ∧
          (v l).extractLsb' 48 12 = 0 ∧ (v l).extractLsb' 0 48 = BitVec.ofNat 48 c.done
        | none => (s.curGroup.cstat.all fun p => !isHandle (s.src32 f f.a l) (p.1 / 4096) (p.1 % 4096)) = true → v l = 0x5000000000000000)

/-- A waiting copy registers once nothing it overlaps is locked and entries are free (08 R229), its global ranges leaving every cache; a
chunk moves at most 4 KiB of destination, byte for byte where both sides lie in the window (09 R266); a copy that ends gives up its locks,
leaves its state for as long as it is among the 256 most recent, and writes its completion word, changed in bit 63 unless it is done (08 R227, 09
R267, R268). -/
def Obligations.CopyEngineResults : Prop :=
  ∀ (id : Nat) (s : State),
    let c := s.copy id
    let g := c.grp.getD 0
    (∃ t, exec (.copyRegistration id) s = .next t ∧
      if s.canRegister id then
        (t.copy id).run = .queued ∧ t.mem.locks = s.mem.locks ++ c.locks id ∧ t.groups = s.groups ∧ (∀ k, k ≠ id → t.copy k = s.copy k) ∧
        ∀ y ∈ c.locks id, y.scratch = none → ∀ cache, ∀ x ∈ t.mem.cache cache,
          ¬ (x.part = y.part ∧ x.asid = y.asid ∧ 128 * x.vline ≤ y.hi ∧ y.lo ≤ 128 * x.vline + 127)
      else t = s) ∧
    (∃ t, exec (.copyChunk id) s = .next t ∧
      if s.copyReady id then
        c.done ≤ (t.copy id).done ∧ (c.kind ≠ 1 → (t.copy id).done ≤ c.done + 4096) ∧ t.mem.locks = s.mem.locks ∧
        (∀ k, k ≠ id → t.copy k = s.copy k) ∧ (∀ k, k ≠ g → t.group k = s.group k) ∧
        (c.kind = 0 → blkSs c.block = true → blkDs c.block = true →
          let d := (blkWord c.block 2).toNat + c.done
          let a := (blkWord c.block 1).toNat + c.done
          let n := min (c.total - c.done) (4096 - d % 4096)
          (s.group g).scratchBad a n = false → (t.copy id).done = c.done + n ∧ t.mem = s.mem ∧
            ∀ k, Store.get (t.group g).scratch 0 k =
              if d ≤ k ∧ k < d + n then Store.get (s.group g).scratch 0 (a + (k - d)) else Store.get (s.group g).scratch 0 k)
      else t = s) ∧
    (∃ t, exec (.copyComplete id) s = .next t ∧
      if s.copyEnds id then
        (∀ y ∈ t.mem.locks, y.copy ≠ id) ∧ (∀ k, k ≠ id → t.copy k = s.copy k) ∧ (∀ k, k ≠ g → t.group k = s.group k) ∧
        (c.grp ≠ none → c.completing = false → blkNoComp c.block = true ∨ blkCs c.block = true →
          (t.copy id).used = false ∧
          let ended := c.doomed (s.engWait c.tok)
          let run := ended.how
          (c.eng < 4096 → (s.group g).copySeq ≤ c.seq + 256 →
            Store.get (t.group g).cstat 0 (4096 * c.seq + c.eng) = cstatWord run ended.cause c.done) ∧
          (blkNoComp c.block = false → ∀ k, Store.get (t.group g).scratch 0 k =
            let a := (blkWord c.block 6).toNat
            let v := if run = .done then blkWord c.block 7 else blkWord c.block 7 ^^^ 0x8000000000000000#64
            if a ≤ k ∧ k < a + 8 then v.extractLsb' (8 * (k - a)) 8 else Store.get (s.group g).scratch 0 k))
      else t = s)

/-! ### Tasks and hardware queues (chapters 09 and 13) -/

/-- A record that enters a shard stands at its tail, 64 bytes in its ring slot, which in device memory lies at BASE and the slot's offset, and one
that is taken leaves its slot free (13 R358, R360): the counters move by one and no other shard's do. -/
def Parts.RingResults : Prop :=
  ∀ (s : State) (part q sh p : Nat) (a : Agent) (rel : Bool) (r : W512) (tg : BitVec 4), s.boundTo 4 q = none →
    let d := s.qdesc q
    let place := (qBase d).toNat + 64 * (sh * qSlots d + (s.qTail q sh).toNat % qSlots d)
    (s.slotPhys part q sh (s.qTail q sh) .store = some p →
      (place < deviceTop → p = place) ∧
      let t := s.enqueue part q sh a rel r tg
      t.qTail q sh = s.qTail q sh + 1 ∧ (∀ k n, t.qHead k n = s.qHead k n) ∧ (∀ k n, 32 * k + n ≠ 32 * q + sh → t.qTail k n = s.qTail k n) ∧
      t.mem.read p 64 = r.toNat ∧ (∀ b, b < p ∨ p + 64 ≤ b → t.mem.byte b = s.mem.byte b) ∧
      (place < deviceTop → s.shardCount q sh = 0 → t.headRecord part q sh = r)) ∧
    (s.slotPhys part q sh (s.qHead q sh) .load = some p →
      let t := (s.claim part q sh a).2
      t.qHead q sh = s.qHead q sh + 1 ∧ (∀ k n, t.qTail k n = s.qTail k n) ∧
      (∀ k n, 32 * k + n ≠ 32 * q + sh → t.qHead k n = s.qHead k n) ∧ (s.claim part q sh a).1 = BitVec.ofNat 512 (t.mem.read p 64))

/-- The task forms and the queue forms complete (09 R271 to R276). -/
def Obligations.TaskAndQueueFormResults : Prop :=
  ∀ (f : Full) (sp : Space) (l : Nat) (s : State), s.stands = true → l < 64 →
    let x := s.curGroup
    let n := (s.src32 f f.a l).toNat
    let none' (i : Instr) : Prop := s.executes i f = true → s.gLive f = 0 → ∃ t, exec i s = .next t ∧ s.Kept t ∧ s.Advanced t
    none' (.treserve f) ∧ none' (.tpost f sp) ∧ none' (.tdone f) ∧ none' (.hqget f) ∧ none' (.hqput f sp) ∧
    -- `treserve`: the node and count of the lowest guard-true live lane
    (s.executes (.treserve f) f = true → lowLane (s.gLive f) = some l →
      let c := (s.src32 f f.b l).toNat
      let spent (r : Nat) : Prop := exec (.treserve f) s =
        .next (s.trap (s.mkTrap .taskBudget (s.gLive f) (BitVec.ofNat 64 (r + 256 * (n % 256))) (BitVec.ofNat 64 (x.resvOf n)) 0 0))
      (x.taskPlace n = 0 → spent 1) ∧
      (∀ q, x.taskPlace n ≠ 0 → s.taskQueue x n = some q → qKind (s.qdesc q) = 1 → s.qUsable x.part q = true →
        if qCap (s.qdesc q) < c then spent 2
        else if x.tdone then spent 4
        else ∃ t, exec (.treserve f) s = .next t ∧
          if c = 0 ∨ s.load x.part q + c ≤ qCap (s.qdesc q) then
            s.Kept (s.workUndone t) ∧ t.mem = s.mem ∧ s.Advanced t ∧ ∀ k, (t.group s.cur.grp).resvOf k = x.resvOf k + if k = n then c else 0
          else s.Kept t ∧ s.SomeWait t (fun _ => true) (· = .taskres n c s.cur.npc))) ∧
    -- `tpost`: every lane's record where loads are within capacities, as reservations keep them, or TASK_BUDGET in the lanes without budget
    (s.executes (.tpost f sp) f = true → (∀ k, k < 64 → (s.gLive f).getLsbD k = true → s.postErr f k = none) →
      (s.laneRecords (laneList (s.gLive f)) (s.postRecord f sp)).2.1 = [] →
      let posted (t : State) : Prop := s.Kept (s.workUndone t) ∧ s.SameWindow t ∧ s.Advanced t ∧
        ∀ q sh v tg u, s.gLive f = laneBit l → s.taskQueue x n = some q → s.freeShard q (shardOf (qShards (s.qdesc q)) (v.extractLsb' 0 64)) = some sh →
          s.laneRecord sp (s.recAddr f f.b sp l) = .ok (v, tg, u) →
          t.mem = (u.enqueue x.part q sh s.agent true v tg).mem ∧ t.work = (u.enqueue x.part q sh s.agent true v tg).work ∧
          ∀ k, (t.group s.cur.grp).resvOf k = x.resvOf k - if k = n then 1 else 0
      (x.used = true → (∀ q, s.load x.part q ≤ qCap (s.qdesc q)) → ∃ t, exec (.tpost f sp) s = .next t ∧ posted t) ∧
      ((∃ t, exec (.tpost f sp) s = .next t ∧ posted t) ∨ s.WaitsForBacks (.tpost f sp))) ∧
    (s.executes (.tpost f sp) f = true → (s.gLive f).getLsbD l = true → (∀ k, k < l → (s.gLive f).getLsbD k = true → s.postErr f k = none) →
      ∀ r m, s.postErr f l = some (r, m) →
        exec (.tpost f sp) s = .next (s.trap (s.mkTrap .taskBudget (lanesWhere fun k => (s.gLive f).getLsbD k && (s.postErr f k).isSome)
          (BitVec.ofNat 64 (r + 256 * (m % 256))) (BitVec.ofNat 64 (x.resvOf m)) 0 0))) ∧
    -- `tdone`: unused reservations return
    (s.executes (.tdone f) f = true → s.gLive f ≠ 0 → ∃ t, exec (.tdone f) s = .next t ∧ s.Kept (s.workUndone t) ∧ t.mem = s.mem ∧
      t.work = s.work ∧ s.Advanced t ∧ (t.group s.cur.grp).tdone = true ∧ ∀ k, (t.group s.cur.grp).resvOf k = 0) ∧
    -- `hqget`: lanes that find a record go on with it, the others wait; their acquires may wait for what a lock holds (08 R215)
    (s.executes (.hqget f) f = true → (∀ k, k < 64 → (s.gLive f).getLsbD k = true → ∃ q, s.hqQueue [2] (s.placeArg f k) = .ok q) →
      let taken (t : State) (got : Lanes) (v : Nat → W512) : Prop := s.Kept (s.workUndone t) ∧ s.SameWindow t ∧
        s.Awaits t f.d got (fun k => (List.range 16).map fun i => (v k).extractLsb' (32 * i) 32) ∧
        s.SomeWait t (fun k => (s.gLive f).getLsbD k && !got.getLsbD k) (fun w => ∃ qs, w = .hqget qs) ∧
        ∀ q, s.gLive f = laneBit l → s.hqQueue [2] (s.placeArg f l) = .ok q →
          if s.shardCount q 0 = 0 then got = 0 ∧ t.work = s.work
          else got = laneBit l ∧ v l = (s.claim x.part q 0 s.agent).1 ∧ t.mem = (s.claim x.part q 0 s.agent).2.mem ∧
            t.work = (s.claim x.part q 0 s.agent).2.work
      if s.mem.locks = [] then ∃ t got v, exec (.hqget f) s = .next t ∧ taken t got v
      else (∃ t got v, exec (.hqget f) s = .next t ∧ taken t got v) ∨ s.WaitsForBacks (.hqget f)) ∧
    -- `hqput`: lanes whose queue has room, and nothing held before them, go on; the others hold their records
    (s.executes (.hqput f sp) f = true → (s.laneRecords (laneList (s.gLive f)) (s.putRecord f sp)).2.1 = [] →
      ∃ (t : State) (held : Lanes), exec (.hqput f sp) s = .next t ∧ s.Kept (s.workUndone t) ∧ s.SameWindow t ∧
        s.SomeWait t (fun k => held.getLsbD k) (fun w => ∃ hs, w = .hqput hs s.cur.npc) ∧
        ∀ q v tg u, s.gLive f = laneBit l → s.hqQueue [0, 2] (s.placeArg f l) = .ok q → s.laneRecord sp (s.recAddr f f.b sp l) = .ok (v, tg, u) →
          if s.shardFree q 0 = true ∧ s.holdSeqs q = [] then held = 0 ∧ t.mem = (u.enqueue x.part q 0 s.agent true v tg).mem ∧
            t.work = (u.enqueue x.part q 0 s.agent true v tg).work
          else held = laneBit l ∧ t.work = s.work)

/-- Waiting reservations and enqueues are granted once they fit, and a doorbell of the enqueue window enqueues what was staged, is held
while the queue is full, or is refused (09 R271, R276; 13 R359, R360). -/
def Parts.QueueGrantResults : Prop :=
  ∀ (g w l part queue hart : Nat) (v : W64) (fenced : Bool) (s : State),
    let x := s.warp g w
    let key := stageKey part queue hart
    let answered (t : State) (a : W64) : Prop := Store.get t.work.answers 0 key = a
    (∀ y n c pc, x.splits.find? (fun z => z.lanes.getLsbD l) = some y → y.wait = .taskres n c pc →
      ∃ t, exec (.treserveGrant g w l) s = .next t ∧
        if s.canReserve g n c then (t.group g).resvOf n = (s.group g).resvOf n + c ∧ t.mem = s.mem ∧
          ∃ z ∈ (t.warp g w).splits, z.lanes = y.lanes ∧ z.pc = pc ∧ z.wait = .ready
        else t = s) ∧
    (∀ y hs pc h, x.splits.find? (fun z => z.lanes.getLsbD l) = some y → y.wait = .hqput hs pc → hs.find? (fun k => k.lane == l) = some h →
      ∃ t, exec (.hqputHoldRelease g w l) s = .next t ∧
        if s.canPublish hs h then
          let u := s.enqueue (s.group g).part h.q 0 (s.group g).agent true h.record h.tags
          t.mem = u.mem ∧ t.work = u.work ∧ ∃ z ∈ (t.warp g w).splits, z.lanes.getLsbD l = true ∧ slotAddr z.pc = slotAddr pc ∧ z.wait.isOver = true
        else t = s) ∧
    (s.holdOf part queue hart = none → hart < 32 → ∃ t, exec (.doorbell part queue hart v fenced) s = .next t ∧ t.groups = s.groups ∧
      match s.unit part 4 queue with
      | none => answered t 0xFFFFFFFFFFFFFFFE ∧ t.mem = s.mem
      | some q =>
        if v ≠ 1 ∨ s.qUsable part q = false then answered t 0xFFFFFFFFFFFFFFFE ∧ t.mem = s.mem
        else match if s.holdSeqs q = [] then s.windowShard part q (s.staged key fenced) else none with
          | some sh => answered t (s.qTail q sh) ∧ t.mem = (s.enqueue part q sh ⟨part, 0, none⟩ fenced (s.staged key fenced) 0).mem ∧
              t.work.tails = (s.enqueue part q sh ⟨part, 0, none⟩ fenced (s.staged key fenced) 0).work.tails
          | none => t.work.holds = s.work.holds ++ [⟨part, queue, q, hart, fenced, s.draws⟩] ∧ t.mem = s.mem) ∧
    (s.staged key true = Store.get s.work.stage 0 key) ∧
    (∀ h, s.holdOf part queue hart = some h → ∃ t, exec (.enqueueHoldRelease part queue hart) s = .next t ∧
        match if s.holdFirst h then s.windowShard part h.phys (s.staged key h.fenced) else none with
        | some sh => answered t (s.qTail h.phys sh) ∧ t.holdOf part queue hart = none ∧
            t.mem = (s.enqueue part h.phys sh ⟨part, 0, none⟩ h.fenced (s.staged key h.fenced) 0).mem
        | none => t = s) ∧
    (∀ h, s.holdOf part queue hart = some h → ∃ t, exec (.enqueueHoldTimeout part queue hart) s = .next t ∧
        if qTmo (s.qdesc h.phys) ≠ 0 ∧ ¬ (s.holdFirst h = true ∧ (s.windowShard part h.phys (s.staged key h.fenced)).isSome = true) then
          answered t 0xFFFFFFFFFFFFFFFF ∧ t.holdOf part queue hart = none ∧ t.mem = s.mem ∧ t.work.tails = s.work.tails
        else t = s)

/-- Ring queues and what they grant (13 R354 to R366; 14). -/
def Obligations.QueueGrantResults : Prop :=
  Parts.RingResults ∧ Parts.QueueGrantResults

/-! ### Upcalls, fault records and verdicts (chapters 07, 13 and 17) -/

/-- `upcall` completes (07 R181): its token is new, its result is pending until the reply, no split of the warp issues meanwhile, and its message
and token stand in the next entry of the mailbox once there is room (13 R369). The reply's halves land in the pending registers (13 R370). -/
def Obligations.UpcallResults : Prop :=
  ∀ (f : Full) (s : State),
    let x := s.curGroup
    (s.executes (.upcall f) f = true → s.curWarp.ups = [] →
      match lowLane (s.gLive f) with
      | none => ∃ t, exec (.upcall f) s = .next t ∧ s.Kept t ∧ s.Advanced t
      | some l =>
        let n := (s.src32 f f.a l).toNat
        if s.mboxOk x.part n = false then exec (.upcall f) s = .next (s.trap (s.mkTrap .upcallFail (s.gLive f) (BitVec.ofNat 64 n) 0 0 0))
        else ∀ v tg u, s.laneRecord .g ((s.src f f.b true l).toNat : Int) = .ok (v, tg, u) →
          ∃ t, exec (.upcall f) s = .next t ∧ s.Kept (s.workUndone t) ∧ t.nextTok = s.nextTok + 1 ∧ s.SameWindow t ∧
            s.Advanced t ∧ s.Awaits t f.d (s.gLive f) (fun _ => [0, 0]) ∧ t.work = s.work ∧
            (∀ y, t.splitReady s.cur.grp s.cur.wid y = false) ∧
            (s.issuer t).ups = [⟨u.token, s.gLive f, n, v, u.mboxRoom x.part n, s.cur.pc, true⟩] ∧
            let b := mbBase (s.mbox x.part n)
            let tail := u.mem.read (b + 8) 8
            let a := b + 128 + 128 * (tail % 2 ^ mbLog (s.mbox x.part n))
            if u.mboxRoom x.part n then
              t.mem.read a 64 = v.toNat ∧ t.mem.read (a + 64) 8 = u.token.toNat ∧ t.mem.read (b + 8) 8 = (tail + 1) % 2 ^ 64 ∧
              ∀ k, (k < a ∨ a + 128 ≤ k) → (k < b + 8 ∨ b + 16 ≤ k) → t.mem.byte k = u.mem.byte k
            else t.mem = u.mem) ∧
    (∀ g w y, (s.warp g w).ups.find? (fun k => !k.posted) = some y → ∃ t, exec (.upcallPost g w) s = .next t ∧
      if s.mboxRoom (s.group g).part y.mbox then
        (∀ k ∈ (t.warp g w).ups, k.token = y.token → k.posted = true) ∧
        let b := mbBase (s.mbox (s.group g).part y.mbox)
        t.mem.read (b + 8) 8 = (s.mem.read (b + 8) 8 + 1) % 2 ^ 64
      else t = s) ∧
    (∀ part mbox tok g, (s.faultOut (tok ^^^ Config.tokenMask).toNat).used = false →
      (s.groups.find? fun p => p.2.used && p.2.part == part && p.2.awaits tok) = some (g, s.group g) →
      ∃ t, exec (.replyToken part mbox tok) s = .next t ∧
        let v := Store.get s.part.replies 0 (64 * part + mbox)
        (∀ h, h ≠ g → t.group h = s.group h) ∧
        ∀ w, (t.warp g w).vregs = (s.warp g w).vregs ∧ (t.warp g w).ups = (s.warp g w).ups.filter (fun k => k.token != tok) ∧
          (t.warp g w).pend = (s.warp g w).pend.map fun p =>
            if p.kind = .upcall tok then { p with val := if p.reg % 2 = 0 then loWord v else hiWord v, landed := true } else p)

/-- A fault record reaches its mailbox, or the peer that serves the partition, once there is a way (17 R419). The verdict RESOLVED is recorded for
what waits on it, FATAL too, and any other ends the context, as FATAL does for an escalation, a halt and a stage-2 fault (17 R420, R421; 19
R449): its streams and copies are gone. A recorded verdict writes memory only where its context is saved, in the save area (18 R434). A verdict on
a record that is not posted has no effect. -/
def Obligations.FaultRecordResults : Prop :=
  ∀ (n : Nat) (v : W64) (s : State),
    let r := s.faultOut n
    let key := ctxKey r.part r.asid
    let area (t : State) : Prop := ((s.ctx key).run ≠ .saved → t.mem = s.mem) ∧ ∀ a, a < (s.ctx key).save.toNat → t.mem.byte a = s.mem.byte a
    (∃ t, exec (.faultRecordDeliver n) s = .next t ∧ t.groups = s.groups ∧
      if r.used && !r.posted && (if r.peer then s.peerPath r.part r.dest else s.mboxOk r.part r.dest && s.mboxRoom r.part r.dest) then
        t.faultOut n = { r with posted := true } ∧ (∀ k, k ≠ n → t.faultOut k = s.faultOut k) ∧
        (r.peer = false →
          let b := mbBase (s.mbox r.part r.dest)
          let tail := s.mem.read (b + 8) 8
          let a := b + 128 + 128 * (tail % 2 ^ mbLog (s.mbox r.part r.dest))
          t.mem.read a 64 = r.record.toNat ∧ t.mem.read (a + 64) 8 = (faultToken n).toNat ∧ t.mem.read (b + 8) 8 = (tail + 1) % 2 ^ 64)
      else t = s) ∧
    (∃ t, exec (.faultVerdict n v) s = .next t ∧
      if r.used = false ∨ r.posted = false then t = s
      else if v = 0 then t.verdictOf n = 1 ∧ (t.faultOut n).used = false ∧ t.groups = s.groups ∧ t.ctxs = s.ctxs ∧ area t
      else if v = 1 ∧ r.kind ≠ 5 ∧ r.kind ≠ 6 ∧ r.stage2 = none then
        t.verdictOf n = 2 ∧ (t.faultOut n).used = false ∧ t.groups = s.groups ∧ t.ctxs = s.ctxs ∧ area t
      else
        (t.ctx key).run = .ended ∧ (t.ctx key).savedGroups = [] ∧ (∀ p ∈ t.groups, p.2.ctxKey ≠ key) ∧
        (∀ id, (t.copy id).used = true → ctxKey (t.copy id).part (t.copy id).asid ≠ key) ∧ (∀ k, k ≠ key → t.ctx k = s.ctx k))

/-! ### Matrix arrays (chapter 10) -/

/-- The matrix forms complete (10 R278, R281, R285, R288 to R295, R298): claims, the group's format, the scale table, operations that enter the
ports of the arrays in order, waits, and the traps of R282 and R299 where their checks fail. -/
def Obligations.MatrixFormResults : Prop :=
  ∀ (f : Full) (both : Bool) (arr : Fin 2) (chi : Bool) (slot : Fin 4) (ty : Ty) (ld cmp st : Bool) (imm : BitVec 10) (s : State),
    let x := s.curGroup
    let y := x.array arr.val
    let on (i : Instr) (p : Prop) : Prop := s.executes i f = true → s.gLanes f ≠ 0 → p
    let off (i : Instr) : Prop := s.executes i f = true → s.gLanes f = 0 → ∃ t, exec i s = .next t ∧ s.Kept t ∧ s.Advanced t
    let a := s.src32 f f.a 0
    let b := s.src32 f f.b 0
    let c := s.src32 f f.c 0
    let rows : Prop := 1 ≤ c.toNat ∧ b.toNat + c.toNat ≤ 256
    let badRows (i : Instr) : Prop := s.MatrixTrapped i 5 (b.toNat * 2 ^ 32 + c.toNat) 0
    off (.mclaim f both) ∧ off (.mrel f) ∧ off (.mend f) ∧ off (.mwld f arr chi) ∧ off (.mswap f arr) ∧ off (.mact f arr slot) ∧
    off (.mzero f arr) ∧ off (.mst f arr ty) ∧ off (.mwait f ld cmp st) ∧
    on (.mclaim f both) (
      if x.claim ≠ 0 then s.MatrixTrapped (.mclaim f both) 3 (if x.claim = 2 then 1 else 0) 0
      else ∃ t, exec (.mclaim f both) s = .next t ∧
        match (if s.claimList x.pcore = [] then s.arraysFor x.pcore both else none) with
        | some phys => s.Kept (s.arraysUndone t) ∧ s.Advanced t ∧ (t.group s.cur.grp).claim = (if both then 2 else 1) ∧
            (t.group s.cur.grp).phys = phys ∧ t.eng = s.eng ∧
            ∀ n, n < 2 → (n = 0 ∨ both = true) → ((t.group s.cur.grp).array n).acc = [] ∧ ((t.group s.cur.grp).array n).active.ts = 0x3F800000 ∧
              ((t.group s.cur.grp).array n).active.bytes = [] ∧ ((t.group s.cur.grp).array n).shadow.bytes = []
        | none => s.StreamWaits { t with eng := s.eng } (.mclaim both s.cur.npc) ∧ t.claimList x.pcore = s.claimList x.pcore ++ [(s.cur.grp, both)]) ∧
    on (.mrel f) (∃ t, exec (.mrel f) s = .next t ∧
      if x.outstanding true true true then s.StreamWaits t (.matrix true true true none)
      else s.Kept (s.releaseUndone t) ∧ s.Advanced t ∧ s.Released t) ∧
    on (.mend f) (
      if x.outstanding true true true then ∃ t, exec (.mend f) s = .next t ∧ s.StreamWaits t (.matrix true true true none)
      else ∃ r : State, exec (.mend f) s = .next (r.settleBarriers s.cur.grp) ∧ r.curGroup.mstr.ended = true ∧ s.Released r ∧
        s.Kept (s.releaseUndone (r.modStream s.cur.grp .m fun z =>
          { z with ended := x.mstr.ended, stopped := x.mstr.stopped, trap := x.mstr.trap }))) ∧
    on (.mwld f arr chi) (
      if s.estNow = false then s.MatrixTrapped (.mwld f arr chi) 4 0 0
      else if x.claim ≤ arr.val then s.MatrixTrapped (.mwld f arr chi) 2 arr.val 0
      else s.matrixRangeOk a 16384 128 false = true → s.EntersPort (.mwld f arr chi) arr.val ⟨.wld, a.toNat, 0, 0, 0, .i32, b, chi, 0, 0, []⟩) ∧
    on (.mswap f arr) (
      if x.claim ≤ arr.val then s.MatrixTrapped (.mswap f arr) 2 arr.val 0
      else ∃ t, exec (.mswap f arr) s = .next t ∧
        if y.canSwap then s.Kept (s.arraysUndone t) ∧ s.Advanced t ∧
          (t.group s.cur.grp).array arr.val = { y with active := y.shadow, shadow := y.active } ∧
          ∀ n, n ≠ arr.val → (t.group s.cur.grp).array n = x.array n
        else s.StreamWaits t (.mswap arr.val s.cur.npc)) ∧
    on (.mact f arr slot) (
      if s.estNow = false then s.MatrixTrapped (.mact f arr slot) 4 0 0
      else if x.claim ≤ arr.val then s.MatrixTrapped (.mact f arr slot) 2 arr.val 0
      else if ¬ rows then badRows (.mact f arr slot)
      else s.matrixRangeOk a (c.toNat * actRow x.gfmt) 64 false = true → enabledFlags s.fstat = 0 →
        s.EntersPort (.mact f arr slot) arr.val ⟨.act, a.toNat, b.toNat, c.toNat, slot.val, .i32, 0, false, 0, 0, x.mSees⟩) ∧
    on (.mzero f arr) (
      if x.claim ≤ arr.val then s.MatrixTrapped (.mzero f arr) 2 arr.val 0
      else if ¬ rows then badRows (.mzero f arr)
      else s.EntersPort (.mzero f arr) arr.val ⟨.zero, 0, b.toNat, c.toNat, 0, .i32, 0, false, 0, 0, []⟩) ∧
    on (.mst f arr ty) (
      if s.estNow = false then s.MatrixTrapped (.mst f arr ty) 4 0 0
      else if x.claim ≤ arr.val then s.MatrixTrapped (.mst f arr ty) 2 arr.val 0
      else if ¬ rows then badRows (.mst f arr ty)
      else if mstType x.gfmt ty = false then s.MatrixTrapped (.mst f arr ty) 6 ty.code.toNat 0
      else s.matrixRangeOk a (c.toNat * (128 * ty.width / 8)) 64 true = true → enabledFlags s.fstat = 0 →
        s.EntersPort (.mst f arr ty) arr.val ⟨.st, a.toNat, b.toNat, c.toNat, 0, ty, 0, false, 0, 0, []⟩) ∧
    on (.mwait f ld cmp st) (∃ t, exec (.mwait f ld cmp st) s = .next t ∧
      if x.outstanding ld cmp st then s.StreamWaits t (.matrix ld cmp st none) else s.Kept t ∧ s.Advanced t) ∧
    -- the forms of the E-stream
    (s.executes (.mfmt f) f = true → match lowLane (s.gLive f) with
      | none => ∃ t, exec (.mfmt f) s = .next t ∧ s.Kept t ∧ s.Advanced t
      | some l =>
        let v := s.src32 f f.a l
        let split : Bool := (laneList (s.gLive f)).any fun k => s.src32 f f.a k != v
        let differs (ref : W32) : Lanes := lanesWhere fun k => (s.gLive f).getLsbD k && s.src32 f f.a k != ref
        let diverges (ref : W32) : Prop := ∃ k w, lowLane (differs ref) = some k ∧ w = s.src32 f f.a k ∧
          exec (.mfmt f) s = .next (s.trap (s.mkTrap .formatDivergence (differs ref) (ref.setWidth 64) (w.setWidth 64) 0 0))
        if x.mstr.on = false then s.MatrixTrapped (.mfmt f) 8 0 (s.gLive f)
        else if split then diverges (if x.est then x.gfmt else v)
        else if x.est then (if v = x.gfmt then ∃ t, exec (.mfmt f) s = .next t ∧ s.Kept t ∧ s.Advanced t else diverges x.gfmt)
        else if fmtValid v = false then s.MatrixTrapped (.mfmt f) 1 v.toNat (s.gLive f)
        else ∃ t, exec (.mfmt f) s = .next t ∧ s.Kept (s.formatUndone t) ∧ s.Advanced t ∧ (t.group s.cur.grp).gfmt = v ∧ (t.group s.cur.grp).est = true) ∧
    (s.executes (.mscl f imm) f = true →
      let row (l : Nat) : Nat := 16 * (imm.extractLsb' 0 4).toNat + l
      let sl := (imm.extractLsb' 4 2).toNat
      let out : Lanes := lanesWhere fun l => (s.gLive f).getLsbD l && decide (255 < row l)
      if s.gLive f = 0 then ∃ t, exec (.mscl f imm) s = .next t ∧ s.Kept t ∧ s.Advanced t
      else if x.mstr.on = false then s.MatrixTrapped (.mscl f imm) 8 0 (s.gLive f)
      else match lowLane out with
        | some l => s.MatrixTrapped (.mscl f imm) 7 (row l) out
        | none => ∃ t, exec (.mscl f imm) s = .next t ∧ s.Kept (s.formatUndone t) ∧ s.Advanced t ∧ (s.issuer t).mWrites = s.curWarp.mWrites + 1 ∧
          (x.scalePend = [] → ∀ (seen : List Nat) (n key : Nat), s.curWarp.mWrites < seen.getD s.cur.wid 0 →
            (t.group s.cur.grp).scaleAt seen n key =
              match (laneList (s.gLive f)).find? fun l => 4 * row l + sl == key with
              | some l => s.src32 f f.a l
              | none => Store.get x.scale 0x3F800000 key))

/-- The arrays' own steps (10 R278, R288 to R290, R292, R293, R301): a granted claim, a loaded shadow plane, exchanged planes, and blocks of 32
rows of the oldest compute operation: an integer `mact` adds the exact product sum and clamps, `mzero` clears its rows, `mst` without
conversion stores the accumulators; every other accumulator row stays. -/
def Obligations.MatrixUnitResults : Prop :=
  ∀ (g arr core : Nat) (s : State),
    let x := s.group g
    let y := x.array arr
    (∀ h both r pc phys, s.claimList core = (h, both) :: r → (s.group h).mstr.wait = .mclaim both pc → (s.group h).used = true →
      s.arraysFor core both = some phys → ∃ t, exec (.mclaimGrant core) s = .next t ∧ (t.group h).claim = (if both then 2 else 1) ∧
        (t.group h).phys = phys ∧ (t.group h).mstr.wait = .ready ∧ (t.group h).mstr.pc = pc ∧ t.claimList core = r ∧
        ∀ k, k ≠ h → t.group k = s.group k) ∧
    (∀ op r, y.loadQ = op :: r → ∃ t, exec (.mwldComplete g arr) s = .next t ∧ ((t.group g).array arr).loadQ = r ∧
      ((t.group g).array arr).shadow.ts = op.ts ∧ ((t.group g).array arr).shadow.cols = op.chi ∧ ((t.group g).array arr).active = y.active ∧
      (∀ k, k < 16384 → Store.get ((t.group g).array arr).shadow.bytes 0 k = Store.get x.scratch 0 (op.a + k)) ∧
      (t.group g).scratch = x.scratch ∧ ∀ k, k ≠ g → t.group k = s.group k) ∧
    (∀ pc, x.mstr.wait = .mswap arr pc → ∃ t, exec (.mswapExchange g arr) s = .next t ∧
      if y.canSwap then ((t.group g).array arr).active = y.shadow ∧ ((t.group g).array arr).shadow = y.active ∧ (t.group g).mstr.wait = .ready ∧
        (t.group g).mstr.pc = pc
      else t = s) ∧
    (∀ op r, y.compQ = op :: r → ∃ t, exec (.matrixBlock g arr) s = .next t ∧
      let k := min 32 (op.c - op.next)
      let first := op.b + op.next
      let acc (z : State) (row col : Nat) : W32 := Store.get ((z.group g).array arr).acc 0 (128 * row + col)
      let F := x.gfmt
      (∀ h, h ≠ g → t.group h = s.group h) ∧ (∀ n, n ≠ arr → (t.group g).array n = x.array n) ∧
      ((t.group g).array arr).active = y.active ∧
      (if op.next + k < op.c then ∃ o, ((t.group g).array arr).compQ = o :: r ∧ o.next = op.next + k ∧ o.kind = op.kind
        else ((t.group g).array arr).compQ = r) ∧
      (∀ row col, col < 128 → row < first ∨ first + k ≤ row → acc t row col = acc s row col) ∧
      (op.kind = .zero → ∀ row col, col < 128 → first ≤ row → row < first + k → acc t row col = 0) ∧
      (op.kind = .act → fmtA F = .i8 → fmtB F = .i8 → ∀ i col, i < k → col < 128 →
        (acc t (first + i) col).toInt = max (-(2 ^ 31)) (min (2 ^ 31 - 1) ((acc s (first + i) col).toInt +
          dotProduct 128 (fun n => (Store.get x.scratch 0 (op.a + (op.next + i) * 128 + n)).toInt)
            fun n => (Store.get y.active.bytes 0 (128 * n + col)).toInt))) ∧
      (op.kind ≠ .st → (t.group g).scratch = x.scratch) ∧
      (op.kind = .st → fmtAcc F = .i32 → op.ty = .i32 → ∀ a, Store.get (t.group g).scratch 0 a =
        let o := a - (op.a + op.next * 512)
        if op.a + op.next * 512 ≤ a ∧ o < k * 512 then (acc s (first + o / 512) (o % 512 / 4)).extractLsb' (8 * (o % 4)) 8
        else Store.get x.scratch 0 a))

/-! ### Traversal (chapter 11) -/

/-- The traversal forms complete (11 R323, R324, R328). A lane whose addresses fail traps the form; behind a request that arrived before it (01
R21), or without room for a ray per guard-true live lane in the core's unit, the split waits; otherwise each such lane has a ray, and four words
pending in its destination. `rtsave` asks the lanes' outstanding rays to stop. -/
def Obligations.TraversalFormResults : Prop :=
  ∀ (f : Full) (any : Bool) (mode : Fin 4) (sp : Space) (s : State), s.stands = true →
    let starts (i : Instr) (form md : Nat) (an : Bool) (param : Nat → W32) : Prop := s.executes i f = true →
      match s.rayChecks f sp with
      | (_, p, e) :: _ => exec i s = .next (s.trap (s.mkTrap e.cause
          (lanesWhere fun l => (s.rayChecks f sp).any fun q => q.1 == l && q.2.2.cause == e.cause) (BitVec.ofNat 64 (16 * p.code.toNat)) e.addr 0 0))
      | [] => ∃ t, exec i s = .next t ∧
          let n := (laneList (s.gLive f)).length
          if s.requestAhead = true ∨ 1024 < s.rayCount s.curGroup.pcore + n then s.WaitsForQueue t (· = .trav n)
          else s.Kept (s.engineUndone t) ∧ t.mem = s.mem ∧ s.SameWindow t ∧
            ((s.issuer t).splits = s.curWarp.splits.map fun x =>
              if x.lanes = s.cur.lanes then { x with pc := s.cur.npc, wait := .ready, bp := 0, wd := 0, req := 0 } else x) ∧
            s.Awaits t f.d (s.gLive f) (fun _ => [0, 0, 0, 0]) ∧
            ∀ l, l < 64 → (s.gLive f).getLsbD l = true → ∃ k,
              let r := t.ray k
              r.used = true ∧ r.grp = s.cur.grp ∧ r.wid = s.cur.wid ∧ r.lane = l ∧ r.slotPc = s.cur.pc ∧ r.rsb = s.src f f.a (sp == .g) l ∧
              r.space = sp ∧ r.desc = s.src f f.b true l ∧ r.form = form ∧ r.any = an ∧ r.mode = md ∧ r.param = param l ∧ r.phase = .start ∧
              r.susp = false ∧ r.tok = none
    starts (.rtbvh f any sp) 0 (if any then 1 else 0) any (fun _ => 0) ∧
    starts (.rtmesh f mode sp) 1 (2 + mode.val) false (fun l => if mode.val = 3 then 0 else s.src32 f f.c l) ∧
    starts (.rtloc f sp) 2 6 false (fun _ => 0) ∧ starts (.rtres f sp) 3 0 false (fun _ => 0) ∧
    (s.executes (.rtsave f) f = true → ∃ t, exec (.rtsave f) s = .next t ∧ s.Kept { t with eng := s.eng } ∧ s.Advanced t ∧
      t.eng = { s.eng with rays := t.eng.rays } ∧
      ∀ n, t.ray n =
        let r := s.ray n
        if r.used && r.grp == s.cur.grp && (s.curWarp.pend.any fun p => p.kind == .trav n && !p.landed && (s.gLive f).getLsbD p.lane) then
          { r with susp := true }
        else r)

/-- The steps of the traversal unit: a ray's block is read and initialised by its form (11 R324) or continues from a saved one (R329); a
hierarchy step over a leaf of one triangle accepts a hit inside the interval that is nearer, or equally near with a lower number (R310, R311);
a march crosses into the next cell, or ends (R315, R321, R322); limits end a ray with TRAV_LIMIT (R309, R315); the write-back stores the block,
gives the lane its four words and frees the ray (R325). No step touches another ray. -/
def Obligations.TraversalUnitResults : Prop :=
  ∀ (n : Nat) (s : State),
    let r := s.ray n
    let b := r.blk
    let works : Prop := r.used = true ∧ (s.group r.grp).used = true ∧ (s.gctx r.grp).runs = true ∧ s.engWait r.tok = .go
    let word (x : Ray) (i : Nat) : W32 := rsbWord x.blk i
    (∀ i ∈ [Instr.hierarchyStep n, .meshStep n, .rayEnd n], ∃ t, exec i s = .next t ∧ (∀ k, k ≠ n → t.ray k = s.ray k) ∧
      (r.used = false → t = s) ∧ (i ≠ .rayEnd n → ∀ g w, t.warp g w = s.warp g w)) ∧
    -- the start of a ray whose block lies in the scratchpad
    (works → r.phase = .start → r.space = .s → s.spot r.grp (s.group r.grp).agent ⟨.s, r.rsb.toNat, 64, .load, 0⟩ = .ok (.s r.rsb.toNat, s) →
      ∃ t, exec (if r.form = 0 then .hierarchyStep n else .meshStep n) s = .next t ∧
        let x := t.ray n
        let m : W512 := BitVec.ofNat 512 (readBytes (s.group r.grp).scratch r.rsb.toNat 64)
        let was (i : Nat) : W32 := rsbWord m i
        t.groups = s.groups ∧ t.mem = s.mem ∧ x.back = true ∧
        (r.form ≠ 3 → x.phase = .desc ∧ ∀ i, i < 16 → word x i =
          if i = 15 then BitVec.ofNat 32 (2 ^ 24 * (if r.form = 0 then (if r.any then 1 else 0) else if r.form = 1 then r.mode else 6))
          else if i = 14 then 0
          else if i = 8 then (if r.form = 0 then was 7 else if r.form = 1 then was 6 else 0)
          else if r.form = 0 then (if i = 9 then 0xFFFFFFFF else if i = 10 ∨ i = 11 then 0 else was i)
          else if i = 12 then 0xFFFFFFFF
          else if i = 13 then (if r.form = 1 then r.param else 0)
          else if i = 10 ∨ i = 11 then
            (if r.form = 1 ∧ r.mode = 4 then was i else if r.form = 1 ∧ r.mode = 3 ∧ i = 11 then 0x3F800000 else 0)
          else was i) ∧
        (r.form = 3 →
          let status := ((was 15).extractLsb' 28 4).toNat
          let md := ((was 15).extractLsb' 24 4).toNat
          if status = 0 ∨ 10 < status ∨ 6 < md then
            x.phase = .ending ∧ x.err = some (.travFormat, 8, r.rsb) ∧ (word x 15).extractLsb' 28 4 = 10
          else x.blk = m ∧ x.phase = if status = 6 ∨ status = 7 then .desc else .ending)) ∧
    -- limits
    (works → r.tok = none → r.phase = .run → r.susp = false →
      let limit (i : Instr) (reason : Nat) : Prop := ∃ t, exec i s = .next t ∧
        let x := t.ray n
        x.phase = .ending ∧ x.err = some (.travLimit, reason, (word r 14).setWidth 64) ∧ (word x 15).extractLsb' 28 4 = 10 ∧
        ∀ i, i < 15 → word x i = word r i
      (blkMode b < 2 → hMaxSteps r.dsc ≠ 0 → blkSteps b = hMaxSteps r.dsc → limit (.hierarchyStep n) 1) ∧
      (2 ≤ blkMode b → mMaxSteps r.dsc ≠ 0 → blkSteps b = mMaxSteps r.dsc → limit (.meshStep n) 1) ∧
      (2 ≤ blkMode b → mMaxSteps r.dsc = 0 → 64 ≤ blkZrun b → limit (.meshStep n) 2)) ∧
    -- a leaf of one triangle
    (∀ w key rest rec u, works → r.tok = none → r.phase = .run → r.susp = false → blkMode b < 2 → hMaxSteps r.dsc = 0 →
      r.stack = (w, key) :: rest → w.extractLsb' 29 3 = 4 → r.record (triBase r.dsc) (48 * (w.extractLsb' 0 29).toNat) 16 48 s = .ok (rec, u) →
      wordOf rec 9 ≠ noneWord → ∃ t, exec (.hierarchyStep n) s = .next t ∧
        let x := t.ray n
        let any : Bool := blkMode b == 1
        let hit := do
          let o ← rats (blkVals b 0 3)
          let d ← rats (blkVals b 3 3)
          let v0 ← rats (valsOf rec 0 3)
          let v1 ← rats (valsOf rec 3 3)
          let v2 ← rats (valsOf rec 6 3)
          hitTriangle o d [v0, v1, v2]
        let T := xrOf (word r 8)
        let ok (h : W32 × W32 × W32) : Bool := xle (xrOf (word r 6)) (xrOf h.1) && xle (xrOf h.1) T &&
          (any || xlt (xrOf h.1) T || decide ((wordOf rec 9).toNat < (word r 9).toNat))
        t.mem = u.mem ∧ word x 14 = word r 14 + 1 ∧ (∀ i, i < 8 → word x i = word r i) ∧
        match hit.filter ok with
        | some h => word x 8 = h.1 ∧ word x 9 = wordOf rec 9 ∧ word x 10 = h.2.1 ∧ word x 11 = h.2.2 ∧
            (any = true ∨ rest = [] → x.phase = .ending ∧ (word x 15).extractLsb' 28 4 = 1)
        | none => (∀ i, 8 ≤ i → i < 12 → word x i = word r i) ∧
            (rest = [] → x.phase = .ending ∧ (word x 15).extractLsb' 28 4 = if word r 9 = noneWord then 2 else 1)) ∧
    -- a march through a cell, in modes that record nothing
    (∀ c v0 s1 s2, works → r.tok = none → r.phase = .run → r.susp = false → 2 ≤ blkMode b → mMaxSteps r.dsc = 0 → blkZrun b < 64 →
      r.cell (word r 9).toNat s = .ok (c, s1) → word r 12 = noneWord → r.cellValue r.line c (xrOf (word r 8)) s1 = .ok (v0, s2) →
      (exitOf r.line c = none → ∃ t, exec (.meshStep n) s = .next t ∧ t.mem = s2.mem ∧ (t.ray n).phase = .ending ∧
        (word (t.ray n) 15).extractLsb' 28 4 = 8 ∧ ∀ i, i < 15 → word (t.ray n) i = word r i) ∧
      (∀ tx F v1 segs s3 s4, exitOf r.line c = some (tx, F) → 5 ≤ blkMode b → xle (xrOf (word r 8)) (xrOf tx) = true →
        xle (xrOf tx) r.line.tmax = true → r.faceValue (word r 9).toNat F (pointAt r.line.o r.line.d (xrOf tx)) s2 = .ok (v1, s3) →
        r.segments r.line c ⟨word r 8, tx, v0, v1⟩ s3 = .ok (segs, s4) → ∃ t, exec (.meshStep n) s = .next t ∧ t.mem = s4.mem ∧
          let x := t.ray n
          word x 8 = tx ∧ word x 12 = BitVec.ofNat 32 F.num ∧ word x 14 = word r 14 + 1 ∧ (∀ i, i < 8 → word x i = word r i) ∧
          if F.b = 0xFFFFFFFF then
            x.phase = .ending ∧ word x 9 = word r 9 ∧
            (if blkMode b = 6 then (word x 15).extractLsb' 28 4 = 9 ∧ word x 10 = 0 ∧ word x 11 = 0 else (word x 15).extractLsb' 28 4 = 4)
          else x.phase = .run ∧ word x 9 = BitVec.ofNat 32 (if F.b = (word r 9).toNat then F.a else F.b))) ∧
    -- the write-back
    (works → r.phase = .ending → r.back = true → r.space = .s →
      s.spot r.grp (s.group r.grp).agent ⟨.s, r.rsb.toNat, 64, .store, 0⟩ = .ok (.s r.rsb.toNat, s) → ∃ t, exec (.rayEnd n) s = .next t ∧
        t.ray n = Ray.blank ∧ t.mem = s.mem ∧ (∀ g, g ≠ r.grp → t.group g = s.group g) ∧
        (∀ a, Store.get (t.group r.grp).scratch 0 a =
          if r.rsb.toNat ≤ a ∧ a < r.rsb.toNat + 64 then b.extractLsb' (8 * (a - r.rsb.toNat)) 8 else Store.get (s.group r.grp).scratch 0 a) ∧
        ∀ w, (t.warp r.grp w).pend = ((s.warp r.grp w).pend.map fun p => if p.kind = .trav n then
            { p with val := (if p.reg % 4 = 3 then word r 15 else word r (8 + p.reg % 4)), landed := true } else p) ∧
          (t.warp r.grp w).errs = match (s.warp r.grp w).pend.find? (fun p => p.kind == .trav n), r.err with
            | some p, some e => (s.warp r.grp w).errs ++ [⟨p.lane, e.1, e.2.1, r.slotPc, r.rsb, e.2.2, false⟩]
            | _, _ => (s.warp r.grp w).errs)

/-! ### Textures, images, interpolation (chapter 12) -/

/-- The texture and image forms complete (12 R346 to R351, R353): a sample's words, or those of a request that met a fault, are pending in the
destination; `imst` stores each lane's texel; `vbw` applies `red.min` to each lane's word, and may wait for write-backs that a lock holds. What a
request gives: four zeros for a null descriptor, the sizes of a level, zeros outside an image, and the texel under the coordinates where nothing
is filtered. -/
def Parts.TextureResults : Prop :=
  ∀ (f : Full) (n : BitVec 2) (s : State),
    let loads (form k aux : Nat) (i : Instr) : Prop := s.executes i f = true →
      let fl := if form = 0 ∧ s.curGroup.kernel.quadlock = true then
        (laneList (s.gLive f)).map fun l => (l, s.quadPart l) else []
      match s.flagTrap fl with
      | some tr => exec i s = .next (s.trap tr)
      | none => ∃ t, exec i s = .next t ∧ s.Frame (s.engineUndone t) ∧ s.SameWindow t ∧ s.SamePreds t ∧ s.Advanced t ∧ s.Raised t fl ∧
        s.curWarp.pend <+: (s.issuer t).pend ∧
        ∀ l, l < 64 → s.gLanes f = laneBit l → match (s.texReq f form k aux l).result s with
          | .ok (v, u) => s.Awaits t f.d (laneBit l) (fun _ => v) ∧ t.mem = u.mem
          | .error e =>
            let q := t.tex s.eng.nextId
            s.Awaits t f.d (laneBit l) (fun _ => [0, 0, 0, 0]) ∧ t.mem = s.mem ∧
              (s.liveMask.getLsbD l = true → q.used = true ∧ q.lane = l ∧ q.cause = e.cause ∧ q.addr = e.addr ∧ (q.tok.isSome = e.kind.isSome))
    loads 0 n.toNat 0 (.tex f n) ∧ loads 1 n.toNat 1 (.texl f n) ∧ loads 2 n.toNat (2 * n.toNat) (.texg f n) ∧ loads 3 1 0 (.texq f) ∧
    loads 4 n.toNat 1 (.imld f n) ∧
    (s.executes (.imst f n) f = true → match s.imstLanes f n.toNat with
      | (w, [], u) => ∃ t, exec (.imst f n) s = .next t ∧ s.KeptButMemory t ∧ (s.issuer t).pend = s.curWarp.pend ∧ s.Advanced t ∧
          t.mem = (w.foldl (fun t p => t.storeAt s.cur.grp p.1 s.agent p.2.1 p.2.2.1 p.2.2.2 ⟨0, false, .plain, .rlx, .g⟩) u).mem
      | (_, (l, e, size, a) :: r, _) => e.kind = none → exec (.imst f n) s = .next (s.trap (s.mkTrap e.cause
          (lanesWhere fun k => ((l, e, size, a) :: r).any fun p => p.1 == k && p.2.1.cause == e.cause) (BitVec.ofNat 64 size) a 0 0))) ∧
    (s.executes (.vbw f) f = true →
      let ea (l : Nat) : Int := ((s.src f f.a true l).toNat : Int)
      let lvl (l : Nat) : Nat := s.writeLevel l ⟨0, false, .dev, .rlx, .g⟩
      let written (t : State) : Prop := s.KeptButMemory t ∧ (s.issuer t).pend = s.curWarp.pend ∧ s.Advanced t ∧ s.SameWindow t ∧
        t.mem = ((s.accessChecks f .g 8 .both ea lvl).2.rmws f f.b 0x05 ⟨0, false, .dev, .rlx, .g⟩ (s.places f .g 8 .both ea lvl)).2.mem
      s.accessesPass f .g 8 .both ea lvl = true →
        if s.mem.locks = [] then ∃ t, exec (.vbw f) s = .next t ∧ written t
        else (∃ t, exec (.vbw f) s = .next t ∧ written t) ∨ s.WaitsForBacks (.vbw f)) ∧
    (∀ (q : TexReq) (x : Nat) (u : State), texLoad q.grp q.desc 64 s = .ok (x, u) →
      let d : W512 := BitVec.ofNat 512 x
      let c := q.pts.getD 3 []
      let size (l k : Nat) : Nat := if k < tAxes d then max 1 (tSize d k / 2 ^ l) else tSize d k
      if tNull d (if q.form = 3 then none else some q.n) then q.result s = .ok ([0, 0, 0, 0], u)
      else
        (q.form = 3 → q.result s = .ok (if tLevels d < (c.getD 0 0).toNat then [0, 0, 0, 0] else
          ([0, 1, 2].map fun k => BitVec.ofNat 32 (size (c.getD 0 0).toNat k)) ++ [BitVec.ofNat 32 (tLevels d + 1)], u)) ∧
        (q.form = 4 → c.length = tCoords d →
          let l := (q.aux.getD 0 0).toNat
          (tLevels d < l ∨ ∃ k, k < tCoords d ∧ ((c.getD k 0).toInt < 0 ∨ (size l k : Int) ≤ (c.getD k 0).toInt)) → q.result s = .ok ([0, 0, 0, 0], u)) ∧
        (q.form < 3 → tDim d = 1 → tNorm d = false → tField d 128 2 = 0 → tAddr d 0 = 1 → tAddr d 1 = 1 → ∀ p0 p1 y v,
          rats ((c.map xrOf).take 2) = some [p0, p1] →
          let at' (p : Rat) (k : Nat) : Nat := (max 0 (min ((tSize d k : Int) - 1) ⌊p⌋)).toNat
          texLoad q.grp (texelAddr d 0 [at' p0 0, at' p1 1]) (texelBytes (tFmt d)) u = .ok (y, v) →
          q.result s = .ok ((texelRead (tFmt d) y).map fun w => if fmtU32 (tFmt d) then w else xround .rne (xtimes (xrat 1) (xrOf w)), v)))

/-- `attr` completes (12 R352): the perspective-correct weights of vertices 1 and 2 at P, or their derivatives in the coarse pixel, each
rounded once; the canonical NaN where the area or the denominator is zero or an input is not finite. -/
def Parts.AttributeResults : Prop :=
  (∀ (f : Full) (mode : BitVec 2), Computes (.attr f mode) f true none fun s l =>
    let r := attrOut mode.toNat (s.srcRun f f.a 9 l) (s.srcRun f f.b 2 l) ((s.src32 f f.c l).setWidth 4)
    ⟨pair64 r.1 r.2, 0, false⟩) ∧
  ∀ (mode : Nat) (src pos : List W32) (rate : BitVec 4), src.length = 9 → pos.length = 2 → mode < 3 →
    let out := attrOut mode src pos rate
    let nan : W32 := BitVec.ofNat 32 Fmt.f32.nanBits
    if ((src ++ pos).all fun w => (xrOf w).finite) = false then out = (nan, nan)
    else ∀ v p, rats (src.map xrOf) = some v → rats (pos.map xrOf) = some p →
      let X (i : Nat) : Rat := v.getD (3 * (i % 3)) 0
      let Y (i : Nat) : Rat := v.getD (3 * (i % 3) + 1) 0
      let Q (i : Nat) : Rat := v.getD (3 * i + 2) 0
      let E (i : Nat) : Rat := (X (i + 2) - X (i + 1)) * (p.getD 1 0 - Y (i + 1)) - (Y (i + 2) - Y (i + 1)) * (p.getD 0 0 - X (i + 1))
      let A : Rat := (X 1 - X 0) * (Y 2 - Y 0) - (Y 1 - Y 0) * (X 2 - X 0)
      let S : Rat := E 0 * Q 0 + E 1 * Q 1 + E 2 * Q 2
      let D (i : Nat) : Rat := if mode = 1 then Y (i + 1) - Y (i + 2) else X (i + 2) - X (i + 1)
      let dS : Rat := D 0 * Q 0 + D 1 * Q 1 + D 2 * Q 2
      let scale : Rat := ((2 ^ min 2 ((rate.extractLsb' (if mode = 1 then 0 else 2) 2).toNat) : Nat) : Rat)
      if A = 0 ∨ S = 0 then out = (nan, nan)
      else
        let w (i : Nat) : W32 := xround .rne (xrat (if mode = 0 then E i * Q i / S else scale * Q i * (D i * S - E i * dS) / (S * S)))
        out = (w 1, w 2)

/-- Texture, image and attribute forms (12). -/
def Obligations.TextureResults : Prop :=
  Parts.TextureResults ∧ Parts.AttributeResults

/-! ### Records, lists and frames (chapters 12 and 14) -/

/-- Raster and reprojection units (12 R333, R334, R336 to R339, R344): a free unit claims the next record of its queue; a record of bad form
has no tile; a tile is one step, or a fault that goes to the fault server; the completion word then counts one more and the record is gone. A
pixel's word becomes the minimum of itself and the candidate; a triangle covers a pixel whose centre is inside, and only where no edge
function is negative and the depth lies in [0, 1]. -/
def Obligations.RecordResults : Prop :=
  ∀ (q id : Nat) (repro : Bool) (s : State),
    let d := s.drawRec id
    let c := s.drawCtx d
    let idle : Prop := d.used = false
    (∃ t, exec (if repro then .reprojectionRecord q else .rasterDrawRecord q) s = .next t ∧ t.groups = s.groups ∧
      match s.queuePart q with
      | none => t = s
      | some p => match s.recordUnit p q repro, s.recordCtx p q with
        | some u, some k =>
          if s.qUsable p q = true ∧ s.qCount q ≠ 0 ∧ (s.eng.draws.all fun e => !(e.2.used && e.2.repro == repro && e.2.unit == u)) = true ∧
              s.claimWaits p q 0 ⟨p, (s.ctx k).asid, none⟩ = false then
            let y := s.claim p q 0 ⟨p, (s.ctx k).asid, none⟩
            let x := t.drawRec s.eng.nextId
            t.work = y.2.work ∧ t.mem = y.2.mem ∧ x.used = true ∧ x.repro = repro ∧ x.unit = u ∧ x.part = p ∧ x.asid = (s.ctx k).asid ∧
            x.record = y.1 ∧ x.tile = 0 ∧ x.tok = none ∧ (recBad repro y.1 = true → x.tiles = 0) ∧
            (recBad repro y.1 = false → x.tiles = (recTiles repro y.1).1.2 * (recTiles repro y.1).2.2) ∧
            ∀ n, n ≠ s.eng.nextId → t.drawRec n = s.drawRec n
          else t = s
        | _, _ => t = s) ∧
    (∃ t, exec (if repro then .reprojectionTile id else .rasterTile id) s = .next t ∧ t.groups = s.groups ∧
      (idle ∨ d.repro ≠ repro ∨ d.tiles ≤ d.tile → t = s) ∧
      (d.used = true → d.repro = repro → d.tile < d.tiles → c.runs = true → s.engWait d.tok = .go →
        match (if repro then d.reproTile s else d.rasterTile s) with
        | .ok (_, u) => t.mem = u.mem ∧ t.drawRec id = { d with tok := none, tile := d.tile + 1 }
        | .error _ => t.mem = s.mem ∧ (t.drawRec id).tok.isSome = true ∧ (t.drawRec id).tile = d.tile) ∧
      (d.used = true → d.repro = repro → d.tile < d.tiles → c.runs = true → s.engWait d.tok = .fatal → t.mem = s.mem ∧ (t.drawRec id).tile = d.tiles) ∧
      ∀ n, n ≠ id → t.drawRec n = s.drawRec n) ∧
    (∃ t, exec (.recordComplete id) s = .next t ∧ t.groups = s.groups ∧ (idle ∨ d.tile < d.tiles → t = s) ∧
      (d.used = true → d.tiles ≤ d.tile → c.runs = true →
        (recCompletion d.record = 0 ∨ s.engWait d.tok = .fatal → t.mem = s.mem ∧ (t.drawRec id).used = false) ∧
        (recCompletion d.record ≠ 0 → s.engWait d.tok = .go → ∀ p u, s.engParts c none (recCompletion d.record) 8 .both = .ok ([(p, 8)], u) →
          (t.drawRec id).used = false ∧ t.mem.read p 8 = (u.mem.read p 8 + 1) % 2 ^ 64 ∧ ∀ b, b < p ∨ p + 8 ≤ b → t.mem.byte b = u.mem.byte b)) ∧
      ∀ n, n ≠ id → t.drawRec n = s.drawRec n) ∧
    (∀ field o v p u, c.prot = false → s.engParts c none (field + BitVec.ofNat 64 o) 8 .both = .ok ([(p, 8)], u) → v < 2 ^ 64 →
      ∃ t : State, d.redMin field o v s = .ok ((), t) ∧ t.mem.read p 8 = min v (u.mem.read p 8) ∧ ∀ b, b < p ∨ p + 8 ≤ b → t.mem.byte b = u.mem.byte b) ∧
    ∀ (a b e : Rat × Rat × Rat) (x y : Nat) (cullF cullB : Bool),
      let vs : List (List Rat) := [a, b, e].map fun v => [v.1, v.2.1, v.2.2]
      let area (u v : Rat × Rat × Rat) (px py : Rat) : Rat := (v.1 - u.1) * (py - u.2.1) - (v.2.1 - u.2.1) * (px - u.1)
      let A := area a b e.1 e.2.1
      let px : Rat := x + 1 / 2
      let py : Rat := y + 1 / 2
      let inside : Prop := 0 < area a b px py ∧ 0 < area b e px py ∧ 0 < area e a px py
      let outside : Prop := area a b px py < 0 ∨ area b e px py < 0 ∨ area e a px py < 0
      let z := xround .rne (xrat ((area b e px py * a.2.2 + area e a px py * b.2.2 + area a b px py * e.2.2) / A))
      (orientTriangle cullF cullB vs = none ↔ A = 0 ∨ (0 < A ∧ cullF = true) ∨ (A < 0 ∧ cullB = true)) ∧
      (0 < A → outside → pixelDepth vs A x y = none) ∧
      (0 < A → inside → z ≠ 0x80000000#32 → pixelDepth vs A x y = if z.toNat ≤ 0x3F800000 then some z else none)

/-- The commands of a list complete (14 R380 to R382): the next one, once it can be read, joins its partition's list with its place and whether its
reserved bytes and operands keep their limits, and one of no known opcode joins it as offending; END accepts the whole list, whose commands then wait
at their units in order, or refuses it with the index of its first offending command plus one. Where an operand lies in its command is the
model's free choice (notes/assumptions/33.md). -/
def Parts.ListCommandsComplete : Prop :=
  ∀ (part asid : Nat) (addr : W64) (w : BitVec 256) (u s : State), s.NextCommand part asid addr w u →
    let x := cmdArgs w
    let l := (s.cmdList part).cmds
    let entry (slot ok : Bool) (c : Cmd) : CmdEntry := ⟨slot, w.extractLsb' 8 16, ok && w.extractLsb' 24 8 == 0, c⟩
    let op := (w.extractLsb' 0 8).toNat
    (op = 0x01 →
      let y := Config.layerOperands x
      let ok : Bool := decide (y.layer < 8 ∧ y.src.toNat % 256 = 0 ∧ 1 ≤ y.width ∧ y.width ≤ 7680 ∧ 1 ≤ y.height ∧ y.height ≤ 4320 ∧ y.fmt < 3 ∧ y.blend < 2)
      ∃ t, exec (.layer part asid addr) s = .next t ∧ s.JoinsList t part asid addr u (entry false (ok && Config.unusedZero 0x01 x) (.layer y))) ∧
    (op = 0x02 →
      let n := Config.layerOffOperand x
      ∃ t, exec (.layerOff part asid addr) s = .next t ∧
        s.JoinsList t part asid addr u (entry false (decide (n < 8) && Config.unusedZero 0x02 x) (.layerOff n))) ∧
    (op = 0x03 →
      let y := Config.frameOperands x
      ∃ t, exec (.frame part asid addr) s = .next t ∧
        s.JoinsList t part asid addr u (entry false (decide (1 ≤ y.rate ∧ y.rate ≤ 240000) && Config.unusedZero 0x03 x) (.frame y))) ∧
    (op = 0x04 → ∃ t, exec (.headOff part (asid, addr)) s = .next t ∧ s.JoinsList t part asid addr u (entry false (x == 0) .headOff)) ∧
    (op = 0x10 →
      let y := Config.encodeOperands x
      let ok : Bool := decide (y.codec < 3 ∧ 1 ≤ y.keyInt ∧ y.keyInt ≤ 1024 ∧ 65536 ≤ y.size ∧ y.size ≤ 2 ^ 30 ∧ y.size = 2 ^ Nat.log2 y.size)
      ∃ t, exec (.encode part asid addr) s = .next t ∧ s.JoinsList t part asid addr u (entry true (ok && Config.unusedZero 0x10 x) (.encode y))) ∧
    (op = 0x11 → ∃ t, exec (.keyNow part (asid, addr)) s = .next t ∧ s.JoinsList t part asid addr u (entry true (x == 0) .keyNow)) ∧
    (op = 0x12 → ∃ t, exec (.encOff part (asid, addr)) s = .next t ∧ s.JoinsList t part asid addr u (entry true (x == 0) .encOff)) ∧
    (op ∉ [0x01, 0x02, 0x03, 0x04, 0x10, 0x11, 0x12, 0xFF] → ∃ t, exec (.layer part asid addr) s = .next t ∧
      ∃ e : CmdEntry, e.ok = false ∧ s.JoinsList t part asid addr u e) ∧
    (op = 0xFF → ∃ t, exec (.endList (part, asid, addr)) s = .next t ∧ t.groups = s.groups ∧ t.mem = u.mem ∧ t.cmdList part = CmdList.blank ∧
      (∀ p, p ≠ part → t.cmdList p = s.cmdList p) ∧
      let refused (n : Nat) : Prop := Store.get t.eng.listAnswer 0 part = n + 1 ∧ t.eng.heads = s.eng.heads ∧ t.eng.slots = s.eng.slots
      (∀ b, s.Offends part l b → (∀ j, j < b → ¬ s.Offends part l j) → refused b) ∧
      ((∀ j, ¬ s.Offends part l j) → w.extractLsb' 8 248 ≠ 0 → refused l.length) ∧
      ((∀ j, ¬ s.Offends part l j) → w.extractLsb' 8 248 = 0 → Store.get t.eng.listAnswer 0 part = 0 ∧ ∀ v,
        (t.head v).pending = (s.head v).pending ++ s.forUnit part l false v ∧ (t.head v).frame = (s.head v).frame ∧
        (t.encSlot v).pending = (s.encSlot v).pending ++ s.forUnit part l true v ∧ (t.encSlot v).args = (s.encSlot v).args))

/-- Frames (12 R345; 14 R381): the lists that a head received take effect at its next frame, in order, and a frame written is counted; those of
an encoder slot take effect at the next frame that it begins, each superblock row of a frame is a step, and the write offset stays within its
ring. A unit taken from its partition forgets what it had. -/
def Parts.FramesComplete : Prop :=
  ∀ (n k : Nat) (s : State),
    (let x := s.head n
      let fr := x.pending.foldl (fun (f : Option FrameArgs) c => match c with | .frame a => some a | .headOff => none | _ => f) x.frame
      let none' : LayerArgs := ⟨0, 0, 0, 0, 0, 0, 0, 0, 0⟩
      ∃ t, exec (.headFrame n) s = .next t ∧ t.groups = s.groups ∧ (∀ v, v ≠ n → t.head v = s.head v) ∧
        if x.removed then t.head n = Head.blank ∧ t.mem = s.mem
        else (t.head n).pending = [] ∧ (t.head n).frame = fr ∧
          Store.get (t.head n).layers none' k = (x.pending.foldl (fun (y : LayerArgs) c => match c with
            | .layer a => if a.layer = k then a else y
            | .layerOff j => if j = k then none' else y
            | .headOff => none'
            | _ => y) (Store.get x.layers none' k)) ∧
          (fr = none → t.mem = s.mem) ∧
          ∀ a key, fr = some a → s.unitCtx x.part 5 n = some key → ∃ u : State, u.groups = s.groups ∧ t.mem = (u.countWord (s.ctx key) a.counter).mem) ∧
    (∀ (c : Ctx) (field : W64) (p : Nat) (u : State), c.prot = false → field.toNat % 8 = 0 → s.engParts c none field 8 .both = .ok ([(p, 8)], u) →
      (s.countWord c field).mem.read p 8 = (u.mem.read p 8 + 1) % 2 ^ 64) ∧
    (let x := s.encSlot n
      let e : EncSlot := { x.pending.foldl EncSlot.apply x with pending := [] }
      ∃ t, exec (.encodeFrame n) s = .next t ∧ t.groups = s.groups ∧ (∀ v, v ≠ n → t.encSlot v = s.encSlot v) ∧
        (x.removed = true → t.encSlot n = EncSlot.blank ∧ t.mem = s.mem) ∧
        (x.removed = false → ∀ a j, x.args = some a → x.job = some j → (s.ctx j.key).runs = true → x.RowDone a j (t.encSlot n)) ∧
        (x.removed = false → x.job = none → e.args = none → t.encSlot n = e ∧ t.mem = s.mem) ∧
        (x.removed = false → x.job = none → ∀ a key, e.args = some a → s.unitCtx x.part 6 n = some key →
          match (s.head a.head).frame with
          | some y =>
            if y.width * y.height ≤ 3840 * 2160 ∧ y.rate ≤ 60000 then
              e.RowDone a ⟨key, Config.superRows a.codec y.height + 1, e.offset⟩ (t.encSlot n)
            else t.encSlot n = e ∧ t.mem = s.mem
          | none => t.encSlot n = e ∧ t.mem = s.mem))

/-- Engine commands, heads and encoder slots (14 R380 to R382; 12 R345). -/
def Obligations.CommandAndFrameResults : Prop :=
  Parts.ListCommandsComplete ∧ Parts.FramesComplete

/-! ### Launches (chapters 02, 13 and 18) -/

/-- The launch walker (13 R361 to R367; 18 R426): a graph request becomes a graph that owes its START node one activation, failed where a field
breaks a limit; a node that completes counts at the nodes it releases; `wait` nodes complete once their word satisfies the condition, kernel
nodes once their groups have ended and what they left dirty has merged (08 R224), task nodes once their producers have ended, their queue is
idle and what their tasks left dirty has merged; one that a failure cut short ends and counts nowhere. -/
def Parts.WalkerResults : Prop :=
  ∀ (q id n : Nat) (s : State),
    let g := s.graphRec id
    let completes (t : State) (a : Act) : Prop :=
      let h := t.graphRec id
      h.act n = none ∧ h.done = g.done + 1 ∧ (∀ m, m ≠ n → h.act m = g.act m) ∧ h.owed = g.owed ∧ h.fail = g.fail ∧
      (∀ m, Store.get h.completed 0 m = Store.get g.completed 0 m + if m = n then 1 else 0) ∧
      ∀ m, Store.get h.counts 0 m = Store.get g.counts 0 m + if m = 0xFFF then 0 else a.succ.count m
    let dropped (t : State) : Prop :=
      let h := t.graphRec id
      h.act n = none ∧ h.done = g.done ∧ (∀ m, m ≠ n → h.act m = g.act m) ∧ h.owed = g.owed ∧ h.fail = g.fail ∧ h.completed = g.completed ∧
      h.counts = g.counts
    let flushed (t : State) (a : Act) (m : Mem) (held : Bool) : Prop := t.mem = m ∧
      if held then { t with mem := s.mem } = s else if a.cut then dropped t else completes t a
    (∃ t, exec (.graphRequest q) s = .next t ∧ t.groups = s.groups ∧
      match s.queuePart q with
      | none => t = s
      | some p =>
        if qKind (s.qdesc q) ≠ 0 ∨ s.qUsable p q = false ∨ s.qCount q = 0 ∨ 64 ≤ (s.work.graphs.filter fun g => g.2.used && g.2.part == p).length ∨
            s.ckptBusy = true then t = s
        else match s.requestCtx p q with
          | none => t = s
          | some (k, u) =>
            let y := u.claim p q 0 ⟨p, (u.ctx k).asid, none⟩
            if u.claimWaits p q 0 ⟨p, (u.ctx k).asid, none⟩ then t = s else
            let h := t.graphRec s.work.nextGraph
            let w := y.1.extractLsb' 64 64
            t.mem = y.2.mem ∧ t.work.heads = y.2.work.heads ∧ h.used = true ∧ h.part = p ∧ h.asid = (u.ctx k).asid ∧ h.base = y.1.extractLsb' 0 64 ∧
            h.nn = (w.extractLsb' 16 12).toNat ∧ h.start = (w.extractLsb' 0 12).toNat ∧ h.status = y.1.extractLsb' 128 64 ∧ h.owed = [(h.start, 1)] ∧
            h.acts = [] ∧ h.done = 0 ∧ h.fail = if requestBad y.1 then some (h.start, 1) else none) ∧
    (∃ t, exec (.waitvalSatisfied id n) s = .next t ∧ t.groups = s.groups ∧
      ∀ a, g.act n = some a → n < 4096 → a.kind = 5 → g.used = true → (s.ctx g.key).runs = true → g.tok = none →
        match walkCond g.key a.addr s with
        | .ok (x, u) =>
          if (match a.cond with
              | 0 => x == a.value
              | 1 => x != a.value
              | 2 => decide (a.value.toNat ≤ x.toNat)
              | _ => decide (x.toNat < a.value.toNat)) then
            completes t a ∧ t.mem = u.mem
          else t = u
        | .error (.reason r) => (t.graphRec id).fail = some (g.fail.getD (n, r)) ∧ t.mem = s.mem
        | .error .held => t = s
        | .error (.fault _ _) => (t.graphRec id).tok.isSome = true ∧ (t.graphRec id).act n = some a ∧ t.mem = s.mem) ∧
    (∃ t, exec (.kernelNodeComplete id n) s = .next t ∧ t.groups = s.groups ∧
      ∀ a, g.act n = some a → a.kind = 0 → g.used = true → (s.ctx g.key).runs = true →
        let m := s.mem.flushCtx g.part g.asid
        if a.total = 0 ∧ a.resident = 0 then flushed t a m (m.backsHeld g.part (some g.asid)) else t = s) ∧
    (∃ t, exec (.taskNodeComplete id n) s = .next t ∧ t.groups = s.groups ∧
      ∀ a p, g.act n = some a → s.actQueue g.part a = some p → g.used = true → (s.ctx g.key).runs = true →
        if ([0, 1, 2, 3].map fun k => (a.value.extractLsb' (12 * k) 12).toNat).all (fun m => m == 0xFFF ||
            (decide (0 < Store.get g.completed 0 m) && (g.act m).isNone && Store.get g.owed 0 m == 0)) && s.load g.part p == 0 &&
            !s.taskAlive g.part p then
          let m := s.mem.flushAll fun l => l.part == g.part
          flushed t a m (m.backsHeld g.part none)
        else t = s) ∧
    (∀ m r, g.done < 2 ^ 40 → m < 4096 → r < 16 →
      (g.fail = none → g.statusWord.extractLsb' 60 4 = 1 ∧ g.statusWord.extractLsb' 40 20 = 0 ∧ (g.statusWord.extractLsb' 0 40).toNat = g.done) ∧
      (g.fail = some (m, r) → g.statusWord.extractLsb' 60 4 = 2 ∧ (g.statusWord.extractLsb' 48 12).toNat = m ∧
        (g.statusWord.extractLsb' 40 8).toNat = r ∧ (g.statusWord.extractLsb' 0 40).toNat = g.done))

/-- Placement (18 R426, R427; 02 R30, R31; 04 R501; 13 R366): the entry of highest rank is placed first; a group of an ordinary launch starts
with every warp's lanes live at the E entry, its streams at theirs, its registers, flags and window clear and its group-uniform registers
from the launch record; a task's group starts with its record and takes it from the ring; a record that cannot be launched fails the task node's graph. -/
def Parts.PlacementResults : Prop :=
  ∀ (part : Nat) (s : State),
    let entries := s.savedEntries part ++ s.nodeEntries part ++ s.taskEntries part
    let id := s.work.nextGroup
    let started (t : State) (kern : Kernel) (core pcore nwarp : Nat) (rec : BitVec 2048) : Prop :=
      let x := t.group id
      x.used = true ∧ x.part = part ∧ x.kernel = kern ∧ x.core = core ∧ x.pcore = pcore ∧ x.clu = core / 4 ∧ x.nwarp = nwarp ∧
      x.scratch = [] ∧ x.bars = [] ∧ x.qb = [] ∧ x.prio = (rec.extractLsb' 160 3).toNat ∧
      (∀ n, n < 32 → Store.get x.gbase 0 n = lrInit rec n) ∧ x.gw = [] ∧
      (∀ w, w < nwarp → let y := x.warp w
        y.live = BitVec.ofNat 64 (2 ^ kern.width - 1) ∧ y.helper = 0 ∧ y.splits = [Split.at y.live kern.entryE] ∧ y.vregs = [] ∧ y.preds = [] ∧
        y.sregs = [] ∧ y.fstat = 0 ∧ y.level = false ∧ y.pend = [] ∧ y.queues = [] ∧ y.ended = false ∧
        ∀ l, l < kern.width →
          let d := lrShape rec
          let k := w * kern.width + l
          Store.get y.tids 0 (4 * l) = BitVec.ofNat 32 (k % d.1) ∧ Store.get y.tids 0 (4 * l + 1) = BitVec.ofNat 32 (k / d.1 % d.2.1) ∧
          Store.get y.tids 0 (4 * l + 2) = BitVec.ofNat 32 (k / (d.1 * d.2.1))) ∧
      x.astr.on = true ∧ x.astr.pc = kern.entryA ∧ x.astr.ended = false ∧ x.mstr.on = (kern.entryM != 0) ∧
      (kern.entryM ≠ 0 → x.mstr.pc = kern.entryM ∧ x.mstr.ended = false) ∧ ∀ g, g ≠ id → t.group g = s.group g
    (∀ e, s.firstEntry part = some e → e ∈ entries ∧ s.paused = false ∧ ∀ e' ∈ entries, e.rank < e'.rank ∨ (e.rank = e'.rank ∧ e.since ≤ e'.since)) ∧
    (∃ t, exec (.groupPlacement part) s = .next t ∧ (s.firstEntry part = none → t = s) ∧
      ∀ e g n a p core pcore st, s.firstEntry part = some e → e.who = .node g n → (s.graphRec g).act n = some a →
        (s.ctx (s.graphRec g).key).part = part → lrPixel a.record = false → a.kernel.cohort = 1 → 1 ≤ a.kernel.width →
        cohortNext 65536 a.kernel (lrGrid a.record) a.next = some p →
        s.coreFor (s.graphRec g).key a.kernel (lrWarps a.record a.kernel.width) 0 = some (core, pcore, st) →
        let x := t.group id
        let lin := linearOf (lrGrid a.record) p.2
        started t a.kernel core pcore (lrWarps a.record a.kernel.width) a.record ∧ x.task = none ∧ x.graph = g ∧ x.node = n ∧ x.index = lin ∧
        x.gidX = BitVec.ofNat 32 (lin % (lrGrid a.record).1) ∧ x.gidY = BitVec.ofNat 32 (lin / (lrGrid a.record).1 % (lrGrid a.record).2.1) ∧
        x.gidZ = BitVec.ofNat 32 (lin / ((lrGrid a.record).1 * (lrGrid a.record).2.1)) ∧ x.klen = 256 ∧
        (t.graphRec g).act n = some { a with total := a.total - 1, resident := a.resident + 1, next := p.1 + 1 }) ∧
    (∀ q sh e k, s.queuePart q = some part → sh < qNum (s.qdesc q) → s.firstEntry part = some e → e.who = .task q → s.shardCount q sh ≠ 0 →
      ∃ t, exec (.taskLaunch q sh) s = .next t ∧
        let y := s.claim part q sh ⟨part, (s.ctx k).asid, none⟩
        (∀ rec kern, s.template part q = some (k, .ok (rec, kern)) → 1 ≤ kern.width → (s.ctx k).part = part →
          match s.coreFor k kern (lrWarps rec kern.width) 0 with
          | none => t = s
          | some (core, pcore, _) =>
            let x := t.group id
            if s.claimWaits part q sh ⟨part, (s.ctx k).asid, none⟩ then t = s else
            started t kern core pcore (lrWarps rec kern.width) rec ∧ x.task = some (q, sh) ∧ x.klen = 64 ∧ t.work.heads = y.2.work.heads ∧
            x.taskid = BitVec.ofNat 32 (sh * 2 ^ 26 + (s.qHead q sh).toNat % 2 ^ 26) ∧
            ∀ b, b < 64 → Store.get x.krec 0 b = y.1.extractLsb' (8 * b) 8) ∧
        (∀ r, s.template part q = some (k, .error (.reason r)) → t.work.heads = y.2.work.heads ∧ t.groups = s.groups ∧
          match s.taskNode part q with
          | some (g, a) => (t.graphRec g).fail = some ((s.graphRec g).fail.getD (a.node, r))
          | none => t.work.graphs = s.work.graphs))

/-- The walker and placement (13; 18 R426, R427). -/
def Obligations.WalkerResults : Prop :=
  Parts.WalkerResults ∧ Parts.PlacementResults

/-! ### Events of warps, streams and memory (chapters 02, 03, 04, 07, 08, 09, 12, 17, 18 and 19) -/

/-- A texture request that met a fault goes on (12 R351, 17 R420): nothing while no verdict has landed, its words after RESOLVED, and after FATAL
or where the fault needs no verdict an error for the marker. -/
def Obligations.TextureRequestResults : Prop :=
  ∀ (s : State) (id : Nat),
    let q := s.tex id
    let t := s.settleTex id
    let lands (u : State) (fatal : Bool) (val : Nat → W32) : Prop := (t.tex id).used = false ∧ t.mem = u.mem ∧
      ∀ w, (t.warp q.grp w).pend = ((u.warp q.grp w).pend.map fun p => if p.kind = .tex id then { p with val := val (p.reg % 4), landed := true } else p) ∧
        (t.warp q.grp w).errs = match (u.warp q.grp w).pend.find? fun p => p.kind == .tex id with
          | some p => if fatal then (u.warp q.grp w).errs ++ [⟨p.lane, q.cause, 0, q.slotPc, q.desc, q.addr, false⟩] else (u.warp q.grp w).errs
          | none => (u.warp q.grp w).errs
    (q.used = false → t = s) ∧
    (q.used = true → match q.tok.map s.verdictOf with
      | some 0 => t = s
      | some 1 => match q.result s with
        | .ok (v, u) => lands u false fun k => v.getD k 0
        | .error e => (t.tex id).used = true ∧ (t.tex id).cause = e.cause ∧ (t.tex id).addr = e.addr ∧ t.groups = s.groups ∧ t.mem = s.mem
      | _ => ∃ val, lands s true val)

/-- Results land, waits are looked at again, holds and hints end, and a starved warp is noted, each in its warp alone (02 R46, 04 R97, R109; 07 R182; 08
R228; 09 R244; 18 R428). -/
def Parts.WarpEventResults : Prop :=
  ∀ (g w l tag : Nat) (s : State),
    let x := s.warp g w
    let inWarp (i : Instr) (p : State → Prop) : Prop := ∃ t, exec i s = .next t ∧ (∀ h, h ≠ g → t.group h = s.group h) ∧
      (∀ v, v ≠ w → t.warp g v = s.warp g v) ∧ t.ctxs = s.ctxs ∧ t.work = s.work ∧ p t
    inWarp (.yieldExpiry g w l) (fun t => t.mem = s.mem ∧ t.warp g w =
      { x with splits := x.splits.map fun y => if y.lanes.getLsbD l then { y with hold := 0 } else y }) ∧
    inWarp (.stallHintExpiry g w l) (fun t => t.mem = s.mem ∧ t.warp g w =
      { x with splits := x.splits.map fun y => if y.lanes.getLsbD l then { y with stall := 0 } else y }) ∧
    inWarp (.warpOverdue g w) (fun t => t.mem = s.mem ∧ t.warp g w = { x with overdue := x.overdue || (s.warpReady g w && decide (32 ≤ x.unsel)) }) ∧
    ((∀ p ∈ x.pend, p.tag = tag → ∀ id, p.kind ≠ .tex id) → inWarp (.loadResultLand g w tag) (fun t => t.mem = s.mem ∧
      t.warp g w = { x with pend := x.pend.map fun p => if p.tag = tag ∧ p.kind = .mem then { p with landed := true } else p })) ∧
    (∀ id, (∃ p ∈ x.pend, p.tag = tag ∧ p.kind = .tex id) → (∀ p ∈ x.pend, p.tag = tag → p.kind = .mem ∨ p.kind = .tex id) →
      ∃ u : State, exec (.loadResultLand g w tag) s = .next (u.settleTex id) ∧ u.mem = s.mem ∧ u.eng = s.eng ∧ u.verdicts = s.verdicts ∧
        u.warp g w = { x with pend := x.pend.map fun p => if p.tag = tag ∧ p.kind = .mem then { p with landed := true } else p }) ∧
    (∀ y ws, x.splits.find? (fun z => z.lanes.getLsbD l) = some y → y.wait = .waitaddr ws → ∃ t, exec (.waitRecheck g w l) s = .next t ∧
      (∀ h, h ≠ g → t.group h = s.group h) ∧ (t.group g).scratch = (s.group g).scratch ∧
      ∀ k a, ws = [k] → k.got = none → k.space = .s → s.spot g (s.group g).agent k.access = .ok (.s a, s) →
        let v := BitVec.ofNat 64 (readBytes (s.group g).scratch a (if k.wide then 8 else 4))
        t.mem = s.mem ∧ ∃ z ∈ (t.warp g w).splits, z.lanes = y.lanes ∧ z.pc = y.pc ∧
          z.wait = .waitaddr [{ k with got := if waitCond k.cond v k.v then some v else none }])

/-- Watchdogs and timeouts trap (02 R45; 03 R79; 17 R417), only where their limits are reached and set. -/
def Parts.WatchdogResults : Prop :=
  ∀ (g w l : Nat) (s : State),
    let x := s.group g
    let y := s.warp g w
    let free : Prop := y.due = none ∧ y.esc = none
    (∃ t, exec (.watchdogSplits g w) s = .next t ∧
      let late := y.splits.filter fun z => decide (y.wdlimit.toNat ≤ z.wd)
      (y.wdlimit = 0 ∨ y.level = true ∨ ¬ free ∨ late = [] → t = s) ∧
      (y.wdlimit ≠ 0 → y.level = false → free → late ≠ [] → ∃ z ∈ late, ∃ tr : Trap, t = s.trapWarp g w z.lanes tr ∧ tr.cause = .watchdogSplits ∧
        tr.pc = slotAddr z.pc ∧ tr.mask = lanesWhere fun k => late.any fun v => v.lanes.getLsbD k)) ∧
    (∃ t, exec (.decoupleStall g) s = .next t ∧
      match x.firstWarp with
      | none => t = s
      | some f =>
        let lim := (x.warp f).wdlimit.toNat
        if x.used = true ∧ lim ≠ 0 ∧ lim ≤ x.stall ∧ x.decoupled = true ∧ x.astr.trap = none ∧ x.astr.esc = none then
          ∃ tp : Trap, tp.cause = .decoupleStall ∧ tp.pc = slotAddr x.astr.pc ∧ tp.i0 = BitVec.ofNat 64 x.astr.wait.code ∧
            t = (s.modGroup g fun x => { x with stall := 0 }).trapStream g .a tp
        else t = s) ∧
    (∃ t, exec (.waitTimeout g .e w l) s = .next t ∧
      let lim := 1024 * (s.gctx g).bplimit
      match y.splits.find? (fun z => z.lanes.getLsbD l) with
      | some z =>
        if lim ≠ 0 ∧ z.wait.blocked = true ∧ lim ≤ z.bp ∧ y.due = none ∧ y.esc = none then
          ∃ tp : Trap, tp.cause = .waitTimeout ∧ tp.pc = slotAddr z.pc ∧ tp.mask = z.lanes ∧ tp.i0.extractLsb' 0 4 = BitVec.ofNat 4 z.wait.code ∧
            t = s.trapWarp g w z.lanes tp
        else t = s
      | none => t = s) ∧
    (∀ st, st ≠ .e → ∃ t, exec (.waitTimeout g st w l) s = .next t ∧
      let lim := 1024 * (s.gctx g).bplimit
      let z := x.stream st
      if lim ≠ 0 ∧ z.on = true ∧ z.ended = false ∧ z.stopped = false ∧ z.trap = none ∧ z.esc = none ∧ z.wait.blocked = true ∧ lim ≤ z.bp then
        ∃ tp : Trap, tp.cause = .waitTimeout ∧ tp.pc = slotAddr z.pc ∧ tp.mask = 0 ∧ t = s.trapStream g st tp
      else t = s)

/-- An access sequencer issues the ready A-stream whose slot comes first from the one after the slot that issued last, and keeps its place in the
rotation (01 R20, 18 R429). -/
def Parts.AccessTurnResults : Prop :=
  ∀ (pcore k : Nat) (s : State),
    let from' (x : Group) : Nat := (x.slotA + 4 - Store.get s.eng.aTurn 0 (4 * pcore + k)) % 4
    let waits (g : Nat) (x : Group) : Prop := (g, x) ∈ s.groups ∧ x.used = true ∧ x.pcore = pcore ∧ x.slotA / 4 = k ∧ s.streamReady g .a = true
    (∀ g, s.accessTurn pcore k = some g → ∃ x, waits g x ∧ ∀ h y, waits h y → from' x ≤ from' y) ∧
    (∀ g x, waits g x → (s.accessTurn pcore k).isSome = true) ∧
    (∀ u, u ∈ s.units → u = .access pcore k → ∃ g t, s.accessTurn pcore k = some g ∧ s.issueOf u = some (t, none) ∧ t.grp = g ∧ t.strm = .a) ∧
    ∀ t : Target, t.strm = .a →
      let x := s.group t.grp
      Store.get (s.passTurn t).eng.aTurn 0 (4 * x.pcore + x.slotA / 4) = (x.slotA + 1) % 4

/-- What time brings a warp, and whose turn it is (02 R43 to R46; 03 R79; 17 R417, R418; 18 R428, R429). -/
def Obligations.WarpTimeResults : Prop :=
  Parts.WarpEventResults ∧ Parts.WatchdogResults ∧ Parts.AccessTurnResults

/-- A write-back merges byte for byte at its home slice, the oldest of its cluster that no lock holds in all its bytes first; the bytes of sectors
under a lock stay where they were in its order (08 R219, R230). A page walk that
succeeds leaves its translation in the caches (19 R447). -/
def Parts.BackgroundMemoryResults : Prop :=
  ∀ (cluster part asid vpage : Nat) (s : State),
    (∃ t, exec (.writeBackMerge cluster) s = .next t ∧ { t with mem := s.mem } = s ∧
      match s.mem.wbq.find? fun w => w.cluster == cluster && !s.mem.holds w with
      | none => t.mem = s.mem
      | some w =>
        let goes (i : Nat) : Bool := w.dirty.getLsbD i && !s.mem.locked w.part w.asid (128 * w.vline + 32 * (i / 32)) 32 false
        (∃ before after, s.mem.wbq = before ++ w :: after ∧ (∀ v ∈ before, v.cluster = cluster → s.mem.holds v = true) ∧
          ∃ (stays : List WriteBack) (d : BitVec 128), t.mem.wbq = before ++ stays ++ after ∧
            (∀ i, i < 128 → d.getLsbD i = (w.dirty.getLsbD i && !goes i)) ∧ stays = if d = 0 then [] else [{ w with dirty := d }]) ∧
        t.mem.l1 = s.mem.l1 ∧ t.mem.cc = s.mem.cc ∧ ∀ b, t.mem.byte b =
          if 128 * w.pline ≤ b ∧ b < 128 * w.pline + 128 ∧ goes (b - 128 * w.pline) = true then w.data.extractLsb' (8 * (b - 128 * w.pline)) 8
          else s.mem.byte b) ∧
    (∃ t, exec (.pageWalk part asid vpage) s = .next t ∧ t.groups = s.groups ∧ t.mem.home = s.mem.home ∧
      let c := s.ctx (ctxKey part asid)
      if c.used = true ∧ vpage < 2 ^ 45 ∧ s.mem.cached part asid vpage = none then
        match s.fullWalk c (4096 * vpage) ⟨false, false, false⟩ with
        | .ok x => t.mem.cached part asid vpage = some x
        | .error _ => t.mem = s.mem
      else t = s)

/-! ### Contexts (chapter 18) -/

/-- Stopping, saving and resuming a context (18 R430 to R433, R440): a stop is refused where the save area is too small, and otherwise counted; the
save takes every group of the context out of the cores, as it stands where it has no trap entry, `rgrp`, ray or texture request to finish, and
reports SAVED; RESUME starts a saved context again, is kept while it stops, and is held while the module is paused. -/
def Obligations.ContextResults : Prop :=
  ∀ (part asid : Nat) (s : State),
    let key := ctxKey part asid
    let c := s.ctx key
    let status (u : State) (st : Nat) : Mem := (u.writeStatus key (BitVec.ofNat 64 (st * 2 ^ 60 + c.seq.toNat))).mem
    let others (t : State) : Prop := ∀ k, k ≠ key → t.ctx k = s.ctx k
    (∀ v p u, s.engParts c none c.cstat 8 .store = .ok ([(p, 8)], u) → (s.writeStatus key v).mem.read p 8 = v.toNat) ∧
    (∃ t, exec (.stop part asid) s = .next t ∧ t.groups = s.groups ∧ others t ∧
      if c.used = false ∨ c.run ≠ .running then t = s
      else if s.mem.read (c.save.toNat + 8) 8 < s.saveNeeds key then t.ctx key = c ∧ t.mem = status s 5
      else t.ctx key = { c with run := .stopping, seq := c.seq + 1, byDevice := false, resumeDue := false } ∧ t.mem = s.mem) ∧
    (c.used = false ∨ c.run ≠ .stopping → exec (.contextSave part asid) s = .next s) ∧
    (c.used = true → c.run = .stopping → c.resumeDue = false → (∀ p ∈ s.groupsOf key, s.raysOf p.1 = [] ∧ p.2.rgrpJoined = false ∧
        ∀ w, (p.2.warp w).due = none ∧ ∀ q ∈ (p.2.warp w).pend, ∀ n, q.kind = .tex n → q.landed = true) →
      ∃ t, exec (.contextSave part asid) s = .next t ∧ others t ∧ (t.ctx key).run = .saved ∧ (t.ctx key).seq = c.seq ∧
        (∃ u : State, u.ctx key = c ∧ t.mem = status u 3) ∧ (∀ y ∈ c.savedGroups, y ∈ (t.ctx key).savedGroups) ∧
        ∀ g, let x := s.group g
          (x.used = true → x.ctxKey = key → t.group g = Group.blank ∧ ∃ z, (g, z) ∈ (t.ctx key).savedGroups ∧ z.kernel = x.kernel ∧ z.scratch = x.scratch ∧
            z.bars = x.bars ∧ z.qb = x.qb ∧ z.gens = x.gens ∧ z.idx = x.idx ∧
            ∀ w, (z.warp w).live = (x.warp w).live ∧ (z.warp w).level = (x.warp w).level ∧ (z.warp w).fstat = (x.warp w).fstat ∧
              (z.warp w).tpc = (x.warp w).tpc ∧ (z.warp w).saved.length = (x.warp w).saved.length) ∧
          ((∀ p ∈ s.groups, p.1 = g → p.2 = x) → x.ctxKey ≠ key → t.group g = x)) ∧
    (∃ t, exec (.resume part asid) s = .next t ∧ t.groups = s.groups ∧ others t ∧
      if c.used = false then t = s
      else if s.paused = true then t.ctxs = s.ctxs ∧ t.mem = s.mem ∧ key ∈ t.host.heldResumes
      else match c.run with
        | .saved => (t.ctx key).run = .running ∧ (t.ctx key).savedGroups = c.savedGroups ∧ (c.savedGroups ≠ [] → (t.ctx key).resumeDue = true)
        | .stopping => t.ctx key = { c with resumeDue := true } ∧ t.mem = s.mem
        | _ => t = s)

/-! ### Partitions and windows (chapters 19 and 20) -/

/-- Invalidation and queue binding (17 R424; 19 R450; 20 R460): XINV starts an invalidation, or is held while one is under way; when it completes
no cache and no cached translation holds the ASID's lines; QBIND names the descriptor of a launch queue that is not bound. -/
def Parts.InvalidationResults : Prop :=
  ∀ (part : Nat) (v : W64) (s : State),
    let busy : Prop := ∃ y ∈ s.mem.inval, y.part = part
    let asid : Option Nat := if v.getLsbD 16 then none else some (v.toNat % 65536)
    let known : Prop := v.getLsbD 16 = true ∨ (s.ctx (ctxKey part (v.toNat % 65536))).used = true
    (∃ t, exec (.xinv part v) s = .next t ∧ { t with mem := s.mem } = s ∧
      { t.mem with inval := s.mem.inval, heldXinv := s.mem.heldXinv } = s.mem ∧
      (busy → t.mem.inval = s.mem.inval ∧ t.mem.heldXinv = s.mem.heldXinv ++ [(part, v)]) ∧
      (¬ busy → known → t.mem.inval = s.mem.inval ++ [⟨part, asid, true⟩] ∧ t.mem.heldXinv = s.mem.heldXinv) ∧
      (¬ busy → ¬ known → t = s)) ∧
    (∃ t, exec (.invalidationComplete part) s = .next t ∧ t.eng = s.eng ∧ t.work = s.work ∧
      match s.mem.inval.find? fun y => y.part == part with
      | none => t = s
      | some y =>
        let m := s.mem.flushFor part y.asid
        if m.backsHeld part y.asid = true then t = { s with mem := m }
        else
          (∀ id, ∀ x ∈ t.mem.cache id, ¬ (x.part = part ∧ ∀ a, y.asid = some a → x.asid = a)) ∧
          (∀ x ∈ t.mem.tlb, ¬ (x.part = part ∧ ∀ a, y.asid = some a → x.asid = a)) ∧ t.mem.home = m.home ∧
          ((s.mem.heldXinv.find? fun h => h.1 == part) = none → t.mem.inval = m.inval.erase y) ∧
          ∀ a, y.asid = some a → y.xinv = false → (∀ z ∈ m.inval.erase y, ¬ (z.part = part ∧ z.asid = some a ∧ z.xinv = false)) →
            ∀ g w, (s.group g).used = true → (s.group g).part = part → (t.warp g w).splits = (s.warp g w).splits.map fun x =>
              if x.wait = .tinv a then { x with wait := .ready } else x) ∧
    (∃ t, exec (.qbind part v) s = .next t ∧ t.mem = s.mem ∧ t.groups = s.groups ∧
      match s.unit part 4 (v.extractLsb' 52 12).toNat with
      | none => t = s
      | some q =>
        if qKind (s.qdesc q) ≠ 0 ∨ (s.boundTo 4 q).isSome = true then t = s
        else ∀ k, Store.get t.part.qbind 0 k = if k = q then 64 * (v.toNat / 64 % 2 ^ 46) else Store.get s.part.qbind 0 k)

/-- Write-backs that arrive, page walks, invalidation and queue binding (08; 17 R424; 19 R445, R450; 20 R460). -/
def Obligations.CacheAndTranslationResults : Prop :=
  Parts.BackgroundMemoryResults ∧ Parts.InvalidationResults

/-- The hypervisor's and the partitions' windows (20 R456 to R462; 18 R430; 13 R370; 21 R486, R493): a refused write leaves its reason in HVERR, the
first only; a resize sets RESIZING, records the contexts it stops and clears the places it takes away; when they are saved the clusters that
stay keep their indices; the words of the control windows act as the commands that they stand for. -/
def Obligations.WindowResults : Prop :=
  ∀ (part hart kind idx mb : Nat) (mask : BitVec 52) (v : W64) (e4 : W32) (l : List W8) (s : State), part < 40 →
    let old := s.partEntry part
    let refused (t : State) (off r : Nat) : Prop := { t with part := s.part } = s ∧ { t.part with hverr := s.part.hverr } = s.part ∧
      t.part.hverr = if s.part.hverr.getLsbD 63 then s.part.hverr else BitVec.ofNat 64 (2 ^ 63 + off * 65536 + r)
    (∃ t, exec (.hverrClear v) s = .next t ∧ { t with part := s.part } = s ∧ { t.part with hverr := s.part.hverr } = s.part ∧
      ∀ i, i < 64 → t.part.hverr.getLsbD i = (s.part.hverr.getLsbD i && !(i == 63 && v.getLsbD 63))) ∧
    (∃ t, exec (.partitionResize part mask) s = .next t ∧
      let new : W512 := (old &&& ~~~0xFFFFFFFFFFFFF#512) ||| mask.setWidth 512
      match firstReason (s.entryChecks part new) with
      | some r => refused t (64 * part) r
      | none =>
        (∀ p, p ≠ part → t.partEntry p = s.partEntry p) ∧ (t.partEntry part).extractLsb' 0 52 = mask ∧
        (∀ i, 52 ≤ i → i ≠ 61 → (t.partEntry part).getLsbD i = old.getLsbD i) ∧
        (peValid old = true → mask ≠ peClu old → peResizing (t.partEntry part) = true ∧
          Store.get t.part.resizing [] part =
            ((s.ctxsOn part (peClu old &&& ~~~mask)).filter fun k => (s.ctx k).runs).filter fun k => (t.ctx k).run == .stopping) ∧
        ∀ k n u, 3 ≤ k → k ≤ 7 → n < 4096 → t.unit part k n = some u → peHas new k u = true) ∧
    (∃ t, exec (.resizeComplete part) s = .next t ∧
      let ks := Store.get s.part.resizing [] part
      if peResizing old = false ∨ (ks.any fun k => (s.ctx k).run == .stopping) = true then t = s
      else
        t.partEntry part = old &&& ~~~(1#512 <<< 61) ∧ Store.get t.part.resizing [] part = [] ∧
        (∀ k c, k < (bitsOf (peClu old)).length → s.unit part 2 k = some c → (peClu old).getLsbD c = true →
          t.unit part 2 k = some c ∧ ∀ j, j < 4 → t.unit part 1 (4 * k + j) = some (4 * c + j)) ∧
        ∀ k ∈ ks, (s.ctx k).used = true → (s.ctx k).run = .saved → (s.ctx k).byDevice = true → s.paused = false → (t.ctx k).run = .running) ∧
    (s.svcLevel = 15 → ∀ win n, exec (.registerWrite win n l) s = .next s) ∧
    (s.svcLevel ≠ 15 →
      let ctl (n : Nat) : Host.Outcome State Fault Refusal := exec (.registerWrite (.ctl part hart) n (bytesOf 8 v.toNat)) s
      (v.extractLsb' 16 2 = 1 → ctl 0x40 = exec (.stop part (v.toNat % 65536)) s) ∧ (v.extractLsb' 16 2 = 2 → ctl 0x40 = exec (.resume part (v.toNat % 65536)) s) ∧
      ctl 0x48 = exec (.xinv part v) s ∧ ctl 0x50 = exec (.qbind part v) s ∧
      (mb < 64 → ctl (0x2008 + 16 * mb) = exec (.replyToken part mb v) s ∧
        ∃ t, ctl (0x2000 + 16 * mb) = .next t ∧ Store.get t.part.replies 0 (64 * part + mb) = v ∧ t.mem = s.mem) ∧
      (s.ckptBusy = true → ∀ n, ∃ t, exec (.registerWrite .hyper n l) s = .next t ∧ { t with host := s.host } = s ∧
        t.host.heldWrites = s.host.heldWrites ++ [(n, l)]) ∧
      (s.ckptBusy = false → exec (.registerWrite .hyper 0x1000 (bytesOf 8 v.toNat)) s = exec (.hverrClear v) s ∧
        (1 ≤ kind → kind ≤ 7 → idx < 4096 →
          let n := 0x1000000 + 0x20000 * part + 0x4000 * (kind - 1) + 4 * idx
          ∃ t, exec (.registerWrite .hyper n (bytesOf 4 e4.toNat)) s = .next t ∧
            match firstReason (s.placeChecks part kind idx e4) with
            | some r => refused t n r
            | none => t.placeEntry part kind idx = e4 ∧ { t with part := s.part } = s ∧ { t.part with place := s.part.place } = s.part)))

/-! ### The security core (chapter 20) -/

/-- A call event serves the request at the head of the round if it came from the window and has the event's code (20 R472, R474, R475): its
window answers with DONE, the status, the request's tag and the result, and nothing but an accepted call changes anything else. -/
def Parts.SecurityCallService : Prop :=
  ∀ (w : CallWin) (q : CallReq) (rest : List CallReq) (s : State), s.calls = q :: rest →
    let s1 : State := { s with sec := { s.sec with pending := if s.sec.round = [] then [] else s.sec.pending, round := rest } }
    let serves (i : Instr) (code : Nat) (f : State → CallReq → CallAns) : Prop := ∃ t, exec i s = .next t ∧
      if q.win = w ∧ q.call = code then
        let a := f s1 q
        let u := if a.1 = .ok then a.2.2 else s1
        (s.sec.held = [] → a.2.2.sec.held = [] → (t.callWin w).done = true ∧ (t.callWin w).status = a.1.code ∧ (t.callWin w).rtag = q.tag ∧
          (t.callWin w).result = BitVec.ofNat 32 a.2.1 ∧ { t with sec := u.sec } = u ∧ { t.sec with wins := u.sec.wins } = u.sec) ∧
        ∀ v, v ≠ w → t.callWin v = u.callWin v
      else t = s
    serves (.worldCreate w) 1 State.worldCreate ∧ serves (.grant w) 2 State.grantCall ∧ serves (.ctxCreate w) 3 State.ctxCreateCall ∧
    serves (.ctxDestroy w) 4 State.ctxDestroyCall ∧ serves (.ptWrite w) 5 State.ptWriteCall ∧ serves (.capMint w) 6 State.capMintCall ∧
    serves (.gate w) 7 State.gateCall ∧ serves (.bind w) 8 State.bindCall ∧ serves (.debugUnlock w) 9 State.debugUnlockCall

/-- What each call does (20 R470, R471, R473, R476 to R478): its refusals with their statuses, and its effect. Which status stands for a broken
limit that the manual gives none is the model's choice (notes/assumptions/38.md). -/
def Parts.SecurityCallResults : Prop :=
  ∀ (p : Nat) (w : CallWin) (q : CallReq) (s : State),
    let refused (a : CallAns) (st : CallStatus) : Prop := a = (st, 0, s)
    let a0 := q.arg 0
    let a1 := q.arg 1
    let e := s.granule a0.toNat
    let k := ctxKey p (a0.toNat % 65536)
    let c := s.ctx k
    let lives : Prop := a0.toNat < 65536 ∧ c.used = true ∧ c.prot = true ∧ c.run ≠ .ended
    (q.win = w →
      (let a := s.worldCreate q
        if w ≠ .hyper then refused a .denied
        else if 40 ≤ a0.toNat then refused a .badArg
        else if peWorld (s.partEntry a0.toNat) = false then refused a .denied
        else if (s.world a0.toNat).used = true then refused a .inUse
        else a.1 = .ok ∧ a.2.2.world a0.toNat = ⟨true, a1, []⟩ ∧ a.2.2.mem = s.mem ∧ a.2.2.ctxs = s.ctxs ∧ ∀ n, n ≠ a0.toNat → a.2.2.world n = s.world n) ∧
      (let a := s.debugUnlockCall q
        let protected' : Bool := s.ctxs.any fun x => x.2.used && x.2.prot && x.2.run != .ended
        if w ≠ .hyper then refused a .denied
        else if a0.toNat % 64 ≠ 0 ∨ deviceTop < a0.toNat + 192 then refused a .badArg
        else if s.tokenOk a0.toNat = false then refused a .badSignature
        else a.1 = .ok ∧ a.2.1 = (if protected' then 1 else 0) ∧ a.2.2.sec.counter = s.sec.counter + 1 ∧ a.2.2.sec.unlock = a.2.1 + 1 ∧ a.2.2.mem = s.mem) ∧
      (w = .hyper → refused (s.grantCall q) .denied ∧ refused (s.ctxCreateCall q) .denied ∧ refused (s.ptWriteCall q) .denied ∧
        refused (s.capMintCall q) .denied ∧ refused (s.gateCall q) .denied ∧ refused (s.bindCall q) .denied)) ∧
    (q.win = .part p →
      (let a := s.grantCall q
        if (s.world p).used = false then refused a .denied
        else if deviceTop ≤ a0.toNat ∨ a0.toNat % 0x200000 ≠ 0 then refused a .badArg
        else if fwScrub e = true then refused a .quarantined
        else if fwValid e = false ∨ fwPart e ≠ p ∨ fwProt e = true then refused a .badArg
        else a.1 = .ok ∧
          (let f := a.2.2.granule a0.toNat;
            fwProt f = true ∧ fwCmask f = a1.extractLsb' 0 4 ∧ fwPart f = p ∧ fwValid f = true ∧ fwScrub f = false) ∧
          (∀ b, a0.toNat ≤ b → b < a0.toNat + 0x200000 → a.2.2.mem.byte b = 0 ∧ a.2.2.mem.tag b = false) ∧
          ∀ n, n ≠ a0.toNat / 0x200000 → Store.get a.2.2.part.fw 0 n = Store.get s.part.fw 0 n) ∧
      (¬ lives → refused (s.ctxDestroyCall q) .notFound ∧ refused (s.ptWriteCall q) .notFound ∧ refused (s.capMintCall q) .notFound ∧
        refused (s.bindCall q) .notFound) ∧
      (lives →
        (let a := s.ctxDestroyCall q
          let t := a.2.2
          a.1 = .ok ∧ (t.ctx k).run = .ended ∧ (t.ctx k).savedGroups = [] ∧ (∀ n, n ≠ k → t.ctx n = s.ctx n) ∧ (∀ x ∈ t.groups, x.2.ctxKey ≠ k) ∧
          (∀ x ∈ t.eng.copies, ctxKey x.2.part x.2.asid ≠ k) ∧ (∀ x ∈ t.work.graphs, x.2.key ≠ k) ∧ (∀ b ∈ t.sec.binds, b.2.2 ≠ k) ∧
          ∃ j : Job, t.sec.jobs = s.sec.jobs ++ [j] ∧ t.sec.retained = s.sec.retained ++ [j] ∧ j.part = c.part ∧ j.asid = c.asid ∧
            j.cores = s.heldCoresOf c ∧ j.done = 0 ∧ ∀ g ∈ j.granules, fwScrub (Store.get t.part.fw 0 g) = true) ∧
        (let a := s.ptWriteCall q
          let x := q.arg 2
          if a1.toNat % 8 ≠ 0 ∨ s.sealedAt p a1.toNat = false ∨ pteRefused c.comp x = true then refused a .badArg
          else a.1 = .ok ∧ a.2.2.groups = s.groups ∧ a.2.2.ctxs = s.ctxs ∧
            (pteLowers (BitVec.ofNat 64 (s.mem.read a1.toNat 8)) x = false → a.2.2.mem.read a1.toNat 8 = x.toNat ∧
              ∀ b, b < a1.toNat ∨ a1.toNat + 8 ≤ b → a.2.2.mem.byte b = s.mem.byte b) ∧
            (pteLowers (BitVec.ofNat 64 (s.mem.read a1.toNat 8)) x = true →
              (∀ id, ∀ y ∈ a.2.2.mem.cache id, ¬ (y.part = p ∧ y.asid = c.asid)) ∧ ∀ y ∈ a.2.2.mem.tlb, ¬ (y.part = p ∧ y.asid = c.asid))) ∧
        (let a := s.capMintCall q; a.1 = .ok ∨ refused a .badArg) ∧
        (let a := s.capMintCall q
          let v : W128 := q.arg 3 ++ q.arg 2
          a1.toNat % 16 = 0 → s.compAt p c.comp a1.toNat = true → v.extractLsb' 57 7 = 0 → v.extractLsb' 104 20 = 0 → v.extractLsb' 64 40 ≠ 0 →
            (v.extractLsb' 126 2).toNat = c.comp → a.1 = .ok ∧ a.2.2.mem.read a1.toNat 16 = v.toNat ∧ a.2.2.mem.tag a1.toNat = true ∧
              (∀ b, b < a1.toNat ∨ a1.toNat + 16 ≤ b → a.2.2.mem.byte b = s.mem.byte b ∧ a.2.2.mem.tag b = s.mem.tag b)) ∧
        (let a := s.bindCall q
          let f := a1.extractLsb' 0 16
          let kind := (a1.extractLsb' 12 4).toNat
          if 65536 ≤ a1.toNat ∨ kind < 4 ∨ 6 < kind ∨ s.place p kind f = none then refused a .badArg
          else ∀ u, s.place p kind f = some u → match s.boundTo kind u with
            | some o => if o = k then a = (.ok, 0, s) else refused a .inUse
            | none => a.1 = .ok ∧ a.2.2.sec.binds = s.sec.binds ++ [(kind, u, k)] ∧ a.2.2.mem = s.mem)) ∧
      (let a := s.gateCall q
        let sg : W128 := q.arg 3 ++ q.arg 2
        let dg : W128 := q.arg 5 ++ q.arg 4
        let n := 16 * p + a0.toNat
        if (s.world p).used = false then refused a .denied
        else if 16 ≤ a0.toNat ∨ 1 < a1.toNat then refused a .badArg
        else if a1 = 0 then
          (if Store.get s.sec.gates Gate.blank n = Gate.blank then refused a .notFound
          else a.1 = .ok ∧ Store.get a.2.2.sec.gates Gate.blank n = Gate.blank)
        else if (capOf sg true).good = false ∨ (capOf dg true).good = false ∨ sg.extractLsb' 126 2 = dg.extractLsb' 126 2 then refused a .badArg
        else a.1 = .ok ∧ Store.get a.2.2.sec.gates Gate.blank n = ⟨sg, dg⟩ ∧
          ∀ m, m ≠ n → Store.get a.2.2.sec.gates Gate.blank m = Store.get s.sec.gates Gate.blank m) ∧
      (let a := s.ctxCreateCall q
        let d : W512 := BitVec.ofNat 512 (s.mem.read a0.toNat 64)
        let asid := (d.extractLsb' 100 16).toNat
        let n := ctxKey p asid
        let comp := (a1.extractLsb' 0 2).toNat
        (a.1 ≠ .ok → a.2.1 = 0 ∧ a.2.2 = s) ∧ ((s.world p).used = false → a.1 = .denied) ∧
        ((s.world p).slot comp = none → s.freeSlots = [] → a.1 ≠ .ok) ∧
        (a.1 = .ok →
          let x := a.2.2.ctx n
          x.used = true ∧ x.prot = true ∧ x.part = p ∧ x.asid = asid ∧ x.comp = comp ∧ x.run = .running ∧ x.tbase = d.extractLsb' 0 64 ∧
          x.save = d.extractLsb' 128 64 ∧ x.ptroot = d.extractLsb' 192 64 ∧ x.cstat = d.extractLsb' 256 64 ∧ x.capTab = q.arg 4 ∧
          x.firstCore = ((q.arg 2).extractLsb' 0 12).toNat ∧ x.coreCount = ((q.arg 2).extractLsb' 16 8).toNat ∧
          a.2.2.mem.read (q.arg 6).toNat 64 = d.toNat ∧
          (∃ slot, (a.2.2.world p).slot comp = some slot ∧ a.2.1 = asid + slot * 65536) ∧
          (s.ctxs.all fun y => !(y.2.used && y.2.prot && y.2.run != .ended && (s.heldCoresOf y.2).any (a.2.2.heldCoresOf x).contains)) = true)))

/-- Security calls (20 R470 to R478): how they are served, and what each does. -/
def Obligations.SecurityCallResults : Prop :=
  Parts.SecurityCallService ∧ Parts.SecurityCallResults

/-- The scrub engine works through a job's units in order and counts them (20 R479, R480): the lines of its context leave its caches unwritten, its
granules read zero, and with the last unit the quarantine lifts in one step. -/
def Obligations.ScrubResults : Prop :=
  ∀ (part : Nat) (s : State), ∃ t, exec (.scrubUnit part) s = .next t ∧ t.groups = s.groups ∧ t.ctxs = s.ctxs ∧
    match s.jobsOf part with
    | [] => t = s
    | j :: rest =>
      let n := j.cores.length
      let m := j.clusters.length
      let base := n + m + 256 * n + j.allot * n
      let a := j.granules.getD ((j.done - base) / 512) 0 * 0x200000 + 4096 * ((j.done - base) % 512)
      (j.done < n → ∀ x ∈ t.mem.cache (.l1 (j.cores.getD j.done 0)), ¬ (x.part = j.part ∧ x.asid = j.asid)) ∧
      (n ≤ j.done → j.done < n + m → ∀ x ∈ t.mem.cache (.cc (j.clusters.getD (j.done - n) 0)), ¬ (x.part = j.part ∧ x.asid = j.asid)) ∧
      (j.done < base → t.mem.home = s.mem.home) ∧ (n + m ≤ j.done → j.done < base → t.mem = s.mem) ∧
      (base ≤ j.done → ∀ b, t.mem.byte b = if a ≤ b ∧ b < a + 4096 then 0 else s.mem.byte b) ∧
      (j.done + 1 < j.total → t.part = s.part ∧ t.sec.jobs.length = s.sec.jobs.length ∧ t.jobsOf part = { j with done := j.done + 1 } :: rest ∧
        Store.get t.sec.prog 0 part = scrubProg 1 rest.length j.total (j.done + 1)) ∧
      (j.total ≤ j.done + 1 → t.jobsOf part = rest ∧ (∀ g ∈ j.granules, fwScrub (Store.get t.part.fw 0 g) = false ∧ fwProt (Store.get t.part.fw 0 g) = false) ∧
        Store.get t.sec.prog 0 part = scrubProg 2 rest.length j.total j.total ∧
        ∀ g, g ∉ j.granules → Store.get t.part.fw 0 g = Store.get s.part.fw 0 g)

/-! ### Host, fabric, bring-up and service life (chapter 21; 20 R464; 08 R217, R230) -/

/-- Boot, attestation and the service levels (21 R486 to R491, R499; 20 R481): a device reset measures and verifies the images of the boot flash in
their order and reports LEVEL 1, or 15 at the first failure; it keeps what is retained and nothing else. The SPDM responder follows its
negotiation (its order and codes are SPDM 1.3's: PRESUMED, notes/assumptions/40.md) and returns the measurements. LEVEL moves 1 to 2 to 3, back to 1 when
cooling fails, which stops every context, and from there to 3; the clock changes time only. -/
def Obligations.HostSideResults : Prop :=
  ∀ (msg : List W8) (ok fail : BitVec 4) (gib : BitVec 16) (mhz : Nat) (s : State),
    let h := s.host
    let hostOnly (i : Instr) (p : HostSide → Prop) : Prop := ∃ t, exec i s = .next t ∧ { t with host := h } = s ∧ p t.host
    let answers (i : Instr) (allowed : Prop) (code stage session : Nat) : Prop := hostOnly i fun x => { x with spdm := h.spdm } = h ∧
      (allowed → x.spdm.code = code ∧ x.spdm.stage = stage ∧ x.spdm.session = session) ∧
      (¬ allowed → x.spdm.code = 0x7F ∧ x.spdm.stage = h.spdm.stage ∧ x.spdm.session = h.spdm.session)
    let levels (die failed : BitVec 4) (g : BitVec 16) (n : BitVec 4) : W64 := 0#32 ++ die ++ failed ++ g ++ 0#4 ++ n
    let p := h.spdm
    (∃ t, exec .deviceReset s = .next t ∧ t.groups = [] ∧ t.cohorts = [] ∧ t.ctxs = [] ∧ t.faults = [] ∧ t.work = State.reset.work ∧
      t.eng = State.reset.eng ∧ t.mem = { Mem.reset with home := s.mem.home, poison := s.mem.poison } ∧ t.part.entries = [] ∧ t.part.place = [] ∧
      (∀ g, Store.get t.part.fw 0 g = if s.sec.retained.any fun j => j.granules.contains g then Store.get s.part.fw 0 g else 0) ∧
      t.sec.jobs = (s.sec.retained.map fun j => { j with done := 0 }) ∧ t.sec.counter = s.sec.counter ∧ t.sec.worlds = [] ∧ t.sec.slots = [] ∧
      t.host.flash = h.flash ∧ t.host.errsum = 0 ∧ t.host.ckptStat = 0 ∧ t.host.ckptAddr = 0 ∧ t.host.spdm = HostSide.reset.spdm ∧
      let n := ((h.flash.take 4).takeWhile bootOk).length
      t.host.level = levels 0 0 0 (if n = 4 then 1 else 15) ∧ t.host.meas = (h.flash.take (min 4 (n + 1))).map fun i => Config.shake256 i.bytes 64) ∧
    answers (.getVersion msg) True 0x04 1 0 ∧ answers (.getCapabilities msg) (p.stage = 1) 0x61 2 p.session ∧
    answers (.negotiateAlgorithms msg) (p.stage = 2) 0x63 3 p.session ∧ answers (.getDigests msg) (p.stage = 3) 0x01 3 p.session ∧
    answers (.getCertificate msg) (p.stage = 3) 0x02 3 p.session ∧ answers (.challenge msg) (p.stage = 3) 0x03 3 p.session ∧
    answers (.getMeasurements msg) (p.stage = 3) 0x60 3 p.session ∧
    (p.stage = 3 → hostOnly (.getMeasurements msg) fun x => h.meas.flatten <+: x.spdm.reply.drop 4) ∧
    answers (.keyExchange msg) (p.stage = 3 ∧ p.session = 0) 0x64 3 1 ∧ answers (.finish msg) (p.session = 1) 0x65 p.stage 2 ∧
    answers (.endSession msg) (p.session = 2) 0x6C p.stage 0 ∧
    hostOnly .reducedService (fun x =>
      x = if s.svcLevel = 1 ∧ h.cooling = false then { h with level := levels h.dieOk h.dieFail 24 2 } else h) ∧
    hostOnly (.fullService ok gib) (fun x => x = if s.svcLevel = 2 then { h with level := levels ok (~~~ok) gib 3 } else h) ∧
    hostOnly (.clockCap mhz) (fun x => x = { h with capMhz := some mhz }) ∧ hostOnly .clockCapLift (fun x => x = { h with capMhz := none }) ∧
    (∃ t, exec .coolingFailure s = .next t ∧ t.groups = s.groups ∧ t.part = s.part ∧
      if s.svcLevel = 15 ∨ h.cooling = true then t = s
      else
        t.host = { h with level := levels h.dieOk h.dieFail h.memGib 1, cooling := true } ∧
        ((∀ k, (s.ctx k).runs = true → s.saveNeeds k ≤ s.mem.read ((s.ctx k).save.toNat + 8) 8) → t.mem = s.mem ∧
          ∀ k, t.ctx k = let c := s.ctx k
            if c.runs = true then { c with run := .stopping, seq := c.seq + 1, byDevice := true, resumeDue := false } else c)) ∧
    ∃ t, exec (.coolingRecovery fail) s = .next t ∧
      if h.cooling = false then t = s
      else s.ckptBusy = true ∨ h.heldWrites = [] →
        t.host.level = levels (h.dieOk &&& ~~~fail) (h.dieFail ||| fail)
          (h.memGib - BitVec.ofNat 16 (96 * (bitsOf (fail &&& ~~~h.dieFail)).length)) 3 ∧
        t.host.cooling = false ∧ t.groups = s.groups ∧
        (s.ckptBusy = false → t.host.heldResumes = [] ∧
          ∀ k ∈ h.heldResumes, (s.ctx k).used = true → (s.ctx k).run = .saved → (t.ctx k).run = .running)

/-- Soft errors, spares and links (21 R485, R493, R496, R498): errors are counted, an uncorrectable one poisons its sector, a spare is proposed after
more than 1,000 corrected errors or one that was not and is brought in while no context has work on the unit; a checkpoint that copies over a
link fails when the link goes down. That the count of corrected errors is taken without regard to time is the model's choice. -/
def Obligations.ServiceLifeResults : Prop :=
  ∀ (u : UnitId) (loc : ErrLoc) (n : Fin 64) (s : State),
    let h := s.host
    let hostOnly (i : Instr) (p : HostSide → Prop) : Prop := ∃ t, exec i s = .next t ∧ { t with host := h } = s ∧ p t.host
    let corrected (e : W64) : Nat := (e.extractLsb' 32 32).toNat
    let uncorrected (e : W64) : Nat := (e.extractLsb' 0 32).toNat
    hostOnly (.correctableError u) (fun x => { x with errsum := h.errsum, corr := h.corr } = h ∧
      corrected x.errsum = min (2 ^ 32 - 1) (corrected h.errsum + 1) ∧ uncorrected x.errsum = uncorrected h.errsum ∧
      x.corrOf u = h.corrOf u + 1 ∧ ∀ v, v ≠ u → x.corrOf v = h.corrOf v) ∧
    (∃ t, exec (.uncorrectableError loc u) s = .next t ∧ u ∈ t.host.uncorr ∧ corrected t.host.errsum = corrected h.errsum ∧
      uncorrected t.host.errsum = min (2 ^ 32 - 1) (uncorrected h.errsum + 1) ∧ t.ctxs = s.ctxs ∧ t.mem.home = s.mem.home ∧
      let line (id : CacheId) (k m : Nat) : Prop := ∀ x, (s.mem.cache id)[k]? = some x → (t.mem.cache id)[k]? = some { x with poison := x.poison ||| (1#4 <<< m) }
      match loc with
      | .dev a => t.groups = s.groups ∧ ∀ b, t.mem.bad b = (s.mem.bad b || (decide (a < deviceTop) && b / 32 == a / 32))
      | .scratch g o => t.mem = s.mem ∧ (∀ k, k ≠ g → t.group k = s.group k) ∧ (t.group g).scratch = (s.group g).scratch ∧
          ((s.group g).used = true → o < (s.group g).kernel.scratch →
            ∀ b, Store.get (t.group g).spoison false b = (Store.get (s.group g).spoison false b || b == o / 32))
      | .l1 c k m => t.groups = s.groups ∧ t.mem.poison = s.mem.poison ∧ line (.l1 c) k m
      | .clu c k m => t.groups = s.groups ∧ t.mem.poison = s.mem.poison ∧ line (.cc c) k m) ∧
    hostOnly (.spareProposal u) (fun x => { x with proposals := h.proposals } = h ∧
      ∀ v, v ∈ x.proposals ↔ v ∈ h.proposals ∨ v = u ∧ (1000 < h.corrOf u ∨ u ∈ h.uncorr)) ∧
    hostOnly (.spareBringIn u) (fun x =>
      if (u.kind = .cluster ∨ u.kind = .copyEngine) ∨ s.unitIdle u = false ∨ u ∈ h.spares then x = h
      else x.spares = h.spares ++ [u] ∧ x.corrOf u = 0 ∧ ∀ v, v ≠ u → x.corrOf v = h.corrOf v ∧ (v ∈ x.proposals ↔ v ∈ h.proposals) ∧
        (v ∈ x.uncorr ↔ v ∈ h.uncorr)) ∧
    hostOnly (.linkUp .host) (fun x => x = { h with hostUp := true }) ∧
    hostOnly (.linkUp (.peer n)) (fun x => { x with peersDown := h.peersDown } = h ∧
      ∀ i, i < 64 → x.peersDown.getLsbD i = (h.peersDown.getLsbD i && i != n.val)) ∧
    (∀ l : Link, ∃ t, exec (.linkDown l) s = .next t ∧
      let x := t.host
      let uses : Prop := ∃ c, h.ckpt = some c ∧ h.ckptStat.extractLsb' 60 4 = 2 ∧ match l with
        | .host => True
        | .peer m => c.peer = true ∧ c.peerMod = m.val
      (match l with
        | .host => x.hostUp = false ∧ x.peersDown = h.peersDown
        | .peer m => x.hostUp = h.hostUp ∧ ∀ i, i < 64 → x.peersDown.getLsbD i = (h.peersDown.getLsbD i || i == m.val)) ∧
      (¬ uses → { t with host := h } = s ∧ x.ckptStat = h.ckptStat) ∧
      (uses → h.heldWrites = [] → x.ckptStat.extractLsb' 60 4 = 4 ∧ x.ckptStat.extractLsb' 52 8 = 1 ∧ x.ckpt = none))

/-- Checkpoint and restore (21 R492, R493, R495): a checkpoint stops every context that runs, copies once they are saved, writes each granule's bytes and
poison mask in ascending order and then the window's tables, and ends DONE, or FAILED with its reason; a restore is taken while no context is
resident, and puts back tables and unprotected granules. The layout of the image and the reading of CKPTADDR and KIB are the model's choice
(notes/assumptions/37.md). -/
def Obligations.CheckpointResults : Prop :=
  ∀ (ctl : W64) (s : State),
    let h := s.host
    let cmd := ctl.extractLsb' 62 2
    let enough (k : Nat) : Prop := s.saveNeeds k ≤ s.mem.read ((s.ctx k).save.toNat + 8) 8
    let base := hostBase + h.ckptAddr.toNat
    let st (t : State) : Nat := (t.host.ckptStat.extractLsb' 60 4).toNat
    let reason (t : State) : Nat := (t.host.ckptStat.extractLsb' 52 8).toNat
    (∃ t, exec (.checkpoint ctl) s = .next t ∧
      if cmd ≠ 1 ∨ s.ckptBusy = true then t = s
      else
        ((∀ k, (s.ctx k).runs = true → enough k) → t.groups = s.groups ∧ t.mem = s.mem ∧ t.part = s.part ∧ st t = 1 ∧
          (∃ c, t.host.ckpt = some c ∧ c.peer = ctl.getLsbD 61 ∧ c.peerMod = (ctl.extractLsb' 55 6).toNat ∧ c.hold = ctl.getLsbD 54 ∧
            ∀ k, k ∈ c.ctxs ↔ (s.ctx k).runs = true) ∧
          ∀ k, t.ctx k = let c := s.ctx k
            if c.runs = true then { c with run := .stopping, seq := c.seq + 1, byDevice := true, resumeDue := false } else c) ∧
        (∀ k, (s.ctx k).runs = true → ¬ enough k → (∀ n, (s.ctx n).runs = true → n = k) → h.heldWrites = [] → h.heldResumes = [] →
          st t = 4 ∧ reason t = 2 ∧ t.ctx k = s.ctx k)) ∧
    (∃ t, exec .checkpointComplete s = .next t ∧
      let stops : Prop := ∃ k, (s.ctx k).used = true ∧ (s.ctx k).run = .stopping
      match h.ckpt with
      | none => t = s
      | some c =>
        if h.ckptStat.extractLsb' 60 4 = 1 then
          (∀ k, (s.ctx k).runs = false) →
            (stops → t = s) ∧ (¬ stops → { t with host := h } = s ∧ st t = 2 ∧ t.host.ckpt = h.ckpt)
        else
          h.heldWrites = [] → h.heldResumes = [] →
            (h.hostUp = false → st t = 4 ∧ reason t = 1) ∧
            (h.hostUp = true → c.peer = true → h.peersDown.getLsbD c.peerMod = true → st t = 4 ∧ reason t = 3) ∧
            (h.hostUp = true → (c.peer = false ∨ h.peersDown.getLsbD c.peerMod = false) →
              st t = 3 ∧ (∃ i ∈ t.host.images, i.base = base ∧ i.part = s.part ∧ i.ctxs = s.ctxs) ∧
              (c.hold = true → t.ctxs = s.ctxs ∧
                (∀ b, b < base → t.mem.byte b = s.mem.byte b) ∧
                ∀ n g, (assigned s.part)[n]? = some g → ∀ o, o < 0x200000 →
                  (fwProt (Store.get s.part.fw 0 g) = false → t.mem.byte (base + 0x202000 * n + o) = s.mem.byte (0x200000 * g + o)) ∧
                  (o < 0x2000 → ∀ i, i < 8 →
                    (t.mem.byte (base + 0x202000 * n + 0x200000 + o)).getLsbD i = Store.get s.mem.poison false (0x10000 * g + 8 * o + i))) ∧
              (c.hold = false → h.cooling = false → ∀ k ∈ c.ctxs, (s.ctx k).used = true → (s.ctx k).run = .saved → (t.ctx k).run = .running))) ∧
    ∃ t, exec (.restore ctl) s = .next t ∧
      let resident : Prop := ∃ k, (s.ctx k).used = true ∧ ((s.ctx k).run = .running ∨ (s.ctx k).run = .stopping)
      match h.images.find? fun i => i.base == base with
      | none => t = s
      | some i =>
        (cmd ≠ 2 ∨ s.ckptBusy = true ∨ resident → t = s) ∧
        (cmd = 2 → s.ckptBusy = false → ¬ resident → h.hostUp = false → { t with host := h } = s ∧ st t = 4 ∧ reason t = 1) ∧
        (cmd = 2 → s.ckptBusy = false → ¬ resident → h.hostUp = true →
          st t = 3 ∧ t.groups = [] ∧ t.part.entries = i.part.entries ∧ t.part.vf = i.part.vf ∧ t.part.place = i.part.place ∧
          (∀ k, let c := Store.get i.ctxs Ctx.blank k
            if c.prot = true then (t.ctx k).used = false
            else if c.used = true ∧ c.run = .saved then (h.cooling = false → (t.ctx k).run = .running)
            else t.ctx k = c) ∧
          ((∀ k, (s.ctx k).shielded = false) → (∀ k, (Store.get i.ctxs Ctx.blank k).run ≠ .saved) →
            ∀ n g, (assigned i.part)[n]? = some g → ∀ o, o < 0x200000 →
              if fwProt (Store.get i.part.fw 0 g) = true then t.mem.byte (0x200000 * g + o) = s.mem.byte (0x200000 * g + o)
              else t.mem.byte (0x200000 * g + o) = s.mem.byte (base + 0x202000 * n + o) ∧
                (o < 0x2000 → ∀ b, b < 8 →
                  Store.get t.mem.poison false (0x10000 * g + 8 * o + b) = (s.mem.byte (base + 0x202000 * n + 0x200000 + o)).getLsbD b)))

/-- Requests on the ports and accesses of the control cores (20 R464; 08 R217, R230; 21 R496): the firewall decides granule by granule, a range lock holds
a request back, and so do write-backs held by one that a control core's read forces; poison is not returned, and a control core's access is
performed at the home slice, or in a window of its partition (13 R359; 20 R459). That a refused access of a control core has no effect is the
model's choice (notes/assumptions/51.md). -/
def Parts.PortResults : Prop :=
  ∀ (r : PortReq) (a : CoreAccess) (s : State),
    let h := s.host
    let n := if r.write then r.data.length else r.size
    let part := s.portPart r.agent
    let ok : Bool := match part with
      | some p => s.portRange p r.keySlot r.addr n
      | none => false
    (∀ p, s.portRange p r.keySlot r.addr n = true → ∀ b, r.addr ≤ b → b < r.addr + n →
      let e := s.granule b
      b < deviceTop ∧ fwValid e = true ∧ fwPart e = p ∧ fwScrub e = false ∧ (fwProt e = true →
        ∃ k c, r.keySlot = some k ∧ Store.get s.sec.slots 0 k = 4 * p + c + 1 ∧ c < 4 ∧ (fwCmask e).getLsbD c = true)) ∧
    (∃ t, exec (.portRequest r) s = .next t ∧ t.groups = s.groups ∧ t.ctxs = s.ctxs ∧ t.part = s.part ∧
      if s.lockedPhys r.addr n r.write = true then
        t.mem = s.mem ∧ t.host.reply = h.reply ∧ t.host.replyOk = h.replyOk ∧ r ∈ t.host.heldPorts
      else if r.write = true then
        t.host.reply = h.reply ∧
        if ok = true then ∀ b, t.mem.byte b = if r.addr ≤ b ∧ b < r.addr + n then r.data.getD (b - r.addr) 0 else s.mem.byte b
        else t.mem = s.mem
      else
        t.mem = s.mem ∧
        if ok = true ∧ s.mem.badRange r.addr n = false then
          t.host.replyOk = true ∧ t.host.reply.length = n ∧ ∀ k, k < n → t.host.reply[k]? = some (s.mem.byte (r.addr + k))
        else t.host.replyOk = false ∧ t.host.reply = []) ∧
    ∃ t, exec (.controlCoreAccess a) s = .next t ∧ (a.addr < deviceTop → t.groups = s.groups ∧ t.ctxs = s.ctxs ∧ t.part = s.part) ∧
      let hart := 32 * a.part + a.hart
      let set := a.addr / 8 * 8 + 1
      let plain : Prop := a.op = .load ∨ a.op = .store
      let legal : Prop := (a.size = 4 ∨ a.size = 8 ∨ plain ∧ (a.size = 1 ∨ a.size = 2)) ∧ a.addr % a.size = 0
      let reads : Prop := a.op ≠ .store ∧ a.op ≠ .sc
      let m := s.mem.coreRead a.addr a.size
      let same (k : Mem) : Prop := ∀ b, b < a.addr ∨ a.addr + a.size ≤ b → t.mem.byte b = k.byte b
      let w := 8 * a.size
      let old : BitVec w := BitVec.ofNat w (m.read a.addr a.size)
      let x : BitVec w := BitVec.ofNat w a.data.toNat
      let amo (v : BitVec w) : Prop :=
        t.mem.read a.addr a.size = v.toNat ∧ t.host.coreReply = old.setWidth 64 ∧ same m ∧ ∀ k, Store.get t.mem.rsets 0 k ≠ set
      let v := x.toNat
      let s0 : State := { s with host := { h with heldCores := h.heldCores.erase a } }
      if s.lockedPhys a.addr a.size (a.op ≠ .load ∧ a.op ≠ .lr) = true ∨ s.coreWaits a = true then t.mem = s.mem ∧ a ∈ t.host.heldCores
      else if ¬ legal then t = s0
      else if deviceTop ≤ a.addr then
        match (if s.svcLevel = 15 then none else windowAt a.part a.hart a.addr), a.op with
        | some (win, o), .load => t = { s0 with host := { s0.host with coreReply := BitVec.ofNat 64 (s.windowRead win o a.size) } }
        | some (win, o), .store => exec (.registerWrite win o (bytesOf a.size a.data.toNat)) s0 = .next t
        | some (win, o), .add =>
          if win = .enq a.part ∧ o % 128 = 0x40 ∧ a.size = 8 then exec (.doorbell a.part (o / 4096) (o % 4096 / 128) a.data a.rel) s0 = .next t
          else t = s0
        | _, _ => t = s0
      else if s.fwPass a.part none a.addr = false then t = s0
      else if reads ∧ m.badRange a.addr a.size = true then t.mem = m ∧ t.host.coreReply = h.coreReply
      else match a.op with
        | .load => t.mem = m ∧ t.host.coreReply = old.setWidth 64
        | .lr => { t.mem with rsets := m.rsets } = m ∧ t.host.coreReply = old.setWidth 64 ∧ Store.get t.mem.rsets 0 hart = set
        | .store => t.mem.read a.addr a.size = v ∧ same s.mem ∧ ∀ k, Store.get t.mem.rsets 0 k ≠ set
        | .sc =>
          if Store.get s.mem.rsets 0 hart = set then
            t.host.coreReply = 0 ∧ t.mem.read a.addr a.size = v ∧ same s.mem ∧ ∀ k, Store.get t.mem.rsets 0 k ≠ set
          else t.host.coreReply = 1 ∧ t.mem.home = s.mem.home ∧ Store.get t.mem.rsets 0 hart = 0
        | .swap => amo x
        | .add => amo (old + x)
        | .and => amo (old &&& x)
        | .or => amo (old ||| x)
        | .xor => amo (old ^^^ x)
        | .min => amo (if old.toInt < x.toInt then old else x)
        | .max => amo (if old.toInt < x.toInt then x else old)
        | .minu => amo (if old.toNat < x.toNat then old else x)
        | .maxu => amo (if old.toNat < x.toNat then x else old)

/-- What the windows read (08 R221; 13 R359; 20 R456, R459): the partition's counters of the memory status block, the counters of a queue
summed over its shards, zero at a doorbell, and the partition entries. -/
def Parts.WindowReads : Prop :=
  ∀ (p n hart : Nat) (s : State), p < 40 → n < 4096 → hart < 32 →
    let area := 4096 * n + 128 * hart
    s.windowRead (.ctl p hart) 0x60 8 = (Store.get s.mem.conflict 0 p).toNat ∧
    s.windowRead (.ctl p hart) 0x68 8 = (Store.get s.mem.forced 0 p).toNat ∧
    (∀ k, k < 8 → s.windowRead .hyper (64 * p + 8 * k) 8 = (recWord (s.partEntry p) k).toNat) ∧
    s.windowRead (.enq p) (area + 0x40) 8 = 0 ∧
    (∀ k, k < 8 → s.windowRead (.enq p) (area + 8 * k) 8 = (recWord (Store.get s.work.stage 0 (stageKey p n hart)) k).toNat) ∧
    ∀ q, s.unit p 4 n = some q →
      let sum (f : Nat → W64) : W64 := (List.range (qNum (s.qdesc q))).foldl (fun a k => a + f k) 0
      s.windowRead (.enq p) (area + 0x48) 8 = (sum (s.qHead q)).toNat ∧ s.windowRead (.enq p) (area + 0x50) 8 = (sum (s.qTail q)).toNat

/-- Ports, control cores and what the windows read (08 R217, R221, R230; 13 R359; 20 R456, R459, R464; 21 R496). -/
def Obligations.PortResults : Prop :=
  Parts.PortResults ∧ Parts.WindowReads

/-! ### Encodings and the step (chapters 02 and 04) -/

/-- Decoding an encoded well-formed instruction gives it back, and a word that decodes is the encoding of a well-formed instruction (04 R90 to R106): no
bit of an encoding is dropped, and no two words stand for one instruction. -/
def Obligations.DecodeEncodeRoundTrip : Prop :=
  (∀ (i : Instr) (w : W64) (lit : Option W64), i.wf = true → encode i = some (w, lit) →
    let k : Kind := match i with
      | .pairWord _ _ => .pair
      | _ => .full
    let b := Bundle.single k w lit
    (k = .pair → decodePair w = .ok i ∧ lit = none) ∧ (k = .full → decodeFull w lit = .ok i) ∧
      checkCtl b.ctl = none ∧ b.issues 1 = true ∧ b.decode 1 = .ok i ∧ [2, 3].all (fun n => !b.issues n) = true) ∧
  (∀ (i : Instr) (w : W64) (lit : Option W64), decodeFull w lit = .ok i → i.wf = true ∧ encode i = some (w, lit)) ∧
  ∀ (i : Instr) (w : W64), decodePair w = .ok i → i.wf = true ∧ encode i = some (w, none)

/-- Worked encodings of the manual decode to the forms that they stand for (04 R95 to R106 with their example; 06, 07, 09, 10, 11, 12, 15 to 17). -/
def Parts.WorkedWordsDecode : Prop :=
  let f (lit : Option W64) (d a b c : Operand) : Full := ⟨false, 7, lit, d, a, b, c⟩
  let x : Operand := .null
  let plain : MemMod := ⟨0, false, .plain, .rlx, .g⟩
  let b1 : Bundle := ⟨0x111D, 0x001FFFFFFF000917, 0x186A0, 0x1C1C04FFC0400682⟩
  let b2 : Bundle := ⟨0x1006, 0x0709082207070602, 0x001FFF0180102800, 0⟩
  checkCtl b1.ctl = none ∧ b1.issues 2 = false ∧ ctlMarker b1.ctl 3 = true ∧ ctlMarker b1.ctl 1 = false ∧
  b1.decode 1 = .ok (.mov (f (some 0x186A0) (.v 2) .litLo x x) ⟨0, false, .rne, .i32⟩) ∧
  b1.decode 3 = .ok (.ld (f none (.v 1) (.v 4) x x) 2 plain 4) ∧
  checkCtl b2.ctl = none ∧ b2.issues 3 = false ∧
  b2.decode 1 = .ok (.pairWord (.op .iadd .rne false 7 (.v 6) (.v 7)) (.op .fmul .rne false 7 (.v 8) (.v 9))) ∧
  b2.decode 2 = .ok (.iadd (f none (.v 10) (.v 1) (.v 6) x) ⟨0, false, .rne, .i32⟩) ∧
  decodeFull 0x401FFFFC0010080C (some 0x3E8) = .ok (.icmp (f (some 0x3E8) x (.v 1) .litLo x) ⟨2, false, .rne, .i32⟩ 2) ∧
  decodeFull 0x061C030080101483 none = .ok (.ffma (f none (.v 5) (.v 1) (.v 2) (.v 3)) ⟨0, false, .rtz, .f32⟩) ∧
  decodeFull 0x0007FFFFFFFFF600 none = .ok (.br { f none x x x x with guard := 1 } (BitVec.ofInt 30 (-3))) ∧
  decodeFull 0x009FFFFFFFFFFE10 none = .ok (.barSync (f none x x x x) 2) ∧
  decodeFull 0x081C0000B8200EB0 none = .ok (.red (f none (.v 3) (.g 2) (.v 2) x) 0 ⟨0, false, .clu, .rlx, .g⟩ 0) ∧
  decodeFull 0x005C0005814066A2 none = .ok (.atom (f none (.v 25) (.v 20) (.v 22) x) 0x12 ⟨0, false, .grp, .rlx, .s⟩ 0) ∧
  decodeFull 0x1C1C0080000F0312 none = .ok (.aload (f none (.q 0) x x x) 0 2 plain 0x200 0) ∧
  decodeFull 0x001FA20000000320 none = .ok (.aloop (f none x x x (.k 2)) 0 0) ∧
  decodeFull 0x401FA7D1744FFF86 none = .ok (.mact (f none x (.s 4) (.s 5) (.k 7)) 0 1) ∧
  decodeFull 0x001FFFFFF8004343 none = .ok (.hqget (f none (.v 16) (.g 0) x x)) ∧
  decodeFull 0x001FFF01804FFFC7 none = .ok (.vbw (f none x (.v 4) (.v 6) x)) ∧
  decodeFull 0x805FFFFFF1EFFE79 none = .ok (.swr (f none x (.o 30) x x) true 1) ∧
  decodeFull 0x001FFFFFFFFFFE78 none = .ok (.tret (f none x x x x))

/-- A step runs the instruction that it decodes (02 R37 to R43; 04 R95, R96): where nothing external is due, the stream whose turn it is fetches its bundle
and the form decoded from the next slot that issues takes its effect, with the program counter after it in hand; the switch marker of its slot acts,
and what is due settles. The second place of an issue pair runs in the same way, and an external event that is due is the step. -/
def Obligations.StepRunsDecoded : Prop :=
  ∀ (s : State) (b : Bundle) (u : State) (k : Nat) (i : Instr),
    (∀ (t : Target) (p : Option Place), s.agenda = [] → s.cur.partner = none → s.rot % 2 = 0 → s.nextIssue = some (t, p) →
      ((s.tick (pickedBy t p)).passTurn t).fetchBundle t.grp t.pc = .ok (b, u) → entrySlot b (slotOf t.pc) = some k → checkCtl b.ctl = none →
      b.decode k = .ok i →
      let v := u.atSlot t b k p
      v.cur.pc = bundleOf t.pc + BitVec.ofNat 64 (8 * k) ∧ v.cur.npc = slotAfter b t.pc k ∧ v.cur.lanes = t.lanes ∧
      step s = mapNext (fun w => ((w.meetMarker v).close).settle s) (exec i v)) ∧
    (∀ q : Place, s.agenda = [] → s.cur.partner = some q →
      let s0 : State := { s with cur := Cur.none }
      ∀ t, s0.partnerNow q = some t → s0.fetchBundle t.grp t.pc = .ok (b, u) → entrySlot b (slotOf t.pc) = some k → checkCtl b.ctl = none →
      b.decode k = .ok i →
      let v := u.atSlot t b k none
      t.pc = q.pc ∧ (∃ y ∈ (s0.warp q.grp q.wid).splits, y.lanes = t.lanes ∧ y.pc = q.pc ∧ y.lanes &&& ~~~q.lanes = 0) ∧
      step s = mapNext (fun w => ((w.meetMarker v).close).settle s) (exec i v)) ∧
    (∀ l, s.agenda = i :: l → step s = mapNext (·.settle s) (exec i { s with agenda := l })) ∧
    ∀ g pc, s.fetchBundle g pc = .ok (b, u) → canonical (bundleOf pc) = true ∧
      ∃ a, s.translate (s.gctx g) (bundleOf pc).toNat .fetch = .ok (a, u) ∧ u.mem.badRange a 32 = false ∧
        ∀ n, n < 8 → b.ctl.extractLsb' (8 * n) 8 = u.mem.byte (a + n) ∧ b.w1.extractLsb' (8 * n) 8 = u.mem.byte (a + 8 + n) ∧
          b.w2.extractLsb' (8 * n) 8 = u.mem.byte (a + 16 + n) ∧ b.w3.extractLsb' (8 * n) 8 = u.mem.byte (a + 24 + n)

/-- Every step answers a next state, whatever the state, as long as what is due from outside is an event and no encoded form: no instruction is refused,
and no form executes where no stream stands at an issue. -/
def Obligations.EveryStepCompletes : Prop :=
  ∀ s : State, (∀ i ∈ s.agenda, encode i = none) → ∃ t, step s = .next t

/-- The regang rule (02 R37): after every step, from any state, no two unparked splits of one warp stand at one slot, except while the second place of an
issue pair is still to issue. -/
def Obligations.StepKeepsSplitsMerged : Prop :=
  ∀ s t : State, step s = .next t → t.cur.partner.isSome = true ∨
    ∀ g ∈ t.groups, ∀ w ∈ g.2.warps, w.2.splits.Pairwise fun x y =>
      ¬ (x.wait = .ready ∧ y.wait = .ready ∧ slotAddr x.pc = slotAddr y.pc ∧ x.trapped = y.trapped ∧ x.mark = y.mark)

/-- The machine after reset (19 R451; 20 R456 to R463, R472; 21 R488, R492): nothing is resident, every table of every window is empty, no level has been
reached, memory is in its canonical form, and the regang rule holds. -/
def Parts.ResetState : Prop :=
  let r := State.reset
  Sys2Proof.core.reset = r ∧ r.groups = [] ∧ r.cohorts = [] ∧ r.ctxs = [] ∧ r.cur.valid = false ∧ r.cur.partner = none ∧ r.mem.wf = true ∧ r.mem.tlb = [] ∧
  r.svcLevel = 0 ∧ r.host.errsum = 0 ∧ r.host.ckptAddr = 0 ∧ r.host.ckptStat = 0 ∧ r.part.entries = [] ∧ r.part.fw = [] ∧ r.part.place = [] ∧
  r.part.hverr = 0 ∧ r.sec.worlds = [] ∧ r.sec.slots = [] ∧ r.sec.counter = 0 ∧
  (∀ g ∈ r.groups, ∀ w ∈ g.2.warps, w.2.splits.Pairwise fun x y => ¬ (x.wait = .ready ∧ y.wait = .ready ∧ slotAddr x.pc = slotAddr y.pc)) ∧
  (∀ k, Warp.blank.wdlimit = 1048576 ∧ Warp.blank.fstat = 0 ∧ Warp.blank.level = false ∧ Warp.blank.tcause = 0 ∧ Warp.blank.tpc = 0 ∧ r.ctx k = Ctx.blank)

/-- Two sanity statements: worked encodings of the manual decode to the forms that they stand for (04 R90 to R106), and what reset leaves (19 R451; 20 R456 to R463; 21 R488, R492). That registers without a stated reset value read zero is the model's choice (notes/assumptions/1.md, 5.md). -/
def Obligations.ResetAndWorkedWords : Prop :=
  Parts.WorkedWordsDecode ∧ Parts.ResetState
end

