-- ==== Sys2Proof/Laws/Store.lean ====
section
/-!
SUPPORT. What a sparse store reads after a write, and that every write keeps its canonical form.
-/

namespace Sys2Proof

variable {α : Type}

theorem Store.get_erase_same (s : Store α) (d : α) (k : Nat) : Store.get (Store.erase s k) d k = d := by
  induction s with
  | nil => rfl
  | cons p r ih =>
    obtain ⟨n, x⟩ := p
    by_cases h : n = k
    · simpa [Store.erase, h] using ih
    · have : Store.erase ((n, x) :: r) k = (n, x) :: Store.erase r k := by simp [Store.erase, h]
      rw [this, Store.get, if_neg h, ih]

theorem Store.get_erase_ne (s : Store α) (d : α) {k n : Nat} (h : n ≠ k) :
    Store.get (Store.erase s k) d n = Store.get s d n := by
  induction s with
  | nil => rfl
  | cons p r ih =>
    obtain ⟨m, x⟩ := p
    by_cases hm : m = k
    · have : Store.erase ((m, x) :: r) k = Store.erase r k := by simp [Store.erase, hm]
      rw [this, ih, Store.get, if_neg (by omega)]
    · have : Store.erase ((m, x) :: r) k = (m, x) :: Store.erase r k := by simp [Store.erase, hm]
      rw [this, Store.get, Store.get, ih]

theorem Store.get_insert_ne (s : Store α) (d x : α) {k n : Nat} (h : n ≠ k) :
    Store.get (Store.insert s k x) d n = Store.get s d n := by
  induction s with
  | nil => simp [Store.insert, Store.get, Ne.symm h]
  | cons p r ih =>
    simp only [Store.insert]
    split
    · rw [Store.get, if_neg (Ne.symm h)]
    · rw [Store.get, Store.get, ih]

theorem Store.get_insert_same (s : Store α) (d x : α) (k : Nat) (h : ∀ p ∈ s, p.1 ≠ k) :
    Store.get (Store.insert s k x) d k = x := by
  induction s with
  | nil => simp [Store.insert, Store.get]
  | cons p r ih =>
    simp only [Store.insert]
    split
    · simp [Store.get]
    · rw [Store.get, if_neg (h p (by simp)), ih fun q hq => h q (by simp [hq])]

theorem Store.erase_no_key (s : Store α) (k : Nat) : ∀ p ∈ Store.erase s k, p.1 ≠ k := by
  intro p hp
  simpa using (List.mem_filter.mp hp).2

/-- A read after a write to the same number. -/
@[simp] theorem Store.get_put_same [DecidableEq α] (s : Store α) (d x : α) (k : Nat) : Store.get (Store.put s d k x) d k = x := by
  unfold Store.put
  split
  · rename_i h
    rw [Store.get_erase_same, h]
  · exact Store.get_insert_same _ d x k (Store.erase_no_key s k)

/-- A write leaves every other number alone. -/
theorem Store.get_put_ne [DecidableEq α] (s : Store α) (d x : α) {k n : Nat} (h : n ≠ k) :
    Store.get (Store.put s d k x) d n = Store.get s d n := by
  unfold Store.put
  split
  · exact Store.get_erase_ne s d h
  · rw [Store.get_insert_ne _ d x h, Store.get_erase_ne s d h]

theorem Store.get_put [DecidableEq α] (s : Store α) (d x : α) (k n : Nat) :
    Store.get (Store.put s d k x) d n = if n = k then x else Store.get s d n := by
  split
  · rename_i h; subst h; exact Store.get_put_same s d x n
  · rename_i h; exact Store.get_put_ne s d x h

theorem Store.rising_mono (s : Store α) {a b : Nat} (hab : a ≤ b) (h : Store.rising s b = true) : Store.rising s a = true := by
  cases s with
  | nil => rfl
  | cons p r =>
    simp only [Store.rising, Bool.and_eq_true, decide_eq_true_eq] at h ⊢
    exact ⟨by omega, h.2⟩

theorem Store.rising_erase (s : Store α) (k b : Nat) (h : Store.rising s b = true) : Store.rising (Store.erase s k) b = true := by
  induction s generalizing b with
  | nil => rfl
  | cons p r ih =>
    simp only [Store.rising, Bool.and_eq_true, decide_eq_true_eq] at h
    have h2 := ih (p.1 + 1) h.2
    by_cases hp : p.1 = k
    · have : Store.erase (p :: r) k = Store.erase r k := by simp [Store.erase, hp]
      rw [this]
      exact Store.rising_mono _ (by omega) h2
    · have : Store.erase (p :: r) k = p :: Store.erase r k := by simp [Store.erase, hp]
      rw [this]
      simp only [Store.rising, Bool.and_eq_true, decide_eq_true_eq]
      exact ⟨h.1, h2⟩

theorem Store.rising_insert (s : Store α) (k b : Nat) (x : α) (hb : b ≤ k) (h : Store.rising s b = true)
    (hk : ∀ p ∈ s, p.1 ≠ k) : Store.rising (Store.insert s k x) b = true := by
  induction s generalizing b with
  | nil => simp [Store.insert, Store.rising, hb]
  | cons p r ih =>
    simp only [Store.rising, Bool.and_eq_true, decide_eq_true_eq] at h
    have hne := hk p (by simp)
    simp only [Store.insert]
    split
    · rename_i hlt
      simp only [Store.rising, Bool.and_eq_true, decide_eq_true_eq]
      exact ⟨hb, by omega, h.2⟩
    · simp only [Store.rising, Bool.and_eq_true, decide_eq_true_eq]
      exact ⟨h.1, ih (p.1 + 1) (by omega) h.2 fun q hq => hk q (by simp [hq])⟩

theorem Store.mem_insert (s : Store α) (k : Nat) (x : α) : ∀ p ∈ Store.insert s k x, p = (k, x) ∨ p ∈ s := by
  induction s with
  | nil => intro p hp; simpa [Store.insert] using hp
  | cons q r ih =>
    intro p hp
    simp only [Store.insert] at hp
    split at hp
    · simpa using hp
    · rcases List.mem_cons.mp hp with h | h
      · exact .inr (by simp [h])
      · rcases ih p h with h | h
        · exact .inl h
        · exact .inr (by simp [h])

/-- A write keeps the canonical form. -/
theorem Store.wf_put [DecidableEq α] (s : Store α) (d x : α) (k : Nat) (h : Store.wf s d = true) :
    Store.wf (Store.put s d k x) d = true := by
  simp only [Store.wf, Bool.and_eq_true, List.all_eq_true, bne_iff_ne] at h ⊢
  have he : ∀ p ∈ Store.erase s k, p.2 ≠ d := fun p hp => h.2 p (List.mem_filter.mp hp).1
  have hr := Store.rising_erase s k 0 h.1
  unfold Store.put
  split
  · exact ⟨hr, he⟩
  · rename_i hx
    refine ⟨Store.rising_insert _ k 0 x (by omega) hr (Store.erase_no_key s k), ?_⟩
    intro p hp
    rcases Store.mem_insert _ k x p hp with h' | h'
    · simpa [h'] using hx
    · exact he p h'

theorem Store.get_erase [DecidableEq α] (s : Store α) (d : α) (k n : Nat) :
    Store.get (Store.erase s k) d n = if n = k then d else Store.get s d n := by
  split
  · rename_i h; subst h; exact Store.get_erase_same s d n
  · rename_i h; exact Store.get_erase_ne s d h

theorem Store.wf_erase [DecidableEq α] (s : Store α) (d : α) (k : Nat) (h : Store.wf s d = true) :
    Store.wf (Store.erase s k) d = true := by
  simp only [Store.wf, Bool.and_eq_true, List.all_eq_true, bne_iff_ne] at h ⊢
  exact ⟨Store.rising_erase s k 0 h.1, fun p hp => h.2 p (List.mem_filter.mp hp).1⟩

theorem Store.rising_lt (s : Store α) (b : Nat) (h : Store.rising s b = true) : ∀ p ∈ s, b ≤ p.1 := by
  induction s generalizing b with
  | nil => intro p hp; cases hp
  | cons q r ih =>
    simp only [Store.rising, Bool.and_eq_true, decide_eq_true_eq] at h
    intro p hp
    rcases List.mem_cons.mp hp with hp | hp
    · rw [hp]; exact h.1
    · have := ih (q.1 + 1) h.2 p hp; omega

/-- Two stores in canonical form that read alike are equal. -/
theorem Store.ext_of_wf [DecidableEq α] (s t : Store α) (d : α) (hs : Store.wf s d = true) (ht : Store.wf t d = true)
    (h : ∀ k, Store.get s d k = Store.get t d k) : s = t := by
  have key : ∀ (s t : Store α) (b : Nat), Store.rising s b = true → Store.rising t b = true → (∀ p ∈ s, p.2 ≠ d) →
      (∀ p ∈ t, p.2 ≠ d) → (∀ k, Store.get s d k = Store.get t d k) → s = t := by
    intro s
    induction s with
    | nil =>
      intro t b _ _ _ ht h
      cases t with
      | nil => rfl
      | cons q r =>
        have := h q.1
        simp [Store.get] at this
        exact absurd this.symm (ht q (by simp))
    | cons p r ih =>
      intro t b hs ht hsd htd h
      cases t with
      | nil =>
        have := h p.1
        simp [Store.get] at this
        exact absurd this (hsd p (by simp))
      | cons q r' =>
        simp only [Store.rising, Bool.and_eq_true, decide_eq_true_eq] at hs ht
        have low : ∀ (l : Store α) (b : Nat) (k : Nat), Store.rising l b = true → k < b → Store.get l d k = d := by
          intro l
          induction l with
          | nil => intros; rfl
          | cons u v ihl =>
            intro b k hl hk
            simp only [Store.rising, Bool.and_eq_true, decide_eq_true_eq] at hl
            rw [Store.get, if_neg (by omega)]
            exact ihl (u.1 + 1) k hl.2 (by omega)
        have hpq : p.1 = q.1 := by
          rcases Nat.lt_trichotomy p.1 q.1 with hlt | heq | hgt
          · exfalso
            have := h p.1
            rw [Store.get, if_pos rfl, Store.get, if_neg (by omega), low r' (q.1 + 1) p.1 ht.2 (by omega)] at this
            exact hsd p (by simp) this
          · exact heq
          · exfalso
            have := h q.1
            rw [Store.get, if_neg (by omega), low r (p.1 + 1) q.1 hs.2 (by omega), Store.get, if_pos rfl] at this
            exact htd q (by simp) this.symm
        have hx : p.2 = q.2 := by
          have := h p.1
          rw [Store.get, if_pos rfl, Store.get, if_pos hpq.symm] at this
          exact this
        have hpe : p = q := Prod.ext hpq hx
        have hr : r = r' := by
          refine ih r' (p.1 + 1) hs.2 (by rw [hpq]; exact ht.2) (fun u hu => hsd u (by simp [hu]))
            (fun u hu => htd u (by simp [hu])) ?_
          intro k
          by_cases hk : p.1 = k
          · subst hk
            rw [low r _ _ hs.2 (by omega), low r' _ _ ht.2 (by omega)]
          · have := h k
            rw [Store.get, if_neg hk, Store.get, if_neg (by omega)] at this
            exact this
        rw [hpe, hr]
  simp only [Store.wf, Bool.and_eq_true, List.all_eq_true, bne_iff_ne] at hs ht
  exact key s t 0 hs.1 ht.1 hs.2 ht.2 h

end Sys2Proof
end

