-- ==== Sys2Proof/Laws/State.lean ====
section
/-!
SUPPORT. What each update of the state leaves alone, field by field, and what it reads as afterwards.
-/

namespace Sys2Proof.Machine

/-! ### Fields of the state under an update -/

@[simp] theorem State.modGroup_cur (s : State) (g : Nat) (f : Group → Group) : (s.modGroup g f).cur = s.cur := rfl
@[simp] theorem State.modGroup_agenda (s : State) (g : Nat) (f : Group → Group) : (s.modGroup g f).agenda = s.agenda := rfl
@[simp] theorem State.modGroup_draws (s : State) (g : Nat) (f : Group → Group) : (s.modGroup g f).draws = s.draws := rfl
@[simp] theorem State.modGroup_rot (s : State) (g : Nat) (f : Group → Group) : (s.modGroup g f).rot = s.rot := rfl
@[simp] theorem State.modGroup_time (s : State) (g : Nat) (f : Group → Group) : (s.modGroup g f).time = s.time := rfl
@[simp] theorem State.modGroup_cohorts (s : State) (g : Nat) (f : Group → Group) : (s.modGroup g f).cohorts = s.cohorts := rfl
@[simp] theorem State.modGroup_mem (s : State) (g : Nat) (f : Group → Group) : (s.modGroup g f).mem = s.mem := rfl
@[simp] theorem State.modGroup_ctxs (s : State) (g : Nat) (f : Group → Group) : (s.modGroup g f).ctxs = s.ctxs := rfl
@[simp] theorem State.modGroup_work (s : State) (g : Nat) (f : Group → Group) : (s.modGroup g f).work = s.work := rfl
@[simp] theorem State.modGroup_eng (s : State) (g : Nat) (f : Group → Group) : (s.modGroup g f).eng = s.eng := rfl
@[simp] theorem State.modGroup_faults (s : State) (g : Nat) (f : Group → Group) : (s.modGroup g f).faults = s.faults := rfl
@[simp] theorem State.modGroup_verdicts (s : State) (g : Nat) (f : Group → Group) : (s.modGroup g f).verdicts = s.verdicts := rfl
@[simp] theorem State.modGroup_nextTok (s : State) (g : Nat) (f : Group → Group) : (s.modGroup g f).nextTok = s.nextTok := rfl
@[simp] theorem State.modGroup_part (s : State) (g : Nat) (f : Group → Group) : (s.modGroup g f).part = s.part := rfl
@[simp] theorem State.modGroup_sec (s : State) (g : Nat) (f : Group → Group) : (s.modGroup g f).sec = s.sec := rfl
@[simp] theorem State.modGroup_host (s : State) (g : Nat) (f : Group → Group) : (s.modGroup g f).host = s.host := rfl

@[simp] theorem State.modWarp_cur (s : State) (g w : Nat) (f : Warp → Warp) : (s.modWarp g w f).cur = s.cur := rfl
@[simp] theorem State.modWarp_agenda (s : State) (g w : Nat) (f : Warp → Warp) : (s.modWarp g w f).agenda = s.agenda := rfl
@[simp] theorem State.modWarp_draws (s : State) (g w : Nat) (f : Warp → Warp) : (s.modWarp g w f).draws = s.draws := rfl
@[simp] theorem State.modWarp_rot (s : State) (g w : Nat) (f : Warp → Warp) : (s.modWarp g w f).rot = s.rot := rfl
@[simp] theorem State.modWarp_time (s : State) (g w : Nat) (f : Warp → Warp) : (s.modWarp g w f).time = s.time := rfl
@[simp] theorem State.modWarp_cohorts (s : State) (g w : Nat) (f : Warp → Warp) : (s.modWarp g w f).cohorts = s.cohorts := rfl
@[simp] theorem State.modWarp_mem (s : State) (g w : Nat) (f : Warp → Warp) : (s.modWarp g w f).mem = s.mem := rfl
@[simp] theorem State.modWarp_ctxs (s : State) (g w : Nat) (f : Warp → Warp) : (s.modWarp g w f).ctxs = s.ctxs := rfl
@[simp] theorem State.modWarp_work (s : State) (g w : Nat) (f : Warp → Warp) : (s.modWarp g w f).work = s.work := rfl
@[simp] theorem State.modWarp_eng (s : State) (g w : Nat) (f : Warp → Warp) : (s.modWarp g w f).eng = s.eng := rfl
@[simp] theorem State.modWarp_faults (s : State) (g w : Nat) (f : Warp → Warp) : (s.modWarp g w f).faults = s.faults := rfl
@[simp] theorem State.modWarp_verdicts (s : State) (g w : Nat) (f : Warp → Warp) : (s.modWarp g w f).verdicts = s.verdicts := rfl
@[simp] theorem State.modWarp_nextTok (s : State) (g w : Nat) (f : Warp → Warp) : (s.modWarp g w f).nextTok = s.nextTok := rfl
@[simp] theorem State.modWarp_part (s : State) (g w : Nat) (f : Warp → Warp) : (s.modWarp g w f).part = s.part := rfl
@[simp] theorem State.modWarp_sec (s : State) (g w : Nat) (f : Warp → Warp) : (s.modWarp g w f).sec = s.sec := rfl
@[simp] theorem State.modWarp_host (s : State) (g w : Nat) (f : Warp → Warp) : (s.modWarp g w f).host = s.host := rfl

@[simp] theorem State.modStream_cur (s : State) (g : Nat) (st : Strm) (f : Stream → Stream) : (s.modStream g st f).cur = s.cur := rfl
@[simp] theorem State.modStream_agenda (s : State) (g : Nat) (st : Strm) (f : Stream → Stream) : (s.modStream g st f).agenda = s.agenda := rfl
@[simp] theorem State.modStream_draws (s : State) (g : Nat) (st : Strm) (f : Stream → Stream) : (s.modStream g st f).draws = s.draws := rfl
@[simp] theorem State.modStream_rot (s : State) (g : Nat) (st : Strm) (f : Stream → Stream) : (s.modStream g st f).rot = s.rot := rfl
@[simp] theorem State.modStream_time (s : State) (g : Nat) (st : Strm) (f : Stream → Stream) : (s.modStream g st f).time = s.time := rfl
@[simp] theorem State.modStream_cohorts (s : State) (g : Nat) (st : Strm) (f : Stream → Stream) : (s.modStream g st f).cohorts = s.cohorts := rfl
@[simp] theorem State.modStream_mem (s : State) (g : Nat) (st : Strm) (f : Stream → Stream) : (s.modStream g st f).mem = s.mem := rfl
@[simp] theorem State.modStream_ctxs (s : State) (g : Nat) (st : Strm) (f : Stream → Stream) : (s.modStream g st f).ctxs = s.ctxs := rfl
@[simp] theorem State.modStream_work (s : State) (g : Nat) (st : Strm) (f : Stream → Stream) : (s.modStream g st f).work = s.work := rfl
@[simp] theorem State.modStream_eng (s : State) (g : Nat) (st : Strm) (f : Stream → Stream) : (s.modStream g st f).eng = s.eng := rfl
@[simp] theorem State.modStream_faults (s : State) (g : Nat) (st : Strm) (f : Stream → Stream) : (s.modStream g st f).faults = s.faults := rfl
@[simp] theorem State.modStream_verdicts (s : State) (g : Nat) (st : Strm) (f : Stream → Stream) : (s.modStream g st f).verdicts = s.verdicts := rfl
@[simp] theorem State.modStream_nextTok (s : State) (g : Nat) (st : Strm) (f : Stream → Stream) : (s.modStream g st f).nextTok = s.nextTok := rfl
@[simp] theorem State.modStream_part (s : State) (g : Nat) (st : Strm) (f : Stream → Stream) : (s.modStream g st f).part = s.part := rfl
@[simp] theorem State.modStream_sec (s : State) (g : Nat) (st : Strm) (f : Stream → Stream) : (s.modStream g st f).sec = s.sec := rfl
@[simp] theorem State.modStream_host (s : State) (g : Nat) (st : Strm) (f : Stream → Stream) : (s.modStream g st f).host = s.host := rfl

@[simp] theorem State.modCur_cur (s : State) (f : Group → Group) : (s.modCur f).cur = s.cur := rfl
@[simp] theorem State.modCur_agenda (s : State) (f : Group → Group) : (s.modCur f).agenda = s.agenda := rfl
@[simp] theorem State.modCur_draws (s : State) (f : Group → Group) : (s.modCur f).draws = s.draws := rfl
@[simp] theorem State.modCur_rot (s : State) (f : Group → Group) : (s.modCur f).rot = s.rot := rfl
@[simp] theorem State.modCur_time (s : State) (f : Group → Group) : (s.modCur f).time = s.time := rfl
@[simp] theorem State.modCur_cohorts (s : State) (f : Group → Group) : (s.modCur f).cohorts = s.cohorts := rfl
@[simp] theorem State.modCur_mem (s : State) (f : Group → Group) : (s.modCur f).mem = s.mem := rfl
@[simp] theorem State.modCur_ctxs (s : State) (f : Group → Group) : (s.modCur f).ctxs = s.ctxs := rfl
@[simp] theorem State.modCur_work (s : State) (f : Group → Group) : (s.modCur f).work = s.work := rfl
@[simp] theorem State.modCur_eng (s : State) (f : Group → Group) : (s.modCur f).eng = s.eng := rfl
@[simp] theorem State.modCur_faults (s : State) (f : Group → Group) : (s.modCur f).faults = s.faults := rfl
@[simp] theorem State.modCur_verdicts (s : State) (f : Group → Group) : (s.modCur f).verdicts = s.verdicts := rfl
@[simp] theorem State.modCur_nextTok (s : State) (f : Group → Group) : (s.modCur f).nextTok = s.nextTok := rfl
@[simp] theorem State.modCur_part (s : State) (f : Group → Group) : (s.modCur f).part = s.part := rfl
@[simp] theorem State.modCur_sec (s : State) (f : Group → Group) : (s.modCur f).sec = s.sec := rfl
@[simp] theorem State.modCur_host (s : State) (f : Group → Group) : (s.modCur f).host = s.host := rfl

@[simp] theorem State.modCurWarp_cur (s : State) (f : Warp → Warp) : (s.modCurWarp f).cur = s.cur := rfl
@[simp] theorem State.modCurWarp_agenda (s : State) (f : Warp → Warp) : (s.modCurWarp f).agenda = s.agenda := rfl
@[simp] theorem State.modCurWarp_draws (s : State) (f : Warp → Warp) : (s.modCurWarp f).draws = s.draws := rfl
@[simp] theorem State.modCurWarp_rot (s : State) (f : Warp → Warp) : (s.modCurWarp f).rot = s.rot := rfl
@[simp] theorem State.modCurWarp_time (s : State) (f : Warp → Warp) : (s.modCurWarp f).time = s.time := rfl
@[simp] theorem State.modCurWarp_cohorts (s : State) (f : Warp → Warp) : (s.modCurWarp f).cohorts = s.cohorts := rfl
@[simp] theorem State.modCurWarp_mem (s : State) (f : Warp → Warp) : (s.modCurWarp f).mem = s.mem := rfl
@[simp] theorem State.modCurWarp_ctxs (s : State) (f : Warp → Warp) : (s.modCurWarp f).ctxs = s.ctxs := rfl
@[simp] theorem State.modCurWarp_work (s : State) (f : Warp → Warp) : (s.modCurWarp f).work = s.work := rfl
@[simp] theorem State.modCurWarp_eng (s : State) (f : Warp → Warp) : (s.modCurWarp f).eng = s.eng := rfl
@[simp] theorem State.modCurWarp_faults (s : State) (f : Warp → Warp) : (s.modCurWarp f).faults = s.faults := rfl
@[simp] theorem State.modCurWarp_verdicts (s : State) (f : Warp → Warp) : (s.modCurWarp f).verdicts = s.verdicts := rfl
@[simp] theorem State.modCurWarp_nextTok (s : State) (f : Warp → Warp) : (s.modCurWarp f).nextTok = s.nextTok := rfl
@[simp] theorem State.modCurWarp_part (s : State) (f : Warp → Warp) : (s.modCurWarp f).part = s.part := rfl
@[simp] theorem State.modCurWarp_sec (s : State) (f : Warp → Warp) : (s.modCurWarp f).sec = s.sec := rfl
@[simp] theorem State.modCurWarp_host (s : State) (f : Warp → Warp) : (s.modCurWarp f).host = s.host := rfl

@[simp] theorem State.modCtx_cur (s : State) (k : Nat) (f : Ctx → Ctx) : (s.modCtx k f).cur = s.cur := rfl
@[simp] theorem State.modCtx_agenda (s : State) (k : Nat) (f : Ctx → Ctx) : (s.modCtx k f).agenda = s.agenda := rfl
@[simp] theorem State.modCtx_draws (s : State) (k : Nat) (f : Ctx → Ctx) : (s.modCtx k f).draws = s.draws := rfl
@[simp] theorem State.modCtx_rot (s : State) (k : Nat) (f : Ctx → Ctx) : (s.modCtx k f).rot = s.rot := rfl
@[simp] theorem State.modCtx_time (s : State) (k : Nat) (f : Ctx → Ctx) : (s.modCtx k f).time = s.time := rfl
@[simp] theorem State.modCtx_groups (s : State) (k : Nat) (f : Ctx → Ctx) : (s.modCtx k f).groups = s.groups := rfl
@[simp] theorem State.modCtx_cohorts (s : State) (k : Nat) (f : Ctx → Ctx) : (s.modCtx k f).cohorts = s.cohorts := rfl
@[simp] theorem State.modCtx_mem (s : State) (k : Nat) (f : Ctx → Ctx) : (s.modCtx k f).mem = s.mem := rfl
@[simp] theorem State.modCtx_work (s : State) (k : Nat) (f : Ctx → Ctx) : (s.modCtx k f).work = s.work := rfl
@[simp] theorem State.modCtx_eng (s : State) (k : Nat) (f : Ctx → Ctx) : (s.modCtx k f).eng = s.eng := rfl
@[simp] theorem State.modCtx_faults (s : State) (k : Nat) (f : Ctx → Ctx) : (s.modCtx k f).faults = s.faults := rfl
@[simp] theorem State.modCtx_verdicts (s : State) (k : Nat) (f : Ctx → Ctx) : (s.modCtx k f).verdicts = s.verdicts := rfl
@[simp] theorem State.modCtx_nextTok (s : State) (k : Nat) (f : Ctx → Ctx) : (s.modCtx k f).nextTok = s.nextTok := rfl
@[simp] theorem State.modCtx_part (s : State) (k : Nat) (f : Ctx → Ctx) : (s.modCtx k f).part = s.part := rfl
@[simp] theorem State.modCtx_sec (s : State) (k : Nat) (f : Ctx → Ctx) : (s.modCtx k f).sec = s.sec := rfl
@[simp] theorem State.modCtx_host (s : State) (k : Nat) (f : Ctx → Ctx) : (s.modCtx k f).host = s.host := rfl

@[simp] theorem State.draw_cur (s : State) : (s.draw).cur = s.cur := rfl
@[simp] theorem State.draw_agenda (s : State) : (s.draw).agenda = s.agenda := rfl
@[simp] theorem State.draw_rot (s : State) : (s.draw).rot = s.rot := rfl
@[simp] theorem State.draw_time (s : State) : (s.draw).time = s.time := rfl
@[simp] theorem State.draw_groups (s : State) : (s.draw).groups = s.groups := rfl
@[simp] theorem State.draw_cohorts (s : State) : (s.draw).cohorts = s.cohorts := rfl
@[simp] theorem State.draw_mem (s : State) : (s.draw).mem = s.mem := rfl
@[simp] theorem State.draw_ctxs (s : State) : (s.draw).ctxs = s.ctxs := rfl
@[simp] theorem State.draw_work (s : State) : (s.draw).work = s.work := rfl
@[simp] theorem State.draw_eng (s : State) : (s.draw).eng = s.eng := rfl
@[simp] theorem State.draw_faults (s : State) : (s.draw).faults = s.faults := rfl
@[simp] theorem State.draw_verdicts (s : State) : (s.draw).verdicts = s.verdicts := rfl
@[simp] theorem State.draw_nextTok (s : State) : (s.draw).nextTok = s.nextTok := rfl
@[simp] theorem State.draw_part (s : State) : (s.draw).part = s.part := rfl
@[simp] theorem State.draw_sec (s : State) : (s.draw).sec = s.sec := rfl
@[simp] theorem State.draw_host (s : State) : (s.draw).host = s.host := rfl

@[simp] theorem State.markDone_agenda (s : State) : (s.markDone).agenda = s.agenda := rfl
@[simp] theorem State.markDone_rot (s : State) : (s.markDone).rot = s.rot := rfl
@[simp] theorem State.markDone_time (s : State) : (s.markDone).time = s.time := rfl
@[simp] theorem State.markDone_groups (s : State) : (s.markDone).groups = s.groups := rfl
@[simp] theorem State.markDone_cohorts (s : State) : (s.markDone).cohorts = s.cohorts := rfl
@[simp] theorem State.markDone_mem (s : State) : (s.markDone).mem = s.mem := rfl
@[simp] theorem State.markDone_ctxs (s : State) : (s.markDone).ctxs = s.ctxs := rfl
@[simp] theorem State.markDone_work (s : State) : (s.markDone).work = s.work := rfl
@[simp] theorem State.markDone_eng (s : State) : (s.markDone).eng = s.eng := rfl
@[simp] theorem State.markDone_faults (s : State) : (s.markDone).faults = s.faults := rfl
@[simp] theorem State.markDone_verdicts (s : State) : (s.markDone).verdicts = s.verdicts := rfl
@[simp] theorem State.markDone_nextTok (s : State) : (s.markDone).nextTok = s.nextTok := rfl
@[simp] theorem State.markDone_part (s : State) : (s.markDone).part = s.part := rfl
@[simp] theorem State.markDone_sec (s : State) : (s.markDone).sec = s.sec := rfl
@[simp] theorem State.markDone_host (s : State) : (s.markDone).host = s.host := rfl

/-! ### Fields of a group under an update -/

@[simp] theorem Group.modWarp_used (x : Group) (w : Nat) (f : Warp → Warp) : (x.modWarp w f).used = x.used := rfl
@[simp] theorem Group.modWarp_part (x : Group) (w : Nat) (f : Warp → Warp) : (x.modWarp w f).part = x.part := rfl
@[simp] theorem Group.modWarp_asid (x : Group) (w : Nat) (f : Warp → Warp) : (x.modWarp w f).asid = x.asid := rfl
@[simp] theorem Group.modWarp_core (x : Group) (w : Nat) (f : Warp → Warp) : (x.modWarp w f).core = x.core := rfl
@[simp] theorem Group.modWarp_clu (x : Group) (w : Nat) (f : Warp → Warp) : (x.modWarp w f).clu = x.clu := rfl
@[simp] theorem Group.modWarp_pcore (x : Group) (w : Nat) (f : Warp → Warp) : (x.modWarp w f).pcore = x.pcore := rfl
@[simp] theorem Group.modWarp_pclu (x : Group) (w : Nat) (f : Warp → Warp) : (x.modWarp w f).pclu = x.pclu := rfl
@[simp] theorem Group.modWarp_slotA (x : Group) (w : Nat) (f : Warp → Warp) : (x.modWarp w f).slotA = x.slotA := rfl
@[simp] theorem Group.modWarp_slotM (x : Group) (w : Nat) (f : Warp → Warp) : (x.modWarp w f).slotM = x.slotM := rfl
@[simp] theorem Group.modWarp_kernel (x : Group) (w : Nat) (f : Warp → Warp) : (x.modWarp w f).kernel = x.kernel := rfl
@[simp] theorem Group.modWarp_lrec (x : Group) (w : Nat) (f : Warp → Warp) : (x.modWarp w f).lrec = x.lrec := rfl
@[simp] theorem Group.modWarp_krec (x : Group) (w : Nat) (f : Warp → Warp) : (x.modWarp w f).krec = x.krec := rfl
@[simp] theorem Group.modWarp_klen (x : Group) (w : Nat) (f : Warp → Warp) : (x.modWarp w f).klen = x.klen := rfl
@[simp] theorem Group.modWarp_graph (x : Group) (w : Nat) (f : Warp → Warp) : (x.modWarp w f).graph = x.graph := rfl
@[simp] theorem Group.modWarp_node (x : Group) (w : Nat) (f : Warp → Warp) : (x.modWarp w f).node = x.node := rfl
@[simp] theorem Group.modWarp_task (x : Group) (w : Nat) (f : Warp → Warp) : (x.modWarp w f).task = x.task := rfl
@[simp] theorem Group.modWarp_tasks (x : Group) (w : Nat) (f : Warp → Warp) : (x.modWarp w f).tasks = x.tasks := rfl
@[simp] theorem Group.modWarp_gidX (x : Group) (w : Nat) (f : Warp → Warp) : (x.modWarp w f).gidX = x.gidX := rfl
@[simp] theorem Group.modWarp_gidY (x : Group) (w : Nat) (f : Warp → Warp) : (x.modWarp w f).gidY = x.gidY := rfl
@[simp] theorem Group.modWarp_gidZ (x : Group) (w : Nat) (f : Warp → Warp) : (x.modWarp w f).gidZ = x.gidZ := rfl
@[simp] theorem Group.modWarp_taskid (x : Group) (w : Nat) (f : Warp → Warp) : (x.modWarp w f).taskid = x.taskid := rfl
@[simp] theorem Group.modWarp_index (x : Group) (w : Nat) (f : Warp → Warp) : (x.modWarp w f).index = x.index := rfl
@[simp] theorem Group.modWarp_nwarp (x : Group) (w : Nat) (f : Warp → Warp) : (x.modWarp w f).nwarp = x.nwarp := rfl
@[simp] theorem Group.modWarp_prio (x : Group) (w : Nat) (f : Warp → Warp) : (x.modWarp w f).prio = x.prio := rfl
@[simp] theorem Group.modWarp_cohort (x : Group) (w : Nat) (f : Warp → Warp) : (x.modWarp w f).cohort = x.cohort := rfl
@[simp] theorem Group.modWarp_cohpos (x : Group) (w : Nat) (f : Warp → Warp) : (x.modWarp w f).cohpos = x.cohpos := rfl
@[simp] theorem Group.modWarp_stamp (x : Group) (w : Nat) (f : Warp → Warp) : (x.modWarp w f).stamp = x.stamp := rfl
@[simp] theorem Group.modWarp_astr (x : Group) (w : Nat) (f : Warp → Warp) : (x.modWarp w f).astr = x.astr := rfl
@[simp] theorem Group.modWarp_mstr (x : Group) (w : Nat) (f : Warp → Warp) : (x.modWarp w f).mstr = x.mstr := rfl
@[simp] theorem Group.modWarp_gens (x : Group) (w : Nat) (f : Warp → Warp) : (x.modWarp w f).gens = x.gens := rfl
@[simp] theorem Group.modWarp_idx (x : Group) (w : Nat) (f : Warp → Warp) : (x.modWarp w f).idx = x.idx := rfl
@[simp] theorem Group.modWarp_rr (x : Group) (w : Nat) (f : Warp → Warp) : (x.modWarp w f).rr = x.rr := rfl
@[simp] theorem Group.modWarp_gbase (x : Group) (w : Nat) (f : Warp → Warp) : (x.modWarp w f).gbase = x.gbase := rfl
@[simp] theorem Group.modWarp_gw (x : Group) (w : Nat) (f : Warp → Warp) : (x.modWarp w f).gw = x.gw := rfl
@[simp] theorem Group.modWarp_gcount (x : Group) (w : Nat) (f : Warp → Warp) : (x.modWarp w f).gcount = x.gcount := rfl
@[simp] theorem Group.modWarp_gseen (x : Group) (w : Nat) (f : Warp → Warp) : (x.modWarp w f).gseen = x.gseen := rfl
@[simp] theorem Group.modWarp_scratch (x : Group) (w : Nat) (f : Warp → Warp) : (x.modWarp w f).scratch = x.scratch := rfl
@[simp] theorem Group.modWarp_spoison (x : Group) (w : Nat) (f : Warp → Warp) : (x.modWarp w f).spoison = x.spoison := rfl
@[simp] theorem Group.modWarp_qb (x : Group) (w : Nat) (f : Warp → Warp) : (x.modWarp w f).qb = x.qb := rfl
@[simp] theorem Group.modWarp_bars (x : Group) (w : Nat) (f : Warp → Warp) : (x.modWarp w f).bars = x.bars := rfl
@[simp] theorem Group.modWarp_cbar (x : Group) (w : Nat) (f : Warp → Warp) : (x.modWarp w f).cbar = x.cbar := rfl
@[simp] theorem Group.modWarp_stall (x : Group) (w : Nat) (f : Warp → Warp) : (x.modWarp w f).stall = x.stall := rfl
@[simp] theorem Group.modWarp_gfmt (x : Group) (w : Nat) (f : Warp → Warp) : (x.modWarp w f).gfmt = x.gfmt := rfl
@[simp] theorem Group.modWarp_est (x : Group) (w : Nat) (f : Warp → Warp) : (x.modWarp w f).est = x.est := rfl
@[simp] theorem Group.modWarp_fmtSeen (x : Group) (w : Nat) (f : Warp → Warp) : (x.modWarp w f).fmtSeen = x.fmtSeen := rfl
@[simp] theorem Group.modWarp_claim (x : Group) (w : Nat) (f : Warp → Warp) : (x.modWarp w f).claim = x.claim := rfl
@[simp] theorem Group.modWarp_phys (x : Group) (w : Nat) (f : Warp → Warp) : (x.modWarp w f).phys = x.phys := rfl
@[simp] theorem Group.modWarp_arrays (x : Group) (w : Nat) (f : Warp → Warp) : (x.modWarp w f).arrays = x.arrays := rfl
@[simp] theorem Group.modWarp_scale (x : Group) (w : Nat) (f : Warp → Warp) : (x.modWarp w f).scale = x.scale := rfl
@[simp] theorem Group.modWarp_scalePend (x : Group) (w : Nat) (f : Warp → Warp) : (x.modWarp w f).scalePend = x.scalePend := rfl
@[simp] theorem Group.modWarp_mSeen (x : Group) (w : Nat) (f : Warp → Warp) : (x.modWarp w f).mSeen = x.mSeen := rfl
@[simp] theorem Group.modWarp_copySeq (x : Group) (w : Nat) (f : Warp → Warp) : (x.modWarp w f).copySeq = x.copySeq := rfl
@[simp] theorem Group.modWarp_cstat (x : Group) (w : Nat) (f : Warp → Warp) : (x.modWarp w f).cstat = x.cstat := rfl
@[simp] theorem Group.modWarp_resv (x : Group) (w : Nat) (f : Warp → Warp) : (x.modWarp w f).resv = x.resv := rfl
@[simp] theorem Group.modWarp_tdone (x : Group) (w : Nat) (f : Warp → Warp) : (x.modWarp w f).tdone = x.tdone := rfl
@[simp] theorem Group.modWarp_halted (x : Group) (w : Nat) (f : Warp → Warp) : (x.modWarp w f).halted = x.halted := rfl
@[simp] theorem Group.modWarp_holdCopies (x : Group) (w : Nat) (f : Warp → Warp) : (x.modWarp w f).holdCopies = x.holdCopies := rfl

/-! ### Fields of a warp under an update -/

@[simp] theorem Warp.setVreg_placed (w : Warp) (l c : Nat) (x : W32) : (w.setVreg l c x).placed = w.placed := rfl
@[simp] theorem Warp.setVreg_quarter (w : Warp) (l c : Nat) (x : W32) : (w.setVreg l c x).quarter = w.quarter := rfl
@[simp] theorem Warp.setVreg_segs (w : Warp) (l c : Nat) (x : W32) : (w.setVreg l c x).segs = w.segs := rfl
@[simp] theorem Warp.setVreg_live (w : Warp) (l c : Nat) (x : W32) : (w.setVreg l c x).live = w.live := rfl
@[simp] theorem Warp.setVreg_helper (w : Warp) (l c : Nat) (x : W32) : (w.setVreg l c x).helper = w.helper := rfl
@[simp] theorem Warp.setVreg_splits (w : Warp) (l c : Nat) (x : W32) : (w.setVreg l c x).splits = w.splits := rfl
@[simp] theorem Warp.setVreg_saved (w : Warp) (l c : Nat) (x : W32) : (w.setVreg l c x).saved = w.saved := rfl
@[simp] theorem Warp.setVreg_level (w : Warp) (l c : Nat) (x : W32) : (w.setVreg l c x).level = w.level := rfl
@[simp] theorem Warp.setVreg_preds (w : Warp) (l c : Nat) (x : W32) : (w.setVreg l c x).preds = w.preds := rfl
@[simp] theorem Warp.setVreg_sregs (w : Warp) (l c : Nat) (x : W32) : (w.setVreg l c x).sregs = w.sregs := rfl
@[simp] theorem Warp.setVreg_tids (w : Warp) (l c : Nat) (x : W32) : (w.setVreg l c x).tids = w.tids := rfl
@[simp] theorem Warp.setVreg_fstat (w : Warp) (l c : Nat) (x : W32) : (w.setVreg l c x).fstat = w.fstat := rfl
@[simp] theorem Warp.setVreg_wdlimit (w : Warp) (l c : Nat) (x : W32) : (w.setVreg l c x).wdlimit = w.wdlimit := rfl
@[simp] theorem Warp.setVreg_tcause (w : Warp) (l c : Nat) (x : W32) : (w.setVreg l c x).tcause = w.tcause := rfl
@[simp] theorem Warp.setVreg_tpc (w : Warp) (l c : Nat) (x : W32) : (w.setVreg l c x).tpc = w.tpc := rfl
@[simp] theorem Warp.setVreg_tmask (w : Warp) (l c : Nat) (x : W32) : (w.setVreg l c x).tmask = w.tmask := rfl
@[simp] theorem Warp.setVreg_tstream (w : Warp) (l c : Nat) (x : W32) : (w.setVreg l c x).tstream = w.tstream := rfl
@[simp] theorem Warp.setVreg_tinfo0 (w : Warp) (l c : Nat) (x : W32) : (w.setVreg l c x).tinfo0 = w.tinfo0 := rfl
@[simp] theorem Warp.setVreg_tinfo1 (w : Warp) (l c : Nat) (x : W32) : (w.setVreg l c x).tinfo1 = w.tinfo1 := rfl
@[simp] theorem Warp.setVreg_tinfo2 (w : Warp) (l c : Nat) (x : W32) : (w.setVreg l c x).tinfo2 = w.tinfo2 := rfl
@[simp] theorem Warp.setVreg_tinfo3 (w : Warp) (l c : Nat) (x : W32) : (w.setVreg l c x).tinfo3 = w.tinfo3 := rfl
@[simp] theorem Warp.setVreg_tpcin (w : Warp) (l c : Nat) (x : W32) : (w.setVreg l c x).tpcin = w.tpcin := rfl
@[simp] theorem Warp.setVreg_due (w : Warp) (l c : Nat) (x : W32) : (w.setVreg l c x).due = w.due := rfl
@[simp] theorem Warp.setVreg_esc (w : Warp) (l c : Nat) (x : W32) : (w.setVreg l c x).esc = w.esc := rfl
@[simp] theorem Warp.setVreg_pend (w : Warp) (l c : Nat) (x : W32) : (w.setVreg l c x).pend = w.pend := rfl
@[simp] theorem Warp.setVreg_errs (w : Warp) (l c : Nat) (x : W32) : (w.setVreg l c x).errs = w.errs := rfl
@[simp] theorem Warp.setVreg_queues (w : Warp) (l c : Nat) (x : W32) : (w.setVreg l c x).queues = w.queues := rfl
@[simp] theorem Warp.setVreg_ups (w : Warp) (l c : Nat) (x : W32) : (w.setVreg l c x).ups = w.ups := rfl
@[simp] theorem Warp.setVreg_relScope (w : Warp) (l c : Nat) (x : W32) : (w.setVreg l c x).relScope = w.relScope := rfl
@[simp] theorem Warp.setVreg_acqs (w : Warp) (l c : Nat) (x : W32) : (w.setVreg l c x).acqs = w.acqs := rfl
@[simp] theorem Warp.setVreg_prio (w : Warp) (l c : Nat) (x : W32) : (w.setVreg l c x).prio = w.prio := rfl
@[simp] theorem Warp.setVreg_age (w : Warp) (l c : Nat) (x : W32) : (w.setVreg l c x).age = w.age := rfl
@[simp] theorem Warp.setVreg_overdue (w : Warp) (l c : Nat) (x : W32) : (w.setVreg l c x).overdue = w.overdue := rfl
@[simp] theorem Warp.setVreg_unsel (w : Warp) (l c : Nat) (x : W32) : (w.setVreg l c x).unsel = w.unsel := rfl
@[simp] theorem Warp.setVreg_mWrites (w : Warp) (l c : Nat) (x : W32) : (w.setVreg l c x).mWrites = w.mWrites := rfl
@[simp] theorem Warp.setVreg_ended (w : Warp) (l c : Nat) (x : W32) : (w.setVreg l c x).ended = w.ended := rfl

@[simp] theorem Warp.setPred_placed (w : Warp) (l p : Nat) (b : Bool) : (w.setPred l p b).placed = w.placed := rfl
@[simp] theorem Warp.setPred_quarter (w : Warp) (l p : Nat) (b : Bool) : (w.setPred l p b).quarter = w.quarter := rfl
@[simp] theorem Warp.setPred_segs (w : Warp) (l p : Nat) (b : Bool) : (w.setPred l p b).segs = w.segs := rfl
@[simp] theorem Warp.setPred_live (w : Warp) (l p : Nat) (b : Bool) : (w.setPred l p b).live = w.live := rfl
@[simp] theorem Warp.setPred_helper (w : Warp) (l p : Nat) (b : Bool) : (w.setPred l p b).helper = w.helper := rfl
@[simp] theorem Warp.setPred_splits (w : Warp) (l p : Nat) (b : Bool) : (w.setPred l p b).splits = w.splits := rfl
@[simp] theorem Warp.setPred_saved (w : Warp) (l p : Nat) (b : Bool) : (w.setPred l p b).saved = w.saved := rfl
@[simp] theorem Warp.setPred_level (w : Warp) (l p : Nat) (b : Bool) : (w.setPred l p b).level = w.level := rfl
@[simp] theorem Warp.setPred_vregs (w : Warp) (l p : Nat) (b : Bool) : (w.setPred l p b).vregs = w.vregs := rfl
@[simp] theorem Warp.setPred_sregs (w : Warp) (l p : Nat) (b : Bool) : (w.setPred l p b).sregs = w.sregs := rfl
@[simp] theorem Warp.setPred_tids (w : Warp) (l p : Nat) (b : Bool) : (w.setPred l p b).tids = w.tids := rfl
@[simp] theorem Warp.setPred_fstat (w : Warp) (l p : Nat) (b : Bool) : (w.setPred l p b).fstat = w.fstat := rfl
@[simp] theorem Warp.setPred_wdlimit (w : Warp) (l p : Nat) (b : Bool) : (w.setPred l p b).wdlimit = w.wdlimit := rfl
@[simp] theorem Warp.setPred_tcause (w : Warp) (l p : Nat) (b : Bool) : (w.setPred l p b).tcause = w.tcause := rfl
@[simp] theorem Warp.setPred_tpc (w : Warp) (l p : Nat) (b : Bool) : (w.setPred l p b).tpc = w.tpc := rfl
@[simp] theorem Warp.setPred_tmask (w : Warp) (l p : Nat) (b : Bool) : (w.setPred l p b).tmask = w.tmask := rfl
@[simp] theorem Warp.setPred_tstream (w : Warp) (l p : Nat) (b : Bool) : (w.setPred l p b).tstream = w.tstream := rfl
@[simp] theorem Warp.setPred_tinfo0 (w : Warp) (l p : Nat) (b : Bool) : (w.setPred l p b).tinfo0 = w.tinfo0 := rfl
@[simp] theorem Warp.setPred_tinfo1 (w : Warp) (l p : Nat) (b : Bool) : (w.setPred l p b).tinfo1 = w.tinfo1 := rfl
@[simp] theorem Warp.setPred_tinfo2 (w : Warp) (l p : Nat) (b : Bool) : (w.setPred l p b).tinfo2 = w.tinfo2 := rfl
@[simp] theorem Warp.setPred_tinfo3 (w : Warp) (l p : Nat) (b : Bool) : (w.setPred l p b).tinfo3 = w.tinfo3 := rfl
@[simp] theorem Warp.setPred_tpcin (w : Warp) (l p : Nat) (b : Bool) : (w.setPred l p b).tpcin = w.tpcin := rfl
@[simp] theorem Warp.setPred_due (w : Warp) (l p : Nat) (b : Bool) : (w.setPred l p b).due = w.due := rfl
@[simp] theorem Warp.setPred_esc (w : Warp) (l p : Nat) (b : Bool) : (w.setPred l p b).esc = w.esc := rfl
@[simp] theorem Warp.setPred_pend (w : Warp) (l p : Nat) (b : Bool) : (w.setPred l p b).pend = w.pend := rfl
@[simp] theorem Warp.setPred_errs (w : Warp) (l p : Nat) (b : Bool) : (w.setPred l p b).errs = w.errs := rfl
@[simp] theorem Warp.setPred_queues (w : Warp) (l p : Nat) (b : Bool) : (w.setPred l p b).queues = w.queues := rfl
@[simp] theorem Warp.setPred_ups (w : Warp) (l p : Nat) (b : Bool) : (w.setPred l p b).ups = w.ups := rfl
@[simp] theorem Warp.setPred_relScope (w : Warp) (l p : Nat) (b : Bool) : (w.setPred l p b).relScope = w.relScope := rfl
@[simp] theorem Warp.setPred_acqs (w : Warp) (l p : Nat) (b : Bool) : (w.setPred l p b).acqs = w.acqs := rfl
@[simp] theorem Warp.setPred_prio (w : Warp) (l p : Nat) (b : Bool) : (w.setPred l p b).prio = w.prio := rfl
@[simp] theorem Warp.setPred_age (w : Warp) (l p : Nat) (b : Bool) : (w.setPred l p b).age = w.age := rfl
@[simp] theorem Warp.setPred_overdue (w : Warp) (l p : Nat) (b : Bool) : (w.setPred l p b).overdue = w.overdue := rfl
@[simp] theorem Warp.setPred_unsel (w : Warp) (l p : Nat) (b : Bool) : (w.setPred l p b).unsel = w.unsel := rfl
@[simp] theorem Warp.setPred_mWrites (w : Warp) (l p : Nat) (b : Bool) : (w.setPred l p b).mWrites = w.mWrites := rfl
@[simp] theorem Warp.setPred_ended (w : Warp) (l p : Nat) (b : Bool) : (w.setPred l p b).ended = w.ended := rfl

@[simp] theorem Warp.clash_placed (w : Warp) (k : Nat) : (w.clash k).placed = w.placed := rfl
@[simp] theorem Warp.clash_quarter (w : Warp) (k : Nat) : (w.clash k).quarter = w.quarter := rfl
@[simp] theorem Warp.clash_segs (w : Warp) (k : Nat) : (w.clash k).segs = w.segs := rfl
@[simp] theorem Warp.clash_live (w : Warp) (k : Nat) : (w.clash k).live = w.live := rfl
@[simp] theorem Warp.clash_helper (w : Warp) (k : Nat) : (w.clash k).helper = w.helper := rfl
@[simp] theorem Warp.clash_splits (w : Warp) (k : Nat) : (w.clash k).splits = w.splits := rfl
@[simp] theorem Warp.clash_saved (w : Warp) (k : Nat) : (w.clash k).saved = w.saved := rfl
@[simp] theorem Warp.clash_level (w : Warp) (k : Nat) : (w.clash k).level = w.level := rfl
@[simp] theorem Warp.clash_vregs (w : Warp) (k : Nat) : (w.clash k).vregs = w.vregs := rfl
@[simp] theorem Warp.clash_preds (w : Warp) (k : Nat) : (w.clash k).preds = w.preds := rfl
@[simp] theorem Warp.clash_sregs (w : Warp) (k : Nat) : (w.clash k).sregs = w.sregs := rfl
@[simp] theorem Warp.clash_tids (w : Warp) (k : Nat) : (w.clash k).tids = w.tids := rfl
@[simp] theorem Warp.clash_fstat (w : Warp) (k : Nat) : (w.clash k).fstat = w.fstat := rfl
@[simp] theorem Warp.clash_wdlimit (w : Warp) (k : Nat) : (w.clash k).wdlimit = w.wdlimit := rfl
@[simp] theorem Warp.clash_tcause (w : Warp) (k : Nat) : (w.clash k).tcause = w.tcause := rfl
@[simp] theorem Warp.clash_tpc (w : Warp) (k : Nat) : (w.clash k).tpc = w.tpc := rfl
@[simp] theorem Warp.clash_tmask (w : Warp) (k : Nat) : (w.clash k).tmask = w.tmask := rfl
@[simp] theorem Warp.clash_tstream (w : Warp) (k : Nat) : (w.clash k).tstream = w.tstream := rfl
@[simp] theorem Warp.clash_tinfo0 (w : Warp) (k : Nat) : (w.clash k).tinfo0 = w.tinfo0 := rfl
@[simp] theorem Warp.clash_tinfo1 (w : Warp) (k : Nat) : (w.clash k).tinfo1 = w.tinfo1 := rfl
@[simp] theorem Warp.clash_tinfo2 (w : Warp) (k : Nat) : (w.clash k).tinfo2 = w.tinfo2 := rfl
@[simp] theorem Warp.clash_tinfo3 (w : Warp) (k : Nat) : (w.clash k).tinfo3 = w.tinfo3 := rfl
@[simp] theorem Warp.clash_tpcin (w : Warp) (k : Nat) : (w.clash k).tpcin = w.tpcin := rfl
@[simp] theorem Warp.clash_due (w : Warp) (k : Nat) : (w.clash k).due = w.due := rfl
@[simp] theorem Warp.clash_esc (w : Warp) (k : Nat) : (w.clash k).esc = w.esc := rfl
@[simp] theorem Warp.clash_errs (w : Warp) (k : Nat) : (w.clash k).errs = w.errs := rfl
@[simp] theorem Warp.clash_queues (w : Warp) (k : Nat) : (w.clash k).queues = w.queues := rfl
@[simp] theorem Warp.clash_ups (w : Warp) (k : Nat) : (w.clash k).ups = w.ups := rfl
@[simp] theorem Warp.clash_relScope (w : Warp) (k : Nat) : (w.clash k).relScope = w.relScope := rfl
@[simp] theorem Warp.clash_acqs (w : Warp) (k : Nat) : (w.clash k).acqs = w.acqs := rfl
@[simp] theorem Warp.clash_prio (w : Warp) (k : Nat) : (w.clash k).prio = w.prio := rfl
@[simp] theorem Warp.clash_age (w : Warp) (k : Nat) : (w.clash k).age = w.age := rfl
@[simp] theorem Warp.clash_overdue (w : Warp) (k : Nat) : (w.clash k).overdue = w.overdue := rfl
@[simp] theorem Warp.clash_unsel (w : Warp) (k : Nat) : (w.clash k).unsel = w.unsel := rfl
@[simp] theorem Warp.clash_mWrites (w : Warp) (k : Nat) : (w.clash k).mWrites = w.mWrites := rfl
@[simp] theorem Warp.clash_ended (w : Warp) (k : Nat) : (w.clash k).ended = w.ended := rfl

@[simp] theorem Warp.addPend_placed (w : Warp) (p : Pend) : (w.addPend p).placed = w.placed := rfl
@[simp] theorem Warp.addPend_quarter (w : Warp) (p : Pend) : (w.addPend p).quarter = w.quarter := rfl
@[simp] theorem Warp.addPend_segs (w : Warp) (p : Pend) : (w.addPend p).segs = w.segs := rfl
@[simp] theorem Warp.addPend_live (w : Warp) (p : Pend) : (w.addPend p).live = w.live := rfl
@[simp] theorem Warp.addPend_helper (w : Warp) (p : Pend) : (w.addPend p).helper = w.helper := rfl
@[simp] theorem Warp.addPend_splits (w : Warp) (p : Pend) : (w.addPend p).splits = w.splits := rfl
@[simp] theorem Warp.addPend_saved (w : Warp) (p : Pend) : (w.addPend p).saved = w.saved := rfl
@[simp] theorem Warp.addPend_level (w : Warp) (p : Pend) : (w.addPend p).level = w.level := rfl
@[simp] theorem Warp.addPend_vregs (w : Warp) (p : Pend) : (w.addPend p).vregs = w.vregs := rfl
@[simp] theorem Warp.addPend_preds (w : Warp) (p : Pend) : (w.addPend p).preds = w.preds := rfl
@[simp] theorem Warp.addPend_sregs (w : Warp) (p : Pend) : (w.addPend p).sregs = w.sregs := rfl
@[simp] theorem Warp.addPend_tids (w : Warp) (p : Pend) : (w.addPend p).tids = w.tids := rfl
@[simp] theorem Warp.addPend_fstat (w : Warp) (p : Pend) : (w.addPend p).fstat = w.fstat := rfl
@[simp] theorem Warp.addPend_wdlimit (w : Warp) (p : Pend) : (w.addPend p).wdlimit = w.wdlimit := rfl
@[simp] theorem Warp.addPend_tcause (w : Warp) (p : Pend) : (w.addPend p).tcause = w.tcause := rfl
@[simp] theorem Warp.addPend_tpc (w : Warp) (p : Pend) : (w.addPend p).tpc = w.tpc := rfl
@[simp] theorem Warp.addPend_tmask (w : Warp) (p : Pend) : (w.addPend p).tmask = w.tmask := rfl
@[simp] theorem Warp.addPend_tstream (w : Warp) (p : Pend) : (w.addPend p).tstream = w.tstream := rfl
@[simp] theorem Warp.addPend_tinfo0 (w : Warp) (p : Pend) : (w.addPend p).tinfo0 = w.tinfo0 := rfl
@[simp] theorem Warp.addPend_tinfo1 (w : Warp) (p : Pend) : (w.addPend p).tinfo1 = w.tinfo1 := rfl
@[simp] theorem Warp.addPend_tinfo2 (w : Warp) (p : Pend) : (w.addPend p).tinfo2 = w.tinfo2 := rfl
@[simp] theorem Warp.addPend_tinfo3 (w : Warp) (p : Pend) : (w.addPend p).tinfo3 = w.tinfo3 := rfl
@[simp] theorem Warp.addPend_tpcin (w : Warp) (p : Pend) : (w.addPend p).tpcin = w.tpcin := rfl
@[simp] theorem Warp.addPend_due (w : Warp) (p : Pend) : (w.addPend p).due = w.due := rfl
@[simp] theorem Warp.addPend_esc (w : Warp) (p : Pend) : (w.addPend p).esc = w.esc := rfl
@[simp] theorem Warp.addPend_errs (w : Warp) (p : Pend) : (w.addPend p).errs = w.errs := rfl
@[simp] theorem Warp.addPend_queues (w : Warp) (p : Pend) : (w.addPend p).queues = w.queues := rfl
@[simp] theorem Warp.addPend_ups (w : Warp) (p : Pend) : (w.addPend p).ups = w.ups := rfl
@[simp] theorem Warp.addPend_relScope (w : Warp) (p : Pend) : (w.addPend p).relScope = w.relScope := rfl
@[simp] theorem Warp.addPend_acqs (w : Warp) (p : Pend) : (w.addPend p).acqs = w.acqs := rfl
@[simp] theorem Warp.addPend_prio (w : Warp) (p : Pend) : (w.addPend p).prio = w.prio := rfl
@[simp] theorem Warp.addPend_age (w : Warp) (p : Pend) : (w.addPend p).age = w.age := rfl
@[simp] theorem Warp.addPend_overdue (w : Warp) (p : Pend) : (w.addPend p).overdue = w.overdue := rfl
@[simp] theorem Warp.addPend_unsel (w : Warp) (p : Pend) : (w.addPend p).unsel = w.unsel := rfl
@[simp] theorem Warp.addPend_mWrites (w : Warp) (p : Pend) : (w.addPend p).mWrites = w.mWrites := rfl
@[simp] theorem Warp.addPend_ended (w : Warp) (p : Pend) : (w.addPend p).ended = w.ended := rfl

@[simp] theorem Warp.replaceSplit_placed (w : Warp) (m : Lanes) (f : Split → List Split) : (w.replaceSplit m f).placed = w.placed := rfl
@[simp] theorem Warp.replaceSplit_quarter (w : Warp) (m : Lanes) (f : Split → List Split) : (w.replaceSplit m f).quarter = w.quarter := rfl
@[simp] theorem Warp.replaceSplit_segs (w : Warp) (m : Lanes) (f : Split → List Split) : (w.replaceSplit m f).segs = w.segs := rfl
@[simp] theorem Warp.replaceSplit_live (w : Warp) (m : Lanes) (f : Split → List Split) : (w.replaceSplit m f).live = w.live := rfl
@[simp] theorem Warp.replaceSplit_helper (w : Warp) (m : Lanes) (f : Split → List Split) : (w.replaceSplit m f).helper = w.helper := rfl
@[simp] theorem Warp.replaceSplit_saved (w : Warp) (m : Lanes) (f : Split → List Split) : (w.replaceSplit m f).saved = w.saved := rfl
@[simp] theorem Warp.replaceSplit_level (w : Warp) (m : Lanes) (f : Split → List Split) : (w.replaceSplit m f).level = w.level := rfl
@[simp] theorem Warp.replaceSplit_vregs (w : Warp) (m : Lanes) (f : Split → List Split) : (w.replaceSplit m f).vregs = w.vregs := rfl
@[simp] theorem Warp.replaceSplit_preds (w : Warp) (m : Lanes) (f : Split → List Split) : (w.replaceSplit m f).preds = w.preds := rfl
@[simp] theorem Warp.replaceSplit_sregs (w : Warp) (m : Lanes) (f : Split → List Split) : (w.replaceSplit m f).sregs = w.sregs := rfl
@[simp] theorem Warp.replaceSplit_tids (w : Warp) (m : Lanes) (f : Split → List Split) : (w.replaceSplit m f).tids = w.tids := rfl
@[simp] theorem Warp.replaceSplit_fstat (w : Warp) (m : Lanes) (f : Split → List Split) : (w.replaceSplit m f).fstat = w.fstat := rfl
@[simp] theorem Warp.replaceSplit_wdlimit (w : Warp) (m : Lanes) (f : Split → List Split) : (w.replaceSplit m f).wdlimit = w.wdlimit := rfl
@[simp] theorem Warp.replaceSplit_tcause (w : Warp) (m : Lanes) (f : Split → List Split) : (w.replaceSplit m f).tcause = w.tcause := rfl
@[simp] theorem Warp.replaceSplit_tpc (w : Warp) (m : Lanes) (f : Split → List Split) : (w.replaceSplit m f).tpc = w.tpc := rfl
@[simp] theorem Warp.replaceSplit_tmask (w : Warp) (m : Lanes) (f : Split → List Split) : (w.replaceSplit m f).tmask = w.tmask := rfl
@[simp] theorem Warp.replaceSplit_tstream (w : Warp) (m : Lanes) (f : Split → List Split) : (w.replaceSplit m f).tstream = w.tstream := rfl
@[simp] theorem Warp.replaceSplit_tinfo0 (w : Warp) (m : Lanes) (f : Split → List Split) : (w.replaceSplit m f).tinfo0 = w.tinfo0 := rfl
@[simp] theorem Warp.replaceSplit_tinfo1 (w : Warp) (m : Lanes) (f : Split → List Split) : (w.replaceSplit m f).tinfo1 = w.tinfo1 := rfl
@[simp] theorem Warp.replaceSplit_tinfo2 (w : Warp) (m : Lanes) (f : Split → List Split) : (w.replaceSplit m f).tinfo2 = w.tinfo2 := rfl
@[simp] theorem Warp.replaceSplit_tinfo3 (w : Warp) (m : Lanes) (f : Split → List Split) : (w.replaceSplit m f).tinfo3 = w.tinfo3 := rfl
@[simp] theorem Warp.replaceSplit_tpcin (w : Warp) (m : Lanes) (f : Split → List Split) : (w.replaceSplit m f).tpcin = w.tpcin := rfl
@[simp] theorem Warp.replaceSplit_due (w : Warp) (m : Lanes) (f : Split → List Split) : (w.replaceSplit m f).due = w.due := rfl
@[simp] theorem Warp.replaceSplit_esc (w : Warp) (m : Lanes) (f : Split → List Split) : (w.replaceSplit m f).esc = w.esc := rfl
@[simp] theorem Warp.replaceSplit_pend (w : Warp) (m : Lanes) (f : Split → List Split) : (w.replaceSplit m f).pend = w.pend := rfl
@[simp] theorem Warp.replaceSplit_errs (w : Warp) (m : Lanes) (f : Split → List Split) : (w.replaceSplit m f).errs = w.errs := rfl
@[simp] theorem Warp.replaceSplit_queues (w : Warp) (m : Lanes) (f : Split → List Split) : (w.replaceSplit m f).queues = w.queues := rfl
@[simp] theorem Warp.replaceSplit_ups (w : Warp) (m : Lanes) (f : Split → List Split) : (w.replaceSplit m f).ups = w.ups := rfl
@[simp] theorem Warp.replaceSplit_relScope (w : Warp) (m : Lanes) (f : Split → List Split) : (w.replaceSplit m f).relScope = w.relScope := rfl
@[simp] theorem Warp.replaceSplit_acqs (w : Warp) (m : Lanes) (f : Split → List Split) : (w.replaceSplit m f).acqs = w.acqs := rfl
@[simp] theorem Warp.replaceSplit_prio (w : Warp) (m : Lanes) (f : Split → List Split) : (w.replaceSplit m f).prio = w.prio := rfl
@[simp] theorem Warp.replaceSplit_age (w : Warp) (m : Lanes) (f : Split → List Split) : (w.replaceSplit m f).age = w.age := rfl
@[simp] theorem Warp.replaceSplit_overdue (w : Warp) (m : Lanes) (f : Split → List Split) : (w.replaceSplit m f).overdue = w.overdue := rfl
@[simp] theorem Warp.replaceSplit_unsel (w : Warp) (m : Lanes) (f : Split → List Split) : (w.replaceSplit m f).unsel = w.unsel := rfl
@[simp] theorem Warp.replaceSplit_mWrites (w : Warp) (m : Lanes) (f : Split → List Split) : (w.replaceSplit m f).mWrites = w.mWrites := rfl
@[simp] theorem Warp.replaceSplit_ended (w : Warp) (m : Lanes) (f : Split → List Split) : (w.replaceSplit m f).ended = w.ended := rfl

/-! ### Reads after updates -/

@[simp] theorem State.group_modGroup (s : State) (g : Nat) (f : Group → Group) : (s.modGroup g f).group g = f (s.group g) :=
  Store.get_put_same _ _ _ _

theorem State.group_modGroup_ne (s : State) {g h : Nat} (f : Group → Group) (e : h ≠ g) : (s.modGroup g f).group h = s.group h :=
  Store.get_put_ne _ _ _ e

@[simp] theorem Group.warp_modWarp (x : Group) (w : Nat) (f : Warp → Warp) : (x.modWarp w f).warp w = f (x.warp w) :=
  Store.get_put_same _ _ _ _

theorem Group.warp_modWarp_ne (x : Group) {w v : Nat} (f : Warp → Warp) (e : v ≠ w) : (x.modWarp w f).warp v = x.warp v :=
  Store.get_put_ne _ _ _ e

@[simp] theorem State.warp_modWarp (s : State) (g w : Nat) (f : Warp → Warp) : (s.modWarp g w f).warp g w = f (s.warp g w) := by
  simp [State.warp, State.modWarp]

@[simp] theorem State.group_modWarp (s : State) (g w : Nat) (f : Warp → Warp) :
    (s.modWarp g w f).group g = (s.group g).modWarp w f := by
  simp [State.modWarp]

theorem State.group_modWarp_ne (s : State) {g h : Nat} (w : Nat) (f : Warp → Warp) (e : h ≠ g) :
    (s.modWarp g w f).group h = s.group h := State.group_modGroup_ne s _ e

@[simp] theorem State.curWarp_modCurWarp (s : State) (f : Warp → Warp) : (s.modCurWarp f).curWarp = f s.curWarp := by
  simp [State.curWarp, State.modCurWarp]

@[simp] theorem State.curGroup_modCurWarp (s : State) (f : Warp → Warp) :
    (s.modCurWarp f).curGroup = s.curGroup.modWarp s.cur.wid f := by
  simp [State.curGroup, State.modCurWarp]

@[simp] theorem State.group_modStream (s : State) (g : Nat) (st : Strm) (f : Stream → Stream) :
    (s.modStream g st f).group g = (s.group g).modStream st f := by
  simp [State.modStream]

@[simp] theorem Group.warps_modStream (x : Group) (st : Strm) (f : Stream → Stream) : (x.modStream st f).warps = x.warps := by
  cases st <;> rfl

@[simp] theorem Group.stream_modStream_a (x : Group) (f : Stream → Stream) : (x.modStream .a f).stream .a = f (x.stream .a) := rfl

@[simp] theorem Group.stream_modStream_m (x : Group) (f : Stream → Stream) : (x.modStream .m f).stream .m = f (x.stream .m) := rfl

theorem Group.stream_modStream_ne (x : Group) {st su : Strm} (f : Stream → Stream) (e : su ≠ st) :
    (x.modStream st f).stream su = x.stream su := by
  cases st <;> cases su <;> first | rfl | exact absurd rfl e

@[simp] theorem State.ctx_modCtx (s : State) (k : Nat) (f : Ctx → Ctx) : (s.modCtx k f).ctx k = f (s.ctx k) := Store.get_put_same _ _ _ _

theorem State.ctx_modCtx_ne (s : State) {k n : Nat} (f : Ctx → Ctx) (e : n ≠ k) : (s.modCtx k f).ctx n = s.ctx n :=
  Store.get_put_ne _ _ _ e

end Sys2Proof.Machine
end

