-- ==== Sys2Proof/Laws/Register.lean ====
section
/-!
SUPPORT. Lanes, registers and predicates: what a read gives after a write, and what the writes of an instruction leave alone.
-/

namespace Sys2Proof.Machine

/-! ### Lanes -/

theorem mem_laneList (m : Lanes) (l : Nat) : l ∈ laneList m ↔ l < 64 ∧ m.getLsbD l = true := by
  simp [laneList]

theorem laneList_nodup (m : Lanes) : (laneList m).Nodup := List.Nodup.filter _ List.nodup_range

theorem lane_lt {m : Lanes} {l : Nat} (h : m.getLsbD l = true) : l < 64 := BitVec.lt_of_getLsbD h

/-! ### Vector registers -/

/-- The place of a register code within a lane's keys. -/
def regOffset (level : Bool) (c : Nat) : Nat := if level && decide (codeO28 ≤ c ∧ c < codeO28 + 4) then c + 8 else c

theorem Warp.regKey_eq (w : Warp) (l c : Nat) : w.regKey l c = 1024 * l + regOffset w.level c := rfl

theorem regOffset_lt (level : Bool) {c : Nat} (h : c < 0x324) : regOffset level c < 1024 := by
  unfold regOffset
  split <;> omega

theorem regOffset_inj (level : Bool) {c d : Nat} (hc : c < 0x324) (hd : d < 0x324) (h : regOffset level c = regOffset level d) : c = d := by
  unfold regOffset codeO28 at h
  cases level
  · simpa using h
  · simp only [Bool.true_and, decide_eq_true_eq] at h
    split at h <;> split at h <;> omega

theorem Warp.regKey_inj (w : Warp) {l k c d : Nat} (hc : c < 0x324) (hd : d < 0x324) (h : w.regKey l c = w.regKey k d) : l = k ∧ c = d := by
  rw [Warp.regKey_eq, Warp.regKey_eq] at h
  have h1 := regOffset_lt w.level hc
  have h2 := regOffset_lt w.level hd
  have : l = k := by omega
  exact ⟨this, regOffset_inj w.level hc hd (by omega)⟩

theorem Warp.vreg_setVreg (w : Warp) {l k c d : Nat} (x : W32) (hc : c < 0x324) (hd : d < 0x324) :
    (w.setVreg l c x).vreg k d = if k = l ∧ d = c then x else w.vreg k d := by
  have : (w.setVreg l c x).vreg k d = Store.get (Store.put w.vregs 0 (w.regKey l c) x) 0 (w.regKey k d) := rfl
  rw [this, Store.get_put]
  by_cases h : k = l ∧ d = c
  · simp [h.1, h.2]
  · rw [if_neg h, if_neg fun e => h (w.regKey_inj hd hc e)]
    rfl

@[simp] theorem Warp.vreg_clash (w : Warp) (k l c : Nat) : (w.clash k).vreg l c = w.vreg l c := rfl

theorem Warp.vreg_writeVreg (w : Warp) {l k c d : Nat} (x : W32) (hc : c < 0x324) (hd : d < 0x324) :
    (w.writeVreg l c x).vreg k d = if k = l ∧ d = c then x else w.vreg k d := by
  rw [Warp.writeVreg, Warp.vreg_clash, Warp.vreg_setVreg w x hc hd]

theorem Warp.vreg_shiftH (w : Warp) {l k d : Nat} (x : W32) (hd : d < 0x324) :
    (w.shiftH l x).vreg k d =
      if k = l ∧ 0x320 ≤ d then (if d = 0x320 then x else w.vreg l (d - 1)) else w.vreg k d := by
  unfold Warp.shiftH
  simp only []
  rw [Warp.vreg_setVreg _ _ (by omega) hd, Warp.vreg_setVreg _ _ (by omega) hd, Warp.vreg_setVreg _ _ (by omega) hd,
    Warp.vreg_setVreg _ _ (by omega) hd]
  by_cases hk : k = l
  · subst hk
    by_cases h : 0x320 ≤ d
    · have : d = 0x320 ∨ d = 0x321 ∨ d = 0x322 ∨ d = 0x323 := by omega
      rcases this with h | h | h | h <;> subst h <;> simp
    · rw [if_neg (by omega), if_neg (by omega), if_neg (by omega), if_neg (by omega), if_neg (by omega)]
  · simp [hk]

@[simp] theorem Warp.writeVreg_level (w : Warp) (l c : Nat) (x : W32) : (w.writeVreg l c x).level = w.level := rfl

@[simp] theorem Warp.shiftH_level (w : Warp) (l : Nat) (x : W32) : (w.shiftH l x).level = w.level := rfl

@[simp] theorem Warp.result_level (w : Warp) (c : Nat) (wide hist : Bool) (x : W64) (l : Nat) : (w.result c wide hist x l).level = w.level := by
  unfold Warp.result
  cases wide <;> cases hist <;> simp only [] <;> split <;> simp

/-- A fixed-latency result in one lane (04 R86, R87). -/
theorem Warp.vreg_result (w : Warp) {b l k c : Nat} {wide : Bool} (x : W64) (hb : b < 0x320) (hw : wide = true → b + 1 < 0x320)
    (hc : c < 0x324) :
    (w.result b wide true x l).vreg k c =
      if k = l then
        (if c = b then loWord x
        else if wide && c == b + 1 then hiWord x
        else if decide (c < 0x320) || (w.level && decide (codeO28 ≤ b ∧ b < codeO28 + 4)) then w.vreg k c
        else if c = 0x320 then loWord x
        else if wide then (if c = 0x321 then hiWord x else w.vreg k (c - 2))
        else w.vreg k (c - 1))
      else w.vreg k c := by
  unfold Warp.result
  simp only [Bool.not_true, Bool.or_false]
  generalize (w.level && decide (codeO28 ≤ b ∧ b < codeO28 + 4)) = bank
  have lo : (BitVec.setWidth 32 x : W32) = loWord x := rfl
  have hi : (BitVec.extractLsb' 32 32 x : W32) = hiWord x := rfl
  rw [lo, hi]
  generalize loWord x = lw
  generalize hiWord x = hw'
  have one : ∀ d, d < 0x324 → (w.writeVreg l b lw).vreg k d = if k = l ∧ d = b then lw else w.vreg k d :=
    fun d hd => Warp.vreg_writeVreg w (c := b) lw (by omega) hd
  by_cases hk : k = l
  · subst hk
    simp only [true_and] at one
    rw [if_pos rfl]
    cases wide with
    | false =>
      simp only [Bool.false_eq_true, if_false, Bool.false_and]
      cases bank with
      | true => simp only [if_true, Bool.or_true]; rw [one c hc]
      | false =>
        simp only [Bool.false_eq_true, if_false, Bool.or_false, decide_eq_true_eq]
        rw [Warp.vreg_shiftH _ _ hc, one c hc]
        by_cases h : 0x320 ≤ c
        · have h1 : c ≠ b := by omega
          have h2 : ¬ c < 0x320 := by omega
          by_cases hz : c = 0x320
          · simp only [h, h1, h2, hz, and_self, if_true, if_false]
            simp only [hz] at h1
            simp only [h1, if_false, Nat.lt_irrefl, Nat.le_refl, and_self, if_true]
          · have h3 : c - 1 ≠ b := by omega
            simp only [h, h1, h2, hz, and_self, if_true, if_false, one (c - 1) (by omega), h3]
        · have h2 : c < 0x320 := by omega
          simp only [h, h2, and_false, if_false, if_true]
    | true =>
      have hbw := hw rfl
      simp only [if_true, Bool.true_and]
      have two : ∀ d, d < 0x324 → ((w.writeVreg k b lw).writeVreg k (b + 1) hw').vreg k d =
          if d = b + 1 then hw' else if d = b then lw else w.vreg k d := by
        intro d hd
        rw [Warp.vreg_writeVreg _ (c := b + 1) _ (by omega) hd, one d hd]
        simp only [true_and]
      have flip : (if c = b + 1 then hw' else if c = b then lw else w.vreg k c) =
          if c = b then lw else if (c == b + 1) = true then hw' else w.vreg k c := by
        by_cases h1 : c = b
        · have : c ≠ b + 1 := by omega
          simp [h1]
        · simp [h1]
      cases bank with
      | true => simp only [if_true, Bool.or_true]; rw [two c hc, flip]
      | false =>
        simp only [Bool.false_eq_true, if_false, Bool.or_false, decide_eq_true_eq]
        rw [Warp.vreg_shiftH _ _ hc, Warp.vreg_shiftH _ _ hc, two c hc]
        by_cases h : 0x320 ≤ c
        · have h1 : c ≠ b := by omega
          have h4 : c ≠ b + 1 := by omega
          have h2 : ¬ c < 0x320 := by omega
          have h11 : (c == b + 1) = false := by simpa using h4
          by_cases hz : c = 0x320
          · rw [if_pos ⟨rfl, h⟩, if_pos hz, if_neg h1, h11, if_neg Bool.false_ne_true, if_neg h2, if_pos hz]
          · rw [if_pos ⟨rfl, h⟩, if_neg hz, if_neg h1, h11, if_neg Bool.false_ne_true, if_neg h2, if_neg hz,
              Warp.vreg_shiftH _ _ (by omega), if_pos ⟨rfl, by omega⟩]
            by_cases hy : c = 0x321
            · rw [if_pos (by omega), if_pos hy]
            · have h6 : c - 1 - 1 = c - 2 := by omega
              have h7 : c - 2 ≠ b := by omega
              have h8 : c - 2 ≠ b + 1 := by omega
              rw [if_neg (by omega), if_neg hy, two (c - 1 - 1) (by omega), h6, if_neg h8, if_neg h7]
        · have h2 : c < 0x320 := by omega
          simp only [h, h2, and_false, if_false, if_true]
          exact flip
  · rw [if_neg hk]
    have one' : ∀ d, d < 0x324 → (w.writeVreg l b lw).vreg k d = w.vreg k d := fun d hd => by rw [one d hd]; simp [hk]
    cases wide with
    | false =>
      simp only [Bool.false_eq_true, if_false]
      split
      · exact one' c hc
      · rw [Warp.vreg_shiftH _ _ hc, one' c hc]; simp [hk]
    | true =>
      have hbw := hw rfl
      have two' : ∀ d, d < 0x324 → ((w.writeVreg l b lw).writeVreg l (b + 1) hw').vreg k d = w.vreg k d := fun d hd => by
        rw [Warp.vreg_writeVreg _ (c := b + 1) _ (by omega) hd, one' d hd]; simp [hk]
      simp only [if_true]
      split
      · exact two' c hc
      · rw [Warp.vreg_shiftH _ _ hc, Warp.vreg_shiftH _ _ hc, two' c hc]; simp [hk]

/-- The results of a list of lanes (04 R86 to R88). -/
theorem Warp.vreg_results (w : Warp) {b k c : Nat} {wide : Bool} (val : Nat → W64) (hb : b < 0x320) (hw : wide = true → b + 1 < 0x320)
    (hc : c < 0x324) (ls : List Nat) (hn : ls.Nodup) :
    (ls.foldl (fun w l => w.result b wide true (val l) l) w).vreg k c =
      if k ∈ ls then (w.result b wide true (val k) k).vreg k c else w.vreg k c := by
  induction ls generalizing w with
  | nil => simp
  | cons l r ih =>
    rw [List.nodup_cons] at hn
    rw [List.foldl_cons, ih _ hn.2]
    by_cases hk : k = l
    · subst hk
      simp [hn.1]
    · simp only [List.mem_cons, hk, false_or]
      have same : ∀ d, d < 0x324 → (w.result b wide true (val l) l).vreg k d = w.vreg k d := by
        intro d hd
        rw [Warp.vreg_result w _ hb hw hd, if_neg hk]
      split
      · rw [Warp.vreg_result (w.result b wide true (val l) l) (val k) hb hw hc, Warp.vreg_result w (val k) hb hw hc, Warp.result_level,
          same c hc, same (c - 1) (by omega), same (c - 2) (by omega)]
      · exact same c hc

/-! ### What the writes leave alone -/

theorem Warp.SameBut.refl (x : Warp) : x.SameBut x := ⟨rfl, rfl⟩

theorem Warp.SameBut.trans {x y z : Warp} (h1 : x.SameBut y) (h2 : y.SameBut z) : x.SameBut z :=
  ⟨(congrArg (fun u => Warp.withRegs u x) h2.1).trans h1.1, h2.2.trans h1.2⟩

theorem Warp.clash_pend (w : Warp) (k : Nat) : (w.clash k).inFlight = w.inFlight := by
  simp only [Warp.inFlight, Warp.clash, List.map_map]
  apply List.map_congr_left
  intro p _
  simp only [Function.comp]
  split <;> rfl

theorem Warp.sameBut_writeVreg (w : Warp) (l c : Nat) (x : W32) : w.SameBut (w.writeVreg l c x) := ⟨rfl, Warp.clash_pend _ _⟩

theorem Warp.sameBut_setVreg (w : Warp) (l c : Nat) (x : W32) : w.SameBut (w.setVreg l c x) := ⟨rfl, rfl⟩

theorem Warp.sameBut_shiftH (w : Warp) (l : Nat) (x : W32) : w.SameBut (w.shiftH l x) :=
  (((w.sameBut_setVreg l 0x323 _).trans (Warp.sameBut_setVreg _ l 0x322 _)).trans (Warp.sameBut_setVreg _ l 0x321 _)).trans
    (Warp.sameBut_setVreg _ l 0x320 x)

theorem Warp.sameBut_setPred (w : Warp) (l p : Nat) (b : Bool) : w.SameBut (w.setPred l p b) := ⟨rfl, rfl⟩

theorem Warp.sameBut_result (w : Warp) (c : Nat) (wide hist : Bool) (x : W64) (l : Nat) : w.SameBut (w.result c wide hist x l) := by
  have h1 := w.sameBut_writeVreg l c (loWord x)
  have h2 := h1.trans ((w.writeVreg l c (loWord x)).sameBut_writeVreg l (c + 1) (hiWord x))
  unfold Warp.result
  cases wide <;> simp only [Bool.false_eq_true, if_false, if_true] <;> split
  · exact h1
  · exact h1.trans (Warp.sameBut_shiftH _ _ _)
  · exact h2
  · exact (h2.trans (Warp.sameBut_shiftH _ _ _)).trans (Warp.sameBut_shiftH _ _ _)

theorem Warp.sameBut_foldl {β : Type} (f : Warp → β → Warp) (h : ∀ w x, Warp.SameBut w (f w x)) (l : List β) (w : Warp) :
    w.SameBut (l.foldl f w) := by
  induction l generalizing w with
  | nil => exact Warp.SameBut.refl w
  | cons x r ih => exact (h w x).trans (ih _)

theorem Warp.foldl_eq {β γ : Type} (q : Warp → γ) (f : Warp → β → Warp) (h : ∀ w x, q (f w x) = q w) (l : List β) (w : Warp) :
    q (l.foldl f w) = q w := by
  induction l generalizing w with
  | nil => rfl
  | cons x r ih => rw [List.foldl_cons, ih, h]

/-! ### Predicates -/

theorem setBit8_get (x : W8) (n k : Nat) (b : Bool) (hn : n < 8) : (setBit8 x n b).getLsbD k = if k = n then b else x.getLsbD k := by
  have e : ∀ (x : W8) (n k : Fin 8) (b : Bool), (setBit8 x n.val b).getLsbD k.val = if k = n then b else x.getLsbD k.val := by
    intro x n k b
    unfold setBit8
    have h2 : (1#8 <<< n.val).getLsbD k.val = decide (k = n) := by revert n k; decide
    cases b
    · simp only [Bool.false_eq_true, if_false, BitVec.getLsbD_and, BitVec.getLsbD_not, h2, k.isLt, decide_true, Bool.true_and]
      by_cases h : k = n <;> simp [h]
    · simp only [if_true, BitVec.getLsbD_or, h2]
      by_cases h : k = n <;> simp [h]
  by_cases hk : k < 8
  · have := e x ⟨n, hn⟩ ⟨k, hk⟩ b
    simpa using this
  · have h1 : ∀ y : W8, y.getLsbD k = false := fun y => BitVec.getLsbD_of_ge y k (by omega)
    rw [h1, h1, if_neg (by omega)]

theorem Warp.predBit_lt (w : Warp) {p : Nat} (h : p < 7) : w.predBit p < 8 := by
  unfold Warp.predBit
  split <;> omega

theorem Warp.predBit_inj (w : Warp) {p q : Nat} (hp : p < 7) (hq : q < 7) (h : w.predBit p = w.predBit q) : p = q := by
  unfold Warp.predBit at h
  split at h <;> split at h <;> simp_all

theorem Warp.pred_setPred (w : Warp) {l k p q : Nat} (b : Bool) (hp : p < 7) (hq : q < 8) :
    (w.setPred l p b).pred k q = if q = p ∧ k = l then b else w.pred k q := by
  have e : (w.setPred l p b).pred k q =
      (q == 7 || (Store.get (Store.put w.preds 0 l (setBit8 (Store.get w.preds 0 l) (w.predBit p) b)) 0 k).getLsbD (w.predBit q)) := rfl
  rw [e, Store.get_put]
  by_cases hq7 : q = 7
  · subst hq7
    have : ¬ (7 = p ∧ k = l) := fun h => by omega
    simp [Warp.pred, this]
  · by_cases hk : k = l
    · subst hk
      rw [if_pos rfl, setBit8_get _ _ _ _ (w.predBit_lt hp)]
      by_cases hqp : q = p
      · subst hqp
        simp [hq7]
      · have : w.predBit q ≠ w.predBit p := fun h => hqp (w.predBit_inj (by omega) hp h)
        simp [this, hqp, Warp.pred]
    · simp [hk, Warp.pred]

end Sys2Proof.Machine
end

