-- ==== Sys2Proof/Laws/Alu.lean ====
section
/-!
SUPPORT. What the frame of the arithmetic forms does, once for every form: `computes_of_alu`.
-/

namespace Sys2Proof.Machine

/-! ### The frame relation -/

theorem Cur.withDone_fields {c d : Cur} (h : c.withDone d = d) :
    c.grp = d.grp ∧ c.wid = d.wid ∧ c.strm = d.strm ∧ c.pc = d.pc ∧ c.npc = d.npc :=
  have h1 := congrArg Cur.grp h
  have h2 := congrArg Cur.wid h
  have h3 := congrArg Cur.strm h
  have h4 := congrArg Cur.pc h
  have h5 := congrArg Cur.npc h
  ⟨h1, h2, h3, h4, h5⟩

theorem State.Frame.refl (s : State) : s.Frame s :=
  ⟨⟨rfl, rfl, fun _ _ => rfl⟩, rfl, fun _ _ => rfl, Warp.SameBut.refl _, fun _ => rfl, fun _ _ => rfl, rfl⟩

theorem State.Frame.trans {s t u : State} (h1 : s.Frame t) (h2 : t.Frame u) : s.Frame u := by
  obtain ⟨⟨a1, a2, a3⟩, b1, b2, b3, b4, b5, b6⟩ := h1
  obtain ⟨⟨c1, c2, c3⟩, d1, d2, d3, d4, d5, d6⟩ := h2
  obtain ⟨e1, e2, e3, -, -⟩ := Cur.withDone_fields a2
  have hx : t.curGroup = t.group s.cur.grp := by rw [State.curGroup, e1]
  rw [e1] at c3 d1 d2 d3 d4 d5 d6
  rw [e2] at d2 d3 d4
  rw [e3] at d4 d5 d6
  rw [hx] at d1 d2 d3 d4 d5 d6
  refine ⟨⟨(congrArg (fun x => State.withWork x s) c1).trans a1, (congrArg (fun x => Cur.withDone x s.cur) c2).trans a2,
    fun g hg => (c3 g hg).trans (a3 g hg)⟩, (congrArg (fun x => Group.withRegs x s.curGroup) d1).trans b1,
    fun w hw => (d2 w hw).trans (b2 w hw), b3.trans d3, fun h => (d4 h).trans (b4 h), fun st hst => (d5 st hst).trans (b5 st hst),
    (congrArg (fun x => Stream.withRegs x (s.curGroup.stream s.cur.strm)) d6).trans b6⟩

theorem State.frame_modCurWarp (s : State) (f : Warp → Warp) (hs : s.cur.strm = .e) (h : s.curWarp.SameBut (f s.curWarp)) :
    s.Frame (s.modCurWarp f) := by
  refine ⟨⟨rfl, rfl, fun g hg => State.group_modWarp_ne s _ f hg⟩, ?_⟩
  have hg : (s.modCurWarp f).group s.cur.grp = s.curGroup.modWarp s.cur.wid f := State.group_modWarp s _ _ f
  unfold State.SameGroup
  simp only [hg]
  refine ⟨rfl, fun w hw => Group.warp_modWarp_ne _ f hw, ?_, fun h' => absurd hs h', fun st hst => ?_, ?_⟩
  · rw [Group.warp_modWarp]; exact h
  · cases st <;> rfl
  · rw [hs]; rfl

theorem State.frame_modStream (s : State) (f : Stream → Stream) (hs : s.cur.strm ≠ .e)
    (h : (s.curGroup.stream s.cur.strm).SameBut (f (s.curGroup.stream s.cur.strm))) :
    s.Frame (s.modStream s.cur.grp s.cur.strm f) := by
  refine ⟨⟨rfl, rfl, fun g hg => State.group_modGroup_ne s _ hg⟩, ?_⟩
  have hg : (s.modStream s.cur.grp s.cur.strm f).group s.cur.grp = s.curGroup.modStream s.cur.strm f := State.group_modStream s _ _ f
  unfold State.SameGroup
  simp only [hg]
  have hw : ∀ w, (s.curGroup.modStream s.cur.strm f).warp w = s.curGroup.warp w := fun w => by
    rw [Group.warp, Group.warps_modStream]; rfl
  refine ⟨?_, fun w _ => hw w, ?_, fun _ => hw _, fun st hst => Group.stream_modStream_ne _ f hst, ?_⟩
  · cases hst : s.cur.strm <;> rfl
  · rw [hw]; exact Warp.SameBut.refl _
  · cases hst : s.cur.strm with
    | e => exact absurd hst hs
    | a => rw [hst] at h; exact h
    | m => rw [hst] at h; exact h

theorem State.frame_setGreg (s : State) (n : Nat) (v : W32) : s.Frame (s.setGreg n v) := by
  have hg : (s.setGreg n v).group s.cur.grp =
      { s.curGroup with gw := s.curGroup.gw ++ [⟨s.curGroup.gcount + 1, n, v⟩], gcount := s.curGroup.gcount + 1 } :=
    State.group_modGroup s _ _
  refine ⟨⟨rfl, rfl, fun g hg => State.group_modGroup_ne s _ hg⟩, ?_⟩
  unfold State.SameGroup
  simp only [hg]
  refine ⟨rfl, fun _ _ => rfl, Warp.SameBut.refl _, fun _ => rfl, fun st _ => ?_, ?_⟩
  · cases st <;> rfl
  · cases s.cur.strm <;> rfl

theorem State.frame_markDone (s : State) : s.Frame s.markDone :=
  ⟨⟨rfl, rfl, fun _ _ => rfl⟩, rfl, fun _ _ => rfl, Warp.SameBut.refl _, fun _ => rfl, fun _ _ => rfl, rfl⟩

theorem State.frame_foldl {β : Type} (f : State → β → State) (h : ∀ s x, State.Frame s (f s x)) (l : List β) (s : State) :
    s.Frame (l.foldl f s) := by
  induction l generalizing s with
  | nil => exact State.Frame.refl s
  | cons x r ih => exact (h s x).trans (ih _)

theorem State.frame_setSreg (s : State) (n : Nat) (x : W32) : s.Frame (s.setSreg n x) := by
  unfold State.setSreg
  split
  · rename_i h
    exact State.frame_modCurWarp s _ h ⟨rfl, Warp.clash_pend _ _⟩
  · rename_i h
    exact State.frame_modStream s _ h rfl

theorem State.frame_setPred (s : State) (l p : Nat) (b : Bool) : s.Frame (s.setPred l p b) := by
  unfold State.setPred
  split
  · rename_i h
    exact State.frame_modCurWarp s _ h (Warp.sameBut_setPred _ _ _ _)
  · rename_i h
    exact State.frame_modStream s _ h rfl

theorem State.frame_writePred (s : State) (p : Nat) (g : Lanes) (val : Nat → Bool) : s.Frame (s.writePred p g val) :=
  State.frame_foldl _ (fun s _ => State.frame_setPred s _ _ _) _ s

theorem State.frame_setFstat (s : State) (x : W32) : s.Frame (s.setFstat x) := by
  unfold State.setFstat
  split
  · rename_i h
    exact State.frame_modCurWarp s _ h ⟨rfl, rfl⟩
  · rename_i h
    exact State.frame_modStream s _ h rfl

theorem State.frame_raise (s : State) (l : List (Nat × W8)) : s.Frame (s.raise l) := by
  unfold State.raise
  split
  · exact State.Frame.refl s
  · exact State.frame_setFstat s _

theorem State.frame_advance (s : State) : s.Frame s.advance := by
  unfold State.advance State.modSplit
  refine State.Frame.trans ?_ (State.frame_markDone _)
  split
  · rename_i h
    exact State.frame_modCurWarp s _ h ⟨rfl, rfl⟩
  · rename_i h
    exact State.frame_modStream s _ h rfl

/-- The destination suits the issuing stream. -/
def State.dstFits (s : State) (x : Operand) : Prop :=
  (vecBase x ≠ none → s.cur.strm = .e) ∧ (uniformBase x ≠ none → s.cur.strm = .a)

theorem State.frame_writeDst (s : State) (x : Operand) (wide hist : Bool) (g : Lanes) (val : Nat → W64) (h : s.dstFits x) :
    s.Frame (s.writeDst x wide hist g val) := by
  have vec : ∀ code, s.cur.strm = .e →
      s.Frame (s.modCurWarp fun w => (laneList g).foldl (fun w l => w.result code wide hist (val l) l) w) := fun code hs =>
    State.frame_modCurWarp s _ hs (Warp.sameBut_foldl _ (fun w l => Warp.sameBut_result w _ _ _ _ _) _ _)
  cases x <;> unfold State.writeDst <;> simp only []
  case v n => exact vec _ (h.1 (by simp [vecBase]))
  case o n => exact vec _ (h.1 (by simp [vecBase]))
  case s n =>
    split
    · exact State.Frame.refl s
    · split
      · exact (State.frame_setSreg s _ _).trans (State.frame_setSreg _ _ _)
      · exact State.frame_setSreg s _ _
  case g n =>
    split
    · exact State.Frame.refl s
    · split
      · exact (State.frame_setGreg s _ _).trans (State.frame_setGreg _ _ _)
      · exact State.frame_setGreg s _ _
  all_goals exact State.Frame.refl s

theorem Warp.sameBut_modQueue (w : Warp) (q : Nat) (f : Queue → Queue) : w.SameBut (w.modQueue q f) := ⟨rfl, rfl⟩

theorem State.frame_popQueues (s : State) (g : Lanes) (qs : List Nat) (h : s.cur.strm = .e ∨ qs = []) : s.Frame (s.popQueues g qs) := by
  unfold State.popQueues
  split
  · exact State.Frame.refl s
  · rename_i hq
    rcases h with h | h
    · exact State.frame_modCurWarp s _ h (Warp.sameBut_foldl _ (fun w q => Warp.sameBut_modQueue w q _) _ _)
    · simp [h] at hq

/-! ### What each piece leaves of the registers -/

/-- What the statements read of the issuing stream's registers. -/
structure Regs where
  vregs : Store W32
  sregs : Store W32
  asregs : Store W32
  msregs : Store W32
  gw : List GWrite
  gbase : Store W32
  level : Bool
  deriving DecidableEq

/-- The registers of the issue. -/
def State.regs (s : State) : Regs :=
  ⟨s.curWarp.vregs, s.curWarp.sregs, s.curGroup.astr.sregs, s.curGroup.mstr.sregs, s.curGroup.gw, s.curGroup.gbase, s.curWarp.level⟩

theorem State.regs_modCurWarp (s : State) (f : Warp → Warp) (h1 : (f s.curWarp).vregs = s.curWarp.vregs)
    (h2 : (f s.curWarp).sregs = s.curWarp.sregs) (h3 : (f s.curWarp).level = s.curWarp.level) : (s.modCurWarp f).regs = s.regs := by
  simp [State.regs, h1, h2, h3]

theorem State.curGroup_modStream (s : State) (st : Strm) (f : Stream → Stream) :
    (s.modStream s.cur.grp st f).curGroup = s.curGroup.modStream st f := State.group_modStream s _ _ f

theorem State.curWarp_modStream (s : State) (st : Strm) (f : Stream → Stream) :
    (s.modStream s.cur.grp st f).curWarp = s.curWarp := by
  have : (s.modStream s.cur.grp st f).curWarp = (s.modStream s.cur.grp st f).curGroup.warp s.cur.wid := rfl
  rw [this, State.curGroup_modStream, Group.warp, Group.warps_modStream]
  rfl

theorem State.regs_modStream (s : State) (st : Strm) (f : Stream → Stream) (h : ∀ x, (f x).sregs = x.sregs) :
    (s.modStream s.cur.grp st f).regs = s.regs := by
  unfold State.regs
  rw [State.curWarp_modStream, State.curGroup_modStream]
  cases st <;> simp [Group.modStream, h]

theorem State.regs_setPred (s : State) (l p : Nat) (b : Bool) : (s.setPred l p b).regs = s.regs := by
  unfold State.setPred
  split
  · exact State.regs_modCurWarp s _ rfl rfl rfl
  · exact State.regs_modStream s _ _ fun _ => rfl

theorem State.regs_writePred (s : State) (p : Nat) (g : Lanes) (val : Nat → Bool) : (s.writePred p g val).regs = s.regs := by
  unfold State.writePred
  generalize laneList g = ls
  induction ls generalizing s with
  | nil => rfl
  | cons l r ih => rw [List.foldl_cons, ih, State.regs_setPred]

theorem State.regs_raise (s : State) (l : List (Nat × W8)) : (s.raise l).regs = s.regs := by
  unfold State.raise
  split
  · rfl
  · unfold State.setFstat
    split
    · exact State.regs_modCurWarp s _ rfl rfl rfl
    · exact State.regs_modStream s _ _ fun _ => rfl

theorem State.regs_advance (s : State) : s.advance.regs = s.regs := by
  unfold State.advance State.modSplit
  split
  · exact State.regs_modCurWarp s _ rfl rfl rfl
  · exact State.regs_modStream s _ _ fun _ => rfl

theorem State.regs_popQueues (s : State) (g : Lanes) (qs : List Nat) : (s.popQueues g qs).regs = s.regs := by
  unfold State.popQueues
  split
  · rfl
  · apply State.regs_modCurWarp
    · exact Warp.foldl_eq (fun w => w.vregs) (fun w q => w.modQueue q fun x => x.popBy g w.live fun _ => 1) (fun _ _ => rfl) _ _
    · exact Warp.foldl_eq (fun w => w.sregs) (fun w q => w.modQueue q fun x => x.popBy g w.live fun _ => 1) (fun _ _ => rfl) _ _
    · exact Warp.foldl_eq (fun w => w.level) (fun w q => w.modQueue q fun x => x.popBy g w.live fun _ => 1) (fun _ _ => rfl) _ _

/-! ### Predicates, flags and the program counter through each piece -/

theorem State.cur_setPred (s : State) (l p : Nat) (b : Bool) : (s.setPred l p b).cur = s.cur := by
  unfold State.setPred
  split <;> rfl

theorem State.cur_writePred (s : State) (p : Nat) (g : Lanes) (val : Nat → Bool) : (s.writePred p g val).cur = s.cur := by
  unfold State.writePred
  generalize laneList g = ls
  induction ls generalizing s with
  | nil => rfl
  | cons l r ih => rw [List.foldl_cons, ih, State.cur_setPred]

theorem State.cur_raise (s : State) (l : List (Nat × W8)) : (s.raise l).cur = s.cur := by
  unfold State.raise State.setFstat
  split
  · rfl
  · split <;> rfl

theorem State.cur_setSreg (s : State) (n : Nat) (x : W32) : (s.setSreg n x).cur = s.cur := by
  unfold State.setSreg
  split <;> rfl

theorem State.cur_writeDst (s : State) (x : Operand) (wide hist : Bool) (g : Lanes) (val : Nat → W64) :
    (s.writeDst x wide hist g val).cur = s.cur := by
  cases x <;> unfold State.writeDst <;> simp only []
  case v n => rfl
  case o n => rfl
  case s n =>
    split
    · rfl
    · split <;> simp only [State.cur_setSreg]
  case g n =>
    split
    · rfl
    · split <;> rfl

theorem State.cur_popQueues (s : State) (g : Lanes) (qs : List Nat) : (s.popQueues g qs).cur = s.cur := by
  unfold State.popQueues
  split <;> rfl

theorem State.done_advance (s : State) : s.advance.cur.done = true := rfl

theorem State.cur_advance (s : State) : s.advance.cur = { s.cur with done := true } := by
  unfold State.advance State.modSplit State.markDone
  split <;> rfl

/-- A destination is written without touching predicates, flags, splits or queues. -/
structure Ctl where
  preds : Store W8
  level : Bool
  fstat : W32
  splits : List Split
  queues : Store Queue
  live : Lanes
  ap : W8
  af : W32
  mp : W8
  mf : W32
  deriving DecidableEq

/-- The rest of what the statements read. -/
def State.ctl (s : State) : Ctl :=
  ⟨s.curWarp.preds, s.curWarp.level, s.curWarp.fstat, s.curWarp.splits, s.curWarp.queues, s.curWarp.live, s.curGroup.astr.preds,
    s.curGroup.astr.fstat, s.curGroup.mstr.preds, s.curGroup.mstr.fstat⟩

theorem State.ctl_modCurWarp (s : State) (f : Warp → Warp) (h : (f s.curWarp).preds = s.curWarp.preds ∧
    (f s.curWarp).level = s.curWarp.level ∧ (f s.curWarp).fstat = s.curWarp.fstat ∧ (f s.curWarp).splits = s.curWarp.splits ∧
    (f s.curWarp).queues = s.curWarp.queues ∧ (f s.curWarp).live = s.curWarp.live) : (s.modCurWarp f).ctl = s.ctl := by
  obtain ⟨h1, h2, h3, h4, h5, h6⟩ := h
  simp [State.ctl, h1, h2, h3, h4, h5, h6]

theorem State.ctl_modStream (s : State) (st : Strm) (f : Stream → Stream) (h : ∀ x, (f x).preds = x.preds ∧ (f x).fstat = x.fstat) :
    (s.modStream s.cur.grp st f).ctl = s.ctl := by
  unfold State.ctl
  rw [State.curWarp_modStream, State.curGroup_modStream]
  cases st <;> simp [Group.modStream, h]

theorem State.ctl_setSreg (s : State) (n : Nat) (x : W32) : (s.setSreg n x).ctl = s.ctl := by
  unfold State.setSreg
  split
  · exact State.ctl_modCurWarp s _ ⟨rfl, rfl, rfl, rfl, rfl, rfl⟩
  · exact State.ctl_modStream s _ _ fun _ => ⟨rfl, rfl⟩

theorem State.ctl_setGreg (s : State) (n : Nat) (v : W32) : (s.setGreg n v).ctl = s.ctl := by
  have hg : (s.setGreg n v).curGroup =
      { s.curGroup with gw := s.curGroup.gw ++ [⟨s.curGroup.gcount + 1, n, v⟩], gcount := s.curGroup.gcount + 1 } :=
    State.group_modGroup s _ _
  have hw : (s.setGreg n v).curWarp = s.curWarp := by
    have : (s.setGreg n v).curWarp = (s.setGreg n v).curGroup.warp s.cur.wid := rfl
    rw [this, hg]
    rfl
  unfold State.ctl
  rw [hg, hw]

theorem Warp.result_rest {γ : Type} (q : Warp → γ) (h1 : ∀ w l c x, q (Warp.setVreg w l c x) = q w) (h2 : ∀ w k, q (Warp.clash w k) = q w)
    (w : Warp) (c : Nat) (wide hist : Bool) (x : W64) (l : Nat) : q (w.result c wide hist x l) = q w := by
  have a : ∀ w l c x, q (Warp.writeVreg w l c x) = q w := fun w l c x => (h2 _ _).trans (h1 _ _ _ _)
  have b : ∀ w l x, q (Warp.shiftH w l x) = q w := fun w l x => by
    unfold Warp.shiftH
    simp only []
    rw [h1, h1, h1, h1]
  unfold Warp.result
  cases wide <;> simp only [Bool.false_eq_true, if_false, if_true] <;> split <;> simp only [a, b]

theorem State.ctl_writeDst (s : State) (x : Operand) (wide hist : Bool) (g : Lanes) (val : Nat → W64) :
    (s.writeDst x wide hist g val).ctl = s.ctl := by
  have vec : ∀ code, (s.modCurWarp fun w => (laneList g).foldl (fun w l => w.result code wide hist (val l) l) w).ctl = s.ctl := fun code =>
    State.ctl_modCurWarp s _
      ⟨Warp.foldl_eq (·.preds) _ (fun w l => Warp.result_rest (·.preds) (fun _ _ _ _ => rfl) (fun _ _ => rfl) w _ _ _ _ _) _ _,
        Warp.foldl_eq (·.level) _ (fun w l => Warp.result_rest (·.level) (fun _ _ _ _ => rfl) (fun _ _ => rfl) w _ _ _ _ _) _ _,
        Warp.foldl_eq (·.fstat) _ (fun w l => Warp.result_rest (·.fstat) (fun _ _ _ _ => rfl) (fun _ _ => rfl) w _ _ _ _ _) _ _,
        Warp.foldl_eq (·.splits) _ (fun w l => Warp.result_rest (·.splits) (fun _ _ _ _ => rfl) (fun _ _ => rfl) w _ _ _ _ _) _ _,
        Warp.foldl_eq (·.queues) _ (fun w l => Warp.result_rest (·.queues) (fun _ _ _ _ => rfl) (fun _ _ => rfl) w _ _ _ _ _) _ _,
        Warp.foldl_eq (·.live) _ (fun w l => Warp.result_rest (·.live) (fun _ _ _ _ => rfl) (fun _ _ => rfl) w _ _ _ _ _) _ _⟩
  cases x <;> unfold State.writeDst <;> simp only []
  case v n => exact vec _
  case o n => exact vec _
  case s n =>
    split
    · rfl
    · split <;> simp only [State.ctl_setSreg]
  case g n =>
    split
    · rfl
    · split <;> simp only [State.ctl_setGreg]

/-- A predicate of the issuing stream, from what it is kept in. -/
theorem State.pred_eq (s : State) (l p : Nat) :
    s.pred l p = match s.cur.strm with
      | .e => p == 7 || (Store.get s.ctl.preds 0 l).getLsbD (if s.ctl.level && p == 6 then 7 else p)
      | .a => p == 7 || s.ctl.ap.getLsbD p
      | .m => p == 7 || s.ctl.mp.getLsbD p := by
  unfold State.pred
  cases s.cur.strm <;> rfl

theorem State.fstat_eq (s : State) :
    s.fstat = match s.cur.strm with | .e => s.ctl.fstat | .a => s.ctl.af | .m => s.ctl.mf := by
  unfold State.fstat
  cases s.cur.strm <;> rfl

/-! ### Registers after the destination is written -/

theorem State.regs_writeDst_other (s : State) (x : Operand) (wide hist : Bool) (g : Lanes) (val : Nat → W64) (h1 : vecBase x = none)
    (h2 : scalarBase x = none) (h3 : uniformBase x = none) : (s.writeDst x wide hist g val).regs = s.regs := by
  cases x <;> simp_all [vecBase, scalarBase, uniformBase] <;> rfl

theorem State.curWarp_writeDst_vec (s : State) (x : Operand) (b : Nat) (wide hist : Bool) (g : Lanes) (val : Nat → W64) (h : vecBase x = some b) :
    (s.writeDst x wide hist g val).curWarp = (laneList g).foldl (fun w l => w.result b wide hist (val l) l) s.curWarp ∧
    (s.writeDst x wide hist g val).curGroup.gw = s.curGroup.gw ∧ (s.writeDst x wide hist g val).curGroup.gbase = s.curGroup.gbase ∧
    (s.writeDst x wide hist g val).curWarp.sregs = s.curWarp.sregs := by
  have sr : ∀ b, ((laneList g).foldl (fun w l => w.result b wide hist (val l) l) s.curWarp).sregs = s.curWarp.sregs := fun b =>
    Warp.foldl_eq (·.sregs) _ (fun w l => Warp.result_rest (·.sregs) (fun _ _ _ _ => rfl) (fun _ _ => rfl) w _ _ _ _ _) _ _
  cases x <;> simp [vecBase] at h <;> subst h <;> unfold State.writeDst <;> simp only [State.curWarp_modCurWarp, State.curGroup_modCurWarp]
  · exact ⟨trivial, rfl, rfl, sr _⟩
  · exact ⟨trivial, rfl, rfl, sr _⟩

theorem Warp.vreg_of_vregs {w v : Warp} (h1 : w.vregs = v.vregs) (h2 : w.level = v.level) (l c : Nat) : w.vreg l c = v.vreg l c := by
  unfold Warp.vreg Warp.regKey
  rw [h1, h2]

theorem vecBase_bound {x : Operand} {b : Nat} {wide : Bool} (h : vecBase x = some b) (hw : (Slot.dst wide).ok x = true) :
    b < 0x320 ∧ (wide = true → b + 1 < 0x320) := by
  cases x <;> simp [vecBase] at h
  case v n =>
    have := n.isLt
    clear hw
    exact ⟨by omega, fun _ => by omega⟩
  case o n =>
    have he : wide = true → n.val % 2 = 0 := fun e => by
      have h' : evenIf wide n.val = true := hw
      simpa [evenIf, e] using h'
    have := n.isLt
    clear hw
    refine ⟨by omega, fun e => ?_⟩
    have h2 := he e
    have h3 : n.val ≤ 30 := by
      clear he h
      omega
    rw [← h]
    exact Nat.lt_of_le_of_lt (Nat.succ_le_succ (Nat.add_le_add_left h3 768)) (by decide)

theorem State.vreg_writeDst (s : State) (x : Operand) (wide : Bool) (g : Lanes) (val : Nat → W64) (hx : (Slot.dst wide).ok x = true)
    {l c : Nat} (hc : c < 0x324) : (s.writeDst x wide true g val).curWarp.vreg l c = s.curWarp.after x wide g val l c := by
  cases hv : vecBase x with
  | none =>
    have h1 : s.curWarp.after x wide g val l c = s.curWarp.vreg l c := by simp [Warp.after, hv]
    have h2 : (s.writeDst x wide true g val).curWarp.vregs = s.curWarp.vregs := by
      have ss : ∀ (s : State) n v, (s.setSreg n v).curWarp.vregs = s.curWarp.vregs := by
        intro s n v
        unfold State.setSreg
        split
        · simp
        · rw [State.curWarp_modStream]
      have gg : ∀ (s : State) n v, (s.setGreg n v).curWarp.vregs = s.curWarp.vregs := by
        intro s n v
        have hg : (s.setGreg n v).curGroup.warps = s.curGroup.warps := by
          have : (s.setGreg n v).curGroup = _ := State.group_modGroup s _ _
          rw [this]
          rfl
        have : (s.setGreg n v).curWarp = (s.setGreg n v).curGroup.warp s.cur.wid := rfl
        rw [this, Group.warp, hg]
        rfl
      cases x <;> simp [vecBase] at hv <;> unfold State.writeDst <;> simp only []
      case s n =>
        split
        · rfl
        · split <;> simp only [ss]
      case g n =>
        split
        · rfl
        · split <;> simp only [gg]
    have h3 : (s.writeDst x wide true g val).curWarp.level = s.curWarp.level := congrArg Ctl.level (State.ctl_writeDst s x wide true g val)
    rw [h1, Warp.vreg_of_vregs h2 h3]
  | some b =>
    obtain ⟨hb, hw⟩ := vecBase_bound hv hx
    rw [(State.curWarp_writeDst_vec s x b wide true g val hv).1, Warp.vreg_results _ _ hb hw hc _ (laneList_nodup g)]
    simp only [Warp.after, hv, mem_laneList]
    by_cases hg : g.getLsbD l = true
    · rw [if_pos ⟨lane_lt hg, hg⟩, Warp.vreg_result _ _ hb hw hc, if_pos rfl, hg]
      simp only [Bool.not_true, Bool.false_eq_true, if_false]
    · rw [if_neg fun h => hg h.2]
      simp [hg]

/-- The scalar file of the issuing stream, from what it is kept in. -/
theorem State.scalarFile_eq (s t : State) (h : t.cur.grp = s.cur.grp ∧ t.cur.wid = s.cur.wid ∧ t.cur.strm = s.cur.strm) (n : Nat) :
    s.scalarFile t n = match s.cur.strm with
      | .e => Store.get t.regs.sregs 0 n | .a => Store.get t.regs.asregs 0 n | .m => Store.get t.regs.msregs 0 n := by
  unfold State.scalarFile State.issuer State.regs State.curWarp State.curGroup
  rw [h.1, h.2.1]
  cases s.cur.strm <;> rfl

/-- A scalar register read back from the file of the issuing stream. -/
def State.sfile (s : State) (n : Nat) : W32 :=
  match s.cur.strm with
  | .e => Store.get s.regs.sregs 0 n | .a => Store.get s.regs.asregs 0 n | .m => Store.get s.regs.msregs 0 n

theorem State.sfile_setSreg (s : State) (n k : Nat) (x : W32) : (s.setSreg n x).sfile k = if k = n then x else s.sfile k := by
  unfold State.sfile
  rw [State.cur_setSreg]
  unfold State.setSreg
  cases hs : s.cur.strm with
  | e =>
    simp only [State.regs, State.curWarp_modCurWarp]
    exact Store.get_put _ _ _ _ _
  | a =>
    simp only [State.regs, State.curGroup_modStream, Group.modStream]
    exact Store.get_put _ _ _ _ _
  | m =>
    simp only [State.regs, State.curGroup_modStream, Group.modStream]
    exact Store.get_put _ _ _ _ _

theorem State.sregs_setGreg (s : State) (n : Nat) (v : W32) :
    (s.setGreg n v).regs = { s.regs with gw := s.curGroup.gw ++ [⟨s.curGroup.gcount + 1, n, v⟩] } := by
  have hg : (s.setGreg n v).curGroup =
      { s.curGroup with gw := s.curGroup.gw ++ [⟨s.curGroup.gcount + 1, n, v⟩], gcount := s.curGroup.gcount + 1 } :=
    State.group_modGroup s _ _
  have hw : (s.setGreg n v).curWarp = s.curWarp := by
    have : (s.setGreg n v).curWarp = (s.setGreg n v).curGroup.warp s.cur.wid := rfl
    rw [this, hg]
    rfl
  unfold State.regs
  rw [hg, hw]

theorem State.sfile_writeDst (s : State) (x : Operand) (wide : Bool) (g : Lanes) (val : Nat → W64) (n : Nat) :
    (s.writeDst x wide true g val).sfile n = oneAfter (scalarBase x) wide g val n (s.sfile n) := by
  cases hs : scalarBase x with
  | none =>
    have h1 : oneAfter none wide g val n (s.sfile n) = s.sfile n := by simp [oneAfter]
    rw [h1]
    unfold State.sfile
    rw [State.cur_writeDst]
    cases hv : vecBase x with
    | some b =>
      have h := State.curWarp_writeDst_vec s x b wide true g val hv
      have ha : (s.writeDst x wide true g val).curGroup.astr = s.curGroup.astr ∧ (s.writeDst x wide true g val).curGroup.mstr = s.curGroup.mstr := by
        cases x <;> simp [vecBase] at hv <;> unfold State.writeDst <;> simp only [State.curGroup_modCurWarp] <;> exact ⟨rfl, rfl⟩
      simp only [State.regs, h.2.2.2, ha.1, ha.2]
    | none =>
      cases x <;> simp [vecBase, scalarBase] at hv hs <;> unfold State.writeDst <;> simp only []
      case g k =>
        cases lowLane g with
        | none => rfl
        | some l => cases wide <;> simp only [Bool.false_eq_true, if_false, if_true, State.sregs_setGreg]
  | some b =>
    cases x <;> simp [scalarBase] at hs
    subst hs
    unfold State.writeDst oneAfter
    simp only []
    cases lowLane g with
    | none => rfl
    | some l =>
      simp only []
      cases wide with
      | false =>
        simp only [Bool.false_eq_true, if_false, State.sfile_setSreg, Bool.false_and]
        rfl
      | true =>
        simp only [if_true, State.sfile_setSreg, Bool.true_and]
        rename_i k
        by_cases h1 : n = k.val
        · subst h1
          simp [loWord]
        · by_cases h2 : n = k.val + 1
          · simp [h2, hiWord]
          · simp [h1, h2]

/-- A group-uniform register as the A-stream reads it. -/
theorem State.greg_a (s : State) (n : Nat) (h : s.cur.strm = .a) :
    s.greg n = (s.regs.gw.filter fun w => w.reg == n).foldl (fun _ w => w.val) (Store.get s.regs.gbase 0 n) := by
  unfold State.greg
  simp only [h]
  rfl

theorem State.greg_of_regs {s t : State} (hs : s.cur.strm = .a) (ht : t.cur.strm = .a) (h : t.regs = s.regs) (n : Nat) : t.greg n = s.greg n := by
  rw [State.greg_a t n ht, State.greg_a s n hs, h]

theorem State.greg_setGreg (s : State) (n k : Nat) (v : W32) (h : s.cur.strm = .a) :
    (s.setGreg n v).greg k = if k = n then v else s.greg k := by
  rw [State.greg_a (s.setGreg n v) k h, State.greg_a s k h, State.sregs_setGreg]
  simp only [List.filter_append, List.foldl_append]
  by_cases hk : k = n
  · subst hk
    simp [List.filter]
  · have : ((n : Nat) == k) = false := by simpa using Ne.symm hk
    simp [List.filter, this, hk]
    rfl

theorem State.greg_writeDst (s : State) (x : Operand) (wide : Bool) (g : Lanes) (val : Nat → W64) (n : Nat) (h : s.cur.strm = .a)
    (hf : s.dstFits x) : (s.writeDst x wide true g val).greg n = oneAfter (uniformBase x) wide g val n (s.greg n) := by
  have hc : ∀ y, (s.writeDst y wide true g val).cur.strm = .a := fun y => by rw [State.cur_writeDst]; exact h
  cases hu : uniformBase x with
  | some b =>
    cases x <;> simp [uniformBase] at hu
    subst hu
    unfold State.writeDst oneAfter
    simp only []
    cases lowLane g with
    | none => rfl
    | some l =>
      simp only []
      cases wide with
      | false =>
        simp only [Bool.false_eq_true, if_false, Bool.false_and]
        rw [State.greg_setGreg _ _ _ _ h]
        rfl
      | true =>
        simp only [if_true, Bool.true_and]
        rw [State.greg_setGreg _ _ _ _ (by exact h), State.greg_setGreg _ _ _ _ h]
        rename_i k
        by_cases h1 : n = k.val
        · subst h1
          simp [loWord]
        · by_cases h2 : n = k.val + 1
          · simp [h2, hiWord]
          · simp [h1, h2]
  | none =>
    have h1 : oneAfter none wide g val n (s.greg n) = s.greg n := by simp [oneAfter]
    rw [h1]
    cases hv : vecBase x with
    | some b => exact absurd (hf.1 (by simp [hv])) (by rw [h]; simp)
    | none =>
      cases hs : scalarBase x with
      | none => exact State.greg_of_regs h (hc x) (State.regs_writeDst_other s x wide true g val hv hs hu) n
      | some b =>
        cases x <;> simp [scalarBase] at hs
        have ss : ∀ (t : State) k v, t.cur.strm = .a → (t.setSreg k v).greg n = t.greg n := by
          intro t k v ht
          rw [State.greg_a _ _ (by rw [State.cur_setSreg]; exact ht), State.greg_a t n ht]
          unfold State.setSreg
          rw [ht]
          simp only [State.regs, State.curGroup_modStream, Group.modStream]
        unfold State.writeDst
        simp only []
        cases lowLane g with
        | none => rfl
        | some l =>
          cases wide <;> simp only [Bool.false_eq_true, if_false, if_true]
          · exact ss _ _ _ h
          · rw [ss _ _ _ (by rw [State.cur_setSreg]; exact h), ss _ _ _ h]

/-- A destination that is no group-uniform register leaves the record of writes to those as it is. -/
theorem State.gw_writeDst (s : State) (x : Operand) (wide : Bool) (g : Lanes) (val : Nat → W64) (h : uniformBase x = none) :
    (s.writeDst x wide true g val).curGroup.gw = s.curGroup.gw := by
  cases hv : vecBase x with
  | some b => exact (State.curWarp_writeDst_vec s x b wide true g val hv).2.1
  | none =>
    have ss : ∀ (t : State) k v, (t.setSreg k v).curGroup.gw = t.curGroup.gw := by
      intro t k v
      unfold State.setSreg
      cases t.cur.strm with
      | e => simp
      | a => simp only [State.curGroup_modStream, Group.modStream]
      | m => simp only [State.curGroup_modStream, Group.modStream]
    cases x <;> simp [vecBase, uniformBase] at hv h <;> unfold State.writeDst <;> simp only []
    case s n =>
      split
      · rfl
      · split <;> simp only [ss]

/-! ### Predicates after a write -/

theorem State.pred_setPred (s : State) (l p k q : Nat) (b : Bool) (hp : p < 7) (hq : q < 8) (hl : s.cur.strm = .e ∨ l = k) :
    (s.setPred l p b).pred k q = if q = p ∧ k = l then b else s.pred k q := by
  unfold State.setPred State.pred
  cases hs : s.cur.strm with
  | e =>
    simp only [State.modCurWarp_cur, hs, State.curWarp_modCurWarp]
    exact Warp.pred_setPred _ _ hp hq
  | a =>
    have hk : l = k := hl.resolve_left (by rw [hs]; simp)
    subst hk
    simp only [State.modStream_cur, hs, State.curGroup_modStream, Group.modStream, Group.stream, setBit8_get _ _ _ _ (show p < 8 by omega)]
    by_cases h : q = p
    · subst h
      have : (q == 7) = false := by simp; omega
      simp [this]
    · simp [h]
  | m =>
    have hk : l = k := hl.resolve_left (by rw [hs]; simp)
    subst hk
    simp only [State.modStream_cur, hs, State.curGroup_modStream, Group.modStream, Group.stream, setBit8_get _ _ _ _ (show p < 8 by omega)]
    by_cases h : q = p
    · subst h
      have : (q == 7) = false := by simp; omega
      simp [this]
    · simp [h]

theorem State.pred_writePred (s : State) (p k q : Nat) (g : Lanes) (val : Nat → Bool) (hp : p < 7) (hq : q < 8)
    (hl : s.cur.strm = .e ∨ (k = 0 ∧ ∀ l, l ∈ laneList g → l = 0)) :
    (s.writePred p g val).pred k q = if q = p ∧ g.getLsbD k = true then val k else s.pred k q := by
  have key : ∀ (ls : List Nat) (s : State), ls.Nodup → (s.cur.strm = .e ∨ (k = 0 ∧ ∀ l, l ∈ ls → l = 0)) →
      (ls.foldl (fun s l => s.setPred l p (val l)) s).pred k q = if q = p ∧ k ∈ ls then val k else s.pred k q := by
    intro ls
    induction ls with
    | nil => intros; simp
    | cons l r ih =>
      intro s hn hl
      rw [List.nodup_cons] at hn
      have hl' : s.cur.strm = .e ∨ l = k := hl.imp_right fun h => (h.2 l (by simp)).trans h.1.symm
      rw [List.foldl_cons, ih _ hn.2 (by rw [State.cur_setPred]; exact hl.imp_right fun h => ⟨h.1, fun m hm => h.2 m (by simp [hm])⟩),
        State.pred_setPred s l p k q (val l) hp hq hl']
      by_cases hk : k = l
      · subst hk
        simp [hn.1]
      · simp [hk]
  unfold State.writePred
  rw [key _ s (laneList_nodup g) hl]
  simp only [mem_laneList]
  by_cases h : g.getLsbD k = true
  · simp [h, lane_lt h]
  · simp [h]

end Sys2Proof.Machine
end

