-- ==== Sys2Proof/Laws/Computes.lean ====
section
/-!
SUPPORT. The frame of every encoded form (`issue_of_executes`), and everything an arithmetic form does (`computes_of_alu`).
-/

namespace Sys2Proof.Machine

/-! ### The frame of an encoded form -/

theorem State.executes_iff (s : State) (i : Instr) (f : Full) :
    s.executes i f = true ↔ i.wf = true ∧ (s.cur.valid = true ∧ s.cur.done = false ∧ s.cur.stuck = false ∧
      (s.cur.strm = .e ∨ s.cur.lanes = 1)) ∧ s.issueTrap i f = none ∧ (s.queueGate (s.gLive f) (s.queuesRead i f)).isGo = true := by
  simp [State.executes, Cur.fresh, and_assoc]

/-- A form that executes takes its effect and pops its queue sources. -/
theorem State.issue_of_executes {s : State} {i : Instr} {f : Full} (h : s.executes i f = true) (body : State → State)
    (hb : (body s).cur.stuck = false) :
    s.issue i f body =
      .next (if (body s).cur.done then (body s).popQueues (s.gLive f &&& (body s).cur.lanes) (s.queuesRead i f) else body s) := by
  obtain ⟨-, ⟨h1, -⟩, h4, h5⟩ := (State.executes_iff s i f).mp h
  unfold State.issue
  rw [h1, h4]
  simp only [Bool.not_true, Bool.false_eq_true, if_false]
  have e : (if s.cur.strm = .e then queuesOf f (shapeOf i) else []) = s.queuesRead i f := rfl
  rw [e]
  cases hq : s.queueGate (s.gLive f) (s.queuesRead i f) with
  | go => simp only [hb, Bool.false_eq_true, if_false]
  | stop t => rw [hq] at h5; exact absurd h5 (by simp [QueueGate.isGo])

theorem Instr.wf_full {i : Instr} {f : Full} {r : Raw} (h : rawOf i = some (f, r)) (hw : i.wf = true) :
    f.wf (shapeOf i) = true ∧ fieldsOk i = true := by
  unfold Instr.wf at hw
  split at hw
  · simp [rawOf] at h
  · rw [h] at hw
    simpa using hw

theorem Full.wf_fields {f : Full} {sh : Shape} (h : f.wf sh = true) :
    sh.d.ok f.d = true ∧ sh.a.ok f.a = true ∧ sh.b.ok f.b = true ∧ sh.c.ok f.c = true := by
  simp only [Full.wf, Bool.and_eq_true] at h
  exact ⟨h.1.1.1.1.1, h.1.1.1.1.2, h.1.1.1.2, h.1.1.2⟩

theorem State.operandOk_of_issueTrap {s : State} {i : Instr} {f : Full} (h : s.issueTrap i f = none) :
    s.operandOk f (shapeOf i).d f.d = true := by
  unfold State.issueTrap at h
  split at h
  · simp at h
  · split at h
    · rename_i h2
      simp only [Bool.and_eq_true] at h2
      have := List.all_eq_true.mp h2.1.1 ((shapeOf i).d, f.d) (by simp [fieldsOf])
      simpa using this
    · simp at h

theorem State.dstFits_of_executes {s : State} {i : Instr} {f : Full} {r : Raw} {wide : Bool} (h : s.executes i f = true)
    (hr : rawOf i = some (f, r)) (hd : (shapeOf i).d = .dst wide ∨ (shapeOf i).d = .raw) :
    s.dstFits f.d ∧ (Slot.dst wide).ok f.d = true := by
  obtain ⟨hw, -, h4, -⟩ := (State.executes_iff s i f).mp h
  have ho := State.operandOk_of_issueTrap h4
  have hs := (Full.wf_fields (Instr.wf_full hr hw).1).1
  rcases hd with hd | hd <;> rw [hd] at ho hs
  · refine ⟨?_, hs⟩
    generalize f.d = x at ho hs
    cases x with
    | v n => exact ⟨fun _ => by simp [State.operandOk] at ho; exact ho.1, fun h => absurd rfl h⟩
    | o n => exact ⟨fun _ => by simpa [State.operandOk] using ho, fun h => absurd rfl h⟩
    | g n => exact ⟨fun h => absurd rfl h, fun _ => by simpa [State.operandOk, slotIsDst] using ho⟩
    | _ => exact ⟨fun h => absurd rfl h, fun h => absurd rfl h⟩
  · have hx : f.d = .null := by
      have : (f.d == Operand.null) = true := hs
      exact eq_of_beq this
    rw [hx]
    exact ⟨⟨fun h => absurd rfl h, fun h => absurd rfl h⟩, rfl⟩

/-! ### Flags, predicates and splits through the pieces -/

theorem State.fstat_setPred (s : State) (l p : Nat) (b : Bool) : (s.setPred l p b).fstat = s.fstat := by
  unfold State.setPred State.fstat
  cases hs : s.cur.strm with
  | e => simp only [State.modCurWarp_cur, hs, State.curWarp_modCurWarp]; rfl
  | a => simp only [State.modStream_cur, hs, State.curGroup_modStream, Group.modStream, Group.stream]
  | m => simp only [State.modStream_cur, hs, State.curGroup_modStream, Group.modStream, Group.stream]

theorem State.splits_setPred (s : State) (l p : Nat) (b : Bool) : (s.setPred l p b).curWarp.splits = s.curWarp.splits := by
  unfold State.setPred
  split
  · rw [State.curWarp_modCurWarp]; rfl
  · rw [State.curWarp_modStream]

theorem State.queues_setPred (s : State) (l p : Nat) (b : Bool) : (s.setPred l p b).curWarp.queues = s.curWarp.queues := by
  unfold State.setPred
  split
  · rw [State.curWarp_modCurWarp]; rfl
  · rw [State.curWarp_modStream]

theorem State.level_setPred (s : State) (l p : Nat) (b : Bool) : (s.setPred l p b).curWarp.level = s.curWarp.level := by
  unfold State.setPred
  split
  · rw [State.curWarp_modCurWarp]; rfl
  · rw [State.curWarp_modStream]

theorem State.writePred_keeps {γ : Type} (q : State → γ) (h : ∀ s l p b, q (State.setPred s l p b) = q s) (s : State) (p : Nat) (g : Lanes)
    (val : Nat → Bool) : q (s.writePred p g val) = q s := by
  unfold State.writePred
  generalize laneList g = ls
  induction ls generalizing s with
  | nil => rfl
  | cons l r ih => rw [List.foldl_cons, ih, h]

theorem State.fstat_setFstat (s : State) (x : W32) : (s.setFstat x).fstat = x := by
  unfold State.setFstat State.fstat
  cases hs : s.cur.strm with
  | e => simp only [State.modCurWarp_cur, hs, State.curWarp_modCurWarp]
  | a => simp only [State.modStream_cur, hs, State.curGroup_modStream, Group.modStream, Group.stream]
  | m => simp only [State.modStream_cur, hs, State.curGroup_modStream, Group.modStream, Group.stream]

theorem State.raised_raise (s : State) (l : List (Nat × W8)) : s.Raised (s.raise l) l := by
  unfold State.Raised State.raise
  by_cases h : s.cur.strm = .e ∧ s.curWarp.level = true
  · simp [h]
  · have : (decide (s.cur.strm = .e) && s.curWarp.level) = false := by
      by_cases h1 : s.cur.strm = .e
      · have : s.curWarp.level ≠ true := fun h2 => h ⟨h1, h2⟩
        simpa [h1] using this
      · simp [h1]
    rw [if_neg h, this]
    exact State.fstat_setFstat s _

theorem State.pred_raise (s : State) (fl : List (Nat × W8)) (l p : Nat) : (s.raise fl).pred l p = s.pred l p := by
  unfold State.raise
  split
  · rfl
  · unfold State.setFstat State.pred
    cases hs : s.cur.strm with
    | e => simp only [State.modCurWarp_cur, hs, State.curWarp_modCurWarp]; rfl
    | a => simp only [State.modStream_cur, hs, State.curGroup_modStream, Group.modStream, Group.stream]
    | m => simp only [State.modStream_cur, hs, State.curGroup_modStream, Group.modStream, Group.stream]

theorem State.warp_raise {γ : Type} (q : Warp → γ) (h : ∀ (w : Warp) x, q { w with fstat := x } = q w) (s : State) (fl : List (Nat × W8)) :
    q (s.raise fl).curWarp = q s.curWarp := by
  unfold State.raise
  split
  · rfl
  · unfold State.setFstat
    split
    · rw [State.curWarp_modCurWarp]; exact h _ _
    · rw [State.curWarp_modStream]

theorem State.ctl_advance (s : State) : s.advance.ctl = { s.ctl with splits := s.advance.curWarp.splits } := by
  have hm : ∀ t : State, t.markDone.ctl = t.ctl ∧ t.markDone.curWarp = t.curWarp := fun _ => ⟨rfl, rfl⟩
  unfold State.advance
  rw [(hm _).1, (hm _).2]
  unfold State.modSplit
  split
  · unfold State.ctl
    rw [State.curWarp_modCurWarp, State.curGroup_modCurWarp]
    rfl
  · unfold State.ctl
    rw [State.curWarp_modStream, State.curGroup_modStream]
    cases s.cur.strm <;> rfl

theorem State.pred_advance (s : State) (l p : Nat) : s.advance.pred l p = s.pred l p := by
  rw [State.pred_eq, State.pred_eq, State.ctl_advance, State.cur_advance]

theorem State.fstat_advance (s : State) : s.advance.fstat = s.fstat := by
  rw [State.fstat_eq, State.fstat_eq, State.ctl_advance, State.cur_advance]

theorem State.queues_advance (s : State) : s.advance.curWarp.queues = s.curWarp.queues := congrArg Ctl.queues (State.ctl_advance s)

theorem replaceSplit_map (l : List Split) (m : Lanes) (g : Split → Split) :
    (l.flatMap fun x => if x.lanes == m then [g x] else [x]) = l.map fun x => if x.lanes = m then g x else x := by
  induction l with
  | nil => rfl
  | cons x r ih =>
    rw [List.flatMap_cons, ih, List.map_cons]
    by_cases h : x.lanes = m <;> simp [h]

theorem State.splits_advance (s : State) (h : s.cur.strm = .e) : s.advance.curWarp.splits = s.curWarp.splits.map fun x =>
    if x.lanes = s.cur.lanes then { x with pc := s.cur.npc, wait := .ready, bp := 0, wd := 0 } else x := by
  have : (s.modCurWarp (·.replaceSplit s.cur.lanes fun x => [{ x with pc := s.cur.npc, wait := .ready, bp := 0, wd := 0 }])).curWarp =
    s.curWarp.replaceSplit s.cur.lanes _ := State.curWarp_modCurWarp s _
  have e : s.advance.curWarp = (s.modCurWarp (·.replaceSplit s.cur.lanes fun x =>
      [{ x with pc := s.cur.npc, wait := .ready, bp := 0, wd := 0 }])).curWarp := by
    unfold State.advance State.modSplit
    rw [h]
    rfl
  rw [e, this, Warp.replaceSplit]
  exact replaceSplit_map _ _ _

theorem State.stream_advance (s : State) (h : s.cur.strm ≠ .e) :
    (s.advance.curGroup.stream s.cur.strm).pc = s.cur.npc ∧ (s.advance.curGroup.stream s.cur.strm).wait = .ready := by
  have e : s.advance.curGroup = (s.modStream s.cur.grp s.cur.strm fun x => { x with pc := s.cur.npc, wait := .ready, bp := 0 }).curGroup := by
    unfold State.advance State.modSplit
    cases hs : s.cur.strm with
    | e => exact absurd hs h
    | a => rfl
    | m => rfl
  rw [e, State.curGroup_modStream]
  cases hs : s.cur.strm with
  | e => exact absurd hs h
  | a => exact ⟨rfl, rfl⟩
  | m => exact ⟨rfl, rfl⟩

theorem State.warp_popQueues {γ : Type} (q : Warp → γ) (h : ∀ (w : Warp) k f, q (w.modQueue k f) = q w) (s : State) (g : Lanes) (qs : List Nat) :
    q (s.popQueues g qs).curWarp = q s.curWarp := by
  unfold State.popQueues
  split
  · rfl
  · rw [State.curWarp_modCurWarp]
    exact Warp.foldl_eq q (fun w k => w.modQueue k fun x => x.popBy g w.live fun _ => 1) (fun _ _ => h _ _ _) _ _

theorem State.group_popQueues (s : State) (g : Lanes) (qs : List Nat) (st : Strm) :
    (s.popQueues g qs).curGroup.stream st = s.curGroup.stream st := by
  unfold State.popQueues
  split
  · rfl
  · rw [State.curGroup_modCurWarp]
    cases st <;> rfl

theorem State.pred_popQueues (s : State) (g : Lanes) (qs : List Nat) (l p : Nat) : (s.popQueues g qs).pred l p = s.pred l p := by
  unfold State.pred
  rw [State.cur_popQueues]
  cases s.cur.strm with
  | e => exact State.warp_popQueues (fun w => w.pred l p) (fun _ _ _ => rfl) s g qs
  | a => simp only [State.group_popQueues]
  | m => simp only [State.group_popQueues]

theorem State.fstat_popQueues (s : State) (g : Lanes) (qs : List Nat) : (s.popQueues g qs).fstat = s.fstat := by
  unfold State.fstat
  rw [State.cur_popQueues]
  cases s.cur.strm with
  | e => exact State.warp_popQueues (fun w => w.fstat) (fun _ _ _ => rfl) s g qs
  | a => simp only [State.group_popQueues]
  | m => simp only [State.group_popQueues]

theorem mem_gLanes {s : State} {f : Full} {l : Nat} (h : l ∈ laneList (s.gLanes f)) : l ∈ laneList s.cur.lanes := by
  have key : ∀ (ls : List Nat) (p : Nat → Bool) (acc : Lanes), (∀ l, acc.getLsbD l = true → l ∈ laneList s.cur.lanes) →
      (∀ l, l ∈ ls → l ∈ laneList s.cur.lanes) →
      ∀ l, (ls.foldl (fun acc n => if p n then acc ||| laneBit n else acc) acc).getLsbD l = true → l ∈ laneList s.cur.lanes := by
    intro ls p
    induction ls with
    | nil => intro acc h1 _ l h; exact h1 l h
    | cons n r ih =>
      intro acc h1 h2 l h
      refine ih _ ?_ (fun l hl => h2 l (by simp [hl])) l h
      intro k hk
      beta_reduce at hk
      split at hk
      · rw [BitVec.getLsbD_or, Bool.or_eq_true] at hk
        rcases hk with hk | hk
        · exact h1 k hk
        · have : k = n := by
            simp only [laneBit, BitVec.getLsbD_shiftLeft, Bool.and_eq_true, decide_eq_true_eq, Bool.not_eq_true', decide_eq_false_iff_not,
              BitVec.getLsbD_one] at hk
            omega
          subst this
          exact h2 k (by simp)
      · exact h1 k hk
  refine key (laneList s.cur.lanes) (s.guard f) 0 (fun l h => by simp at h) (fun l hl => hl) l ?_
  exact ((mem_laneList _ _).mp h).2

/-! ### An arithmetic form -/

/-- A trap leaves the record of the issue as it was. -/
theorem State.cur_trap (s : State) (t : Trap) : (s.trap t).cur = s.cur := by
  have hp : ∀ r, (s.postFault r).2.cur = s.cur := fun r => by unfold State.postFault; split <;> rfl
  have hd : ∀ (x : State) g w, (x.deliver g w).cur = x.cur := fun x g w => by
    unfold State.deliver
    simp only []
    split
    · rfl
    · split <;> rfl
  unfold State.trap
  split
  · unfold State.trapWarp
    simp only []
    split
    · rfl
    · split
      · exact hp _
      · split
        · exact hp _
        · exact hd _ _ _
  · unfold State.trapStream
    simp only []
    split
    · exact hp _
    · rfl

/-- Everything an arithmetic form does where it executes and no enabled flag traps. -/
theorem computed_of_alu {i : Instr} {f : Full} {r : Raw} {wide : Bool} {pd : Option Nat} {out : State → Nat → AluOut}
    (hx : ∀ s, exec i s = s.issue i f fun s => s.alu f wide pd (out s)) (hr : rawOf i = some (f, r))
    (hd : (shapeOf i).d = .dst wide ∨ (shapeOf i).d = .raw) (hp : ∀ p, pd = some p → i.wf = true → p < 7) (s : State)
    (he : s.executes i f = true) (hfl : s.flagTrap (s.flagsOf f (out s)) = none) :
    ∃ t, exec i s = .next t ∧ s.Computed t i f wide pd (out s) := by
  obtain ⟨hdf, hok⟩ := State.dstFits_of_executes he hr hd
  obtain ⟨hw, ⟨hv, hnd, hnk, hst⟩, -, -⟩ := (State.executes_iff s i f).mp he
  have hq : s.cur.strm = .e ∨ s.queuesRead i f = [] := by
    by_cases h : s.cur.strm = .e
    · exact .inl h
    · exact .inr (by simp [State.queuesRead, h])
  have hlan : s.cur.strm = .e ∨ ∀ l, l ∈ laneList (s.gLanes f) → l = 0 := by
    rcases hst with h | h
    · exact .inl h
    · refine .inr fun l hl => ?_
      have := mem_gLanes hl
      rw [h, mem_laneList] at this
      have h2 : (1#64).getLsbD l = true := this.2
      rw [BitVec.getLsbD_one] at h2
      simpa using h2
  rw [hx s]
  have ha : s.alu f wide pd (out s) =
      (((match pd with
        | some p => (s.writeDst f.d wide true (s.gLanes f) fun l => (outOf (lanesOut (s.gLanes f) (out s)) l).val).writePred p (s.gLanes f)
            fun l => (outOf (lanesOut (s.gLanes f) (out s)) l).pred
        | none => s.writeDst f.d wide true (s.gLanes f) fun l => (outOf (lanesOut (s.gLanes f) (out s)) l).val).raise (s.flagsOf f (out s))).advance) := by
    unfold State.alu
    simp only []
    have hfl' : s.flagTrap (liveFlags s.liveMask (lanesOut (s.gLanes f) (out s))) = none := hfl
    rw [hfl']
    rfl
  -- the lanes' results
  have hout : ∀ l, l ∈ laneList (s.gLanes f) → outOf (lanesOut (s.gLanes f) (out s)) l = out s l := by
    intro l hl
    unfold outOf lanesOut
    generalize laneList (s.gLanes f) = ls at hl
    induction ls with
    | nil => simp at hl
    | cons k r ih =>
      simp only [List.map_cons, Store.get]
      by_cases hk : k = l
      · rw [if_pos hk, hk]
      · rw [if_neg hk]
        exact ih (by simpa [Ne.symm hk] using hl)
  generalize hval : (fun l => (outOf (lanesOut (s.gLanes f) (out s)) l).val) = val at ha
  generalize hpr : (fun l => (outOf (lanesOut (s.gLanes f) (out s)) l).pred) = prd at ha
  have hvl : ∀ l, (s.gLanes f).getLsbD l = true → val l = (out s l).val := fun l hl => by
    rw [← hval]
    simp only [hout l ((mem_laneList _ _).mpr ⟨lane_lt hl, hl⟩)]
  have hpl : ∀ l, (s.gLanes f).getLsbD l = true → prd l = (out s l).pred := fun l hl => by
    rw [← hpr]
    simp only [hout l ((mem_laneList _ _).mpr ⟨lane_lt hl, hl⟩)]
  -- the state after the destination and the predicates
  generalize hs2 : (match pd with
    | some p => (s.writeDst f.d wide true (s.gLanes f) val).writePred p (s.gLanes f) prd
    | none => s.writeDst f.d wide true (s.gLanes f) val) = s2 at ha
  have hc1 : (s.writeDst f.d wide true (s.gLanes f) val).cur = s.cur := State.cur_writeDst s _ _ _ _ _
  have hc2 : s2.cur = s.cur := by
    subst hs2
    cases pd with
    | none => exact hc1
    | some p => rw [State.cur_writePred, hc1]
  have hf2 : s.Frame s2 := by
    subst hs2
    cases pd with
    | none => exact State.frame_writeDst s _ _ _ _ _ hdf
    | some p => exact (State.frame_writeDst s _ _ _ _ _ hdf).trans (State.frame_writePred _ _ _ _)
  have hr2 : s2.regs = (s.writeDst f.d wide true (s.gLanes f) val).regs := by
    subst hs2
    cases pd with
    | none => rfl
    | some p => exact State.regs_writePred _ _ _ _
  have hctl : (s.writeDst f.d wide true (s.gLanes f) val).ctl = s.ctl := State.ctl_writeDst s _ _ _ _ _
  have hctl2 : s2.fstat = s.fstat ∧ s2.curWarp.splits = s.curWarp.splits ∧ s2.curWarp.queues = s.curWarp.queues ∧
      s2.curWarp.level = s.curWarp.level := by
    have h0 : (s.writeDst f.d wide true (s.gLanes f) val).fstat = s.fstat := by
      rw [State.fstat_eq, State.fstat_eq, hctl, hc1]
    have h1 := congrArg Ctl.splits hctl
    have h2 := congrArg Ctl.queues hctl
    have h3 := congrArg Ctl.level hctl
    subst hs2
    cases pd with
    | none => exact ⟨h0, h1, h2, h3⟩
    | some p =>
      exact ⟨(State.writePred_keeps State.fstat (fun s l p b => State.fstat_setPred s l p b) _ _ _ _).trans h0,
        (State.writePred_keeps (fun s => s.curWarp.splits) (fun s l p b => State.splits_setPred s l p b) _ _ _ _).trans h1,
        (State.writePred_keeps (fun s => s.curWarp.queues) (fun s l p b => State.queues_setPred s l p b) _ _ _ _).trans h2,
        (State.writePred_keeps (fun s => s.curWarp.level) (fun s l p b => State.level_setPred s l p b) _ _ _ _).trans h3⟩
  have hpred2 : ∀ l p, p < 8 → (s.cur.strm = .e ∧ l < 64 ∨ l = 0) →
      s2.pred l p = if pd = some p ∧ (s.gLanes f).getLsbD l = true then prd l else s.pred l p := by
    intro l p hp8 hl
    have h0 : (s.writeDst f.d wide true (s.gLanes f) val).pred l p = s.pred l p := by
      rw [State.pred_eq, State.pred_eq, hctl, hc1]
    subst hs2
    cases pd with
    | none => simp [h0]
    | some q =>
      have hq7 := hp q rfl hw
      have hcond : (s.writeDst f.d wide true (s.gLanes f) val).cur.strm = .e ∨ (l = 0 ∧ ∀ k, k ∈ laneList (s.gLanes f) → k = 0) := by
        rw [hc1]
        rcases hl with hl | hl
        · exact .inl hl.1
        · exact hlan.imp_right fun h => ⟨hl, h⟩
      rw [State.pred_writePred _ q l p _ _ hq7 hp8 hcond, h0]
      by_cases hpq : p = q
      · subst hpq; simp
      · simp [hpq, Ne.symm hpq]
  have hcA : ((s2.raise (s.flagsOf f (out s))).advance).cur = { s.cur with done := true } := by
    rw [State.cur_advance, State.cur_raise, hc2]
  rw [State.issue_of_executes he _ (by rw [ha, hcA]; exact hnk), ha, hcA]
  simp only [if_true]
  refine ⟨_, rfl, ?_⟩
  generalize hg : s.gLive f &&& s.cur.lanes = gp
  generalize ht : ((s2.raise (s.flagsOf f (out s))).advance).popQueues gp (s.queuesRead i f) = t
  have hcT : t.cur = { s.cur with done := true } := by rw [← ht, State.cur_popQueues, hcA]
  have hrT : t.regs = (s.writeDst f.d wide true (s.gLanes f) val).regs := by
    rw [← ht, State.regs_popQueues, State.regs_advance, State.regs_raise, hr2]
  have hiw : s.issuer t = t.curWarp := by unfold State.issuer State.curWarp; rw [hcT]
  have hig : t.group s.cur.grp = t.curGroup := by unfold State.curGroup; rw [hcT]
  have hkept : t.curWarp.level = s.curWarp.level := by
    rw [← ht, State.warp_popQueues (·.level) (fun _ _ _ => rfl)]
    have h1 := congrArg Regs.level (State.regs_advance (s2.raise (s.flagsOf f (out s))))
    have h2 := State.warp_raise (·.level) (fun _ _ => rfl) s2 (s.flagsOf f (out s))
    exact (h1.trans h2).trans hctl2.2.2.2
  constructor
  · -- the frame
    rw [← ht]
    refine ((hf2.trans (State.frame_raise _ _)).trans (State.frame_advance _)).trans (State.frame_popQueues _ _ _ ?_)
    rw [hcA]
    exact hq
  · -- the result
    refine ⟨fun l c hl hc => ?_, fun n hn => ?_, fun hs n hn => ?_, fun hu => ?_⟩
    · have hvr : (s.issuer t).vreg l c = (s.writeDst f.d wide true (s.gLanes f) val).curWarp.vreg l c := by
        rw [hiw]
        exact Warp.vreg_of_vregs (congrArg Regs.vregs hrT) (hkept.trans (congrArg Ctl.level hctl).symm) l c
      rw [hvr, State.vreg_writeDst s f.d wide (s.gLanes f) val hok hc]
      unfold Warp.after
      cases vecBase f.d with
      | none => rfl
      | some b =>
        simp only []
        by_cases hgl : (s.gLanes f).getLsbD l = true
        · rw [hvl l hgl]
        · simp [hgl]
    · rw [State.scalarFile_eq s t ⟨by rw [hcT], by rw [hcT], by rw [hcT]⟩, State.scalarFile_eq s s ⟨rfl, rfl, rfl⟩]
      have h1 := State.sfile_writeDst s f.d wide (s.gLanes f) val n
      unfold State.sfile at h1
      rw [hc1, ← hrT] at h1
      rw [h1]
      unfold oneAfter
      cases hb : scalarBase f.d with
      | none => rfl
      | some b =>
        cases hl : lowLane (s.gLanes f) with
        | none => rfl
        | some l =>
          have hm : l ∈ laneList (s.gLanes f) := List.mem_of_mem_head? hl
          simp only [hvl l ((mem_laneList _ _).mp hm).2]
    · have h1 := State.greg_writeDst s f.d wide (s.gLanes f) val n hs hdf
      rw [State.greg_of_regs (by rw [hc1]; exact hs) (by rw [hcT]; exact hs) hrT n, h1]
      unfold oneAfter
      cases hb : uniformBase f.d with
      | none => rfl
      | some b =>
        cases hl : lowLane (s.gLanes f) with
        | none => rfl
        | some l =>
          have hm : l ∈ laneList (s.gLanes f) := List.mem_of_mem_head? hl
          simp only [hvl l ((mem_laneList _ _).mp hm).2]
    · rw [hig]
      exact (congrArg Regs.gw hrT).trans (State.gw_writeDst s f.d wide (s.gLanes f) val hu)
  · -- predicates
    intro l p hp8 hl
    rw [← ht, State.pred_popQueues, State.pred_advance, State.pred_raise, hpred2 l p hp8 hl]
    by_cases hgl : (s.gLanes f).getLsbD l = true
    · simp [hpl l hgl]
    · simp [hgl]
  · -- flags
    have h1 := State.raised_raise s2 (s.flagsOf f (out s))
    unfold State.Raised at h1 ⊢
    rw [hc2, hctl2.2.2.2, hctl2.1] at h1
    rw [← ht, State.fstat_popQueues, State.fstat_advance, h1]
  · -- the program counter
    unfold State.Advanced
    have hcR : (s2.raise (s.flagsOf f (out s))).cur = s.cur := by rw [State.cur_raise, hc2]
    cases hs : s.cur.strm with
    | e =>
      simp only []
      rw [hiw, ← ht, State.warp_popQueues (·.splits) (fun _ _ _ => rfl), State.splits_advance _ (by rw [hcR]; exact hs), hcR,
        State.warp_raise (·.splits) (fun _ _ => rfl), hctl2.2.1]
    | a =>
      simp only []
      rw [hig, ← ht, State.group_popQueues]
      have := State.stream_advance (s2.raise (s.flagsOf f (out s))) (by rw [hcR, hs]; simp)
      rw [hcR, hs] at this
      exact this
    | m =>
      simp only []
      rw [hig, ← ht, State.group_popQueues]
      have := State.stream_advance (s2.raise (s.flagsOf f (out s))) (by rw [hcR, hs]; simp)
      rw [hcR, hs] at this
      exact this
  · -- queues
    intro hqr
    rw [hiw, ← ht, hqr]
    have e : ((s2.raise (s.flagsOf f (out s))).advance).popQueues gp [] = (s2.raise (s.flagsOf f (out s))).advance := by
      simp [State.popQueues]
    rw [e, State.queues_advance, State.warp_raise (·.queues) (fun _ _ => rfl), hctl2.2.2.1]

/-- Everything an arithmetic form does where it executes. -/
theorem computes_of_alu {i : Instr} {f : Full} {r : Raw} {wide : Bool} {pd : Option Nat} {out : State → Nat → AluOut}
    (hx : ∀ s, exec i s = s.issue i f fun s => s.alu f wide pd (out s)) (hr : rawOf i = some (f, r))
    (hd : (shapeOf i).d = .dst wide ∨ (shapeOf i).d = .raw) (hp : ∀ p, pd = some p → i.wf = true → p < 7) :
    Computes i f wide pd out := by
  intro s he
  cases hfl : s.flagTrap (s.flagsOf f (out s)) with
  | none => exact computed_of_alu hx hr hd hp s he hfl
  | some tr =>
    simp only []
    have ha : s.alu f wide pd (out s) = s.trap tr := by
      unfold State.alu
      have h : s.flagTrap (liveFlags s.liveMask (lanesOut (s.gLanes f) (out s))) = some tr := hfl
      simp only [h]
    have hc := ((State.executes_iff s i f).mp he).2.1
    rw [hx s, State.issue_of_executes he _ (by rw [ha, State.cur_trap]; exact hc.2.2.1), ha, State.cur_trap, hc.2.1]
    rfl

end Sys2Proof.Machine
end

