-- ==== Sys2Proof/Laws/Memory.lean ====
section
/-!
SUPPORT. Home memory: a read after a write, and the canonical form that every operation on memory keeps.
-/

namespace Sys2Proof.Machine

/-! ### Reads after writes -/

theorem Mem.byte_setByte (m : Mem) (a b : Nat) (x : W8) : (m.setByte a x).byte b = if b = a then x else m.byte b := by
  simp [Mem.byte, Mem.setByte, Store.get_put]

theorem Mem.byte_setBytes_out (m : Mem) (a b : Nat) (l : List W8) (h : b < a ∨ a + l.length ≤ b) :
    (m.setBytes a l).byte b = m.byte b := by
  induction l generalizing m a with
  | nil => rfl
  | cons x r ih =>
    simp only [List.length_cons] at h
    rw [Mem.setBytes, ih _ _ (by omega), Mem.byte_setByte, if_neg (by omega)]

theorem Mem.byte_setBytes_in (m : Mem) (a k : Nat) (l : List W8) (h : k < l.length) :
    (m.setBytes a l).byte (a + k) = l[k] := by
  induction l generalizing m a k with
  | nil => simp at h
  | cons x r ih =>
    rw [Mem.setBytes]
    cases k with
    | zero => rw [Mem.byte_setBytes_out _ _ _ _ (by omega), Mem.byte_setByte]; simp
    | succ k =>
      have := ih (m.setByte a x) (a + 1) k (by simpa using h)
      rw [show a + (k + 1) = a + 1 + k by omega, this]
      simp

@[simp] theorem Mem.byte_write (m : Mem) (a b : Nat) (l : List W8) : (m.write a l).byte b = (m.setBytes a l).byte b := rfl

@[simp] theorem bytesOf_length (n v : Nat) : (bytesOf n v).length = n := by
  induction n generalizing v with
  | zero => rfl
  | succ n ih => simp [bytesOf, ih]

/-- A write of n bytes leaves every other byte alone. -/
theorem Mem.byte_writeNat_out (m : Mem) (a n v b : Nat) (h : b < a ∨ a + n ≤ b) : (m.writeNat a n v).byte b = m.byte b := by
  rw [Mem.writeNat, Mem.byte_write, Mem.byte_setBytes_out _ _ _ _ (by simpa using h)]

theorem Mem.read_congr (m n : Mem) (a k : Nat) (h : ∀ b, a ≤ b → b < a + k → m.byte b = n.byte b) : m.read a k = n.read a k := by
  induction k generalizing a with
  | zero => rfl
  | succ k ih =>
    rw [Mem.read, Mem.read, h a (by omega) (by omega), ih (a + 1) fun b h1 h2 => h b (by omega) (by omega)]

theorem Mem.read_setBytes_bytesOf (m : Mem) (a n v : Nat) : (m.setBytes a (bytesOf n v)).read a n = v % 256 ^ n := by
  induction n generalizing m a v with
  | zero => simp [Mem.read, Nat.mod_one]
  | succ n ih =>
    rw [bytesOf, Mem.setBytes, Mem.read, ih, Mem.byte_setBytes_out _ _ _ _ (by omega), Mem.byte_setByte]
    have hx : (BitVec.ofNat 8 v).toNat = v % 256 := by simp [BitVec.toNat_ofNat]
    rw [if_pos rfl, hx, Nat.pow_succ', Nat.mod_mul]

/-- A read of what was written at the same place. -/
theorem Mem.read_writeNat (m : Mem) (a n v : Nat) : (m.writeNat a n v).read a n = v % 256 ^ n := by
  rw [Mem.read_congr (m.writeNat a n v) (m.setBytes a (bytesOf n v)) a n fun _ _ _ => rfl, Mem.read_setBytes_bytesOf]

/-! ### The canonical form -/

theorem Store.wf_filter [DecidableEq α] (s : Store α) (d : α) (p : Nat × α → Bool) (h : Store.wf s d = true) :
    Store.wf (s.filter p : Store α) d = true := by
  simp only [Store.wf, Bool.and_eq_true, List.all_eq_true, bne_iff_ne] at h ⊢
  refine ⟨?_, fun q hq => h.2 q (List.mem_filter.mp hq).1⟩
  have key : ∀ (s : Store α) (b : Nat), Store.rising s b = true → Store.rising (s.filter p : Store α) b = true := by
    intro s
    induction s with
    | nil => intros; rfl
    | cons q r ih =>
      intro b hb
      simp only [Store.rising, Bool.and_eq_true, decide_eq_true_eq] at hb
      have h2 := ih (q.1 + 1) hb.2
      by_cases hq : p q = true
      · rw [List.filter_cons_of_pos hq]
        simp only [Store.rising, Bool.and_eq_true, decide_eq_true_eq]
        exact ⟨hb.1, h2⟩
      · rw [List.filter_cons_of_neg hq]
        exact Store.rising_mono _ (by omega) h2
  exact key s 0 h.1

theorem Store.wf_putAll [DecidableEq α] (s : Store α) (d : α) (l : List (Nat × α)) (h : Store.wf s d = true) :
    Store.wf (Store.putAll s d l) d = true := by
  induction l generalizing s with
  | nil => exact h
  | cons p r ih => exact ih _ (Store.wf_put s d p.2 p.1 h)

/-- What the canonical form is about. -/
theorem Mem.wf_congr {m n : Mem} (h1 : n.home = m.home) (h2 : n.tags = m.tags) (h3 : n.poison = m.poison) (h : m.wf = true) :
    n.wf = true := by
  simpa [Mem.wf, h1, h2, h3] using h

theorem Mem.wf_iff (m : Mem) :
    m.wf = true ↔ Store.wf m.home 0 = true ∧ Store.wf m.tags false = true ∧ Store.wf m.poison false = true := by
  simp [Mem.wf, and_assoc]

theorem Mem.wf_ite (c : Prop) [Decidable c] {a b : Mem} (ha : a.wf = true) (hb : b.wf = true) : (if c then a else b).wf = true := by
  split
  · exact ha
  · exact hb

/-- A fold of steps that keep a property keeps it. -/
theorem foldl_keeps {α β : Type} (P : α → Prop) (f : α → β → α) (l : List β) (h : ∀ a b, P a → P (f a b)) (a : α) (ha : P a) :
    P (l.foldl f a) := by
  induction l generalizing a with
  | nil => exact ha
  | cons x r ih => exact ih _ (h a x ha)

theorem Mem.wf_reset : Mem.reset.wf = true := by decide

theorem Mem.wf_setByte (m : Mem) (a : Nat) (x : W8) (h : m.wf = true) : (m.setByte a x).wf = true := by
  rw [Mem.wf_iff] at h ⊢
  simp only [Mem.setByte]
  exact ⟨Store.wf_put _ _ _ _ h.1, Store.wf_put _ _ _ _ h.2.1, h.2.2⟩

theorem Mem.wf_setBytes (m : Mem) (a : Nat) (l : List W8) (h : m.wf = true) : (m.setBytes a l).wf = true := by
  induction l generalizing m a with
  | nil => exact h
  | cons x r ih => exact ih _ _ (Mem.wf_setByte m a x h)

theorem Mem.wf_heal (m : Mem) (a n : Nat) (h : m.wf = true) : (m.heal a n).wf = true := by
  rw [Mem.wf_iff] at h ⊢
  exact ⟨h.1, h.2.1, Store.wf_filter _ _ _ h.2.2⟩

theorem Mem.wf_write (m : Mem) (a : Nat) (l : List W8) (h : m.wf = true) : (m.write a l).wf = true :=
  Mem.wf_congr rfl rfl rfl (Mem.wf_heal _ a l.length (Mem.wf_setBytes m a l h))

theorem Mem.wf_writeNat (m : Mem) (a n v : Nat) (h : m.wf = true) : (m.writeNat a n v).wf = true := Mem.wf_write m a _ h

theorem Mem.wf_putTag (m : Mem) (k : Nat) (b : Bool) (h : m.wf = true) :
    ({ m with tags := Store.put m.tags false k b } : Mem).wf = true := by
  rw [Mem.wf_iff] at h ⊢
  exact ⟨h.1, Store.wf_put _ _ _ _ h.2.1, h.2.2⟩

theorem Mem.wf_putPoison (m : Mem) (k : Nat) (b : Bool) (h : m.wf = true) :
    ({ m with poison := Store.put m.poison false k b } : Mem).wf = true := by
  rw [Mem.wf_iff] at h ⊢
  exact ⟨h.1, h.2.1, Store.wf_put _ _ _ _ h.2.2⟩

theorem Mem.wf_setTags4 (m : Mem) (a : Nat) (t : BitVec 4) (h : m.wf = true) : (m.setTags4 a t).wf = true := by
  refine foldl_keeps (fun m => Mem.wf m = true) _ _ (fun m k hm => ?_) m h
  split
  · exact Mem.wf_putTag m _ _ hm
  · exact hm

theorem Mem.wf_writeParts (m : Mem) (l : List (Nat × Nat)) (v : Nat) (h : m.wf = true) : (m.writeParts l v).wf = true := by
  induction l generalizing m v with
  | nil => exact h
  | cons p r ih => exact ih _ _ (Mem.wf_writeNat m _ _ _ h)

theorem Mem.wf_setCache (m : Mem) (id : CacheId) (l : List Line) (h : m.wf = true) : (m.setCache id l).wf = true := by
  cases id <;> exact Mem.wf_congr rfl rfl rfl h

theorem Mem.wf_putLine (m : Mem) (id : CacheId) (l : Line) (h : m.wf = true) : (m.putLine id l).wf = true := by
  unfold Mem.putLine
  simp only []
  split <;> exact Mem.wf_setCache _ _ _ h

theorem Mem.wf_cleanLine (m : Mem) (id : CacheId) (t : LineTag) (h : m.wf = true) : (m.cleanLine id t).wf = true :=
  Mem.wf_setCache _ _ _ h

theorem Mem.wf_dropLine (m : Mem) (id : CacheId) (t : LineTag) (h : m.wf = true) : (m.dropLine id t).wf = true :=
  Mem.wf_setCache _ _ _ h

theorem Mem.wf_merge (m : Mem) (w : WriteBack) (h : m.wf = true) : (m.merge w).wf = true := by
  unfold Mem.merge
  simp only []
  refine Mem.wf_congr rfl rfl rfl (foldl_keeps (fun m => Mem.wf m = true) _ _ (fun m i hm => ?_) _
    (foldl_keeps (fun m => Mem.wf m = true) _ _ (fun m i hm => ?_) _
      (foldl_keeps (fun m => Mem.wf m = true) _ _ (fun m i hm => ?_) m h)))
  · exact Mem.wf_congr rfl rfl rfl hm
  · split
    · exact Mem.wf_putPoison m _ _ hm
    · split
      · exact Mem.wf_putPoison m _ _ hm
      · exact hm
  · exact Mem.wf_congr rfl rfl rfl (Mem.wf_setByte m _ _ hm)

theorem Mem.wf_drain (m : Mem) (c : Nat) (h : m.wf = true) : (m.drain c).wf = true := by
  have key : ∀ (n : Mem) (q l : List WriteBack), n.wf = true → (l.foldl (fun (x : Mem) w => x.merge (m.free w)) { n with wbq := q }).wf = true :=
    fun n q l hn => foldl_keeps (fun m => Mem.wf m = true) _ _ (fun x w hx => Mem.wf_merge x _ hx) _ (Mem.wf_congr (m := n) rfl rfl rfl hn)
  exact key m _ _ h

theorem Mem.wf_mergeOne (m : Mem) (c : Nat) (h : m.wf = true) : (m.mergeOne c).wf = true := by
  unfold Mem.mergeOne
  split
  · exact h
  · split
    · exact h
    · exact Mem.wf_merge _ _ (Mem.wf_congr rfl rfl rfl h)

theorem Mem.wf_sendCC (m : Mem) (c : Nat) (l : Line) (h : m.wf = true) : (m.sendCC c l).wf = true := by
  unfold Mem.sendCC
  split
  · exact h
  · exact Mem.wf_congr rfl rfl rfl (Mem.wf_cleanLine m (.cc c) ⟨l.part, l.asid, l.vline⟩ h)

theorem Mem.wf_sendOldest (m : Mem) (c : Nat) (o : Option Line) (h : m.wf = true) :
    (match o with | some l => m.sendCC c l | none => m).wf = true := by
  cases o with
  | none => exact h
  | some l => exact Mem.wf_sendCC m c l h

theorem Mem.wf_tick (m : Mem) (h : m.wf = true) : m.tick.wf = true := Mem.wf_congr (m := m) rfl rfl rfl h

theorem Mem.wf_markShared (m : Mem) (p : Nat) (h : m.wf = true) : (m.markShared p).wf = true := Mem.wf_congr rfl rfl rfl h

theorem Mem.wf_served (m : Mem) (t : LineTag) (p : Nat) (h : m.wf = true) : (m.served t p).wf = true := by
  unfold Mem.served
  simp only []
  split
  · exact h
  · split <;> exact Mem.wf_congr (m := m) rfl rfl rfl h

theorem Mem.wf_roomCC (m : Mem) (c : Nat) (t : LineTag) (h : m.wf = true) : (m.roomCC c t).wf = true := by
  unfold Mem.roomCC
  split
  · exact h
  · exact Mem.wf_dropLine _ _ _ (Mem.wf_sendCC _ _ _ h)

theorem Mem.wf_storeCC (m : Mem) (c : Nat) (t : LineTag) (p : Nat) (k : BitVec 128) (d : BitVec 1024) (x : BitVec 4) (h : m.wf = true) :
    (m.storeCC c t p k d x).wf = true := by
  unfold Mem.storeCC
  simp only []
  exact Mem.wf_putLine _ _ _ (Mem.wf_tick _ (Mem.wf_served _ _ _ (Mem.wf_roomCC _ _ _ (Mem.wf_ite _ (Mem.wf_sendOldest m c _ h) h))))

theorem Mem.wf_backL1 (m : Mem) (co c : Nat) (l : Line) (h : m.wf = true) : (m.backL1 co c l).wf = true := by
  unfold Mem.backL1
  split
  · exact h
  · exact Mem.wf_storeCC _ _ _ _ _ _ _ (Mem.wf_cleanLine m _ _ h)

theorem Mem.wf_roomL1 (m : Mem) (co c : Nat) (t : LineTag) (h : m.wf = true) : (m.roomL1 co c t).wf = true := by
  unfold Mem.roomL1
  split
  · exact h
  · exact Mem.wf_dropLine _ _ _ (Mem.wf_backL1 _ _ _ _ h)

theorem Mem.wf_storeL1 (m : Mem) (co c : Nat) (t : LineTag) (p : Nat) (k : BitVec 128) (d : BitVec 1024) (h : m.wf = true) :
    (m.storeL1 co c t p k d).wf = true := by
  unfold Mem.storeL1
  simp only []
  refine Mem.wf_putLine _ _ _ (Mem.wf_tick _ (Mem.wf_served _ _ _ (Mem.wf_roomL1 _ _ _ _ (Mem.wf_ite _ ?_ h))))
  cases m.oldest (.l1 co) with
  | none => exact h
  | some l => exact Mem.wf_backL1 m co c l h

theorem Mem.wf_flushL1 (m : Mem) (co c : Nat) (own : Line → Bool) (h : m.wf = true) : (m.flushL1 co c own).1.wf = true :=
  foldl_keeps (fun m => Mem.wf m = true) _ _ (fun m l hm => Mem.wf_backL1 m co c l hm) m h

theorem Mem.wf_flushCC (m : Mem) (c : Nat) (own : Line → Bool) (h : m.wf = true) : (m.flushCC c own).1.wf = true :=
  Mem.wf_drain _ c (foldl_keeps (fun m => Mem.wf m = true) _ _ (fun m l hm => Mem.wf_sendCC m c l hm) m h)

theorem Mem.wf_drainAll (m : Mem) (h : m.wf = true) : m.drainAll.wf = true :=
  foldl_keeps (fun m => Mem.wf m = true) _ _ (fun m c hm => Mem.wf_drain m c hm) m h

theorem Mem.wf_flushAll (m : Mem) (own : Line → Bool) (h : m.wf = true) : (m.flushAll own).wf = true := by
  unfold Mem.flushAll
  exact Mem.wf_drainAll _ (foldl_keeps (fun m => Mem.wf m = true) _ _ (fun m _ hm => Mem.wf_flushCC _ _ _ hm) _
    (foldl_keeps (fun m => Mem.wf m = true) _ _ (fun m _ hm => Mem.wf_flushL1 _ _ _ _ hm) m h))

theorem Mem.wf_without (m : Mem) (gone : Line → Bool) (h : m.wf = true) : (m.without gone).wf = true :=
  Mem.wf_congr (m := m) rfl rfl rfl h

theorem Mem.wf_purgeLines (m : Mem) (hit : Line → Bool) (h : m.wf = true) : (m.purgeLines hit).wf = true :=
  Mem.wf_without _ _ (Mem.wf_flushAll m hit h)

theorem Mem.wf_backLine (m : Mem) (p : Nat) (h : m.wf = true) : (m.backLine p).wf = true := Mem.wf_flushAll m (·.pline == p) h

theorem Mem.wf_serve (m : Mem) (t : LineTag) (p : Nat) (h : m.wf = true) : (m.serve t p).wf = true := by
  unfold Mem.serve
  exact Mem.wf_ite _ (Mem.wf_backLine _ _ (Mem.wf_served _ _ _ h)) (Mem.wf_served _ _ _ h)

theorem Mem.wf_dropClean (m : Mem) (id : CacheId) (p a : Nat) (h : m.wf = true) : (m.dropClean id p a).wf = true :=
  Mem.wf_setCache _ _ _ h

theorem Mem.wf_fillCC (m : Mem) (c : Nat) (t : LineTag) (p o n : Nat) (h : m.wf = true) : (m.fillCC c t p o n).wf = true := by
  unfold Mem.fillCC
  exact Mem.wf_ite _ h (Mem.wf_putLine _ _ _ (Mem.wf_tick _ (Mem.wf_roomCC _ _ _ (Mem.wf_serve _ _ _ (Mem.wf_drain _ _ h)))))

theorem Mem.wf_fillL1 (m : Mem) (co c : Nat) (t : LineTag) (p o n : Nat) (h : m.wf = true) : (m.fillL1 co c t p o n).wf = true := by
  unfold Mem.fillL1
  split
  · exact h
  · have h1 := Mem.wf_tick _ (Mem.wf_fillCC _ c t (((m.line (.l1 co) t).map (·.pline)).getD p) o n (Mem.wf_roomL1 m co c t h))
    simp only []
    split
    · exact Mem.wf_putLine _ _ _ h1
    · exact h1

theorem Mem.wf_push (m : Mem) (a : Agent) (l : Loc) (v : Nat) (h : m.wf = true) : (m.push a l v).wf = true := by
  unfold Mem.push
  split
  · exact h
  · simp only []
    have h1 : ∀ (o : Option Line) (m : Mem) (co c : Nat), m.wf = true →
        (match o with | some x => m.backL1 co c x | none => m).wf = true := by
      intro o m co c hm
      cases o with
      | none => exact hm
      | some x => exact Mem.wf_backL1 _ _ _ _ hm
    split
    · refine Mem.wf_drain _ _ (Mem.wf_sendOldest _ _ _ ?_)
      split
      · exact h1 _ _ _ _ h
      · exact h
    · split
      · exact h1 _ _ _ _ h
      · exact h

theorem Mem.wf_drop (m : Mem) (a : Agent) (l : Loc) (v : Nat) (h : m.wf = true) : (m.drop a l v).wf = true := by
  have clean : ∀ (m : Mem) (id : CacheId) (t : LineTag), m.wf = true →
      (match m.line id t with | some x => if x.dirty = 0 then m.dropLine id t else m | none => m).wf = true := by
    intro m id t hm
    cases m.line id t with
    | none => exact hm
    | some x =>
      simp only []
      split
      · exact Mem.wf_dropLine _ _ _ hm
      · exact hm
  unfold Mem.drop
  split
  · exact h
  · simp only []
    split
    · apply clean
      split
      · exact clean _ _ _ h
      · exact h
    · split
      · exact clean _ _ _ h
      · exact h

theorem Mem.wf_readAt (m : Mem) (a : Agent) (l : Loc) (n v : Nat) (h : m.wf = true) : (m.readAt a l n v).2.2.wf = true := by
  have hp := Mem.wf_push m a l v h
  unfold Mem.readAt
  simp only []
  split
  · exact hp
  · split
    · split <;> exact Mem.wf_fillL1 _ _ _ _ _ _ _ hp
    · split
      · exact Mem.wf_drop _ _ _ _ (Mem.wf_fillCC _ _ _ _ _ _ hp)
      · exact Mem.wf_fillCC _ _ _ _ _ _ hp
    · exact Mem.wf_drop _ _ _ _ hp

theorem Mem.wf_writeAt (m : Mem) (a : Agent) (l : Loc) (n x v : Nat) (h : m.wf = true) : (m.writeAt a l n x v).wf = true := by
  have hp := Mem.wf_push m a l v h
  unfold Mem.writeAt
  simp only []
  split
  · exact Mem.wf_writeNat _ _ _ _ hp
  · split
    · exact Mem.wf_storeL1 _ _ _ _ _ _ _ hp
    · exact Mem.wf_drop _ _ _ _ (Mem.wf_storeCC _ _ _ _ _ _ _ hp)
    · exact Mem.wf_drop _ _ _ _ (Mem.wf_writeNat _ _ _ _ hp)

theorem Mem.wf_countForced (m : Mem) (p n : Nat) (h : m.wf = true) : (m.countForced p n).wf = true := by
  unfold Mem.countForced
  split
  · exact h
  · exact Mem.wf_congr rfl rfl rfl h

theorem Mem.wf_flush (m : Mem) (cs : List CacheId) (own : Line → Bool) (v : Nat) (h : m.wf = true) : (m.flush cs own v).1.wf = true := by
  unfold Mem.flush
  refine foldl_keeps (fun (r : Mem × Nat) => r.1.wf = true) _ _ (fun r id hr => ?_) _ h
  cases id with
  | l1 c =>
    simp only []
    split
    · exact Mem.wf_flushL1 _ _ _ _ hr
    · exact hr
  | cc c =>
    simp only []
    split
    · exact Mem.wf_flushCC _ _ _ hr
    · exact hr

theorem Mem.wf_force (m : Mem) (cs : List CacheId) (k v : Nat) (h : m.wf = true) : (m.force cs k v).wf = true :=
  Mem.wf_countForced _ _ _ (Mem.wf_flush _ _ _ _ h)

theorem Mem.wf_refresh (m : Mem) (a : Agent) (v : Nat) (h : m.wf = true) : (m.refresh a v).wf = true := by
  unfold Mem.refresh
  split
  · exact h
  · simp only []
    split
    · apply Mem.wf_dropClean
      split
      · exact Mem.wf_dropClean _ _ _ _ h
      · exact h
    · split
      · exact Mem.wf_dropClean _ _ _ _ h
      · exact h

theorem Mem.wf_acquire (m : Mem) (a : Agent) (p n v : Nat) (h : m.wf = true) : (m.acquire a p n v).wf = true :=
  Mem.wf_refresh _ _ _ (foldl_keeps (fun m => Mem.wf m = true) _ _ (fun m _ hm => Mem.wf_force m _ _ _ hm) m h)

theorem Mem.wf_promote (m : Mem) (a : Agent) (p n : Nat) (h : m.wf = true) : (m.promote a p n).wf = true :=
  Mem.wf_countForced _ _ _ (Mem.wf_flush _ _ _ _ h)

theorem Mem.wf_noteWrite (m : Mem) (a : Agent) (p n v : Nat) (r : Option Nat) (b : Bool) (h : m.wf = true) :
    (m.noteWrite a p n v r b).wf = true := by
  unfold Mem.noteWrite
  simp only []
  cases r with
  | none =>
    simp only []
    split <;> exact Mem.wf_congr (m := m) rfl rfl rfl h
  | some rank =>
    simp only []
    have key : ∀ m1 : Mem, m1.wf = true → ∀ (c : Prop) [Decidable c] (x y : List RelRec),
        (if c then ({ m1 with rel := x } : Mem) else { m1 with rel := y }).wf = true := by
      intro m1 h1 c _ x y
      split <;> exact Mem.wf_congr (m := m1) rfl rfl rfl h1
    exact key _ (Mem.wf_ite _ (foldl_keeps (fun m => Mem.wf m = true) _ _ (fun m _ hm => Mem.wf_flush m _ _ _ hm) m h) h) _ _ _

theorem Mem.wf_publish (m : Mem) (a : Agent) (p : Nat) (h : m.wf = true) : (m.publish a p).wf = true := Mem.wf_noteWrite _ _ _ _ _ _ _ h

theorem Mem.wf_sysRelease (m : Mem) (a : Agent) (h : m.wf = true) : (m.sysRelease a).wf = true := by
  unfold Mem.sysRelease
  split
  · exact h
  · exact Mem.wf_flushCC _ _ _ (Mem.wf_flushL1 _ _ _ _ h)

theorem Mem.wf_coreRead (m : Mem) (p n : Nat) (h : m.wf = true) : (m.coreRead p n).wf = true :=
  foldl_keeps (fun m => Mem.wf m = true) _ _ (fun m _ hm => Mem.wf_force m _ _ _ hm) m h

theorem Mem.wf_flushCtx (m : Mem) (p a : Nat) (h : m.wf = true) : (m.flushCtx p a).wf = true := Mem.wf_flushAll _ _ h

theorem Mem.wf_invalidate (m : Mem) (p : Nat) (a : Option Nat) (h : m.wf = true) : (m.invalidate p a).wf = true :=
  Mem.wf_congr rfl rfl rfl h

theorem Mem.wf_invalidateNow (m : Mem) (p a : Nat) (h : m.wf = true) : (m.invalidateNow p a).wf = true :=
  Mem.wf_invalidate _ _ _ (Mem.wf_flushCtx _ _ _ h)

theorem Mem.wf_flushFor (m : Mem) (p : Nat) (a : Option Nat) (h : m.wf = true) : (m.flushFor p a).wf = true := Mem.wf_flushAll _ _ h

theorem Mem.wf_fenceShared (m : Mem) (a : Agent) (h : m.wf = true) : (m.fenceShared a).wf = true := by
  unfold Mem.fenceShared
  split
  · exact h
  · refine Mem.wf_setCache _ _ _ (Mem.wf_setCache _ _ _ (Mem.wf_drain _ _
      (foldl_keeps (fun m => Mem.wf m = true) _ _ (fun m l hm => Mem.wf_sendCC _ _ _ hm) _
        (foldl_keeps (fun m => Mem.wf m = true) _ _ (fun m l hm => Mem.wf_backL1 _ _ _ _ hm) m h))))

theorem Mem.wf_purge (m : Mem) (lo n : Nat) (h : m.wf = true) : (m.purge lo n).wf = true := Mem.wf_purgeLines m _ h

theorem Mem.wf_purgeVirt (m : Mem) (p a lo hi : Nat) (h : m.wf = true) : (m.purgeVirt p a lo hi).wf = true :=
  Mem.wf_purgeLines m _ h

theorem Mem.wf_purgeLocks (m : Mem) (ls : List Lock) (h : m.wf = true) : (m.purgeLocks ls).wf = true :=
  foldl_keeps (fun m => Mem.wf m = true) _ _ (fun m _ hm => Mem.wf_ite _ (Mem.wf_purgeVirt m _ _ _ _ hm) hm) m h

theorem Mem.wf_spare (fuel : Nat) (m : Mem) (c k : Nat) (h : m.wf = true) : (m.spare fuel c k).wf = true := by
  induction fuel generalizing m with
  | zero => exact h
  | succ j ih =>
    unfold Mem.spare
    split
    · split
      · exact ih _ (Mem.wf_sendCC _ _ _ h)
      · exact h
    · split
      · split
        · exact ih _ (Mem.wf_tick _ (Mem.wf_dropLine _ _ _ (Mem.wf_sendCC _ _ _ h)))
        · exact h
      · exact h

theorem Mem.wf_zeroRange (m : Mem) (a n : Nat) (h : m.wf = true) : (m.zeroRange a n).wf = true := by
  rw [Mem.wf_iff] at h ⊢
  exact ⟨Store.wf_filter _ _ _ h.1, Store.wf_filter _ _ _ h.2.1, Store.wf_filter _ _ _ h.2.2⟩

theorem Mem.wf_restoreGranule (m : Mem) (g src : Nat) (h : m.wf = true) : (m.restoreGranule g src).wf = true := by
  rw [Mem.wf_iff] at h ⊢
  exact ⟨Store.wf_putAll _ _ _ (Store.wf_filter _ _ _ h.1), h.2.1, Store.wf_putAll _ _ _ (Store.wf_filter _ _ _ h.2.2)⟩

theorem Mem.wf_eraseLines (m : Mem) (id : CacheId) (p a : Nat) (h : m.wf = true) : (m.eraseLines id p a).wf = true :=
  Mem.wf_setCache _ _ _ h

theorem Mem.wf_alsoRelease (m : Mem) (old : List RelRec) (h : m.wf = true) : (m.alsoRelease old).wf = true :=
  Mem.wf_congr rfl rfl rfl h

theorem Mem.wf_cacheXlat (m : Mem) (p a v : Nat) (t : Xlat) (h : m.wf = true) : (m.cacheXlat p a v t).wf = true := by
  unfold Mem.cacheXlat
  exact Mem.wf_congr rfl rfl rfl h

theorem Mem.wf_fenceAcquire (m : Mem) (a : Agent) (rs : List AcqRead) (v : Nat) (h : m.wf = true) :
    (m.fenceAcquire a rs v).wf = true := by
  unfold Mem.fenceAcquire
  exact Mem.wf_refresh _ _ _ (foldl_keeps (fun m => Mem.wf m = true) _ _ (fun m _ hm => Mem.wf_force m _ _ _ hm) m h)

/-- Two memories in canonical form that read alike hold the same bytes. -/
theorem Mem.home_eq (m n : Mem) (hm : m.wf = true) (hn : n.wf = true) (h : ∀ a, m.byte a = n.byte a) : m.home = n.home :=
  Store.ext_of_wf _ _ 0 ((Mem.wf_iff m).mp hm).1 ((Mem.wf_iff n).mp hn).1 h

end Sys2Proof.Machine
end

