-- ==== Sys2Proof/Tests/Slice0.lean ====
section
/-!
SUPPORT. Tests: ill-formed terms that the checks refuse, words written out from the manual's encodings, boundary values from the manual's
tables, and for each statement with hypotheses a state and operands that meet them.
-/

namespace Sys2Proof.Tests

open Sys2Proof Sys2Proof.Machine

set_option maxRecDepth 20000
set_option Elab.async false

/-! ### Small states and operands -/

/-- One stream of a group at an issue: the slot at 0x10008 of a bundle with one full word, 16 lanes, level U or H. -/
def here (st : Strm) (lvl : Bool) : State :=
  let x := soloGroup st
  let w := x.warp 0
  let s := State.reset.withSoloContext
  { s with
    groups := [(1, { x with
      klen := 256
      warps := [(0, { w with level := lvl, splits := [{ Split.at 0xFFFF 0x10008 with hold := 0 }] })] })]
    cohorts := [(1, ⟨0, [1], []⟩)]
    cur := ⟨true, 1, st, 0, if st = .e then 0xFFFF else 1, 0x10008, 0x10020, 0, 0x1001, false, false, none⟩ }

/-- An operand that a field takes in a stream. -/
def pick (st : Strm) (sl : Slot) : Operand :=
  ((if st = .e then [.v 0, .s 0, .q 0, .qb, .null] else [.s 0, .q 0, .qb, .null]).find? sl.ok).getD .null

/-- The fields of a form with such operands, always executed. -/
def fieldsFor (st : Strm) (mk : Full → Instr) : Full :=
  let sh := shapeOf (mk .blank)
  ⟨false, 7, none, pick st sh.d, pick st sh.a, pick st sh.b, pick st sh.c⟩

/-- The form is well formed and executes with such operands, from the stream and at the level given. -/
def runsAt (st : Strm) (lvl : Bool) (mk : Full → Instr) : Bool :=
  let f := fieldsFor st mk
  (mk f).wf && (here st lvl).executes (mk f) f && (here st lvl).stands

/-- It executes in the E-stream at level U. -/
def runsE (mk : Full → Instr) : Bool := runsAt .e false mk

/-- It executes in the A-stream. -/
def runsA (mk : Full → Instr) : Bool := runsAt .a false mk

/-- It executes in the M-stream. -/
def runsM (mk : Full → Instr) : Bool := runsAt .m false mk

/-- Arithmetic modifiers of a type. -/
def mod (t : Ty) : AluMod := ⟨0, false, .rne, t⟩

/-- A plain access of a space. -/
def plainIn (sp : Space) : MemMod := ⟨0, false, .plain, .rlx, sp⟩

/-! ### Ill-formed terms are refused -/

/-- A form with every field empty but for those given. -/
def form (d a b c : Operand) : Full := ⟨false, 7, none, d, a, b, c⟩

theorem test_wf_accepts : (Instr.iadd (form (.v 2) (.v 0) (.v 1) .null) (mod .i32)).wf = true := by decide +kernel

theorem test_wf_destination : (Instr.iadd (form (.k 2) (.v 0) (.v 1) .null) (mod .i32)).wf = false := by decide +kernel

theorem test_wf_first_source : (Instr.iadd (form (.v 2) .qb (.v 1) .null) (mod .i32)).wf = false := by decide +kernel

theorem test_wf_second_source_odd : (Instr.iadd (form (.v 2) (.v 0) (.v 1) .null) (mod .i64)).wf = false := by decide +kernel

theorem test_wf_unused_field : (Instr.iadd (form (.v 2) (.v 0) (.v 1) (.v 3)) (mod .i32)).wf = false := by decide +kernel

theorem test_wf_reserved_guard :
    (Instr.iadd { form (.v 2) (.v 0) (.v 1) .null with neg := true } (mod .i32)).wf = false := by decide +kernel

theorem test_wf_literal_missing : (Instr.iadd (form (.v 2) .litLo (.v 1) .null) (mod .i32)).wf = false := by decide +kernel

theorem test_wf_literal_unnamed :
    (Instr.iadd { form (.v 2) (.v 0) (.v 1) .null with lit := some 5 } (mod .i32)).wf = false := by decide +kernel

theorem test_wf_type : (Instr.iadd (form (.v 2) (.v 0) (.v 1) .null) (mod .f32)).wf = false := by decide +kernel

theorem test_wf_rounding : (Instr.iadd (form (.v 2) (.v 0) (.v 1) .null) ⟨0, false, .rup, .i32⟩).wf = false := by decide +kernel

theorem test_wf_half_destination :
    (Instr.pairWord (.op .iadd .rne false 7 (.k 1) (.v 1)) .nop).wf = false := by decide +kernel

theorem test_wf_half_guard :
    (Instr.pairWord (.op .iadd .rne true 7 (.v 0) (.v 1)) .nop).wf = false := by decide +kernel

theorem test_wf_half_rounding :
    (Instr.pairWord (.op .iadd .rup false 7 (.v 0) (.v 1)) .nop).wf = false := by decide +kernel

/-- One destination, one pipe, a shared bank (04 R105). -/
theorem test_wf_pair_rules :
    (Instr.pairWord (.op .iadd .rne false 7 (.v 0) (.v 1)) (.op .fmul .rne false 7 (.v 0) (.v 2))).wf = false ∧
    (Instr.pairWord (.op .iadd .rne false 7 (.v 0) (.v 1)) (.op .isub .rne false 7 (.v 2) (.v 3))).wf = false ∧
    (Instr.pairWord (.op .iadd .rne false 7 (.v 0) (.v 1)) (.op .fmul .rne false 7 (.v 4) (.v 6))).wf = false ∧
    (Instr.pairWord (.op .iadd .rne false 7 (.v 6) (.v 7)) (.op .fmul .rne false 7 (.v 8) (.v 9))).wf = true := by decide +kernel

/-! ### Words from the manual's encodings (04 R90 to R106) -/

/-- `iadd.i32 v10, v1, v6` (04, example): OPC 0x000 in [9:0], D 10 in [19:10], A 1 in [29:20], B 6 in [39:30], C 0x3FF, GUARD 7. -/
theorem test_word_iadd : decodeFull (0 + 10 * 2 ^ 10 + 1 * 2 ^ 20 + 6 * 2 ^ 30 + 0x3FF * 2 ^ 40 + 7 * 2 ^ 50) none =
    .ok (.iadd (form (.v 10) (.v 1) (.v 6) .null) (mod .i32)) := by decide +kernel

/-- `fadd.f32 v1, v2, v3`: OPC 0x080, type 8 in MOD[3:0] (06 R150, 04 R101). -/
theorem test_word_fadd : decodeFull (0x080 + 1 * 2 ^ 10 + 2 * 2 ^ 20 + 3 * 2 ^ 30 + 0x3FF * 2 ^ 40 + 7 * 2 ^ 50 + 8 * 2 ^ 54) none =
    .ok (.fadd (form (.v 1) (.v 2) (.v 3) .null) (mod .f32)) := by decide +kernel

/-- `frcps.f32 o1, v2`: OPC 0x100, D 0x301 (06 R155). -/
theorem test_word_frcps : decodeFull (0x100 + 0x301 * 2 ^ 10 + 2 * 2 ^ 20 + 0x3FF * 2 ^ 30 + 0x3FF * 2 ^ 40 + 7 * 2 ^ 50 + 8 * 2 ^ 54) none =
    .ok (.frcps (form (.o 1) (.v 2) .null .null) (mod .f32)) := by decide +kernel

/-- `mov.i32 v2, LIT.lo` of the manual's example (04). -/
theorem test_word_mov : decodeFull 0x001FFFFFFF000917 (some 0x186A0) =
    .ok (.mov { form (.v 2) .litLo .null .null with lit := some 0x186A0 } (mod .i32)) := by decide +kernel

/-- `br` with offset -3 under p1 (07, example). -/
theorem test_word_br : decodeFull 0x0007FFFFFFFFF600 none =
    .ok (.br { form .null .null .null .null with guard := 1 } (BitVec.ofInt 30 (-3))) := by decide +kernel

/-- `ld.g.n32 v1, [v4+16]` (04, example). -/
theorem test_word_ld : decodeFull 0x1C1C04FFC0400682 none = .ok (.ld (form (.v 1) (.v 4) .null .null) 2 (plainIn .g) 4) := by decide +kernel

/-- `aloop` and `aend` (09, example). -/
theorem test_word_access : decodeFull 0x001FA20000000320 none = .ok (.aloop (form .null .null .null (.k 2)) 0 0) ∧
    decodeFull 0x001FFFFFFFFFFF21 none = .ok (.aend (form .null .null .null .null)) := by decide +kernel

/-- `mwld.a0 s2, s3`, `mswap.a0` and `mscl v12, #0x13` (10, example). -/
theorem test_word_matrix : decodeFull 0x001FFFD0F42FFF84 none = .ok (.mwld (form .null (.s 2) (.s 3) .null) 0 false) ∧
    decodeFull 0x001FFFFFFFFFFF85 none = .ok (.mswap (form .null .null .null .null) 0) ∧
    decodeFull 0x001C13FFC0CFFF83 none = .ok (.mscl (form .null (.v 12) .null .null) 0x13) := by decide +kernel

/-- `rtsave` (11, example) and `rtmesh` without a marker bit of its own. -/
theorem test_word_traversal : decodeFull 0x001FFFFFFFFFFFA4 none = .ok (.rtsave (form .null .null .null .null)) ∧
    decodeFull 0x001F46D1002023A1 none = .ok (.rtmesh (form (.v 8) (.v 2) (.s 4) (.s 6)) 0 .g) := by decide +kernel

/-- `swr.w TPC, o30` and `tret` (17, example). -/
theorem test_word_privileged : decodeFull 0x805FFFFFF1EFFE79 none = .ok (.swr (form .null (.o 30) .null .null) true 1) ∧
    decodeFull 0x001FFFFFFFFFFE78 none = .ok (.tret (form .null .null .null .null)) := by decide +kernel

/-- The pair of the manual's example (04). -/
theorem test_word_pair : decodePair 0x0709082207070602 =
    .ok (.pairWord (.op .iadd .rne false 7 (.v 6) (.v 7)) (.op .fmul .rne false 7 (.v 8) (.v 9))) := by decide +kernel

/-- An unassigned opcode, a reserved field, a misplaced literal, and FORMAT other than 1 (04 R95, R99, R106, R114). -/
theorem test_word_refused : decodeFull 0x001FFFFFFFFFFC1D none = .error .illegal ∧ decodeFull (0x001FFF0180102800 + 2 ^ 58) none = .error .reserved ∧
    decodeFull 0x001FFFFFFF000917 none = .error .literal ∧ checkCtl 0x2001 = some .format ∧ checkCtl 0x1201 = some .control := by decide +kernel

/-! ### Boundary values from the manual's tables -/

/-- An arithmetic result of two integers under a type, as the meaning computes it in lane 0. -/
def withRegs (s : State) (l : List (Nat × W32)) : State :=
  s.modWarp 1 0 fun w => { w with vregs := Store.putAll w.vregs 0 l }

/-- Register n of lane l after one execution. -/
def regAfter (s : State) (i : Instr) (l n : Nat) : Option W32 :=
  match exec i s with
  | .next t => some ((t.warp 1 0).vreg l n)
  | _ => none

/-- v0 and v1 of lane 0. -/
def two (a b : W32) : State := withRegs (here .e false) [(0, a), (1, b)]

/-- 06 R149: a sum wraps without `.sat` and clamps with it. -/
theorem test_iadd_wraps : regAfter (two 0x7FFFFFFF 1) (.iadd (form (.v 2) (.v 0) (.v 1) .null) (mod .i32)) 0 2 = some 0x80000000 ∧
    regAfter (two 0x7FFFFFFF 1) (.iadd (form (.v 2) (.v 0) (.v 1) .null) ⟨0, true, .rne, .i32⟩) 0 2 = some 0x7FFFFFFF := by decide +kernel

/-- 06 R149: `.i32` shifts take the count modulo 32; `sar` copies the sign. -/
theorem test_shift_by_width : regAfter (two 0x80000001 32) (.shl (form (.v 2) (.v 0) (.v 1) .null) (mod .i32)) 0 2 = some 0x80000001 ∧
    regAfter (two 0x80000000 31) (.sar (form (.v 2) (.v 0) (.v 1) .null) (mod .i32)) 0 2 = some 0xFFFFFFFF := by decide +kernel

/-- 06 R152: -0 lies below +0, and a NaN gives way to a number. -/
theorem test_fmin_zeros : regAfter (two 0 0x80000000) (.fmin (form (.v 2) (.v 0) (.v 1) .null) (mod .f32)) 0 2 = some 0x80000000 ∧
    regAfter (two 0x7FC00001 0x3F800000) (.fmin (form (.v 2) (.v 0) (.v 1) .null) (mod .f32)) 0 2 = some 0x3F800000 := by decide +kernel

/-- 06 R154: -0.3 rounds to -0; a subnormal classes as one. -/
theorem test_frnd_keeps_sign : regAfter (two 0xBE99999A 0) (.frnd (form (.v 2) (.v 0) .null .null) (mod .f32)) 0 2 = some 0x80000000 ∧
    regAfter (two 0x00000001 0) (.fclass (form (.v 2) (.v 0) .null .null) (mod .f32)) 0 2 = some 0x080 := by decide +kernel

/-- 05 R128: 1 + 2^-24 ties to even and 1 + 3 * 2^-24 rounds up to even. -/
theorem test_fadd_ties_to_even : regAfter (two 0x3F800000 0x33800000) (.fadd (form (.v 2) (.v 0) (.v 1) .null) (mod .f32)) 0 2 = some 0x3F800000 ∧
    regAfter (two 0x3F800001 0x33800000) (.fadd (form (.v 2) (.v 0) (.v 1) .null) (mod .f32)) 0 2 = some 0x3F800002 := by decide +kernel

/-- 04 R104: a pair swaps two registers' roles, since both halves read before either writes. -/
theorem test_pair_reads_first :
    (match exec (.pairWord (.op .mov .rne false 7 (.v 0) (.v 1)) (.op .movF .rne false 7 (.v 1) (.v 0))) (two 5 9) with
      | .next t => ((t.warp 1 0).vreg 0 0, (t.warp 1 0).vreg 0 1)
      | _ => (0, 0)) = (9, 5) := by decide +kernel

/-! ### The forms of each stream execute somewhere: witnesses for the statements about their results -/

theorem witness_IntegerArithmeticResults :
    ([fun f => .iadd f (mod .i32), fun f => .iadd f ⟨0, true, .rne, .n64⟩, fun f => .isub f (mod .i64), fun f => .iaddc f ⟨1, false, .rne, .n32⟩,
      fun f => .isubb f ⟨7, false, .rne, .n32⟩, fun f => .imul f (mod .i32), fun f => .imulhi f (mod .n32), fun f => .imad f (mod .i32),
      fun f => .imadw f (mod .i32), fun f => .imadw f (mod .n32), fun f => .iabs f (mod .i32), fun f => .ineg f (mod .i64), fun f => .imin f (mod .n32),
      fun f => .imax f (mod .i32)] : List (Full → Instr)).all runsE = true := by decide +kernel

theorem witness_LogicShiftSelectResults :
    ([fun f => .icmp f ⟨0, false, .rne, .i32⟩ 0, fun f => .icmp f ⟨5, false, .rne, .n64⟩ 6, fun f => .isel f (mod .i32) 7, fun f => .and f (mod .i32),
      fun f => .or f (mod .i64), fun f => .xor f (mod .i32), fun f => .andn f (mod .i32), fun f => .tlog f 0x96, fun f => .shl f (mod .i32),
      fun f => .shr f (mod .n64), fun f => .sar f (mod .i32), fun f => .fsh f (mod .n32), fun f => .bfe f (mod .i32), fun f => .bfe f (mod .n32),
      fun f => .bfi f (mod .n32), fun f => .popc f (mod .n32), fun f => .clz f (mod .n64), fun f => .brev f (mod .n32), fun f => .bmix f (mod .n32)] :
      List (Full → Instr)).all runsE = true := by decide +kernel

theorem witness_FloatArithmeticResults :
    ([fun f => .fadd f (mod .f32), fun f => .fsub f (mod .f32), fun f => .fmul f (mod .f32), fun f => .ffma f (mod .f32), fun f => .hadd2 f (mod .f16),
      fun f => .hmul2 f (mod .bf16), fun f => .hfma2 f (mod .f16)] : List (Full → Instr)).all runsE = true := by decide +kernel

theorem witness_MinimumAndMaximumResults :
    ([fun f => .fmin f (mod .f32), fun f => .fmax f (mod .f32), fun f => .hmin2 f (mod .f16), fun f => .hmax2 f (mod .bf16)] :
      List (Full → Instr)).all runsE = true := by decide +kernel

theorem witness_FloatComparisonResults :
    ([fun f => .fcmp f ⟨0, false, .rne, .f32⟩ 0, fun f => .fcmp f ⟨7, false, .rne, .f32⟩ 6] : List (Full → Instr)).all runsE = true := by decide +kernel

theorem witness_RoundClassifyCopySignResults :
    ([fun f => .frnd f (mod .f32), fun f => .fclass f (mod .f32), fun f => .fclass f (mod .f16), fun f => .fcpsgn f (mod .f32)] :
      List (Full → Instr)).all runsE = true := by decide +kernel

theorem witness_HelperResults :
    ([fun f => .frcps f (mod .f32), fun f => .frsqs f (mod .f32), fun f => .fexpr f (mod .f32), fun f => .fscale f (mod .f32), fun f => .fgetexp f (mod .f32),
      fun f => .fgetman f (mod .f32), fun f => .flogr f (mod .f32), fun f => .fsinr f (mod .f32), fun f => .fdivfx f (mod .f32), fun f => .fsqrtfx f (mod .f32)] :
      List (Full → Instr)).all runsE = true := by decide +kernel

theorem witness_ConversionResults :
    ([fun f => .cvt f (mod .i32) .f32, fun f => .cvt f (mod .f32) .i64, fun f => .cvt f (mod .i4) .i32, fun f => .pk2 f (mod .f16), fun f => .upk2 f (mod .bf16),
      fun f => .pk8 f (mod .e4m3), fun f => .upk8 f (mod .i8), fun f => .pk4 f (mod .i4), fun f => .upk4 f (mod .i4), fun f => .mov f (mod .i64)] :
      List (Full → Instr)).all runsE = true ∧ Fmt.ofTy .i32 = none ∧ Fmt.ofTy .f32 = some .f32 := by decide +kernel

theorem witness_RoundingIsExact : Fmt.f32 ∈ [Fmt.f32, .f16, .bf16, .e4m3, .e5m2] ∧ Fmt.e5m2 ∈ [Fmt.f32, .f16, .bf16, .e4m3, .e5m2] ∧
    0x7F800000 < 2 ^ Fmt.f32.width ∧ (0 : Rat) < 1 ∧ Fmt.ofTy .e4m3 = some .e4m3 ∧ Ty.e4m3 ≠ .f32 := by decide +kernel

theorem witness_PairWordResults :
    let h0 : Half := .op .iadd .rne false 7 (.v 6) (.v 7)
    let h1 : Half := .op .fmul .rne false 7 (.v 8) (.v 9)
    let s := { here .e false with cur := { (here .e false).cur with ctl := 0x1002 } }
    s.pairExecutes h0 h1 = true ∧ (s.flagTrap (s.halfFlags h0 ++ s.halfFlags h1)).isNone = true := by decide +kernel

theorem witness_LaneResults :
    ([fun f => .shfl f 0 0 false, fun f => .shfl f 3 4 true, fun f => .vote f 0 0 0, fun f => .vote f 2 6 7, fun f => .ballot f true 0, fun f => .ballot f false 7,
      fun f => .mbcnt f, fun f => .matchv f true false, fun f => .matchv f false true, fun f => .redux f 0 .i32, fun f => .redux f 5 .n32, fun f => .redux f 2 .f32,
      fun f => .qswap f 1, fun f => .qbcst f 3, fun f => .dpdx f true, fun f => .dpdy f false] : List (Full → Instr)).all runsE = true ∧
    (let f := fieldsFor .e fun f => .redux f 0 .i32
     let s := here .e false
     s.gLive f ≠ 0 ∧ (s.flagTrap ((laneList (s.gLive f)).map fun l => (l, (s.folded f 0 .i32).flags))).isNone = true ∧
       s.executes (.redux { f with guard := 0 } 0 .i32) { f with guard := 0 } = true ∧ s.gLive { f with guard := 0 } = 0) := by decide +kernel

theorem witness_PredicateAndSpecialRegisterResults :
    ([fun f => .pset f 0 0 0 0, fun f => .pset f 3 6 7 7, fun f => .pmov f false, fun f => .pmov f true, fun f => .srd f false 0, fun f => .srd f false 4,
      fun f => .srd f false 5, fun f => .srd f true 0] : List (Full → Instr)).all runsE = true := by decide +kernel

theorem witness_EnabledFlagTraps :
    let s := here .e false
    let f := form (.v 2) (.v 0) (.v 1) .null
    let s1 := s.modWarp 1 0 fun w => { w with fstat := 0x100 }
    (s.flagTrap (s.flagsOf f fun _ => ⟨0, 1, false⟩)).isNone = true ∧ (s1.flagTrap (s1.flagsOf f fun _ => ⟨0, 1, false⟩)).isSome = true := by
  decide +kernel

/-! ### Control flow, barriers, traps -/

theorem witness_BranchResults :
    ([fun f => .br f (-1), fun f => .brall f true 4, fun f => .brall f false 0, fun f => .jmpi f, fun f => .ret f] : List (Full → Instr)).all runsE = true ∧
    (let f := fieldsFor .e .jmpi
     let s := here .e false
     s.anyOffBundle f = false ∧ (withRegs s [(1024 * 5, 4)]).anyOffBundle f = true ∧ (withRegs s [(1024 * 5, 4)]).executes (.jmpi f) f = true) := by
  decide +kernel

theorem witness_CallResults :
    ([fun f => .call f 2, fun f => .calli f] : List (Full → Instr)).all runsE = true ∧
    (let f := fieldsFor .e .calli
     (here .e false).anyOffBundle f = false ∧ (withRegs (here .e false) [(0, 8)]).anyOffBundle f = true) := by decide +kernel

theorem witness_MinorControlResults :
    ([.nop, fun f => .trap f true 0x3FF, fun f => .trap f false 0, .wdog, fun f => .yield f 1023] : List (Full → Instr)).all runsE = true ∧
    runsA (fun f => .trap f false 3) = true ∧
    (let s := here .e false
     s.curGroup.used = true ∧ s.gLive (form .null .null .null .null) ≠ 0 ∧ s.gLive { form .null .null .null .null with guard := 0 } = 0 ∧
       s.executes (.trap { form .null .null .null .null with guard := 0 } true 1) { form .null .null .null .null with guard := 0 } = true) := by decide +kernel

/-- A guard that selects lane 1 alone, in the quad-locked kernel of the small state. -/
def quadHere : State := (here .e false).modWarp 1 0 fun w => { w with preds := Store.put w.preds 0 1 1 }

/-- A kernel that is not quad-locked. -/
def loneHere : State := (here .e false).modGroup 1 fun x => { x with kernel := { x.kernel with quadlock := false } }

theorem witness_ExitResults :
    (let f := form .null .null .null .null
     loneHere.executes (.exit f) f = true ∧ loneHere.stands = true ∧ loneHere.curWarp.ended = false ∧ loneHere.curGroup.kernel.quadlock = false) ∧
    (let f := { form .null .null .null .null with guard := 0 }
     quadHere.executes (.exit f) f = true ∧ quadHere.stands = true ∧ quadHere.curGroup.kernel.quadlock = true ∧ quadHere.curWarp.level = false ∧
       quadHere.curWarp.ended = false ∧ quadHere.curWarp.live &&& ~~~(quadHere.gLanes f) ≠ 0 ∧ quadHere.gLanes f = 2) := by decide +kernel

theorem witness_GatheringResults :
    ([.wjoin, .rgrp] : List (Full → Instr)).all runsE = true ∧ (here .e false).curWarp.level = false ∧
    (let f := fieldsFor .e .wjoin
     let s := withRegs (here .e false) [(0, 0x20000)]
     s.namedBy f 0 &&& (s.curWarp.live ||| s.curWarp.helper) &&& ~~~s.joinedHere = 0 ∧
       (let u := s.modWarp 1 0 fun w => { w with splits := [Split.at 0xFF 0x10008, Split.at 0xFF00 0x10000] }
        let u := { withRegs u [(0, 0x8000)] with cur := { u.cur with lanes := 0xFF } }
        u.executes (.wjoin f) f = true ∧ u.stands = true ∧ u.namedBy f 0 &&& (u.curWarp.live ||| u.curWarp.helper) &&& ~~~u.joinedHere ≠ 0)) ∧
    (here .e false).anyOffBundle (fieldsFor .e .rgrp) = false := by decide +kernel

/-- Barrier 3 is declared for one warp, the A-stream and the M-stream, barrier 2 for nobody. -/
def barHere (st : Strm) (b : Bar) : State :=
  (here st false).modGroup 1 fun x => { x with kernel := { x.kernel with bars := 0xE1800000 }, bars := Store.put x.bars Bar.blank 3 b, cbar := b }

theorem witness_BarrierResults :
    let f := form .null .null .null .null
    let s := barHere .e Bar.blank
    let u := barHere .e { Bar.blank with lanes := [(0, 3)], ever := 1, last := [(0, 0)] }
    let a := barHere .a Bar.blank
    ([.barSync f 3, .barArrive f 3, .barWait f 3, .cbar f 0, .cbar f 1, .cbar f 2] : List Instr).all (fun i => s.executes i f && u.executes i f) = true ∧
      s.stands = true ∧ a.stands = true ∧ a.executes (.barSync f 3) f = true ∧ a.barWrong 3 = none ∧ (a.curGroup.bar 3).pendingAt 16 = false ∧
      (let c := barHere .a { Bar.blank with aArr := true, ever := 0x10000 }
       c.executes (.barArrive f 3) f = true ∧ (c.curGroup.bar 3).pendingAt c.cur.participant = true) ∧
      s.barWrong 3 = none ∧ s.barWrong 2 ≠ none ∧ s.onlyHelpers = false ∧ (s.curGroup.bar 3).ever.getLsbD s.cur.participant = false ∧
      (u.curGroup.bar 3).ever.getLsbD s.cur.participant = true ∧ (u.curGroup.bar 3).pendingAt s.cur.participant = true ∧
      (let y := (barHere .e { Bar.blank with aArr := true, mArr := true, arrived := 1, lanes := [(0, 0xFFFF)] }).curGroup
       y.barFull 3 = true) := by decide +kernel

/-- A trap of an A-stream, for the first warp to deliver. -/
def streamTrap (st : Strm) : State :=
  let t : Trap := ⟨.trapInsn, 0x10000, 0, 5, 0x10008, 0, 0⟩
  (here st false).modGroup 1 fun x =>
    let y := { x with astr := { x.astr with trap := if st = .a then some t else none, stopped := true }, mstr := { x.mstr with trap := if st = .m then some t else none, stopped := true } }
    y

/-- The context of the small state, with a handler. -/
def handled (s : State) (h : W64) : State := { s with ctxs := Store.put s.ctxs Ctx.blank (ctxKey (s.group 1).part (s.group 1).asid) { s.gctx 1 with tbase := h } }

theorem witness_TrapEntry :
    (handled (here .e false) 0x20000).canEnter 1 0 = true ∧
    (let s := handled (here .a false) 0x20000
     (s.gctx 1).tbase ≠ 0 ∧ (s.group 1).firstWarp.isSome = true) ∧
    (let s := handled (streamTrap .a) 0x20000
     s.canEnter 1 0 = true ∧ (s.group 1).firstWarp = some 0 ∧ (s.warp 1 0).ended = false ∧ (s.warp 1 0).esc = none ∧ (s.group 1).astr.trap.isSome = true) ∧
    (let s := handled (streamTrap .m) 0x20000
     s.canEnter 1 0 = true ∧ (s.group 1).astr.trap = none ∧ (s.group 1).mstr.trap.isSome = true) := by decide +kernel

/-- A handler of a trap of two splits, one of which trapped. -/
def inHandler (tpc : W64) : State :=
  (here .e true).modWarp 1 0 fun w =>
    { w with saved := [{ Split.at 0xFF 0x10040 with trapped := true }, { Split.at 0xFF00 0x10060 with wait := .qback }], tpc := tpc, tpcin := 0x10040 }

theorem witness_TrapEscalationAndReturn :
    (let s := here .e true
     (s.warp 1 0).due = none ∧ (s.warp 1 0).level = true ∧ (s.group 1).asid < 2 ^ 16 ∧ (s.group 1).part < 2 ^ 6 ∧ (s.group 1).core < 2 ^ 16) ∧
    ((here .e false).gctx 1).tbase = 0 ∧
    (let f := form .null .null .null .null
     (inHandler 0x10048).executes (.tret f) f = true ∧ (inHandler 0x10040).executes (.tret f) f = true ∧ (inHandler 0x10048).curWarp.due = none ∧
       (inHandler 0x10048).curGroup.astr.trap = none ∧ (inHandler 0x10048).curGroup.mstr.trap = none) := by decide +kernel

/-- The context of the small state is no system context. -/
def userHere (lvl : Bool) : State :=
  let s := here .e lvl
  { s with ctxs := Store.put s.ctxs Ctx.blank 0 { s.gctx 1 with sys := false } }

theorem witness_PrivilegedResults :
    ([fun f => .swr f false 0, fun f => .swr f false 10, fun f => .swr f true 1, fun f => .halt f 255] : List (Full → Instr)).all (runsAt .e true) = true ∧
    (let f := form .null (.v 0) .null .null
     (here .e true).executes (.tinv f) f = true ∧ (here .e true).stands = true ∧ ((here .e true).ctx (ctxKey (here .e true).curGroup.part 0xFFFF)).used = false ∧
       ((here .e true).ctx (ctxKey (here .e true).curGroup.part (here .e true).curGroup.asid)).used = true) ∧
    (here .e false).levelH = false ∧ (userHere true).levelH = true ∧ ((userHere true).gctx 1).sys = false ∧ (userHere true).cur.valid = true := by
  decide +kernel

/-! ### Memory, queues, the access stream -/

/-- The fields of a form whose address is the literal 0x10000, which the small state's one page maps. -/
def global (d b c : Operand) : Full := { form d .lit64 b c with lit := some 0x10000 }

/-- The executed form's accesses pass their checks. -/
def passes (s : State) (i : Instr) (f : Full) (sp : Space) (n : Nat) (need : Need) (ea : Nat → Int) (lvl : Nat → Nat) : Bool :=
  s.executes i f && s.accessesPass f sp n need ea lvl

/-- It executes, and they fail. -/
def failsAt (s : State) (i : Instr) (f : Full) (sp : Space) (n : Nat) (need : Need) (ea : Nat → Int) (lvl : Nat → Nat) : Bool :=
  s.executes i f && !s.accessesPass f sp n need ea lvl

/-- A destination lock on the line at 0x100, and a write-back of that line that it holds and a release at 0x10040 was published with. -/
def lockedHere (s : State) (addr : Nat) : State :=
  { s with mem := { s.mem with
      rel := [⟨none, none, addr, 64, 0, [.cc 0]⟩], wbq := [⟨0, 0, 0, 2, 0x10300 / 128, 1, 7, 0, 0⟩], locks := [⟨0, 5, true, none, 0, 0, 256, 383⟩] } }

/-- An access of the global space at .dev. -/
def devIn (o : Order) : MemMod := ⟨0, false, .dev, o, .g⟩

theorem witness_LoadResults :
    let s := here .e false
    (let u := lockedHere s 0x10040
     let f := global (.v 2) .null .null
     passes u (.ld f 2 (devIn .acq) 0) f .g 4 .load (u.ea f .g .null 4 0) (fun _ => readLevel (devIn .acq)) = true ∧ u.mayMeetLocks .g .dev = true ∧
       passes s (.ld f 2 (devIn .acq) 0) f .g 4 .load (s.ea f .g .null 4 0) (fun _ => readLevel (devIn .acq)) = true ∧ s.mayMeetLocks .g .dev = false) ∧
    ([.s, .k] : List Space).all (fun sp => ([0, 1, 2, 3, 4, 5] : List (BitVec 3)).all fun acc =>
      let f := form (.v 2) (.v 0) .null .null
      passes s (.ld f acc (plainIn sp) 0) f sp (accSize acc) .load (s.ea f sp .null (accSize acc) 0) fun _ => readLevel (plainIn sp)) = true ∧
    (let f := { global (.v 2) .null .null with guard := 0 }
     let u := s.modWarp 1 0 fun w => { w with preds := Store.put w.preds 0 1 1 }
     passes u (.ld f 3 (plainIn .g) 1) f .g 8 .load (u.ea f .g .null 8 1) (fun _ => 0) = true ∧ u.gLanes f = u.gLive f ∧
       (u.places f .g 8 .load (u.ea f .g .null 8 1) fun _ => 0).length = 1) := by decide +kernel

theorem witness_StoreResults :
    let s := here .e false
    s.mem.roomy (.l1 s.curGroup.pcore) 64 = true ∧
    (let u := lockedHere s 0x10040
     let g := global (.v 2) .null .null
     u.mayMeetLocks .g .dev = true ∧
       passes u (.st g 2 (devIn .rel) 0) g .g 4 .store (u.ea g .g .null 4 0) (fun l => u.writeLevel l (devIn .rel)) = true) ∧
    ([0, 1, 2, 3] : List (BitVec 3)).all (fun acc =>
      let f := form (.v 2) (.v 0) .null .null
      let g := global (.v 2) .null .null
      passes s (.st f acc (plainIn .s) 0) f .s (accSize acc) .store (s.ea f .s .null (accSize acc) 0) (fun l => s.writeLevel l (plainIn .s)) &&
        passes s (.st g acc (plainIn .g) 511) g .g (accSize acc) .store (s.ea g .g .null (accSize acc) 511) (fun l => s.writeLevel l (plainIn .g)) &&
        (decide (acc.toNat < 2) || passes s (.st g acc ⟨0, false, .dev, .rel, .g⟩ 0) g .g (accSize acc) .store (s.ea g .g .null (accSize acc) 0)
          (fun l => s.writeLevel l ⟨0, false, .dev, .rel, .g⟩))) = true := by decide +kernel

theorem witness_AtomicResults :
    let s := here .e false
    let at' (sp : Space) : MemMod := ⟨0, false, .core, .ar, sp⟩
    let out (sp : Space) : MemMod := ⟨0, false, .core, .rel, sp⟩
    (let u := lockedHere s 0x10040
     let g := global (.v 4) (.v 8) .null
     let r := global (.v 4) .null .null
     u.mayMeetLocks .g .dev = true ∧ passes u (.atom g 0 (devIn .ar) 0) g .g 4 .both (u.ea g .g .null 4 0) (fun l => u.writeLevel l (devIn .ar)) = true ∧
       passes u (.red r 0 (devIn .rel) 0) r .g 4 .both (u.ea r .g .null 4 0) (fun l => u.writeLevel l (devIn .rel)) = true) ∧
    ([0, 5, 0x0B, 0x10, 0x11, 0x12, 0x13] : List (BitVec 5)).all (fun op =>
      let f := form (.v 4) (.v 0) (.v 8) .null
      let g := global (.v 4) (.v 8) .null
      passes s (.atom f op (at' .s) 0) f .s (atomSize op) .both (s.ea f .s .null (atomSize op) 0) (fun l => s.writeLevel l (at' .s)) &&
        passes s (.atom g op (at' .g) 0) g .g (atomSize op) .both (s.ea g .g .null (atomSize op) 0) fun l => s.writeLevel l (at' .g)) = true ∧
    ([0, 5, 0x0B] : List (BitVec 5)).all (fun op =>
      let f := form (.v 4) (.v 0) .null .null
      let g := global (.v 4) .null .null
      passes s (.red f op (out .s) 0) f .s (atomSize op) .both (s.ea f .s .null (atomSize op) 0) (fun l => s.writeLevel l (out .s)) &&
        passes s (.red g op (out .g) 0) g .g (atomSize op) .both (s.ea g .g .null (atomSize op) 0) fun l => s.writeLevel l (out .g)) = true := by
  decide +kernel

theorem witness_FenceWaitPrefetchResults :
    runsE (fun f => .pf f 0 0) = true ∧ runsE (fun f => .fence f .rel .dev) = true ∧ runsE (fun f => .fence f .acq .grp) = true ∧
    runsA (fun f => .fence f .ar .dev) = true ∧
    (let u := lockedHere (here .e false) 0x10040
     let f := form .null .null .null .null
     let g := global (.v 2) (.v 4) .null
     u.executes (.fence f .acq .dev) f = true ∧ u.mem.locks ≠ [] ∧ u.mayMeetLocks .g .sys = true ∧ u.stands = true ∧
       passes u (.wait g 0 false .sys .g 0) g .g 4 .load (u.ea g .g .null 4 0) (fun _ => levelOf (scopeRank .sys)) = true) ∧
    (let s := here .e false
     let f := form (.v 2) (.v 0) (.v 4) .null
     let g := global (.v 2) (.v 4) .null
     s.heldWaits f = [] ∧ s.heldWaits g = [] ∧ s.stands = true ∧
       ([0, 1, 2, 3] : List (BitVec 2)).all (fun c =>
         passes s (.wait f c true .grp .s 0) f .s 8 .load (s.ea f .s .null 8 0) (fun _ => levelOf (scopeRank .grp)) &&
           passes s (.wait g c false .sys .g 0) g .g 4 .load (s.ea g .g .null 4 0) fun _ => levelOf (scopeRank .sys)) = true) := by decide +kernel

theorem witness_AccessChecks :
    let s := here .e false
    let at' (sp : Space) (a : Int) (n : Nat) : Access := ⟨sp, a, n, .both, 0⟩
    let cause (x : Access) : Option Nat := match s.spot 1 s.agent x with
      | .ok _ => none
      | .error c => some c.cause.code
    [at' .k (-1) 1, at' .k 249 8, at' .k 4 8, at' .k 248 8, at' .s 524281 8, at' .s 1 2, at' .s 524280 8, at' .g (2 ^ 56) 1, at' .g 0x10001 2,
      at' .g 0x20000 1, at' .g 0x10000 8].map cause =
      [some 0x10, some 0x10, some 0x12, none, some 0x14, some 0x12, none, some 0x10, some 0x12, some 0x10, none] ∧
    (let f := form (.v 2) (.v 0) .null .null
     let u := withRegs s [(1024 * 3, 0x80001)]
     failsAt u (.ld f 2 (plainIn .s) 0) f .s 4 .load (u.ea f .s .null 4 0) (fun _ => 0) = true ∧
       failsAt u (.st f 2 (plainIn .s) 0) f .s 4 .store (u.ea f .s .null 4 0) (fun l => u.writeLevel l (plainIn .s)) = true ∧
       (let g := { global (.v 2) .null .null with lit := some 0x20000 }
        let m : MemMod := ⟨0, false, .dev, .rlx, .g⟩
        failsAt s (.atom { g with b := .v 4 } 0 m 0) { g with b := .v 4 } .g 4 .both (s.ea { g with b := .v 4 } .g .null 4 0) (fun l => s.writeLevel l m) = true ∧
          failsAt s (.red g 0 m 0) g .g 4 .both (s.ea g .g .null 4 0) (fun l => s.writeLevel l m) = true)) := by decide +kernel

theorem witness_MemoryReadsAndWrites :
    let s := here .e false
    s.agent.path.all (fun p => p.2 == cluOfCore p.1) = true ∧ s.mem.locks = [] ∧ s.mem.l1 = [] ∧ s.mem.cc = [] ∧ s.mem.wbq = [] ∧ 0x10078 % 8 = 0 ∧ 0x18078 % 128 = 0x10078 % 128 := by decide +kernel

/-- Queue n of the issuing warp with one landed entry, or closed with none. -/
def withQueue (s : State) (n : Nat) (q : Queue) : State := s.modWarp 1 0 fun w => { w with queues := Store.put w.queues Queue.blank n q }

/-- A queue with one entry of 16 like elements. -/
def oneEntry (e : QElem) : Queue := { Queue.blank with entries := [⟨0, 2, plainIn .s, List.replicate 16 e⟩], tail := 1 }

theorem witness_QueueFormResults :
    let s := here .e false
    let full := withQueue s 0 (oneEntry (.data 5))
    let f := form (.v 2) (.q 0) .null .null
    let b := form .qb (.v 2) .null .null
    let k := form .null (.q 0) (.v 2) .null
    ([.qpop f, .qpeek f] : List Instr).all (fun i => full.executes i f && (full.queueGate (full.gLive f) [0]).isGo) = true ∧
    ([0, 1, 2] : List (BitVec 2)).all (fun m => (let t := { form .null (.q 0) .null .null with d := .null }; s.executes (.qtest t m 3) t)) = true ∧
    s.executes (.qback b true) b = true ∧ s.executes (.qskip k) k = true ∧ s.curGroup.qb.length < 16 ∧
    (let m := s.gLive f
     let u (q : Queue) := ((withQueue s 0 q).curWarp.queue 0)
     m ≠ 0 ∧ (u Queue.blank).laneReady 0 = false ∧ (u (oneEntry (.data 5))).laneReady 0 = true ∧ (u (oneEntry (.data 5))).under 0 = false ∧
       (u { Queue.blank with closed := true }).laneReady 0 = true ∧ (u { Queue.blank with closed := true }).under 0 = true ∧
       (u (oneEntry (.fault .addrFault 4 true))).laneReady 0 = true ∧ (u (oneEntry (.fault .scratchBounds 4 false))).laneReady 0 = true) := by decide +kernel

/-- Fields of an `agen`, `aload` or `astore`. -/
def gload : Full := form (.q 0) .null .null .null

theorem witness_AccessStreamResults :
    ([fun f => .agen f 7 0, fun f => .agen f 0 6, fun f => .aloop f 3 (-2), .aend, .apop, fun f => .abq f true 3, fun f => .aslip f 7, fun f => .apf f 2 1 5] :
      List (Full → Instr)).all runsA = true ∧
    (let s := here .a false
     let off (f : Full) : Full := { f with guard := 0 }
     let a := off (form .null (.s 0) .null .null)
     let c := off (form .null .null .null (.s 0))
     let n := off (form .null .null .null .null)
     let p := off (form (.s 0) .qb .null .null)
     let b := off (form .null .null .null .qb)
     s.executes (.agen a 0 1) a = true ∧ s.gLanes a = 0 ∧ s.executes (.aloop c 0 1) c = true ∧ s.executes (.aend n) n = true ∧ s.executes (.apop p) p = true ∧
       s.executes (.abq b false 1) b = true ∧ s.executes (.aslip a 0) a = true ∧ s.executes (.aload (off gload) 0 2 (plainIn .s) 0x100 0) (off gload) = true ∧
       s.executes (.aload gload 0 2 (plainIn .s) 0x100 0) gload = true ∧ s.gLanes gload ≠ 0 ∧ s.badSel 0x100 = false ∧ s.targets 0 0x100 = [0] ∧
       s.curGroup.slipOf 0 0 ≠ 0 ∧
       (let d := form (.s 2) .null .null .null
        passes s (.astore d 0 2 (plainIn .s) 0) d .s 4 .store (fun _ => s.elementAddress 0 false 4 0 0 0) (fun _ => s.writeLevel 64 (plainIn .s)) = true ∧
          (let u := s.modGroup 1 fun x => { x with gens := Store.put x.gens Gen.blank 0 { Gen.blank with base := 0x10000 } }
           passes u (.astore d 0 2 (plainIn .g) 0) d .g 4 .store (fun _ => u.elementAddress 0 true 4 0 0 0) (fun _ => u.writeLevel 64 (plainIn .g)) = true ∧
             u.mem.roomy (.l1 u.curGroup.pcore) 64 = true ∧
             (let v := lockedHere u 0x10040
              v.executes (.aload gload 0 2 (devIn .rlx) 0x100 0) gload = true ∧ v.mayMeetLocks .g .dev = true ∧
                passes v (.astore d 0 2 (devIn .rel) 0) d .g 4 .store (fun _ => v.elementAddress 0 true 4 0 0 0) (fun _ => v.writeLevel 64 (devIn .rel)) = true)))) := by
  decide +kernel

/-! ### Copies, queues and tasks, upcalls, fault records -/

/-- Bytes of the window set from an address. -/
def withScratch (s : State) (a n v : Nat) : State := s.modGroup 1 fun x => { x with scratch := putBytes x.scratch a (bytesOf n v) }

/-- Lane 1 alone issues, under p0. -/
def lane1 (s : State) : State := s.modWarp 1 0 fun w => { w with preds := Store.put w.preds 0 1 1 }

/-- A block of a copy of 64 bytes within the window, on engine 0, that completes there (09 R262). -/
def demoBlock (count len spitch dpitch : Nat) : Nat :=
  count + 2 ^ 33 + 2 ^ 34 + 2 ^ 36 + 0x3000 * 2 ^ 48 + 0x400 * 2 ^ 64 + 0x800 * 2 ^ 128 + len * 2 ^ 192 + spitch * 2 ^ 256 + dpitch * 2 ^ 320 +
    0x1000 * 2 ^ 384 + 7 * 2 ^ 448

/-- Engine 0 is the partition's, and the block stands at 0 of the window. -/
def copyHere (b : Nat) : State :=
  let s := withScratch (lane1 (here .e false)) 0 128 b
  { s with part := { s.part with place := Store.put s.part.place 0 8192 0x80000000 } }

/-- The blocks of a copy form pass their checks, or do not. -/
def blocksPass (s : State) (kind : Nat) (f : Full) : Bool := (s.copyBlocks kind f .s).1.length == 1 && (s.copyBlocks kind f .s).2.1.isEmpty

/-- A copy within the window, as its group's first. -/
def demoCopy (run : CopyRun) (done : Nat) : Copy :=
  { Copy.blank with used := true, grp := some 1, seq := 3, block := BitVec.ofNat 1024 (demoBlock 0 64 0 0), total := 64, run := run, done := done }

/-- The copy has a number of its own. -/
def withCopy (c : Copy) : State :=
  let s := copyHere 0
  { s with eng := { s.eng with copies := [(5, c)] } }

theorem witness_CopyFormResults :
    let f := { form (.v 2) (.v 0) .null .null with guard := 0 }
    let a := copyHere (demoBlock 0 64 0 0)
    let b := copyHere (demoBlock 2 32 64 64)
    let c := withScratch (copyHere (demoBlock 1 0 0 0)) 0x400 16 (0x600 + 64 * 2 ^ 64)
    a.executes (.cpy f .s) f = true ∧ blocksPass a 0 f = true ∧ a.stands = true ∧ b.executes (.cpy2d f .s) f = true ∧ blocksPass b 1 f = true ∧
      c.executes (.cpyg f .s) f = true ∧ blocksPass c 2 f = true ∧ a.mem.locks = [] ∧ a.eng.copies = [] ∧
      (a.copyBlocks 0 f .s).1.all (fun p => decide ((copyRanges 0 p.block p.pieces).length ≤ 32)) = true ∧
      (let u := lockedHere a 0
       let v := { u with mem := { u.mem with locks := [⟨0, 5, true, some 1, 0, 0, 0x400, 0x43F⟩] } }
       (v.copyBlocks 0 f .s).1.all (fun p => !v.fitsLocks 0 p) = true) ∧ ((copyHere 1).copyBlocks 0 f .s).2.1.map (fun p => p.2.acc) = [none] ∧
      (let g := form .null (.v 0) .null .null
       let h := form (.v 2) (.v 0) .null .null
       (withCopy (demoCopy .queued 0)).executes (.ccan g) g = true ∧ (withCopy (demoCopy .queued 0)).executes (.cstat h) h = true) := by decide +kernel

theorem witness_CopyEngineResults :
    (withCopy (demoCopy .waiting 0)).canRegister 5 = true ∧ (withCopy (demoCopy .queued 0)).copyReady 5 = true ∧
    (withCopy (demoCopy .running 64)).copyEnds 5 = true ∧ blkSs (demoCopy .queued 0).block = true ∧ blkDs (demoCopy .queued 0).block = true ∧
    blkCs (demoCopy .queued 0).block = true ∧ ((withCopy (demoCopy .running 0)).group 1).scratchBad 0x400 64 = false ∧
    ((withCopy (demoCopy .running 64)).group 1).copySeq ≤ 3 + 256 := by decide +kernel

/-- Queue 0 of the partition, of a kind, with 2^log slots at 0x14000 in its granule. -/
def queueHere (kind log : Nat) : State :=
  let s := lane1 (here .e false)
  { s with
    part := { s.part with place := Store.put s.part.place 0 (3 * 4096) 0x80000000, qtab := [(0, BitVec.ofNat 512 (0x14000 + kind * 2 ^ 112 + log * 2 ^ 102 + 2 ^ 128))] }
    groups := [(1, { s.group 1 with tasks := 0x4000 })] }

/-- One record has entered it. -/
def queueFull (kind : Nat) : State :=
  let s := queueHere kind 0
  { s with work := { s.work with tails := [(0, 1)] } }

theorem witness_TaskAndQueueFormResults :
    let f := { form .null (.v 0) (.v 2) .null with guard := 0 }
    let o := { form .null .null .null .null with guard := 0 }
    let g := { form (.v 16) (.v 4) .null .null with guard := 0 }
    let p := { form .null (.v 4) (.v 2) .null with guard := 0 }
    let t := queueHere 1 0
    let q := withRegs (queueHere 2 0) [(1024 + 4, 0x4000)]
    t.stands = true ∧ t.executes (.treserve f) f = true ∧ t.executes (.tpost f .s) f = true ∧ t.executes (.tdone o) o = true ∧ lowLane (t.gLive f) = some 1 ∧
      t.gLive f = laneBit 1 ∧ t.gLive o ≠ 0 ∧ t.curGroup.taskPlace 0 = 0x4000 ∧ t.taskQueue t.curGroup 0 = some 0 ∧ t.qUsable 0 0 = true ∧
      qKind (t.qdesc 0) = 1 ∧ qCap (t.qdesc 0) = 1 ∧ t.load 0 0 = 0 ∧ (queueFull 1).load 0 0 = 1 ∧ t.curGroup.taskPlace 1 = 0 ∧ t.curGroup.tdone = false ∧
      t.postErr f 1 = some (3, 0) ∧
      (let r := t.modGroup 1 fun x => { x with resv := [(0, 1)] }
       r.postErr f 1 = none ∧ (r.laneRecords (laneList (r.gLive f)) (r.postRecord f .s)).2.1 = [] ∧ r.freeShard 0 0 = some 0) ∧
      q.executes (.hqget g) g = true ∧ q.executes (.hqput p .s) p = true ∧ q.placeArg g 1 = 0x4000 ∧
      (match q.hqQueue [2] 0x4000, q.hqQueue [0, 2] 0x4000 with | .ok a, .ok b => a == 0 && b == 0 | _, _ => false) = true ∧
      t.curGroup.used = true ∧ q.mem.locks = [] ∧ (lockedHere q 0x14000).mem.locks ≠ [] ∧ (lockedHere q 0x14000).executes (.hqget g) g = true ∧ q.holdSeqs 0 = [] ∧
      (q.laneRecords (laneList (q.gLive p)) (q.putRecord p .s)).2.1 = [] ∧ q.shardFree 0 0 = true ∧ (queueFull 2).shardFree 0 0 = false ∧
      (queueFull 2).shardCount 0 0 = 1 ∧ q.shardCount 0 0 = 0 ∧
      (let z (s : State) : State := s.modWarp 1 0 fun w => { w with preds := [] }
       ([.treserve f, .tpost f .s] : List Instr).all (fun i => (z t).executes i f && (z t).gLive f == 0) = true ∧ (z t).executes (.tdone o) o = true ∧
         (z q).executes (.hqget g) g = true ∧ (z q).executes (.hqput p .s) p = true) := by
  decide +kernel

/-- No load passes a capacity, as reservations keep it. -/
theorem witness_loads : ∀ q, (queueHere 1 0).load (queueHere 1 0).curGroup.part q ≤ qCap ((queueHere 1 0).qdesc q) := by
  intro q
  by_cases h : q = 0
  · subst h; decide +kernel
  · have groups : (queueHere 1 0).allGroups.all (fun x => x.resv.isEmpty) = true := by decide +kernel
    have tails : (queueHere 1 0).work.tails = [] := by decide +kernel
    have heads : (queueHere 1 0).work.heads = [] := by decide +kernel
    have tab : (queueHere 1 0).part.qtab = [(0, BitVec.ofNat 512 (0x14000 + 1 * 2 ^ 112 + 0 * 2 ^ 102 + 2 ^ 128))] := rfl
    have desc : (queueHere 1 0).qdesc q = 0 := by simp [State.qdesc, tab, Store.get, Ne.symm h]
    have count : (queueHere 1 0).qCount q = 0 := by
      simp [State.qCount, State.shardCount, State.qTail, State.qHead, tails, heads, Store.get]
    have none' : (queueHere 1 0).reserved4 (queueHere 1 0).curGroup.part q = 0 := by
      have zero : ∀ l : List Group, l.all (fun x => x.resv.isEmpty) = true → l.foldl (fun n x =>
          if x.part != (queueHere 1 0).curGroup.part then n
          else (List.range 16).foldl (fun n k => if (queueHere 1 0).taskQueue x k == some q then n + x.resvOf k else n) n) 0 = 0 := by
        intro l hl
        induction l with
        | nil => rfl
        | cons x l ih =>
          simp only [List.all_cons, Bool.and_eq_true, List.isEmpty_iff] at hl
          simp [Group.resvOf, hl.1, Store.get] at ih ⊢
          exact ih (by simpa using hl.2)
      exact zero _ groups
    simp [State.load, count, none', desc]

theorem witness_QueueGrantResults :
    let t := queueHere 1 0
    let waits (w : Wait) (s : State) : State := s.modWarp 1 0 fun y => { y with splits := [{ Split.at 0xFFFF 0x10008 with wait := w }] }
    let h : HqHold := ⟨1, 0x4000, 0, 9, 0, [], 0⟩
    t.boundTo 4 0 = none ∧ t.slotPhys 0 0 0 0 .store = some 0x14000 ∧ t.slotPhys 0 0 0 0 .load = some 0x14000 ∧
      (waits (.taskres 0 1 0x10010) t).canReserve 1 0 1 = true ∧ (waits (.taskres 0 1 0x10010) (queueFull 1)).canReserve 1 0 1 = false ∧
      (waits (.hqput [h] 0x10010) (queueHere 2 0)).canPublish [h] h = true ∧ (waits (.hqput [h] 0x10010) (queueFull 2)).canPublish [h] h = false ∧
      (queueHere 0 0).unit 0 4 0 = some 0 ∧ (queueHere 0 0).unit 0 4 1 = none ∧ (queueHere 0 0).holdOf 0 0 3 = none ∧
      (let u := { queueFull 0 with work := { (queueFull 0).work with holds := [⟨0, 0, 0, 3, true, 0⟩] } }
       u.holdOf 0 0 3 = some ⟨0, 0, 0, 3, true, 0⟩ ∧ (u.work.holds.find? fun k => k.phys == 0) = some ⟨0, 0, 0, 3, true, 0⟩ ∧ u.windowShard 0 0 (u.staged 3 true) = none ∧
         u.holdFirst ⟨0, 0, 0, 3, true, 0⟩ = true ∧ qTmo (u.qdesc 0) ≠ 0) ∧
      (queueHere 0 0).holdSeqs 0 = [] ∧ ((queueHere 0 0).windowShard 0 0 ((queueHere 0 0).staged 3 true)).isSome = true ∧ (qBase (t.qdesc 0)).toNat < deviceTop := by decide +kernel

/-- Mailbox 2 of the partition, with two entries at 0x16000. -/
def withMailbox (s : State) : State := { s with part := { s.part with mbox := [(2, BitVec.ofNat 128 (0x16000 + 1 * 2 ^ 64 + 2 ^ 127))] } }

/-- An upcall of lane 0 to mailbox 2. -/
def demoUpcall (posted : Bool) : Upcall := ⟨0x77, 1, 2, 5, posted, 0x10000, true⟩

theorem witness_UpcallResults :
    let f := { form (.v 2) (.v 4) .lit64 .null with guard := 0, lit := some 0x10400 }
    let s := withRegs (withMailbox (lane1 (here .e false))) [(1024 + 4, 2)]
    let y (p : Bool) : State := s.modWarp 1 0 fun w => { w with ups := [demoUpcall p] }
    s.executes (.upcall f) f = true ∧ s.curWarp.ups = [] ∧ lowLane (s.gLive f) = some 1 ∧ s.mboxOk 0 2 = true ∧ s.mboxOk 0 3 = false ∧ s.mboxRoom 0 2 = true ∧
      (match s.laneRecord .g 0x10400 with | .ok _ => true | .error _ => false) = true ∧
      (here .e false).gLive f = 0 ∧ (here .e false).executes (.upcall f) f = true ∧
      ((y false).warp 1 0).ups.find? (fun k => !k.posted) = some (demoUpcall false) ∧
      ((y true).faultOut ((0x77#64 ^^^ Config.tokenMask).toNat)).used = false := by
  decide +kernel

/-- A fault record under way. -/
def demoFault (kind : Nat) (posted : Bool) : State :=
  let s := withMailbox (here .e false)
  { s with faults := [(4, { FaultOut.blank with used := true, kind := kind, record := 9, posted := posted, dest := 2 })] }

theorem witness_FaultRecordResults :
    let r := (demoFault 1 false).faultOut 4
    (r.used && !r.posted && (demoFault 1 false).mboxOk 0 2 && (demoFault 1 false).mboxRoom 0 2) = true ∧ r.peer = false ∧
    (demoFault 1 false).host.hostUp = true ∧ ((demoFault 1 true).faultOut 4).posted = true ∧ ((demoFault 1 true).faultOut 4).stage2 = none ∧
    ((demoFault 5 true).faultOut 4).kind = 5 := by decide +kernel

/-! ### Matrix arrays, rays, textures, records, lists -/

/-- The M-stream at an issue of a group with both arrays, a format, and scalar registers. -/
def matrixHere (fmt : W32) (claim : Nat) (regs : List (Nat × W32)) : State :=
  (here .m false).modGroup 1 fun x => { x with claim := claim, phys := [0, 1], gfmt := fmt, est := true, fmtSeen := 0x20000, mstr := { x.mstr with sregs := regs } }

/-- i8 by i8 into i32. -/
def intFmt : W32 := Ty.i8.code.setWidth 32 + 16 * Ty.i8.code.setWidth 32 + 256 * Ty.i32.code.setWidth 32

theorem witness_MatrixFormResults :
    let n := form .null .null .null .null
    let w := form .null (.s 0) (.s 1) .null
    let r := form .null (.s 0) (.s 1) (.s 2)
    let s := matrixHere intFmt 2 [(2, 1)]
    let top := matrixHere intFmt 2 [(1, 255), (2, 1)]
    let dry := (matrixHere intFmt 0 []).modGroup 1 fun x => { x with est := false, phys := [] }
    let z (f : Full) : Full := { f with guard := 0 }
    let rz := form .null .null (.s 1) (.s 2)
    ([(.mclaim n true), (.mrel n), (.mend n), (.mwld w 1 true), (.mswap n 0), (.mact r 0 3), (.mzero rz 1), (.mst r 0 .i32), (.mwait n true true true)] : List Instr).all
      (fun i => match rawOf i with
        | some (f, _) => s.executes i f && s.gLanes f != 0 && top.executes i f && dry.executes i f
        | none => false) = true ∧
      ([(.mclaim (z n) true), (.mrel (z n)), (.mend (z n)), (.mwld (z w) 1 true), (.mswap (z n) 0), (.mact (z r) 0 3), (.mzero (z rz) 1), (.mst (z r) 0 .i32),
        (.mwait (z n) true true true)] : List Instr).all (fun i => match rawOf i with
        | some (f, _) => s.executes i f && s.gLanes f == 0
        | none => false) = true ∧
      s.estNow = true ∧ dry.estNow = false ∧ (dry.arraysFor 0 true).isSome = true ∧ s.matrixRangeOk 0 16384 128 false = true ∧
      s.matrixRangeOk 0 (actRow intFmt) 64 false = true ∧ s.matrixRangeOk 0 512 64 true = true ∧ mstType intFmt .i32 = true ∧ mstType intFmt .f32 = false ∧
      enabledFlags s.fstat = 0 ∧ (s.curGroup.array 0).canSwap = true ∧ s.curGroup.outstanding true true true = false ∧
      (let e (on est : Bool) : State := (here .e false).modGroup 1 fun x => { x with mstr := { x.mstr with on := on }, gfmt := intFmt, est := est }
       let f := form .null (.v 0) .null .null
       [e true true, e true false, e false false].all (fun t => t.executes (.mfmt f) f && t.executes (.mscl f 0x30) f) = true ∧ fmtValid intFmt = true ∧
         fmtValid 0 = false ∧ (withRegs (e true false) [(0, 1)]).executes (.mfmt f) f = true ∧
         (let g := { form .null (.v 0) .null .null with guard := 0 }
          (e true true).executes (.mfmt g) g = true ∧ (e true true).gLive g = 0 ∧ (e true true).curGroup.scalePend = [])) := by decide +kernel

/-- An operation in the compute port of array 0. -/
def computing (k : MKind) : State :=
  (matrixHere intFmt 2 []).modGroup 1 fun x =>
    { x with arrays := Store.put x.arrays MArray.blank 0 { MArray.blank with compQ := [⟨k, 0, 200, 56, 0, .i32, 0, false, 32, 0, []⟩] } }

theorem witness_MatrixUnitResults :
    (let s := (matrixHere intFmt 0 []).modGroup 1 fun x => { x with phys := [], mstr := { x.mstr with wait := .mclaim true 0x10040 } }
     let t := { s with eng := { s.eng with claims := [(0, [(1, true)])] } }
     t.claimList 0 = [(1, true)] ∧ (t.group 1).used = true ∧ (t.arraysFor 0 true).isSome = true ∧ (t.group 1).mstr.wait = .mclaim true 0x10040) ∧
    ((computing .zero).group 1).claim = 2 ∧ ([.act, .zero, .st] : List MKind).all (fun k => (((computing k).group 1).array 0).compQ.length == 1) = true ∧
    fmtA intFmt = .i8 ∧ fmtB intFmt = .i8 ∧ fmtAcc intFmt = .i32 ∧
    (let s := (matrixHere intFmt 2 []).modGroup 1 fun x =>
      { x with mstr := { x.mstr with wait := .mswap 0 0x10040 }, arrays := Store.put x.arrays MArray.blank 0 { MArray.blank with loadQ := [⟨.wld, 0x4000, 0, 0, 0, .i32, 7, true, 0, 0, []⟩] } }
     (s.group 1).mstr.wait = .mswap 0 0x10040 ∧ ((s.group 1).array 0).loadQ.length = 1 ∧ ((s.group 1).array 0).canSwap = false) := by decide +kernel

theorem witness_TraversalFormResults :
    ([fun f => .rtbvh f true .s, fun f => .rtmesh f 3 .s, fun f => .rtmesh f 0 .s, fun f => .rtloc f .s, fun f => .rtres f .s, .rtsave] : List (Full → Instr)).all runsE = true ∧
    (let s := here .e false
     let f := form (.v 4) (.v 0) (.v 2) .null
     s.executes (.rtbvh f false .s) f = true ∧ (s.rayChecks f .s).isEmpty = true ∧ s.requestAhead = false ∧
       ((withRegs s [(0, 1)]).rayChecks f .s).length = 1 ∧ s.rayCount s.curGroup.pcore + (laneList (s.gLive f)).length ≤ 1024) := by decide +kernel

/-- A ray of lane 0 whose block lies in the window, in the small state, with 512 bytes of memory from 0x10000. -/
def rayHere (r : Ray) (m : Nat) : State :=
  let s := here .e false
  { s with eng := { s.eng with rays := [(9, { r with used := true, grp := 1, space := .s })] }, mem := s.mem.writeNat 0x10000 512 m }

/-- A block with the words given. -/
def words (l : List (Nat × W32)) : W512 := l.foldl (fun b p => setWord b p.1 p.2) 0

/-- A cell of four faces, one of them left through along the x axis at 1, with a value per cell (11 R313, R314). -/
def meshBytes : Nat :=
  let face (x y w : Nat) : Nat := x + y * 2 ^ 32 + w * 2 ^ 96 + 0xFFFFFFFF * 2 ^ 160 + 3 * 2 ^ 192 + 1 * 2 ^ 288 + 2 * 2 ^ 320
  face 0x3F800000 0 0x3F800000 + face 0xBF800000 0 0 * 2 ^ 512 + face 0 0x3F800000 0x3F800000 * 2 ^ 1024 + face 0 0xBF800000 0 * 2 ^ 1536 +
    (0x44 + 1 * 2 ^ 64 + 2 * 2 ^ 96 + 3 * 2 ^ 128) * 2 ^ 2048 + 0x40000000 * 2 ^ 2560 +
    (0x3F800000 * 2 ^ 96 + 0x3F800000 * 2 ^ 224) * 2 ^ 3072

/-- The mesh's descriptor. -/
def meshDesc : W512 := words [(0, 0x10000), (2, 0x10100), (4, 0x10140), (6, 0x10140), (8, 4), (9, 1), (10, 0x50), (11, 3)]

/-- A ray marching along an axis in a mode. -/
def marching (mode : Nat) (x z : W32) : Ray :=
  { Ray.blank with
    used := true, grp := 1, space := .s, phase := .run, form := 1, dsc := meshDesc,
    blk := words [(3, x), (5, z), (7, 0x40000000), (12, 0xFFFFFFFF), (15, BitVec.ofNat 32 (2 ^ 24 * mode))] }

/-- The march clauses' premises hold of a ray: its cell, the value at its parameter, whether it leaves, and what it then reads. -/
def marches (r : Ray) (leaves : Bool) : Bool :=
  let s := rayHere r meshBytes
  match r.cell 0 s with
  | .error _ => false
  | .ok (c, s1) => match r.cellValue r.line c (xrOf (rsbWord r.blk 8)) s1, exitOf r.line c with
    | .ok _, none => !leaves
    | .ok (v0, s2), some (tx, F) => leaves && xle (xrOf (rsbWord r.blk 8)) (xrOf tx) && xle (xrOf tx) r.line.tmax && F.b == 0xFFFFFFFF &&
      (match r.faceValue 0 F (pointAt r.line.o r.line.d (xrOf tx)) s2 with
        | .ok (v1, s3) => (match r.segments r.line c ⟨rsbWord r.blk 8, tx, v0, v1⟩ s3 with | .ok _ => true | .error _ => false)
        | .error _ => false)
    | .error _, _ => false

/-- A ray with a leaf of one triangle at 0x10180 in its stack. -/
def atLeaf (mode : Nat) : Ray :=
  { Ray.blank with
    used := true, grp := 1, space := .s, phase := .run, dsc := words [(2, 0x10180)], stack := [(0x80000000, 0)],
    blk := words [(5, 0x3F800000), (7, 0x40000000), (8, 0x40000000), (9, 0xFFFFFFFF), (15, BitVec.ofNat 32 (2 ^ 24 * mode))] }

/-- The leaf's record is read. -/
def leafRead (r : Ray) : Bool :=
  match r.record (triBase r.dsc) 0 16 48 (rayHere r meshBytes) with
  | .ok (x, _) => wordOf x 9 != noneWord
  | .error _ => false

theorem witness_TraversalUnitResults :
    (let s := rayHere { Ray.blank with form := 1 } 0
     (s.ray 9).phase = .start ∧ (s.ray 9).used = true ∧ (s.group (s.ray 9).grp).used = true ∧ (s.gctx (s.ray 9).grp).runs = true ∧ s.engWait (s.ray 9).tok = .go ∧
       (match s.spot 1 (s.group 1).agent ⟨.s, 0, 64, .load, 0⟩ with | .ok (.s 0, t) => t == s | _ => false) = true ∧
       (match s.spot 1 (s.group 1).agent ⟨.s, 0, 64, .store, 0⟩ with | .ok (.s 0, t) => t == s | _ => false) = true) ∧
    (let m (mode steps zrun : Nat) : W512 := words [(14, BitVec.ofNat 32 steps), (15, BitVec.ofNat 32 (2 ^ 24 * mode + zrun))]
     blkMode (m 1 5 0) < 2 ∧ hMaxSteps (words [(6, 5)]) = blkSteps (m 1 5 0) ∧ 2 ≤ blkMode (m 2 5 0) ∧ mMaxSteps (words [(12, 5)]) = blkSteps (m 2 5 0) ∧
       64 ≤ blkZrun (m 6 5 64)) ∧
    leafRead (atLeaf 0) = true ∧ leafRead (atLeaf 1) = true ∧ hMaxSteps (atLeaf 1).dsc = 0 ∧ (0x80000000#32).extractLsb' 29 3 = 4 ∧
    marches (marching 2 0 0x3F800000) false = true ∧ marches (marching 5 0x3F800000 0) true = true ∧
    marches { marching 6 0x3F800000 0 with blk := words [(0, 0x40000000), (7, 0x40000000), (12, 0xFFFFFFFF), (15, 0x06000000)] } true = true ∧
    mMaxSteps meshDesc = 0 ∧ blkZrun (marching 5 0 0).blk < 64 ∧ (rsbWord (marching 5 0 0).blk 9).toNat = 0 := by decide +kernel

/-- A texture of 4 by 2 texels at 0x10100, clamped, nearest. -/
def texDesc : W512 := BitVec.ofNat 512 (0x10100 + 3 * 2 ^ 64 + 1 * 2 ^ 80 + 1 * 2 ^ 116 + 1 * 2 ^ 120 + 1 * 2 ^ 134 + 1 * 2 ^ 137)

/-- The descriptor stands at 0x10000, and one lane issues. -/
def texHere : State :=
  let s := lane1 (here .e false)
  { s with mem := s.mem.writeNat 0x10000 64 texDesc.toNat }

/-- A request at (1.5, -3). -/
def texAsk (form : Nat) : TexReq :=
  { TexReq.blank with grp := 1, form := form, n := 2, desc := 0x10000, pts := List.replicate 4 [0x3FC00000, 0xC0400000], aux := [0], quad := false }

theorem witness_TextureResults :
    ([fun f => .tex f 2, fun f => .texl f 2, fun f => .texg f 2, .texq, fun f => .imld f 2, fun f => .imst f 2, .vbw] : List (Full → Instr)).all (fun mk =>
      let f := { fieldsFor .e mk with guard := 0 }
      texHere.executes (mk f) f && texHere.gLanes f == laneBit 1) = true ∧
    (match texLoad 1 0x10000 64 texHere with
      | .ok (x, _) => BitVec.ofNat 512 x == texDesc
      | .error _ => false) = true ∧
    tNull texDesc (some 2) = false ∧ tNull texDesc (some 1) = true ∧ tDim texDesc = 1 ∧ tNorm texDesc = false ∧ tField texDesc 128 2 = 0 ∧ tAddr texDesc 0 = 1 ∧
    tAddr texDesc 1 = 1 ∧ rats (((texAsk 0).pts.getD 3 []).map xrOf) = some [3 / 2, -3] ∧
    (match texLoad 1 (texelAddr texDesc 0 [1, 0]) (texelBytes (tFmt texDesc)) texHere with | .ok _ => true | .error _ => false) = true ∧
    (let f := { form .null .lit64 (.v 4) .null with guard := 0, lit := some 0x10100 }
     passes texHere (.vbw f) f .g 8 .both (fun l => ((texHere.src f f.a true l).toNat : Int)) (fun l => texHere.writeLevel l (devIn .rlx)) = true ∧
       texHere.mem.locks = [] ∧
       (let u := lockedHere texHere 0x10040
        passes u (.vbw f) f .g 8 .both (fun l => ((u.src f f.a true l).toNat : Int)) (fun l => u.writeLevel l (devIn .rlx)) = true ∧ u.mem.locks ≠ [])) ∧
    (let f := { fieldsFor .e (fun f => .imst f 2) with guard := 0 }
     (texHere.imstLanes f 2).2.1.length = 1 ∧
       (let g := { f with b := .lit64, lit := some 0x10000 }
        texHere.executes (.imst g 2) g = true ∧ (texHere.imstLanes g 2).2.1.isEmpty = true)) ∧
    runsE (fun f => .attr f 2) = true ∧ (xrOf 0x7F800000).finite = false ∧
    (rats (([0, 0, 0x3F800000, 0x40800000, 0, 0x3F800000, 0, 0x40800000, 0x3F800000] : List W32).map xrOf)).isSome = true := by decide +kernel

/-- A draw in its last tile, or done. -/
def drawing (tile : Nat) : State :=
  let s := here .e false
  { s with eng := { s.eng with draws := [(6, { Draw.blank with used := true, tile := tile, tiles := 2, record := BitVec.ofNat 512 0 })] } }

/-- Queue 0, of records, holds one for the context's raster unit 0. -/
def recordsHere : State :=
  let s := queueFull 0
  { s with part := { s.part with qtab := [(0, BitVec.ofNat 512 (0x14000 + 2 * 2 ^ 112 + 2 ^ 126))], place := Store.put s.part.place 0 4096 0x80000000 } }

theorem witness_RecordResults :
    recordsHere.queuePart 0 = some 0 ∧ recordsHere.recordUnit 0 0 false = some 0 ∧ recordsHere.recordCtx 0 0 = some 0 ∧ recordsHere.qUsable 0 0 = true ∧
    recordsHere.qCount 0 = 1 ∧ recordsHere.eng.draws = [] ∧ recordsHere.claimWaits 0 0 0 ⟨0, 0, none⟩ = false ∧
    (lockedHere recordsHere 0x14000).claimWaits 0 0 0 ⟨0, 0, none⟩ = true ∧
    ((drawing 1).drawRec 6).tile < ((drawing 1).drawRec 6).tiles ∧ ((drawing 1).drawCtx ((drawing 1).drawRec 6)).runs = true ∧
    (drawing 1).engWait ((drawing 1).drawRec 6).tok = .go ∧ ((drawing 2).drawRec 6).tiles ≤ ((drawing 2).drawRec 6).tile ∧
    ((drawing 2).drawCtx ((drawing 2).drawRec 6)).prot = false ∧
    (match (drawing 2).engParts ((drawing 2).drawCtx ((drawing 2).drawRec 6)) none 0x10100 8 .both with
      | .ok (l, _) => l == [(0x10100, 8)]
      | .error _ => false) = true ∧
    (let c : List (List Rat) := [[0, 0, 0], [4, 0, 0], [0, 4, 1]]
     pixelDepth c 16 0 0 = some 0x3E000000 ∧ pixelDepth c 16 3 3 = none ∧ orientTriangle true false c = none ∧ (orientTriangle false false c).isSome = true) := by
  decide +kernel

/-- Head 2 and encoder slot 1 are places 0x5000 and 0x6000 of the partition, and a command stands at 0x10200. -/
def listHere (cmd : Nat) (l : List CmdEntry) : State :=
  let s := here .e false
  { s with
    mem := s.mem.writeNat 0x10200 32 cmd
    eng := { s.eng with lists := if l.isEmpty then [] else [(0, ⟨l, some (0, 0x10200)⟩)] }
    part := { s.part with place := Store.put (Store.put s.part.place 0 (4 * 4096) 0x80000002) 0 (5 * 4096) 0x80000001 } }

/-- The command with an opcode is the next one of its list. -/
def nextIs (op : Nat) (l : List CmdEntry) : Bool :=
  let s := listHere op l
  (s.cmdList 0).next.all (· == (0, 0x10200)) && (match s.readCommand 0 0 0x10200 with | some (w, _) => w.extractLsb' 0 8 == BitVec.ofNat 8 op | none => false)

theorem witness_CommandAndFrameResults :
    let a : FrameArgs := ⟨0x20000, 2560, 640, 480, 60000, 0x10100⟩
    let good : CmdEntry := ⟨false, 0x5000, true, .headOff⟩
    let bad : CmdEntry := ⟨true, 0x6000, false, .keyNow⟩
    ([0x01, 0x02, 0x03, 0x04, 0x10, 0x11, 0x12, 0xFF, 0x20] : List Nat).all (fun op => nextIs op [] && nextIs op [good] && nextIs op [good, bad]) = true ∧
    (listHere 0xFF []).cmdUnit 0 good = some 2 ∧ (listHere 0xFF []).cmdUnit 0 bad = some 1 ∧ nextIs 4 (List.replicate 256 good) = true ∧
    (let s := here .e false
     let t := { s with eng := { s.eng with heads := [(2, { Head.blank with frame := some a })] }, part := { s.part with place := Store.put s.part.place 0 (4 * 4096) 0x80000002 } }
     (t.head 2).removed = false ∧ (t.head 2).frame = some a ∧ (t.unitCtx 0 5 2).isSome = true ∧
      (match s.engParts (s.gctx 1) none 0x10100 8 .both with | .ok (l, _) => l == [(0x10100, 8)] | .error _ => false) = true ∧ (s.gctx 1).prot = false ∧
      (let e : EncodeArgs := ⟨2, 0, 8000, 30, 0x10000, 65536, 0x10200⟩
       let u (j : Option EncJob) : State := { t with eng := { t.eng with slots := [(1, { EncSlot.blank with args := some e, job := j })] } }
       ((u none).encSlot 1).args = some e ∧ ((u none).unitCtx 0 6 1).isSome = true ∧ ((u none).head 2).frame = some a ∧ a.width * a.height ≤ 3840 * 2160 ∧
         ((u (some ⟨0, 2, 0⟩)).encSlot 1).job = some ⟨0, 2, 0⟩ ∧ ((u (some ⟨0, 2, 0⟩)).ctx 0).runs = true)) := by
  decide +kernel

/-! ### Launches, events, contexts -/

/-- A launch record at 0x10000 of a shape of one warp, and its kernel descriptor at 0x10200; core 0 to 3 and cluster 0 are the partition's. -/
def launchHere (kind : Nat) (template : Nat) (graphs : Store Graph) : State :=
  let s := here .e false
  { s with
    mem := (s.mem.writeNat 0x10000 256 (0x10200 + 15 * 2 ^ 128)).writeNat 0x10200 64 0x10000
    work := { s.work with graphs := graphs, tails := if template = 0 then [] else [(0, 1)] }
    part := { s.part with
      qtab := [(0, BitVec.ofNat 512 (0x14000 + kind * 2 ^ 112 + template * 2 ^ 192))]
      qbind := [(0, 0x10400)]
      place := [(0, 0x80000000), (1, 0x80000001), (2, 0x80000002), (3, 0x80000003), (4096, 0x80000000), (12288, 0x80000000)] } }

/-- A node activation of a kind in graph 3. -/
def oneAct (a : Act) : Store Graph := [(3, { Graph.blank with used := true, nn := 4, acts := [a] })]

/-- The record and kernel that are read. -/
def launched : Option (LRec × Kernel) :=
  match readLaunch 0 0x10000 (launchHere 1 0x10000 []) with
  | .ok (x, _) => some x
  | .error _ => none

/-- An activation of a kernel node with one group. -/
def kernelAct : Act :=
  match launched with
  | some (r, k) => { Act.blank with node := 2, lrec := 0x10000, record := r, kernel := k, total := 1 }
  | none => Act.blank

theorem witness_WalkerResults :
    (let s := launchHere 0 0 (oneAct { Act.blank with node := 2, kind := 5, addr := 0x10800, cond := 1 })
     let g := s.graphRec 3
     (g.act 2).map (fun a => a.kind) = some 5 ∧ g.used = true ∧ (s.ctx g.key).runs = true ∧ g.tok = none ∧ g.done < 2 ^ 40 ∧ g.fail = none ∧
       (match walkCond g.key 0x10800 s with | .ok (x, _) => x == 0 | .error _ => false) = true ∧
       (match walkCond g.key 0x10800 (lockedHere s 0x10800) with | .error .held => true | _ => false) = true ∧
       (match walkCond g.key 0x10801 s with | .error (.reason r) => r == 1 | _ => false) = true ∧
       (match walkCond g.key 0x40000 s with | .error (.fault _ _) => true | _ => false) = true) ∧
    ((launchHere 0 0 (oneAct kernelAct)).graphRec 3).act 2 = some kernelAct ∧ kernelAct.kind = 0 ∧
    (let u := lockedHere (launchHere 0 0 []) 0
     (u.mem.flushCtx 0 0).backsHeld 0 (some 0) = true ∧ ((u.mem.flushAll fun l => l.part == 0).backsHeld 0 none) = true ∧
       ((launchHere 0 0 []).mem.flushCtx 0 0).backsHeld 0 (some 0) = false) ∧
    (let a := { Act.blank with node := 1, kind := 6, value := 0x4000FFFFFFFFFFFF }
     let s := launchHere 1 0 (oneAct a)
     s.actQueue 0 a = some 0 ∧ s.load 0 0 = 0 ∧ s.taskAlive 0 0 = false) ∧
    (let s := launchHere 0 1 []
     let t := { s with mem := s.mem.writeNat 0x10400 64 (2 ^ 63) }
     t.queuePart 0 = some 0 ∧ qKind (t.qdesc 0) = 0 ∧ t.qUsable 0 0 = true ∧ t.qCount 0 = 1 ∧ t.ckptBusy = false ∧
       (match t.requestCtx 0 0 with
         | some (k, u) => !u.claimWaits 0 0 0 ⟨0, (u.ctx k).asid, none⟩ && (lockedHere u 0x14000).claimWaits 0 0 0 ⟨0, (u.ctx k).asid, none⟩
         | none => false) = true) ∧
    (let s := launchHere 0 0 (oneAct kernelAct)
     let e : Entry := ⟨.node 3 2, 31, 0⟩
     s.firstEntry 0 = some e ∧ e.who = .node 3 2 ∧ (s.ctx (s.graphRec 3).key).part = 0 ∧ lrPixel kernelAct.record = false ∧ kernelAct.kernel.cohort = 1 ∧
       kernelAct.kernel.width = 16 ∧ cohortNext 65536 kernelAct.kernel (lrGrid kernelAct.record) 0 = some (0, 0, 0, 0) ∧
       (s.coreFor (s.graphRec 3).key kernelAct.kernel (lrWarps kernelAct.record 16) 0).map (fun p => p.1) = some 1) ∧
    (let s := launchHere 1 0x10000 []
     s.queuePart 0 = some 0 ∧ qNum (s.qdesc 0) = 1 ∧ (s.firstEntry 0).map Entry.who = some (.task 0) ∧ s.shardCount 0 0 = 1 ∧
       s.claimWaits 0 0 0 ⟨0, 0, none⟩ = false ∧ (lockedHere s 0x14000).claimWaits 0 0 0 ⟨0, 0, none⟩ = true ∧
       (match s.template 0 0 with | some (k, .ok (_, kern)) => k == 0 && kern.width == 16 | _ => false) = true) ∧
    (let s := launchHere 1 0x10001 []
     (s.firstEntry 0).map Entry.who = some (.task 0) ∧ (match s.template 0 0 with | some (_, .error (.reason r)) => r == 3 | _ => false) = true) := by
  decide +kernel

theorem witness_TextureRequestResults :
    let ask (q : TexReq) (v : Nat) : State := { texHere with eng := { texHere.eng with texs := [(8, { q with used := true })] }, verdicts := if v = 0 then [] else [(3, v)] }
    ((ask (texAsk 0) 0).tex 8).used = true ∧ ((ask (texAsk 0) 0).tex 8).tok = none ∧
      (let s := ask { texAsk 0 with tok := some 3 } 1
       (s.tex 8).tok.map s.verdictOf = some 1 ∧ (match (s.tex 8).result s with | .ok _ => true | .error _ => false) = true) ∧
      (let s := ask { texAsk 0 with tok := some 3, desc := 0x40000 } 1
       (match (s.tex 8).result s with | .ok _ => false | .error _ => true) = true) ∧
      (ask { texAsk 0 with tok := some 3 } 0).verdictOf 3 = 0 ∧ (ask { texAsk 0 with tok := some 3 } 2).verdictOf 3 = 2 := by decide +kernel

/-- A `wait` of lane 0 on a word of the window. -/
def laneWait : LaneWait := ⟨0, 64, .s, false, 0, 5, 0, none, 0⟩

theorem witness_WarpTimeResults :
    let s := here .e false
    let waiting := s.modWarp 1 0 fun w => { w with splits := [{ Split.at 0xFFFF 0x10008 with wait := .waitaddr [laneWait], bp := 2048 }] }
    (waiting.warp 1 0).splits.find? (fun z => z.lanes.getLsbD 0) = some { Split.at 0xFFFF 0x10008 with wait := .waitaddr [laneWait], bp := 2048 } ∧
    (match waiting.spot 1 (waiting.group 1).agent laneWait.access with | .ok (.s a, t) => a == 64 && t == waiting | _ => false) = true ∧
    (let p (k : PendKind) : Pend := ⟨0, 2, 7, 4, k, false, false⟩
     let t (k : PendKind) : State := s.modWarp 1 0 fun w => { w with pend := [p k] }
     ((t .mem).warp 1 0).pend.all (fun p => p.kind == .mem) = true ∧ ((t (.tex 8)).warp 1 0).pend.any (fun p => p.tag == 4 && p.kind == .tex 8) = true) ∧
    (let d := s.modWarp 1 0 fun w => { w with wdlimit := 1024, splits := [{ Split.at 0xFFFF 0x10008 with wd := 1024 }] }
     (d.warp 1 0).due = none ∧ (d.warp 1 0).esc = none ∧ (d.warp 1 0).wdlimit = 1024 ∧ (d.warp 1 0).level = false ∧
       ((d.warp 1 0).splits.filter fun z => decide (1024 ≤ z.wd)).length = 1) ∧
    (let u := { waiting with ctxs := [(0, { waiting.gctx 1 with bplimit := 2 })] }
     1024 * (u.gctx 1).bplimit = 2048 ∧ (Wait.waitaddr [laneWait]).blocked = true) ∧
    (let x := (here .a false).modGroup 1 fun x => { x with astr := { x.astr with wait := .barrier 1 0 none, bp := 2048 }, stall := 1048576 }
     (x.group 1).firstWarp = some 0 ∧ ((x.group 1).warp 0).wdlimit.toNat ≤ (x.group 1).stall ∧ (x.group 1).astr.on = true ∧ (x.group 1).astr.wait.blocked = true) := by
  decide +kernel

/-- A translation table at 0x12000 that maps virtual page 0 to 0x10000, and a write-back of cluster 0. -/
def memHere : State :=
  let s := here .e false
  let w : WriteBack := ⟨0, 0, 0, 2, 0x10200 / 128, 1, 7, 0, 0⟩
  { s with mem := { s.mem with wbq := [w], inval := [⟨0, some 0, false⟩] } }

theorem witness_CacheAndTranslationResults :
    ((lockedHere memHere 0).mem.wbq.find? fun w => w.cluster == 0 && !(lockedHere memHere 0).mem.holds w).isNone = true ∧
    (memHere.mem.wbq.find? fun w => w.cluster == 0 && !memHere.mem.holds w).isSome = true ∧ (memHere.ctx (ctxKey 0 0)).used = true ∧
    memHere.mem.cached 0 0 5 = none ∧ (memHere.mem.inval.find? fun y => y.part == 0) = some ⟨0, some 0, false⟩ ∧
    (here .e false).mem.inval = [] ∧ ((here .e false).ctx (ctxKey 0 7)).used = false ∧ ((0x10000#64).getLsbD 16) = true ∧
    (launchHere 0 0 []).unit 0 4 0 = some 0 ∧ (launchHere 0 0 []).boundTo 4 0 = none ∧ (launchHere 0 0 []).unit 0 4 1 = none := by decide +kernel

/-- The context of the small state stops, its status word at 0x10100. -/
def ctxHere (run : Run) : State :=
  let s := here .e false
  { s with ctxs := [(0, { s.gctx 1 with run := run, cstat := 0x10100, save := 0x13000 })] }

theorem witness_ContextResults :
    let s := ctxHere .stopping
    (s.ctx 0).used = true ∧ (s.ctx 0).run = .stopping ∧ (s.ctx 0).resumeDue = false ∧ (s.groupsOf 0).all (fun p => (s.raysOf p.1).isEmpty && !p.2.rgrpJoined && p.2.warps.all fun q => q.2.due.isNone && q.2.pend.isEmpty) = true ∧
      (s.group 1).ctxKey = 0 ∧ (s.groups.all fun p => p.1 == 1) = true ∧ ctxKey 0 0 = 0 ∧
      (match s.engParts (s.ctx 0) none 0x10100 8 .store with | .ok (l, _) => l == [(0x10100, 8)] | .error _ => false) = true ∧
      (let r := { ctxHere .running with groups := [] }
       (r.ctx 0).run = .running ∧ r.mem.read (0x13000 + 8) 8 < r.saveNeeds 0 ∧
         (let t := { r with mem := r.mem.writeNat 0x13008 8 0x1000000 }; t.saveNeeds 0 ≤ t.mem.read (0x13000 + 8) 8)) := by decide +kernel

/-! ### Windows, calls, host -/

theorem witness_WindowResults :
    let s := here .e false
    s.svcLevel ≠ 15 ∧ ({ s with host := { s.host with level := 15 } }).svcLevel = 15 ∧ s.ckptBusy = false ∧
      ({ s with host := { s.host with ckptStat := 0x1000000000000000 } }).ckptBusy = true ∧ (0x10000#64).extractLsb' 16 2 = 1 ∧ (0x20000#64).extractLsb' 16 2 = 2 ∧
      (let e : W512 := BitVec.ofNat 512 (0xF + 2 ^ 63)
       let t := { s with part := { s.part with entries := [(0, e)], resizing := [(0, [0])] } }
       peValid (t.partEntry 0) = true ∧ peClu (t.partEntry 0) = 0xF ∧ firstReason (t.entryChecks 0 (BitVec.ofNat 512 (3 + 2 ^ 63))) = none ∧
         firstReason (t.entryChecks 0 (BitVec.ofNat 512 (2 ^ 62 + 2 ^ 63 + 2 ^ 511))) ≠ none ∧
         (let r := { t with part := { t.part with entries := [(0, e ||| (1#512 <<< 61))] }, ctxs := [(0, { t.gctx 1 with run := .saved, byDevice := true })] }
          peResizing (r.partEntry 0) = true ∧ (Store.get r.part.resizing [] 0).any (fun k => (r.ctx k).run == .stopping) = false ∧ (r.ctx 0).used = true ∧
            (r.ctx 0).run = .saved ∧ (r.ctx 0).byDevice = true ∧ r.paused = false) ∧
         firstReason (t.placeChecks 0 2 0 0x80000000) = none ∧ firstReason (t.placeChecks 0 2 0 0x80000009) ≠ none) := by decide +kernel

/-- Partition 0 has a world, and its context is protected in compartment 1, whose granule 0 is. -/
def worldHere : State :=
  let s := here .e false
  { s with
    ctxs := [(0, { s.gctx 1 with prot := true, comp := 1 })]
    part := { s.part with fw := [(0, 0xC020)], place := [(12288, 0x80000005)] }
    sec := { s.sec with worlds := [(0, ⟨true, 1, []⟩)] } }

/-- A request of partition 0. -/
def ask (call : Nat) (l : List W64) : CallReq := ⟨.part 0, 0, call, 9, l⟩

theorem witness_SecurityCallResults :
    (let s := here .e false
     let t := { s with sec := { s.sec with pending := [ask 4 []] } }
     t.calls = [ask 4 []] ∧ (ask 4 []).win = .part 0 ∧ (ask 4 []).call = 4 ∧ t.sec.held = []) ∧
    (let c := worldHere.ctx (ctxKey 0 0)
     c.used = true ∧ c.prot = true ∧ c.run ≠ .ended ∧ (worldHere.world 0).used = true ∧ worldHere.compAt 0 c.comp 0x10400 = true ∧ c.comp = 1 ∧
       (let v : W128 := BitVec.ofNat 128 (64 * 2 ^ 64 + 1 * 2 ^ 126)
        v.extractLsb' 57 7 = 0 ∧ v.extractLsb' 104 20 = 0 ∧ v.extractLsb' 64 40 ≠ 0 ∧ (v.extractLsb' 126 2).toNat = c.comp) ∧
       worldHere.place 0 4 0x4000 = some 5 ∧ worldHere.boundTo 4 5 = none ∧ (worldHere.world 0).slot 1 = none) ∧
    pteLowers 0 0 = false ∧ (here .e false).granule 0 = 0x8000 ∧ ((here .e false).ctx (ctxKey 0 9)).used = false := by decide +kernel

theorem witness_ScrubResults :
    let j : Job := ⟨0, 0, [0], [0], 0, [1], 770, 769⟩
    let s := here .e false
    let t (d : Nat) : State := { s with sec := { s.sec with jobs := [{ j with done := d }] } }
    (t 0).jobsOf 0 = [{ j with done := 0 }] ∧ (t 769).jobsOf 0 = [j] ∧ j.total ≤ j.done + 1 ∧ j.granules ≠ [] ∧ (t 769).jobsOf 1 = [] := by decide +kernel

theorem witness_HostSideResults :
    let s := here .e false
    let at' (st ss : Nat) : State := { s with host := { s.host with spdm := ⟨st, ss, 0, [], 0⟩ } }
    (at' 3 0).host.spdm.stage = 3 ∧ (at' 3 0).host.spdm.session = 0 ∧ (at' 3 1).host.spdm.session = 1 ∧ (at' 3 2).host.spdm.session = 2 ∧
      (at' 1 0).host.spdm.stage = 1 ∧ (at' 2 0).host.spdm.stage = 2 ∧ s.host.heldWrites = [] ∧
      ({ s with host := { s.host with level := 1 } }).svcLevel = 1 ∧ ({ s with host := { s.host with level := 2 } }).svcLevel = 2 ∧
      ({ s with ctxs := [] }).ctxs.all (fun c => !c.2.runs) = true ∧
      (let c := { s with ctxs := [(0, { s.gctx 1 with run := .saved })], host := { s.host with cooling := true, heldResumes := [0] } }
       c.host.cooling = true ∧ c.ckptBusy = false ∧ (c.ctx 0).used = true ∧ (c.ctx 0).run = .saved) := by decide +kernel

theorem witness_ServiceLifeResults :
    let s := here .e false
    (s.group 1).used = true ∧ 0 < (s.group 1).kernel.scratch ∧
      (let x : Line := ⟨0, 0, 2, 2, 1, 0, 0, 0, 0, false, 0, 0⟩
       (({ s with mem := { s.mem with l1 := [(0, [x])] } }).mem.cache (.l1 0))[0]? = some x) ∧
      (let c := { s with host := { s.host with ckpt := some ⟨true, 7, false, []⟩, ckptStat := 0x2000000000000000 } }
       c.host.ckptStat.extractLsb' 60 4 = 2 ∧ c.host.heldWrites = [] ∧ c.host.ckpt = some ⟨true, 7, false, []⟩) := by decide +kernel

theorem witness_CheckpointResults :
    let s := { here .e false with groups := [] }
    let c (st : Nat) (up : Bool) (hold peer : Bool) : State :=
      { s with
        ctxs := [(0, { s.gctx 1 with run := .saved })]
        host := { s.host with ckpt := some ⟨peer, 7, hold, [0]⟩, ckptStat := BitVec.ofNat 64 (st * 2 ^ 60), hostUp := up, peersDown := 128 } }
    ((s.ctx 0).runs = true ∧ ¬ s.saveNeeds 0 ≤ s.mem.read ((s.ctx 0).save.toNat + 8) 8 ∧ s.ctxs.length = 1 ∧ s.host.heldWrites = [] ∧ s.host.heldResumes = []) ∧
      (let t := { s with mem := s.mem.writeNat 8 8 0x1000000 }; t.saveNeeds 0 ≤ t.mem.read ((t.ctx 0).save.toNat + 8) 8) ∧
      (c 1 true false false).ctxs.all (fun k => !k.2.runs) = true ∧ (c 2 false true false).host.hostUp = false ∧
      ((c 2 true true true).host.peersDown.getLsbD 7 = true ∧ (c 2 true true true).host.hostUp = true) ∧ assigned (c 2 true true false).part = [0] ∧
      (c 2 true false false).host.cooling = false ∧
      (let i : Image := ⟨hostBase, s.part, [], [], [], [], []⟩
       let r := { s with ctxs := [], host := { s.host with images := [i] } }
       (r.host.images.find? fun i => i.base == hostBase + r.host.ckptAddr.toNat) = some i ∧ r.ckptBusy = false ∧ r.ctxs = [] ∧ r.host.hostUp = true ∧
         assigned i.part = [0]) := by decide +kernel

theorem witness_PortResults :
    let s := here .e false
    s.portRange 0 none 0x10000 64 = true ∧ worldHere.portRange 0 none 0x10000 64 = false ∧
      (let k := { worldHere with sec := { worldHere.sec with slots := [(6, 2)] } }; k.portRange 0 (some 6) 0x10000 64 = true) ∧
      s.lockedPhys 0x10000 64 true = false ∧
      (let a (op : CoreOp) (addr : Nat) : CoreAccess := { op := op, part := 0, hart := 3, addr := addr, size := 8, data := 1, rel := false, acq := false }
       s.coreWaits (a .load 0x10000) = false ∧ (lockedHere s 0x10000).coreWaits (a .load 0x10000) = true) ∧
      (let c := { s with part := { s.part with place := Store.put s.part.place 0 (3 * 4096) 0x80000000 } }
       c.unit 0 4 0 = some 0 ∧ s.svcLevel ≠ 15 ∧ deviceTop ≤ deviceTop + 0x40) ∧
      (let l := { s with mem := { s.mem with locks := [⟨0, 5, true, none, 0, 0, 0x10000, 0x1001F⟩] } }; l.lockedPhys 0x1001F 1 false = true) ∧
      s.fwPass 0 none 0x10000 = true ∧ s.mem.badRange 0x10000 8 = false ∧ 0x10008 % 8 = 0 ∧
      Store.get ({ s.mem with rsets := [(0, 0x10008 / 8 * 8 + 1)] }).rsets 0 0 = 0x10009 := by decide +kernel

/-- The windows that control cores reach (20 R459). -/
theorem test_windows : windowAt 0 3 (Config.cwBase + 0x60) = some (.ctl 0 3, 0x60) ∧ windowAt 0 3 (Config.cwBase + 0x100000) ≠ some (.ctl 0 3, 0x100000) := by
  constructor
  · unfold windowAt
    rw [if_pos (by omega)]
    congr 2
    omega
  · unfold windowAt
    rw [if_neg (by omega)]
    split
    · exact fun h => nomatch (Prod.mk.inj (Option.some.inj h)).1
    · exact fun h => nomatch h

/-! ### Encodings and steps -/

theorem witness_DecodeEncodeRoundTrip :
    (let i := Instr.iadd (form (.v 2) (.v 0) (.v 1) .null) (mod .i32); i.wf = true ∧ (encode i).isSome = true) ∧
    (let i := Instr.pairWord (.op .iadd .rne false 7 (.v 6) (.v 7)) .nop; i.wf = true ∧ (encode i).isSome = true) ∧
    (let i := Instr.mov { form (.v 2) .litLo .null .null with lit := some 5 } (mod .i32); i.wf = true ∧ (encode i).isSome = true) := by decide +kernel

/-- The nop in the small machine that a fetch reads. -/
def nopReady : State := State.reset.withFetchWord 64 0x001FFFFFFFFFFE0C

/-- Two groups of one access sequencer, in slots 0 and 2, whose A-streams are ready; slot 0 issued last. -/
def twoStreams : State :=
  let g (slot : Nat) : Group := { soloGroup .a with slotA := slot }
  { State.reset.withSoloContext with groups := [(1, g 0), (2, g 2)], eng := { Eng.reset with aTurn := [(0, 1)] } }

theorem witness_AccessTurn :
    twoStreams.accessTurn 0 0 = some 2 ∧ twoStreams.streamReady 1 .a = true ∧ twoStreams.streamReady 2 .a = true ∧
    twoStreams.units.contains (.access 0 0) = true := by decide +kernel

theorem witness_StepRunsDecoded :
    nopReady.agenda = [] ∧ nopReady.cur.partner = none ∧ nopReady.rot % 2 = 0 ∧
    (match nopReady.nextIssue with
      | some (t, p) =>
        (match ((nopReady.tick (pickedBy t p)).passTurn t).fetchBundle t.grp t.pc with
          | .ok (b, _) => (entrySlot b (slotOf t.pc)).isSome && (checkCtl b.ctl).isNone && (match b.decode 1 with | .ok _ => true | .error _ => false)
          | .error _ => false)
      | none => false) = true ∧
    (let q : Place := ⟨1, 0, 0xFFFF, 0x10000⟩
     let s := { nopReady with cur := { nopReady.cur with partner := some q } }
     let s0 : State := { s with cur := Cur.none }
     s.cur.partner = some q ∧
       (match s0.partnerNow q with
         | some t => (match s0.fetchBundle t.grp t.pc with
           | .ok (b, _) => (entrySlot b (slotOf t.pc)).isSome && (checkCtl b.ctl).isNone && (match b.decode 1 with | .ok _ => true | .error _ => false)
           | .error _ => false)
         | none => false) = true) := by decide +kernel

theorem witness_EveryStepCompletes : (nopReady.agenda.all fun i => (encode i).isNone) = true ∧ ([Instr.stop 0 0].all fun i => (encode i).isNone) = true := by
  decide +kernel

theorem witness_StepKeepsSplitsMerged :
    (match step nopReady with
      | .next t => t.cur.partner.isNone && t.groups.length == 1
      | _ => false) = true ∧
    (match step State.reset with
      | .next t => t.cur.partner.isNone
      | _ => false) = true := by decide +kernel

end Sys2Proof.Tests
end

section
/-!
SUPPORT. The step of the machine (spec/02_execution_model.md R37 to R43): what an instruction's meaning answers, what a fetch answers, and that
every event that a device takes up is a form without an encoding.
-/

namespace Sys2Proof.Machine

/-! ### What a meaning answers -/

/-- A form without an encoding is an event: neither a full word nor a pair word. -/
theorem encode_eq_none_iff {i : Instr} : encode i = none ↔ rawOf i = none ∧ ∀ h0 h1, i ≠ .pairWord h0 h1 := by
  unfold encode
  split
  · simp
  · next hp => simpa using fun _ => hp

/-- The events go out, whose `rawOf` is none; every other meaning is the frame of an encoded form around a body of its own. -/
theorem exec_of_fullWord {i : Instr} (s : State) (h : rawOf i ≠ none) : ∃ f body, exec i s = s.issue i f body := by
  cases i
  any_goals exact absurd rfl h
  all_goals dsimp only [exec]
  all_goals exact ⟨_, _, rfl⟩

/-- The encoded forms go out, whose `rawOf` is some; every event's meaning is a next state as it stands. -/
theorem exec_of_event {i : Instr} (s : State) (h : encode i = none) : ∃ t, exec i s = .next t := by
  obtain ⟨hraw, hpair⟩ := encode_eq_none_iff.mp h
  cases i
  all_goals cases hraw
  case pairWord h0 h1 => exact absurd rfl (hpair h0 h1)
  all_goals exact ⟨_, rfl⟩

theorem State.issue_completes {s : State} (i : Instr) (f : Full) (body : State → State) (h : s.cur.valid = true) :
    ∃ t, s.issue i f body = .next t := by
  simp only [State.issue, h, Bool.not_true, Bool.false_eq_true, if_false]
  split
  · exact ⟨_, rfl⟩
  · split <;> exact ⟨_, rfl⟩

theorem execPairWord_completes {s : State} (h0 h1 : Half) (h : s.cur.valid = true) : ∃ t, execPairWord h0 h1 s = .next t := by
  simp only [execPairWord, h, Bool.not_true, Bool.false_eq_true, if_false]
  repeat' split
  all_goals exact ⟨_, rfl⟩

/-- Where a stream stands at an issue, every instruction answers a next state. -/
theorem exec_completes_at_issue {s : State} (i : Instr) (h : s.cur.valid = true) : ∃ t, exec i s = .next t := by
  by_cases he : encode i = none
  · exact exec_of_event s he
  · by_cases hr : rawOf i = none
    · obtain ⟨h0, h1, rfl⟩ : ∃ h0 h1, i = .pairWord h0 h1 := by
        by_contra hp
        exact he (encode_eq_none_iff.mpr ⟨hr, fun h0 h1 e => hp ⟨h0, h1, e⟩⟩)
      exact execPairWord_completes h0 h1 h
    · obtain ⟨f, body, e⟩ := exec_of_fullWord s hr
      exact e ▸ State.issue_completes i f body h

/-! ### What a fetch answers -/

theorem State.fetch_run_valid {s u : State} {t : Target} {p : Option Place} {i : Instr} (h : s.fetch t p = .run i u) : u.cur.valid = true := by
  unfold State.fetch at h
  dsimp only at h
  repeat' split at h
  all_goals cases h
  rfl

/-- A fetch whose bundle is read, whose control word stands, and whose slot decodes is the issue of that slot. -/
theorem State.fetch_eq_run {s u : State} {t : Target} {b : Bundle} {k : Nat} {i : Instr} (p : Option Place)
    (hb : s.fetchBundle t.grp t.pc = .ok (b, u)) (hk : entrySlot b (slotOf t.pc) = some k) (hc : checkCtl b.ctl = none) (hi : b.decode k = .ok i) :
    s.fetch t p = .run i (u.atSlot t b k p) := by
  simp only [State.fetch, hb, hk, hc, hi]

theorem mapNext_next {f : State → State} {o : Host.Outcome State Fault Refusal} (h : ∃ t, o = .next t) : ∃ t, mapNext f o = .next t := by
  obtain ⟨t, rfl⟩ := h
  exact ⟨f t, rfl⟩

theorem mapNext_mapNext (f g : State → State) (o : Host.Outcome State Fault Refusal) : mapNext f (mapNext g o) = mapNext (fun t => f (g t)) o := by
  cases o <;> rfl

theorem State.runTarget_completes (s : State) (t : Target) (p : Option Place) : ∃ u, s.runTarget t p = .next u := by
  unfold State.runTarget
  split
  · exact ⟨_, rfl⟩
  · next h => exact mapNext_next (exec_completes_at_issue _ (State.fetch_run_valid h))

theorem State.runTarget_eq_exec {s u : State} {t : Target} {b : Bundle} {k : Nat} {i : Instr} (p : Option Place)
    (hb : s.fetchBundle t.grp t.pc = .ok (b, u)) (hk : entrySlot b (slotOf t.pc) = some k) (hc : checkCtl b.ctl = none) (hi : b.decode k = .ok i) :
    s.runTarget t p = mapNext (fun w => (w.meetMarker (u.atSlot t b k p)).close) (exec i (u.atSlot t b k p)) := by
  rw [State.runTarget, State.fetch_eq_run p hb hk hc hi]

/-! ### The events that devices take up -/

/-- A list of forms without an encoding. -/
def Unencoded (l : List Instr) : Prop := ∀ i ∈ l, encode i = none

namespace Unencoded

variable {α : Type}

theorem nil : Unencoded [] := fun _ h => nomatch h

theorem cons {i : Instr} {l : List Instr} (hi : encode i = none) (hl : Unencoded l) : Unencoded (i :: l) :=
  List.forall_mem_cons.mpr ⟨hi, hl⟩

theorem append {l m : List Instr} (hl : Unencoded l) (hm : Unencoded m) : Unencoded (l ++ m) :=
  List.forall_mem_append.mpr ⟨hl, hm⟩

theorem map {f : α → Instr} (l : List α) (h : ∀ x, encode (f x) = none) : Unencoded (l.map f) :=
  List.forall_mem_map.mpr fun x _ => h x

theorem flatMap {f : α → List Instr} (l : List α) (h : ∀ x, Unencoded (f x)) : Unencoded (l.flatMap f) := by
  intro i hi
  obtain ⟨x, -, hx⟩ := List.mem_flatMap.mp hi
  exact h x i hx

theorem filterMap {f : α → Option Instr} (l : List α) (h : ∀ x, Unencoded (f x).toList) : Unencoded (l.filterMap f) := by
  intro i hi
  obtain ⟨x, -, hx⟩ := List.mem_filterMap.mp hi
  exact h x i (Option.mem_toList.mpr hx)

theorem dedup {l : List Instr} (h : Unencoded l) : Unencoded l.dedup := fun i hi => h i (List.mem_dedup.mp hi)

end Unencoded

theorem State.warpEvents_unencoded (s : State) (g w : Nat) : Unencoded (s.warpEvents g w) := by
  refine (((Unencoded.map _ fun _ => rfl).append (.flatMap _ fun q => .flatMap _ fun e => .filterMap _ fun p => ?_)).append
    (.flatMap _ fun y => ?_)).append ?_
  · split
    · exact .nil
    · exact .cons rfl .nil
  · split
    · exact .map _ fun _ => rfl
    · exact .map _ fun _ => rfl
    · exact .map _ fun _ => rfl
    · exact .nil
  · split
    · exact .cons rfl .nil
    · exact .nil

theorem State.groupEvents_unencoded (s : State) (g : Nat) : Unencoded (s.groupEvents g) :=
  (Unencoded.flatMap _ fun _ => s.warpEvents_unencoded g _).append (.flatMap _ fun _ => .cons rfl (.cons rfl (.cons rfl .nil)))

theorem State.engineEvents_unencoded (s : State) : Unencoded s.engineEvents := by
  refine ((((Unencoded.flatMap _ fun _ => ?_).append (.flatMap _ fun _ => ?_)).append (.flatMap _ fun _ => ?_)).append
    (.map _ fun _ => rfl)).append (.dedup (.map _ fun _ => rfl))
  · exact .cons rfl (.cons rfl (.cons rfl .nil))
  · exact .cons rfl (.cons rfl (.cons rfl .nil))
  · split <;> exact .cons rfl (.cons rfl .nil)

theorem State.workEvents_unencoded (s : State) : Unencoded s.workEvents := by
  refine (((Unencoded.flatMap _ fun _ => ?_).append (.flatMap _ fun _ => .filterMap _ fun _ => ?_)).append (.map _ fun _ => rfl)).append
    (.flatMap _ fun _ => .cons rfl .nil)
  · split
    · exact .nil
    · split
      · exact .cons rfl .nil
      · exact .cons rfl (.cons rfl .nil)
      · exact .nil
  · split
    · split
      · exact .cons rfl .nil
      · exact .nil
    · exact .cons rfl .nil
    · exact .cons rfl .nil
    · exact .nil

theorem CallReq.event_unencoded (q : CallReq) : encode q.event = none := by
  unfold CallReq.event
  split <;> rfl

theorem State.controlEvents_unencoded (s : State) : Unencoded s.controlEvents := by
  refine ((((((((Unencoded.filterMap _ fun _ => ?_).append (.filterMap _ fun _ => ?_)).append (.dedup (.map _ fun _ => rfl))).append
    (.filterMap _ fun _ => ?_)).append (.dedup (.map _ fun _ => rfl))).append ?_).append ?_).append (.map _ fun _ => rfl)).append (.map _ fun _ => rfl)
  · split
    · exact .nil
    · exact .cons rfl .nil
  · split
    · exact .cons rfl .nil
    · exact .nil
  · split
    · exact .cons rfl .nil
    · exact .nil
  · cases s.calls.head? with
    | none => exact .nil
    | some q => exact .cons q.event_unencoded .nil
  · split
    · exact .cons rfl .nil
    · exact .nil

theorem State.events_unencoded (s : State) : Unencoded s.events :=
  (((Unencoded.flatMap _ s.groupEvents_unencoded).append s.engineEvents_unencoded).append s.workEvents_unencoded).append
    s.controlEvents_unencoded

theorem State.nextEvent_unencoded {s : State} {i : Instr} (h : s.nextEvent = some i) : encode i = none := by
  refine s.events_unencoded i ?_
  rcases List.mem_append.mp (List.mem_of_find?_eq_some h) with h | h
  · exact List.mem_of_mem_drop h
  · exact List.mem_of_mem_take h

/-! ### Every step completes -/

theorem State.issueStep_completes (s : State) : ∃ t, s.issueStep = .next t := by
  unfold State.issueStep
  split
  · exact mapNext_next (State.runTarget_completes _ _ _)
  · exact ⟨_, rfl⟩

theorem State.eventStep_completes (s : State) {i : Instr} (h : encode i = none) : ∃ t, s.eventStep i = .next t :=
  mapNext_next (exec_of_event _ h)

/-- Settles O58: an encoded form executes only behind a fetch, which stands at an issue; everything else that a step executes is an event, whose
meaning always answers a next state. -/
theorem everyStepCompletes : Obligations.EveryStepCompletes := by
  intro s hagenda
  unfold step State.cycleStep
  split
  · next i r hi => exact mapNext_next (exec_of_event _ (hagenda i (by simp [hi])))
  · split
    · dsimp only
      split
      · exact mapNext_next (State.runTarget_completes _ _ _)
      · exact ⟨_, rfl⟩
    · split
      · split
        · next hi => exact s.eventStep_completes (State.nextEvent_unencoded hi)
        · exact s.issueStep_completes
      · exact s.issueStep_completes
end Sys2Proof.Machine
end

section
/-!
SUPPORT. What a step executes (spec/02_execution_model.md R37 to R43; spec/04_registers_encoding.md R95, R96): a fetch reads the bundle's bytes at
home, and the step runs what decodes from them.
-/

namespace Sys2Proof.Machine

/-! ### The bytes of a bundle -/

theorem Mem.read_lt (m : Mem) (a k : Nat) : m.read a k < 256 ^ k := by
  induction k generalizing a with
  | zero => simp [Mem.read]
  | succ k ih =>
    have hb := (m.byte a).isLt
    have hr := ih (a + 1)
    rw [Mem.read, Nat.pow_succ]
    omega

theorem Mem.read_div (m : Mem) (a : Nat) {k n : Nat} (h : n < k) : m.read a k / 256 ^ n % 256 = (m.byte (a + n)).toNat := by
  induction k generalizing a n with
  | zero => omega
  | succ k ih =>
    have hb := (m.byte a).isLt
    rw [Mem.read]
    cases n with
    | zero => simp; omega
    | succ n =>
      have hd : ((m.byte a).toNat + 256 * m.read (a + 1) k) / 256 = m.read (a + 1) k := by omega
      rw [Nat.pow_succ', ← Nat.div_div_eq_div_mul, hd, ih (a + 1) (by omega), Nat.add_assoc, Nat.add_comm 1 n]

/-- Byte n of a word read from home memory. -/
theorem Mem.extractLsb'_read (m : Mem) (a : Nat) {n : Nat} (h : n < 8) :
    (BitVec.ofNat 64 (m.read a 8)).extractLsb' (8 * n) 8 = m.byte (a + n) := by
  apply BitVec.eq_of_toNat_eq
  have hlt : m.read a 8 < 2 ^ 64 := m.read_lt a 8
  rw [BitVec.extractLsb'_toNat, BitVec.toNat_ofNat, Nat.mod_eq_of_lt hlt, Nat.shiftRight_eq_div_pow, Nat.pow_mul]
  exact m.read_div a h

/-- A fetch that succeeds: the address is canonical and translates, no byte of the bundle is poisoned, and the bundle is what memory holds. -/
theorem State.fetchBundle_eq_ok {s u : State} {g : Nat} {pc : W64} {b : Bundle} (h : s.fetchBundle g pc = .ok (b, u)) :
    canonical (bundleOf pc) = true ∧ ∃ a, s.translate (s.gctx g) (bundleOf pc).toNat .fetch = .ok (a, u) ∧ u.mem.badRange a 32 = false ∧
      b = ⟨BitVec.ofNat 64 (u.mem.read a 8), BitVec.ofNat 64 (u.mem.read (a + 8) 8), BitVec.ofNat 64 (u.mem.read (a + 16) 8),
        BitVec.ofNat 64 (u.mem.read (a + 24) 8)⟩ := by
  unfold State.fetchBundle at h
  dsimp only at h
  split at h
  · cases h
  · next hcan =>
    split at h
    · cases h
    · next a t htr =>
      split at h
      · cases h
      · split at h
        · cases h
        · next hbad =>
          obtain ⟨rfl, rfl⟩ := Prod.mk.inj (Except.ok.inj h)
          exact ⟨by simpa using hcan, a, htr, by simpa using hbad, rfl⟩

/-! ### What a step executes -/

theorem State.mem_of_partnerNow {s : State} {q : Place} {t : Target} (h : s.partnerNow q = some t) :
    t.pc = q.pc ∧ ∃ y ∈ (s.warp q.grp q.wid).splits, y.lanes = t.lanes ∧ y.pc = q.pc ∧ y.lanes &&& ~~~q.lanes = 0 := by
  unfold State.partnerNow at h
  split at h
  · cases h
  · obtain ⟨y, hy, rfl⟩ := Option.map_eq_some_iff.mp h
    have hp := List.find?_some hy
    simp only [Bool.and_eq_true, beq_iff_eq] at hp
    obtain ⟨⟨hlanes, hpc⟩, -⟩ := hp
    exact ⟨hpc, y, List.mem_of_find?_eq_some hy, rfl, hpc, hlanes⟩

theorem step_eq_agenda {s : State} {i : Instr} {l : List Instr} (h : s.agenda = i :: l) :
    step s = mapNext (·.settle s) (exec i { s with agenda := l }) := by
  simp only [step, State.cycleStep, h]

theorem step_eq_partner {s : State} {q : Place} {t : Target} (ha : s.agenda = []) (hq : s.cur.partner = some q)
    (ht : ({ s with cur := Cur.none } : State).partnerNow q = some t) :
    step s = mapNext (·.settle s) (({ s with cur := Cur.none } : State).runTarget t none) := by
  rw [ha] at ht
  simp only [step, State.cycleStep, ha, hq, ht]

theorem step_eq_issue {s : State} {t : Target} {p : Option Place} (ha : s.agenda = []) (hq : s.cur.partner = none) (hr : s.rot % 2 = 0)
    (hn : s.nextIssue = some (t, p)) : step s = mapNext (·.settle s) (((s.tick (pickedBy t p)).passTurn t).runTarget t p) := by
  simp [step, State.cycleStep, State.issueStep, ha, hq, hr, hn]

/-- Settles O57: an issue and the second place of a pair both run the target that they name, and running a target executes what its slot decodes to. -/
theorem stepRunsDecoded : Obligations.StepRunsDecoded := by
  intro s b u k i
  refine ⟨?_, ?_, fun l => step_eq_agenda, ?_⟩
  · intro t p ha hq hr hn hb hk hc hi
    refine ⟨rfl, rfl, rfl, ?_⟩
    rw [step_eq_issue ha hq hr hn, State.runTarget_eq_exec p hb hk hc hi, mapNext_mapNext]
  · intro q ha hq s0 t ht hb hk hc hi
    obtain ⟨hpc, hsplit⟩ := State.mem_of_partnerNow ht
    refine ⟨hpc, hsplit, ?_⟩
    rw [step_eq_partner ha hq ht, State.runTarget_eq_exec none hb hk hc hi, mapNext_mapNext]
  · intro g pc h
    obtain ⟨hcan, a, htr, hbad, rfl⟩ := State.fetchBundle_eq_ok h
    exact ⟨hcan, a, htr, hbad, fun n hn => ⟨Mem.extractLsb'_read _ _ hn, Mem.extractLsb'_read _ _ hn, Mem.extractLsb'_read _ _ hn,
      Mem.extractLsb'_read _ _ hn⟩⟩

end Sys2Proof.Machine
end

section
/-!
SUPPORT. The regang rule (spec/02_execution_model.md R37): what a list of splits is after merging, and that the end of a cycle leaves no two
unparked splits of a warp at one slot.
-/

namespace Sys2Proof.Machine

/-! ### Merging the splits of a warp -/

/-- No two splits of a list merge under the regang rule. -/
def Merged (l : List Split) : Prop := l.Pairwise fun x y => x.merges y = false

theorem Wait.isOver_join {a b : Wait} (ha : a.isOver = true) (hb : b.isOver = true) : (a.join b).isOver = true := by
  cases a with
  | ready => exact hb
  | waitaddr xs =>
    cases b with
    | waitaddr ys =>
      simp only [Wait.isOver, Wait.join, List.all_append, Bool.and_eq_true] at *
      exact ⟨ha, hb⟩
    | _ => exact ha
  | _ => cases ha

/-- What a split merges into merges with the same splits as before. -/
theorem Split.merge_merges {x y : Split} (h : y.merges x = true) (z : Split) : (y.merge x).merges z = y.merges z := by
  simp only [Split.merges, Bool.and_eq_true] at h
  obtain ⟨⟨⟨⟨hy, hx⟩, -⟩, -⟩, -⟩ := h
  have ho : (y.merge x).wait.isOver = y.wait.isOver := by rw [hy]; exact Wait.isOver_join hy hx
  simp only [Split.merges, ho]
  rfl

theorem Split.merges_comm (x y : Split) : x.merges y = y.merges x := by
  simp only [Split.merges, Bool.and_comm x.wait.isOver, BEq.comm (a := slotAddr x.pc), BEq.comm (a := x.trapped), BEq.comm (a := x.mark)]

theorem mem_addSplit {l : List Split} {x z : Split} (h : z ∈ addSplit l x) :
    z = x ∨ z ∈ l ∨ ∃ y ∈ l, y.merges x = true ∧ z = y.merge x := by
  induction l with
  | nil => simpa [addSplit] using h
  | cons y r ih =>
    simp only [addSplit] at h
    split at h
    · next hm =>
      rcases List.mem_cons.mp h with rfl | h
      · exact .inr (.inr ⟨y, by simp, hm, rfl⟩)
      · exact .inr (.inl (by simp [h]))
    · rcases List.mem_cons.mp h with rfl | h
      · exact .inr (.inl (by simp))
      · rcases ih h with h | h | ⟨u, hu, h⟩
        · exact .inl h
        · exact .inr (.inl (by simp [h]))
        · exact .inr (.inr ⟨u, by simp [hu], h⟩)

theorem Merged.addSplit {l : List Split} (h : Merged l) (x : Split) : Merged (addSplit l x) := by
  induction l with
  | nil => exact List.pairwise_singleton _ _
  | cons y r ih =>
    obtain ⟨hy, hr⟩ := List.pairwise_cons.mp h
    simp only [Machine.addSplit]
    split
    · next hm => exact List.pairwise_cons.mpr ⟨fun z hz => (Split.merge_merges hm z).trans (hy z hz), hr⟩
    · next hm =>
      refine List.pairwise_cons.mpr ⟨fun z hz => ?_, ih hr⟩
      rcases mem_addSplit hz with rfl | hz | ⟨u, hu, hux, rfl⟩
      · exact Bool.eq_false_iff.mpr hm
      · exact hy z hz
      · rw [Split.merges_comm, Split.merge_merges hux, Split.merges_comm]
        exact hy u hu

theorem merged_regang (l : List Split) : Merged (regang l) :=
  foldl_keeps Merged _ l (fun _ x h => h.addSplit x) [] List.Pairwise.nil

/-! ### Splits that stand apart -/

/-- Two splits do not stand unparked at one slot. -/
def Apart (x y : Split) : Prop :=
  ¬ (x.wait = .ready ∧ y.wait = .ready ∧ slotAddr x.pc = slotAddr y.pc ∧ x.trapped = y.trapped ∧ x.mark = y.mark)

theorem apart_of_not_merges {x y : Split} (h : x.merges y = false) : Apart x y := by
  rintro ⟨hx, hy, hp, ht, hm⟩
  simp [Split.merges, Wait.isOver, hx, hy, hp, ht, hm] at h

theorem apart_of_left_parked {x y : Split} (h : x.wait ≠ .ready) : Apart x y := fun a => h a.1

theorem apart_of_right_parked {x y : Split} (h : y.wait ≠ .ready) : Apart x y := fun a => h a.2.1

/-- Splits that give place to a parked one leave the others as far apart as they were. -/
theorem pairwise_apart_replaceSplit {w : Warp} {z : Split} (m : Lanes) (h : w.splits.Pairwise Apart) (hz : z.wait ≠ .ready) :
    (w.replaceSplit m fun _ => [z]).splits.Pairwise Apart := by
  have hmap : (w.replaceSplit m fun _ => [z]).splits = w.splits.map fun x => if x.lanes == m then z else x := by
    rw [List.map_eq_flatMap]
    exact congrArg (List.flatMap · w.splits) (funext fun x => by split <;> rfl)
  rw [hmap, List.pairwise_map]
  refine h.imp fun {x y} hxy => ?_
  by_cases hx : x.lanes == m
  · rw [if_pos hx]; exact apart_of_left_parked hz
  · by_cases hy : y.lanes == m
    · rw [if_pos hy]; exact apart_of_right_parked hz
    · rwa [if_neg hx, if_neg hy]

/-- In every warp of every group, no two unparked splits stand at one slot. -/
def State.Ganged (s : State) : Prop := ∀ g ∈ s.groups, ∀ w ∈ g.2.warps, w.2.splits.Pairwise Apart

theorem Store.mem_put {α : Type} [DecidableEq α] {s : Store α} {d x : α} {k : Nat} {p : Nat × α} (h : p ∈ Store.put s d k x) : p = (k, x) ∨ p ∈ s := by
  unfold Store.put at h
  split at h
  · exact .inr (List.mem_filter.mp h).1
  · exact (Store.mem_insert _ k x p h).imp_right fun h => (List.mem_filter.mp h).1

theorem Store.get_eq_or_mem {α : Type} (s : Store α) (d : α) (k : Nat) : Store.get s d k = d ∨ (k, Store.get s d k) ∈ s := by
  induction s with
  | nil => exact .inl rfl
  | cons p r ih =>
    obtain ⟨n, x⟩ := p
    by_cases h : n = k
    · subst h; simp [Store.get]
    · simp only [Store.get, if_neg h]
      exact ih.imp_right (List.mem_cons_of_mem _)

theorem State.Ganged.group {s : State} (h : s.Ganged) (g : Nat) : ∀ w ∈ (s.group g).warps, w.2.splits.Pairwise Apart := by
  rcases Store.get_eq_or_mem s.groups Group.blank g with hb | hm
  · rw [State.group, hb]
    exact fun _ hw => nomatch hw
  · exact h _ hm

theorem State.Ganged.warp {s : State} (h : s.Ganged) (g w : Nat) : (s.warp g w).splits.Pairwise Apart := by
  rcases Store.get_eq_or_mem (s.group g).warps Warp.blank w with hb | hm
  · rw [State.warp, Group.warp, hb]
    exact List.Pairwise.nil
  · exact h.group g _ hm

theorem State.Ganged.modGroup {s : State} (h : s.Ganged) (g : Nat) (f : Group → Group)
    (hf : ∀ w ∈ (f (s.group g)).warps, w.2.splits.Pairwise Apart) : (s.modGroup g f).Ganged := by
  intro p hp
  rcases Store.mem_put hp with rfl | hp
  · exact hf
  · exact h p hp

theorem State.Ganged.modWarp {s : State} (h : s.Ganged) (g w : Nat) (f : Warp → Warp) (hf : (f (s.warp g w)).splits.Pairwise Apart) :
    (s.modWarp g w f).Ganged := by
  refine h.modGroup g _ fun p hp => ?_
  rcases Store.mem_put hp with rfl | hp
  · exact hf
  · exact h.group g p hp

theorem State.Ganged.modStream {s : State} (h : s.Ganged) (g : Nat) (st : Strm) (f : Stream → Stream) : (s.modStream g st f).Ganged :=
  h.modGroup g _ (by simpa using h.group g)

/-! ### The end of a cycle -/

theorem State.ganged_regangAll (s : State) : s.regangAll.Ganged := by
  intro g hg w hw
  obtain ⟨p, -, rfl⟩ := List.mem_map.mp hg
  obtain ⟨q, -, rfl⟩ := List.mem_map.mp hw
  exact (merged_regang q.2.splits).imp apart_of_not_merges

theorem State.holds_of_lookahead {s : State} {t : Target} {w : Wait} (h : s.lookahead t = some w) : w.holds = true := by
  unfold State.lookahead at h
  dsimp only at h
  split at h
  · cases h
  · split at h
    · simp only [Option.ite_none_right_eq_some, Bool.and_eq_true, Option.some.injEq] at h
      obtain ⟨⟨-, hw⟩, rfl⟩ := h
      exact hw
    · cases h

/-- A ready split that a look at its next instruction changes is parked. -/
theorem Split.heldIn_parked {y : Split} {h : Option Wait} {n : Nat} (hy : y.wait = .ready) (hh : ∀ w, h = some w → w.holds = true)
    (hne : y.heldIn h n ≠ y) : (y.heldIn h n).wait ≠ .ready := by
  cases h with
  | none => exact absurd (by rw [Split.heldIn, ← hy]) hne
  | some w => exact fun (e : w = .ready) => nomatch e ▸ hh w rfl

/-- Holding the ready splits of a warp, and freeing none, brings no two together. -/
theorem State.Ganged.holdWarp {s : State} (h : s.Ganged) (g w : Nat) : (s.holdWarp false g w).Ganged := by
  unfold State.holdWarp
  split
  · exact h
  · refine foldl_keeps State.Ganged _ _ (fun t y ht => ?_) s h
    dsimp only
    split
    · next hy =>
      split
      · exact ht
      · next hne =>
        have hz := Split.heldIn_parked (by simpa using hy) (fun _ => State.holds_of_lookahead) (by simpa using hne)
        have hu := ht.modWarp g w (·.replaceSplit y.lanes fun _ => [_]) (pairwise_apart_replaceSplit y.lanes (ht.warp g w) hz)
        split
        · exact hu
        · exact hu
    · exact ht

theorem State.Ganged.holdStream {s : State} (h : s.Ganged) (g : Nat) (st : Strm) : (s.holdStream g st).Ganged := by
  unfold State.holdStream
  dsimp only
  split
  · split
    · exact h
    · exact h.modStream g st _
  · exact h

theorem State.ganged_endCycle (s : State) : s.endCycle.Ganged := by
  unfold State.endCycle
  dsimp only
  refine foldl_keeps State.Ganged _ _ (fun t g ht => (ht.holdStream g .a).holdStream g .m) _ ?_
  exact foldl_keeps State.Ganged _ _ (fun t g ht => foldl_keeps State.Ganged _ _ (fun t w ht => ht.holdWarp g w) _ ht) _
    (State.ganged_regangAll _)

/-- After what settles, the second place of a pair is still to issue, or the splits of every warp have merged. -/
theorem State.settle_partner_or_ganged (s before : State) : (s.settle before).cur.partner.isSome = true ∨ (s.settle before).Ganged := by
  unfold State.settle
  dsimp only
  split
  · next hp => exact .inl hp
  · exact .inr (State.ganged_endCycle _)

/-- Every step ends with what settles after it. -/
theorem step_eq_settle (s : State) : ∃ o, step s = mapNext (·.settle s) o := by
  have issue : ∃ o, s.issueStep = mapNext (·.settle s) o := by
    unfold State.issueStep
    split
    · exact ⟨_, rfl⟩
    · exact ⟨.next _, rfl⟩
  unfold step State.cycleStep
  split
  · exact ⟨_, rfl⟩
  · split
    · dsimp only
      split
      · exact ⟨_, rfl⟩
      · exact ⟨.next _, rfl⟩
    · split
      · split
        · exact ⟨_, rfl⟩
        · exact issue
      · exact issue

/-- Settles O59: every step ends with what settles after it, and that leaves the splits of every warp merged unless the second place of a pair is still
to issue. -/
theorem stepKeepsSplitsMerged : Obligations.StepKeepsSplitsMerged := by
  intro s t h
  obtain ⟨o, ho⟩ := step_eq_settle s
  cases o with
  | next u =>
    obtain rfl : u.settle s = t := Host.Outcome.next.inj (ho.symm.trans h)
    exact u.settle_partner_or_ganged s
  | fault r => exact nomatch ho.symm.trans h
  | refused r => exact nomatch ho.symm.trans h

end Sys2Proof.Machine
end

section
/-!
SUPPORT. Rankings and masks: what stands first in a list that is sorted by insertion (spec/02_execution_model.md R38; spec/18_scheduling_preemption.md
R429), and the lanes of a list of splits as a mask.
-/

namespace Sys2Proof.Machine

variable {α : Type}

/-! ### Sorting by insertion -/

/-- Inserting the elements of a list one by one keeps exactly them. -/
theorem mem_foldl_insert {ins : α → List α → List α} (h : ∀ x l z, z ∈ ins x l ↔ z = x ∨ z ∈ l) (l acc : List α) (z : α) :
    z ∈ l.foldl (fun acc x => ins x acc) acc ↔ z ∈ acc ∨ z ∈ l := by
  induction l generalizing acc with
  | nil => simp
  | cons x r ih => rw [List.foldl_cons, ih, h, List.mem_cons, or_comm (a := z = x), or_assoc]

theorem mem_rankSplit (x : Split) (l : List Split) (z : Split) : z ∈ rankSplit x l ↔ z = x ∨ z ∈ l := by
  induction l with
  | nil => simp [rankSplit]
  | cons y r ih =>
    rw [rankSplit]
    split
    · rw [List.mem_cons, ih, List.mem_cons, or_left_comm]
    · rw [List.mem_cons]

theorem mem_ranked (l : List Split) (z : Split) : z ∈ ranked l ↔ z ∈ l := by
  simpa [ranked] using mem_foldl_insert mem_rankSplit l [] z

theorem ranked_head?_eq_none {l : List Split} : (ranked l).head? = none ↔ l = [] := by
  simp [List.head?_eq_none_iff, List.eq_nil_iff_forall_not_mem, mem_ranked]

theorem mem_insertBy (key : α → Nat × Nat × Nat) (x : α) (l : List α) (z : α) : z ∈ insertBy key x l ↔ z = x ∨ z ∈ l := by
  induction l with
  | nil => simp [insertBy]
  | cons y r ih =>
    rw [insertBy]
    split
    · rw [List.mem_cons, ih, List.mem_cons, or_left_comm]
    · rw [List.mem_cons]

theorem mem_sortBy (key : α → Nat × Nat × Nat) (l : List α) (z : α) : z ∈ sortBy key l ↔ z ∈ l := by
  simpa [sortBy] using mem_foldl_insert (mem_insertBy key) l [] z

theorem sortBy_head?_isSome {key : α → Nat × Nat × Nat} {l : List α} {z : α} (h : z ∈ l) : (sortBy key l).head?.isSome = true :=
  List.isSome_head?.mpr (List.ne_nil_of_mem ((mem_sortBy key l z).mpr h))

theorem moverLe_fst {a b : Nat × Nat × Nat} (h : moverLe a b = true) : a.1 ≤ b.1 := by
  simp only [moverLe, Bool.or_eq_true, Bool.and_eq_true, decide_eq_true_eq, beq_iff_eq] at h
  omega

theorem fst_of_not_moverLe {a b : Nat × Nat × Nat} (h : ¬ moverLe a b = true) : b.1 ≤ a.1 := by
  simp only [moverLe, Bool.or_eq_true, Bool.and_eq_true, decide_eq_true_eq, beq_iff_eq] at h
  omega

/-- The first element of a list has the least first key. -/
def HeadLeast (key : α → Nat × Nat × Nat) (l : List α) : Prop := ∀ y ∈ l.head?, ∀ z ∈ l, (key y).1 ≤ (key z).1

theorem HeadLeast.insertBy {key : α → Nat × Nat × Nat} {l : List α} (h : HeadLeast key l) (x : α) : HeadLeast key (insertBy key x l) := by
  cases l with
  | nil => simp [HeadLeast, Machine.insertBy]
  | cons y r =>
    have hy : ∀ z ∈ y :: r, (key y).1 ≤ (key z).1 := h y rfl
    by_cases hle : moverLe (key y) (key x) = true
    · rw [Machine.insertBy, if_pos hle]
      intro u hu z hz
      obtain rfl := Option.some.inj hu
      rcases List.mem_cons.mp hz with rfl | hz
      · exact Nat.le_refl _
      · rcases (mem_insertBy key x r z).mp hz with rfl | hz
        · exact moverLe_fst hle
        · exact hy z (List.mem_cons_of_mem _ hz)
    · rw [Machine.insertBy, if_neg hle]
      intro u hu z hz
      obtain rfl := Option.some.inj hu
      rcases List.mem_cons.mp hz with rfl | hz
      · exact Nat.le_refl _
      · exact (fst_of_not_moverLe hle).trans (hy z hz)

theorem headLeast_sortBy (key : α → Nat × Nat × Nat) (l : List α) : HeadLeast key (sortBy key l) :=
  foldl_keeps (HeadLeast key) _ l (fun _ x h => h.insertBy x) [] (fun _ h => nomatch h)

/-! ### Masks -/

@[simp] theorem getLsbD_lanesWhere (p : Nat → Bool) (k : Nat) : (lanesWhere p).getLsbD k = (decide (k < 64) && p k) := by
  rw [lanesWhere, BitVec.getLsbD_ofFnLE]
  by_cases h : k < 64 <;> simp [h]

theorem getLsbD_foldl_lanes (l : List Split) (m : Lanes) (k : Nat) :
    (l.foldl (fun m z => m ||| z.lanes) m).getLsbD k = (m.getLsbD k || l.any fun z => z.lanes.getLsbD k) := by
  induction l generalizing m with
  | nil => simp
  | cons x r ih => rw [List.foldl_cons, ih, BitVec.getLsbD_or, List.any_cons, Bool.or_assoc]

/-- The lanes of a list of splits. -/
theorem foldl_lanes_eq_lanesWhere (l : List Split) :
    l.foldl (fun m z => m ||| z.lanes) 0 = lanesWhere fun k => l.any fun z => z.lanes.getLsbD k := by
  refine BitVec.eq_of_getLsbD_eq fun k hk => ?_
  rw [getLsbD_foldl_lanes, getLsbD_lanesWhere]
  simp [hk]

/-! ### The turn of an access sequencer (spec/01_device_overview.md R20) -/

/-- A group stands at an access sequencer with its A-stream ready. -/
def State.AccessWaits (s : State) (pcore k g : Nat) (x : Group) : Prop :=
  (g, x) ∈ s.groups ∧ x.used = true ∧ x.pcore = pcore ∧ x.slotA / 4 = k ∧ s.streamReady g .a = true

theorem State.accessTurn_eq_some {s : State} {pcore k g : Nat} (h : s.accessTurn pcore k = some g) :
    ∃ x, s.AccessWaits pcore k g x ∧ ∀ h y, s.AccessWaits pcore k h y →
      (x.slotA + 4 - Store.get s.eng.aTurn 0 (4 * pcore + k)) % 4 ≤ (y.slotA + 4 - Store.get s.eng.aTurn 0 (4 * pcore + k)) % 4 := by
  unfold State.accessTurn at h
  obtain ⟨p, hp, rfl⟩ := Option.map_eq_some_iff.mp h
  have hmem := (mem_sortBy _ _ _).mp (List.mem_of_mem_head? hp)
  simp only [List.mem_filter, Bool.and_eq_true, beq_iff_eq, and_assoc] at hmem
  refine ⟨p.2, hmem, fun h y ⟨hy, hu, hc, hk, hr⟩ => headLeast_sortBy _ _ p hp (h, y) ?_⟩
  simp [mem_sortBy, hy, hu, hc, hk, hr]

theorem State.AccessWaits.accessTurn_isSome {s : State} {pcore k g : Nat} {x : Group} (h : s.AccessWaits pcore k g x) :
    (s.accessTurn pcore k).isSome = true := by
  obtain ⟨hx, hu, hc, hk, hr⟩ := h
  rw [State.accessTurn, Option.isSome_map]
  exact sortBy_head?_isSome (z := (g, x)) (by simp [hx, hu, hc, hk, hr])

theorem State.accessWaits_of_mem_units {s : State} {pcore k : Nat} (h : Unit3.access pcore k ∈ s.units) :
    ∃ g x, s.AccessWaits pcore k g x := by
  rw [State.units, List.mem_dedup] at h
  obtain ⟨⟨g, x⟩, hx, hm⟩ := List.mem_flatMap.mp h
  cases hu : x.used with
  | false => simp [hu] at hm
  | true =>
    cases hr : s.streamReady g .a with
    | false => simp [hu, hr] at hm
    | true =>
      obtain ⟨hc, hk⟩ : pcore = x.pcore ∧ k = x.slotA / 4 := by simpa [hu, hr] using hm
      exact ⟨g, x, hx, hu, hc.symm, hk.symm, hr⟩

theorem accessTurnResults : Parts.AccessTurnResults := by
  intro pcore k s
  refine ⟨fun g => State.accessTurn_eq_some, fun g x => State.AccessWaits.accessTurn_isSome, ?_, ?_⟩
  · rintro u hm rfl
    obtain ⟨g, x, hw⟩ := State.accessWaits_of_mem_units hm
    obtain ⟨g', hg⟩ := Option.isSome_iff_exists.mp hw.accessTurn_isSome
    exact ⟨g', s.streamTarget g' .a, hg, by simp [State.issueOf, hg], rfl, rfl⟩
  · intro t ht
    simp only [State.passTurn, ht, if_true]
    exact Store.get_put_same _ _ _ _

end Sys2Proof.Machine
end

section
/-!
SUPPORT. Events of a warp (spec/02_execution_model.md R46; spec/04_registers_encoding.md R97, R109; spec/09_isa_memory_engines.md R244): each acts
in its warp alone, and a waiting lane's read acts in its group and in memory.
-/

namespace Sys2Proof.Machine

theorem State.warp_modWarp_ne (s : State) (g : Nat) {w v : Nat} (f : Warp → Warp) (e : v ≠ w) : (s.modWarp g w f).warp g v = s.warp g v := by
  rw [State.warp, State.group_modWarp, Group.warp_modWarp_ne _ _ e, State.warp]

/-- What an event of a warp leaves alone. -/
def State.InWarp (s : State) (g w : Nat) (t : State) : Prop :=
  (∀ h, h ≠ g → t.group h = s.group h) ∧ (∀ v, v ≠ w → t.warp g v = s.warp g v) ∧ t.ctxs = s.ctxs ∧ t.work = s.work

theorem State.inWarp_modWarp (s : State) (g w : Nat) (f : Warp → Warp) : s.InWarp g w (s.modWarp g w f) :=
  ⟨fun _ h => State.group_modWarp_ne s w f h, fun _ h => State.warp_modWarp_ne s g f h, rfl, rfl⟩

theorem State.inWarp_self (s : State) (g w : Nat) : s.InWarp g w s := ⟨fun _ _ => rfl, fun _ _ => rfl, rfl, rfl⟩

/-! ### Landing results -/

/-- A pending result once a load's results of an issue have landed. -/
def Pend.landAt (tag : Nat) (p : Pend) : Pend := if p.tag = tag ∧ p.kind = .mem then { p with landed := true } else p

/-- The texture requests among the results of an issue. -/
def Warp.texIds (x : Warp) (tag : Nat) : List Nat :=
  (x.pend.filterMap fun p => match p.kind with | .tex id => if p.tag = tag then some id else none | _ => none).dedup

theorem Warp.mem_texIds {x : Warp} {tag id : Nat} : id ∈ x.texIds tag ↔ ∃ p ∈ x.pend, p.tag = tag ∧ p.kind = .tex id := by
  rw [Warp.texIds, List.mem_dedup, List.mem_filterMap]
  refine exists_congr fun p => and_congr_right fun _ => ?_
  cases p.kind <;> simp

theorem execLoadResultLand_eq (g w tag : Nat) (s : State) :
    ∃ t, exec (.loadResultLand g w tag) s = .next (((s.warp g w).texIds tag).foldl State.settleTex t) ∧ s.InWarp g w t ∧ t.mem = s.mem ∧
      t.eng = s.eng ∧ t.verdicts = s.verdicts ∧ t.warp g w = { s.warp g w with pend := (s.warp g w).pend.map (Pend.landAt tag) } := by
  by_cases h : (s.warp g w).pend.any fun p => p.tag == tag
  · refine ⟨s.modWarp g w fun x => { x with pend := x.pend.map (Pend.landAt tag) }, ?_, s.inWarp_modWarp g w _, rfl, rfl, rfl, s.warp_modWarp g w _⟩
    change execLoadResultLand g w tag s = _
    simp only [execLoadResultLand, h]
    rfl
  · have hnone : ∀ p ∈ (s.warp g w).pend, p.tag ≠ tag := by simpa using h
    have hids : (s.warp g w).texIds tag = [] := List.eq_nil_iff_forall_not_mem.mpr fun id hid => by
      obtain ⟨p, hp, ht, -⟩ := Warp.mem_texIds.mp hid
      exact hnone p hp ht
    have hpend : (s.warp g w).pend.map (Pend.landAt tag) = (s.warp g w).pend :=
      List.map_congr_left (fun p hp => if_neg fun hc => hnone p hp hc.1) |>.trans (List.map_id _)
    refine ⟨s, ?_, s.inWarp_self g w, rfl, rfl, rfl, ?_⟩
    · change execLoadResultLand g w tag s = _
      simp only [execLoadResultLand, h, hids]
      rfl
    · rw [hpend]

theorem Warp.texIds_eq_nil {x : Warp} {tag : Nat} (h : ∀ p ∈ x.pend, p.tag = tag → ∀ id, p.kind ≠ .tex id) : x.texIds tag = [] :=
  List.eq_nil_iff_forall_not_mem.mpr fun id hid => by
    obtain ⟨p, hp, ht, hk⟩ := Warp.mem_texIds.mp hid
    exact h p hp ht id hk

theorem Warp.texIds_eq_singleton {x : Warp} {tag id : Nat} (hid : ∃ p ∈ x.pend, p.tag = tag ∧ p.kind = .tex id)
    (hall : ∀ p ∈ x.pend, p.tag = tag → p.kind = .mem ∨ p.kind = .tex id) : x.texIds tag = [id] := by
  have only : ∀ n ∈ x.texIds tag, n = id := fun n hn => by
    obtain ⟨p, hp, ht, hk⟩ := Warp.mem_texIds.mp hn
    rcases hall p hp ht with h | h
    · cases hk.symm.trans h
    · exact PendKind.tex.inj (hk.symm.trans h)
  have hnodup : (x.texIds tag).Nodup := List.nodup_dedup _
  exact List.perm_singleton.mp ((List.perm_ext_iff_of_nodup hnodup (List.nodup_singleton id)).mpr fun n =>
    ⟨fun hn => List.mem_singleton.mpr (only n hn), fun hn => List.mem_singleton.mp hn ▸ Warp.mem_texIds.mpr hid⟩)

/-! ### A starved warp -/

theorem execWarpOverdue_eq (g w : Nat) (s : State) :
    ∃ t, exec (.warpOverdue g w) s = .next t ∧ s.InWarp g w t ∧ t.mem = s.mem ∧ t.warp g w =
      { s.warp g w with overdue := (s.warp g w).overdue || (s.warpReady g w && decide (32 ≤ (s.warp g w).unsel)) } := by
  refine ⟨_, rfl, ?_⟩
  split
  · next h => exact ⟨s.inWarp_modWarp g w _, rfl, by rw [State.warp_modWarp, h, Bool.or_true]⟩
  · next h => exact ⟨s.inWarp_self g w, rfl, by rw [(Bool.not_eq_true _).mp h, Bool.or_false]⟩

/-! ### A waiting lane reads again -/

/-- From s to t nothing changed in other groups, nor in the scratchpad of group g, which issues. -/
def State.ActsIn (s : State) (g : Nat) (t : State) : Prop :=
  t.cur.grp = g ∧ (∀ h, h ≠ g → t.group h = s.group h) ∧ (t.group g).scratch = (s.group g).scratch

theorem State.ActsIn.congr {s t u : State} {g : Nat} (h : s.ActsIn g t) (hc : u.cur.grp = t.cur.grp) (hg : u.groups = t.groups) : s.ActsIn g u := by
  obtain ⟨h1, h2, h3⟩ := h
  refine ⟨hc.trans h1, fun k hk => ?_, ?_⟩
  · rw [State.group, hg]
    exact h2 k hk
  · rw [State.group, hg]
    exact h3

theorem State.ActsIn.withMem {s t : State} {g : Nat} (h : s.ActsIn g t) (m : Mem) : s.ActsIn g { t with mem := m } := h.congr rfl rfl

theorem State.ActsIn.ite {s t u : State} {g : Nat} {c : Prop} [Decidable c] (ht : s.ActsIn g t) (hu : s.ActsIn g u) :
    s.ActsIn g (if c then t else u) := by
  split
  · exact ht
  · exact hu

theorem State.ActsIn.ite_snd {α : Type} {s : State} {g : Nat} {c : Prop} [Decidable c] {x y : α × State} (hx : s.ActsIn g x.2) (hy : s.ActsIn g y.2) :
    s.ActsIn g (if c then x else y).2 := by
  split
  · exact hx
  · exact hy

theorem State.ActsIn.modGroup {s t : State} {g : Nat} (h : s.ActsIn g t) (f : Group → Group) (hf : ∀ x, (f x).scratch = x.scratch) :
    s.ActsIn g (t.modGroup g f) := by
  obtain ⟨h1, h2, h3⟩ := h
  refine ⟨h1, fun k hk => ?_, ?_⟩
  · rw [State.group_modGroup_ne t f hk, h2 k hk]
  · rw [State.group_modGroup, hf, h3]

theorem State.ActsIn.stickIf {s t : State} {g : Nat} (h : s.ActsIn g t) (b : Bool) : s.ActsIn g (t.stickIf b) := by
  cases b <;> exact h

@[simp] theorem Group.scratch_modStream (x : Group) (st : Strm) (f : Stream → Stream) : (x.modStream st f).scratch = x.scratch := by
  cases st <;> rfl

theorem State.translate_changes_mem {s t : State} {c : Ctx} {va p : Nat} {n : Need} (h : s.translate c va n = .ok (p, t)) :
    ∃ m, t = { s with mem := m } := by
  unfold State.translate at h
  dsimp only at h
  split at h
  · obtain ⟨-, rfl⟩ := Prod.mk.inj (Except.ok.inj h)
    exact ⟨_, rfl⟩
  · split at h
    · cases h
    · split at h
      · obtain ⟨-, rfl⟩ := Prod.mk.inj (Except.ok.inj h)
        exact ⟨_, rfl⟩
      · cases h

/-- What a check lets pass. -/
theorem eq_of_checked {ε α : Type} {b : Bool} {e : ε} {x y : α} (h : (if b then Except.error e else Except.ok x) = Except.ok y) : x = y := by
  cases b with
  | true => cases h
  | false => exact Except.ok.inj h

theorem State.globalLoc_changes_mem {s t : State} {a : Agent} {va : W64} {n lvl : Nat} {k : Need} {l : Loc}
    (h : s.globalLoc a va n lvl k = .ok (l, t)) : ∃ m, t = { s with mem := m } := by
  unfold State.globalLoc at h
  dsimp only at h
  split at h
  · cases h
  · split at h
    · cases h
    · split at h
      · split at h
        · split at h
          · cases h
          · obtain ⟨-, rfl⟩ := Prod.mk.inj (eq_of_checked h)
            exact ⟨_, rfl⟩
        · obtain ⟨-, rfl⟩ := Prod.mk.inj (eq_of_checked h)
          exact ⟨_, rfl⟩
      · split at h
        · cases h
        · next htr =>
          obtain ⟨m, rfl⟩ := State.translate_changes_mem htr
          split at h
          · cases h
          · obtain ⟨-, rfl⟩ := Prod.mk.inj (eq_of_checked h)
            exact ⟨_, rfl⟩

theorem State.spot_changes_mem {s t : State} {g : Nat} {a : Agent} {x : Access} {p : Spot} (h : s.spot g a x = .ok (p, t)) :
    ∃ m, t = { s with mem := m } := by
  unfold State.spot at h
  dsimp only at h
  split at h
  · split at h
    · cases h
    · split at h
      · cases h
      · obtain ⟨-, rfl⟩ := Prod.mk.inj (Except.ok.inj h)
        exact ⟨_, rfl⟩
  · split at h
    · cases h
    · split at h
      · cases h
      · split at h
        · cases h
        · split at h
          · cases h
          · obtain ⟨-, rfl⟩ := Prod.mk.inj (Except.ok.inj h)
            exact ⟨_, rfl⟩
  · split at h
    · cases h
    · next hloc =>
      split at h
      · cases h
      · obtain ⟨-, rfl⟩ := Prod.mk.inj (Except.ok.inj h)
        exact State.globalLoc_changes_mem hloc

theorem State.ActsIn.before {s t : State} {g : Nat} (h : s.ActsIn g t) (a : Agent) (p : Spot) (n : Nat) (m : MemMod) (r : Option Nat) :
    s.ActsIn g (t.before a p n m r) := by
  cases p with
  | g l =>
    have released (c : Bool) (x : Mem) (b : Bool) : s.ActsIn g (if c then ({ t with mem := x } : State).stickIf b else t) :=
      .ite ((h.withMem x).stickIf b) h
    exact .ite (((released _ _ _).withMem _).stickIf _) (released _ _ _)
  | s o => exact h
  | k o => exact h

theorem State.ActsIn.readSpot {s t : State} {g : Nat} (h : s.ActsIn g t) (k : Nat) (a : Agent) (p : Spot) (n lvl : Nat) :
    s.ActsIn g (t.readSpot k a p n lvl).2 := by
  cases p with
  | g l => exact h
  | s o => exact h
  | k o => exact h

theorem State.ActsIn.keepRecords {s t : State} {g : Nat} (h : s.ActsIn g t) (lane : Nat) (rs : List RelRec) : s.ActsIn g (t.keepRecords lane rs) := by
  have hg : t.cur.grp = g := h.1
  unfold State.keepRecords
  dsimp only
  split
  · exact h
  · split
    · exact hg ▸ State.ActsIn.modGroup (hg ▸ h) _ fun _ => rfl
    · exact hg ▸ State.ActsIn.modGroup (hg ▸ h) _ fun _ => by simp

theorem State.ActsIn.afterRead {s t : State} {g : Nat} (h : s.ActsIn g t) (lane : Nat) (a : Agent) (p : Spot) (n : Nat) (m : MemMod) (lvl : Nat) :
    s.ActsIn g (t.afterRead lane a p n m lvl) := by
  cases p with
  | g l =>
    have acquired (c : Bool) (x : Mem) (b : Bool) : s.ActsIn g (if c then ({ t with mem := x } : State).stickIf b else t) :=
      .ite ((h.withMem x).stickIf b) h
    exact .ite h (.ite (acquired _ _ _) ((acquired _ _ _).keepRecords lane _))
  | s o => exact h
  | k o => exact h

theorem State.ActsIn.loadAt {s t : State} {g : Nat} (h : s.ActsIn g t) (k lane : Nat) (a : Agent) (p : Spot) (n : Nat) (m : MemMod) :
    s.ActsIn g (t.loadAt k lane a p n m).2 :=
  ((h.before a p n m none).readSpot k a p n _).afterRead lane a p n m _

theorem State.ActsIn.waitRead {s t : State} {g : Nat} (h : s.ActsIn g t) (k : Nat) (first : Bool) (w : LaneWait) :
    s.ActsIn g (t.waitRead k first w).2 := by
  unfold State.waitRead
  dsimp only
  split
  · exact h
  · split
    · exact h
    · next p u hspot =>
      obtain ⟨m, rfl⟩ := State.spot_changes_mem hspot
      have hu := h.withMem m
      have hpeek (a : Agent) (n lvl : Nat) (b : MemMod) :
          s.ActsIn g ((if first then ({ t with mem := m } : State).before a p n b none else { t with mem := m }).readSpot k a p n lvl).2 :=
        State.ActsIn.readSpot (.ite (hu.before a p n b none) hu) k a p n lvl
      exact .ite_snd (.ite_snd (hu.loadAt k w.lane _ p _ _) (hpeek _ _ _ _)) (.ite_snd (hpeek _ _ _ _) h)

theorem State.ActsIn.waitReads {s t : State} {g : Nat} (h : s.ActsIn g t) (k : Nat) (first : Bool) (ws : List LaneWait) :
    s.ActsIn g (t.waitReads k first ws).2 :=
  foldl_keeps (fun r : List LaneWait × State => s.ActsIn g r.2) _ ws (fun _ w hr => State.ActsIn.waitRead hr k first w) ([], t) h

/-! ### WAIT_RECHECK -/

/-- Why an access to a group's scratchpad fails, if it does (09 R233). -/
def State.scratchFault (s : State) (g : Nat) (x : Access) : Option AccFault :=
  let va : W64 := BitVec.ofInt 64 x.ea
  let off := x.ea.toNat
  if x.ea < 0 ∨ (s.group g).kernel.scratch < off + x.size then some ⟨.scratchBounds, none, va, none⟩
  else if off % x.size ≠ 0 then some ⟨.misalignedAccess, none, va, none⟩
  else if s.mem.lockedScratch g off x.size (!x.need.w) then some ⟨.rangeLocked, none, va, none⟩
  else if x.need.r && (s.group g).scratchBad off x.size then some ⟨.poisonData, some 3, va, none⟩
  else none

theorem State.spot_scratch (s : State) (g : Nat) (a : Agent) {x : Access} (h : x.space = .s) :
    s.spot g a x = match s.scratchFault g x with
      | some f => .error f
      | none => .ok (.s x.ea.toNat, s) := by
  simp only [State.spot, State.scratchFault, h]
  split_ifs
  all_goals rfl

/-- A scratchpad access is checked alike whatever issues. -/
theorem State.spot_scratch_setCur {s : State} {g o : Nat} {a : Agent} {x : Access} (h : x.space = .s) (c : Cur)
    (hspot : s.spot g a x = .ok (.s o, s)) : ({ s with cur := c } : State).spot g a x = .ok (.s o, { s with cur := c }) := by
  rw [State.spot_scratch _ _ _ h] at hspot ⊢
  have same : ({ s with cur := c } : State).scratchFault g x = s.scratchFault g x := rfl
  rw [same]
  cases hf : s.scratchFault g x with
  | some f => simp [hf] at hspot
  | none => simpa [hf] using hspot

/-- The word of a waiting lane at a place in its group's scratchpad. -/
def Group.waitWord (x : Group) (a : Nat) (k : LaneWait) : W64 := BitVec.ofNat 64 (readBytes x.scratch a k.access.size)

/-- A waiting lane that has found a value keeps it where it satisfies the lane. -/
def LaneWait.found (k : LaneWait) (v : W64) : LaneWait := { k with got := if waitCond k.cond v k.v then some v else none }

/-- A lane that waits for a word of the scratchpad finds what the scratchpad holds. -/
theorem State.waitRead_scratch {s : State} {g a : Nat} {k : LaneWait} (hgot : k.got = none) (hs : k.space = .s)
    (hspot : s.spot g (s.group g).agent k.access = .ok (.s a, s)) : s.waitRead g false k = (k.found ((s.group g).waitWord a k), s) := by
  have hdue : s.waitDue g k = true := by simp [State.waitDue, hgot, hs]
  by_cases hc : waitCond k.cond ((s.group g).waitWord a k) k.v = true
  · rw [Group.waitWord] at hc
    simp [State.waitRead, hdue, hspot, State.loadAt, State.before, State.readSpot, State.afterRead, LaneWait.found, Group.waitWord, hc]
  · have hk : k.found ((s.group g).waitWord a k) = k := by rw [LaneWait.found, if_neg hc, ← hgot]
    rw [hk]
    rw [Group.waitWord] at hc
    simp [State.waitRead, hdue, hspot, State.readSpot, hs, hc]

/-- The state in which the lanes of a parked `wait` read again. -/
def State.recheckAt (s : State) (g w : Nat) : State := { s with cur := { s.cur with grp := g, strm := .e, wid := w, stuck := false } }

/-- The access of a lane that is to read again fails. -/
def State.waitFails (s : State) (g : Nat) (ws : List LaneWait) : Bool :=
  ws.any fun k => s.waitDue g k && match s.spot g (s.group g).agent k.access with | .error _ => true | .ok _ => false

/-- The state after the lanes of a `wait` at which split y is parked have read again; nothing happens where a lock holds what one acquires. -/
def State.afterRecheck (s : State) (g w : Nat) (y : Split) (ws : List LaneWait) : State :=
  let r := (s.recheckAt g w).waitReads g false ws
  if r.2.cur.stuck then s
  else ({ r.2 with cur := s.cur } : State).modWarp g w fun x => x.replaceSplit y.lanes fun x =>
    [{ x with wait := if s.waitFails g ws then .ready else .waitaddr r.1 }]

theorem execWaitRecheck_eq {s : State} {g w l : Nat} {y : Split} {ws : List LaneWait}
    (hy : (s.warp g w).splits.find? (fun z => z.lanes.getLsbD l) = some y) (hw : y.wait = .waitaddr ws) :
    exec (.waitRecheck g w l) s = .next (s.afterRecheck g w y ws) := by
  change execWaitRecheck g w l s = _
  simp only [execWaitRecheck, hy, hw]
  rfl

theorem State.afterRecheck_frame (s : State) (g w : Nat) (y : Split) (ws : List LaneWait) :
    (∀ h, h ≠ g → (s.afterRecheck g w y ws).group h = s.group h) ∧ ((s.afterRecheck g w y ws).group g).scratch = (s.group g).scratch := by
  have start : s.ActsIn g (s.recheckAt g w) := ⟨rfl, fun _ _ => rfl, rfl⟩
  obtain ⟨-, hother, hscratch⟩ := (start.waitReads g false ws).modGroup (·.modWarp w fun x => x.replaceSplit y.lanes fun x =>
    [{ x with wait := if s.waitFails g ws then .ready else .waitaddr ((s.recheckAt g w).waitReads g false ws).1 }]) fun _ => rfl
  unfold State.afterRecheck
  dsimp only
  split
  · exact ⟨fun _ _ => rfl, rfl⟩
  · exact ⟨hother, hscratch⟩

theorem Warp.mem_replaceSplit {x : Warp} {y z : Split} {f : Split → List Split} (hy : y ∈ x.splits) (hz : z ∈ f y) :
    z ∈ (x.replaceSplit y.lanes f).splits :=
  List.mem_flatMap.mpr ⟨y, hy, by simpa using hz⟩

/-- A single lane that waits for a word of the scratchpad looks again: it stays where it is, with the word's value once that satisfies it. -/
theorem State.afterRecheck_scratch {s : State} {g a : Nat} {k : LaneWait} (w : Nat) (y : Split) (hgot : k.got = none) (hs : k.space = .s)
    (hspot : s.spot g (s.group g).agent k.access = .ok (.s a, s)) :
    s.afterRecheck g w y [k] = s.modWarp g w fun x => x.replaceSplit y.lanes fun x =>
      [{ x with wait := .waitaddr [k.found ((s.group g).waitWord a k)] }] := by
  have hspot' : (s.recheckAt g w).spot g ((s.recheckAt g w).group g).agent k.access = .ok (.s a, s.recheckAt g w) :=
    State.spot_scratch_setCur hs _ hspot
  have hreads : (s.recheckAt g w).waitReads g false [k] = ([k.found ((s.group g).waitWord a k)], s.recheckAt g w) := by
    rw [State.waitReads, List.foldl_cons, State.waitRead_scratch hgot hs hspot']
    rfl
  have hfails : s.waitFails g [k] = false := by simp [State.waitFails, hspot]
  simp only [State.afterRecheck, hreads, hfails]
  rfl

theorem warpEventResults : Parts.WarpEventResults := by
  intro g w l tag s
  have inWarp {i : Instr} {p : State → Prop} {t : State} (ht : exec i s = .next t) (hw : s.InWarp g w t) (hp : p t) :
      ∃ t, exec i s = .next t ∧ (∀ h, h ≠ g → t.group h = s.group h) ∧ (∀ v, v ≠ w → t.warp g v = s.warp g v) ∧ t.ctxs = s.ctxs ∧
        t.work = s.work ∧ p t := by
    obtain ⟨h1, h2, h3, h4⟩ := hw
    exact ⟨t, ht, h1, h2, h3, h4, hp⟩
  refine ⟨?_, ?_, ?_, ?_, ?_, ?_⟩
  · exact inWarp rfl (s.inWarp_modWarp g w _) ⟨rfl, s.warp_modWarp g w _⟩
  · exact inWarp rfl (s.inWarp_modWarp g w _) ⟨rfl, s.warp_modWarp g w _⟩
  · obtain ⟨t, ht, hw, hm, hx⟩ := execWarpOverdue_eq g w s
    exact inWarp ht hw ⟨hm, hx⟩
  · intro hmem
    obtain ⟨t, ht, hw, hm, -, -, hx⟩ := execLoadResultLand_eq g w tag s
    rw [Warp.texIds_eq_nil hmem] at ht
    exact inWarp ht hw ⟨hm, hx⟩
  · intro id hid hall
    obtain ⟨t, ht, hw, hm, he, hv, hx⟩ := execLoadResultLand_eq g w tag s
    rw [Warp.texIds_eq_singleton hid hall] at ht
    exact ⟨t, ht, hm, he, hv, hx⟩
  · intro y ws hy hw
    obtain ⟨hother, hscratch⟩ := s.afterRecheck_frame g w y ws
    refine ⟨_, execWaitRecheck_eq hy hw, hother, hscratch, ?_⟩
    rintro k a rfl hgot hs hspot
    rw [State.afterRecheck_scratch w y hgot hs hspot]
    refine ⟨rfl, { y with wait := .waitaddr [k.found ((s.group g).waitWord a k)] }, ?_, rfl, rfl, rfl⟩
    rw [State.warp_modWarp]
    exact Warp.mem_replaceSplit (List.mem_of_find?_eq_some hy) (List.mem_singleton.mpr rfl)

end Sys2Proof.Machine
end

section
/-!
SUPPORT. Watchdogs and timeouts (spec/02_execution_model.md R45; spec/03_decoupled_streams.md R79; spec/17_privileged_traps.md R417): where each
leaves the machine as it is, and which trap it raises.
-/

namespace Sys2Proof.Machine

theorem wdlimit_toNat_eq_zero {x : W32} : x.toNat = 0 ↔ x = 0 := by
  rw [BitVec.toNat_eq]
  rfl

/-! ### The watchdog of a warp -/

/-- The splits of a warp whose watchdog counts have reached its limit. -/
def Warp.late (x : Warp) : List Split := x.splits.filter fun z => decide (x.wdlimit.toNat ≤ z.wd)

/-- The trap of the watchdog at a late split. -/
def Warp.dogTrap (x : Warp) (z : Split) : Trap :=
  let info (k : Nat) : W64 := ((ranked x.splits).map fun z => slotAddr z.pc).getD k 0xFFFFFFFFFFFFFFFF
  ⟨.watchdogSplits, slotAddr z.pc, x.late.foldl (fun m z => m ||| z.lanes) 0, info 0, info 1, info 2, info 3⟩

/-- The watchdog acts at level U only, where a limit is set and no trap is due. -/
def Warp.watched (x : Warp) : Prop := x.wdlimit ≠ 0 ∧ x.level = false ∧ x.due = none ∧ x.esc = none

theorem State.watchdog_unwatched {s : State} {g w : Nat} (h : ¬ (s.warp g w).watched) : s.watchdog g w = s := by
  unfold State.watchdog
  dsimp only
  split
  · rfl
  · next hoff =>
    refine absurd ?_ h
    simpa [Warp.watched, wdlimit_toNat_eq_zero, and_assoc] using hoff

theorem State.watchdog_watched {s : State} {g w : Nat} (h : (s.warp g w).watched) :
    s.watchdog g w = match (ranked (s.warp g w).late).head? with
      | none => s
      | some z => s.trapWarp g w z.lanes ((s.warp g w).dogTrap z) := by
  obtain ⟨hlim, hlevel, hdue, hesc⟩ := h
  unfold State.watchdog
  dsimp only
  rw [if_neg (by simpa [wdlimit_toNat_eq_zero, hlevel, hdue, hesc] using hlim)]
  rfl

theorem State.watchdog_none_late {s : State} {g w : Nat} (h : (s.warp g w).late = []) : s.watchdog g w = s := by
  by_cases hw : (s.warp g w).watched
  · rw [State.watchdog_watched hw, h]
    rfl
  · exact State.watchdog_unwatched hw

theorem State.watchdog_traps {s : State} {g w : Nat} (hw : (s.warp g w).watched) (hl : (s.warp g w).late ≠ []) :
    ∃ z ∈ (s.warp g w).late, s.watchdog g w = s.trapWarp g w z.lanes ((s.warp g w).dogTrap z) := by
  obtain ⟨z, hz⟩ := Option.isSome_iff_exists.mp (Option.isSome_iff_ne_none.mpr (mt ranked_head?_eq_none.mp hl))
  refine ⟨z, (mem_ranked _ _).mp (List.mem_of_mem_head? hz), ?_⟩
  rw [State.watchdog_watched hw, hz]

/-! ### DECOUPLE_STALL -/

/-- The trap of a group whose A-stream is blocked while every warp starves. -/
def Group.stallTrap (x : Group) : Trap :=
  ⟨.decoupleStall, slotAddr x.astr.pc, 0, BitVec.ofNat 64 x.astr.wait.code,
    BitVec.ofNat 64 (x.wids.foldl (fun n w => if (x.warp w).ended then n else n + 2 ^ w) 0), 0, 0⟩

theorem State.decoupleStall_eq {s : State} {g f : Nat} (h : (s.group g).firstWarp = some f) :
    s.decoupleStall g =
      if (s.group g).used = true ∧ ((s.group g).warp f).wdlimit.toNat ≠ 0 ∧ ((s.group g).warp f).wdlimit.toNat ≤ (s.group g).stall ∧
        (s.group g).decoupled = true ∧ (s.group g).astr.trap = none ∧ (s.group g).astr.esc = none
      then (s.modGroup g fun x => { x with stall := 0 }).trapStream g .a (s.group g).stallTrap else s := by
  simp only [State.decoupleStall, h]
  refine (if_congr ?_ rfl rfl).trans (ite_not _ _ _)
  simp [imp_iff_not_or, or_assoc, Option.isSome_iff_ne_none]

/-! ### WAIT_TIMEOUT -/

/-- The low bits of TINFO0 hold the reason code of the wait. -/
theorem extractLsb'_timeoutInfo (t : Wait) : t.timeoutInfo.1.extractLsb' 0 4 = BitVec.ofNat 4 t.code := by
  have low (n : Nat) : (BitVec.ofNat 64 n).extractLsb' 0 4 = BitVec.ofNat 4 n := by
    apply BitVec.eq_of_toNat_eq
    simp
  have flagged (c b : Nat) : BitVec.ofNat 4 (c + 16 * b) = BitVec.ofNat 4 c := by
    apply BitVec.eq_of_toNat_eq
    simp
  cases t with
  | barrier b p n => exact (low _).trans (flagged 4 b)
  | cbarrier p n => exact (low _).trans (flagged 4 16)
  | _ => exact low _

theorem State.timeout_split {s : State} {g w l : Nat} {z : Split} (h : (s.warp g w).splits.find? (fun z => z.lanes.getLsbD l) = some z) :
    s.timeout g .e w l =
      if 1024 * (s.gctx g).bplimit ≠ 0 ∧ z.wait.blocked = true ∧ 1024 * (s.gctx g).bplimit ≤ z.bp ∧ (s.warp g w).due = none ∧ (s.warp g w).esc = none
      then s.trapWarp g w z.lanes (timeoutTrap z.wait z.pc z.lanes) else s := by
  simp only [State.timeout, h]
  split
  · next hlim => rw [if_neg fun hc => hc.1 hlim]
  · next hlim => simp [hlim, and_assoc]

theorem State.timeout_no_split {s : State} {g w l : Nat} (h : (s.warp g w).splits.find? (fun z => z.lanes.getLsbD l) = none) :
    s.timeout g .e w l = s := by
  simp [State.timeout, h]

theorem State.timeout_stream {s : State} {g w l : Nat} {st : Strm} (h : st ≠ .e) :
    s.timeout g st w l =
      if 1024 * (s.gctx g).bplimit ≠ 0 ∧ ((s.group g).stream st).on = true ∧ ((s.group g).stream st).ended = false ∧
        ((s.group g).stream st).stopped = false ∧ ((s.group g).stream st).trap = none ∧ ((s.group g).stream st).esc = none ∧
        ((s.group g).stream st).wait.blocked = true ∧ 1024 * (s.gctx g).bplimit ≤ ((s.group g).stream st).bp
      then s.trapStream g st (timeoutTrap ((s.group g).stream st).wait ((s.group g).stream st).pc 0) else s := by
  simp only [State.timeout]
  split
  · next hlim => rw [if_neg fun hc => hc.1 hlim]
  · next hlim =>
    cases st with
    | e => exact absurd rfl h
    | a => simp [hlim, and_assoc]
    | m => simp [hlim, and_assoc]

theorem watchdogResults : Parts.WatchdogResults := by
  intro g w l s
  refine ⟨⟨_, rfl, ?_, ?_⟩, ⟨_, rfl, ?_⟩, ⟨_, rfl, ?_⟩, fun st hst => ⟨_, rfl, ?_⟩⟩
  · rintro (h | h | h | h)
    · exact State.watchdog_unwatched fun hw => hw.1 h
    · exact State.watchdog_unwatched fun hw => by simp [hw.2.1] at h
    · exact State.watchdog_unwatched fun hw => h hw.2.2
    · exact State.watchdog_none_late h
  · intro hlim hlevel hfree hlate
    obtain ⟨z, hz, e⟩ := State.watchdog_traps ⟨hlim, hlevel, hfree⟩ hlate
    exact ⟨z, hz, _, e, rfl, rfl, foldl_lanes_eq_lanesWhere _⟩
  · cases h : (s.group g).firstWarp with
    | none => simp [State.decoupleStall, h]
    | some f =>
      dsimp only
      rw [State.decoupleStall_eq h]
      split
      · exact ⟨_, rfl, rfl, rfl, rfl⟩
      · rfl
  · dsimp only
    split
    · next h =>
      rw [State.timeout_split h]
      split
      · exact ⟨_, rfl, rfl, rfl, extractLsb'_timeoutInfo _, rfl⟩
      · rfl
    · next h => exact State.timeout_no_split h
  · rw [State.timeout_stream hst]
    dsimp only
    split
    · exact ⟨_, rfl, rfl, rfl, rfl⟩
    · rfl

end Sys2Proof.Machine
end

section
namespace Sys2Proof.Machine

/-- Settles O46: what time brings a warp stays in its warp, watchdogs and timeouts trap where their limits are reached, and access sequencers take
their A-streams in turn. -/
theorem warpTimeResults : Obligations.WarpTimeResults := ⟨warpEventResults, watchdogResults, accessTurnResults⟩

end Sys2Proof.Machine
end

section
/-!
SUPPORT. Popping queues (spec/03_decoupled_streams.md R68, R70; spec/09_isa_memory_engines.md R246, R250): how far the heads of a queue move, and
what `qskip` does to the queue that its count operand names.
-/

namespace Sys2Proof

theorem Store.get_foldl_add (ls : List Nat) (hn : ls.Nodup) (n : Nat → Nat) (h : Store Nat) (l : Nat) :
    Store.get (ls.foldl (fun h k => Store.put h 0 k (Store.get h 0 k + n k)) h) 0 l = Store.get h 0 l + if l ∈ ls then n l else 0 := by
  induction ls generalizing h with
  | nil => rfl
  | cons k r ih =>
    obtain ⟨hk, hr⟩ := List.nodup_cons.mp hn
    rw [List.foldl_cons, ih hr, Store.get_put]
    by_cases e : l = k
    · simp [e, hk]
    · simp [e]

namespace Machine

/-! ### Heads and queues after a pop -/

theorem Queue.head_popBy (q : Queue) (lanes live : Lanes) (n : Nat → Nat) {l : Nat} (hl : l < 64) :
    (q.popBy lanes live n).head l = q.head l + if lanes.getLsbD l then n l else 0 := by
  have h := Store.get_foldl_add (laneList lanes) (laneList_nodup lanes) n q.heads l
  simp only [mem_laneList, hl, true_and] at h
  exact h

theorem Warp.queue_modQueue (w : Warp) (k n : Nat) (f : Queue → Queue) :
    (w.modQueue k f).queue n = if n = k then f (w.queue k) else w.queue n := Store.get_put _ _ _ _ _

theorem State.queue_popQueues_singleton (s : State) {g : Lanes} (hg : g ≠ 0) (k : Nat) :
    (s.popQueues g [k]).curWarp.queue k = (s.curWarp.queue k).popBy g s.curWarp.live fun _ => 1 := by
  have h : s.popQueues g [k] = s.modCurWarp fun w => w.modQueue k (·.popBy g w.live fun _ => 1) := if_neg (by simpa using hg)
  rw [h, State.curWarp_modCurWarp, Warp.queue_modQueue, if_pos rfl]

/-! ### `qskip` whose count is a queue source -/

/-- The effect of `qskip` once the entries that it skips have landed (09 R250). -/
def State.skipQueue (s : State) (f : Full) : State :=
  (s.modCurWarp fun w => w.modQueue (queueNo f.a) fun q => q.popBy (s.gLive f) w.live fun l => q.skips l (s.skipCount f l)).advance

theorem State.exec_qskip {s : State} {f : Full} (h : s.executes (.qskip f) f = true)
    (hlanded : ∀ l, l < 64 → (s.gLive f).getLsbD l = true → (s.curWarp.queue (queueNo f.a)).haveN l (s.skipCount f l) = true) :
    exec (.qskip f) s = .next ((s.skipQueue f).popQueues (s.gLive f &&& s.cur.lanes) (s.queuesRead (.qskip f) f)) := by
  have hall : (laneList (s.gLive f)).all fun l => (s.curWarp.queue (queueNo f.a)).haveN l (s.skipCount f l) :=
    List.all_eq_true.mpr fun l hl => hlanded l ((mem_laneList _ _).mp hl).1 ((mem_laneList _ _).mp hl).2
  obtain ⟨-, ⟨-, -, hstuck, -⟩, -⟩ := (State.executes_iff s _ f).mp h
  have hcur : (s.skipQueue f).cur = { s.cur with done := true } := State.cur_advance _
  change execQskip f s = _
  rw [execQskip, State.issue_of_executes h] <;> simp only [hall, if_true]
  · change Host.Outcome.next (if (s.skipQueue f).cur.done then
      (s.skipQueue f).popQueues (s.gLive f &&& (s.skipQueue f).cur.lanes) _ else s.skipQueue f) = _
    simp [hcur]
  · exact (congrArg Cur.stuck hcur).trans hstuck

theorem State.queuesRead_qskip {s : State} {f : Full} {k : Fin 8} (he : s.cur.strm = .e) (hb : f.b = .q k) :
    s.queuesRead (.qskip f) f = [k.val] := by
  simp [State.queuesRead, he, queuesOf, fieldsOf, shapeOf, hb]

theorem State.queue_skipQueue_ne (s : State) (f : Full) {k : Nat} (hk : k ≠ queueNo f.a) :
    (s.skipQueue f).curWarp.queue k = s.curWarp.queue k := by
  have h : (s.skipQueue f).curWarp.queues = (s.curWarp.modQueue (queueNo f.a) _).queues :=
    (State.queues_advance _).trans (congrArg Warp.queues (State.curWarp_modCurWarp s _))
  rw [Warp.queue, h]
  exact (Warp.queue_modQueue _ _ _ _).trans (if_neg hk)

/-- A queue named as the count of a `qskip` is an ordinary source: each live guard-true lane pops it (03 R68). -/
theorem State.qskip_pops_count {s : State} {f : Full} {k : Fin 8} (h : s.executes (.qskip f) f = true) (he : s.cur.strm = .e) (hb : f.b = .q k)
    (hk : k.val ≠ queueNo f.a)
    (hlanded : ∀ l, l < 64 → (s.gLive f).getLsbD l = true → (s.curWarp.queue (queueNo f.a)).haveN l (s.skipCount f l) = true)
    {l : Nat} (hl : (s.gLive f &&& s.cur.lanes).getLsbD l = true) :
    ∃ t, exec (.qskip f) s = .next t ∧ ((s.issuer t).queue k).head l = (s.curWarp.queue k).head l + 1 := by
  refine ⟨_, State.exec_qskip h hlanded, ?_⟩
  rw [State.queuesRead_qskip he hb]
  generalize hg : s.gLive f &&& s.cur.lanes = g at hl
  have hne : g ≠ 0 := by
    rintro rfl
    simp at hl
  have hiss : s.issuer ((s.skipQueue f).popQueues g [k.val]) = ((s.skipQueue f).popQueues g [k.val]).curWarp := by
    have hcur : ((s.skipQueue f).popQueues g [k.val]).cur = { s.cur with done := true } :=
      (State.cur_popQueues _ _ _).trans (State.cur_advance _)
    rw [State.issuer, State.curWarp, hcur]
  rw [hiss, State.queue_popQueues_singleton _ hne, Queue.head_popBy _ _ _ _ (lane_lt hl), if_pos hl, State.queue_skipQueue_ne s f hk]

/-! ### A `qskip` that reads its count from another queue -/

/-- A queue with one landed entry, whose 16 elements are 1. -/
def oneLandedEntry : Queue := { Queue.blank with entries := [⟨0, 2, ⟨0, false, .plain, .rlx, .s⟩, List.replicate 16 (.data 1)⟩], tail := 1 }

/-- 16 live lanes at an issue of the E-stream, with an entry landed in q0 and in q1. -/
def entriesInQ0AndQ1 : State :=
  let x := soloGroup .e
  { State.reset.withSoloContext with
    groups := [(1, { x with warps := [(0, { x.warp 0 with queues := [(0, oneLandedEntry), (1, oneLandedEntry)] })] })]
    cohorts := [(1, ⟨0, [1], []⟩)]
    cur := ⟨true, 1, .e, 0, 0xFFFF, 0x10008, 0x10020, 0, 0, false, false, none⟩ }

/-- The fields of `qskip q0, q1`. -/
def skipQ0ByQ1 : Full := { Full.blank with guard := 7, a := .q 0, b := .q 1 }

theorem executes_skipQ0ByQ1 : entriesInQ0AndQ1.executes (.qskip skipQ0ByQ1) skipQ0ByQ1 = true := by decide +kernel

theorem landed_skipQ0ByQ1 : ∀ l, l < 64 → (entriesInQ0AndQ1.gLive skipQ0ByQ1).getLsbD l = true →
    (entriesInQ0AndQ1.curWarp.queue (queueNo skipQ0ByQ1.a)).haveN l (entriesInQ0AndQ1.skipCount skipQ0ByQ1 l) = true := by decide +kernel

/-- Refutes O29: `qskip q0, q1` pops its count from q1 (03 R68), where the statement leaves every queue but q0 as it was. -/
theorem not_queueFormResults : ¬ Obligations.QueueFormResults := by
  rintro ⟨hforms, -⟩
  obtain ⟨-, -, -, -, hskip⟩ := hforms skipQ0ByQ1 0 0 false entriesInQ0AndQ1 (by decide +kernel)
  obtain ⟨t, ht, hmoved⟩ := hskip executes_skipQ0ByQ1
  obtain ⟨-, -, -, -, -, -, hothers⟩ := (if_pos landed_skipQ0ByQ1).mp hmoved
  obtain ⟨u, hu, hhead⟩ := State.qskip_pops_count (k := 1) executes_skipQ0ByQ1 rfl rfl (by decide) landed_skipQ0ByQ1 (l := 0) (by decide +kernel)
  obtain rfl : t = u := Host.Outcome.next.inj (ht.symm.trans hu)
  rw [hothers (1 : Fin 8) (by decide)] at hhead
  exact absurd hhead (Nat.ne_of_lt (Nat.lt_succ_self _))

end Machine

end Sys2Proof
end

section
/-!
SUPPORT. The fields of words (spec/04_registers_encoding.md R90 to R101): operand codes, MOD and the packed word read back what was written.
-/

namespace Sys2Proof

/-! ### Operand codes -/

theorem Special.index_lt (x : Special) : x.index < 17 := by cases x <;> decide
@[simp] theorem Special.ofIndex_index (x : Special) : Special.ofIndex x.index = some x := by cases x <;> rfl

/-- The code of an operand of a numbered file is the file's first code and the number (04 R90). -/
theorem Operand.toNat_code (o : Operand) : o.code.toNat = match o with
    | .v n => n.val
    | .o n => 0x300 + n.val
    | .h n => 0x320 + n.val
    | .s n => 0x340 + n.val
    | .g n => 0x380 + n.val
    | .k n => 0x3A0 + n.val
    | .q n => 0x3C0 + n.val
    | .qb => 0x3C8
    | .sp x => 0x3C9 + x.index
    | .litLo => 0x3F0
    | .litHi => 0x3F1
    | .lit64 => 0x3F2
    | .null => 0x3FF := by
  cases o with
  | sp x => exact Nat.mod_eq_of_lt (by have := x.index_lt; omega)
  | qb | litLo | litHi | lit64 | null => rfl
  | _ n => exact Nat.mod_eq_of_lt (by omega)

theorem Operand.ofCode_code (o : Operand) : Operand.ofCode o.code = some o := by
  cases o with
  | sp x =>
    have := x.index_lt
    simp (disch := omega) only [Operand.ofCode, Operand.toNat_code, dif_neg, if_neg, if_pos, Nat.add_sub_cancel_left,
      Special.ofIndex_index, Option.map_some]
  | qb | litLo | litHi | lit64 | null => rfl
  | v n => simp only [Operand.ofCode, Operand.toNat_code, dif_pos n.isLt]
  | _ n => simp (disch := omega) only [Operand.ofCode, Operand.toNat_code, dif_neg, if_neg, if_pos, Nat.add_sub_cancel_left, Fin.ofNat_val_eq_self]

theorem Operand.code_inj {x y : Operand} : x.code = y.code ↔ x = y :=
  ⟨fun h => Option.some.inj (by rw [← ofCode_code, h, ofCode_code]), congrArg _⟩

theorem Operand.code_beq (x y : Operand) : (x.code == y.code) = (x == y) := by
  rw [Bool.eq_iff_iff, beq_iff_eq, beq_iff_eq, code_inj]

/-- The codes that name the literal word are those of its operands (04 R94). -/
theorem Operand.isLit_eq (o : Operand) : (o.code == 0x3F0 || o.code == 0x3F1 || o.code == 0x3F2) = o.isLit := by
  have h : (o.code == litLo.code || o.code == litHi.code || o.code == lit64.code) = o.isLit := by
    simp only [code_beq]
    cases o <;> rfl
  exact h

/-! ### A field of a word and its operand -/

/-- A field of a word carries an operand: its code, where the field is one that the form reads as an operand. -/
def Slot.Carries (sl : Slot) (c : BitVec 10) (o : Operand) : Prop := sl = .raw ∨ c = o.code

theorem readField_of_carries {sl : Slot} {c : BitVec 10} {o : Operand} (hc : sl.Carries c o) (hok : sl.ok o = true) : readField sl c = some o := by
  rcases hc with rfl | rfl
  · have h : (o == Operand.null) = true := hok
    rw [eq_of_beq h]
    rfl
  · unfold readField
    split
    · have h : (o == Operand.null) = true := hok
      rw [eq_of_beq h]
    · simp [Operand.ofCode_code, hok]

theorem Slot.ok_of_readField {sl : Slot} {c : BitVec 10} {o : Operand} (h : readField sl c = some o) : sl.ok o = true := by
  unfold readField at h
  split at h
  · cases h
    rfl
  · obtain ⟨x, -, hx⟩ := Option.bind_eq_some_iff.mp h
    split at hx
    · next hok =>
      cases hx
      exact hok
    · cases hx

theorem namesLit_of_carries {sl : Slot} {c : BitVec 10} {o : Operand} (hc : sl.Carries c o) : namesLit sl c = slotNamesLit sl o := by
  rcases hc with rfl | rfl
  · rfl
  · cases sl with
    | none | raw => rfl
    | _ => exact o.isLit_eq

/-- The fields of a word carry the guard and the operands of a form of a shape (04 R98). -/
structure Raw.Carries (r : Raw) (f : Full) (sh : Shape) : Prop where
  guard : r.guard = f.guardBits
  neg : r.neg = f.neg
  d : sh.d.Carries r.d f.d
  a : sh.a.Carries r.a f.a
  b : sh.b.Carries r.b f.b
  c : sh.c.Carries r.c f.c

theorem Raw.Carries.usesLit {r : Raw} {f : Full} {sh : Shape} (h : r.Carries f sh) : r.usesLit sh = f.usesLit sh := by
  simp only [Raw.usesLit, Full.usesLit, namesLit_of_carries h.d, namesLit_of_carries h.a, namesLit_of_carries h.b, namesLit_of_carries h.c]


/-! ### MOD -/

@[simp] theorem Ty.ofCode_code (t : Ty) : Ty.ofCode t.code = t := by cases t <;> rfl
@[simp] theorem Rnd.ofCode_code (r : Rnd) : Rnd.ofCode r.code = r := by cases r <;> rfl
@[simp] theorem Scope.ofCode_code (x : Scope) : Scope.ofCode x.code = x := by cases x <;> rfl
@[simp] theorem Order.ofCode_code (x : Order) : Order.ofCode x.code = x := by cases x <;> rfl
@[simp] theorem Space.ofCode_code (x : Space) : Space.ofCode x.code = x := by cases x <;> rfl

/-- A flag of MOD is one bit of the word. -/
@[simp] theorem getElem_bit (b : Bool) : (if b = true then 1#1 else 0#1)[0] = b := by cases b <;> rfl

theorem bit_getLsbD {n : Nat} (x : BitVec n) (k : Nat) : (if x.getLsbD k = true then 1#1 else 0#1) = x.extractLsb' k 1 := by
  ext i hi
  obtain rfl : i = 0 := by omega
  simp

@[simp] theorem AluMod.ofBits_bits (m : AluMod) : AluMod.ofBits m.bits = m := by
  obtain ⟨var, sat, rnd, ty⟩ := m
  simp (disch := omega) only [AluMod.bits, AluMod.ofBits, BitVec.extractLsb'_append_eq_of_le,
    BitVec.extractLsb'_append_eq_of_add_le, BitVec.getLsbD_append]
  simp

@[simp] theorem MemMod.ofBits_bits (m : MemMod) : MemMod.ofBits m.bits = m := by
  obtain ⟨hint, fr, scope, order, space⟩ := m
  simp (disch := omega) only [MemMod.bits, MemMod.ofBits, BitVec.extractLsb'_append_eq_of_le,
    BitVec.extractLsb'_append_eq_of_add_le, BitVec.getLsbD_append]
  simp

theorem Raw.unpack_pack (r : Raw) : Raw.unpack r.pack = r := by
  obtain ⟨opc, d, a, b, c, guard, neg, mod⟩ := r
  simp (disch := omega) only [Raw.unpack, Raw.pack, BitVec.extractLsb'_append_eq_of_le, BitVec.extractLsb'_append_eq_of_add_le, BitVec.getLsbD_append]
  simp

theorem Raw.pack_unpack (w : W64) : (Raw.unpack w).pack = w := by
  change (w.extractLsb' 54 10 ++ (if w.getLsbD 53 = true then 1#1 else 0#1) ++ w.extractLsb' 50 3 ++ w.extractLsb' 40 10 ++ w.extractLsb' 30 10 ++
    w.extractLsb' 20 10 ++ w.extractLsb' 10 10 ++ w.extractLsb' 0 10 : BitVec 64) = w
  rw [bit_getLsbD]
  simp (disch := omega) only [BitVec.extractLsb'_append_extractLsb'_eq_extractLsb']
  exact BitVec.extractLsb'_eq_self

/-- A number in a field is read back where the field is wide enough for it. -/
theorem ofNat_toNat_ofNat {n w : Nat} [NeZero n] (x : Fin n) (h : n ≤ 2 ^ w) : Fin.ofNat n (BitVec.ofNat w x.val).toNat = x := by
  apply Fin.ext
  simp [Nat.mod_eq_of_lt (Nat.lt_of_lt_of_le x.isLt h)]

theorem wide_of_code (wide : Bool) : ((if wide = true then n64Code else n32Code) == n64Code) = wide := by cases wide <;> rfl

/-- A branch offset is cut into the fields d, a and b (04 R98, 07 R176). -/
theorem offset_of_fields (off : BitVec 30) : off.extractLsb' 20 10 ++ off.extractLsb' 10 10 ++ off.extractLsb' 0 10 = off := by
  simp (disch := omega) only [BitVec.extractLsb'_append_extractLsb'_eq_extractLsb']
  exact BitVec.extractLsb'_eq_self

end Sys2Proof
end

section
/-!
SUPPORT. The opcode map (spec/04_registers_encoding.md R98, R100, R118): the word of a form carries its operands, and its opcode stands for the form.
-/

namespace Sys2Proof

/-- Every field that a form reads as an operand holds that operand's code, and every other field of its shape is raw (04 R98). -/
theorem carries_rawOf {i : Instr} {f : Full} {r : Raw} (h : rawOf i = some (f, r)) : r.Carries f (shapeOf i) := by
  cases i
  all_goals cases h
  all_goals constructor
  all_goals simp [Slot.Carries, shapeOf]

theorem build_eq_buildMemory {r : Raw} (h : r.opc.toNat / 128 = 5) : build r = buildMemory r := by
  have hc : (r.opc >>> 7).toNat = 5 := by rw [BitVec.toNat_ushiftRight, Nat.shiftRight_eq_div_pow, h]
  rw [build]
  simp only [hc]

theorem build_eq_buildAccess {r : Raw} (h : r.opc.toNat / 128 = 6) : build r = buildAccess r := by
  have hc : (r.opc >>> 7).toNat = 6 := by rw [BitVec.toNat_ushiftRight, Nat.shiftRight_eq_div_pow, h]
  rw [build]
  simp only [hc]

theorem toNat_add_setWidth {n b : Nat} (x : BitVec n) (hn : n ≤ 10) (h : b + x.toNat < 1024) :
    (BitVec.ofNat 10 b + x.setWidth 10).toNat = b + x.toNat := by
  rw [BitVec.toNat_add, BitVec.toNat_setWidth_of_le hn, BitVec.toNat_ofNat]
  omega

/-- The access size of a block that starts at a multiple of 8 is in the opcode's low bits (04 R118). -/
theorem extractLsb'_add_setWidth {b : Nat} (x : BitVec 3) (hb : b % 8 = 0) (h : b + x.toNat < 1024) :
    (BitVec.ofNat 10 b + x.setWidth 10).extractLsb' 0 3 = x := by
  apply BitVec.eq_of_toNat_eq
  rw [BitVec.extractLsb'_toNat, toNat_add_setWidth x (by omega) h]
  have := x.isLt
  simp; omega

theorem setWidth_add_setWidth_sub (b : BitVec 10) (x : BitVec 5) : (b + x.setWidth 10 - b).setWidth 5 = x := by
  rw [BitVec.add_comm, BitVec.add_sub_cancel, BitVec.setWidth_setWidth_of_le x (by omega), BitVec.setWidth_eq]

theorem build_ld {r : Raw} {acc : BitVec 3} (h : r.opc = 0x280#10 + acc.setWidth 10) (ha : acc.toNat < 6) :
    build r = some (.ld · acc (MemMod.ofBits r.mod) r.c) := by
  have hn : r.opc.toNat = 0x280 + acc.toNat := h ▸ toNat_add_setWidth acc (by omega) (by omega)
  rw [build_eq_buildMemory (by omega), buildMemory, if_pos (by simp; omega), h, extractLsb'_add_setWidth acc rfl (by omega)]

theorem build_st {r : Raw} {acc : BitVec 3} (h : r.opc = 0x288#10 + acc.setWidth 10) (ha : acc.toNat < 4) :
    build r = some (.st · acc (MemMod.ofBits r.mod) r.c) := by
  have hn : r.opc.toNat = 0x288 + acc.toNat := h ▸ toNat_add_setWidth acc (by omega) (by omega)
  rw [build_eq_buildMemory (by omega), buildMemory, if_neg (by simp; omega), if_pos (by simp; omega), h, extractLsb'_add_setWidth acc rfl (by omega)]

theorem build_atom {r : Raw} {op : BitVec 5} (h : r.opc = 0x290#10 + op.setWidth 10) (ho : op.toNat < 0x18) :
    build r = some (.atom · op (MemMod.ofBits r.mod) r.c) := by
  have hn : r.opc.toNat = 0x290 + op.toNat := h ▸ toNat_add_setWidth op (by omega) (by omega)
  rw [build_eq_buildMemory (by omega), buildMemory, if_neg (by simp; omega), if_neg (by simp; omega), if_pos (by simp; omega), h,
    setWidth_add_setWidth_sub]

theorem build_red {r : Raw} {op : BitVec 5} (h : r.opc = 0x2B0#10 + op.setWidth 10) (ho : op.toNat < 0x18)
    (hc : op.toNat < 0x10 ∨ 0x13 < op.toNat) :
    build r = some (.red · op (MemMod.ofBits r.mod) r.c) := by
  have hn : r.opc.toNat = 0x2B0 + op.toNat := h ▸ toNat_add_setWidth op (by omega) (by omega)
  rw [build_eq_buildMemory (by omega), buildMemory, if_neg (by simp; omega), if_neg (by simp; omega), if_neg (by simp; omega),
    if_pos (by simp; omega), h, setWidth_add_setWidth_sub]

theorem build_aload {r : Raw} {acc : BitVec 3} (h : r.opc = 0x310#10 + acc.setWidth 10) (ha : acc.toNat < 6) :
    build r = some (.aload · (Fin.ofNat 8 r.a.toNat) acc (MemMod.ofBits r.mod) r.b r.c) := by
  have hn : r.opc.toNat = 0x310 + acc.toNat := h ▸ toNat_add_setWidth acc (by omega) (by omega)
  rw [build_eq_buildAccess (by omega), buildAccess, if_pos (by simp; omega), h, extractLsb'_add_setWidth acc rfl (by omega)]

theorem build_astore {r : Raw} {acc : BitVec 3} (h : r.opc = 0x318#10 + acc.setWidth 10) (ha : acc.toNat < 4) :
    build r = some (.astore · (Fin.ofNat 8 r.a.toNat) acc (MemMod.ofBits r.mod) r.c) := by
  have hn : r.opc.toNat = 0x318 + acc.toNat := h ▸ toNat_add_setWidth acc (by omega) (by omega)
  rw [build_eq_buildAccess (by omega), buildAccess, if_neg (by simp; omega), if_pos (by simp; omega), h, extractLsb'_add_setWidth acc rfl (by omega)]

/-- The opcode of a form whose fields are legal stands for the form, whose fields are picked out of the word that carries them (04 R118). -/
theorem build_rawOf {i : Instr} {f : Full} {r : Raw} (h : rawOf i = some (f, r)) (hok : fieldsOk i = true) :
    ∃ mk, build r = some mk ∧ mk f = i ∧ ∀ g, shapeOf (mk g) = shapeOf (mk f) := by
  cases i
  all_goals cases h
  case ld acc m off =>
    obtain ⟨ha, -⟩ : acc.toNat < 6 ∧ ldOk acc m = true := by simpa [fieldsOk] using hok
    exact ⟨_, build_ld rfl ha, by simp only [MemMod.ofBits_bits], fun _ => rfl⟩
  case st acc m off =>
    obtain ⟨ha, -⟩ : acc.toNat < 4 ∧ stOk acc m = true := by simpa [fieldsOk] using hok
    exact ⟨_, build_st rfl ha, by simp only [MemMod.ofBits_bits], fun _ => rfl⟩
  case atom op m off =>
    obtain ⟨ho, -⟩ : op.toNat < 0x18 ∧ atomOk m = true := by simpa [fieldsOk] using hok
    exact ⟨_, build_atom rfl ho, by simp only [MemMod.ofBits_bits], fun _ => rfl⟩
  case red op m off =>
    obtain ⟨⟨ho, hc⟩, -⟩ : (op.toNat < 0x18 ∧ (op.toNat < 0x10 ∨ 0x13 < op.toNat)) ∧ redOk m = true := by
      simpa [fieldsOk] using hok
    exact ⟨_, build_red rfl ho hc, by simp only [MemMod.ofBits_bits], fun _ => rfl⟩
  case aload gen acc m sel off =>
    obtain ⟨⟨ha, -⟩, -⟩ : (acc.toNat < 6 ∧ aloadOk acc m = true) ∧ selOk sel = true := by simpa [fieldsOk] using hok
    exact ⟨_, build_aload rfl ha, by simp (disch := omega) only [MemMod.ofBits_bits, ofNat_toNat_ofNat], fun _ => rfl⟩
  case astore gen acc m off =>
    obtain ⟨ha, -⟩ : acc.toNat < 4 ∧ astoreOk acc m = true := by simpa [fieldsOk] using hok
    exact ⟨_, build_astore rfl ha, by simp (disch := omega) only [MemMod.ofBits_bits, ofNat_toNat_ofNat], fun _ => rfl⟩
  -- Every other opcode is a literal, at which the map answers by computation; MOD and the fields read back what the encoder put there.
  all_goals simp only [build, BitVec.reduceHShiftRight, BitVec.reduceToNat, buildInt, buildFloat, buildHelper, buildLane, buildControl, buildMemory,
    buildAccess, buildEngine]
  all_goals refine ⟨_, rfl, ?_⟩
  all_goals refine ⟨?_, fun _ => rfl⟩
  all_goals simp (disch := omega) only [AluMod.ofBits_bits, BitVec.extractLsb'_append_eq_of_le, BitVec.extractLsb'_append_eq_of_add_le,
    BitVec.getLsbD_append, ofNat_toNat_ofNat, offset_of_fields]
  all_goals simp [wide_of_code]

end Sys2Proof
end

section
/-!
SUPPORT. Full words (spec/04_registers_encoding.md R99, R106): a word decodes to the well-formed form that encodes as it (`decodeFull_eq_ok_iff`).
-/

namespace Sys2Proof

theorem Full.wf_iff {f : Full} {sh : Shape} : f.wf sh = true ↔
    sh.d.ok f.d = true ∧ sh.a.ok f.a = true ∧ sh.b.ok f.b = true ∧ sh.c.ok f.c = true ∧ (f.guard = 7 → f.neg = false) ∧
      f.lit.isSome = f.usesLit sh := by
  simp [Full.wf, and_assoc, imp_iff_not_or]

/-- The guard 7 in a word is the guard 7 of its instruction (04 R98, R103). -/
theorem guard_eq_seven (g : BitVec 3) : Fin.ofNat 8 g.toNat = 7 ↔ g = 7 := by
  revert g
  decide

theorem Full.ofNat_guardBits (f : Full) : Fin.ofNat 8 f.guardBits.toNat = f.guard := ofNat_toNat_ofNat f.guard (by decide)

theorem Full.guardBits_eq_seven {f : Full} : f.guardBits = 7 ↔ f.guard = 7 := by
  rw [← guard_eq_seven, f.ofNat_guardBits]

theorem readFull_of_carries {sh : Shape} {r : Raw} {f : Full} (h : r.Carries f sh) (hw : f.wf sh = true) : readFull sh r f.lit = some f := by
  obtain ⟨hd, ha, hb, hc, hg, -⟩ := Full.wf_iff.mp hw
  have hg' : ¬ (r.guard == 7 && r.neg) = true := by
    rw [h.guard, h.neg]
    simpa only [Bool.and_eq_true, beq_iff_eq, Full.guardBits_eq_seven, not_and, Bool.not_eq_true] using hg
  rw [readFull, if_neg hg', readField_of_carries h.d hd, readField_of_carries h.a ha, readField_of_carries h.b hb, readField_of_carries h.c hc,
    h.guard, h.neg, f.ofNat_guardBits]

/-- What a word's fields are read as, as far as no re-encoding tells it. -/
theorem readFull_eq_some {sh : Shape} {r : Raw} {lit : Option W64} {f : Full} (h : readFull sh r lit = some f) :
    f.lit = lit ∧ sh.d.ok f.d = true ∧ sh.a.ok f.a = true ∧ sh.b.ok f.b = true ∧ sh.c.ok f.c = true ∧ (r.guard = 7 → r.neg = false) := by
  unfold readFull at h
  split at h
  · cases h
  · next hg =>
    split at h
    · next hd ha hb hc =>
      cases h
      exact ⟨rfl, Slot.ok_of_readField hd, Slot.ok_of_readField ha, Slot.ok_of_readField hb, Slot.ok_of_readField hc, by simpa using hg⟩
    · cases h

/-- What a word that decodes has been read as (04 R99, R106). -/
theorem decodeRaw_eq_ok {r : Raw} {lit : Option W64} {i : Instr} (h : decodeRaw r lit = .ok i) :
    ∃ mk f, build r = some mk ∧ r.usesLit (shapeOf (mk .blank)) = lit.isSome ∧ readFull (shapeOf (mk .blank)) r lit = some f ∧
      i = mk f ∧ fieldsOk i = true ∧ rawOf i = some (f, r) := by
  unfold decodeRaw at h
  split at h
  · cases h
  · next mk hmk =>
    dsimp only at h
    split at h
    · cases h
    · next hlit =>
      split at h
      · cases h
      · next f hf =>
        split at h
        · next hok =>
          cases h
          exact ⟨mk, f, hmk, by simpa using hlit, hf, rfl, by simpa using hok⟩
        · cases h

/-- A word decodes to the form that encodes as it and is well formed (04 R99, R106). -/
theorem decodeRaw_eq_ok_iff {r : Raw} {lit : Option W64} {i : Instr} :
    decodeRaw r lit = .ok i ↔ ∃ f, rawOf i = some (f, r) ∧ f.lit = lit ∧ f.wf (shapeOf i) = true ∧ fieldsOk i = true := by
  constructor
  · intro h
    obtain ⟨mk, f, hmk, hlit, hf, rfl, hfields, hraw⟩ := decodeRaw_eq_ok h
    obtain ⟨mk', hmk', -, hsh⟩ := build_rawOf hraw hfields
    obtain rfl : mk = mk' := Option.some.inj (hmk.symm.trans hmk')
    rw [hsh .blank] at hf hlit
    have hcar := carries_rawOf hraw
    obtain ⟨rfl, hd, ha, hb, hc, hg⟩ := readFull_eq_some hf
    rw [hcar.guard, hcar.neg] at hg
    exact ⟨f, hraw, rfl, Full.wf_iff.mpr ⟨hd, ha, hb, hc, fun h => hg (Full.guardBits_eq_seven.mpr h), hcar.usesLit ▸ hlit.symm⟩, hfields⟩
  · rintro ⟨f, hraw, rfl, hw, hfields⟩
    obtain ⟨mk, hmk, rfl, hsh⟩ := build_rawOf hraw hfields
    have hcar := carries_rawOf hraw
    obtain ⟨-, -, -, -, -, hlit⟩ := Full.wf_iff.mp hw
    simp [decodeRaw, hmk, hsh .blank, hcar.usesLit, hlit, readFull_of_carries hcar hw, hfields, hraw]

theorem encode_eq_some_iff {i : Instr} (hp : ∀ h0 h1, i ≠ .pairWord h0 h1) {w : W64} {lit : Option W64} :
    encode i = some (w, lit) ↔ ∃ f r, rawOf i = some (f, r) ∧ r.pack = w ∧ f.lit = lit := by
  unfold encode
  split
  · next h0 h1 => exact absurd rfl (hp h0 h1)
  · simp [Option.map_eq_some_iff]

theorem ne_pairWord_of_rawOf {i : Instr} {f : Full} {r : Raw} (h : rawOf i = some (f, r)) : ∀ h0 h1, i ≠ .pairWord h0 h1 := by
  rintro h0 h1 rfl
  cases h

theorem Instr.wf_iff_of_rawOf {i : Instr} {f : Full} {r : Raw} (h : rawOf i = some (f, r)) :
    i.wf = true ↔ f.wf (shapeOf i) = true ∧ fieldsOk i = true := by
  refine ⟨Machine.Instr.wf_full h, fun hw => ?_⟩
  unfold Instr.wf
  split
  · cases h
  · simp [h, hw]

/-- A full word decodes to the well-formed instruction that it encodes, and to no other (04 R90 to R106). -/
theorem decodeFull_eq_ok_iff {i : Instr} {w : W64} {lit : Option W64} :
    decodeFull w lit = .ok i ↔ (∀ h0 h1, i ≠ .pairWord h0 h1) ∧ i.wf = true ∧ encode i = some (w, lit) := by
  rw [decodeFull, decodeRaw_eq_ok_iff]
  constructor
  · rintro ⟨f, hraw, hlit, hw⟩
    have hp := ne_pairWord_of_rawOf hraw
    exact ⟨hp, (Instr.wf_iff_of_rawOf hraw).mpr hw, (encode_eq_some_iff hp).mpr ⟨f, _, hraw, Raw.pack_unpack w, hlit⟩⟩
  · rintro ⟨hp, hw, he⟩
    obtain ⟨f, r, hraw, rfl, hlit⟩ := (encode_eq_some_iff hp).mp he
    exact ⟨f, r.unpack_pack.symm ▸ hraw, hlit, (Instr.wf_iff_of_rawOf hraw).mp hw⟩

end Sys2Proof
end

section
/-!
SUPPORT. Pair words (spec/04_registers_encoding.md R93, R103 to R105), and a bundle that holds one instruction (R95, R96).
-/

namespace Sys2Proof

/-! ### Halves and pair words -/

@[simp] theorem PairOp.ofCode_code (p : PairOp) : PairOp.ofCode p.code = some p := by cases p <;> rfl

theorem POperand.toNat_code (o : POperand) : o.code.toNat = match o with
    | .v n => n.val
    | .o n => 0x80 + n.val
    | .h n => 0xA0 + n.val
    | .s n => 0xB0 + n.val
    | .k n => 0xD0 + n.val := by
  cases o with
  | _ n => exact Nat.mod_eq_of_lt (by omega)

@[simp] theorem POperand.ofCode_code (o : POperand) : POperand.ofCode o.code = some o := by
  cases o with
  | v n => simp only [POperand.ofCode, POperand.toNat_code, if_pos n.isLt, Fin.ofNat_val_eq_self]
  | _ n => simp (disch := omega) only [POperand.ofCode, POperand.toNat_code, if_neg, if_pos, Nat.add_sub_cancel_left, Fin.ofNat_val_eq_self]

/-- The fields of a half that does something, read back from its bits (04 R103). -/
theorem Half.fields_bits (p : PairOp) (rnd : Rnd) (neg : Bool) (guard : Fin 8) (d s : POperand) :
    let x := (Half.op p rnd neg guard d s).bits
    x.extractLsb' 0 8 = p.code ∧ x.extractLsb' 8 8 = d.code ∧ x.extractLsb' 16 8 = s.code ∧ x.extractLsb' 24 3 = BitVec.ofNat 3 guard.val ∧
      x.getLsbD 27 = neg ∧ (p.fma = true → x.extractLsb' 28 2 = rnd.code) := by
  refine ⟨?_, ?_, ?_, ?_, ?_, fun hf => ?_⟩
  case refine_6 =>
    simp (disch := omega) only [Half.bits, hf, if_true, BitVec.extractLsb'_append_eq_of_le, BitVec.extractLsb'_append_eq_of_add_le, Nat.reduceSub,
      BitVec.extractLsb'_eq_self]
  all_goals simp (disch := omega) only [Half.bits, BitVec.extractLsb'_append_eq_of_le, BitVec.extractLsb'_append_eq_of_add_le,
    BitVec.getLsbD_append, Nat.reduceSub, BitVec.extractLsb'_eq_self]
  simp

theorem popAssigned_bits (h : Half) : popAssigned h.bits = true := by
  cases h with
  | nop => rfl
  | op p rnd neg guard d s =>
    obtain ⟨hop, -⟩ := Half.fields_bits p rnd neg guard d s
    simp [popAssigned, hop]

theorem Half.bits_op_ne_zero {p : PairOp} {rnd : Rnd} {neg : Bool} {guard : Fin 8} {d s : POperand} : (Half.op p rnd neg guard d s).bits ≠ 0 := by
  intro h
  obtain ⟨hop, -⟩ := fields_bits p rnd neg guard d s
  rw [h] at hop
  cases p <;> cases hop

theorem Half.wf_op_iff {p : PairOp} {rnd : Rnd} {neg : Bool} {guard : Fin 8} {d s : POperand} :
    (Half.op p rnd neg guard d s).wf = true ↔ d.writable = true ∧ (guard = 7 → neg = false) ∧ (p.fma = false → rnd = .rne) := by
  simp [Half.wf, and_assoc, imp_iff_not_or]

theorem Half.ofBits_bits {h : Half} (hw : h.wf = true) : Half.ofBits h.bits = some h := by
  cases h with
  | nop => rfl
  | op p rnd neg guard d s =>
    obtain ⟨hd, hg, hr⟩ := wf_op_iff.mp hw
    obtain ⟨hop, hdc, hsc, hgc, hn, hrc⟩ := fields_bits p rnd neg guard d s
    have hguard : Fin.ofNat 8 ((op p rnd neg guard d s).bits.extractLsb' 24 3).toNat = guard := hgc ▸ ofNat_toNat_ofNat guard (by decide)
    have hrnd : (if p.fma then Rnd.ofCode ((op p rnd neg guard d s).bits.extractLsb' 28 2) else .rne) = rnd := by
      split
      · next hf => rw [hrc hf, Rnd.ofCode_code]
      · next hf => exact (hr (by simpa using hf)).symm
    have hg' : ¬ ((op p rnd neg guard d s).bits.extractLsb' 24 3 = 7 ∧ neg = true) := by
      rw [← guard_eq_seven, hguard]
      rintro ⟨h7, hneg⟩
      simp [hg h7] at hneg
    unfold Half.ofBits
    rw [if_neg (by simpa using bits_op_ne_zero), hop, hdc, hsc, hn]
    simp only [PairOp.ofCode_code, POperand.ofCode_code, hguard, hrnd]
    simpa [hd] using hg'

theorem Half.wf_of_ofBits {x : W32} {h : Half} (hx : Half.ofBits x = some h) : h.wf = true ∧ h.bits = x := by
  unfold Half.ofBits at hx
  split at hx
  · next h0 =>
    cases hx
    exact ⟨rfl, (eq_of_beq h0).symm⟩
  · split at hx
    · next p d s hp hd hs =>
      obtain ⟨hok, he⟩ := Option.ite_none_right_eq_some.mp hx
      cases Option.some.inj he
      simp only [Bool.and_eq_true, Bool.not_eq_true', Bool.and_eq_false_imp, beq_iff_eq] at hok
      obtain ⟨⟨hd, hg⟩, hb⟩ := hok
      exact ⟨wf_op_iff.mpr ⟨hd, fun h7 => hg ((guard_eq_seven _).mp h7), fun hf => by simp [hf]⟩, hb⟩
    · cases hx

theorem Half.ofBits_eq_some_iff {x : W32} {h : Half} : Half.ofBits x = some h ↔ h.wf = true ∧ h.bits = x :=
  ⟨wf_of_ofBits, fun ⟨hw, hx⟩ => hx ▸ ofBits_bits hw⟩

theorem Instr.wf_pairWord_iff {h0 h1 : Half} :
    (Instr.pairWord h0 h1).wf = true ↔ h0.wf = true ∧ h1.wf = true ∧ pairBroken h0.bits h1.bits = false := by
  simp [Instr.wf, and_assoc]

/-- A pair word decodes to the well-formed pair that it encodes, and to no other (04 R103 to R105). -/
theorem decodePair_eq_ok_iff {i : Instr} {w : W64} :
    decodePair w = .ok i ↔ ∃ h0 h1, i = .pairWord h0 h1 ∧ i.wf = true ∧ h1.bits ++ h0.bits = w := by
  constructor
  · intro h
    unfold decodePair at h
    dsimp only at h
    split at h
    · cases h
    · split at h
      · cases h
      · next hb =>
        split at h
        · next h0 h1 hx hy =>
          cases h
          obtain ⟨hw0, hx⟩ := Half.wf_of_ofBits hx
          obtain ⟨hw1, hy⟩ := Half.wf_of_ofBits hy
          refine ⟨h0, h1, rfl, Instr.wf_pairWord_iff.mpr ⟨hw0, hw1, ?_⟩, ?_⟩
          · rw [hx, hy]
            simpa using hb
          · rw [hx, hy]
            exact BitVec.extractLsb'_append_extractLsb'
        · cases h
  · rintro ⟨h0, h1, rfl, hw, rfl⟩
    obtain ⟨hw0, hw1, hb⟩ := Instr.wf_pairWord_iff.mp hw
    have hx : (h1.bits ++ h0.bits).extractLsb' 0 32 = h0.bits := by
      rw [BitVec.extractLsb'_append_eq_of_add_le (by omega), BitVec.extractLsb'_eq_self]
    have hy : (h1.bits ++ h0.bits).extractLsb' 32 32 = h1.bits := by
      rw [BitVec.extractLsb'_append_eq_of_le (by omega), Nat.sub_self, BitVec.extractLsb'_eq_self]
    simp only [decodePair, hx, hy, popAssigned_bits, hb, Half.ofBits_bits hw0, Half.ofBits_bits hw1]
    rfl

/-! ### A bundle that holds one instruction -/

/-- The slots of the control word of a bundle that `Bundle.single` makes (04 R95). -/
theorem ctlKind_single : ctlKind 0x1001#64 1 = .full ∧ ctlKind 0x1001#64 2 = .empty ∧ ctlKind 0x1001#64 3 = .empty ∧
    ctlKind 0x100D#64 1 = .full ∧ ctlKind 0x100D#64 2 = .literal ∧ ctlKind 0x100D#64 3 = .empty ∧
    ctlKind 0x1002#64 1 = .pair ∧ ctlKind 0x1002#64 2 = .empty ∧ ctlKind 0x1002#64 3 = .empty := by decide

/-- A full word alone in a bundle, with its literal word where it has one: slot 1 issues it, and no other slot issues (04 R95, R96, R106). -/
theorem Bundle.single_full (w : W64) (lit : Option W64) : let b := Bundle.single .full w lit
    checkCtl b.ctl = none ∧ b.issues 1 = true ∧ b.decode 1 = decodeFull w lit ∧ [2, 3].all (fun n => !b.issues n) = true := by
  cases lit with
  | none =>
    refine ⟨(by decide : checkCtl 0x1001#64 = none), ?_⟩
    simp [Bundle.single, Bundle.issues, Bundle.decode, Bundle.slot, ctlKind_single]
  | some l =>
    refine ⟨(by decide : checkCtl 0x100D#64 = none), ?_⟩
    simp [Bundle.single, Bundle.issues, Bundle.decode, Bundle.slot, ctlKind_single]

theorem Bundle.single_pair (w : W64) : let b := Bundle.single .pair w none
    checkCtl b.ctl = none ∧ b.issues 1 = true ∧ b.decode 1 = decodePair w ∧ [2, 3].all (fun n => !b.issues n) = true := by
  refine ⟨(by decide : checkCtl 0x1002#64 = none), ?_⟩
  simp [Bundle.single, Bundle.issues, Bundle.decode, Bundle.slot, ctlKind_single]

end Sys2Proof
end

section
namespace Sys2Proof

/-- Settles O56: a full word decodes to the well-formed instruction that encodes as it and to no other, and so does a pair word. -/
theorem decodeEncodeRoundTrip : Obligations.DecodeEncodeRoundTrip := by
  refine ⟨fun i w lit hw he => ?_, fun i w lit h => (decodeFull_eq_ok_iff.mp h).2, fun i w h => ?_⟩
  · by_cases hp : ∃ h0 h1, i = .pairWord h0 h1
    · obtain ⟨h0, h1, rfl⟩ := hp
      cases he
      have hd := decodePair_eq_ok_iff.mpr ⟨h0, h1, rfl, hw, rfl⟩
      obtain ⟨hctl, hissue, hslot, hrest⟩ := Bundle.single_pair (h1.bits ++ h0.bits)
      exact ⟨fun _ => ⟨hd, rfl⟩, nofun, hctl, hissue, hslot.trans hd, hrest⟩
    · push Not at hp
      have hd := decodeFull_eq_ok_iff.mpr ⟨hp, hw, he⟩
      obtain ⟨hctl, hissue, hslot, hrest⟩ := Bundle.single_full w lit
      dsimp only
      split
      · exact absurd rfl (hp _ _)
      · exact ⟨nofun, fun _ => hd, hctl, hissue, hslot.trans hd, hrest⟩
  · obtain ⟨h0, h1, rfl, hw, rfl⟩ := decodePair_eq_ok_iff.mp h
    exact ⟨hw, rfl⟩

end Sys2Proof
end

section
/-!
SUPPORT. The result of a half of a pair word (spec/04_registers_encoding.md R104): the full form's operation on 32-bit sources.
-/

namespace Sys2Proof.Machine

/-! ### Narrow sources -/

/-- A narrow source is a 32-bit value. -/
theorem State.src_eq_src32 (s : State) (p : POperand) (f : Full) (l : Nat) :
    s.src f (pairOperand p) false l = (s.src32 f (pairOperand p) l).setWidth 64 := by
  have low (x : W32) : x.setWidth 64 = ((x.setWidth 64).setWidth 32).setWidth 64 := by simp
  cases p <;> exact low _

/-! ### Integer operations on 32 bits (06 R149) -/

theorem intOf_i32 (x : W32) : intOf .i32 (x.setWidth 64) = x.toInt := by
  have h : ((x.setWidth 64).setWidth 32).toInt = x.toInt := by simp
  exact h

theorem of_opIadd_i32 (a b : W32) : AluOut.of (opIadd .i32 false (a.setWidth 64) (b.setWidth 64)) = bitsOut (a + b) := by
  have h : BitVec.ofInt 32 (a.toInt + b.toInt) = a + b := by rw [BitVec.ofInt_add, BitVec.ofInt_toInt, BitVec.ofInt_toInt]
  rw [opIadd, intOf_i32, intOf_i32]
  exact congrArg bitsOut h

theorem of_opIsub_i32 (a b : W32) : AluOut.of (opIsub .i32 false (a.setWidth 64) (b.setWidth 64)) = bitsOut (a - b) := by
  have h : BitVec.ofInt 32 (a.toInt - b.toInt) = a - b := by
    rw [Int.sub_eq_add_neg, BitVec.ofInt_add, BitVec.ofInt_neg, BitVec.ofInt_toInt, BitVec.ofInt_toInt, BitVec.sub_eq_add_neg]
  rw [opIsub, intOf_i32, intOf_i32]
  exact congrArg bitsOut h

theorem shiftCount_i32 (b : W32) : shiftCount .i32 (b.setWidth 64) = b.toNat % 32 := by
  have h : (b.setWidth 64).toNat = b.toNat := BitVec.toNat_setWidth_of_le (by omega)
  rw [shiftCount, h]
  rfl

theorem setWidth_setWidth_32 (a : W32) : (a.setWidth 64).setWidth 32 = a := by simp

theorem opShl_i32 (a b : W32) : AluOut.pure (opShl .i32 (a.setWidth 64) (b.setWidth 64)) = bitsOut (a <<< (b.toNat % 32)) := by
  rw [opShl, shiftCount_i32]
  exact congrArg (fun x : W32 => bitsOut (x <<< (b.toNat % 32))) (setWidth_setWidth_32 a)

theorem opShr_i32 (a b : W32) : AluOut.pure (opShr .i32 (a.setWidth 64) (b.setWidth 64)) = bitsOut (a >>> (b.toNat % 32)) := by
  rw [opShr, shiftCount_i32]
  exact congrArg (fun x : W32 => bitsOut (x >>> (b.toNat % 32))) (setWidth_setWidth_32 a)

theorem opSar_i32 (a b : W32) : AluOut.pure (opSar .i32 (a.setWidth 64) (b.setWidth 64)) = bitsOut (a.sshiftRight (b.toNat % 32)) := by
  rw [opSar, shiftCount_i32]
  exact congrArg (fun x : W32 => bitsOut (x.sshiftRight (b.toNat % 32))) (setWidth_setWidth_32 a)

theorem opImin_i32 (a b : W32) : AluOut.pure (opImin .i32 (a.setWidth 64) (b.setWidth 64)) = bitsOut (if b.toInt < a.toInt then b else a) := by
  have h (x : W32) : AluOut.pure (((x.setWidth 64).setWidth 32).setWidth 64) = bitsOut x := congrArg bitsOut (setWidth_setWidth_32 x)
  rw [opImin, intOf_i32, intOf_i32]
  by_cases hlt : b.toInt < a.toInt
  · rw [if_neg (by omega), if_pos hlt]
    exact h b
  · rw [if_pos (by omega), if_neg hlt]
    exact h a

theorem opImax_i32 (a b : W32) : AluOut.pure (opImax .i32 (a.setWidth 64) (b.setWidth 64)) = bitsOut (if a.toInt < b.toInt then b else a) := by
  have h (x : W32) : AluOut.pure (((x.setWidth 64).setWidth 32).setWidth 64) = bitsOut x := congrArg bitsOut (setWidth_setWidth_32 x)
  rw [opImax, intOf_i32, intOf_i32]
  rcases Int.lt_trichotomy a.toInt b.toInt with hlt | heq | hgt
  · rw [if_pos (by omega), if_pos hlt]
    exact h b
  · obtain rfl : a = b := BitVec.eq_of_toInt_eq heq
    rw [if_pos (by omega), if_neg (by omega)]
    exact h a
  · rw [if_neg (by omega), if_neg (by omega)]
    exact h a

/-! ### The lesser and the greater of two encodings (06 R152) -/

theorem xlt_asymm {a b : XR} (h : xlt a b = true) : xlt b a = false := by
  cases a with
  | nan => cases b with
    | inf n => cases n <;> simp_all [xlt]
    | _ => simp_all [xlt]
  | inf m => cases b with
    | inf n => cases m <;> cases n <;> simp_all [xlt]
    | _ => cases m <;> simp_all [xlt]
  | zero => cases b with
    | inf n => cases n <;> simp_all [xlt]
    | num q => simpa [xlt] using (of_decide_eq_true h).le
    | _ => simp_all [xlt]
  | num p => cases b with
    | inf n => cases n <;> simp_all [xlt]
    | zero => simpa [xlt] using (of_decide_eq_true h).le
    | num q => simpa [xlt] using (of_decide_eq_true h).le
    | nan => simp_all [xlt]

theorem Fmt.isZero_dec (F : Fmt) (x : Nat) : (F.dec x).isZero = decide (F.absBits x = 0) := by
  unfold Fmt.dec
  dsimp only
  repeat' split
  all_goals simp_all [XR.isZero]

theorem Fmt.isNan_dec_zero {F : Fmt} {x : Nat} (h : F.absBits x = 0) : (F.dec x).isNan = false := by
  simp [Fmt.dec, h, XR.isNan]

/-- An encoding of a zero is one of the two that the signs give. -/
theorem Fmt.withSign_sign_of_zero {F : Fmt} {x : Nat} (hx : x < 2 ^ F.width) (h : F.absBits x = 0) : F.withSign (F.sign x) 0 = x := by
  have hw : 2 ^ F.width = 2 * 2 ^ (F.e + F.f) := by rw [Fmt.width, Nat.add_assoc, Nat.add_comm, Nat.pow_succ, Nat.mul_comm]
  have hq : x / 2 ^ (F.e + F.f) < 2 := (Nat.div_lt_iff_lt_mul (by positivity)).mpr (hw ▸ hx)
  have hx' : x = 2 ^ (F.e + F.f) * (x / 2 ^ (F.e + F.f)) := (Nat.mul_div_cancel' (Nat.dvd_of_mod_eq_zero h)).symm
  rcases Nat.lt_succ_iff_lt_or_eq.mp hq with h0 | h1
  · have hz : x = 0 := by rwa [Nat.lt_one_iff.mp h0, Nat.mul_zero] at hx'
    simp [Fmt.withSign, Fmt.sign, hz]
  · have hs : F.sign x = true := by simp [Fmt.sign, h1]
    rw [h1] at hx'
    simp only [Fmt.withSign, hs, if_true]
    omega

theorem minOrder_asymm {F : Fmt} {x y : Nat} (h : minOrder F x y = true) : minOrder F y x = false := by
  unfold minOrder at h ⊢
  split at h
  · next h0 =>
    rw [if_pos h0.symm]
    revert h
    cases F.sign x <;> simp
  · next h0 =>
    rw [if_neg fun h' => h0 h'.symm]
    exact xlt_asymm h

/-- The lesser of two numbers by the order in which -0 lies below +0 (06 R152). -/
theorem extreme_of_numbers {F : Fmt} {isMax : Bool} {x y : Nat} (hx : x < 2 ^ F.width) (hy : y < 2 ^ F.width) (hnx : (F.dec x).isNan = false)
    (hny : (F.dec y).isNan = false) :
    (extreme F isMax x y).1 = if isMax then (if minOrder F x y then y else x) else if minOrder F y x then y else x := by
  by_cases h0 : F.absBits x = 0 ∧ F.absBits y = 0
  · have ex := Fmt.withSign_sign_of_zero hx h0.1
    have ey := Fmt.withSign_sign_of_zero hy h0.2
    have hz : ((F.dec x).isZero && (F.dec y).isZero) = true := by simpa [Fmt.isZero_dec] using h0
    simp only [extreme, minOrder, hnx, hny, hz, h0.1, h0.2, and_self, if_true, Bool.false_eq_true, if_false, Bool.and_self]
    revert ex ey
    cases F.sign x <;> cases F.sign y <;> cases isMax <;> simp +contextual
  · have hz : ((F.dec x).isZero && (F.dec y).isZero) = false := by simpa [Fmt.isZero_dec] using h0
    have h1 : ¬ (F.absBits y = 0 ∧ F.absBits x = 0) := fun h => h0 h.symm
    simp only [extreme, minOrder, hnx, hny, hz, h0, h1, Bool.false_and, Bool.false_eq_true, if_false]

theorem opFminmax_eq_extreme {F : Fmt} {ftz isMax : Bool} {m : AluMod} {a b x y : Nat} (ha : fsrc F ftz (m.var.getLsbD 0) a = x)
    (hb : fsrc F ftz (m.var.getLsbD 1) b = y) (hx : x < 2 ^ F.width) (hy : y < 2 ^ F.width) :
    opFminmax F ftz isMax m a b = extreme F isMax x y := by
  have hfl : (extreme F isMax x y).2 = sigNV [F.dec x, F.dec y] := by simp [extreme, sigNV]
  have hnum (hnx : (F.dec x).isNan = false) (hny : (F.dec y).isNan = false) :
      (if minOrder F x y != isMax then x else if minOrder F y x != isMax then y else x) = (extreme F isMax x y).1 := by
    have hasymm := @minOrder_asymm F x y
    rw [extreme_of_numbers hx hy hnx hny]
    revert hasymm
    cases minOrder F x y <;> cases minOrder F y x <;> cases isMax <;> simp
  rw [opFminmax, ha, hb]
  cases hnx : (F.dec x).isNan with
  | true => cases hny : (F.dec y).isNan <;> exact Prod.ext (by simp [extreme, hnx, hny]) hfl.symm
  | false => cases hny : (F.dec y).isNan with
    | true => exact Prod.ext (by simp [extreme, hnx, hny]) hfl.symm
    | false => exact Prod.ext (hnum hnx hny) hfl.symm

/-! ### Floating sources -/

theorem fsrc_f32 {ftz : Bool} {x : W32} : fsrc .f32 ftz false x.toNat = ftzIn ftz x.toNat :=
  congrArg (ftzIn ftz) (Nat.mod_eq_of_lt x.isLt)

theorem ftzIn_lt {ftz : Bool} {x : Nat} (h : x < 2 ^ Fmt.f32.width) : ftzIn ftz x < 2 ^ Fmt.f32.width := by
  unfold ftzIn
  split
  · cases Fmt.f32.sign x <;> decide
  · exact h

/-! ### The result of a half -/

theorem packedOut_bothHalves (op : Nat → Nat → Nat × W8) (x y : W32) :
    (let q := bothHalves fun h => op (h x) (h y)
     (⟨q.1.setWidth 64, q.2, false⟩ : AluOut)) =
      packedOut fun h => op (x.toNat / 65536 ^ h % 65536) (y.toNat / 65536 ^ h % 65536) := by
  have hi (x : W32) : x.toNat / 65536 % 65536 = x.toNat / 65536 := Nat.mod_eq_of_lt (by omega)
  simp [bothHalves, packedOut, hi]

/-- A half of a packed source that is not negated. -/
theorem State.hopnd_eq {s : State} {f : Full} {m : AluMod} {i : Nat} (hv : m.var.getLsbD i = false) (ht : packedFmt m.ty = .bf16) (o : Operand)
    (l h : Nat) : s.hopnd f m i o l h = Fmt.bf16.dec (fsrc .bf16 false false ((s.srcPacked .bf16 f o l).toNat / 65536 ^ h % 65536)) := by
  have hm (n : Nat) : fsrc .bf16 false false (n % 65536) = n % 65536 := Nat.mod_mod n 65536
  rw [State.hopnd, State.half, hv, ht, hm]
  rfl

/-- A half negates no source (04 R104). -/
theorem halfMod_var (p : PairOp) (r : Rnd) (i : Nat) : (halfMod p r).var.getLsbD i = false := by
  have h : (halfMod p r).var = 0#3 := by cases p <;> rfl
  simp [h]

theorem State.halfOut_eq_halfResult (s : State) (p : PairOp) (r : Rnd) (d x : POperand) : s.halfOut p r d x = s.halfResult p r d x := by
  funext l
  have hn (y : W32) : (y.setWidth 64).toNat = y.toNat := BitVec.toNat_setWidth_of_le (by omega)
  unfold State.halfOut State.halfResult
  dsimp only
  rw [s.src_eq_src32 d (halfFull false 7) l, s.src_eq_src32 x (halfFull false 7) l, hn, hn]
  generalize s.src32 (halfFull false 7) (pairOperand d) l = a
  generalize s.src32 (halfFull false 7) (pairOperand x) l = b
  have hfa := fsrc_f32 (ftz := s.ftz) (x := a)
  have hfb := fsrc_f32 (ftz := s.ftz) (x := b)
  cases p with
  | mov | movF => rfl
  | iadd => exact of_opIadd_i32 a b
  | isub => exact of_opIsub_i32 a b
  | and => exact congrArg AluOut.pure BitVec.setWidth_and.symm
  | or => exact congrArg AluOut.pure BitVec.setWidth_or.symm
  | xor => exact congrArg AluOut.pure BitVec.setWidth_xor.symm
  | shl => exact opShl_i32 a b
  | shr => exact opShr_i32 a b
  | sar => exact opSar_i32 a b
  | imin => exact opImin_i32 a b
  | imax => exact opImax_i32 a b
  | fadd =>
    simp only [opFadd, halfMod_var, hfa, hfb]
    rfl
  | fsub =>
    simp only [opFsub, halfMod_var, hfa, hfb]
    rfl
  | fmul =>
    simp only [opFmul, halfMod_var, hfa, hfb]
    rfl
  | fmin | fmax =>
    exact congrArg fval (opFminmax_eq_extreme (by rw [halfMod_var, hfa]) (by rw [halfMod_var, hfb]) (ftzIn_lt a.isLt) (ftzIn_lt b.isLt))
  | hadd2 =>
    refine (packedOut_bothHalves _ _ _).trans ?_
    simp only [opFadd, halfMod_var, ← State.hopnd_eq (halfMod_var .hadd2 r 0) rfl]
    rfl
  | hmul2 =>
    refine (packedOut_bothHalves _ _ _).trans ?_
    simp only [opFmul, halfMod_var, ← State.hopnd_eq (halfMod_var .hmul2 r 0) rfl]
    rfl

end Sys2Proof.Machine
end

section
/-!
SUPPORT. A pair word (spec/04_registers_encoding.md R87, R104, R105): what its halves compute, and what a write without the last-result file leaves.
-/

namespace Sys2Proof.Machine

/-! ### Results by lane -/

theorem outOf_lanesOut {g : Lanes} {l : Nat} (op : Nat → AluOut) (h : l ∈ laneList g) : outOf (lanesOut g op) l = op l := by
  unfold outOf lanesOut
  generalize laneList g = ls at h
  induction ls with
  | nil => cases h
  | cons k r ih =>
    rw [List.map_cons, Store.get]
    split
    · next hk => rw [hk]
    · next hk => exact ih ((List.mem_cons.mp h).resolve_left (Ne.symm hk))

/-- Only the values of the lanes given are written. -/
theorem State.writeDst_congr {s : State} {x : Operand} {wide hist : Bool} {g : Lanes} {val val' : Nat → W64}
    (h : ∀ l ∈ laneList g, val l = val' l) : s.writeDst x wide hist g val = s.writeDst x wide hist g val' := by
  have vec (code : Nat) : (s.modCurWarp fun w => (laneList g).foldl (fun w l => w.result code wide hist (val l) l) w) =
      s.modCurWarp fun w => (laneList g).foldl (fun w l => w.result code wide hist (val' l) l) w :=
    congrArg s.modCurWarp (funext fun w => List.foldl_ext _ _ w fun v l hl => by rw [h l hl])
  have low {l : Nat} (hl : lowLane g = some l) : val l = val' l := h l (List.mem_of_mem_head? hl)
  cases x with
  | v n => exact vec _
  | o n => exact vec _
  | s n | g n =>
    unfold State.writeDst
    cases hl : lowLane g with
    | none => rfl
    | some l => simp only [low hl]
  | _ => rfl

/-! ### A write that does not enter the last-result file (04 R87) -/

/-- Only a write to a vector register could enter the last-result file. -/
theorem State.writeDst_hist {s : State} {x : Operand} (h : vecBase x = none) (wide hist : Bool) (g : Lanes) (val : Nat → W64) :
    s.writeDst x wide hist g val = s.writeDst x wide true g val := by
  cases x with
  | v n | o n => cases h
  | _ => rfl

theorem Warp.vreg_writeVregs (w : Warp) {b k c : Nat} (val : Nat → W32) (hb : b < 0x324) (hc : c < 0x324) (ls : List Nat) :
    (ls.foldl (fun w l => w.writeVreg l b (val l)) w).vreg k c = if c = b ∧ k ∈ ls then val k else w.vreg k c := by
  induction ls generalizing w with
  | nil => simp
  | cons l r ih =>
    rw [List.foldl_cons, ih, Warp.vreg_writeVreg _ _ hb hc]
    by_cases hk : k = l
    · subst hk
      by_cases hcb : c = b <;> simp [hcb]
    · simp [hk]

theorem Warp.result_quiet (w : Warp) (b : Nat) (x : W64) (l : Nat) : w.result b false false x l = w.writeVreg l b (loWord x) := by
  simp [Warp.result, loWord]

theorem State.vreg_writeDst_quiet (s : State) (x : Operand) (g : Lanes) (val : Nat → W64) (hx : (Slot.dst false).ok x = true) {l c : Nat}
    (hl : l < 64) (hc : c < 0x324) : (s.writeDst x false false g val).curWarp.vreg l c =
      if vecBase x = some c ∧ g.getLsbD l = true then loWord (val l) else s.curWarp.vreg l c := by
  cases hv : vecBase x with
  | none =>
    rw [State.writeDst_hist hv, State.vreg_writeDst s x false g val hx hc]
    simp [Warp.after, hv]
  | some b =>
    have hb : b < 0x324 := Nat.lt_trans (vecBase_bound hv hx).1 (by decide)
    simp only [(State.curWarp_writeDst_vec s x b false false g val hv).1, Warp.result_quiet]
    rw [Warp.vreg_writeVregs s.curWarp (fun l => loWord (val l)) hb hc]
    simp only [mem_laneList, hl, true_and, Option.some.injEq, @eq_comm Nat c b]

theorem scalarBase_of_vecBase {x : Operand} {b : Nat} (h : vecBase x = some b) : scalarBase x = none := by
  cases x with
  | v n | o n => rfl
  | _ => cases h

theorem State.sfile_writeDst_quiet (s : State) (x : Operand) (wide hist : Bool) (g : Lanes) (val : Nat → W64) (he : s.cur.strm = .e) (n : Nat) :
    (s.writeDst x wide hist g val).sfile n = oneAfter (scalarBase x) wide g val n (s.sfile n) := by
  cases hv : vecBase x with
  | none =>
    rw [State.writeDst_hist hv]
    exact State.sfile_writeDst s x wide g val n
  | some b =>
    obtain ⟨-, -, -, hsregs⟩ := State.curWarp_writeDst_vec s x b wide hist g val hv
    simp only [scalarBase_of_vecBase hv, oneAfter, State.sfile, State.cur_writeDst, he, State.regs, hsregs]

theorem State.gw_writeDst_quiet (s : State) (x : Operand) (wide hist : Bool) (g : Lanes) (val : Nat → W64) (h : uniformBase x = none) :
    (s.writeDst x wide hist g val).curGroup.gw = s.curGroup.gw := by
  cases hv : vecBase x with
  | none =>
    rw [State.writeDst_hist hv]
    exact State.gw_writeDst s x wide g val h
  | some b => exact (State.curWarp_writeDst_vec s x b wide hist g val hv).2.1

/-! ### The halves -/

/-- What a half computes, in the lanes of its guard. -/
theorem State.halfOuts_eq (s : State) (h : Half) :
    s.halfOuts h = ((s.halfWrites h).1, (s.halfWrites h).2.1, lanesOut (s.halfWrites h).2.1 (s.halfWrites h).2.2) := by
  cases h with
  | nop => simp [State.halfOuts, State.halfWrites, lanesOut, laneList]
  | op p r neg guard d x => simp only [State.halfOuts, State.halfWrites, State.halfOut_eq_halfResult]

/-- The destination of a half is a vector or scalar register, or none (04 R104). -/
theorem State.halfWrites_dst (s : State) {h : Half} (hw : h.wf = true) :
    (Slot.dst false).ok (s.halfWrites h).1 = true ∧ uniformBase (s.halfWrites h).1 = none := by
  cases h with
  | nop => exact ⟨rfl, rfl⟩
  | op p r neg guard d x =>
    obtain ⟨hd, -⟩ := Half.wf_op_iff.mp hw
    cases d with
    | v n | o n | s n => exact ⟨rfl, rfl⟩
    | h n | k n => cases hd

/-! ### What the two writes leave -/

/-- The state after a half's write, as a half gives it: not entered into the last-result file (04 R87). -/
def State.writeHalf (t : State) (x : Operand × Lanes × (Nat → AluOut)) : State := t.writeDst x.1 false false x.2.1 fun l => (x.2.2 l).val

/-- The state after both halves of a pair word have written. -/
def State.writeHalves (s : State) (h0 h1 : Half) : State := (s.writeHalf (s.halfWrites h0)).writeHalf (s.halfWrites h1)

section
variable (t : State) (x : Operand × Lanes × (Nat → AluOut))

theorem State.cur_writeHalf : (t.writeHalf x).cur = t.cur := State.cur_writeDst _ _ _ _ _ _
theorem State.ctl_writeHalf : (t.writeHalf x).ctl = t.ctl := State.ctl_writeDst _ _ _ _ _ _

end

theorem State.cur_writeHalves (s : State) (h0 h1 : Half) : (s.writeHalves h0 h1).cur = s.cur :=
  (State.cur_writeHalf _ _).trans (State.cur_writeHalf _ _)

theorem State.ctl_writeHalves (s : State) (h0 h1 : Half) : (s.writeHalves h0 h1).ctl = s.ctl :=
  (State.ctl_writeHalf _ _).trans (State.ctl_writeHalf _ _)

section
variable {s : State} {h0 h1 : Half}

theorem State.frame_writeHalves (he : s.cur.strm = .e) (hw0 : h0.wf = true) (hw1 : h1.wf = true) : s.Frame (s.writeHalves h0 h1) := by
  have fits {t : State} {h : Half} (ht : t.cur.strm = .e) (hw : h.wf = true) : t.dstFits (s.halfWrites h).1 :=
    ⟨fun _ => ht, fun hu => absurd (s.halfWrites_dst hw).2 hu⟩
  exact (State.frame_writeDst s _ _ _ _ _ (fits he hw0)).trans
    (State.frame_writeDst _ _ _ _ _ _ (fits ((congrArg Cur.strm (State.cur_writeHalf s _)).trans he) hw1))

/-- The second half writes last; decoding excludes two halves of one destination (04 R105). -/
theorem State.vreg_writeHalves (hw0 : h0.wf = true) (hw1 : h1.wf = true) {l c : Nat} (hl : l < 64) (hc : c < 0x324) :
    (s.writeHalves h0 h1).curWarp.vreg l c =
    let x := s.halfWrites h0
    let y := s.halfWrites h1
    if vecBase y.1 = some c ∧ y.2.1.getLsbD l = true then loWord (y.2.2 l).val
    else if vecBase x.1 = some c ∧ x.2.1.getLsbD l = true then loWord (x.2.2 l).val
    else s.curWarp.vreg l c := by
  dsimp only
  rw [State.writeHalves, State.writeHalf, State.vreg_writeDst_quiet _ _ _ _ (s.halfWrites_dst hw1).1 hl hc, State.writeHalf,
    State.vreg_writeDst_quiet _ _ _ _ (s.halfWrites_dst hw0).1 hl hc]

theorem State.sfile_writeHalves (he : s.cur.strm = .e) (n : Nat) : (s.writeHalves h0 h1).sfile n =
    let x := s.halfWrites h0
    let y := s.halfWrites h1
    oneAfter (scalarBase y.1) false y.2.1 (fun l => (y.2.2 l).val) n
      (oneAfter (scalarBase x.1) false x.2.1 (fun l => (x.2.2 l).val) n (s.sfile n)) := by
  have he' : (s.writeHalf (s.halfWrites h0)).cur.strm = .e := (congrArg Cur.strm (State.cur_writeHalf s _)).trans he
  dsimp only
  rw [State.writeHalves, State.writeHalf, State.sfile_writeDst_quiet _ _ _ _ _ _ he', State.writeHalf, State.sfile_writeDst_quiet _ _ _ _ _ _ he]

theorem State.gw_writeHalves (hw0 : h0.wf = true) (hw1 : h1.wf = true) : (s.writeHalves h0 h1).curGroup.gw = s.curGroup.gw :=
  (State.gw_writeDst_quiet _ _ _ _ _ _ (s.halfWrites_dst hw1).2).trans (State.gw_writeDst_quiet s _ _ _ _ _ (s.halfWrites_dst hw0).2)

end

/-! ### The end of an issue -/

/-- The end of a form whose writes have touched nothing but registers: flags, and the next slot. -/
def State.finish (u : State) (fl : List (Nat × W8)) : State := (u.raise fl).advance

theorem State.regs_finish (u : State) (fl : List (Nat × W8)) : (u.finish fl).regs = u.regs :=
  (State.regs_advance _).trans (State.regs_raise u fl)

section
variable {s u : State} (fl : List (Nat × W8)) (hcur : u.cur = s.cur)
include hcur

theorem State.cur_finish : (u.finish fl).cur = { s.cur with done := true } := by rw [State.finish, State.cur_advance, State.cur_raise, hcur]

theorem State.issuer_finish : s.issuer (u.finish fl) = (u.finish fl).curWarp := by
  rw [State.issuer, State.curWarp, State.cur_finish fl hcur]

theorem State.group_finish : (u.finish fl).group s.cur.grp = (u.finish fl).curGroup := by
  rw [State.curGroup, State.cur_finish fl hcur]

theorem State.vreg_finish (l c : Nat) : (s.issuer (u.finish fl)).vreg l c = u.curWarp.vreg l c := by
  rw [State.issuer_finish fl hcur]
  exact Warp.vreg_of_vregs (congrArg Regs.vregs (State.regs_finish u fl)) (congrArg Regs.level (State.regs_finish u fl)) l c

theorem State.scalarFile_finish (n : Nat) : s.scalarFile (u.finish fl) n = u.sfile n := by
  rw [State.scalarFile_eq s _ (by rw [State.cur_finish fl hcur]; exact ⟨rfl, rfl, rfl⟩), State.regs_finish, State.sfile, hcur]

theorem State.gw_finish : ((u.finish fl).group s.cur.grp).gw = u.curGroup.gw := by
  rw [State.group_finish fl hcur]
  exact congrArg Regs.gw (State.regs_finish u fl)

variable (hctl : u.ctl = s.ctl)
include hctl

theorem State.raised_finish : s.Raised (u.finish fl) fl := by
  have h := State.raised_raise u fl
  have hf : u.fstat = s.fstat := by rw [State.fstat_eq, State.fstat_eq, hctl, hcur]
  have hl : u.curWarp.level = s.curWarp.level := congrArg Ctl.level hctl
  rw [State.Raised, hcur, hf, hl] at h
  rw [State.Raised, State.finish, State.fstat_advance, h]

theorem State.samePreds_finish : s.SamePreds (u.finish fl) := fun l p _ _ => by
  rw [State.finish, State.pred_advance, State.pred_raise, State.pred_eq, State.pred_eq, hctl, hcur]

theorem State.queues_finish : (s.issuer (u.finish fl)).queues = s.curWarp.queues := by
  rw [State.issuer_finish fl hcur, State.finish, State.queues_advance, State.warp_raise (·.queues) (fun _ _ => rfl)]
  exact congrArg Ctl.queues hctl

theorem State.advanced_finish (he : s.cur.strm = .e) : s.Advanced (u.finish fl) := by
  have hc : (u.raise fl).cur = s.cur := (State.cur_raise u fl).trans hcur
  have hs : u.curWarp.splits = s.curWarp.splits := congrArg Ctl.splits hctl
  simp only [State.Advanced, he]
  rw [State.issuer_finish fl hcur, State.finish, State.splits_advance _ (hc ▸ he), hc, State.warp_raise (·.splits) (fun _ _ => rfl), hs]

end

/-! ### The meaning of a pair word -/

theorem State.pairBody_eq {s : State} {h0 h1 : Half} (hfl : s.flagTrap (s.halfFlags h0 ++ s.halfFlags h1) = none) :
    s.pairBody h0 h1 = (s.writeHalves h0 h1).finish (s.halfFlags h0 ++ s.halfFlags h1) := by
  have hw (t : State) (x : Operand × Lanes × (Nat → AluOut)) :
      t.writeDst x.1 false false x.2.1 (fun l => (outOf (lanesOut x.2.1 x.2.2) l).val) = t.writeHalf x :=
    State.writeDst_congr fun l hl => by rw [outOf_lanesOut _ hl]
  rw [State.halfFlags, State.halfFlags] at hfl
  simp only [State.pairBody, State.halfOuts_eq, hfl, hw]
  rfl

theorem State.pairExecutes_iff {s : State} {h0 h1 : Half} : s.pairExecutes h0 h1 = true ↔
    (Instr.pairWord h0 h1).wf = true ∧ s.cur.fresh = true ∧ s.cur.strm = .e ∧
      (halfOperands h0 ++ halfOperands h1).all (fun o => s.operandOk (halfFull false 7) (.src false false) o) = true ∧
      s.halfHazard h0 = none ∧ s.halfHazard h1 = none := by
  simp only [State.pairExecutes, Bool.and_eq_true, beq_iff_eq, Option.isNone_iff_eq_none, and_assoc]

theorem State.exec_pairWord {s : State} {h0 h1 : Half} (h : s.pairExecutes h0 h1 = true) : exec (.pairWord h0 h1) s = .next (s.pairBody h0 h1) := by
  obtain ⟨-, hfresh, he, hops, hz0, hz1⟩ := State.pairExecutes_iff.mp h
  simp only [Cur.fresh, Bool.and_eq_true, and_assoc] at hfresh
  obtain ⟨hv, -⟩ := hfresh
  change execPairWord h0 h1 s = _
  simp [execPairWord, hv, he, hops, hz0, hz1]

end Sys2Proof.Machine
end

section
namespace Sys2Proof.Machine

/-- Settles O10: both halves compute from the sources as they were, and each writes in the lanes of its own guard. -/
theorem pairWordResults : Obligations.PairWordResults := by
  intro s h0 h1 hx hfl
  obtain ⟨hw, -, he, -⟩ := State.pairExecutes_iff.mp hx
  obtain ⟨hw0, hw1, -⟩ := Instr.wf_pairWord_iff.mp hw
  have hcur := State.cur_writeHalves s h0 h1
  have hctl := State.ctl_writeHalves s h0 h1
  refine ⟨(s.writeHalves h0 h1).finish (s.halfFlags h0 ++ s.halfFlags h1), (State.exec_pairWord hx).trans (congrArg _ (State.pairBody_eq hfl)),
    ((State.frame_writeHalves he hw0 hw1).trans (State.frame_raise _ _)).trans (State.frame_advance _), State.advanced_finish _ hcur hctl he,
    State.samePreds_finish _ hcur hctl, State.raised_finish _ hcur hctl, State.queues_finish _ hcur hctl,
    (State.gw_finish _ hcur).trans (State.gw_writeHalves hw0 hw1), fun l c hl hc => ?_, fun n _ => ?_⟩
  · rw [State.vreg_finish _ hcur, State.vreg_writeHalves hw0 hw1 hl hc]
  · rw [State.scalarFile_finish _ hcur, State.sfile_writeHalves he, State.scalarFile_eq s s ⟨rfl, rfl, rfl⟩, State.sfile]

end Sys2Proof.Machine
end

section
/-!
SUPPORT. The bundles and words that the manual works out (spec/04_registers_encoding.md R95 to R106 and the chapters of the forms), and the machine
after reset (spec/19_translation_places.md R451; spec/20_partitions_security.md R456 to R463; spec/21_host_fabric_bringup.md R488, R492).
-/

namespace Sys2Proof.Machine

/-- The decoder, evaluated at each word. -/
theorem workedWordsDecode : Parts.WorkedWordsDecode := by
  unfold Parts.WorkedWordsDecode
  decide +kernel

theorem reset_groups : State.reset.groups = [] := rfl

theorem reset_ctx (k : Nat) : State.reset.ctx k = Ctx.blank := rfl

/-- No group is resident, so that no two splits of a warp stand anywhere; every other clause is a field of the state after reset. -/
theorem resetState : Parts.ResetState := by
  unfold Parts.ResetState
  refine ⟨rfl, rfl, rfl, rfl, rfl, rfl, rfl, rfl, rfl, rfl, rfl, rfl, rfl, rfl, rfl, rfl, rfl, rfl, rfl, fun g hg => ?_,
    fun k => ⟨rfl, rfl, rfl, rfl, rfl, reset_ctx k⟩⟩
  rw [reset_groups] at hg
  cases hg

/-- Settles O60: every worked word decodes as stated, and reset leaves what is stated. -/
theorem resetAndWorkedWords : Obligations.ResetAndWorkedWords := ⟨workedWordsDecode, resetState⟩

end Sys2Proof.Machine
end

section
/-!
SUPPORT. FP_EXCEPTION (spec/05_number_formats.md R134, R136): the flags that a form would raise, lane by lane, and the trap that they cause.
-/

namespace Sys2Proof.Machine

/-! ### The flags of the lanes -/

theorem getLsbD_foldl_flags (l : List (Nat × W8)) (x : W8) (b : Nat) :
    (l.foldl (fun acc p => acc ||| p.2) x).getLsbD b = (x.getLsbD b || l.any fun p => p.2.getLsbD b) := by
  induction l generalizing x with
  | nil => simp
  | cons p r ih => rw [List.foldl_cons, ih, BitVec.getLsbD_or, List.any_cons, Bool.or_assoc]

theorem getLsbD_orFlags (l : List (Nat × W8)) (b : Nat) : (orFlags l).getLsbD b = l.any fun p => p.2.getLsbD b := by
  simp [orFlags, getLsbD_foldl_flags]

theorem getLsbD_laneBit {n k : Nat} (hk : k < 64) : (laneBit n).getLsbD k = decide (n = k) := by
  rw [laneBit, BitVec.getLsbD_shiftLeft, BitVec.getLsbD_one, Bool.eq_iff_iff]
  simp only [Bool.and_eq_true, decide_eq_true_eq, Bool.not_eq_true', decide_eq_false_iff_not]
  omega

theorem getLsbD_foldl_laneBit (l : List (Nat × W8)) (m : Lanes) {k : Nat} (hk : k < 64) :
    (l.foldl (fun acc p => acc ||| laneBit p.1) m).getLsbD k = (m.getLsbD k || l.any fun p => decide (p.1 = k)) := by
  induction l generalizing m with
  | nil => simp
  | cons p r ih => rw [List.foldl_cons, ih, BitVec.getLsbD_or, getLsbD_laneBit hk, List.any_cons, Bool.or_assoc]

/-- The lanes that may raise flags are the live guard-true ones (05 R134). -/
theorem State.mem_flagsOf {s : State} {f : Full} {out : Nat → AluOut} {p : Nat × W8} :
    p ∈ s.flagsOf f out ↔ ((s.gLanes f).getLsbD p.1 = true ∧ s.liveMask.getLsbD p.1 = true) ∧ (out p.1).flags = p.2 := by
  obtain ⟨k, x⟩ := p
  simp only [State.flagsOf, liveFlags, lanesOut, List.mem_map, List.mem_filter, mem_laneList, Prod.mk.injEq]
  constructor
  · rintro ⟨_, ⟨⟨l, ⟨-, hg⟩, rfl⟩, hlive⟩, rfl, rfl⟩
    exact ⟨⟨hg, hlive⟩, rfl⟩
  · rintro ⟨⟨hg, hlive⟩, rfl⟩
    exact ⟨_, ⟨⟨k, ⟨lane_lt hg, hg⟩, rfl⟩, hlive⟩, rfl, rfl⟩

/-- The flags of a form, over its live guard-true lanes. -/
theorem State.getLsbD_orFlags_flagsOf {s : State} {f : Full} {out : Nat → AluOut} {b : Nat} :
    (orFlags (s.flagsOf f out)).getLsbD b = true ↔
      ∃ l, ((s.gLanes f).getLsbD l = true ∧ s.liveMask.getLsbD l = true) ∧ (out l).flags.getLsbD b = true := by
  rw [getLsbD_orFlags, List.any_eq_true]
  constructor
  · rintro ⟨⟨l, x⟩, hm, hb⟩
    obtain ⟨hr, hx⟩ := State.mem_flagsOf.mp hm
    exact ⟨l, hr, hx ▸ hb⟩
  · rintro ⟨l, hr, hb⟩
    exact ⟨(l, (out l).flags), State.mem_flagsOf.mpr ⟨hr, rfl⟩, hb⟩

/-! ### The trap -/

/-- TINFO0 of FP_EXCEPTION: the enabled flags in byte 0, all flags in byte 1 (05 R136). -/
theorem flagInfo_eq_append (enabled all : W8) : enabled.setWidth 64 ||| all.setWidth 64 <<< 8 = (all ++ enabled).setWidth 64 := by
  refine BitVec.eq_of_getLsbD_eq fun i hi => ?_
  rw [BitVec.getLsbD_or, BitVec.getLsbD_shiftLeft]
  simp only [BitVec.getLsbD_setWidth, BitVec.getLsbD_append, hi, decide_true, Bool.true_and]
  by_cases h : i < 8
  · simp [h]
  · simp [h, show i - 8 < 64 by omega, BitVec.getLsbD_of_ge enabled i (by omega)]

theorem getLsbD_append_low (x y : W8) {b : Nat} (hb : b < 8) : ((y ++ x).setWidth 64 : W64).getLsbD b = x.getLsbD b := by
  rw [BitVec.getLsbD_setWidth, BitVec.getLsbD_append]
  simp [hb, show b < 64 by omega]

theorem getLsbD_append_high (x y : W8) {b : Nat} (hb : b < 8) : ((y ++ x).setWidth 64 : W64).getLsbD (8 + b) = y.getLsbD b := by
  rw [BitVec.getLsbD_setWidth, BitVec.getLsbD_append]
  simp [show 8 + b < 64 by omega]

theorem toNat_append_lt (x y : W8) : ((y ++ x).setWidth 64 : W64).toNat < 2 ^ 16 := by
  rw [BitVec.toNat_setWidth]
  exact (Nat.mod_le _ _).trans_lt (y ++ x).isLt

/-- The lanes of a list that would raise an enabled flag. -/
def State.enabledHits (s : State) (l : List (Nat × W8)) : List (Nat × W8) := l.filter fun p => p.2 &&& enabledFlags s.fstat != 0

theorem State.mem_enabledHits {s : State} {l : List (Nat × W8)} {p : Nat × W8} :
    p ∈ s.enabledHits l ↔ p ∈ l ∧ p.2 &&& enabledFlags s.fstat ≠ 0 := by
  simp [State.enabledHits]

/-- FP_EXCEPTION is due below level H where a lane of the list hits, with the trap registers of 05 R136. -/
theorem State.flagTrap_eq (s : State) (l : List (Nat × W8)) :
    s.flagTrap l = if (s.cur.strm = .e ∧ s.curWarp.level = true) ∨ s.enabledHits l = [] then none
      else some (s.mkTrap .fpException ((s.enabledHits l).foldl (fun acc p => acc ||| laneBit p.1) 0)
        ((orFlags l ++ (orFlags l &&& enabledFlags s.fstat)).setWidth 64) 0 0 0) := by
  rw [← flagInfo_eq_append]
  exact if_congr (by simp [State.enabledHits, -List.filter_eq_nil_iff]) rfl rfl

theorem State.getLsbD_mkTrap_mask (s : State) (c : Cause) (m : Lanes) (i0 i1 i2 i3 : W64) (l : Nat) :
    (s.mkTrap c m i0 i1 i2 i3).mask.getLsbD l = true ↔ s.cur.strm = .e ∧ m.getLsbD l = true := by
  by_cases h : s.cur.strm = .e <;> simp [State.mkTrap, h]

end Sys2Proof.Machine
end

section
namespace Sys2Proof.Machine

/-- Settles O13: FP_EXCEPTION is due, below level H, where a live guard-true lane hits; its trap registers name those lanes and flags. -/
theorem enabledFlagTraps : Obligations.EnabledFlagTraps := by
  intro s f out raises hits
  have hhit (l : Nat) : (∃ p ∈ s.enabledHits (s.flagsOf f out), p.1 = l) ↔ hits l := by
    constructor
    · rintro ⟨p, hp, rfl⟩
      obtain ⟨hm, hen⟩ := State.mem_enabledHits.mp hp
      obtain ⟨hr, hx⟩ := State.mem_flagsOf.mp hm
      exact ⟨hr, hx ▸ hen⟩
    · rintro ⟨hr, hen⟩
      exact ⟨(l, (out l).flags), State.mem_enabledHits.mpr ⟨State.mem_flagsOf.mpr ⟨hr, rfl⟩, hen⟩, rfl⟩
  rw [State.flagTrap_eq]
  by_cases hnone : (s.cur.strm = .e ∧ s.curWarp.level = true) ∨ s.enabledHits (s.flagsOf f out) = []
  · rw [if_pos hnone]
    refine hnone.imp_right fun hnil l hit => ?_
    obtain ⟨p, hp, -⟩ := (hhit l).mpr hit
    rw [hnil] at hp
    cases hp
  · rw [if_neg hnone]
    obtain ⟨hlevel, hne⟩ := not_or.mp hnone
    obtain ⟨p, hp⟩ := List.exists_mem_of_ne_nil _ hne
    refine ⟨hlevel, ⟨p.1, (hhit p.1).mp ⟨p, hp, rfl⟩⟩, rfl, rfl, fun l hl => ?_, fun b hb => ?_, fun b hb => ?_, ?_, rfl, rfl, rfl⟩
    · rw [State.getLsbD_mkTrap_mask, getLsbD_foldl_laneBit _ _ hl, ← hhit l]
      simp
    · rw [State.mkTrap, getLsbD_append_low _ _ hb, BitVec.getLsbD_and, Bool.and_eq_true, State.getLsbD_orFlags_flagsOf, ← exists_and_right]
      exact exists_congr fun l => and_assoc
    · rw [State.mkTrap, getLsbD_append_high _ _ hb]
      exact State.getLsbD_orFlags_flagsOf
    · exact toNat_append_lt _ _

end Sys2Proof.Machine
end

section
/-!
SUPPORT. The arithmetic under rounding (spec/05_number_formats.md R127): powers of two, the exponent of a number, and a magnitude rounded to an
integer or to a multiple of the unit in the last place.
-/

namespace Sys2Proof.Machine

/-! ### Powers of two and exponents -/

theorem pow2_eq_zpow (e : Int) : pow2 e = (2 : Rat) ^ e := by
  cases e with
  | ofNat n => simp [pow2, Rat.mkRat_one]
  | negSucc n => simp [pow2, Rat.mkRat_eq_div, zpow_negSucc]

theorem pow2_pos (e : Int) : 0 < pow2 e := by
  rw [pow2_eq_zpow]
  positivity

theorem pow2_add (a b : Int) : pow2 (a + b) = pow2 a * pow2 b := by
  simp only [pow2_eq_zpow]
  exact zpow_add₀ two_ne_zero a b

theorem pow2_mul_pow2_of_add {a b c : Int} (h : a + b = c) : pow2 a * pow2 b = pow2 c := by rw [← h, pow2_add]

theorem pow2_natCast (n : Nat) : pow2 n = (2 ^ n : Nat) := by simp [pow2_eq_zpow]

theorem pow2_lt_pow2 {a b : Int} : pow2 a < pow2 b ↔ a < b := by
  simp only [pow2_eq_zpow]
  exact zpow_lt_zpow_iff_right₀ one_lt_two

theorem pow2_le_pow2 {a b : Int} : pow2 a ≤ pow2 b ↔ a ≤ b := by
  simp only [pow2_eq_zpow]
  exact zpow_le_zpow_iff_right₀ one_lt_two

/-- A count of units reaches a power of two. -/
theorem pow2_le_units_iff {n k : Nat} {t e : Int} (h : t + k = e) : pow2 e ≤ n * pow2 t ↔ 2 ^ k ≤ n := by
  rw [← h, add_comm, pow2_add, pow2_natCast, mul_le_mul_iff_of_pos_right (pow2_pos t), Nat.cast_le]

theorem units_lt_pow2_iff {n k : Nat} {t e : Int} (h : t + k = e) : n * pow2 t < pow2 e ↔ n < 2 ^ k := by
  rw [← not_le, pow2_le_units_iff h, not_le]

theorem natAbs_num_div_den {q : Rat} (h : 0 ≤ q) : (q.num.natAbs : Rat) / (q.den : Rat) = q := by
  conv_rhs => rw [← Rat.num_div_den q]
  rw [Nat.cast_natAbs, abs_of_nonneg (Rat.num_nonneg.mpr h)]

/-- The exponent of a number: the power of two at or below it, and the next one above it. -/
theorem pow2_floorLog2_le_lt {q : Rat} (h : 0 < q) : pow2 (floorLog2 q) ≤ q ∧ q < pow2 (floorLog2 q + 1) := by
  have hn : q.num.natAbs ≠ 0 := by simpa using h.ne'
  have hd : (0 : Rat) < q.den := by exact_mod_cast q.den_pos
  have hq := natAbs_num_div_den h.le
  set i := Nat.log2 q.num.natAbs with hi
  set j := Nat.log2 q.den with hj
  have hlow : pow2 (i - j - 1) ≤ q := by
    have h1 : pow2 i ≤ q.num.natAbs := by rw [pow2_natCast]; exact_mod_cast Nat.log2_self_le hn
    have h2 : (q.den : Rat) ≤ pow2 (j + 1) := by
      have := (Nat.lt_log2_self (n := q.den)).le
      rw [← Nat.cast_add_one, pow2_natCast]; exact_mod_cast this
    rw [← hq, le_div_iff₀ hd]
    calc pow2 (i - j - 1) * q.den ≤ pow2 (i - j - 1) * pow2 (j + 1) := by gcongr; exact (pow2_pos _).le
      _ = pow2 i := pow2_mul_pow2_of_add (by ring)
      _ ≤ _ := h1
  have hhigh : q < pow2 (i - j + 1) := by
    have h1 : (q.num.natAbs : Rat) < pow2 (i + 1) := by
      rw [← Nat.cast_add_one, pow2_natCast]; exact_mod_cast Nat.lt_log2_self
    have h2 : pow2 j ≤ q.den := by rw [pow2_natCast]; exact_mod_cast Nat.log2_self_le q.den_nz
    rw [← hq, div_lt_iff₀ hd]
    calc (q.num.natAbs : Rat) < pow2 (i + 1) := h1
      _ = pow2 (i - j + 1) * pow2 j := (pow2_mul_pow2_of_add (by ring)).symm
      _ ≤ _ := by gcongr; exact (pow2_pos _).le
  unfold floorLog2
  by_cases hk : pow2 (i - j) ≤ q
  · rw [if_pos hk]
    exact ⟨hk, hhigh⟩
  · rw [if_neg hk, sub_add_cancel]
    exact ⟨hlow, not_le.mp hk⟩

theorem pow2_le_iff {q : Rat} (h : 0 < q) {k : Int} : pow2 k ≤ q ↔ k ≤ floorLog2 q := by
  obtain ⟨hle, hlt⟩ := pow2_floorLog2_le_lt h
  refine ⟨fun hk => ?_, fun hk => (pow2_le_pow2.mpr hk).trans hle⟩
  exact Int.lt_add_one_iff.mp (pow2_lt_pow2.mp (hk.trans_lt hlt))

theorem lt_pow2_iff {q : Rat} (h : 0 < q) {k : Int} : q < pow2 k ↔ floorLog2 q < k := by
  rw [← not_le, pow2_le_iff h, not_le]

theorem floorLog2_eq {q : Rat} {k : Int} (hle : pow2 k ≤ q) (hlt : q < pow2 (k + 1)) : floorLog2 q = k := by
  have h : 0 < q := (pow2_pos k).trans_le hle
  have h1 := (pow2_le_iff h).mp hle
  have h2 := (lt_pow2_iff h).mp hlt
  omega

/-! ### Rounding to an integer -/

section
variable {q : Rat} (m : Rnd) (neg : Bool)

theorem natAbs_num_div_den_eq_floor (h : 0 ≤ q) : q.num.natAbs / q.den = ⌊q⌋₊ := by
  conv_rhs => rw [← natAbs_num_div_den h]
  exact (Rat.natFloor_natCast_div_natCast _ _).symm

/-- What the division leaves is the fraction of the number. -/
theorem natAbs_num_mod_den (h : 0 ≤ q) : ((q.num.natAbs % q.den : Nat) : Rat) = (q - ⌊q⌋₊) * q.den := by
  have hd : (q.den : Rat) ≠ 0 := by exact_mod_cast q.den_nz
  have hdiv : ((q.den * ⌊q⌋₊ + q.num.natAbs % q.den : Nat) : Rat) = q.num.natAbs := by
    rw [← natAbs_num_div_den_eq_floor h, Nat.div_add_mod]
  have hq := (div_eq_iff hd).mp (natAbs_num_div_den h)
  push_cast at hdiv
  linarith

theorem roundNat_natCast (n : Nat) : roundNat m neg n = n := by simp [roundNat, Nat.mod_one]

theorem ceil_of_mod_ne_zero (h : 0 ≤ q) (hr : q.num.natAbs % q.den ≠ 0) : ⌈q⌉₊ = ⌊q⌋₊ + 1 := by
  refine le_antisymm (Nat.ceil_le_floor_add_one q) (Nat.lt_ceil.mpr ?_)
  have hpos : (0 : Rat) < (q - ⌊q⌋₊) * q.den := by
    rw [← natAbs_num_mod_den h]
    exact_mod_cast Nat.pos_of_ne_zero hr
  linarith [pos_of_mul_pos_left hpos (Nat.cast_nonneg q.den)]

theorem eq_floor_of_mod_eq_zero (h : 0 ≤ q) (hr : q.num.natAbs % q.den = 0) : q = ⌊q⌋₊ := by
  have h0 := natAbs_num_mod_den h
  have hd : (q.den : Rat) ≠ 0 := by exact_mod_cast q.den_nz
  rw [hr, Nat.cast_zero, eq_comm, mul_eq_zero, or_iff_left hd] at h0
  linarith

/-- A number that the division leaves whole is its own floor and ceiling. -/
theorem ceil_of_mod_eq_zero (h : 0 ≤ q) (hr : q.num.natAbs % q.den = 0) : ⌈q⌉₊ = ⌊q⌋₊ := by
  conv_lhs => rw [eq_floor_of_mod_eq_zero h hr]
  exact Nat.ceil_natCast _

theorem roundNat_rtz (h : 0 ≤ q) : roundNat .rtz neg q = ⌊q⌋₊ := by
  simp only [roundNat, natAbs_num_div_den_eq_floor h, ite_self]

theorem roundNat_rdn (h : 0 ≤ q) : roundNat .rdn neg q = if neg then ⌈q⌉₊ else ⌊q⌋₊ := by
  simp only [roundNat, natAbs_num_div_den_eq_floor h]
  by_cases hr : q.num.natAbs % q.den = 0
  · rw [if_pos hr, ceil_of_mod_eq_zero h hr, ite_self]
  · rw [if_neg hr, ceil_of_mod_ne_zero h hr]

theorem roundNat_rup (h : 0 ≤ q) : roundNat .rup neg q = if neg then ⌊q⌋₊ else ⌈q⌉₊ := by
  simp only [roundNat, natAbs_num_div_den_eq_floor h]
  by_cases hr : q.num.natAbs % q.den = 0
  · rw [if_pos hr, ceil_of_mod_eq_zero h hr, ite_self]
  · rw [if_neg hr, ceil_of_mod_ne_zero h hr]

/-- To nearest: no further than one half. -/
theorem roundNat_rne_near (h : 0 ≤ q) : 2 * (roundNat .rne neg q - q) ≤ 1 ∧ 2 * (q - roundNat .rne neg q) ≤ 1 := by
  have hd : (0 : Rat) < q.den := by exact_mod_cast q.den_pos
  have hmod := natAbs_num_mod_den h
  have hfloor := Nat.floor_le h
  have hnext := Nat.lt_floor_add_one q
  have hhalf : 2 * (q.num.natAbs % q.den) ≤ q.den ↔ 2 * (q - ⌊q⌋₊) ≤ 1 := by
    rw [← mul_le_mul_iff_of_pos_right hd, mul_assoc, ← hmod, one_mul]
    exact_mod_cast Iff.rfl
  have hhalf' : q.den ≤ 2 * (q.num.natAbs % q.den) ↔ 1 ≤ 2 * (q - ⌊q⌋₊) := by
    rw [← mul_le_mul_iff_of_pos_right hd, mul_assoc, ← hmod, one_mul]
    exact_mod_cast Iff.rfl
  have hdown (hr : 2 * (q.num.natAbs % q.den) ≤ q.den) : 2 * ((⌊q⌋₊ : Rat) - q) ≤ 1 ∧ 2 * (q - ⌊q⌋₊) ≤ 1 :=
    ⟨by linarith, hhalf.mp hr⟩
  have hup (hr : q.den ≤ 2 * (q.num.natAbs % q.den)) :
      2 * (((⌊q⌋₊ + 1 : Nat) : Rat) - q) ≤ 1 ∧ 2 * (q - (⌊q⌋₊ + 1 : Nat)) ≤ 1 := by
    have := hhalf'.mp hr
    push_cast
    constructor <;> linarith
  simp only [roundNat, natAbs_num_div_den_eq_floor h]
  split
  · exact hdown (by omega)
  split
  · exact hdown (by omega)
  split
  · exact hup (by omega)
  split
  · exact hdown (by omega)
  · exact hup (by omega)

end

end Sys2Proof.Machine
end

section
/-!
SUPPORT. Rounding a magnitude to the precision of a format (spec/05_number_formats.md R127, R128).
-/

namespace Sys2Proof.Machine

/-- The unit in the last place of a magnitude: the spacing of the format around it. -/
def Fmt.ulpExp (F : Fmt) (q : Rat) : Int := max (floorLog2 q) F.eminN - F.f

/-- A magnitude in units of its last place. -/
def Fmt.inUlps (F : Fmt) (q : Rat) : Rat := q * pow2 (-F.ulpExp q)

section
variable (F : Fmt) (m : Rnd) (neg : Bool) (q : Rat)

theorem Fmt.roundMag_eq : F.roundMag m neg q = roundNat m neg (F.inUlps q) * pow2 (F.ulpExp q) := by
  rw [Fmt.roundMag, Rat.mkRat_one]
  rfl

theorem Fmt.inUlps_mul : F.inUlps q * pow2 (F.ulpExp q) = q := by
  rw [Fmt.inUlps, mul_assoc, pow2_mul_pow2_of_add (neg_add_cancel _)]
  simp [pow2_eq_zpow]

variable {q}

theorem Fmt.inUlps_nonneg (h : 0 ≤ q) : 0 ≤ F.inUlps q := mul_nonneg h (pow2_pos _).le

theorem Fmt.floor_mul_ulp_le (h : 0 ≤ q) : ⌊F.inUlps q⌋₊ * pow2 (F.ulpExp q) ≤ q := by
  conv_rhs => rw [← F.inUlps_mul q]
  exact mul_le_mul_of_nonneg_right (Nat.floor_le (F.inUlps_nonneg h)) (pow2_pos _).le

theorem Fmt.lt_floor_mul_ulp_add : q < ⌊F.inUlps q⌋₊ * pow2 (F.ulpExp q) + pow2 (F.ulpExp q) := by
  rw [← add_one_mul]
  conv_lhs => rw [← F.inUlps_mul q]
  exact mul_lt_mul_of_pos_right (Nat.lt_floor_add_one _) (pow2_pos _)

theorem Fmt.le_ceil_mul_ulp : q ≤ ⌈F.inUlps q⌉₊ * pow2 (F.ulpExp q) := by
  conv_lhs => rw [← F.inUlps_mul q]
  exact mul_le_mul_of_nonneg_right (Nat.le_ceil _) (pow2_pos _).le

theorem Fmt.ceil_mul_ulp_lt (h : 0 ≤ q) : ⌈F.inUlps q⌉₊ * pow2 (F.ulpExp q) < q + pow2 (F.ulpExp q) := by
  have := mul_lt_mul_of_pos_right (Nat.ceil_lt_add_one (F.inUlps_nonneg h)) (pow2_pos (F.ulpExp q))
  rwa [add_one_mul, F.inUlps_mul] at this

theorem Fmt.roundMag_rne_near (h : 0 ≤ q) :
    2 * (F.roundMag .rne neg q - q) ≤ pow2 (F.ulpExp q) ∧ 2 * (q - F.roundMag .rne neg q) ≤ pow2 (F.ulpExp q) := by
  obtain ⟨habove, hbelow⟩ := roundNat_rne_near neg (F.inUlps_nonneg h)
  have scale {x : Rat} (hx : x ≤ 1) : x * pow2 (F.ulpExp q) ≤ pow2 (F.ulpExp q) := mul_le_of_le_one_left (pow2_pos _).le hx
  have hq := F.inUlps_mul q
  rw [F.roundMag_eq]
  constructor
  · linarith [scale habove]
  · linarith [scale hbelow]

end

/-- Rounding towards an infinity takes the multiple below or the multiple above, by the sign; the one towards zero the multiple below. -/
theorem roundingDirection : Parts.RoundingDirection := by
  intro F neg q _ hq ulp
  have hfloor := F.floor_mul_ulp_le hq.le
  have hnext := F.lt_floor_mul_ulp_add (q := q)
  have hceil := F.le_ceil_mul_ulp (q := q)
  have hprev := F.ceil_mul_ulp_lt hq.le
  obtain ⟨habove, hbelow⟩ := F.roundMag_rne_near neg hq.le
  have hpos := pow2_pos (F.ulpExp q)
  have hf : ⌊F.inUlps q⌋₊ * pow2 (F.ulpExp q) - q < pow2 (F.ulpExp q) ∧ q - ⌊F.inUlps q⌋₊ * pow2 (F.ulpExp q) < pow2 (F.ulpExp q) := by
    constructor <;> linarith
  have hc : ⌈F.inUlps q⌉₊ * pow2 (F.ulpExp q) - q < pow2 (F.ulpExp q) ∧ q - ⌈F.inUlps q⌉₊ * pow2 (F.ulpExp q) < pow2 (F.ulpExp q) := by
    constructor <;> linarith
  rw [F.roundMag_eq .rtz, F.roundMag_eq .rup, F.roundMag_eq .rdn, roundNat_rtz _ (F.inUlps_nonneg hq.le),
    roundNat_rup _ (F.inUlps_nonneg hq.le), roundNat_rdn _ (F.inUlps_nonneg hq.le)]
  cases neg with
  | false => exact ⟨hfloor, hnext, ⟨hfloor, hceil⟩, hc.1, hc.2, hf.1, hf.2, habove, hbelow⟩
  | true => exact ⟨hfloor, hnext, ⟨hfloor, hceil⟩, hf.1, hf.2, hc.1, hc.2, habove, hbelow⟩

end Sys2Proof.Machine
end

section
/-!
SUPPORT. The numbers that a floating format holds (spec/05_number_formats.md R123, R124): magnitudes rise with their encodings, and encoding a
magnitude and decoding it are inverse.
-/

namespace Sys2Proof.Machine

/-! ### Magnitudes of encodings -/

section
variable (F : Fmt) {a r E : Nat}

theorem Fmt.mag_normal_lt (hE : 0 < E) (hr : r < 2 ^ F.f) :
    F.mag (E * 2 ^ F.f + r) = (2 ^ F.f + r : Nat) * pow2 (E - F.bias - F.f) := by
  have hd : (E * 2 ^ F.f + r) / 2 ^ F.f = E := by
    rw [Nat.add_comm, Nat.add_mul_div_right _ _ (by positivity), Nat.div_eq_of_lt hr, Nat.zero_add]
  have hm : (E * 2 ^ F.f + r) % 2 ^ F.f = r := by rw [Nat.mul_comm, Nat.mul_add_mod, Nat.mod_eq_of_lt hr]
  simp only [Fmt.mag, hd, hm, if_neg hE.ne', Rat.mkRat_one]
  norm_cast

/-- The encodings of one exponent are evenly spaced, up to the first of the next exponent. -/
theorem Fmt.mag_normal (hE : 0 < E) (hr : r ≤ 2 ^ F.f) :
    F.mag (E * 2 ^ F.f + r) = (2 ^ F.f + r : Nat) * pow2 (E - F.bias - F.f) := by
  rcases hr.lt_or_eq with h | rfl
  · exact F.mag_normal_lt hE h
  · have hnext := F.mag_normal_lt (E := E + 1) (r := 0) (by omega) (by positivity)
    rw [Nat.add_zero, Nat.add_one_mul] at hnext
    have he : ((E + 1 : Nat) : Int) - F.bias - F.f = 1 + (E - F.bias - F.f) := by push_cast; ring
    rw [hnext, he, pow2_add]
    simp only [pow2_eq_zpow, zpow_one]
    push_cast
    ring

/-- The subnormal encodings are evenly spaced, up to the smallest normal one. -/
theorem Fmt.mag_subnormal (hr : r ≤ 2 ^ F.f) : F.mag r = r * pow2 (F.eminN - F.f) := by
  rcases hr.lt_or_eq with h | rfl
  · simp only [Fmt.mag, Nat.div_eq_of_lt h, Nat.mod_eq_of_lt h, if_true, Rat.mkRat_one]
    norm_cast
  · have hfirst := F.mag_normal_lt (E := 1) (r := 0) one_pos (by positivity)
    rwa [Nat.add_zero, Nat.one_mul, Nat.add_zero] at hfirst

theorem Fmt.mod_lt (a : Nat) : a % 2 ^ F.f < 2 ^ F.f := Nat.mod_lt _ (by positivity)

/-- A magnitude is a significand of the format's width, in units no finer than the subnormals. -/
theorem Fmt.mag_eq_signif_mul (a : Nat) : ∃ n t, F.mag a = (n : Nat) * pow2 t ∧ n < 2 ^ (F.f + 1) ∧ F.eminN - F.f ≤ t := by
  have hr := F.mod_lt a
  rw [← Nat.div_add_mod' a (2 ^ F.f)]
  rcases Nat.eq_zero_or_pos (a / 2 ^ F.f) with h | h
  · rw [h, Nat.zero_mul, Nat.zero_add]
    exact ⟨_, _, F.mag_subnormal hr.le, by omega, le_refl _⟩
  · exact ⟨_, _, F.mag_normal h hr.le, by omega, by rw [Fmt.eminN]; omega⟩

theorem Fmt.strictMono_mag : StrictMono F.mag := by
  refine strictMono_nat_of_lt_succ fun a => ?_
  have hr := F.mod_lt a
  rw [← Nat.div_add_mod' a (2 ^ F.f)]
  rcases Nat.eq_zero_or_pos (a / 2 ^ F.f) with h | h
  · rw [h, Nat.zero_mul, Nat.zero_add, F.mag_subnormal hr.le, F.mag_subnormal hr]
    exact mul_lt_mul_of_pos_right (Nat.cast_lt.mpr (by omega)) (pow2_pos _)
  · rw [Nat.add_assoc, F.mag_normal h hr.le, F.mag_normal h hr]
    exact mul_lt_mul_of_pos_right (Nat.cast_lt.mpr (by omega)) (pow2_pos _)

theorem Fmt.mag_zero : F.mag 0 = 0 := by simp [F.mag_subnormal (Nat.zero_le _)]

theorem Fmt.mag_pos (h : 0 < a) : 0 < F.mag a := F.mag_zero ▸ F.strictMono_mag h

end

/-! ### Numbers that a format holds -/

/-- A number is a whole count of the format's units around it. -/
def Fmt.Holds (F : Fmt) (q : Rat) : Prop := ∃ n : Nat, q = n * pow2 (F.ulpExp q)

section
variable {F : Fmt} {q : Rat} {a : Nat}

theorem Fmt.Holds.roundMag (h : F.Holds q) (m : Rnd) (neg : Bool) : F.roundMag m neg q = q := by
  obtain ⟨n, hn⟩ := h
  have hu : F.inUlps q = n := by
    rw [Fmt.inUlps]
    conv_lhs => lhs; rw [hn]
    rw [mul_assoc, pow2_mul_pow2_of_add (add_neg_cancel _)]
    simp [pow2_eq_zpow]
  rw [F.roundMag_eq, hu, roundNat_natCast, ← hn]

/-- A number whose significand fits and that lies no finer than the format's subnormals. -/
theorem Fmt.holds_of_signif {n : Nat} {t : Int} (hq : q = n * pow2 t) (hpos : 0 < q) (hn : n < 2 ^ (F.f + 1)) (ht : F.eminN - F.f ≤ t) :
    F.Holds q := by
  have hlog : floorLog2 q < F.f + 1 + t := by
    rw [← lt_pow2_iff hpos, hq]
    exact (units_lt_pow2_iff (by push_cast; ring)).mpr hn
  have hle : F.ulpExp q ≤ t := by
    unfold Fmt.ulpExp
    omega
  refine ⟨n * 2 ^ (t - F.ulpExp q).toNat, ?_⟩
  rw [Nat.cast_mul, ← pow2_natCast, mul_assoc, pow2_mul_pow2_of_add (c := t) (by omega)]
  exact hq

theorem Fmt.holds_mag (h : 0 < a) : F.Holds (F.mag a) := by
  obtain ⟨n, t, hmag, hn, ht⟩ := F.mag_eq_signif_mul a
  exact Fmt.holds_of_signif hmag (F.mag_pos h) hn ht

/-- A whole count of units, read back from the number. -/
theorem natAbs_num_of_units {n : Nat} {t u : Int} (hq : q = n * pow2 t) (hu : t + u = 0) : (q * pow2 u).num.natAbs = n := by
  have h : q * pow2 u = n := by
    rw [hq, mul_assoc, pow2_mul_pow2_of_add hu]
    simp [pow2_eq_zpow]
  rw [h, Rat.num_natCast, Int.natAbs_natCast]

/-- The encoding of a number that the format holds has that number as its magnitude. -/
theorem Fmt.mag_encMag (h : F.Holds q) (hpos : 0 < q) : F.mag (F.encMag q) = q := by
  obtain ⟨n, hn⟩ := h
  by_cases hsub : q < pow2 F.eminN
  · have hlog := (lt_pow2_iff hpos).mp hsub
    have ht : F.ulpExp q = F.eminN - F.f := by rw [Fmt.ulpExp, max_eq_right hlog.le]
    rw [ht] at hn
    have hlt : n < 2 ^ F.f := (units_lt_pow2_iff (by ring)).mp (hn.symm.trans_lt hsub)
    rw [Fmt.encMag, if_pos hsub, natAbs_num_of_units hn (by ring), F.mag_subnormal hlt.le, ← hn]
  · obtain ⟨hle, hlt⟩ := pow2_floorLog2_le_lt hpos
    have hlog := (pow2_le_iff hpos).mp (not_lt.mp hsub)
    have ht : F.ulpExp q = floorLog2 q - F.f := by rw [Fmt.ulpExp, max_eq_left hlog]
    rw [ht] at hn
    have hlow : 2 ^ F.f ≤ n := (pow2_le_units_iff (by ring)).mp (hle.trans_eq hn)
    have hhigh : n < 2 ^ (F.f + 1) := (units_lt_pow2_iff (by push_cast; ring)).mp (hn.symm.trans_lt hlt)
    have he : F.eminN = 1 - F.bias := rfl
    rw [Fmt.encMag, if_neg hsub]
    simp only []
    rw [natAbs_num_of_units hn (by ring), F.mag_normal (by omega) (by omega), show 2 ^ F.f + (n - 2 ^ F.f) = n by omega,
      Int.toNat_of_nonneg (by omega), add_sub_cancel_right, ← hn]

theorem Fmt.encMag_mag (h : 0 < a) : F.encMag (F.mag a) = a :=
  F.strictMono_mag.injective (Fmt.mag_encMag (Fmt.holds_mag h) (F.mag_pos h))

end

end Sys2Proof.Machine
end

section
/-!
SUPPORT. Decoding and encoding a floating format (spec/05_number_formats.md R123 to R125), and RoundFmt on what a format holds (R128).
-/

namespace Sys2Proof.Machine

/-! ### Signs -/

/-- A number with a magnitude and a sign. -/
def signed (neg : Bool) (q : Rat) : Rat := if neg then -q else q

theorem num_signed_neg (neg : Bool) {q : Rat} (h : 0 < q) : (signed neg q).num < 0 ↔ neg = true := by
  rw [Rat.num_neg]
  cases neg
  · simpa [signed] using h.le
  · simpa [signed] using h

theorem ratAbs_signed (neg : Bool) {q : Rat} (h : 0 < q) : ratAbs (signed neg q) = q := by
  rw [ratAbs]
  simp only [num_signed_neg neg h]
  cases neg <;> simp [signed]

section
variable {F : Fmt} {a x : Nat}

theorem Fmt.two_pow_width (F : Fmt) : 2 ^ F.width = 2 * 2 ^ (F.e + F.f) := by rw [Fmt.width, Nat.add_assoc, Nat.add_comm, Nat.pow_succ, Nat.mul_comm]

theorem Fmt.absBits_lt (F : Fmt) (x : Nat) : F.absBits x < 2 ^ (F.e + F.f) := Nat.mod_lt _ (by positivity)

theorem Fmt.withSign_lt (neg : Bool) (h : a < 2 ^ (F.e + F.f)) : F.withSign neg a < 2 ^ F.width := by
  rw [F.two_pow_width, Fmt.withSign]
  split <;> omega

theorem Fmt.absBits_withSign (neg : Bool) (h : a < 2 ^ (F.e + F.f)) : F.absBits (F.withSign neg a) = a := by
  cases neg <;> simp [Fmt.absBits, Fmt.withSign, Nat.mod_eq_of_lt h]

theorem Fmt.sign_withSign (neg : Bool) (h : a < 2 ^ (F.e + F.f)) : F.sign (F.withSign neg a) = neg := by
  cases neg <;> simp [Fmt.sign, Fmt.withSign, Nat.div_eq_of_lt h, Nat.add_div_right]

/-- An encoding is its sign and the rest. -/
theorem Fmt.withSign_sign_absBits (h : x < 2 ^ F.width) : F.withSign (F.sign x) (F.absBits x) = x := by
  have hx := Nat.div_add_mod' x (2 ^ (F.e + F.f))
  have hq : x / 2 ^ (F.e + F.f) < 2 := (Nat.div_lt_iff_lt_mul (by positivity)).mpr (F.two_pow_width ▸ h)
  rcases Nat.lt_succ_iff_lt_or_eq.mp hq with h0 | h1
  · rw [Nat.lt_one_iff.mp h0, Nat.zero_mul, Nat.zero_add] at hx
    simpa [Fmt.withSign, Fmt.sign, Fmt.absBits, Nat.lt_one_iff.mp h0] using hx
  · rw [h1, Nat.one_mul, Nat.add_comm] at hx
    simpa [Fmt.withSign, Fmt.sign, Fmt.absBits, h1] using hx

/-! ### Finite encodings -/

theorem Fmt.emax_mul_add (F : Fmt) : F.emax * 2 ^ F.f + 2 ^ F.f = 2 ^ (F.e + F.f) := by
  rw [← Nat.add_one_mul, Fmt.emax, Nat.sub_add_cancel Nat.one_le_two_pow, pow_add]

theorem Fmt.maxBits_lt (F : Fmt) : F.maxBits < 2 ^ (F.e + F.f) := by
  have hs := F.emax_mul_add
  have := Nat.one_le_two_pow (n := F.f)
  unfold Fmt.maxBits
  split <;> omega

/-- Above the largest finite encoding lie the largest exponent, where that holds infinities and NaNs, or the one NaN (05 R123). -/
theorem Fmt.le_maxBits_iff (h0 : 0 < a) (hlt : a < 2 ^ (F.e + F.f)) :
    a ≤ F.maxBits ↔ if F.hasInf then a / 2 ^ F.f ≠ F.emax else a ≠ 2 ^ (F.e + F.f) - 1 := by
  have hs := F.emax_mul_add
  unfold Fmt.maxBits
  cases F.hasInf with
  | true =>
    have hle : a / 2 ^ F.f < F.emax + 1 := by
      rw [Nat.div_lt_iff_lt_mul (by positivity), Nat.add_one_mul, hs]
      exact hlt
    have hdiv : a / 2 ^ F.f < F.emax ↔ a < F.emax * 2 ^ F.f := Nat.div_lt_iff_lt_mul (by positivity)
    simp only [if_true]
    omega
  | false =>
    simp only [Bool.false_eq_true, if_false]
    omega

/-- A finite encoding other than a zero decodes to its magnitude with its sign. -/
theorem Fmt.dec_of_le_maxBits (h0 : 0 < F.absBits x) (hm : F.absBits x ≤ F.maxBits) :
    F.dec x = .num (signed (F.sign x) (F.mag (F.absBits x))) := by
  rw [Fmt.le_maxBits_iff h0 (F.absBits_lt x)] at hm
  cases hi : F.hasInf <;> simp_all [Fmt.dec, signed, h0.ne']

/-- What an encoding decodes to (05 R123): a zero, a number, an infinity or a NaN. -/
theorem Fmt.dec_cases (F : Fmt) (x : Nat) :
    (F.absBits x = 0 ∧ F.dec x = .zero (F.sign x)) ∨
    (0 < F.absBits x ∧ F.absBits x ≤ F.maxBits ∧ F.dec x = .num (signed (F.sign x) (F.mag (F.absBits x)))) ∨
    (F.hasInf = true ∧ F.absBits x = F.infBits ∧ F.dec x = .inf (F.sign x)) ∨ ∃ sig, F.dec x = .nan sig := by
  rcases Nat.eq_zero_or_pos (F.absBits x) with h0 | h0
  · exact .inl ⟨h0, by simp [Fmt.dec, h0]⟩
  by_cases hm : F.absBits x ≤ F.maxBits
  · exact .inr (.inl ⟨h0, hm, Fmt.dec_of_le_maxBits h0 hm⟩)
  rw [Fmt.le_maxBits_iff h0 (F.absBits_lt x)] at hm
  cases hi : F.hasInf with
  | false =>
    rw [hi, if_neg Bool.false_ne_true, not_not] at hm
    exact .inr (.inr (.inr ⟨false, by rw [Fmt.dec]; simp only [hi, h0.ne', hm.symm, if_false, Bool.false_eq_true, if_true]⟩))
  | true =>
    rw [hi, if_pos rfl, not_not] at hm
    by_cases hf : F.absBits x % 2 ^ F.f = 0
    · have hdiv := Nat.div_add_mod' (F.absBits x) (2 ^ F.f)
      rw [hm, hf, Nat.add_zero] at hdiv
      exact .inr (.inr (.inl ⟨rfl, by rw [Fmt.infBits, if_pos hi, hdiv], by simp [Fmt.dec, hi, h0.ne', hm, hf]⟩))
    · exact .inr (.inr (.inr ⟨_, by rw [Fmt.dec]; simp only [hi, h0.ne', hm, hf, if_false, if_true]; rfl⟩))

theorem Fmt.dec_withSign (neg : Bool) (h0 : 0 < a) (hm : a ≤ F.maxBits) : F.dec (F.withSign neg a) = .num (signed neg (F.mag a)) := by
  have hlt := hm.trans_lt F.maxBits_lt
  have habs := Fmt.absBits_withSign neg hlt
  rw [Fmt.dec_of_le_maxBits (by rwa [habs]) (by rwa [habs]), habs, Fmt.sign_withSign neg hlt]

/-! ### What a format holds -/

theorem Fmt.mag_le_maxQ (h : a ≤ F.maxBits) : F.mag a ≤ F.maxQ := F.strictMono_mag.monotone h

theorem Fmt.enc_signed (neg : Bool) {q : Rat} (h : 0 < q) : F.enc (.num (signed neg q)) = F.withSign neg (F.encMag q) := by
  simp only [Fmt.enc, num_signed_neg neg h, ratAbs_signed neg h, Bool.decide_eq_true]

/-- A number that a finite encoding holds rounds to that encoding, without a flag. -/
theorem roundFmt_mag (m : Rnd) (sat neg : Bool) (h0 : 0 < a) (hm : a ≤ F.maxBits) :
    roundFmt F m sat (.num (signed neg (F.mag a))) = (F.withSign neg a, 0) := by
  have hpos := F.mag_pos h0
  simp only [roundFmt, num_signed_neg neg hpos, ratAbs_signed neg hpos, (Fmt.holds_mag h0).roundMag, if_neg (Fmt.mag_le_maxQ hm).not_gt,
    Rat.num_eq_zero, hpos.ne', if_false, if_true, Fmt.encMag_mag h0, Bool.decide_eq_true]

/-- A format holds the numbers of another: no fewer digits, subnormals no coarser, a largest value no smaller. -/
def Fmt.Contains (F G : Fmt) : Prop := G.f ≤ F.f ∧ F.eminN - F.f ≤ G.eminN - G.f ∧ G.maxQ ≤ F.maxQ

variable {G : Fmt}

theorem Fmt.Contains.holds_mag (h : F.Contains G) (h0 : 0 < a) : F.Holds (G.mag a) := by
  obtain ⟨hf, he, -⟩ := h
  obtain ⟨n, t, hmag, hn, ht⟩ := G.mag_eq_signif_mul a
  exact Fmt.holds_of_signif hmag (G.mag_pos h0) (hn.trans_le (Nat.pow_le_pow_right two_pos (by omega))) (by omega)

/-- A number of the contained format is encoded exactly: the encoding is finite and has the same magnitude. -/
theorem Fmt.Contains.encMag_mag (h : F.Contains G) (h0 : 0 < a) (hm : a ≤ G.maxBits) :
    F.mag (F.encMag (G.mag a)) = G.mag a ∧ 0 < F.encMag (G.mag a) ∧ F.encMag (G.mag a) ≤ F.maxBits := by
  have hpos := G.mag_pos h0
  have hmag := Fmt.mag_encMag (h.holds_mag h0) hpos
  obtain ⟨-, -, hmax⟩ := h
  refine ⟨hmag, Nat.pos_of_ne_zero fun hz => ?_, F.strictMono_mag.le_iff_le.mp ?_⟩
  · rw [hz, F.mag_zero] at hmag
    exact hpos.ne hmag
  · rw [hmag]
    exact (Fmt.mag_le_maxQ hm).trans hmax

end

/-- Every encoding is its own sign and magnitude, and rounding gives both back. -/
theorem roundingKeepsExactValues : Parts.RoundingKeepsExactValues := by
  intro F m sat x _ hx
  have hself := Fmt.withSign_sign_absBits hx
  rcases F.dec_cases x with ⟨h0, hd⟩ | ⟨h0, hm, hd⟩ | ⟨hi, ha, hd⟩ | ⟨sig, hd⟩ <;> rw [hd]
  · rw [h0] at hself
    exact congrArg (·, 0) hself
  · exact (roundFmt_mag m sat _ h0 hm).trans (congrArg (·, 0) hself)
  · rw [ha] at hself
    exact ⟨by simp [roundFmt, hi, hself], rfl⟩
  · rfl

/-! ### Widening to FP32 -/

theorem f32_specials : Fmt.f32.dec Fmt.f32.nanBits = .nan false ∧
    ∀ neg, Fmt.f32.dec (Fmt.f32.withSign neg 0) = .zero neg ∧ Fmt.f32.dec (Fmt.f32.withSign neg Fmt.f32.infBits) = .inf neg := by
  decide +kernel

/-- FP32 contains every format. -/
theorem f32_contains {t : Ty} {G : Fmt} (hG : Fmt.ofTy t = some G) : Fmt.f32.Contains G := by
  unfold Fmt.Contains
  cases t <;> cases hG <;> decide +kernel

/-- An encoding of a format that FP32 contains, encoded in FP32, decodes to the same value; a NaN to the canonical one. -/
theorem f32_dec_enc {G : Fmt} (h : Fmt.f32.Contains G) (x : Nat) :
    Fmt.f32.enc (G.dec x) < 2 ^ 32 ∧ Fmt.f32.dec (Fmt.f32.enc (G.dec x)) = if (G.dec x).isNan then .nan false else G.dec x := by
  obtain ⟨hnan, hsigns⟩ := f32_specials
  have hlt (neg : Bool) {a : Nat} (ha : a < 2 ^ 31) : Fmt.f32.withSign neg a < 2 ^ 32 := Fmt.withSign_lt neg ha
  rcases G.dec_cases x with ⟨-, hd⟩ | ⟨h0, hm, hd⟩ | ⟨-, -, hd⟩ | ⟨sig, hd⟩ <;> rw [hd]
  · exact ⟨hlt _ (by decide), (hsigns _).1⟩
  · obtain ⟨hmag, hpos, hmax⟩ := h.encMag_mag h0 hm
    rw [Fmt.enc_signed _ (G.mag_pos h0)]
    refine ⟨hlt _ (hmax.trans_lt Fmt.f32.maxBits_lt), ?_⟩
    rw [Fmt.dec_withSign _ hpos hmax, hmag]
    rfl
  · exact ⟨hlt _ (by decide), (hsigns _).2⟩
  · exact ⟨(by decide : Fmt.f32.nanBits < 2 ^ 32), hnan⟩

theorem wideningIsExact : Parts.WideningIsExact := by
  intro t F x hF _
  dsimp only
  set v := F.dec (x.setWidth t.width).toNat with hv
  obtain ⟨hlt, hdec⟩ := f32_dec_enc (f32_contains hF) (x.setWidth t.width).toNat
  rw [← hv] at hlt hdec
  have hw : widenElem t x = (BitVec.ofNat 64 (Fmt.f32.enc v), flagIf v.isSig flagNV) := by simp only [widenElem, hF, hv]
  have hto : (widenElem t x).1.toNat = Fmt.f32.enc v := by
    rw [hw]
    exact Nat.mod_eq_of_lt (hlt.trans (by decide))
  refine ⟨hto ▸ hlt, by rw [hw], hto ▸ hdec, fun hnan => ?_⟩
  obtain ⟨sig, hsig⟩ : ∃ sig, v = .nan sig := by
    revert hnan
    cases v <;> simp [XR.isNan]
  rw [hw, hsig]
  rfl

end Sys2Proof.Machine
end

section
namespace Sys2Proof.Machine

/-- Settles O9: what a format holds rounds to itself, any magnitude rounds in the direction of its mode, and FP32 holds what it widens. -/
theorem roundingIsExact : Obligations.RoundingIsExact := ⟨roundingKeepsExactValues, roundingDirection, wideningIsExact⟩

end Sys2Proof.Machine
end

section
/-!
SUPPORT. Arithmetic forms (spec/06_isa_arithmetic.md R144, R145): a form computes any results that equal the model's on the operands its row accepts.
-/

namespace Sys2Proof.Machine

/-- A form that executes is well formed, so its results need only agree where its fields are accepted. -/
theorem computes_of_out {i : Instr} {f : Full} {r : Raw} {wide : Bool} {pd : Option Nat} {out out' : State → Nat → AluOut}
    (hx : ∀ s, exec i s = s.issue i f fun s => s.alu f wide pd (out s)) (hr : rawOf i = some (f, r))
    (hd : (shapeOf i).d = .dst wide ∨ (shapeOf i).d = .raw) (hp : ∀ p, pd = some p → fieldsOk i = true → p < 7)
    (ho : fieldsOk i = true → ∀ s l, out s l = out' s l) : Computes i f wide pd out' := by
  intro s he
  have hok := (Instr.wf_full hr ((State.executes_iff s i f).mp he).1).2
  obtain rfl : out = out' := funext fun s => funext fun l => ho hok s l
  exact computes_of_alu hx hr hd (fun p h hw => hp p h (Instr.wf_full hr hw).2) s he

/-- A form without a predicate destination. -/
theorem computes_result {i : Instr} {f : Full} {r : Raw} {wide : Bool} {out out' : State → Nat → AluOut}
    (hx : ∀ s, exec i s = s.issue i f fun s => s.alu f wide none (out s)) (hr : rawOf i = some (f, r))
    (hd : (shapeOf i).d = .dst wide) (ho : fieldsOk i = true → ∀ s l, out s l = out' s l) : Computes i f wide none out' :=
  computes_of_out hx hr (.inl hd) nofun ho

/-- A predicate destination that a form's fields accept is not p7. -/
theorem lt_seven_of_predDst {p : Fin 8} {q : Nat} {b : Bool} (hq : some p.val = some q) (hok : (b && p.val != 7) = true) : q < 7 := by
  obtain ⟨-, hp⟩ : b = true ∧ p.val ≠ 7 := by simpa using hok
  cases hq
  omega

theorem AluRow.ty_mem {x : AluRow} {m : AluMod} (h : x.accepts m = true) : m.ty ∈ x.types := by
  simp only [AluRow.accepts, Bool.and_eq_true, List.contains_iff_mem] at h
  obtain ⟨⟨⟨hty, -⟩, -⟩, -⟩ := h
  exact hty

end Sys2Proof.Machine
end

section
/-!
SUPPORT. The integer forms (spec/06_isa_arithmetic.md R149): exact integers of a type and their low bits.
-/

namespace Sys2Proof.Machine

/-! ### Exact integers and low bits -/

theorem ofInt_intOf (t : Ty) (x : W64) : BitVec.ofInt t.width (intOf t x) = x.setWidth t.width := by
  unfold intOf
  split
  · exact BitVec.ofInt_toInt
  · rw [BitVec.ofInt_natCast, BitVec.ofNat_toNat, BitVec.setWidth_eq]

theorem clampInt_eq {lo hi : Int} (h : lo ≤ hi) (v : Int) : clampInt lo hi v = max lo (min hi v) := by
  unfold clampInt
  split
  · omega
  · split <;> omega

theorem intMin_le_intMax (t : Ty) : intMin t ≤ intMax t := by cases t <;> decide

theorem satInt_eq (t : Ty) (v : Int) : satInt t v =
    (max (intMin t) (min (intMax t) v), flagIf (max (intMin t) (min (intMax t) v) ≠ v) flagSAT) := by
  rw [satInt, clampInt_eq (intMin_le_intMax t)]
  exact congrArg (fun b => (_, flagIf b flagSAT)) (decide_not ..).symm

/-- Fit of R149: the exact value clamped, or its low bits. -/
theorem of_fitInt {t : Ty} {sat : Bool} {v : Int} {x : BitVec t.width} (h : BitVec.ofInt t.width v = x) :
    AluOut.of (fitInt t sat v) = if sat then clamped t v else bitsOut x := by
  subst h
  cases sat with
  | false => rfl
  | true => simp [fitInt, satInt_eq, AluOut.of, clamped, flagIf]

theorem ofInt_intOf_n32 (x : W64) : BitVec.ofInt 64 (intOf .n32 x) = (x.setWidth 32).setWidth 64 :=
  (BitVec.ofInt_natCast ..).trans (BitVec.ofNat_toNat ..)

/-- The product of two sources of 32 bits, whole. -/
theorem ofInt_mul_intOf {t : Ty} (ht : t ∈ [Ty.i32, .n32]) (a b : W64) : BitVec.ofInt 64 (intOf t a * intOf t b) =
    if t = .i32 then (a.setWidth 32).signExtend 64 * (b.setWidth 32).signExtend 64
    else (a.setWidth 32).setWidth 64 * (b.setWidth 32).setWidth 64 := by
  rw [BitVec.ofInt_mul]
  simp only [List.mem_cons, List.not_mem_nil, or_false] at ht
  rcases ht with rfl | rfl
  · rfl
  · rw [if_neg (by decide)]
    exact congrArg₂ (· * ·) (ofInt_intOf_n32 a) (ofInt_intOf_n32 b)

/-- The high word of a product. -/
theorem shiftRight_32 (x : W64) : x >>> 32 = (x.extractLsb' 32 32).setWidth 64 := by
  apply BitVec.eq_of_toNat_eq
  simp only [BitVec.toNat_ushiftRight, BitVec.toNat_setWidth, BitVec.extractLsb'_toNat, Nat.shiftRight_eq_div_pow]
  omega

theorem ofInt_natAbs {t : Ty} (ht : t.signed = true) (x : W64) : BitVec.ofInt t.width (intOf t x).natAbs =
    if (x.setWidth t.width).msb && t.signed then -x.setWidth t.width else x.setWidth t.width := by
  rw [intOf, if_pos ht, ht, Bool.and_true, BitVec.msb_eq_toInt, Int.natCast_natAbs]
  split
  · next h => rw [abs_of_neg (of_decide_eq_true h), BitVec.ofInt_neg, BitVec.ofInt_toInt]
  · next h => rw [abs_of_nonneg (not_lt.mp (of_decide_eq_false (eq_false_of_ne_true h))), BitVec.ofInt_toInt]

/-- Equal integers have equal low bits. -/
theorem setWidth_eq_of_intOf_eq {t : Ty} {x y : W64} (h : intOf t x = intOf t y) : x.setWidth t.width = y.setWidth t.width := by
  rw [← ofInt_intOf, h, ofInt_intOf]

/-- The lesser of two sources; equal ones have the same bits. -/
theorem opImin_eq (t : Ty) (a b : W64) :
    opImin t a b = (if intOf t b < intOf t a then b.setWidth t.width else a.setWidth t.width).setWidth 64 := by
  unfold opImin
  rcases lt_or_ge (intOf t b) (intOf t a) with h | h
  · rw [if_neg h.not_ge, if_pos h]
  · rw [if_pos h, if_neg h.not_gt]

theorem opImax_eq (t : Ty) (a b : W64) :
    opImax t a b = (if intOf t a < intOf t b then b.setWidth t.width else a.setWidth t.width).setWidth 64 := by
  unfold opImax
  rcases lt_trichotomy (intOf t a) (intOf t b) with hlt | heq | hgt
  · rw [if_pos hlt.le, if_pos hlt]
  · rw [if_pos heq.le, if_neg heq.not_lt, setWidth_eq_of_intOf_eq heq]
  · rw [if_neg hgt.not_ge, if_neg hgt.not_gt]

theorem signed_of_mem : ∀ t ∈ [Ty.i32, .i64], t.signed = true := by decide

theorem wideTy_32 : ∀ t ∈ [Ty.i32, .n32], wideTy t = false := by decide

theorem State.src_of_narrow {t : Ty} (h : wideTy t = false) (s : State) (f : Full) (x : Operand) (l : Nat) :
    s.src f x false l = s.src f x (wideTy t) l := by rw [h]

/-! ### Sum with carry, difference with borrow -/

theorem opIaddc_eq (a b c : W64) : opIaddc a b c =
    (let t := (a.setWidth 32).toNat + (b.setWidth 32).toNat + c.toNat % 2
     ⟨BitVec.ofNat 64 (t % 2 ^ 32), 0, decide (2 ^ 32 ≤ t)⟩) := by
  have hc : (c.setWidth 1).toNat = c.toNat % 2 := BitVec.toNat_setWidth 1 c
  have hv (t : Nat) : (BitVec.ofNat 32 t).setWidth 64 = BitVec.ofNat 64 (t % 2 ^ 32) := BitVec.eq_of_toNat_eq (by simp)
  rw [opIaddc, hc, hv]

theorem opIsubb_eq (a b c : W64) : opIsubb a b c =
    (let a := (a.setWidth 32).toNat
     let b := (b.setWidth 32).toNat + c.toNat % 2
     ⟨BitVec.ofNat 64 ((a + 2 ^ 33 - b) % 2 ^ 32), 0, decide (a < b)⟩) := by
  have hc : (c.setWidth 1).toNat = c.toNat % 2 := BitVec.toNat_setWidth 1 c
  have hb := (b.setWidth 32).isLt
  simp only [opIsubb, hc]
  generalize (a.setWidth 32).toNat = x at *
  generalize (b.setWidth 32).toNat = y at *
  congr 1
  · exact BitVec.eq_of_toNat_eq (by simp; omega)
  · exact decide_eq_decide.mpr (by omega)

/-- The predicate that takes a carry is none where MOD[9:7] is 7, and else one of seven. -/
theorem carryDst_eq (v : BitVec 3) : (if v = 7 then none else some v.toNat) = if v == 7 then none else some v.toNat := by
  simp

theorem lt_seven_of_carryDst {v : BitVec 3} {p : Nat} (h : (if v == 7 then none else some v.toNat) = some p) : p < 7 := by
  split at h
  · cases h
  · next hv =>
    have : v.toNat ≠ 7 := fun e => hv (beq_iff_eq.mpr (BitVec.eq_of_toNat_eq e))
    simp only [Option.some.injEq] at h
    omega

end Sys2Proof.Machine
end

section
namespace Sys2Proof.Machine

/-- Settles O1: low bits commute with the exact operations, and a narrow form reads its sources at the width of its type. -/
theorem integerArithmeticResults : Obligations.IntegerArithmeticResults := by
  intro f m
  rw [carryDst_eq]
  refine ⟨?iadd, ?isub, ?iaddc, ?isubb, ?imul, ?imulhi, ?imad, ?imadw, ?iabs, ?ineg, ?imin, ?imax⟩
  case iadd =>
    refine computes_result (fun _ => rfl) rfl rfl fun _ s l => of_fitInt ?_
    rw [BitVec.ofInt_add, ofInt_intOf, ofInt_intOf]
    rfl
  case isub =>
    refine computes_result (fun _ => rfl) rfl rfl fun _ s l => of_fitInt ?_
    rw [Int.sub_eq_add_neg, BitVec.ofInt_add, BitVec.ofInt_neg, ofInt_intOf, ofInt_intOf]
    exact (BitVec.sub_eq_add_neg _ _).symm
  case iaddc =>
    exact computes_of_out (fun _ => rfl) rfl (.inl rfl) (fun p h _ => lt_seven_of_carryDst h) (fun _ s l => opIaddc_eq ..)
  case isubb =>
    exact computes_of_out (fun _ => rfl) rfl (.inl rfl) (fun p h _ => lt_seven_of_carryDst h) (fun _ s l => opIsubb_eq ..)
  case imul =>
    refine computes_result (fun _ => rfl) rfl rfl fun hok s l => ?_
    simp only [s.src_of_narrow (wideTy_32 _ (AluRow.ty_mem hok))]
    refine of_fitInt ?_
    rw [BitVec.ofInt_mul, ofInt_intOf, ofInt_intOf]
    rfl
  case imad =>
    refine computes_result (fun _ => rfl) rfl rfl fun hok s l => ?_
    simp only [s.src_of_narrow (wideTy_32 _ (AluRow.ty_mem hok))]
    refine of_fitInt ?_
    rw [BitVec.ofInt_add, BitVec.ofInt_mul, ofInt_intOf, ofInt_intOf, ofInt_intOf]
    rfl
  case imulhi =>
    refine computes_result (fun _ => rfl) rfl rfl fun hok s l => ?_
    rw [opImulhi, shiftRight_32, ofInt_mul_intOf (AluRow.ty_mem hok)]
    split <;> rfl
  case imadw =>
    refine computes_result (fun _ => rfl) rfl rfl fun hok s l => ?_
    rw [opImadw, ofInt_mul_intOf (AluRow.ty_mem hok)]
    exact congrArg AluOut.pure (BitVec.setWidth_eq _).symm
  case iabs =>
    refine computes_result (fun _ => rfl) rfl rfl fun hok s l => ?_
    refine (of_fitInt (ofInt_natAbs (signed_of_mem _ (AluRow.ty_mem hok)) _)).trans ?_
    rw [Int.natCast_natAbs]
    rfl
  case ineg =>
    refine computes_result (fun _ => rfl) rfl rfl fun _ s l => of_fitInt ?_
    rw [BitVec.ofInt_neg, ofInt_intOf]
    rfl
  case imin => exact computes_result (fun _ => rfl) rfl rfl fun _ s l => congrArg AluOut.pure (opImin_eq ..)
  case imax => exact computes_result (fun _ => rfl) rfl rfl fun _ s l => congrArg AluOut.pure (opImax_eq ..)

end Sys2Proof.Machine
end

section
/-!
SUPPORT. Shifts, bit fields, counts and byte mixes (spec/06_isa_arithmetic.md R149), bit by bit.
-/

namespace Sys2Proof.Machine

/-! ### A word given by its bits -/

theorem eq_ofFnLE {w : Nat} {x : BitVec w} {p : Fin w → Bool} (h : ∀ i : Fin w, x.getLsbD i = p i) : x = BitVec.ofFnLE p :=
  BitVec.eq_of_getLsbD_eq fun i hi => by rw [BitVec.getLsbD_ofFnLE, dif_pos hi]; exact h ⟨i, hi⟩

/-- A word gathered from the places of a range that a property selects. -/
theorem getLsbD_foldl_setBit {w : Nat} (p : Nat → Bool) (n : Nat) {k : Nat} (hk : k < w) :
    ((List.range n).foldl (fun acc i => if p i then acc ||| (1#w <<< i) else acc) 0).getLsbD k = (decide (k < n) && p k) := by
  induction n with
  | zero => simp
  | succ n ih =>
    rw [List.range_succ, List.foldl_append, List.foldl_cons, List.foldl_nil]
    have hbit : (1#w <<< n).getLsbD k = decide (k = n) := by
      simp only [BitVec.getLsbD_shiftLeft, BitVec.getLsbD_one, hk]
      grind
    have hp : k = n → p k = p n := fun h => h ▸ rfl
    split
    · rw [BitVec.getLsbD_or, ih, hbit]
      grind
    · rw [ih]
      grind

theorem opTlog_eq (tab : W8) (a b c : W32) : opTlog tab a b c = BitVec.ofFnLE fun i : Fin 32 =>
    tab.getLsbD ((a.getLsbD i).toNat + 2 * (b.getLsbD i).toNat + 4 * (c.getLsbD i).toNat) :=
  eq_ofFnLE fun i => by
    rw [opTlog, getLsbD_foldl_setBit _ _ i.isLt]
    simp

theorem getLsbD_revBits (n : Nat) (a : W64) {k : Nat} (hk : k < 64) :
    (revBits n a).getLsbD k = (decide (k < n) && a.getLsbD (n - 1 - k)) :=
  getLsbD_foldl_setBit (fun i => a.getLsbD (n - 1 - i)) n hk

/-! ### Shifts and bit fields -/

/-- A funnel shift reads its bits from the two sources side by side. -/
theorem opFsh_eq (left : Bool) (a b : W32) (c : W64) : opFsh left a b c =
    (let n := c.toNat % 32
     BitVec.ofFnLE fun i : Fin 32 =>
      let j := if left then i + 32 - n else i + n
      if j < 32 then a.getLsbD j else b.getLsbD (j - 32)) := by
  refine eq_ofFnLE fun i => ?_
  have hn : c.toNat % 32 < 32 := Nat.mod_lt _ (by decide)
  unfold opFsh
  cases left with
  | true =>
    simp only [if_true, BitVec.getLsbD_extractLsb', BitVec.getLsbD_shiftLeft, BitVec.getLsbD_append]
    grind
  | false =>
    simp only [Bool.false_eq_true, if_false, BitVec.getLsbD_setWidth, BitVec.getLsbD_ushiftRight, BitVec.getLsbD_append]
    grind

/-- A field is cut off at bit 31, and a signed one copies its last bit upwards. -/
theorem opBfe_eq {t : Ty} (ht : t ∈ [Ty.i32, .n32]) (a : W32) (b : W64) : opBfe t a b =
    (let pos := b.toNat % 256
     let len := b.toNat / 256 % 256
     let n := min len (32 - pos)
     BitVec.ofFnLE fun i : Fin 32 =>
        if n = 0 then false
        else if i < n then a.getLsbD (pos + i)
        else t = .i32 && a.getLsbD (pos + n - 1)) := by
  refine eq_ofFnLE fun i => ?_
  have hs : t.signed = decide (t = .i32) := by
    simp only [List.mem_cons, List.not_mem_nil, or_false] at ht
    rcases ht with rfl | rfl <;> rfl
  unfold opBfe
  dsimp only
  generalize b.toNat % 256 = pos
  generalize b.toNat / 256 % 256 = len
  split
  · rw [if_pos (by omega)]
    simp
  · have hn : min len (32 - pos) ≠ 0 := by omega
    rw [show min (pos + len) 32 - pos = min len (32 - pos) by omega, hs]
    generalize min len (32 - pos) = n at hn
    rw [if_neg hn]
    have hmsb : (a.extractLsb' pos n).msb = a.getLsbD (pos + n - 1) := by
      rw [BitVec.msb_eq_getLsbD_last, BitVec.getLsbD_extractLsb', decide_eq_true (by omega), Bool.true_and, Nat.add_sub_assoc (by omega)]
    split
    · next h =>
      rw [BitVec.getLsbD_signExtend, hmsb, decide_eq_true i.isLt, Bool.true_and, h, Bool.true_and]
      split
      · next hi => rw [BitVec.getLsbD_extractLsb', decide_eq_true hi, Bool.true_and]
      · rfl
    · next h => simp [h]

/-- The mask of an insertion covers the places from `pos` up to its length, as far as the word goes. -/
theorem opBfi_eq (a b : W32) (c : W64) : opBfi a b c =
    (let pos := c.toNat % 256
     let len := c.toNat / 256 % 256
     BitVec.ofFnLE fun i : Fin 32 => if pos ≤ i ∧ i < pos + len then b.getLsbD (i - pos) else a.getLsbD i) := by
  refine eq_ofFnLE fun i => ?_
  unfold opBfi
  dsimp only
  generalize c.toNat % 256 = pos
  generalize c.toNat / 256 % 256 = len
  split
  · rw [if_neg (by omega)]
  · simp only [BitVec.getLsbD_or, BitVec.getLsbD_and, BitVec.getLsbD_not, BitVec.getLsbD_shiftLeft, BitVec.getLsbD_ushiftRight,
      BitVec.getLsbD_allOnes]
    grind

/-! ### Counts -/

/-- The leading places of a range at which a property fails. -/
theorem length_takeWhile_not {p : Nat → Bool} {n m : Nat} (hn : n ≤ m) (hlow : ∀ i < n, p i = false) (hat : n < m → p n = true) :
    (((List.range m).map p).takeWhile (! ·)).length = n := by
  obtain ⟨k, rfl⟩ := Nat.exists_eq_add_of_le hn
  rw [List.range_add, List.map_append, List.takeWhile_append_of_pos (by simpa using hlow)]
  cases k with
  | zero => simp
  | succ k => simp [List.range_succ_eq_map, hat]

/-- The highest bit set lies at the binary logarithm. -/
theorem opClz_eq (t : Ty) (a : W64) : opClz t a = BitVec.ofNat 64
    (((List.range t.width).map fun i => (a.setWidth t.width).getLsbD (t.width - 1 - i)).takeWhile (! ·)).length := by
  unfold opClz
  dsimp only
  generalize a.setWidth t.width = x
  refine congrArg _ (Eq.symm ?_)
  split
  · next h =>
    obtain rfl : x = 0 := BitVec.eq_of_toNat_eq h
    exact length_takeWhile_not le_rfl (by simp) (by simp)
  · next h =>
    have hlt := (Nat.log2_lt h).mpr x.isLt
    refine length_takeWhile_not (by omega) (fun i hi => ?_) (fun _ => ?_)
    · exact Nat.testBit_lt_two_pow (Nat.lt_log2_self.trans_le (Nat.pow_le_pow_right two_pos (by omega)))
    · rw [show t.width - 1 - (t.width - 1 - x.toNat.log2) = x.toNat.log2 by omega]
      exact Nat.testBit_log2 h

/-! ### Reversal and byte mixes -/

/-- The low bits in reverse order, and zeros above them. -/
theorem opBrev_eq (t : Ty) (a : W64) : opBrev t a =
    (BitVec.ofFnLE fun i : Fin t.width => (a.setWidth t.width).getLsbD (t.width - 1 - i)).setWidth 64 := by
  refine BitVec.eq_of_getLsbD_eq fun k hk => ?_
  rw [opBrev, getLsbD_revBits _ _ hk, BitVec.getLsbD_setWidth, BitVec.getLsbD_ofFnLE]
  split
  · next h =>
    rw [decide_eq_true h, decide_eq_true hk, BitVec.getLsbD_setWidth, decide_eq_true (p := _ < t.width) (by omega)]
    simp
  · next h => rw [decide_eq_false h, Bool.false_and, Bool.and_false]

/-- A control byte reverses, then spreads the sign, then clears, so the later steps take precedence. -/
theorem bmixByte_eq (x : W64) (k : W8) : bmixByte x k = mixedByte x k := by
  have hy : x.extractLsb' (8 * (k.setWidth 3).toNat) 8 = BitVec.ofNat 8 (x.toNat / 2 ^ (8 * (k.toNat % 8))) :=
    BitVec.eq_of_toNat_eq (by simp [Nat.shiftRight_eq_div_pow])
  unfold bmixByte mixedByte
  dsimp only
  rw [hy]
  generalize BitVec.ofNat 8 _ = y
  have hrev : (revBits 8 (y.setWidth 64)).setWidth 8 = BitVec.ofFnLE fun i : Fin 8 => y.getLsbD (7 - i) :=
    eq_ofFnLE fun i => by
      rw [BitVec.getLsbD_setWidth, getLsbD_revBits _ _ (by omega), BitVec.getLsbD_setWidth, decide_eq_true (p := _ < 64) (by omega)]
      simp
  rw [hrev]
  cases k.getLsbD 5 with
  | false => rfl
  | true => simp

end Sys2Proof.Machine
end

section
namespace Sys2Proof.Machine

theorem logicAndSelectionResults : Parts.LogicAndSelectionResults := by
  intro f m p tab
  refine ⟨?icmp, ?isel, ?and, ?or, ?xor, ?andn, ?tlog⟩
  case icmp =>
    refine computes_of_out (fun _ => rfl) rfl (.inr rfl) (fun _ => lt_seven_of_predDst) fun _ s l => congrArg (AluOut.mk 0 0) ?_
    generalize m.var.toNat = cc
    match cc with
    | 0 | 2 | 3 | 4 | _ + 5 => rfl
    | 1 => exact (decide_not ..).symm
  case isel =>
    refine computes_result (fun _ => rfl) rfl rfl fun _ s l => ?_
    rw [opIsel, Bool.bne_eq_xor]
  case and | or | xor | andn => exact computes_result (fun _ => rfl) rfl rfl fun _ _ _ => rfl
  case tlog => exact computes_result (fun _ => rfl) rfl rfl fun _ _ _ => congrArg bitsOut (opTlog_eq ..)

theorem shiftAndBitFieldResults : Parts.ShiftAndBitFieldResults := by
  intro f m
  refine ⟨?shl, ?shr, ?sar, ?fsh, ?bfe, ?bfi, ?popc, ?clz, ?brev, ?bmix⟩
  case shl | shr | sar => exact computes_result (fun _ => rfl) rfl rfl fun _ _ _ => rfl
  case fsh => exact computes_result (fun _ => rfl) rfl rfl fun _ _ _ => congrArg bitsOut (opFsh_eq ..)
  case bfe => exact computes_result (fun _ => rfl) rfl rfl fun hok _ _ => congrArg bitsOut (opBfe_eq (AluRow.ty_mem hok) ..)
  case bfi => exact computes_result (fun _ => rfl) rfl rfl fun _ _ _ => congrArg bitsOut (opBfi_eq ..)
  case popc =>
    refine computes_result (fun _ => rfl) rfl rfl fun _ _ _ => ?_
    rw [opPopc, List.countP_eq_length_filter]
  case clz => exact computes_result (fun _ => rfl) rfl rfl fun _ _ _ => congrArg AluOut.pure (opClz_eq ..)
  case brev => exact computes_result (fun _ => rfl) rfl rfl fun _ _ _ => congrArg AluOut.pure (opBrev_eq ..)
  case bmix =>
    refine computes_result (fun _ => rfl) rfl rfl fun _ _ _ => congrArg bitsOut ?_
    rw [opBmix, bmixByte_eq, bmixByte_eq, bmixByte_eq, bmixByte_eq]

/-- Settles O2: comparison, selection and bitwise forms, then shifts, bit fields, counts and byte mixes. -/
theorem logicShiftSelectResults : Obligations.LogicShiftSelectResults := ⟨logicAndSelectionResults, shiftAndBitFieldResults⟩

end Sys2Proof.Machine
end

section
/-!
SUPPORT. Floating sources and packed halves (spec/05_number_formats.md R130; spec/06_isa_arithmetic.md R151).
-/

namespace Sys2Proof.Machine

/-! ### Negated encodings -/

/-- Inverting the sign bit negates the value, zeros and infinities included; a NaN stays one. -/
theorem Fmt.dec_negBits (F : Fmt) (neg : Bool) (x : Nat) : F.dec (negBits F neg x) = fnum F neg x := by
  cases neg with
  | false => rfl
  | true =>
    have hlt := F.absBits_lt x
    rw [negBits, fnum, if_pos rfl, if_pos rfl, Fmt.dec, Fmt.dec, Fmt.sign_withSign _ hlt, Fmt.absBits_withSign _ hlt]
    simp only [apply_ite XR.negate]
    cases F.sign x <;> simp [XR.negate]

theorem negBits_lt {F : Fmt} {neg : Bool} {x : Nat} (h : x < 2 ^ F.width) : negBits F neg x < 2 ^ F.width := by
  unfold negBits
  split
  · exact Fmt.withSign_lt _ (F.absBits_lt x)
  · exact h

/-! ### FP32 sources -/

theorem fsrc_f32_toNat (ftz neg : Bool) (x : W32) : fsrc .f32 ftz neg x.toNat = negBits .f32 neg (ftzIn ftz x.toNat) := by
  rw [fsrc, if_pos rfl]
  exact congrArg (fun n => negBits _ _ (ftzIn ftz n)) (Nat.mod_eq_of_lt x.isLt)

theorem State.dec_fsrc (s : State) (f : Full) (m : AluMod) (i : Nat) (x : Operand) (l : Nat) :
    Fmt.f32.dec (fsrc .f32 s.ftz (m.var.getLsbD i) (s.src32 f x l).toNat) = s.fopnd f m i x l := by
  rw [fsrc_f32_toNat, Fmt.dec_negBits, State.fopnd]

theorem State.fbits_lt (s : State) (f : Full) (m : AluMod) (i : Nat) (x : Operand) (l : Nat) : s.fbits f m i x l < 2 ^ Fmt.f32.width :=
  negBits_lt (ftzIn_lt (s.src32 f x l).isLt)

/-! ### Halves of packed sources -/

theorem packedFmt_width (t : Ty) : (packedFmt t).width = 16 := by
  unfold packedFmt
  split <;> rfl

theorem packedFmt_ne_f32 (t : Ty) : packedFmt t ≠ .f32 := by
  unfold packedFmt
  split <;> decide

/-- Half h of a word. -/
def halfOf (h : Nat) (x : W32) : Nat := x.toNat / 65536 ^ h % 65536

theorem State.fsrc_halfOf (s : State) (f : Full) (m : AluMod) (i : Nat) (x : Operand) (l h : Nat) :
    fsrc (packedFmt m.ty) false (m.var.getLsbD i) (halfOf h (s.srcPacked (packedFmt m.ty) f x l)) = s.hbits f m i x l h := by
  rw [fsrc, if_neg (packedFmt_ne_f32 _), packedFmt_width]
  exact congrArg (negBits _ _) (Nat.mod_mod _ _)

theorem State.dec_fsrc_halfOf (s : State) (f : Full) (m : AluMod) (i : Nat) (x : Operand) (l h : Nat) :
    (packedFmt m.ty).dec (fsrc (packedFmt m.ty) false (m.var.getLsbD i) (halfOf h (s.srcPacked (packedFmt m.ty) f x l))) =
      s.hopnd f m i x l h := by
  rw [s.fsrc_halfOf, State.hbits, Fmt.dec_negBits, State.hopnd]

theorem State.hbits_lt (s : State) (f : Full) (m : AluMod) (i : Nat) (x : Operand) (l h : Nat) :
    s.hbits f m i x l h < 2 ^ (packedFmt m.ty).width :=
  negBits_lt (by rw [packedFmt_width]; exact Nat.mod_lt _ (by decide))

/-- A packed form computes either half of its result from the same half of its sources. -/
theorem packedOut_of_halves {op : (W32 → Nat) → Nat × W8} {out : Nat → Nat × W8} (h : ∀ n, op (halfOf n) = out n) :
    (⟨(bothHalves op).1.setWidth 64, (bothHalves op).2, false⟩ : AluOut) = packedOut out := by
  have h0 : halfOf 0 = fun x => x.toNat % 65536 := funext fun x => by rw [halfOf, Nat.pow_zero, Nat.div_one]
  have h1 : halfOf 1 = fun x => x.toNat / 65536 := funext fun x => Nat.mod_eq_of_lt (by omega)
  rw [packedOut, ← h, ← h, h0, h1]
  rfl

end Sys2Proof.Machine
end

section
namespace Sys2Proof.Machine

/-- Settles O3: a source's value does not depend on whether it is negated as an encoding or as a number, and the model rounds once. -/
theorem floatArithmeticResults : Obligations.FloatArithmeticResults := by
  intro f m
  refine ⟨?fadd, ?fsub, ?fmul, ?ffma, ?hadd2, ?hmul2, ?hfma2⟩
  case fadd =>
    refine computes_result (fun _ => rfl) rfl rfl fun _ s l => congrArg fval ?_
    rw [opFadd, s.dec_fsrc, s.dec_fsrc]
  case fsub =>
    refine computes_result (fun _ => rfl) rfl rfl fun _ s l => congrArg fval ?_
    rw [opFsub, s.dec_fsrc, s.dec_fsrc]
  case fmul =>
    refine computes_result (fun _ => rfl) rfl rfl fun _ s l => congrArg fval ?_
    rw [opFmul, s.dec_fsrc, s.dec_fsrc]
  case ffma =>
    refine computes_result (fun _ => rfl) rfl rfl fun _ s l => congrArg fval ?_
    rw [opFfma, s.dec_fsrc, s.dec_fsrc, s.dec_fsrc]
  case hadd2 =>
    refine computes_result (fun _ => rfl) rfl rfl fun _ s l => packedOut_of_halves fun h => ?_
    rw [opFadd, s.dec_fsrc_halfOf, s.dec_fsrc_halfOf]
  case hmul2 =>
    refine computes_result (fun _ => rfl) rfl rfl fun _ s l => packedOut_of_halves fun h => ?_
    rw [opFmul, s.dec_fsrc_halfOf, s.dec_fsrc_halfOf]
  case hfma2 =>
    refine computes_result (fun _ => rfl) rfl rfl fun _ s l => packedOut_of_halves fun h => ?_
    rw [opFfma, s.dec_fsrc_halfOf, s.dec_fsrc_halfOf, s.dec_fsrc_halfOf]

/-- Settles O4: the model's order of encodings picks the extreme of R152, for FP32 and for either half of a packed form. -/
theorem minimumAndMaximumResults : Obligations.MinimumAndMaximumResults := by
  intro f m
  refine ⟨?fmin, ?fmax, ?hmin2, ?hmax2⟩
  case fmin | fmax =>
    exact computes_result (fun _ => rfl) rfl rfl fun _ s l => congrArg fval
      (opFminmax_eq_extreme (fsrc_f32_toNat ..) (fsrc_f32_toNat ..) (s.fbits_lt ..) (s.fbits_lt ..))
  case hmin2 | hmax2 =>
    exact computes_result (fun _ => rfl) rfl rfl fun _ s l => packedOut_of_halves fun h =>
      opFminmax_eq_extreme (s.fsrc_halfOf ..) (s.fsrc_halfOf ..) (s.hbits_lt ..) (s.hbits_lt ..)

end Sys2Proof.Machine
end

section
/-!
SUPPORT. Comparison, rounding to an integer, classification and the sign copy (spec/06_isa_arithmetic.md R153, R154).
-/

namespace Sys2Proof.Machine

/-! ### The order of values -/

theorem Fmt.dec_ne_num_zero (F : Fmt) (x : Nat) : F.dec x ≠ .num 0 := by
  rcases F.dec_cases x with ⟨-, hd⟩ | ⟨h0, -, hd⟩ | ⟨-, -, hd⟩ | ⟨sig, hd⟩ <;> rw [hd]
  · nofun
  · have hpos := F.mag_pos h0
    cases F.sign x
    · simpa [signed] using hpos.ne'
    · simpa [signed] using hpos.ne'
  · nofun
  · nofun

/-- Of two values that are not NaNs neither lies below the other exactly where they are equal or both zeros. -/
theorem not_xlt_and_not_xlt {a b : XR} (ha : a.isNan = false) (hb : b.isNan = false) (ha0 : a ≠ .num 0) (hb0 : b ≠ .num 0) :
    (!xlt a b && !xlt b a) = (a == b || (a.isZero && b.isZero)) := by
  cases a with
  | nan => cases ha
  | inf m => cases b with
    | nan => cases hb
    | inf n => revert m n; decide
    | zero | num => cases m <;> rfl
  | zero m => cases b with
    | nan => cases hb
    | inf n => cases n <;> rfl
    | zero n => revert m n; decide
    | num q =>
      have hq : q ≠ 0 := fun h => hb0 (h ▸ rfl)
      rcases hq.lt_or_gt with h | h <;> simp [xlt, XR.isZero, h, h.not_gt]
  | num p => cases b with
    | nan => cases hb
    | inf n => cases n <;> rfl
    | zero n =>
      have hp : p ≠ 0 := fun h => ha0 (h ▸ rfl)
      rcases hp.lt_or_gt with h | h <;> simp [xlt, XR.isZero, h, h.not_gt]
    | num q => rcases lt_trichotomy p q with h | rfl | h <;> simp [xlt, XR.isZero, *, LT.lt.ne, LT.lt.ne']

/-- The values of two encodings are unordered, equal, or one below the other, and each condition says which (06 R153). -/
theorem compare_values {a b : XR} (ha0 : a ≠ .num 0) (hb0 : b ≠ .num 0) :
    let nan := a.isNan || b.isNan
    let eq := a == b || (a.isZero && b.isZero)
    (!nan && !xlt a b && !xlt b a) = (!nan && eq) ∧ (nan || xlt a b || xlt b a) = (nan || !eq) ∧
    (!nan && !xlt b a) = (!nan && (xlt a b || eq)) ∧ (!nan && !xlt a b) = (!nan && (xlt b a || eq)) := by
  dsimp only
  have heq := @not_xlt_and_not_xlt a b
  have hasymm := @xlt_asymm a b
  cases hna : a.isNan with
  | true => simp
  | false => cases hnb : b.isNan with
    | true => simp
    | false =>
      rw [← heq hna hnb ha0 hb0]
      revert hasymm
      cases xlt a b <;> cases xlt b a <;> simp

theorem sigNV_pair (a b : XR) : sigNV [a, b] = flagIf (a.isSig || b.isSig) flagNV := by simp [sigNV]

end Sys2Proof.Machine
end

section
namespace Sys2Proof.Machine

/-- Settles O5: the conditions of the model name the order, those of R153 the equality too. -/
theorem floatComparisonResults : Obligations.FloatComparisonResults := by
  intro f m p
  refine computes_of_out (fun _ => rfl) rfl (.inr rfl) (fun _ => lt_seven_of_predDst) fun _ s l => ?_
  obtain ⟨heq, hne, hle, hge⟩ := compare_values (Fmt.f32.dec_ne_num_zero (ftzIn s.ftz (s.src32 f f.a l).toNat))
    (Fmt.f32.dec_ne_num_zero (ftzIn s.ftz (s.src32 f f.b l).toNat))
  simp only [opFcmp, fsrc_f32, sigNV_pair]
  match m.var.toNat with
  | 0 => exact congrArg (AluOut.mk 0 _) heq
  | 1 => exact congrArg (AluOut.mk 0 _) hne
  | 3 => exact congrArg (AluOut.mk 0 _) hle
  | 5 => exact congrArg (AluOut.mk 0 _) hge
  | 2 | 4 | 6 => rfl
  | n + 7 =>
    rw [if_neg (by omega)]
    rfl

end Sys2Proof.Machine
end

section
/-!
SUPPORT. Classification and the sign copy (spec/06_isa_arithmetic.md R154).
-/

namespace Sys2Proof.Machine

/-- The source of a form that takes FP32 or a 16-bit format (05 R130). -/
theorem fsrc_of_ty {t : Ty} (ht : t ∈ [Ty.f32, .f16, .bf16]) (ftz : Bool) (x : W32) :
    fsrc ((Fmt.ofTy t).getD .f32) ftz false x.toNat = if t = .f16 ∨ t = .bf16 then x.toNat % 65536 else ftzIn ftz x.toNat := by
  simp only [List.mem_cons, List.not_mem_nil, or_false] at ht
  rcases ht with rfl | rfl | rfl
  · exact fsrc_f32
  · rfl
  · rfl

theorem opFclass_eq {F : Fmt} {ftz : Bool} {a x : Nat} (hx : fsrc F ftz false a = x) : (BitVec.ofNat 64 (opFclass F ftz a) : W64) =
    match F.dec x with
    | .nan sig => if sig then 0x001 else 0x002
    | .inf _ => if F.sign x then 0x004 else 0x200
    | .zero _ => if F.sign x then 0x020 else 0x040
    | .num _ => if F.absBits x < 2 ^ F.f then (if F.sign x then 0x010 else 0x080) else (if F.sign x then 0x008 else 0x100) := by
  unfold opFclass
  rw [hx]
  rcases F.dec_cases x with ⟨-, hd⟩ | ⟨h0, -, hd⟩ | ⟨-, -, hd⟩ | ⟨sig, hd⟩ <;> simp only [hd]
  · split <;> rfl
  · simp only [num_signed_neg _ (F.mag_pos h0), Fmt.isSub, bne_iff_ne.mpr h0.ne', Bool.true_and, decide_eq_true_eq]
    split <;> split <;> rfl
  · split <;> rfl
  · split <;> rfl

/-! ### Sign and magnitude of an FP32 word -/

theorem f32_sign (x : W32) : Fmt.f32.sign x.toNat = x.msb := by
  rw [BitVec.msb_eq_decide, Fmt.sign]
  exact decide_eq_decide.mpr (by simp only [Fmt.f32]; omega)

theorem f32_absBits (x : W32) : Fmt.f32.absBits x.toNat = (x.setWidth 31).toNat := (BitVec.toNat_setWidth ..).symm

theorem ofNat_withSign (neg : Bool) (m : BitVec 31) :
    (BitVec.ofNat 64 (Fmt.f32.withSign neg m.toNat) : W64) = (BitVec.ofBool neg ++ m).setWidth 64 := by
  have hm := m.isLt
  apply BitVec.eq_of_toNat_eq
  rw [BitVec.toNat_setWidth, BitVec.toNat_append, ← Nat.shiftLeft_add_eq_or_of_lt hm]
  cases neg
  · simp [Fmt.withSign]
  · simp [Fmt.withSign, Fmt.f32, Nat.add_comm]

theorem opFcpsgn_eq (ftz : Bool) (m : AluMod) (a b : W32) : (BitVec.ofNat 64 (opFcpsgn ftz m a.toNat b.toNat) : W64) =
    (BitVec.ofBool (xor (m.var.getLsbD 1 && a.msb) (xor b.msb (m.var.getLsbD 0))) ++
      if ftz && Fmt.f32.isSub a.toNat then (0 : BitVec 31) else a.setWidth 31).setWidth 64 := by
  have hmag : Fmt.f32.absBits (ftzIn ftz a.toNat) = (if ftz && Fmt.f32.isSub a.toNat then (0 : BitVec 31) else a.setWidth 31).toNat := by
    unfold ftzIn
    split
    · exact Fmt.absBits_withSign _ (by decide)
    · exact f32_absBits a
  simp only [opFcpsgn, fsrc_f32, f32_sign, hmag, Bool.bne_eq_xor]
  exact ofNat_withSign ..

end Sys2Proof.Machine
end

section
namespace Sys2Proof.Machine

/-- Settles O6: the table of `frnd` as it stands, the classes by exponent and fraction fields, the sign copy by bits. -/
theorem roundClassifyCopySignResults : Obligations.RoundClassifyCopySignResults := by
  intro f m
  refine ⟨?frnd, ?fclass, ?fcpsgn⟩
  case frnd =>
    refine computes_result (fun _ => rfl) rfl rfl fun _ s l => ?_
    simp only [opFrnd, fsrc_f32]
    cases Fmt.f32.dec (ftzIn s.ftz (s.src32 f f.a l).toNat) <;> rfl
  case fclass =>
    exact computes_result (fun _ => rfl) rfl rfl fun hok s l => congrArg AluOut.pure (opFclass_eq (fsrc_of_ty (AluRow.ty_mem hok) ..))
  case fcpsgn =>
    exact computes_result (fun _ => rfl) rfl rfl fun _ s l => congrArg AluOut.pure (opFcpsgn_eq ..)

end Sys2Proof.Machine
end

section
/-!
SUPPORT. The helper forms (spec/06_isa_arithmetic.md R155 to R160): the scale, and the sources that a division or a root step passes through.
-/

namespace Sys2Proof.Machine

/-- A step reads an FP32 source as it is, flushed under .ftz. -/
theorem State.dec_ftzIn (s : State) (f : Full) (x : Operand) (l : Nat) :
    Fmt.f32.dec (ftzIn s.ftz (s.src32 f x l).toNat) = s.fopnd f ⟨0, false, .rne, .f32⟩ 0 x l := rfl

theorem sigNV_single (a : XR) : sigNV [a] = flagIf a.isSig flagNV := by simp [sigNV]

/-! ### Easy sources of a division or root step (06 R160) -/

/-- The step's own test of either exponent and of their difference is the easy set. -/
theorem opFdivfx_eq (ftz : Bool) (m : Rnd) (a b c : W32) : opFdivfx ftz m a.toNat b.toNat c.toNat =
    (let x := Fmt.f32.dec (ftzIn ftz b.toNat)
     let y := Fmt.f32.dec (ftzIn ftz c.toNat)
     if easyQuotient x y then (ftzIn ftz a.toNat, 0) else fround .f32 ftz false m (xdiv x y)) := by
  simp only [opFdivfx, easyExp, fsrc_f32]
  generalize Fmt.f32.dec (ftzIn ftz b.toNat) = x
  generalize Fmt.f32.dec (ftzIn ftz c.toNat) = y
  cases x with
  | num p => cases y with
    | num q =>
      have heasy : easyQuotient (.num p) (.num q) = (decide (-124 ≤ floorLog2 (ratAbs p) ∧ floorLog2 (ratAbs p) ≤ 125) &&
          decide (-124 ≤ floorLog2 (ratAbs q) ∧ floorLog2 (ratAbs q) ≤ 125) &&
          decide (-124 ≤ floorLog2 (ratAbs p) - floorLog2 (ratAbs q) ∧ floorLog2 (ratAbs p) - floorLog2 (ratAbs q) ≤ 125)) := by
        simp only [easyQuotient, Bool.decide_and, Bool.and_assoc]
      simp only [heasy]
      by_cases hp : -124 ≤ floorLog2 (ratAbs p) ∧ floorLog2 (ratAbs p) ≤ 125
      · by_cases hq : -124 ≤ floorLog2 (ratAbs q) ∧ floorLog2 (ratAbs q) ≤ 125
        · simp [hp, hq]
        · simp [hp, hq]
      · simp [hp]
    | nan | inf | zero => simp [easyQuotient]
  | nan | inf | zero => rfl

/-- A positive source has a clear sign bit, and its magnitude is itself. -/
theorem easyRoot_dec (x : Nat) : easyRoot (Fmt.f32.dec x) = ((easyExp x).isSome && !Fmt.f32.sign x) := by
  rw [easyExp]
  rcases Fmt.f32.dec_cases x with ⟨-, hd⟩ | ⟨h0, -, hd⟩ | ⟨-, -, hd⟩ | ⟨sig, hd⟩ <;> rw [hd]
  · rfl
  · have hpos := Fmt.f32.mag_pos h0
    simp only [ratAbs_signed _ hpos, easyRoot]
    cases Fmt.f32.sign x
    · simp [signed, hpos, apply_ite Option.isSome]
    · simp [signed, hpos.le]
  · rfl
  · rfl

theorem opFsqrtfx_eq (ftz : Bool) (m : Rnd) (a b : W32) : opFsqrtfx ftz m a.toNat b.toNat =
    (let x := Fmt.f32.dec (ftzIn ftz b.toNat)
     if easyRoot x then (ftzIn ftz a.toNat, 0) else fround .f32 ftz false m (xsqrt x)) := by
  simp only [opFsqrtfx, fsrc_f32, easyRoot_dec]

end Sys2Proof.Machine
end

section
namespace Sys2Proof.Machine

/-- Most forms are their operation as it stands; the scale and the last steps are restated on exact values. -/
theorem helperOperationResults : Parts.HelperResults := by
  intro f m
  refine ⟨?frcps, ?frsqs, ?fexpr, ?fscale, ?fgetexp, ?fgetman, ?flogr, ?fsinr, ?fdivfx, ?fsqrtfx⟩
  case frcps | frsqs | fexpr | fgetexp | fgetman | flogr | fsinr => exact computes_result (fun _ => rfl) rfl rfl fun _ _ _ => rfl
  case fscale =>
    refine computes_result (fun _ => rfl) rfl rfl fun _ s l => congrArg fval ?_
    rw [opFscale, fsrc_f32, s.dec_ftzIn, sigNV_single]
    cases s.fopnd f ⟨0, false, .rne, .f32⟩ 0 f.a l with
    | num q => exact congrArg (fun k => fround .f32 s.ftz m.sat m.rnd (.num (q * pow2 k), 0)) (clampInt_eq (by decide) _)
    | nan | inf | zero => rfl
  case fdivfx => exact computes_result (fun _ => rfl) rfl rfl fun _ s l => (congrArg fval (opFdivfx_eq ..)).trans (apply_ite fval _ _ _)
  case fsqrtfx => exact computes_result (fun _ => rfl) rfl rfl fun _ s l => (congrArg fval (opFsqrtfx_eq ..)).trans (apply_ite fval _ _ _)

theorem helperSpecialCases : Parts.HelperSpecialCases := by
  intro ftz x
  dsimp only
  simp only [opFrcps, opFrsqs, opFexpr, opFgetexp, opFgetman, opFlogr, opFsinr, fsrc_f32]
  generalize Fmt.f32.dec (ftzIn ftz x.toNat) = v
  cases v with
  | nan sig => exact ⟨rfl, rfl, rfl, rfl, rfl, rfl, fun _ => rfl, rfl, rfl⟩
  | zero n => cases n <;> exact ⟨rfl, rfl, rfl, rfl, rfl, rfl⟩
  | inf n => cases n <;> exact ⟨rfl, rfl, rfl, rfl, rfl, rfl, rfl, rfl, rfl, rfl⟩
  | num q =>
    dsimp only
    refine ⟨fun hq => ?_, rfl, rfl, rfl, rfl, ?_, ?_, ?_, rfl, rfl⟩
    · have hn := Rat.num_neg.mpr hq
      exact ⟨if_pos hn, fun _ => if_pos hn⟩
    · rw [← clampInt_eq (by decide : (-300 : Int) ≤ 300)]
      rfl
    · rw [Rat.mkRat_one]
    · simp
      omega

/-- Settles O7: every form returns the result of its operation, and the operations' own tables give the special cases. -/
theorem helperResults : Obligations.HelperResults := ⟨helperOperationResults, helperSpecialCases⟩

end Sys2Proof.Machine
end

section
/-!
SUPPORT. Conversion and packing (spec/05_number_formats.md R126, R132; spec/06_isa_arithmetic.md R161, R162): register images of integers, and
elements placed side by side in a word.
-/

namespace Sys2Proof.Machine

/-! ### Register images of integers -/

theorem width_le_64 (t : Ty) : t.width ≤ 64 := by cases t <;> decide

theorem setWidth_ofInt {v w : Nat} (h : v ≤ w) (n : Int) : (BitVec.ofInt w n).setWidth v = BitVec.ofInt v n := by
  have hdvd : ((2 ^ v : Nat) : Int) ∣ (2 ^ w : Nat) := Int.natCast_dvd_natCast.mpr (Nat.pow_dvd_pow 2 h)
  have hpos (k : Nat) : (0 : Int) ≤ n % (2 ^ k : Nat) := Int.emod_nonneg _ (by positivity)
  apply BitVec.eq_of_toNat_eq
  rw [BitVec.toNat_setWidth, BitVec.toNat_ofInt, BitVec.toNat_ofInt, ← Int.ofNat_inj, Int.natCast_mod, Int.toNat_of_nonneg (hpos w),
    Int.toNat_of_nonneg (hpos v), Int.emod_emod_of_dvd _ hdvd]

/-- A narrow integer is extended by its type, a 64-bit one stands as it is (06 R161). -/
theorem regInt_eq (t : Ty) (v : Int) : regInt t v = extended t (BitVec.ofInt t.width v) := by
  have hlow : (BitVec.ofInt 64 v).setWidth t.width = BitVec.ofInt t.width v := setWidth_ofInt (width_le_64 t) v
  unfold regInt extended
  split
  · next h => rw [← hlow, BitVec.setWidth_setWidth_of_le _ h.ge, BitVec.setWidth_eq]
  · rw [intOf, hlow]
    split
    · rfl
    · rw [BitVec.ofInt_natCast, BitVec.ofNat_toNat]

theorem regInt_zero (t : Ty) : regInt t 0 = 0 := by cases t <;> decide

/-! ### Elements -/

theorem readElem_of_int {t : Ty} (h : Fmt.ofTy t = none) (ftz : Bool) (x : W64) :
    readElem ftz t x = .int (elementInt t x) (t = .i4 ∧ x.setWidth 4 = 8#4) := by
  simp only [readElem, elementInt, h, beq_eq_decide, ← Bool.decide_and, decide_eq_true_eq]
  split
  · next h4 => rw [decide_eq_true h4]
  · next h4 => rw [decide_eq_false h4, intOf]

theorem readElem_of_flt {t : Ty} {F : Fmt} (h : Fmt.ofTy t = some F) (ftz : Bool) (x : W64) :
    readElem ftz t x = .flt (F.dec (if t = .f32 then ftzIn ftz (x.setWidth 32).toNat else (x.setWidth t.width).toNat)) := by
  rw [readElem, h]

section
variable {t src : Ty} (ht : Fmt.ofTy t = none)
include ht

/-- An integer element clamped or cut to an integer type; `.i4` always clamps (05 R132). -/
theorem convElem_of_int (hsrc : Fmt.ofTy src = none) (ftz : Bool) (m : Rnd) (sat : Bool) (x : W64) : convElem ftz t src m sat x =
    (let v := elementInt src x
     let c := max (intMin t) (min (intMax t) v)
     if sat || t = .i4 then (extended t (BitVec.ofInt t.width c), elementFlag src x ||| flagIf (c ≠ v) flagSAT)
     else (extended t (BitVec.ofInt t.width v), elementFlag src x)) := by
  simp only [convElem, readElem_of_int hsrc, ht, satInt_eq, regInt_eq, elementFlag, BitVec.or_comm (flagIf _ flagI4R)]

/-- A finite floating element rounded to an integer, and clamped where it lies outside the type (05 R132). -/
theorem convElem_of_num {ftz sat : Bool} {m : Rnd} {x : W64} {q : Rat} (hx : readElem ftz src x = .flt (.num q)) :
    convElem ftz t src m sat x =
    (let n := roundInt m q
     let bad := if sat then flagSAT else flagNV
     if n < intMin t then (extended t (BitVec.ofInt t.width (intMin t)), bad)
     else if intMax t < n then (extended t (BitVec.ofInt t.width (intMax t)), bad)
     else (extended t (BitVec.ofInt t.width n), flagIf ((n : Rat) ≠ q) flagNX)) := by
  simp only [convElem, hx, ht, clampInt, regInt_eq, Rat.mkRat_one]
  generalize roundInt m q = n
  split
  · rw [if_pos (bne_iff_ne.mpr (by omega))]
  · split
    · rw [if_pos (bne_iff_ne.mpr (by omega))]
    · rw [bne_self_eq_false, if_neg Bool.false_ne_true]
      exact congrArg (fun b => (_, flagIf b flagNX)) (decide_not ..).symm

end

/-! ### Packed elements (06 R162) -/

theorem getLsbD_fieldMask (n pos : Nat) {i : Nat} (hi : i < 64) :
    (BitVec.ofNat 64 ((2 ^ n - 1) * 2 ^ pos)).getLsbD i = decide (pos ≤ i ∧ i < pos + n) := by
  rw [BitVec.getLsbD_ofNat, Nat.testBit_mul_two_pow, Nat.testBit_two_pow_sub_one]
  grind

theorem getLsbD_packElem (ftz : Bool) (m : AluMod) (x : W64) (i : Nat) : (packElem ftz m x).1.getLsbD i =
    ((convElem ftz m.ty (packSrc m.ty) m.rnd m.sat x).1.getLsbD i && (decide (i < 64) && decide (i < m.ty.width))) := by
  rw [packElem, BitVec.getLsbD_and, BitVec.getLsbD_ofNat, Nat.testBit_two_pow_sub_one]

theorem getLsbD_placed (c x : W32) (pos n : Nat) {i : Nat} (hi : i < 32) :
    (placed c x pos n).getLsbD i = if pos ≤ i ∧ i < pos + n then x.getLsbD (i - pos) else c.getLsbD i := by
  rw [placed, BitVec.getLsbD_ofFnLE, dif_pos hi]

/-- Masking two elements and shifting them into the place cleared for them replaces just the bits of that place. -/
theorem packInto_eq (ftz : Bool) (m : AluMod) (pos : Nat) (a b c : W64) : packInto ftz m pos a b c = packedAt ftz m pos a b (c.setWidth 32) := by
  refine congrArg (fun w : W32 => AluOut.mk (w.setWidth 64) _ _) (BitVec.eq_of_getLsbD_eq fun i hi => ?_)
  have hi64 : i < 64 := by omega
  simp only [BitVec.getLsbD_setWidth, BitVec.getLsbD_or, BitVec.getLsbD_and, BitVec.getLsbD_not, BitVec.getLsbD_shiftLeft,
    getLsbD_fieldMask _ _ hi64, getLsbD_packElem, getLsbD_placed _ _ _ _ hi, loWord]
  grind

end Sys2Proof.Machine
end

section
namespace Sys2Proof.Machine

theorem conversionFormResults : Parts.ConversionResults := by
  intro f m src
  refine ⟨?cvt, ?pk2, ?upk2, ?pk8, ?upk8, ?pk4, ?upk4, ?mov⟩
  case cvt | upk2 | upk8 | upk4 | mov => exact computes_result (fun _ => rfl) rfl rfl fun _ _ _ => rfl
  case pk2 | pk8 | pk4 => exact computes_result (fun _ => rfl) rfl rfl fun _ _ _ => packInto_eq ..

theorem conversionRules : Parts.ConversionRules := by
  intro ftz t src m x ht
  cases hsrc : Fmt.ofTy src with
  | none =>
    dsimp only
    rw [convElem_of_int ht hsrc, convElem_of_int ht hsrc]
    exact ⟨rfl, by simp⟩
  | some F =>
    intro sat
    dsimp only
    have hx := readElem_of_flt hsrc ftz x
    generalize F.dec _ = v at hx ⊢
    cases v with
    | num q => exact convElem_of_num ht hx
    | nan sig => simp only [convElem, hx, ht, regInt_zero]
    | inf n => simp only [convElem, hx, ht, regInt_eq]
    | zero n => simp only [convElem, hx, ht, regInt_zero]

/-- Settles O8: the forms return what one element's conversion gives, and that conversion follows the table of R132. -/
theorem conversionResults : Obligations.ConversionResults := ⟨conversionFormResults, conversionRules⟩

end Sys2Proof.Machine
end

section
/-!
SUPPORT. Where lanes go on after an issue (spec/02_execution_model.md R37; spec/07_isa_lanes_control.md R176 to R178): masks of lanes, a form that
completes or traps, and a jump of each lane to its own target.
-/

namespace Sys2Proof.Machine

/-! ### Masks -/

@[simp] theorem getLsbD_laneMask (m : Lanes) (p : Nat → Bool) (k : Nat) : (laneMask m p).getLsbD k = (m.getLsbD k && p k) := by
  by_cases hk : k < 64
  · have hfold : laneMask m p = (List.range 64).foldl (fun acc i => if m.getLsbD i && p i then acc ||| (1#64 <<< i) else acc) 0 := by
      rw [laneMask, laneList, List.foldl_filter]
      refine List.foldl_ext _ _ _ fun acc i _ => ?_
      cases m.getLsbD i <;> rfl
    rw [hfold, getLsbD_foldl_setBit _ _ hk, decide_eq_true hk, Bool.true_and]
  · rw [BitVec.getLsbD_of_ge _ _ (not_lt.mp hk), BitVec.getLsbD_of_ge _ _ (not_lt.mp hk), Bool.false_and]

theorem laneMask_eq_lanesWhere (m : Lanes) (p : Nat → Bool) : laneMask m p = lanesWhere fun l => m.getLsbD l && p l :=
  BitVec.eq_of_getLsbD_eq fun k hk => by rw [getLsbD_laneMask, getLsbD_lanesWhere, decide_eq_true hk, Bool.true_and]

/-- A mask is zero where no lane has the property. -/
theorem lanesWhere_eq_zero {p : Nat → Bool} : lanesWhere p = 0 ↔ ∀ l, l < 64 → p l = false := by
  constructor
  · intro h l hl
    have hbit : (lanesWhere p).getLsbD l = false := by rw [h]; exact BitVec.getLsbD_zero
    rwa [getLsbD_lanesWhere, decide_eq_true hl, Bool.true_and] at hbit
  · exact fun h => BitVec.eq_of_getLsbD_eq fun l hl => by
      rw [getLsbD_lanesWhere, h l hl, Bool.and_false]
      exact BitVec.getLsbD_zero.symm

/-! ### A form that completes or traps -/

/-- Only a form of every stream, or of the A- or M-stream, executes outside the E-stream (04 R118). -/
theorem State.strm_of_executes {s : State} {i : Instr} {f : Full} (h : s.executes i f = true) (ha : streamMay .a (opcOf i) = false)
    (hm : streamMay .m (opcOf i) = false) : s.cur.strm = .e := by
  obtain ⟨-, -, htrap, -⟩ := (State.executes_iff s i f).mp h
  have hcode : s.codeTrap (opcOf i) = none := by
    unfold State.issueTrap at htrap
    split at htrap
    · cases htrap
    · next hc => exact hc
  have hmay : streamMay s.cur.strm (opcOf i) = true := by
    by_contra hno
    unfold State.codeTrap at hcode
    dsimp only at hcode
    rw [if_pos hno] at hcode
    split at hcode
    · cases hcode
    · split_ifs at hcode
  cases hs : s.cur.strm with
  | e => rfl
  | a => rw [hs, ha] at hmay; cases hmay
  | m => rw [hs, hm] at hmay; cases hmay

section
variable {s : State} {i : Instr} {f : Full} {body : State → State} (hx : exec i s = s.issue i f body) (h : s.executes i f = true)
include hx h

/-- A form whose effect completes its issue pops its queue sources. -/
theorem exec_of_done (hc : (body s).cur = { s.cur with done := true }) :
    exec i s = .next ((body s).popQueues (s.gLive f &&& s.cur.lanes) (s.queuesRead i f)) := by
  obtain ⟨-, ⟨-, -, hstuck, -⟩, -⟩ := (State.executes_iff s i f).mp h
  rw [hx, State.issue_of_executes h _ ((congrArg Cur.stuck hc).trans hstuck), hc]
  rfl

/-- A form whose effect is a trap pops nothing. -/
theorem exec_of_trap {t : Trap} (hb : body s = s.trap t) : exec i s = .next (s.trap t) := by
  obtain ⟨-, ⟨-, hdone, hstuck, -⟩, -⟩ := (State.executes_iff s i f).mp h
  have hc : (body s).cur = s.cur := hb ▸ s.cur_trap t
  rw [hx, State.issue_of_executes h _ ((congrArg Cur.stuck hc).trans hstuck), hc, hdone, hb]
  rfl

end

/-! ### Target registers (04 R117) -/

theorem State.getLsbD_gLanes (s : State) (f : Full) (l : Nat) : (s.gLanes f).getLsbD l = (s.cur.lanes.getLsbD l && s.guard f l) :=
  getLsbD_laneMask _ _ _

theorem State.badTargets_eq (s : State) (f : Full) : s.badTargets f = lanesWhere (s.offBundle f) := by
  have hqueue (b : Bool) (l : Nat) : (s.gLanes f).getLsbD l = (s.cur.lanes.getLsbD l && ((s.gLanes f).getLsbD l || false)) := by
    rw [s.getLsbD_gLanes]
    cases s.cur.lanes.getLsbD l <;> simp
  unfold State.badTargets State.offBundle
  cases f.a with
  | q n => simp only [laneMask_eq_lanesWhere, readsQueue, Bool.not_true, ← hqueue true]
  | _ => simp only [laneMask_eq_lanesWhere, readsQueue, Bool.not_false, Bool.or_true, Bool.and_true]

theorem State.badTargets_ne_zero (s : State) (f : Full) : (s.badTargets f != 0) = s.anyOffBundle f := by
  rw [s.badTargets_eq, Bool.eq_iff_iff, bne_iff_ne, Ne, lanesWhere_eq_zero]
  simp [State.anyOffBundle]

/-- A form with target registers takes TARGET_MISALIGNED where one names no bundle, and else its effect. -/
theorem State.withTargets_eq (s : State) (f : Full) (k : State → State) : s.withTargets f k =
    if s.anyOffBundle f then s.trap (s.decodeTrap .targetMisaligned 0 0 (lanesWhere (s.offBundle f))) else k s := by
  unfold State.withTargets
  dsimp only
  rw [s.badTargets_ne_zero, s.badTargets_eq]

/-! ### The issuing split replaced -/

section
variable (s : State) (F : Split → List Split) {G : Stream → Stream}

theorem State.cur_modSplit : (s.modSplit F G).cur = s.cur := by
  unfold State.modSplit
  split <;> rfl

theorem State.frame_modSplit (hG : ∀ x : Stream, x.SameBut (G x)) : s.Frame (s.modSplit F G) := by
  unfold State.modSplit
  split
  · next h => exact State.frame_modCurWarp s _ h ⟨rfl, rfl⟩
  · next h => exact State.frame_modStream s _ h (hG _)

theorem State.regs_modSplit (hG : ∀ x, (G x).sregs = x.sregs) : (s.modSplit F G).regs = s.regs := by
  unfold State.modSplit
  split
  · exact State.regs_modCurWarp s _ rfl rfl rfl
  · exact State.regs_modStream s _ _ hG

theorem State.ctl_modSplit (hG : ∀ x, (G x).preds = x.preds ∧ (G x).fstat = x.fstat) :
    (s.modSplit F G).ctl = { s.ctl with splits := (s.modSplit F G).curWarp.splits } := by
  unfold State.modSplit
  split
  · unfold State.ctl
    rw [State.curWarp_modCurWarp, State.curGroup_modCurWarp]
    rfl
  · rw [State.curWarp_modStream, State.ctl_modStream s _ _ hG]
    rfl

theorem State.splits_modSplit (h : s.cur.strm = .e) :
    (s.modSplit F G).curWarp.splits = s.curWarp.splits.flatMap fun x => if x.lanes == s.cur.lanes then F x else [x] := by
  rw [State.modSplit, h]
  exact congrArg Warp.splits (State.curWarp_modCurWarp s _)

theorem State.stream_modSplit (h : s.cur.strm ≠ .e) :
    (s.modSplit F G).curGroup.stream s.cur.strm = G (s.curGroup.stream s.cur.strm) := by
  cases hs : s.cur.strm with
  | e => exact absurd hs h
  | a | m => simp only [State.modSplit, hs, State.curGroup_modStream, Group.modStream, Group.stream]

end

/-! ### Jumps -/

theorem Store.mem_erase_insert (s : Store Unit) (p z : Nat × Unit) : z ∈ Store.insert (Store.erase s p.1) p.1 p.2 ↔ z = p ∨ z ∈ s := by
  have hins (l : Store Unit) (k : Nat) : z ∈ Store.insert l k () ↔ z = (k, ()) ∨ z ∈ l := by
    induction l with
    | nil => simp [Store.insert]
    | cons y r ih =>
      rw [Store.insert]
      split
      · rw [List.mem_cons]
      · rw [List.mem_cons, ih, List.mem_cons, or_left_comm]
  rw [hins, Store.erase, List.mem_filter, bne_iff_ne]
  refine ⟨fun h => h.imp_right And.left, fun h => ?_⟩
  by_cases hk : z.1 = p.1
  · exact .inl (Prod.ext hk rfl)
  · exact .inr ⟨h.resolve_left fun e => hk (congrArg Prod.fst e), hk⟩

/-- The targets of a mask are those of its lanes. -/
theorem mem_targetsOf (m : Lanes) (tgt : Nat → W64) (t : W64) : t ∈ targetsOf m tgt ↔ ∃ l ∈ laneList m, tgt l = t := by
  have hfold (l : List W64) : l.foldl (fun (acc : Store Unit) x => Store.insert (Store.erase acc x.toNat) x.toNat ()) [] =
      (l.map fun x => (x.toNat, ())).foldl (fun (acc : Store Unit) p => Store.insert (Store.erase acc p.1) p.1 p.2) [] := by
    rw [List.foldl_map]
  rw [targetsOf, hfold, List.mem_map]
  simp only [mem_foldl_insert (ins := fun p acc => Store.insert (Store.erase acc p.1) p.1 p.2) (fun p s z => Store.mem_erase_insert s p z),
    List.not_mem_nil, false_or, List.mem_map]
  constructor
  · rintro ⟨_, ⟨_, ⟨l, hl, rfl⟩, rfl⟩, rfl⟩
    exact ⟨l, hl, by simp⟩
  · rintro ⟨l, hl, rfl⟩
    exact ⟨_, ⟨_, ⟨l, hl, rfl⟩, rfl⟩, by simp⟩

/-- The lanes of a split that go to a target, standing there. -/
def Split.part (x : Split) (tgt : Nat → W64) (t : W64) : Split :=
  { x with lanes := laneMask x.lanes (fun l => tgt l == t), pc := t, wait := .ready, bp := 0, wd := 0 }

/-- The parts of a split by target. -/
def Split.parts (x : Split) (tgt : Nat → W64) : List Split := (targetsOf x.lanes tgt).map (x.part tgt)

/-- A stream at its target. -/
def Stream.goTo (x : Stream) (t : W64) : Stream := { x with pc := t, wait := .ready, bp := 0 }

theorem Split.getLsbD_part (x : Split) (tgt : Nat → W64) (t : W64) (k : Nat) :
    (x.part tgt t).lanes.getLsbD k = true ↔ x.lanes.getLsbD k = true ∧ tgt k = t := by
  rw [Split.part, getLsbD_laneMask, Bool.and_eq_true, beq_iff_eq]

theorem Split.part_mem_parts (x : Split) (tgt : Nat → W64) {l : Nat} (hl : l < 64) (hx : x.lanes.getLsbD l = true) :
    x.part tgt (tgt l) ∈ x.parts tgt :=
  List.mem_map_of_mem ((mem_targetsOf ..).mpr ⟨l, (mem_laneList ..).mpr ⟨hl, hx⟩, rfl⟩)

section
variable (s : State) (tgt : Nat → W64)

theorem State.jump_eq : s.jump tgt = (s.modSplit (fun x => x.parts tgt) (fun x => x.goTo (tgt 0))).markDone := rfl

theorem State.cur_jump : (s.jump tgt).cur = { s.cur with done := true } :=
  congrArg (fun c : Cur => { c with done := true }) (State.cur_modSplit s _)

theorem State.frame_jump : s.Frame (s.jump tgt) := by
  rw [State.jump_eq]
  exact (State.frame_modSplit s _ (G := fun x => x.goTo (tgt 0)) fun _ => rfl).trans (State.frame_markDone _)

theorem State.regs_jump : (s.jump tgt).regs = s.regs := by
  rw [State.jump_eq]
  exact State.regs_modSplit s _ fun _ => rfl

theorem State.ctl_jump : (s.jump tgt).ctl = { s.ctl with splits := (s.jump tgt).curWarp.splits } := by
  rw [State.jump_eq]
  exact State.ctl_modSplit s _ fun _ => ⟨rfl, rfl⟩

theorem State.pred_jump (l p : Nat) : (s.jump tgt).pred l p = s.pred l p := by
  rw [State.pred_eq, State.pred_eq, State.ctl_jump, State.cur_jump]

theorem State.fstat_jump : (s.jump tgt).fstat = s.fstat := by
  rw [State.fstat_eq, State.fstat_eq, State.ctl_jump, State.cur_jump]

theorem State.splits_jump (h : s.cur.strm = .e) :
    (s.jump tgt).curWarp.splits = s.curWarp.splits.flatMap fun x => if x.lanes == s.cur.lanes then x.parts tgt else [x] :=
  State.splits_modSplit s _ h

theorem State.stream_jump (h : s.cur.strm ≠ .e) :
    (s.jump tgt).curGroup.stream s.cur.strm = (s.curGroup.stream s.cur.strm).goTo (tgt 0) :=
  State.stream_modSplit s _ h

end

section
variable {s t : State}

theorem State.stands_iff : s.stands = true ↔ s.cur.strm ≠ .e ∨ ∃ x ∈ s.curWarp.splits, x.lanes = s.cur.lanes := by
  simp [State.stands]

theorem State.issuer_eq (h : t.cur = { s.cur with done := true }) : s.issuer t = t.curWarp := by
  rw [State.issuer, State.curWarp, h]

theorem State.group_eq (h : t.cur = { s.cur with done := true }) : t.group s.cur.grp = t.curGroup := by
  rw [State.curGroup, h]

/-- Each lane of the issuing split stands at its target once the split is replaced by its parts, and a stream at its own. -/
theorem State.continuesAt_of (tgt : Nat → W64) (h : s.stands = true) (hc : t.cur = { s.cur with done := true })
    (he : s.cur.strm = .e → t.curWarp.splits = s.curWarp.splits.flatMap fun x => if x.lanes == s.cur.lanes then x.parts tgt else [x])
    (ha : s.cur.strm ≠ .e → ∃ x, t.curGroup.stream s.cur.strm = Stream.goTo x (tgt 0)) : s.ContinuesAt t tgt := by
  cases hs : s.cur.strm with
  | e =>
    obtain ⟨x, hx, hlanes⟩ := (State.stands_iff.mp h).resolve_left (fun hne => hne hs)
    simp only [State.ContinuesAt, hs, State.issuer_eq hc, he hs, List.mem_flatMap]
    refine ⟨fun l hl hcl => ?_, fun y hy hne => ⟨y, hy, ?_⟩⟩
    · have hxl : x.lanes.getLsbD l = true := hlanes ▸ hcl
      refine ⟨x.part tgt (tgt l), ⟨x, hx, ?_⟩, (x.getLsbD_part ..).mpr ⟨hxl, rfl⟩, rfl, rfl, fun k _ hk => ?_⟩
      · rw [if_pos (beq_iff_eq.mpr hlanes)]
        exact x.part_mem_parts tgt hl hxl
      · obtain ⟨hxk, ht⟩ := (x.getLsbD_part ..).mp hk
        exact ⟨hlanes ▸ hxk, ht⟩
    · rw [if_neg (by rwa [beq_iff_eq])]
      exact List.mem_singleton_self y
  | a | m =>
    obtain ⟨x, hx⟩ := ha (by rw [hs]; exact nofun)
    simp only [State.ContinuesAt, hs, State.group_eq hc]
    rw [← hs, hx]
    exact ⟨rfl, rfl⟩

end

/-! ### Destinations -/

/-- A destination that a checked slot admits fits the stream that issues. -/
theorem State.dstFits_of_operandOk {s : State} {f : Full} {wide : Bool} {x : Operand} (ho : s.operandOk f (.dst wide) x = true) : s.dstFits x := by
  cases x with
  | v n => exact ⟨fun _ => by simp only [State.operandOk, Bool.and_eq_true, decide_eq_true_eq] at ho; exact ho.1, fun h => absurd rfl h⟩
  | o n => exact ⟨fun _ => of_decide_eq_true ho, fun h => absurd rfl h⟩
  | g n => exact ⟨fun h => absurd rfl h, fun _ => by simpa [State.operandOk, slotIsDst] using ho⟩
  | _ => exact ⟨fun h => absurd rfl h, fun h => absurd rfl h⟩

/-- The result in field C of a form that executes fits the stream that issues (04 R95). -/
theorem State.dstFits_c_of_executes {s : State} {i : Instr} {f : Full} {r : Raw} {wide : Bool} (h : s.executes i f = true)
    (hr : rawOf i = some (f, r)) (hd : (shapeOf i).c = .dst wide) : s.dstFits f.c ∧ (Slot.dst wide).ok f.c = true := by
  obtain ⟨hw, -, htrap, -⟩ := (State.executes_iff s i f).mp h
  obtain ⟨-, -, -, hok⟩ := Full.wf_fields (Instr.wf_full hr hw).1
  have hops : s.operandsOk i f = true := by
    unfold State.issueTrap at htrap
    split at htrap
    · cases htrap
    · split at htrap
      · next hc => exact (Bool.and_eq_true_iff.mp (Bool.and_eq_true_iff.mp hc).1).1
      · cases htrap
  have hc := List.all_eq_true.mp hops ((shapeOf i).c, f.c) (by simp [fieldsOf])
  rw [hd] at hc hok
  exact ⟨State.dstFits_of_operandOk hc, hok⟩

/-- A destination is written where the registers are those after the write. -/
theorem State.wrote_of_regs {s t : State} {x : Operand} {wide : Bool} {g : Lanes} {val : Nat → W64} (hc : t.cur = { s.cur with done := true })
    (hr : t.regs = (s.writeDst x wide true g val).regs) (hx : s.dstFits x) (hok : (Slot.dst wide).ok x = true) : s.Wrote t x wide g val := by
  have hcur := s.cur_writeDst x wide true g val
  refine ⟨fun l c _ hcode => ?_, fun n _ => ?_, fun ha n _ => ?_, fun hu => ?_⟩
  · rw [← s.vreg_writeDst x wide g val hok hcode, State.issuer_eq hc]
    exact Warp.vreg_of_vregs (congrArg Regs.vregs hr) (congrArg Regs.level hr) l c
  · rw [State.scalarFile_eq s t ⟨by rw [hc], by rw [hc], by rw [hc]⟩, State.scalarFile_eq s s ⟨rfl, rfl, rfl⟩, hr]
    have hfile := s.sfile_writeDst x wide g val n
    unfold State.sfile at hfile
    rwa [hcur] at hfile
  · rw [State.greg_of_regs (by rw [hcur]; exact ha) (by rw [hc]; exact ha) hr, s.greg_writeDst x wide g val n ha hx]
  · rw [State.group_eq hc]
    exact (congrArg Regs.gw hr).trans (s.gw_writeDst x wide g val hu)

/-! ### Calls (07 R177) -/

section
variable {s : State} {f : Full} {link : Operand} {tgt : Nat → W64}

/-- The state after a call's link is written and its lanes have gone. -/
theorem State.callTo_eq (s : State) (f : Full) (link : Operand) (tgt : Nat → W64) : s.callTo f link tgt =
    (s.writeDst link true true (s.gLanes f) fun _ => s.nextBundle).jump fun l => if (s.gLanes f).getLsbD l then tgt l else s.cur.npc := by
  have hcur := s.cur_writeDst link true true (s.gLanes f) fun _ => s.nextBundle
  exact congrArg (fun c : Cur => State.jump _ fun l => if (s.gLanes f).getLsbD l then tgt l else c.npc) hcur

theorem State.cur_callTo : (s.callTo f link tgt).cur = { s.cur with done := true } := by
  rw [s.callTo_eq, State.cur_jump, State.cur_writeDst]

/-- What a call leaves, also once its queue sources are popped. -/
theorem State.callTo_results (g : Lanes) {qs : List Nat} (hq : s.cur.strm = .e ∨ qs = []) (hs : s.stands = true) (hx : s.dstFits link)
    (hok : (Slot.dst true).ok link = true) :
    let t := (s.callTo f link tgt).popQueues g qs
    s.Frame t ∧ s.Wrote t link true (s.gLanes f) (fun _ => s.nextBundle) ∧ s.SamePreds t ∧ t.fstat = s.fstat ∧
      s.ContinuesAt t fun l => if (s.gLanes f).getLsbD l then tgt l else s.cur.npc := by
  intro t
  have hct : t.cur = { s.cur with done := true } := (State.cur_popQueues ..).trans State.cur_callTo
  have ht : t = ((s.writeDst link true true (s.gLanes f) fun _ => s.nextBundle).jump fun l =>
      if (s.gLanes f).getLsbD l then tgt l else s.cur.npc).popQueues g qs :=
    congrArg (State.popQueues · g qs) (s.callTo_eq f link tgt)
  generalize (fun l => if (s.gLanes f).getLsbD l then tgt l else s.cur.npc) = go at ht ⊢
  generalize hw : (s.writeDst link true true (s.gLanes f) fun _ => s.nextBundle) = w at ht
  have hcw : w.cur = s.cur := hw ▸ State.cur_writeDst ..
  have hctl : w.ctl = s.ctl := hw ▸ State.ctl_writeDst ..
  refine ⟨?frame, ?wrote, ?preds, ?fstat, ?place⟩
  case frame =>
    rw [ht]
    refine ((hw ▸ s.frame_writeDst link true true _ _ hx : s.Frame w).trans (w.frame_jump go)).trans (State.frame_popQueues _ _ _ ?_)
    rw [State.cur_jump, hcw]
    exact hq
  case wrote =>
    refine State.wrote_of_regs hct ?_ hx hok
    rw [ht, State.regs_popQueues, State.regs_jump, hw]
  case preds =>
    intro l p _ _
    rw [ht, State.pred_popQueues, State.pred_jump, State.pred_eq, State.pred_eq, hctl, hcw]
  case fstat => rw [ht, State.fstat_popQueues, State.fstat_jump, State.fstat_eq, State.fstat_eq, hctl, hcw]
  case place =>
    refine State.continuesAt_of go hs hct (fun he => ?_) fun hne => ?_
    · rw [ht, State.warp_popQueues (·.splits) (fun _ _ _ => rfl), State.splits_jump w go (by rwa [hcw]), hcw]
      exact congrArg (List.flatMap _) (congrArg Ctl.splits hctl)
    · refine ⟨w.curGroup.stream s.cur.strm, ?_⟩
      rw [ht, State.group_popQueues, ← hcw, State.stream_jump w go (by rwa [hcw])]

end

/-- The bundle that a branch offset names (07 R176). -/
theorem State.branchTarget_eq (s : State) (off : BitVec 30) : s.branchTarget off = s.offsetTarget off := by
  unfold State.branchTarget State.offsetTarget bundleOf
  congr 1
  generalize off.signExtend 64 = x
  bv_omega

theorem State.queuesRead_e (s : State) (i : Instr) (f : Full) : s.cur.strm = .e ∨ s.queuesRead i f = [] := by
  unfold State.queuesRead
  split
  · next h => exact .inl h
  · exact .inr rfl

theorem exec_call (f : Full) (off : BitVec 30) (s : State) :
    exec (.call f off) s = s.issue (.call f off) f fun s => s.callTo f f.c fun _ => s.branchTarget off := rfl

theorem exec_calli (f : Full) (s : State) :
    exec (.calli f) s = s.issue (.calli f) f fun s => s.withTargets f fun s => s.callTo f f.d fun l => s.src f f.a true l := rfl

end Sys2Proof.Machine
end

section
namespace Sys2Proof.Machine

/-- Settles O15: the link register and the targets of a call, and its misaligned target. -/
theorem callResults : Obligations.CallResults := by
  intro f off s hs
  refine ⟨fun he => ?_, fun he => ?_⟩
  · obtain ⟨hx, hok⟩ := State.dstFits_c_of_executes (wide := true) he rfl rfl
    refine ⟨_, exec_of_done (exec_call f off s) he State.cur_callTo, ?_⟩
    simp only [State.branchTarget_eq]
    exact State.callTo_results _ (s.queuesRead_e _ f) hs hx hok
  · have htargets := s.withTargets_eq f fun s => s.callTo f f.d fun l => s.src f f.a true l
    split
    · next hbad => exact exec_of_trap (exec_calli f s) he (htargets.trans (if_pos hbad))
    · next hbad =>
      obtain ⟨hx, hok⟩ := State.dstFits_of_executes (wide := true) he rfl (.inl rfl)
      rw [if_neg hbad] at htargets
      refine ⟨_, exec_of_done (exec_calli f s) he (htargets ▸ State.cur_callTo), ?_⟩
      rw [htargets]
      exact State.callTo_results _ (s.queuesRead_e _ f) hs hx hok

end Sys2Proof.Machine
end

section
/-!
SUPPORT. Waits that end (spec/07_isa_lanes_control.md R173, R186): a completed barrier, an ended stream or a complete `wjoin` lets parked lanes
go on and leaves ready splits, registers and lanes as they were.
-/

namespace Sys2Proof.Machine

/-! ### Waits of a warp -/

/-- Nothing of a warp has changed but that waits may have ended: its lanes stand in parts of its splits, and ready splits stay. -/
structure Warp.Unparks (w v : Warp) : Prop where
  vregs : v.vregs = w.vregs
  live : v.live = w.live
  helper : v.helper = w.helper
  ended : v.ended = w.ended
  within : ∀ y ∈ v.splits, ∃ x ∈ w.splits, ∀ l, y.lanes.getLsbD l = true → x.lanes.getLsbD l = true
  ready : ∀ x ∈ w.splits, x.wait = .ready → ∃ y ∈ v.splits, y.lanes = x.lanes ∧ y.pc = x.pc ∧ y.wait = .ready

/-- A change that leaves lanes, splits and vector registers alone ends no wait. -/
theorem Warp.Unparks.of_eq {w v : Warp} (h1 : v.vregs = w.vregs) (h2 : v.live = w.live) (h3 : v.helper = w.helper) (h4 : v.ended = w.ended)
    (h5 : v.splits = w.splits) : w.Unparks v :=
  ⟨h1, h2, h3, h4, fun y hy => ⟨y, h5 ▸ hy, fun _ h => h⟩, fun x hx hr => ⟨x, h5 ▸ hx, rfl, rfl, hr⟩⟩

theorem Warp.Unparks.refl (w : Warp) : w.Unparks w := .of_eq rfl rfl rfl rfl rfl

theorem Warp.Unparks.trans {w v u : Warp} (h : w.Unparks v) (k : v.Unparks u) : w.Unparks u where
  vregs := k.vregs.trans h.vregs
  live := k.live.trans h.live
  helper := k.helper.trans h.helper
  ended := k.ended.trans h.ended
  within z hz := by
    obtain ⟨y, hy, hzy⟩ := k.within z hz
    obtain ⟨x, hx, hyx⟩ := h.within y hy
    exact ⟨x, hx, fun l hl => hyx l (hzy l hl)⟩
  ready x hx hr := by
    obtain ⟨y, hy, hlanes, hpc, hwait⟩ := h.ready x hx hr
    obtain ⟨z, hz, hlanes', hpc', hwait'⟩ := k.ready y hy hwait
    exact ⟨z, hz, hlanes'.trans hlanes, hpc'.trans hpc, hwait'⟩

/-- Splits that a mask has left stay without it. -/
theorem Warp.Unparks.left {w v : Warp} {m : Lanes} (h : w.Unparks v) (hw : w.Left m) : v.Left m := by
  intro y hy
  obtain ⟨x, hx, hyx⟩ := h.within y hy
  refine BitVec.eq_of_getLsbD_eq fun l hl => ?_
  have hxm : (x.lanes &&& m).getLsbD l = false := by rw [hw x hx]; exact BitVec.getLsbD_zero
  rw [BitVec.getLsbD_and] at hxm ⊢
  rw [show (0 : Lanes).getLsbD l = false from BitVec.getLsbD_zero]
  cases hyl : y.lanes.getLsbD l with
  | false => rfl
  | true => rwa [hyx l hyl] at hxm

theorem Warp.unparks_releaseOn (w : Warp) (hit : Wait → Bool) : w.Unparks (w.releaseOn hit) where
  vregs := rfl
  live := rfl
  helper := rfl
  ended := rfl
  within y hy := by
    obtain ⟨x, hx, rfl⟩ := List.mem_map.mp hy
    exact ⟨x, hx, fun _ h => h⟩
  ready x hx hr := ⟨_, List.mem_map_of_mem hx, rfl, by rw [hr]; rfl, by rw [hr]; rfl⟩

/-- The lanes that leave a `wjoin`, and those that stay, are lanes of its split. -/
theorem Warp.within_leaveJoin (w : Warp) (x : Split) {y : Split} (hy : y ∈ w.leaveJoin x) {l : Nat} (hl : y.lanes.getLsbD l = true) :
    x.lanes.getLsbD l = true := by
  unfold Warp.leaveJoin at hy
  split at hy
  · obtain ⟨hy, -⟩ := List.mem_filter.mp hy
    rcases List.mem_pair.mp hy with rfl | rfl
    · exact (Bool.and_eq_true_iff.mp ((getLsbD_laneMask ..).symm.trans hl)).1
    · exact (Bool.and_eq_true_iff.mp ((BitVec.getLsbD_and ..).symm.trans hl)).1
  · obtain rfl := List.mem_singleton.mp hy
    exact hl

theorem Warp.unparks_settleJoin (w : Warp) : w.Unparks w.settleJoin := by
  unfold Warp.settleJoin
  split
  · exact .refl w
  · refine ⟨rfl, rfl, rfl, rfl, fun y hy => ?_, fun x hx hr => ⟨x, List.mem_flatMap.mpr ⟨x, hx, ?_⟩, rfl, rfl, hr⟩⟩
    · obtain ⟨x, hx, hy⟩ := List.mem_flatMap.mp hy
      exact ⟨x, hx, fun l => w.within_leaveJoin x hy⟩
    · rw [Warp.leaveJoin, hr]
      exact List.mem_singleton_self x

/-! ### Waits of a group -/

/-- Waits may have ended in the warps of a group. -/
def Group.Unparks (x y : Group) : Prop := ∀ w, (x.warp w).Unparks (y.warp w)

theorem Group.Unparks.trans {x y z : Group} (h : x.Unparks y) (k : y.Unparks z) : x.Unparks z := fun w => (h w).trans (k w)

/-- A change of a group that leaves its warps alone ends no wait. -/
theorem Group.Unparks.of_warps {x y : Group} (h : y.warps = x.warps) : x.Unparks y := fun w => by
  rw [Group.warp, Group.warp, h]
  exact .refl _

theorem Group.Unparks.refl (x : Group) : x.Unparks x := .of_warps rfl

theorem Group.unparks_mapWarps (x : Group) {f : Nat → Warp → Warp} (h : ∀ n (w : Warp), w.Unparks (f n w)) : x.Unparks (x.mapWarps f) := by
  intro w
  unfold Group.warp Group.mapWarps
  dsimp only
  induction x.warps with
  | nil => exact .refl _
  | cons p r ih =>
    rw [List.map_cons, Store.get, Store.get]
    split
    · exact h ..
    · exact ih

theorem Group.unparks_completeBar (x : Group) (n : Nat) : x.Unparks (x.completeBar n) :=
  ((Group.Unparks.of_warps rfl).trans ((x.sync n).unparks_mapWarps fun _ w => w.unparks_releaseOn (Wait.onBar n (x.bar n).phase))).trans
    (.of_warps rfl)

theorem Group.unparks_settleBars (x : Group) : x.Unparks x.settleBars :=
  foldl_keeps x.Unparks _ _ (fun y n hy => by
    split
    · exact hy.trans (y.unparks_completeBar n)
    · exact hy) x (.refl x)

theorem Group.unparks_completeCbar (x : Group) : x.Unparks x.completeCbar :=
  (x.unparks_mapWarps fun _ w => w.unparks_releaseOn (Wait.onCbar x.cbar.phase)).trans (.of_warps rfl)

/-- A warp with the queues of its group closed (03 R80). -/
def Warp.closeQueues (x : Group) (w : Warp) : Warp :=
  { w with queues := (List.range 8).foldl (fun qs n =>
      if x.kernel.hasQueue n then Store.put qs Queue.blank n { Store.get qs Queue.blank n with closed := true } else qs) w.queues }

theorem Group.unparks_endA (x : Group) : x.Unparks x.endA :=
  (x.unparks_mapWarps fun _ (w : Warp) => (.of_eq rfl rfl rfl rfl rfl : w.Unparks (w.closeQueues x))).trans (.of_warps rfl)

theorem Group.warps_release (x : Group) : x.release.warps = x.warps := by
  unfold Group.release
  split <;> rfl

theorem Group.unparks_endM (x : Group) : x.Unparks x.endM := .of_warps x.warps_release

/-! ### Waits of the machine -/

/-- Waits may have ended in the warps of the machine. -/
def State.Unparks (s t : State) : Prop := ∀ g, (s.group g).Unparks (t.group g)

theorem State.Unparks.trans {s t u : State} (h : s.Unparks t) (k : t.Unparks u) : s.Unparks u := fun g => (h g).trans (k g)

/-- A change of the machine that leaves its groups alone ends no wait. -/
theorem State.Unparks.of_groups {s t : State} (h : t.groups = s.groups) : s.Unparks t := fun g => by
  rw [State.group, State.group, h]
  exact .refl _

theorem State.Unparks.refl (s : State) : s.Unparks s := .of_groups rfl

theorem State.unparks_modGroup (s : State) (g : Nat) {f : Group → Group} (h : ∀ x : Group, x.Unparks (f x)) : s.Unparks (s.modGroup g f) := by
  intro k
  by_cases hk : k = g
  · rw [hk, State.group_modGroup]
    exact h _
  · rw [State.group_modGroup_ne s f hk]
    exact .refl _

theorem State.unparks_modStream (s : State) (g : Nat) (st : Strm) (f : Stream → Stream) : s.Unparks (s.modStream g st f) :=
  s.unparks_modGroup g fun x => .of_warps (x.warps_modStream st f)

theorem State.groups_postFault (s : State) (r : FaultReq) : (s.postFault r).2.groups = s.groups := by
  unfold State.postFault
  split <;> rfl

theorem State.unparks_escalateStream (s : State) (g : Nat) (st : Strm) (t : Trap) : s.Unparks (s.escalateStream g st t) :=
  (State.Unparks.of_groups (s.groups_postFault _)).trans (State.unparks_modStream _ g st _)

theorem State.unparks_settleCbar (s : State) (g : Nat) : s.Unparks (s.settleCbar g) := by
  unfold State.settleCbar
  dsimp only
  split
  · refine State.Unparks.trans (t := List.foldl _ _ _) ?_ (.of_groups rfl)
    refine foldl_keeps s.Unparks _ _ (fun t h ht => ht.trans (t.unparks_modGroup h Group.unparks_completeCbar)) _ ?_
    exact foldl_keeps s.Unparks State.cluSync _ (fun t h ht => ht.trans (.of_groups rfl)) s (.refl s)
  · exact .of_groups rfl

theorem State.unparks_settleBarriers (s : State) (g : Nat) : s.Unparks (s.settleBarriers g) :=
  (s.unparks_modGroup g Group.unparks_settleBars).trans (State.unparks_settleCbar _ g)

theorem State.unparks_dropClaims (s : State) (g : Nat) : s.Unparks (s.dropClaims g) := .of_groups rfl

theorem State.unparks_settleMend (s : State) (g : Nat) : s.Unparks (s.settleMend g) := by
  unfold State.settleMend
  split
  · exact (s.unparks_modGroup g Group.unparks_endM).trans (State.unparks_settleBarriers _ g)
  · exact .refl s

/-! ### The end of a warp (02 R36; 17 R413) -/

/-- A warp that has ended. -/
def Warp.finished (w : Warp) : Warp :=
  { (w.dropLanes (~~~0)) with ended := true, level := false, saved := [], splits := [], pend := [], errs := [], ups := [], due := none }

/-- The trap of a stream of a group without a warp escalates. -/
def State.orphan (g : Nat) (s : State) (st : Strm) : State :=
  match ((s.group g).stream st).trap with
  | some t => if (s.group g).firstWarp.isNone then s.escalateStream g st t else s
  | none => s

/-- The stream whose trap a warp handled ends with it. -/
def State.endHandled (s : State) (g : Nat) (y : Warp) : State :=
  if !y.level then s
  else match y.tstream.toNat with
    | 1 => s.modGroup g Group.endA
    | 2 => ((s.modStream g .m fun z => { z with stopped := false, trap := none, wait := .mending }).dropClaims g).settleMend g
    | _ => s

theorem State.endWarp_of_stays {s : State} {g w : Nat} (h : ((s.warp g w).ended || (s.warp g w).live != 0) = true) : s.endWarp g w = s := if_pos h

theorem State.endWarp_of_empty {s : State} {g w : Nat} (h : ((s.warp g w).ended || (s.warp g w).live != 0) = false) : s.endWarp g w =
    (((s.modWarp g w Warp.finished).endHandled g (s.warp g w)).orphan g .a).orphan g .m := if_neg (ne_true_of_eq_false h)

theorem State.unparks_orphan (s : State) (g : Nat) (st : Strm) : s.Unparks (s.orphan g st) := by
  unfold State.orphan
  split
  · split
    · exact s.unparks_escalateStream g st _
    · exact .refl s
  · exact .refl s

theorem State.unparks_endHandled (s : State) (g : Nat) (y : Warp) : s.Unparks (s.endHandled g y) := by
  unfold State.endHandled
  split
  · exact .refl s
  · split
    · exact s.unparks_modGroup g Group.unparks_endA
    · exact ((s.unparks_modStream g .m _).trans (State.unparks_dropClaims _ g)).trans (State.unparks_settleMend _ g)
    · exact .refl s

end Sys2Proof.Machine
end

section
/-!
SUPPORT. Lanes that exit (spec/07_isa_lanes_control.md R179; spec/02_execution_model.md R51): the record of the issue through the events that
an exit can set off, the lanes of quads, and what a warp keeps.
-/

namespace Sys2Proof.Machine

/-! ### The record of the issue -/

section
variable (s : State) (g w : Nat)

theorem State.cur_postFault (r : FaultReq) : (s.postFault r).2.cur = s.cur := by
  unfold State.postFault
  split <;> rfl

theorem State.cur_deliver : (s.deliver g w).cur = s.cur := by
  unfold State.deliver
  dsimp only
  split
  · rfl
  · split <;> rfl

theorem State.cur_trapWarp (m : Lanes) (t : Trap) : (s.trapWarp g w m t).cur = s.cur := by
  unfold State.trapWarp
  dsimp only
  split_ifs
  · rfl
  · exact s.cur_postFault _
  · exact s.cur_postFault _
  · exact State.cur_deliver _ g w

theorem State.cur_settleCbar : (s.settleCbar g).cur = s.cur := by
  unfold State.settleCbar
  dsimp only
  split
  · exact foldl_keeps (fun t : State => t.cur = s.cur) (fun (t : State) h => t.modGroup h Group.completeCbar) _ (fun _ _ h => h) _
      (foldl_keeps (fun t : State => t.cur = s.cur) State.cluSync _ (fun _ _ h => h) s rfl)
  · rfl

theorem State.cur_settleBarriers : (s.settleBarriers g).cur = s.cur := State.cur_settleCbar _ g

theorem State.cur_settleMend : (s.settleMend g).cur = s.cur := by
  unfold State.settleMend
  split
  · exact State.cur_settleBarriers _ g
  · rfl

theorem State.cur_endHandled (y : Warp) : (s.endHandled g y).cur = s.cur := by
  unfold State.endHandled
  split
  · rfl
  · split
    · rfl
    · exact State.cur_settleMend _ g
    · rfl

theorem State.cur_orphan (st : Strm) : (s.orphan g st).cur = s.cur := by
  unfold State.orphan
  split
  · split
    · exact s.cur_postFault _
    · rfl
  · rfl

theorem State.cur_endWarp : (s.endWarp g w).cur = s.cur := by
  cases h : (s.warp g w).ended || (s.warp g w).live != 0 with
  | true => rw [State.endWarp_of_stays h]
  | false =>
    rw [State.endWarp_of_empty h, State.cur_orphan, State.cur_orphan, State.cur_endHandled]
    rfl

theorem State.cur_rgrpTrap (b : Option Nat) : (s.rgrpTrap g b).cur = s.cur := by
  unfold State.rgrpTrap
  refine foldl_keeps (fun t : State => t.cur = s.cur) _ _ (fun t w ht => ?_) s rfl
  dsimp only
  split
  · exact ht
  · exact foldl_keeps (fun t : State => t.cur = s.cur) _ _ (fun u x hu => (u.cur_trapWarp ..).trans hu) _ ht

theorem State.cur_rgrpMove : (s.rgrpMove g).cur = s.cur := by
  unfold State.rgrpMove
  rw [State.cur_settleBarriers]
  exact foldl_keeps (fun t : State => t.cur = s.cur) _ _ (fun t w ht => (t.cur_endWarp g w).trans ht) _ rfl

theorem State.cur_settleRgrp : (s.settleRgrp g).cur = s.cur := by
  unfold State.settleRgrp
  dsimp only
  split
  · rfl
  · split
    · exact s.cur_rgrpTrap g _
    · split
      · exact s.cur_rgrpMove g
      · rfl

end

/-! ### Quads (02 R51) -/

theorem getLsbD_quadMask (k l : Nat) : (0xF#64 <<< (4 * k)).getLsbD l = decide (l < 64 ∧ l / 4 = k) := by
  have hbit (j : Nat) : (0xF#64).getLsbD j = decide (j < 64 ∧ j < 4) := by
    rw [show 0xF#64 = BitVec.ofNat 64 (2 ^ 4 - 1) from rfl, BitVec.getLsbD_ofNat, Nat.testBit_two_pow_sub_one, Bool.decide_and]
  rw [BitVec.getLsbD_shiftLeft, hbit, Bool.eq_iff_iff]
  simp only [Bool.and_eq_true, Bool.not_eq_true', decide_eq_true_eq, decide_eq_false_iff_not]
  omega

theorem quadAlive_iff (m : Lanes) (l : Nat) : quadAlive m l = true ↔ ∃ j, j / 4 = l / 4 ∧ m.getLsbD j = true := by
  simp only [quadAlive, Bool.or_eq_true]
  constructor
  · rintro (((h | h) | h) | h)
    · exact ⟨_, by omega, h⟩
    · exact ⟨_, by omega, h⟩
    · exact ⟨_, by omega, h⟩
    · exact ⟨_, by omega, h⟩
  · rintro ⟨j, hq, hj⟩
    obtain rfl | rfl | rfl | rfl : j = l / 4 * 4 ∨ j = l / 4 * 4 + 1 ∨ j = l / 4 * 4 + 2 ∨ j = l / 4 * 4 + 3 := by omega
    · exact .inl (.inl (.inl hj))
    · exact .inl (.inl (.inr hj))
    · exact .inl (.inr hj)
    · exact .inr hj

/-- No lane of a quad is in a mask. -/
theorem and_quadMask_eq_zero (m : Lanes) (l : Nat) : (m &&& (0xF#64 <<< (4 * (l / 4))) == 0) = !quadAlive m l := by
  rw [Bool.eq_iff_iff, beq_iff_eq, Bool.not_eq_true', ← Bool.not_eq_true, quadAlive_iff]
  constructor
  · rintro h ⟨j, hq, hj⟩
    have hbit : (m &&& (0xF#64 <<< (4 * (l / 4)))).getLsbD j = false := by rw [h]; exact BitVec.getLsbD_zero
    rw [BitVec.getLsbD_and, hj, getLsbD_quadMask, decide_eq_true ⟨lane_lt hj, hq⟩] at hbit
    cases hbit
  · intro h
    refine BitVec.eq_of_getLsbD_eq fun j hj => ?_
    rw [BitVec.getLsbD_and, getLsbD_quadMask, show (0 : Lanes).getLsbD j = false from BitVec.getLsbD_zero, Bool.and_eq_false_iff,
      decide_eq_false_iff_not]
    by_contra hno
    rw [not_or, Bool.not_eq_false, not_not] at hno
    exact h ⟨j, hno.2.2, hno.1⟩

/-- The lanes of the quads without a lane in a mask. -/
def deadQuads (m : Lanes) : Lanes := quadMasks.foldl (fun acc q => if m &&& q == 0 then acc ||| q else acc) 0

theorem getLsbD_deadQuads (m : Lanes) {l : Nat} (hl : l < 64) : (deadQuads m).getLsbD l = !quadAlive m l := by
  have hfold (qs : List Lanes) (acc : Lanes) : (qs.foldl (fun acc q => if m &&& q == 0 then acc ||| q else acc) acc).getLsbD l =
      (acc.getLsbD l || qs.any fun q => m &&& q == 0 && q.getLsbD l) := by
    induction qs generalizing acc with
    | nil => rw [List.foldl_nil, List.any_nil, Bool.or_false]
    | cons q r ih =>
      rw [List.foldl_cons, ih, List.any_cons, ← Bool.or_assoc]
      congr 1
      cases m &&& q == 0 <;> simp
  rw [deadQuads, hfold, ← and_quadMask_eq_zero, show (0 : Lanes).getLsbD l = false from BitVec.getLsbD_zero, Bool.false_or, Bool.eq_iff_iff,
    List.any_eq_true]
  simp only [quadMasks, List.mem_map, List.mem_range, Bool.and_eq_true, exists_exists_and_eq_and, getLsbD_quadMask, decide_eq_true_eq]
  exact ⟨fun ⟨k, _, hm, _, hk⟩ => hk ▸ hm, fun hm => ⟨l / 4, by omega, hm, hl, rfl⟩⟩

theorem deadQuads_eq (m : Lanes) : deadQuads m = lanesWhere fun l => !quadAlive m l :=
  BitVec.eq_of_getLsbD_eq fun l hl => by rw [getLsbD_deadQuads m hl, getLsbD_lanesWhere, decide_eq_true hl, Bool.true_and]

/-! ### The warp after an exit -/

/-- A quad with a lane in a mask is not dead. -/
theorem quadAlive_of_live {m : Lanes} {l : Nat} (h : m.getLsbD l = true) : quadAlive m l = true := (quadAlive_iff m l).mpr ⟨l, rfl, h⟩

section
variable (w : Warp) (quadlock : Bool) (m : Lanes)

theorem Warp.exitLanes_handler (h : w.level = true) :
    w.exitLanes true m = (w.dropLanes (m &&& w.live)).dropLanes (deadQuads (w.live &&& ~~~m)) := by
  rw [Warp.exitLanes, h]
  rfl

/-- The lanes that stay as helpers (02 R51). -/
def Warp.helping (w : Warp) (m : Lanes) : Lanes := w.live &&& m &&& ~~~deadQuads (w.live &&& ~~~m)

theorem Warp.exitLanes_user (h : w.level = false) : w.exitLanes true m =
    let v := w.dropLanes (deadQuads (w.live &&& ~~~m))
    let live := v.live &&& ~~~w.helping m
    { v with live := live, helper := v.helper ||| w.helping m, queues := v.queues.map fun p => (p.1, p.2.retire live) } := by
  rw [Warp.exitLanes, h]
  rfl

theorem Warp.exitLanes_keeps : (w.exitLanes quadlock m).vregs = w.vregs ∧ (w.exitLanes quadlock m).ended = w.ended := by
  cases quadlock with
  | false => exact ⟨rfl, rfl⟩
  | true =>
    cases h : w.level with
    | true => rw [w.exitLanes_handler m h]; exact ⟨rfl, rfl⟩
    | false => rw [w.exitLanes_user m h]; exact ⟨rfl, rfl⟩

theorem Warp.live_exitLanes : (w.exitLanes quadlock m).live = w.live &&& ~~~m := by
  have hdead (l : Nat) (hl : l < 64) (hlive : w.live.getLsbD l = true) (hm : m.getLsbD l = false) :
      (deadQuads (w.live &&& ~~~m)).getLsbD l = false := by
    rw [getLsbD_deadQuads _ hl, quadAlive_of_live, Bool.not_true]
    rw [BitVec.getLsbD_and, hlive, BitVec.getLsbD_not, hm, decide_eq_true hl]
    rfl
  cases quadlock with
  | false => rfl
  | true =>
    refine BitVec.eq_of_getLsbD_eq fun l hl => ?_
    have hdead := hdead l hl
    cases h : w.level with
    | true =>
      rw [w.exitLanes_handler m h]
      simp only [Warp.dropLanes, BitVec.getLsbD_and, BitVec.getLsbD_not]
      grind
    | false =>
      rw [w.exitLanes_user m h]
      simp only [Warp.dropLanes, Warp.helping, BitVec.getLsbD_and, BitVec.getLsbD_not]
      grind

end

end Sys2Proof.Machine
end

section
/-! SUPPORT. The machine after an exit (spec/07_isa_lanes_control.md R179; spec/02_execution_model.md R36, R51). -/

namespace Sys2Proof.Machine

/-! ### Lanes dropped -/

theorem Warp.left_dropLanes (w : Warp) (m : Lanes) : (w.dropLanes m).Left m := by
  intro y hy
  obtain ⟨hy, -⟩ := List.mem_filter.mp hy
  obtain ⟨x, -, rfl⟩ := List.mem_map.mp hy
  rw [BitVec.and_assoc, BitVec.not_and_self]
  exact BitVec.and_zero

/-- A lane that is not dropped stays in its split. -/
theorem Warp.stays_dropLanes {w : Warp} {m : Lanes} {x : Split} {l : Nat} (hx : x ∈ w.splits) (hl : x.lanes.getLsbD l = true)
    (hm : m.getLsbD l = false) : ∃ y ∈ (w.dropLanes m).splits, y.lanes.getLsbD l = true ∧ y.pc = x.pc ∧ y.wait = x.wait := by
  have hstay : (x.lanes &&& ~~~m).getLsbD l = true := by
    rw [BitVec.getLsbD_and, BitVec.getLsbD_not, hl, hm, decide_eq_true (lane_lt hl)]
    rfl
  refine ⟨{ x with lanes := x.lanes &&& ~~~m }, List.mem_filter.mpr ⟨List.mem_map_of_mem hx, bne_iff_ne.mpr fun h0 => ?_⟩, hstay, rfl, rfl⟩
  rw [show x.lanes &&& ~~~m = 0 from h0] at hstay
  exact absurd hstay (by rw [show (0 : Lanes).getLsbD l = false from BitVec.getLsbD_zero]; exact Bool.false_ne_true)

/-- A lane that does not leave stands where it stood, if its split is ready. -/
theorem Warp.Unparks.place {w u v : Warp} {m : Lanes} (h : u.Unparks v) (hu : u.splits = (w.dropLanes m).splits) {x : Split} {l : Nat}
    (hx : x ∈ w.splits) (hr : x.wait = .ready) (hl : x.lanes.getLsbD l = true) (hm : m.getLsbD l = false) :
    ∃ z ∈ v.splits, z.lanes.getLsbD l = true ∧ z.pc = x.pc ∧ z.wait = .ready := by
  obtain ⟨y, hy, hyl, hypc, hywait⟩ := Warp.stays_dropLanes hx hl hm
  obtain ⟨z, hz, hlanes, hpc, hwait⟩ := h.ready y (hu ▸ hy) (hywait.trans hr)
  exact ⟨z, hz, hlanes ▸ hyl, hpc.trans hypc, hwait⟩

/-- In a quad-locked kernel the splits lose the lanes of dead quads only (02 R51). -/
theorem Warp.splits_exitLanes {w : Warp} {m : Lanes} (h : w.level = false) :
    (w.exitLanes true m).splits = (w.dropLanes (deadQuads (w.live &&& ~~~m))).splits := by
  rw [w.exitLanes_user m h]

theorem Warp.getLsbD_helper_exitLanes {w : Warp} {m : Lanes} (h : w.level = false) {l : Nat} (hl : l < 64) :
    (w.exitLanes true m).helper.getLsbD l =
      ((w.helper.getLsbD l || (w.live.getLsbD l && m.getLsbD l)) && quadAlive (w.live &&& ~~~m) l) := by
  rw [w.exitLanes_user m h]
  simp only [Warp.dropLanes, Warp.helping, BitVec.getLsbD_or, BitVec.getLsbD_and, BitVec.getLsbD_not, getLsbD_deadQuads _ hl, hl, decide_true,
    Bool.not_not, Bool.true_and]
  grind

/-! ### The state before the collective is considered -/

/-- The state after an exit, before the collective that waits in `rgrp` is considered. -/
def State.exited (s : State) (m : Lanes) : State :=
  (((s.advance.modWarp s.cur.grp s.cur.wid fun y => (y.exitLanes s.curGroup.kernel.quadlock m).settleJoin).modGroup s.cur.grp
    (·.settleWarp s.cur.wid)).endWarp s.cur.grp s.cur.wid).settleBarriers s.cur.grp

theorem State.exitIn_eq (s : State) (m : Lanes) : s.exitIn m = (s.exited m).settleRgrp s.cur.grp := rfl

theorem State.cur_exitIn (s : State) (m : Lanes) : (s.exitIn m).cur = { s.cur with done := true } := by
  rw [State.exitIn_eq, State.cur_settleRgrp, State.exited, State.cur_settleBarriers, State.cur_endWarp]
  exact s.cur_advance

section
variable {s : State} {m : Lanes} {v : Warp} (hv : s.advance.curWarp.exitLanes s.curGroup.kernel.quadlock m = v)
include hv

/-- The issuing warp once its lanes have left. -/
theorem State.warp_of_exit : ((s.advance.modWarp s.cur.grp s.cur.wid fun y => (y.exitLanes s.curGroup.kernel.quadlock m).settleJoin).modGroup
    s.cur.grp (·.settleWarp s.cur.wid)).warp s.cur.grp s.cur.wid = v.settleJoin := by
  have hcur : s.advance.curWarp = s.advance.warp s.cur.grp s.cur.wid := by rw [State.curWarp, s.cur_advance]
  rw [State.warp, State.group_modGroup]
  refine ((State.warp_modWarp s.advance s.cur.grp s.cur.wid _ :)).trans ?_
  rw [← hcur, hv]

/-- A warp with live lanes left goes on. -/
theorem State.unparks_exited (hlive : v.live ≠ 0) : v.Unparks (s.issuer (s.exited m)) := by
  have hw := State.warp_of_exit hv
  have hjoin := v.unparks_settleJoin
  have hstays : ((v.settleJoin).ended || (v.settleJoin).live != 0) = true := by
    rw [hjoin.live, bne_iff_ne.mpr hlive, Bool.or_true]
  unfold State.issuer State.exited
  rw [State.endWarp_of_stays (by rwa [hw])]
  exact hjoin.trans (hw ▸ State.unparks_settleBarriers _ _ s.cur.grp s.cur.wid)

/-- A warp without a live lane left ends. -/
theorem State.unparks_exited_finished (hlive : v.live = 0) (hended : v.ended = false) : v.settleJoin.finished.Unparks (s.issuer (s.exited m)) := by
  have hw := State.warp_of_exit hv
  have hjoin := v.unparks_settleJoin
  have hempty : ((v.settleJoin).ended || (v.settleJoin).live != 0) = false := by
    rw [hjoin.live, hjoin.ended, hlive, hended]
    rfl
  have hfin := (State.warp_modWarp _ s.cur.grp s.cur.wid Warp.finished).trans (congrArg Warp.finished hw)
  unfold State.issuer State.exited
  rw [State.endWarp_of_empty (by rwa [hw]), hw, ← hfin]
  exact ((((State.unparks_endHandled _ _ _).trans (State.unparks_orphan _ _ _)).trans (State.unparks_orphan _ _ _)).trans
    (State.unparks_settleBarriers _ _)) s.cur.grp s.cur.wid

end

/-! ### What the issuing warp keeps -/

/-- The issuing split stands at the next slot, ready. -/
theorem State.split_of_advance {s : State} (hs : s.stands = true) (he : s.cur.strm = .e) :
    ∃ x ∈ s.advance.curWarp.splits, x.lanes = s.cur.lanes ∧ x.pc = s.cur.npc ∧ x.wait = .ready := by
  obtain ⟨x, hx, hlanes⟩ := (State.stands_iff.mp hs).resolve_left (fun hne => hne he)
  rw [s.splits_advance he]
  exact ⟨_, List.mem_map_of_mem hx, by rw [if_pos hlanes]; exact ⟨hlanes, rfl, rfl⟩⟩

/-- Beyond its splits, the warp that issued is as it was when the next slot follows. -/
theorem State.curWarp_advance {s : State} (he : s.cur.strm = .e) : ∃ l, s.advance.curWarp = { s.curWarp with splits := l } := by
  unfold State.advance State.modSplit
  rw [he]
  exact ⟨_, State.curWarp_modCurWarp s _⟩

theorem State.popQueues_nil (s : State) (g : Lanes) : s.popQueues g [] = s := rfl

theorem exec_exit (f : Full) (s : State) : exec (.exit f) s = s.issue (.exit f) f fun s => s.exitIn (s.gLanes f) := rfl

/-- What an exit leaves of its warp's lanes. -/
theorem State.exited_keeps {s : State} (he : s.cur.strm = .e) (hend : s.curWarp.ended = false) (m : Lanes) :
    let v := s.issuer (s.exited m)
    v.vregs = s.curWarp.vregs ∧ v.live = s.curWarp.live &&& ~~~m ∧ (s.curWarp.live &&& ~~~m = 0 ↔ v.ended = true) ∧
      (s.curWarp.live &&& ~~~m = 0 → v.helper = 0 ∧ v.splits = []) ∧
      (s.curWarp.live &&& ~~~m ≠ 0 → (s.advance.curWarp.exitLanes s.curGroup.kernel.quadlock m).Unparks v) := by
  intro v
  obtain ⟨l, hadv⟩ := State.curWarp_advance he
  obtain ⟨hvregs, hended⟩ := s.advance.curWarp.exitLanes_keeps s.curGroup.kernel.quadlock m
  have hlive := s.advance.curWarp.live_exitLanes s.curGroup.kernel.quadlock m
  generalize hu : s.advance.curWarp.exitLanes s.curGroup.kernel.quadlock m = u at hvregs hended hlive ⊢
  replace hvregs : u.vregs = s.curWarp.vregs := hvregs.trans (by rw [hadv])
  replace hended : u.ended = false := hended.trans (by rw [hadv]; exact hend)
  replace hlive : u.live = s.curWarp.live &&& ~~~m := hlive.trans (by rw [hadv])
  have hjoin := u.unparks_settleJoin
  rw [← hlive]
  by_cases h0 : u.live = 0
  · have hfin : u.settleJoin.finished.Unparks v := State.unparks_exited_finished hu h0 hended
    have hnone (x : Lanes) : x &&& ~~~(~~~0#64) = 0 := by rw [BitVec.not_not]; exact BitVec.and_zero
    refine ⟨hfin.vregs.trans (hjoin.vregs.trans hvregs), ?_, ⟨fun _ => hfin.ended, fun _ => h0⟩, fun _ => ⟨hfin.helper.trans (hnone _), ?_⟩,
      fun hne => absurd h0 hne⟩
    · rw [h0]
      exact hfin.live.trans (hnone _)
    · exact List.eq_nil_iff_forall_not_mem.mpr fun y hy => by
        obtain ⟨x, hx, -⟩ := hfin.within y hy
        cases hx
  · have hstay : u.Unparks v := State.unparks_exited hu h0
    have hgoes : v.ended = false := hstay.ended.trans hended
    exact ⟨hstay.vregs.trans hvregs, hstay.live, ⟨fun h => absurd h h0, fun h => absurd h (by rw [hgoes]; exact Bool.false_ne_true)⟩,
      fun h => absurd h h0, fun _ => hstay⟩

end Sys2Proof.Machine
end

section
namespace Sys2Proof.Machine

/-- Settles O17: the lanes that exit leave the warp and its splits, and the others go on. -/
theorem exitResults : Obligations.ExitResults := by
  intro f s he hs hend left
  have hstrm := State.strm_of_executes he rfl rfl
  have hqueues : s.queuesRead (.exit f) f = [] := by
    unfold State.queuesRead
    split <;> rfl
  obtain ⟨hvregs, hlive, hended, hempty, hstays⟩ := State.exited_keeps hstrm hend (s.gLanes f)
  obtain ⟨x, hx, hlanes, hpc, hready⟩ := State.split_of_advance hs hstrm
  obtain ⟨l, hadv⟩ := State.curWarp_advance hstrm
  have hlevel : s.advance.curWarp.level = s.curWarp.level := by rw [hadv]
  have hhelper : s.advance.curWarp.helper = s.curWarp.helper := by rw [hadv]
  have hlanesLeft : s.advance.curWarp.live &&& ~~~s.gLanes f = left := by rw [hadv]
  refine ⟨s.exited (s.gLanes f), ?exec, hvregs, hlive, hended, fun hplain => ?plain, fun hquad hl hne => ?quad⟩
  case exec =>
    rw [exec_of_done (exec_exit f s) he (s.cur_exitIn _), hqueues, State.popQueues_nil, State.exitIn_eq]
  case plain =>
    rw [hplain] at hstays
    refine ⟨?_, fun h0 => (hempty h0).1, fun hne => ?_, fun hne l hl hcl hg => ?_⟩
    · by_cases h0 : left = 0
      · intro y hy
        rw [(hempty h0).2] at hy
        cases hy
      · exact (hstays h0).left (Warp.left_dropLanes _ _)
    · exact (hstays hne).helper.trans (congrArg (· &&& ~~~s.gLanes f) hhelper)
    · obtain ⟨z, hz, hzl, hzpc, hzwait⟩ := (hstays hne).place rfl hx hready (hlanes ▸ hcl) hg
      exact ⟨z, hz, hzl, hzpc.trans hpc, hzwait⟩
  case quad =>
    rw [hquad] at hstays
    have hsplits := Warp.splits_exitLanes (m := s.gLanes f) (hlevel.trans hl)
    rw [hlanesLeft] at hsplits
    refine ⟨fun l hl64 => ?_, ?_, fun l hl64 hcl halive => ?_⟩
    · rw [(hstays hne).helper, Warp.getLsbD_helper_exitLanes (hlevel.trans hl) hl64, hlanesLeft, hadv]
    · refine (hstays hne).left fun y hy => ?_
      rw [hsplits] at hy
      rw [← deadQuads_eq]
      exact Warp.left_dropLanes _ _ y hy
    · obtain ⟨z, hz, hzl, hzpc, hzwait⟩ := (hstays hne).place hsplits hx hready (hlanes ▸ hcl) (by rw [getLsbD_deadQuads _ hl64, halive]; rfl)
      exact ⟨z, hz, hzl, hzpc.trans hpc, hzwait⟩

end Sys2Proof.Machine
end

section
/-!
SUPPORT. A store that its own agent does not read back (spec/08_memory_model.md R197 to R200, R208). A dirty line of the agent's L1 has a clean
copy in the cluster cache that stands at another physical line, the one stored to. The load makes the L1 give that line up: its write-back turns
the clean copy dirty, and the fill, which finds the stored line under a second tag, merges that copy over the bytes stored.
-/

namespace Sys2Proof.Machine

/-- The agent of core 0, whose cluster is 0. -/
def loneAgent : Agent := ⟨0, 0, some (0, 0)⟩

/-- The first byte of virtual line 1, at physical line 1. -/
def lineOneByte : Loc := ⟨128, 128⟩

/-- A clean copy of virtual line 2 that stands at physical line 1. -/
def staleCopy : Line := newLine ⟨0, 0, 2⟩ 1 0

/-- Virtual line 2 at physical line 2, its first byte dirty. -/
def remappedCopy : Line := { newLine ⟨0, 0, 2⟩ 2 0 with valid := 1, dirty := 1 }

/-- The L1 is full of the remapped copy, and the cluster cache holds the stale one. -/
def remappedMem : Mem :=
  { Mem.reset with l1 := [(0, List.replicate 2048 remappedCopy)], cc := [(0, [staleCopy])], fills := [(1, 0, 0, 2)] }

/-- A store of 5 at the home slice. -/
def remappedMemStored : Mem := { remappedMem with home := [(128, 5)] }

/-- The L1 has given up a line, and the cluster cache's copy is dirty. -/
def remappedMemEvicted : Mem :=
  { remappedMemStored with
    l1 := [], cc := [(0, [{ staleCopy with valid := 1, dirty := 1, stamp := 1, wrote := 1 }])], fills := [(1, 0, 0, 2), (2, 0, 0, 2)], stamp := 1 }

theorem writeAt_remappedMem : remappedMem.writeAt loneAgent lineOneByte 1 5 2 = remappedMemStored := by decide +kernel

theorem mem_cache_remappedMem {id : CacheId} {x : Line} (h : x ∈ remappedMem.cache id) : x = remappedCopy ∨ x = staleCopy := by
  rcases id with (_ | c) | (_ | c)
  · exact .inl (List.eq_of_mem_replicate h)
  · cases h
  · exact .inr (List.mem_singleton.mp h)
  · cases h

/-- Whichever line the full L1 gives up, it is the remapped copy. -/
theorem victim_remappedMemStored : remappedMemStored.victim (.l1 0) (loneAgent.tag lineOneByte) = some remappedCopy := by
  have hfull : ((remappedMemStored.line (.l1 0) (loneAgent.tag lineOneByte)).isSome ||
      decide ((remappedMemStored.cache (.l1 0)).length < (CacheId.l1 0).lines)) = false := by decide +kernel
  have hcache : remappedMemStored.cache (.l1 0) = List.replicate 2048 remappedCopy := rfl
  rw [Mem.victim, if_neg (by rw [hfull]; exact Bool.false_ne_true), hcache, List.length_replicate]
  exact List.getElem?_replicate_of_lt (Nat.mod_lt _ (by decide))

theorem roomL1_remappedMemStored : remappedMemStored.roomL1 0 0 (loneAgent.tag lineOneByte) = remappedMemEvicted := by
  have hevict : (remappedMemStored.backL1 0 0 remappedCopy).dropLine (.l1 0) remappedCopy.tag = remappedMemEvicted := by decide +kernel
  unfold Mem.roomL1
  rw [victim_remappedMemStored, ← hevict]

theorem Mem.push_zero (m : Mem) (a : Agent) (l : Loc) : m.push a l 0 = m := by
  unfold Mem.push
  cases a.path <;> rfl

/-- A read at the L1 returns the bytes of its line, which the fill has brought in. -/
theorem Mem.readAt_zero (m : Mem) {a : Agent} {core clu : Nat} (ha : a.path = some (core, clu)) (l : Loc) (n : Nat) :
    (m.readAt a l n 0).1 = (((m.fillL1 core clu (a.tag l) (l.phys / 128) (l.va % 128) n).line (.l1 core) (a.tag l)).map
      (·.read (l.va % 128) n)).getD 0 := by
  simp only [Mem.readAt, Mem.push_zero, ha]
  cases (m.fillL1 core clu (a.tag l) (l.phys / 128) (l.va % 128) n).line (.l1 core) (a.tag l) <;> rfl

theorem readAt_remappedMemStored : (remappedMemStored.readAt loneAgent lineOneByte 1 0).1 = 0 := by
  have hmiss : remappedMemStored.hit (.l1 0) (loneAgent.tag lineOneByte) (lineOneByte.va % 128) 1 = false := by decide +kernel
  have hnone : remappedMemStored.line (.l1 0) (loneAgent.tag lineOneByte) = none := by decide +kernel
  rw [Mem.readAt_zero _ rfl, Mem.fillL1, hmiss, hnone, roomL1_remappedMemStored]
  decide +kernel

/-- Refutes O28: the load after a store of 5 returns 0, though each cache that holds the stored line holds it at its physical line and no byte of
it is to be written back. -/
theorem not_memoryReadsAndWrites : ¬ Obligations.MemoryReadsAndWrites := by
  rintro ⟨hreads, -⟩
  have hread := hreads remappedMem loneAgent lineOneByte 1 5 2 0 (.inl rfl) rfl rfl rfl (by rintro p ⟨⟩; rfl) ?line
    (fun _ hw => nomatch (List.not_mem_nil hw)) ?dirty
  case line =>
    intro id x hx
    rcases mem_cache_remappedMem hx with rfl | rfl
    · exact nofun
    · exact nofun
  case dirty =>
    intro id x hx hline hdirty
    rcases mem_cache_remappedMem hx with rfl | rfl
    · exact absurd hline (by decide)
    · exact absurd rfl hdirty
  rw [writeAt_remappedMem, readAt_remappedMemStored] at hread
  exact absurd hread (by decide)

end Sys2Proof.Machine
end

section
/-!
SUPPORT. What the operations of memory leave alone (spec/08_memory_model.md R197 to R225; spec/17_privileged_traps.md R424): a write or a merge at
the home slices touches no cache, an access touches no lock and no invalidation, and a write-back brings no tag into a cache that none had.
-/

namespace Sys2Proof.Machine

/-! ### The home slices -/

/-- What a write or a merge at the home slices leaves alone. -/
def Mem.aside (m : Mem) : Mem := { m with home := [], poison := [], tags := [], dir := [], conflict := [], rsets := [], stamp := 0 }

theorem Mem.aside_merge (m : Mem) (w : WriteBack) : (m.merge w).aside = m.aside := by
  have hfold (f : Mem → Nat → Mem) (hf : ∀ x i, (f x i).aside = x.aside) (l : List Nat) {x : Mem} (hx : x.aside = m.aside) :
      (l.foldl f x).aside = m.aside := foldl_keeps (fun x => x.aside = m.aside) f l (fun y i hy => (hf y i).trans hy) x hx
  have hlast {x : Mem} (st) (k) (hx : x.aside = m.aside) : ({ x with stamp := st, conflict := k } : Mem).aside = m.aside := hx
  unfold Mem.merge
  refine hlast _ _ (hfold _ ?sets _ (hfold _ ?poison _ (hfold _ ?bytes _ rfl)))
  case sets => exact fun _ _ => rfl
  case bytes => exact fun _ _ => rfl
  case poison =>
    intro x i
    dsimp only
    split
    · rfl
    · split <;> rfl

theorem Mem.aside_setBytes (m : Mem) (a : Nat) (l : List W8) : (m.setBytes a l).aside = m.aside := by
  induction l generalizing m a with
  | nil => rfl
  | cons x r ih => exact ih _ _

theorem Mem.aside_writeNat (m : Mem) (a n v : Nat) : (m.writeNat a n v).aside = m.aside := m.aside_setBytes a _

theorem Mem.aside_writeParts (m : Mem) (l : List (Nat × Nat)) (v : Nat) : (m.writeParts l v).aside = m.aside := by
  induction l generalizing m v with
  | nil => rfl
  | cons p r ih => exact (ih _ _).trans (m.aside_writeNat _ _ _)

/-! ### Locks, invalidations, and the tags in the caches -/

/-- Range locks, invalidations under way, and writes to XINV that are held. -/
abbrev Control := List Lock × List Inval × List (Nat × W64)

/-- What no access changes. -/
def Mem.control (m : Mem) : Control := (m.locks, m.inval, m.heldXinv)

/-- A line stands in some cache. -/
def Mem.Caches (m : Mem) (x : Line) : Prop := (∃ p ∈ m.l1, x ∈ p.2) ∨ ∃ p ∈ m.cc, x ∈ p.2

theorem Mem.caches_of_mem {m : Mem} {id : CacheId} {x : Line} (h : x ∈ m.cache id) : m.Caches x := by
  have hget (s : Store (List Line)) (k : Nat) (hx : x ∈ Store.get s [] k) : ∃ p ∈ s, x ∈ p.2 := by
    rcases Store.get_eq_or_mem s [] k with h0 | hp
    · rw [h0] at hx
      cases hx
    · exact ⟨_, hp, hx⟩
  cases id with
  | l1 k => exact .inl (hget m.l1 k h)
  | cc k => exact .inr (hget m.cc k h)

/-- Locks and invalidations are those given, and no line in a cache has a tag that `P` names. -/
structure Mem.Clear (c : Control) (P : LineTag → Prop) (m : Mem) : Prop where
  control : m.control = c
  tags : ∀ x, m.Caches x → ¬ P x.tag

theorem Mem.clear_none (m : Mem) : m.Clear m.control fun _ => False := ⟨rfl, fun _ _ => id⟩

section
variable {c : Control} {P : LineTag → Prop} {m n : Mem}

theorem Mem.Clear.congr (h : m.Clear c P) (hc : n.control = m.control) (h1 : n.l1 = m.l1) (h2 : n.cc = m.cc) : n.Clear c P :=
  ⟨hc.trans h.control, fun x hx => h.tags x (by rwa [Mem.Caches, h1, h2] at hx)⟩

theorem Mem.Clear.of_mem (h : m.Clear c P) {id : CacheId} {x : Line} (hx : x ∈ m.cache id) : ¬ P x.tag := h.tags x (caches_of_mem hx)

theorem Mem.Clear.ite (b : Prop) [Decidable b] (hm : m.Clear c P) (hn : n.Clear c P) : (if b then m else n).Clear c P := by
  split
  · exact hm
  · exact hn

theorem Mem.Clear.setCache (h : m.Clear c P) (id : CacheId) {l : List Line} (hl : ∀ x ∈ l, ¬ P x.tag) : (m.setCache id l).Clear c P := by
  have hput {s : Store (List Line)} {k : Nat} {x : Line} (hx : ∃ p ∈ Store.put s [] k l, x ∈ p.2) : x ∈ l ∨ ∃ p ∈ s, x ∈ p.2 := by
    obtain ⟨p, hp, hx⟩ := hx
    rcases Store.mem_put hp with rfl | hp
    · exact .inl hx
    · exact .inr ⟨p, hp, hx⟩
  cases id with
  | l1 k => exact ⟨h.control, fun x hx => hx.elim (fun hx => (hput hx).elim (hl x) fun hx => h.tags x (.inl hx)) fun hx => h.tags x (.inr hx)⟩
  | cc k => exact ⟨h.control, fun x hx => hx.elim (fun hx => h.tags x (.inl hx)) fun hx => (hput hx).elim (hl x) fun hx => h.tags x (.inr hx)⟩

theorem Mem.Clear.cleanLine (h : m.Clear c P) (id : CacheId) (t : LineTag) : (m.cleanLine id t).Clear c P :=
  h.setCache id fun x hx => by
    obtain ⟨y, hy, rfl⟩ := List.mem_map.mp hx
    split
    · exact h.of_mem (x := y) hy
    · exact h.of_mem hy

theorem Mem.Clear.dropLine (h : m.Clear c P) (id : CacheId) (t : LineTag) : (m.dropLine id t).Clear c P :=
  h.setCache id fun _ hx => h.of_mem (List.mem_filter.mp hx).1

theorem Mem.Clear.putLine (h : m.Clear c P) (id : CacheId) {l : Line} (hl : ¬ P l.tag) : (m.putLine id l).Clear c P := by
  refine Mem.Clear.ite _ (h.setCache id fun x hx => ?_) (h.setCache id fun x hx => ?_)
  · obtain ⟨y, hy, rfl⟩ := List.mem_map.mp hx
    split
    · exact hl
    · exact h.of_mem hy
  · rcases List.mem_append.mp hx with hx | hx
    · exact h.of_mem hx
    · rwa [List.mem_singleton.mp hx]

theorem Mem.Clear.merge (h : m.Clear c P) (w : WriteBack) : (m.merge w).Clear c P :=
  h.congr (congrArg Mem.control (m.aside_merge w) :) (congrArg Mem.l1 (m.aside_merge w) :) (congrArg Mem.cc (m.aside_merge w) :)

theorem Mem.Clear.drain (h : m.Clear c P) (clu : Nat) : (m.drain clu).Clear c P :=
  foldl_keeps (Mem.Clear c P) _ _ (fun _ _ hx => hx.merge _) _ (h.congr rfl rfl rfl)

theorem Mem.Clear.drainAll (h : m.Clear c P) : m.drainAll.Clear c P := foldl_keeps (Mem.Clear c P) _ _ (fun _ k hx => hx.drain k) _ h

theorem Mem.Clear.sendCC (h : m.Clear c P) (clu : Nat) (l : Line) : (m.sendCC clu l).Clear c P :=
  Mem.Clear.ite _ h ((h.cleanLine (.cc clu) _).congr rfl rfl rfl)

theorem Mem.Clear.markShared (h : m.Clear c P) (pline : Nat) : (m.markShared pline).Clear c P := by
  have hmap {s : Store (List Line)} {x : Line} {f : Line → Line} (hf : ∀ y, (f y).tag = y.tag)
      (hx : ∃ p ∈ s.map fun p => (p.1, p.2.map f), x ∈ p.2) : ∃ y, (∃ p ∈ s, y ∈ p.2) ∧ x.tag = y.tag := by
    obtain ⟨q, hq, hx⟩ := hx
    obtain ⟨p, hp, rfl⟩ := List.mem_map.mp hq
    obtain ⟨y, hy, rfl⟩ := List.mem_map.mp hx
    exact ⟨y, ⟨p, hp, hy⟩, hf y⟩
  have hf (y : Line) : (if y.pline == pline then { y with shared := true } else y).tag = y.tag := by split <;> rfl
  refine ⟨h.control, fun x hx => ?_⟩
  rcases hx with hx | hx
  · obtain ⟨y, hy, ht⟩ := hmap hf hx
    rw [ht]
    exact h.tags y (.inl hy)
  · obtain ⟨y, hy, ht⟩ := hmap hf hx
    rw [ht]
    exact h.tags y (.inr hy)

theorem Mem.Clear.served (h : m.Clear c P) (t : LineTag) (pline : Nat) : (m.served t pline).Clear c P :=
  have hfills (l) : ({ m with fills := l } : Mem).Clear c P := h.congr rfl rfl rfl
  Mem.Clear.ite _ h (Mem.Clear.ite _ ((hfills _).markShared pline) (hfills _))

theorem Mem.Clear.roomCC (h : m.Clear c P) (clu : Nat) (t : LineTag) : (m.roomCC clu t).Clear c P := by
  unfold Mem.roomCC
  cases m.victim (.cc clu) t with
  | none => exact h
  | some l => exact (h.sendCC clu l).dropLine _ _

theorem Mem.tag_lineOr (m : Mem) (id : CacheId) (t : LineTag) (pline : Nat) : (m.lineOr id t pline).tag = t := by
  unfold Mem.lineOr
  cases hl : m.line id t with
  | none => rfl
  | some x =>
    have hx := List.find?_some hl
    simp only [Line.has, Bool.and_eq_true, beq_iff_eq] at hx
    simp [Line.tag, hx]

theorem Mem.Clear.storeCC (h : m.Clear c P) (clu : Nat) {t : LineTag} (ht : ¬ P t) (pline : Nat) (k : BitVec 128) (d : BitVec 1024) (x : BitVec 4) :
    (m.storeCC clu t pline k d x).Clear c P := by
  have hsent : (match m.oldest (.cc clu) with | some l => m.sendCC clu l | none => m).Clear c P := by
    cases m.oldest (.cc clu) with
    | none => exact h
    | some l => exact h.sendCC clu l
  have hput {n : Mem} (hn : n.Clear c P) :
      (n.putLine (.cc clu) (let y := (n.lineOr (.cc clu) t pline).store k d n.stamp; { y with poison := y.poison ||| x })).Clear c P :=
    hn.putLine _ (by
      change ¬ P (n.lineOr (.cc clu) t pline).tag
      rwa [Mem.tag_lineOr])
  exact hput ((((Mem.Clear.ite _ hsent h).roomCC clu t).served t pline).congr (n := Mem.tick _) rfl rfl rfl)

theorem Mem.Clear.backL1 (h : m.Clear c P) (core clu : Nat) {l : Line} (hl : ¬ P l.tag) : (m.backL1 core clu l).Clear c P :=
  Mem.Clear.ite _ h ((h.cleanLine (.l1 core) _).storeCC clu hl _ _ _ _)

theorem Mem.Clear.flushL1 (h : m.Clear c P) (core clu : Nat) (own : Line → Bool) : (m.flushL1 core clu own).1.Clear c P :=
  List.foldlRecOn _ _ h fun _ hx _ hl => hx.backL1 core clu (h.of_mem (List.mem_filter.mp (List.mem_filter.mp hl).1).1)

theorem Mem.Clear.flushCC (h : m.Clear c P) (clu : Nat) (own : Line → Bool) : (m.flushCC clu own).1.Clear c P :=
  (foldl_keeps (Mem.Clear c P) _ _ (fun _ l hx => hx.sendCC clu l) _ h).drain clu

theorem Mem.Clear.flushAll (h : m.Clear c P) (own : Line → Bool) : (m.flushAll own).Clear c P :=
  have h1 := foldl_keeps (Mem.Clear c P) _ m.l1 (fun _ p hx => hx.flushL1 p.1 (cluOfCore p.1) own) _ h
  (foldl_keeps (Mem.Clear c P) _ _ (fun _ p hx => hx.flushCC p.1 own) _ h1).drainAll

/-- The lines that leave every cache leave no tag behind that only they had. -/
theorem Mem.Clear.without {Q : LineTag → Prop} {gone : Line → Bool} (h : m.Clear c P) (hQ : ∀ x, Q x.tag → P x.tag ∨ gone x = true) :
    (m.without gone).Clear c Q := by
  have hstays {s : Store (List Line)} {x : Line}
      (hx : ∃ p ∈ (s.map fun p => (p.1, p.2.filter fun l => !gone l)).filter fun p => !p.2.isEmpty, x ∈ p.2) :
      (∃ p ∈ s, x ∈ p.2) ∧ gone x = false := by
    obtain ⟨q, hq, hx⟩ := hx
    obtain ⟨p, hp, rfl⟩ := List.mem_map.mp (List.mem_filter.mp hq).1
    obtain ⟨hx, hg⟩ := List.mem_filter.mp hx
    exact ⟨⟨p, hp, hx⟩, by simpa using hg⟩
  refine ⟨h.control, fun x hx hq => ?_⟩
  have hin : m.Caches x ∧ gone x = false := by
    rcases hx with hx | hx
    · exact ⟨.inl (hstays hx).1, (hstays hx).2⟩
    · exact ⟨.inr (hstays hx).1, (hstays hx).2⟩
  rcases hQ x hq with hp | hg
  · exact h.tags x hin.1 hp
  · rw [hin.2] at hg
    cases hg

end

theorem Mem.control_flushAll (m : Mem) (own : Line → Bool) : (m.flushAll own).control = m.control := (m.clear_none.flushAll own).control

end Sys2Proof.Machine
end

section
/-!
SUPPORT. Write-backs that merge (spec/08_memory_model.md R219, R230), cached translations (spec/19_translation_places.md R447) and invalidations
(spec/17_privileged_traps.md R424; spec/19_translation_places.md R450).
-/

namespace Sys2Proof

theorem Store.get_map {α β : Type} (s : Store α) (f : α → β) (d : α) (k : Nat) :
    Store.get (s.map fun p => (p.1, f p.2) : Store β) (f d) k = f (Store.get s d k) := by
  induction s with
  | nil => rfl
  | cons p r ih =>
    rw [List.map_cons, Store.get, Store.get, ih]
    split <;> rfl

namespace Machine

/-! ### The bytes of a write-back -/

theorem getLsbD_foldl_or {w : Nat} (p : Nat → Bool) (x : Nat → BitVec w) (l : List Nat) (acc : BitVec w) (i : Nat) :
    (l.foldl (fun acc k => if p k then acc ||| x k else acc) acc).getLsbD i = (acc.getLsbD i || l.any fun k => p k && (x k).getLsbD i) := by
  induction l generalizing acc with
  | nil => simp
  | cons k r ih =>
    rw [List.foldl_cons, ih, List.any_cons, ← Bool.or_assoc]
    cases p k <;> simp

/-- The mask of sector k holds the bytes that lie in it. -/
theorem getLsbD_sectorMask {i : Nat} (hi : i < 128) (k : Nat) :
    (0xFFFFFFFF#128 <<< (32 * k)).getLsbD i = decide (i / 32 = k) := by
  have hones (j : Nat) : (0xFFFFFFFF#128).getLsbD j = decide (j < 32) := by
    rw [show (0xFFFFFFFF#128) = BitVec.setWidth 128 (BitVec.allOnes 32) from rfl, BitVec.getLsbD_setWidth, BitVec.getLsbD_allOnes]
    by_cases h : j < 32
    · simp [h, Nat.lt_trans h (by decide : 32 < 128)]
    · simp [h]
  rw [BitVec.getLsbD_shiftLeft, hones, Bool.eq_iff_iff]
  simp only [Bool.and_eq_true, decide_eq_true_eq, Bool.not_eq_true', decide_eq_false_iff_not]
  omega

/-- The home slice holds the dirty bytes of the sectors under a lock. -/
theorem Mem.getLsbD_heldBytes (m : Mem) (w : WriteBack) {i : Nat} (hi : i < 128) :
    (m.heldBytes w).getLsbD i = (w.dirty.getLsbD i && m.locked w.part w.asid (128 * w.vline + 32 * (i / 32)) 32 false) := by
  rw [Mem.heldBytes, getLsbD_foldl_or, Bool.eq_iff_iff]
  simp only [BitVec.getLsbD_and, getLsbD_sectorMask hi, Bool.or_eq_true, List.any_eq_true, List.mem_range, Bool.and_eq_true, decide_eq_true_eq]
  constructor
  · rintro (h | ⟨k, -, hlock, hdirty, rfl⟩)
    · simp at h
    · exact ⟨hdirty, hlock⟩
  · exact fun ⟨hdirty, hlock⟩ => .inr ⟨i / 32, by omega, hlock, hdirty, rfl⟩

theorem Mem.getLsbD_free (m : Mem) (w : WriteBack) {i : Nat} (hi : i < 128) :
    (m.free w).dirty.getLsbD i = (w.dirty.getLsbD i && !m.locked w.part w.asid (128 * w.vline + 32 * (i / 32)) 32 false) := by
  change (w.dirty &&& ~~~m.heldBytes w).getLsbD i = _
  rw [BitVec.getLsbD_and, BitVec.getLsbD_not, m.getLsbD_heldBytes w hi, decide_eq_true hi]
  cases w.dirty.getLsbD i <;> rfl

/-! ### Merging -/

/-- Bytes set one after another at their offsets from a base. -/
theorem Mem.byte_foldl_setByte (f : Mem → Nat → Mem) (base : Nat) (x : Nat → W8)
    (hf : ∀ m i b, (f m i).byte b = if b = base + i then x i else m.byte b) (l : List Nat) (m : Mem) (b : Nat) :
    (l.foldl f m).byte b = if base ≤ b ∧ b - base ∈ l then x (b - base) else m.byte b := by
  induction l generalizing m with
  | nil => simp
  | cons i r ih =>
    rw [List.foldl_cons, ih, hf]
    by_cases hr : base ≤ b ∧ b - base ∈ r
    · rw [if_pos hr, if_pos ⟨hr.1, List.mem_cons_of_mem _ hr.2⟩]
    · rw [if_neg hr]
      by_cases hb : b = base + i
      · subst hb
        rw [if_pos rfl, if_pos ⟨Nat.le_add_right _ _, by simp⟩, Nat.add_sub_cancel_left]
      · rw [if_neg hb, if_neg]
        rintro ⟨hle, hmem⟩
        rcases List.mem_cons.mp hmem with he | hmem
        · omega
        · exact hr ⟨hle, hmem⟩

/-- A write-back merges byte by byte. -/
theorem Mem.byte_merge (m : Mem) (w : WriteBack) (b : Nat) :
    (m.merge w).byte b = if 128 * w.pline ≤ b ∧ b < 128 * w.pline + 128 ∧ w.dirty.getLsbD (b - 128 * w.pline) = true then
      w.data.extractLsb' (8 * (b - 128 * w.pline)) 8 else m.byte b := by
  have hkeeps (f : Mem → Nat → Mem) (hf : ∀ x i, (f x i).byte b = x.byte b) (l : List Nat) (x : Mem) : (l.foldl f x).byte b = x.byte b :=
    foldl_keeps (fun y => y.byte b = x.byte b) f l (fun y i hy => (hf y i).trans hy) x rfl
  have hlast (x : Mem) (st) (k) : ({ x with stamp := st, conflict := k } : Mem).byte b = x.byte b := rfl
  unfold Mem.merge
  dsimp only
  rw [hlast, hkeeps _ ?sets, hkeeps _ ?poison, Mem.byte_foldl_setByte _ (128 * w.pline) (fun i => w.data.extractLsb' (8 * i) 8) ?bytes]
  case sets => exact fun _ _ => rfl
  case bytes => exact fun x i c => x.byte_setByte _ c _
  case poison =>
    intro x i
    split
    · rfl
    · split <;> rfl
  · refine if_congr ?_ rfl rfl
    simp only [List.mem_filter, List.mem_range]
    exact and_congr_right fun hle => and_congr_left fun _ => by omega

theorem Mem.mergeOne_of_none {m : Mem} {cluster : Nat} (h : (m.wbq.find? fun w => w.cluster == cluster && !m.holds w) = none) :
    m.mergeOne cluster = m := by
  unfold Mem.mergeOne
  rw [List.findIdx?_eq_none_iff.mpr (by simpa using h)]

/-- The oldest write-back of a cluster that is not held in all its bytes merges, and what is held of it keeps its place (08 R219, R230). -/
theorem Mem.mergeOne_of_some {m : Mem} {cluster : Nat} {w : WriteBack}
    (h : (m.wbq.find? fun w => w.cluster == cluster && !m.holds w) = some w) :
    ∃ before after, m.wbq = before ++ w :: after ∧ (∀ v ∈ before, v.cluster = cluster → m.holds v = true) ∧
      m.mergeOne cluster = { m with wbq := before ++ (m.rest w).toList ++ after }.merge (m.free w) := by
  obtain ⟨hpick, before, after, heq, hbefore⟩ := List.find?_eq_some_iff_append.mp h
  have hheld (v : WriteBack) (hv : v ∈ before) (hc : v.cluster = cluster) : m.holds v = true := by simpa [hc] using hbefore v hv
  have hidx : (m.wbq.findIdx? fun w => w.cluster == cluster && !m.holds w) = some before.length := by
    rw [heq, List.findIdx?_append, List.findIdx?_eq_none_iff.mpr fun v hv => (Bool.not_eq_true' _).mp (hbefore v hv), List.findIdx?_cons,
      if_pos hpick]
    simp
  have hget : m.wbq[before.length]? = some w := by simp [heq]
  have htake : m.wbq.take before.length = before := by simp [heq]
  have hdrop : m.wbq.drop (before.length + 1) = after := by simp [heq]
  refine ⟨before, after, heq, hheld, ?_⟩
  unfold Mem.mergeOne
  simp only [hidx, hget, htake, hdrop]

/-! ### Cached translations -/

theorem Mem.cached_cacheXlat (m : Mem) (part asid vpage : Nat) (x : Xlat) : (m.cacheXlat part asid vpage x).cached part asid vpage = some x := by
  have hnone : (m.tlb.filter fun e => !(e.part == part && e.asid == asid && e.vpage == vpage)).find?
      (fun e => e.part == part && e.asid == asid && e.vpage == vpage) = none :=
    List.find?_eq_none.mpr fun e he => by
      rw [(Bool.not_eq_true' _).mp (List.mem_filter.mp he).2]
      exact Bool.false_ne_true
  rw [Mem.cached, Mem.cacheXlat, List.find?_append, hnone]
  simp

/-! ### Invalidation -/

theorem State.takeXinv_eq (s : State) (part : Nat) (v : W64) : s.takeXinv part v =
    if v.getLsbD 16 = true ∨ (s.ctx (ctxKey part (v.toNat % 65536))).used = true then
      s.startInval part (if v.getLsbD 16 then none else some (v.toNat % 65536)) true
    else s := by
  have hasid : (v.extractLsb' 0 16).toNat = v.toNat % 65536 := by simp
  unfold State.takeXinv xinvAsid State.asidKnown
  rw [hasid]
  cases v.getLsbD 16 <;> simp

/-- A held write that is taken changes the invalidations under way and the held writes alone. -/
theorem State.admitXinv_changes (s : State) (part : Nat) :
    ∃ l h, s.admitXinv part = { s with mem := { s.mem with inval := l, heldXinv := h } } := by
  have htake (u : State) (v : W64) : ∃ l, u.takeXinv part v = { u with mem := { u.mem with inval := l } } := by
    rw [State.takeXinv_eq]
    split
    · exact ⟨_, rfl⟩
    · exact ⟨_, rfl⟩
  unfold State.admitXinv
  split
  · exact ⟨_, _, rfl⟩
  · split
    · exact ⟨_, _, rfl⟩
    · obtain ⟨l, hl⟩ := htake { s with mem := { s.mem with heldXinv := s.mem.heldXinv.erase _ } } _
      exact ⟨l, _, hl⟩

theorem State.admitXinv_of_none {s : State} {part : Nat} (h : (s.mem.heldXinv.find? fun h => h.1 == part) = none) : s.admitXinv part = s := by
  unfold State.admitXinv
  rw [h, ite_self]

theorem Mem.mem_cache_invalidate {m : Mem} {part : Nat} {asid : Option Nat} {id : CacheId} {x : Line} (hx : x ∈ (m.invalidate part asid).cache id) :
    ¬ (x.part = part ∧ ∀ a, asid = some a → x.asid = a) := by
  have hclear : ((m.without fun l => l.part == part && (asid.isNone || asid == some l.asid))).Clear m.control
      fun t => t.part = part ∧ ∀ a, asid = some a → t.asid = a := by
    refine m.clear_none.without fun x hx => .inr ?_
    obtain ⟨(hpart : x.part = part), hasid⟩ := hx
    cases asid with
    | none => simpa using hpart
    | some a => simpa using ⟨hpart, (hasid a rfl).symm⟩
  exact hclear.of_mem (id := id) (x := x) (by cases id <;> exact hx)

theorem Mem.mem_tlb_invalidate {m : Mem} {part : Nat} {asid : Option Nat} {x : Tlb} (hx : x ∈ (m.invalidate part asid).tlb) :
    ¬ (x.part = part ∧ ∀ a, asid = some a → x.asid = a) := by
  rintro ⟨hpart, hasid⟩
  have hgone := (List.mem_filter.mp hx).2
  cases asid with
  | none => simp [hpart] at hgone
  | some a => simp [hpart, hasid a rfl] at hgone

theorem State.group_releaseTinv (s : State) (part asid g : Nat) :
    (s.releaseTinv part asid).group g =
      if (s.group g).part = part then (s.group g).mapWarps fun _ w => w.releaseTinv asid else s.group g := by
  let one (x : Group) : Group := if x.part = part then x.mapWarps fun _ w => w.releaseTinv asid else x
  have hblank : one Group.blank = Group.blank := ite_self _
  have h := Store.get_map s.groups one Group.blank g
  rwa [hblank] at h

theorem State.warp_releaseTinv {s : State} {part g : Nat} (h : (s.group g).part = part) (asid w : Nat) :
    (s.releaseTinv part asid).warp g w = (s.warp g w).releaseTinv asid := by
  rw [State.warp, State.group_releaseTinv, if_pos h]
  exact Store.get_map (s.group g).warps (Warp.releaseTinv · asid) Warp.blank w

/-- The machine once an invalidation has taken its lines and translations, before a held write to XINV is taken. -/
def State.invalidated (s : State) (part : Nat) (y : Inval) (m : Mem) : State :=
  let t := { s with mem := { m with inval := m.inval.erase y }.invalidate part y.asid }
  match y.asid with
  | some a => if y.xinv || (m.inval.erase y).any (fun w => w.part == part && w.asid == y.asid && !w.xinv) then t else t.releaseTinv part a
  | none => t

theorem execInvalidationComplete_of_none {s : State} {part : Nat} (hy : (s.mem.inval.find? fun v => v.part == part) = none) :
    execInvalidationComplete part s = .next s := by
  unfold execInvalidationComplete
  rw [hy]

theorem execInvalidationComplete_of_held {s : State} {part : Nat} {y : Inval} (hy : (s.mem.inval.find? fun v => v.part == part) = some y)
    (hb : (s.mem.flushFor part y.asid).backsHeld part y.asid = true) :
    execInvalidationComplete part s = .next { s with mem := s.mem.flushFor part y.asid } := by
  unfold execInvalidationComplete
  simp only [hy, if_pos hb]

theorem execInvalidationComplete_of_merged {s : State} {part : Nat} {y : Inval} (hy : (s.mem.inval.find? fun v => v.part == part) = some y)
    (hb : ¬ (s.mem.flushFor part y.asid).backsHeld part y.asid = true) :
    execInvalidationComplete part s = .next ((s.invalidated part y (s.mem.flushFor part y.asid)).admitXinv part) := by
  unfold execInvalidationComplete
  simp only [hy, if_neg hb]
  rfl

theorem State.invalidated_keeps (s : State) (part : Nat) (y : Inval) (m : Mem) :
    (s.invalidated part y m).eng = s.eng ∧ (s.invalidated part y m).work = s.work ∧
      (s.invalidated part y m).mem = { m with inval := m.inval.erase y }.invalidate part y.asid := by
  unfold State.invalidated
  cases y.asid with
  | none => exact ⟨rfl, rfl, rfl⟩
  | some a =>
    dsimp only
    split <;> exact ⟨rfl, rfl, rfl⟩

/-- Where no other `tinv` of the ASID is under way, the splits that wait for one go on. -/
theorem State.invalidated_of_last {s : State} {part a : Nat} {y : Inval} {m : Mem} (ha : y.asid = some a) (hx : y.xinv = false)
    (hlast : ∀ z ∈ m.inval.erase y, ¬ (z.part = part ∧ z.asid = some a ∧ z.xinv = false)) :
    s.invalidated part y m = { s with mem := { m with inval := m.inval.erase y }.invalidate part y.asid }.releaseTinv part a := by
  have hnone : ((m.inval.erase y).any fun w => w.part == part && w.asid == y.asid && !w.xinv) = false :=
    List.any_eq_false.mpr fun z hz => by simpa [ha, and_assoc] using hlast z hz
  unfold State.invalidated
  rw [hnone, hx, ha]
  rfl

end Machine

end Sys2Proof
end

section
namespace Sys2Proof.Machine

theorem backgroundMemoryResults : Parts.BackgroundMemoryResults := by
  intro cluster part asid vpage s
  refine ⟨⟨{ s with mem := s.mem.mergeOne cluster }, rfl, rfl, ?merge⟩, ⟨_, rfl, ?walk⟩⟩
  case merge =>
    split
    · next hw => exact Mem.mergeOne_of_none hw
    · next w hw =>
      obtain ⟨before, after, hq, hbefore, hmerge⟩ := Mem.mergeOne_of_some hw
      have haside := congrArg Mem.aside hmerge
      rw [Mem.aside_merge] at haside
      refine ⟨⟨before, after, hq, hbefore, (s.mem.rest w).toList, s.mem.heldBytes w, (congrArg Mem.wbq haside :), fun i hi => ?held, ?stays⟩,
        (congrArg Mem.l1 haside :), (congrArg Mem.cc haside :), fun b => ?byte⟩
      case held =>
        rw [s.mem.getLsbD_heldBytes w hi]
        dsimp only
        cases w.dirty.getLsbD i <;> simp
      case stays =>
        unfold Mem.rest
        split <;> rfl
      case byte =>
        refine ((congrArg (Mem.byte · b) hmerge).trans (Mem.byte_merge _ _ b)).trans (if_congr ?_ rfl rfl)
        refine and_congr_right fun hle => and_congr_right fun hlt => ?_
        rw [s.mem.getLsbD_free w (by omega)]
        rfl
  case walk =>
    have hstays : (!(s.ctx (ctxKey part asid)).used || decide (2 ^ 45 ≤ vpage) || (s.mem.cached part asid vpage).isSome) = true ↔
        ¬ ((s.ctx (ctxKey part asid)).used = true ∧ vpage < 2 ^ 45 ∧ s.mem.cached part asid vpage = none) := by
      cases (s.ctx (ctxKey part asid)).used <;> cases s.mem.cached part asid vpage <;> simp
    dsimp only
    split
    · next hb =>
      rw [if_neg (hstays.mp hb)]
      exact ⟨rfl, rfl, rfl⟩
    · next hb =>
      rw [if_pos (not_not.mp fun h => hb (hstays.mpr h))]
      cases s.fullWalk (s.ctx (ctxKey part asid)) (4096 * vpage) ⟨false, false, false⟩ with
      | ok x => exact ⟨rfl, rfl, Mem.cached_cacheXlat _ _ _ _ _⟩
      | error _ => exact ⟨rfl, rfl, rfl⟩

theorem invalidationResults : Parts.InvalidationResults := by
  intro part v s busy asid known
  refine ⟨⟨s.writeXinv part v, rfl, ?xinv⟩, ?complete, ⟨s.writeQbind part v, rfl, ?qbind⟩⟩
  case xinv =>
    have hbusy : s.invalBusy part = true ↔ busy := by simp [State.invalBusy, busy]
    unfold State.writeXinv
    by_cases hb : busy
    · rw [if_pos (hbusy.mpr hb)]
      exact ⟨rfl, rfl, fun _ => ⟨rfl, rfl⟩, fun h => absurd hb h, fun h => absurd hb h⟩
    · rw [if_neg fun h => hb (hbusy.mp h), State.takeXinv_eq]
      by_cases hk : known
      · rw [if_pos hk]
        exact ⟨rfl, rfl, fun h => absurd h hb, fun _ _ => ⟨rfl, rfl⟩, fun _ h => absurd hk h⟩
      · rw [if_neg hk]
        exact ⟨rfl, rfl, fun h => absurd h hb, fun _ h => absurd h hk, fun _ _ => rfl⟩
  case complete =>
    cases hy : s.mem.inval.find? fun y => y.part == part with
    | none => exact ⟨s, execInvalidationComplete_of_none hy, rfl, rfl, rfl⟩
    | some y =>
      dsimp only
      by_cases hb : (s.mem.flushFor part y.asid).backsHeld part y.asid = true
      · refine ⟨_, execInvalidationComplete_of_held hy hb, rfl, rfl, ?_⟩
        rw [if_pos hb]
      · refine ⟨_, execInvalidationComplete_of_merged hy hb, ?_⟩
        rw [if_neg hb]
        have hheld : (s.mem.flushFor part y.asid).heldXinv = s.mem.heldXinv := congrArg (·.2.2) (s.mem.control_flushAll _)
        generalize s.mem.flushFor part y.asid = m at hheld
        obtain ⟨heng, hwork, hmem⟩ := s.invalidated_keeps part y m
        have hnone := State.admitXinv_of_none (s := s.invalidated part y m) (part := part)
        obtain ⟨l, h, hadmit⟩ := (s.invalidated part y m).admitXinv_changes part
        rw [hmem] at hadmit hnone
        have hcache (id : CacheId) : ((s.invalidated part y m).admitXinv part).mem.cache id =
            ({ m with inval := m.inval.erase y }.invalidate part y.asid).cache id := by
          rw [hadmit]
          cases id <;> rfl
        refine ⟨by rw [hadmit]; exact heng, by rw [hadmit]; exact hwork, fun id x hx => ?_, fun x hx => ?_, by rw [hadmit]; rfl, fun hx => ?_,
          fun a ha hx hlast g w hused hpart => ?_⟩
        · exact Mem.mem_cache_invalidate (hcache id ▸ hx)
        · rw [hadmit] at hx
          exact Mem.mem_tlb_invalidate hx
        · rw [hnone (by rw [← hheld] at hx; exact hx), hmem]
          rfl
        · rw [hadmit]
          change ((s.invalidated part y m).warp g w).splits = _
          rw [State.invalidated_of_last ha hx hlast]
          exact congrArg Warp.splits (State.warp_releaseTinv (s := { s with mem := _ }) hpart a w)
  case qbind =>
    unfold State.writeQbind
    cases s.unit part 4 (v.extractLsb' 52 12).toNat with
    | none => exact ⟨rfl, rfl, rfl⟩
    | some q =>
      dsimp only
      by_cases h : qKind (s.qdesc q) ≠ 0 ∨ (s.boundTo 4 q).isSome = true
      · rw [if_pos h, if_pos h]
        exact ⟨rfl, rfl, rfl⟩
      · rw [if_neg h, if_neg h]
        refine ⟨rfl, rfl, fun k => ?_⟩
        have haddr : (v.extractLsb' 6 46).toNat * 64 = 64 * (v.toNat / 64 % 2 ^ 46) := by
          rw [BitVec.extractLsb'_toNat, Nat.shiftRight_eq_div_pow, Nat.mul_comm]
        rw [← haddr]
        exact Store.get_put _ _ _ _ _

/-- Settles O48: what merges, walks and invalidations do to home memory, to the caches and to the translations. -/
theorem cacheAndTranslationResults : Obligations.CacheAndTranslationResults := ⟨backgroundMemoryResults, invalidationResults⟩

end Sys2Proof.Machine
end

section
/-!
SUPPORT. Accesses keep range locks, invalidations under way and held writes to XINV (spec/08_memory_model.md R197 to R218): stores and writes at a
level, releases, and the translations and pieces of an engine's access (spec/09_isa_memory_engines.md R233).
-/

namespace Sys2Proof.Machine

/-! ### Accesses along a path -/

section
variable (m : Mem)

theorem Mem.control_setCache (id : CacheId) (l : List Line) : (m.setCache id l).control = m.control := by cases id <;> rfl

theorem Mem.control_putLine (id : CacheId) (l : Line) : (m.putLine id l).control = m.control :=
  (apply_ite Mem.control _ _ _).trans (by simp only [Mem.control_setCache, ite_self])

theorem Mem.control_sendCC (clu : Nat) (l : Line) : (m.sendCC clu l).control = m.control := (m.clear_none.sendCC clu l).control

theorem Mem.control_drain (clu : Nat) : (m.drain clu).control = m.control := (m.clear_none.drain clu).control

theorem Mem.control_served (t : LineTag) (pline : Nat) : (m.served t pline).control = m.control := (m.clear_none.served t pline).control

theorem Mem.control_storeCC (clu : Nat) (t : LineTag) (pline : Nat) (k : BitVec 128) (d : BitVec 1024) (x : BitVec 4) :
    (m.storeCC clu t pline k d x).control = m.control := (m.clear_none.storeCC clu id pline k d x).control

theorem Mem.control_backL1 (core clu : Nat) (l : Line) : (m.backL1 core clu l).control = m.control := (m.clear_none.backL1 core clu id).control

theorem Mem.control_flushL1 (core clu : Nat) (own : Line → Bool) : (m.flushL1 core clu own).1.control = m.control :=
  (m.clear_none.flushL1 core clu own).control

theorem Mem.control_flushCC (clu : Nat) (own : Line → Bool) : (m.flushCC clu own).1.control = m.control :=
  (m.clear_none.flushCC clu own).control

theorem Mem.control_roomL1 (core clu : Nat) (t : LineTag) : (m.roomL1 core clu t).control = m.control := by
  unfold Mem.roomL1
  cases m.victim (.l1 core) t with
  | none => rfl
  | some l => exact (Mem.control_setCache _ _ _).trans (m.control_backL1 core clu l)

theorem Mem.control_storeL1 (core clu : Nat) (t : LineTag) (pline : Nat) (k : BitVec 128) (d : BitVec 1024) :
    (m.storeL1 core clu t pline k d).control = m.control := by
  have hput (n : Mem) : (let u := ((n.roomL1 core clu t).served t pline).tick
      u.putLine (.l1 core) ((u.lineOr (.l1 core) t pline).store k d u.stamp)).control = n.control :=
    (Mem.control_putLine _ _ _).trans ((Mem.control_served (n.roomL1 core clu t) t pline).trans (n.control_roomL1 core clu t))
  refine (hput _).trans ?_
  rw [apply_ite Mem.control]
  cases m.oldest (.l1 core) with
  | none => exact ite_self _
  | some l =>
    dsimp only
    rw [Mem.control_backL1, ite_self]

theorem Mem.control_push (a : Agent) (l : Loc) (lvl : Nat) : (m.push a l lvl).control = m.control := by
  have hback (n : Mem) (core clu : Nat) (o : Option Line) : (match o with | some x => n.backL1 core clu x | none => n).control = n.control := by
    cases o with
    | none => rfl
    | some x => exact n.control_backL1 core clu x
  have hsend (n : Mem) (clu : Nat) (o : Option Line) : (match o with | some x => n.sendCC clu x | none => n).control = n.control := by
    cases o with
    | none => rfl
    | some x => exact n.control_sendCC clu x
  unfold Mem.push
  split
  · rfl
  · next core clu _ =>
    have hfirst : (if 1 ≤ lvl then (match m.line (.l1 core) (a.tag l) with | some x => m.backL1 core clu x | none => m) else m).control =
        m.control := by
      split
      · exact hback m core clu _
      · rfl
    dsimp only
    split
    · exact ((Mem.control_drain _ _).trans (hsend _ _ _)).trans hfirst
    · exact hfirst

theorem Mem.control_drop (a : Agent) (l : Loc) (lvl : Nat) : (m.drop a l lvl).control = m.control := by
  have hclean (n : Mem) (id : CacheId) (t : LineTag) :
      (match n.line id t with | some x => if x.dirty = 0 then n.dropLine id t else n | none => n).control = n.control := by
    cases n.line id t with
    | none => rfl
    | some x =>
      dsimp only
      split
      · exact Mem.control_setCache _ _ _
      · rfl
  unfold Mem.drop
  split
  · rfl
  · next core clu _ =>
    have hfirst : (if 1 ≤ lvl then (match m.line (.l1 core) (a.tag l) with
        | some x => if x.dirty = 0 then m.dropLine (.l1 core) (a.tag l) else m | none => m) else m).control = m.control := by
      split
      · exact hclean m _ _
      · rfl
    dsimp only
    split
    · exact (hclean _ _ _).trans hfirst
    · exact hfirst

theorem Mem.control_writeNat (a n v : Nat) : (m.writeNat a n v).control = m.control := (congrArg Mem.control (m.aside_writeNat a n v) :)

theorem Mem.control_writeAt (a : Agent) (l : Loc) (n v lvl : Nat) : (m.writeAt a l n v lvl).control = m.control := by
  refine Eq.trans ?_ (m.control_push a l lvl)
  unfold Mem.writeAt
  generalize m.push a l lvl = x
  dsimp only
  split
  · exact x.control_writeNat _ _ _
  · split
    · exact x.control_storeL1 _ _ _ _ _ _
    · exact (Mem.control_drop _ _ _ _).trans (x.control_storeCC _ _ _ _ _ _)
    · exact (Mem.control_drop _ _ _ _).trans (x.control_writeNat _ _ _)

theorem Mem.control_sysRelease (a : Agent) : (m.sysRelease a).control = m.control := by
  unfold Mem.sysRelease
  split
  · rfl
  · exact (Mem.control_flushCC _ _ _).trans (m.control_flushL1 _ _ _)

theorem Mem.control_flush (caches : List CacheId) (own : Line → Bool) (lvl : Nat) : (m.flush caches own lvl).1.control = m.control := by
  refine foldl_keeps (fun (r : Mem × Nat) => r.1.control = m.control) _ _ (fun r id hr => ?_) _ rfl
  cases id with
  | l1 k =>
    dsimp only
    split
    · exact (Mem.control_flushL1 _ _ _ _).trans hr
    · exact hr
  | cc k =>
    dsimp only
    split
    · exact (Mem.control_flushCC _ _ _).trans hr
    · exact hr

theorem Mem.control_noteWrite (a : Agent) (phys n lvl : Nat) (rel : Option Nat) (rmw : Bool) :
    (m.noteWrite a phys n lvl rel rmw).control = m.control := by
  unfold Mem.noteWrite
  cases rel with
  | none => cases rmw <;> rfl
  | some rank =>
    have hends (x : Mem) (p : Prop) [Decidable p] (y z : List RelRec) :
        (if p then ({ x with rel := y } : Mem) else { x with rel := z }).control = x.control := by split <;> rfl
    refine (hends _ _ _ _).trans ?_
    cases rmw with
    | false => rfl
    | true =>
      exact foldl_keeps (fun (x : Mem) => x.control = m.control) _ _ (fun x r hx => (x.control_flush _ _ _).trans hx) _ rfl

end

/-! ### Accesses of engines -/

/-- Memory alone may differ, and in it no lock and no invalidation. -/
def State.Accesses (s t : State) : Prop := ∃ m : Mem, m.control = s.mem.control ∧ t = { s with mem := m }

theorem State.accesses_mem (s : State) {m : Mem} (h : m.control = s.mem.control) : s.Accesses { s with mem := m } := ⟨m, h, rfl⟩

theorem State.Accesses.refl (s : State) : s.Accesses s := ⟨s.mem, rfl, rfl⟩

theorem State.Accesses.trans {s t u : State} (h : s.Accesses t) (k : t.Accesses u) : s.Accesses u := by
  obtain ⟨m, hm, rfl⟩ := h
  obtain ⟨n, hn, rfl⟩ := k
  exact ⟨n, hn.trans hm, rfl⟩

theorem State.accesses_translate {s t : State} {c : Ctx} {va p : Nat} {n : Need} (h : s.translate c va n = .ok (p, t)) : s.Accesses t := by
  unfold State.translate at h
  dsimp only at h
  split at h
  · obtain ⟨-, rfl⟩ := Prod.mk.inj (Except.ok.inj h)
    exact .refl _
  · split at h
    · cases h
    · split at h
      · obtain ⟨-, rfl⟩ := Prod.mk.inj (Except.ok.inj h)
        refine s.accesses_mem ?_
        rfl
      · cases h

theorem State.accesses_globalLoc {s t : State} {a : Agent} {va : W64} {n lvl : Nat} {k : Need} {l : Loc}
    (h : s.globalLoc a va n lvl k = .ok (l, t)) : s.Accesses t := by
  unfold State.globalLoc at h
  dsimp only at h
  split at h
  · cases h
  split at h
  · cases h
  split at h
  · split at h
    · split at h
      · cases h
      · obtain ⟨-, rfl⟩ := Prod.mk.inj (eq_of_checked h)
        exact .refl _
    · obtain ⟨-, rfl⟩ := Prod.mk.inj (eq_of_checked h)
      exact .refl _
  · split at h
    · cases h
    · next htr =>
      split at h
      · cases h
      · obtain ⟨-, rfl⟩ := Prod.mk.inj (eq_of_checked h)
        exact State.accesses_translate htr

theorem State.accesses_engParts {s t : State} {c : Ctx} {own : Option Nat} {va : W64} {n : Nat} {k : Need} {l : List (Nat × Nat)}
    (h : s.engParts c own va n k = .ok (l, t)) : s.Accesses t := by
  refine foldl_keeps (fun (r : Except AccFault (List (Nat × Nat) × State)) => ∀ l t, r = .ok (l, t) → s.Accesses t) _ _
    (fun r p hr l t h => ?_) _ (fun l t h => ?_) l t h
  · dsimp only at h
    split at h
    · cases h
    · next l' u =>
      have hu := hr l' u rfl
      split at h
      · cases h
      split at h
      · cases h
      · next htr =>
        split at h
        · cases h
        · split at h
          · cases h
          · obtain ⟨-, rfl⟩ := Prod.mk.inj (eq_of_checked h)
            exact hu.trans (State.accesses_translate htr)
  · obtain ⟨-, rfl⟩ := Prod.mk.inj (Except.ok.inj h)
    exact .refl _

theorem State.accesses_engRead {s t : State} {c : Ctx} {own : Option Nat} {va : W64} {n v : Nat} (h : s.engRead c own va n = .ok (v, t)) :
    s.Accesses t := by
  unfold State.engRead at h
  split at h
  · cases h
  · next hp =>
    obtain ⟨-, rfl⟩ := Prod.mk.inj (Except.ok.inj h)
    exact State.accesses_engParts hp

theorem State.accesses_engWrite {s t : State} {c : Ctx} {own : Option Nat} {va : W64} {n v : Nat} (h : s.engWrite c own va n v = .ok t) :
    s.Accesses t := by
  unfold State.engWrite at h
  split at h
  · cases h
  · next l u hp =>
    obtain rfl := Except.ok.inj h
    exact (State.accesses_engParts hp).trans (u.accesses_mem (congrArg Mem.control (u.mem.aside_writeParts l v) :))

end Sys2Proof.Machine
end

section
/-!
SUPPORT. A copy's registration and its chunks (spec/08_memory_model.md R226, R229; spec/09_isa_memory_engines.md R266): the lines that leave the
caches, what the engine's work leaves alone, and the bytes that a chunk moves within a window.
-/

namespace Sys2Proof.Machine

/-! ### Registration -/

/-- A lock's range of an address space has a byte of the virtual line that a tag names. -/
def Lock.meets (y : Lock) (t : LineTag) : Prop :=
  y.scratch = none ∧ t.part = y.part ∧ t.asid = y.asid ∧ 128 * t.vline ≤ y.hi ∧ y.lo ≤ 128 * t.vline + 127

/-- Every line that a lock's range has a byte of leaves every cache. -/
theorem Mem.Clear.purgeLocks {c : Control} {P : LineTag → Prop} {m : Mem} (h : m.Clear c P) (ls : List Lock) :
    (m.purgeLocks ls).Clear c fun t => P t ∨ ∃ y ∈ ls, y.meets t := by
  induction ls generalizing m P with
  | nil => exact ⟨h.control, fun x hx hq => h.tags x hx (hq.resolve_right nofun)⟩
  | cons y r ih =>
    have hfirst : (if y.scratch.isNone then m.purgeVirt y.part y.asid y.lo y.hi else m).Clear c fun t => P t ∨ y.meets t := by
      split
      · refine (h.flushAll _).without fun x hx => hx.imp_right fun hy => ?_
        obtain ⟨-, hpart, hasid, hlo, hhi⟩ := hy
        simp only [Line.ofCtx, Bool.and_eq_true, beq_iff_eq, decide_eq_true_eq]
        exact ⟨⟨hpart, hasid⟩, hlo, hhi⟩
      · next hy => exact ⟨h.control, fun x hx hq => h.tags x hx (hq.resolve_right fun hm => hy (by rw [hm.1]; rfl))⟩
    have hrest := ih hfirst
    refine ⟨hrest.control, fun x hx hq => hrest.tags x hx ?_⟩
    rcases hq with hp | ⟨z, hz, hmeets⟩
    · exact .inl (.inl hp)
    · rcases List.mem_cons.mp hz with rfl | hz
      · exact .inl (.inr hmeets)
      · exact .inr ⟨z, hz, hmeets⟩

@[simp] theorem State.copy_modCopy (s : State) (id : Nat) (f : Copy → Copy) : (s.modCopy id f).copy id = f (s.copy id) :=
  Store.get_put_same _ _ _ _

theorem State.copy_modCopy_ne (s : State) {id k : Nat} (f : Copy → Copy) (h : k ≠ id) : (s.modCopy id f).copy k = s.copy k :=
  Store.get_put_ne _ _ _ h

/-! ### What the work on a copy leaves alone -/

/-- Range locks, the other copies, and the groups but one stay. -/
structure State.CopyFrame (id g : Nat) (s t : State) : Prop where
  locks : t.mem.locks = s.mem.locks
  copies : ∀ k, k ≠ id → t.copy k = s.copy k
  groups : ∀ k, k ≠ g → t.group k = s.group k

section
variable {s t u : State} {id g : Nat}

theorem State.CopyFrame.refl (s : State) : s.CopyFrame id g s := ⟨rfl, fun _ _ => rfl, fun _ _ => rfl⟩

theorem State.CopyFrame.trans (h : s.CopyFrame id g t) (k : t.CopyFrame id g u) : s.CopyFrame id g u :=
  ⟨k.locks.trans h.locks, fun n hn => (k.copies n hn).trans (h.copies n hn), fun n hn => (k.groups n hn).trans (h.groups n hn)⟩

theorem State.copyFrame_modCopy (s : State) (f : Copy → Copy) : s.CopyFrame id g (s.modCopy id f) :=
  ⟨rfl, fun _ hk => s.copy_modCopy_ne f hk, fun _ _ => rfl⟩

theorem State.copyFrame_modGroup (s : State) (f : Group → Group) : s.CopyFrame id g (s.modGroup g f) :=
  ⟨rfl, fun _ _ => rfl, fun _ hk => s.group_modGroup_ne f hk⟩

theorem State.Accesses.copyFrame (h : s.Accesses t) : s.CopyFrame id g t := by
  obtain ⟨m, hm, rfl⟩ := h
  exact ⟨(congrArg Prod.fst hm :), fun _ _ => rfl, fun _ _ => rfl⟩

theorem State.Accesses.eng (h : s.Accesses t) : t.eng = s.eng := by
  obtain ⟨m, -, rfl⟩ := h
  rfl

theorem State.copy_of_eng (h : t.eng = s.eng) (k : Nat) : t.copy k = s.copy k := by rw [State.copy, h, State.copy]

end

/-! ### The pieces of a chunk -/

theorem State.accesses_copyRead {s t : State} {id : Nat} {a : Int} {n v : Nat} (h : s.copyRead id a n = .ok (v, t)) : s.Accesses t := by
  unfold State.copyRead at h
  dsimp only at h
  split at h
  · split at h
    · cases h
    · obtain ⟨-, rfl⟩ := Prod.mk.inj (Except.ok.inj h)
      exact .refl _
  · exact State.accesses_engRead h

theorem State.copyFrame_copyWrite {s t : State} {id : Nat} {a : Int} {n v : Nat} (h : s.copyWrite id a n v = .ok t) :
    s.CopyFrame id ((s.copy id).grp.getD 0) t ∧ t.eng = s.eng := by
  unfold State.copyWrite at h
  dsimp only at h
  split at h
  · obtain rfl := Except.ok.inj h
    exact ⟨s.copyFrame_modGroup _, rfl⟩
  · have hacc := State.accesses_engWrite h
    exact ⟨hacc.copyFrame, hacc.eng⟩

theorem State.accesses_copyTags (s : State) (id : Nat) (dst src : Int) (n : Nat) (before : Mem) : s.Accesses (s.copyTags id dst src n before) := by
  unfold State.copyTags
  dsimp only
  split
  · exact .refl _
  · refine foldl_keeps (State.Accesses s) _ _ (fun t k ht => ?_) _ (.refl _)
    split
    · split
      · refine ht.trans (t.accesses_mem ?_)
        rfl
      · exact ht
    · exact ht

/-- The engine has moved bytes of a copy, and left the rest of the copy as it was. -/
structure State.Moved (id : Nat) (s t : State) : Prop where
  frame : s.CopyFrame id ((s.copy id).grp.getD 0) t
  copy : ∃ n, t.copy id = { s.copy id with done := (s.copy id).done + n }

theorem State.Moved.refl {id : Nat} (s : State) : s.Moved id s := ⟨.refl s, 0, rfl⟩

theorem State.Moved.trans {id : Nat} {s t u : State} (h : s.Moved id t) (k : t.Moved id u) : s.Moved id u := by
  obtain ⟨n, hn⟩ := h.copy
  obtain ⟨j, hj⟩ := k.copy
  have hk := k.frame
  rw [hn] at hj hk
  exact ⟨h.frame.trans hk, n + j, by rw [hj, Nat.add_assoc]⟩

/-- A piece of a chunk moves its bytes. -/
theorem State.copyMove_ok {s t : State} {id : Nat} {dst src : Int} {n : Nat} (h : s.copyMove id dst src n = .ok t) :
    s.CopyFrame id ((s.copy id).grp.getD 0) t ∧ t.copy id = { s.copy id with done := (s.copy id).done + n } := by
  unfold State.copyMove at h
  split at h
  · cases h
  · next v r hread =>
    split at h
    · cases h
    · next u hwrite =>
      obtain rfl := Except.ok.inj h
      have hr := State.accesses_copyRead hread
      obtain ⟨hw, heng⟩ := State.copyFrame_copyWrite hwrite
      have ht := u.accesses_copyTags id dst src n r.mem
      rw [State.copy_of_eng hr.eng] at hw
      refine ⟨(hr.copyFrame.trans (hw.trans ht.copyFrame)).trans (State.copyFrame_modCopy _ _), ?_⟩
      rw [State.copy_modCopy, State.copy_of_eng (ht.eng.trans (heng.trans hr.eng))]

theorem State.moved_copyRun (fuel : Nat) (s : State) (id : Nat) (lim : Int) : s.Moved id (s.copyRun fuel id lim).1 := by
  induction fuel generalizing s with
  | zero => exact .refl s
  | succ k ih =>
    unfold State.copyRun
    split
    · exact .refl s
    · split
      · exact .refl s
      · split
        · exact .refl s
        · next hmove =>
          obtain ⟨hframe, hcopy⟩ := State.copyMove_ok hmove
          exact State.Moved.trans ⟨hframe, _, hcopy⟩ (ih _)

/-- Beyond `cpy2d` the destination rises with the bytes moved. -/
theorem Copy.dst_of_next {c : Copy} {dst src : Int} {n : Nat} (hk : c.kind ≠ 1) (h : c.next = some (dst, src, n)) :
    dst = blkDst c.block + c.done := by
  unfold Copy.next at h
  split at h
  · cases h
  · split at h
    · exact (congrArg Prod.fst (Option.some.inj h)).symm
    · next h1 => exact absurd h1 hk
    · obtain ⟨p, -, hp⟩ := Option.map_eq_some_iff.mp h
      exact (congrArg Prod.fst hp).symm

/-- No piece of a chunk reaches beyond the chunk's end. -/
theorem State.dst_copyRun_le (fuel : Nat) (s : State) (id : Nat) (lim : Int) (hk : (s.copy id).kind ≠ 1)
    (hle : blkDst (s.copy id).block + (s.copy id).done ≤ lim) :
    blkDst (s.copy id).block + ((s.copyRun fuel id lim).1.copy id).done ≤ lim := by
  induction fuel generalizing s with
  | zero => exact hle
  | succ k ih =>
    unfold State.copyRun
    split
    · exact hle
    · next dst src n hnext =>
      have hdst := Copy.dst_of_next hk hnext
      split
      · exact hle
      · split
        · exact hle
        · next t hmove =>
          obtain ⟨-, hcopy⟩ := State.copyMove_ok hmove
          have ht := ih t
          rw [hcopy] at ht
          refine ht hk ?_
          push_cast
          omega

/-! ### A fault -/

theorem State.copyFrame_postFault (s : State) (r : FaultReq) (id g : Nat) : s.CopyFrame id g (s.postFault r).2 := by
  unfold State.postFault
  split <;> exact ⟨rfl, fun _ _ => rfl, fun _ _ => rfl⟩

theorem State.eng_postFault (s : State) (r : FaultReq) : (s.postFault r).2.eng = s.eng := by
  unfold State.postFault
  split <;> rfl

theorem State.copyFrame_copyFault (s : State) (id g : Nat) (f : AccFault) (write scratch : Bool) :
    s.CopyFrame id g (s.copyFault id f write scratch) := by
  unfold State.copyFault
  exact (s.copyFrame_postFault _ id g).trans (State.copyFrame_modCopy _ _)

theorem State.copy_copyFault (s : State) (id : Nat) (f : AccFault) (write scratch : Bool) :
    ∃ tok, (s.copyFault id f write scratch).copy id = { s.copy id with tok := tok, cause := f.cause.code } := by
  unfold State.copyFault
  exact ⟨_, (State.copy_modCopy _ _ _).trans (by rw [State.copy_of_eng (s.eng_postFault _)])⟩

/-! ### Bytes of a window -/

theorem get_putBytes (b : Store W8) (a : Nat) (l : List W8) (k : Nat) :
    Store.get (putBytes b a l) 0 k = if a ≤ k then (l[k - a]?).getD (Store.get b 0 k) else Store.get b 0 k := by
  induction l generalizing b a with
  | nil => simp [putBytes]
  | cons x r ih =>
    rw [putBytes, ih, Store.get_put]
    rcases Nat.lt_trichotomy k a with h | rfl | h
    · rw [if_neg (by omega), if_neg (by omega), if_neg (by omega)]
    · rw [if_neg (by omega), if_pos rfl, if_pos (le_refl k), Nat.sub_self]
      rfl
    · rw [if_pos (by omega), if_neg (by omega), if_pos (by omega), show k - a = k - (a + 1) + 1 by omega, List.getElem?_cons_succ]

theorem getElem?_bytesOf (n v j : Nat) : (bytesOf n v)[j]? = if j < n then some (byteOf v j) else none := by
  induction n generalizing v j with
  | zero => simp [bytesOf]
  | succ n ih =>
    cases j with
    | zero => simp [bytesOf, byteOf]
    | succ j =>
      rw [bytesOf, List.getElem?_cons_succ, ih, byteOf, byteOf, Nat.div_div_eq_div_mul, Nat.pow_succ']
      simp

theorem get_putBytes_bytesOf (b : Store W8) (a n v k : Nat) :
    Store.get (putBytes b a (bytesOf n v)) 0 k = if a ≤ k ∧ k < a + n then byteOf v (k - a) else Store.get b 0 k := by
  rw [get_putBytes, getElem?_bytesOf]
  by_cases hle : a ≤ k
  · rw [if_pos hle]
    by_cases hlt : k < a + n
    · rw [if_pos (by omega), if_pos ⟨hle, hlt⟩]
      rfl
    · rw [if_neg (by omega), if_neg fun h => hlt h.2]
      rfl
  · rw [if_neg hle, if_neg fun h => hle h.1]

theorem byteOf_readBytes (b : Store W8) (a n : Nat) {j : Nat} (hj : j < n) : byteOf (readBytes b a n) j = Store.get b 0 (a + j) := by
  induction n generalizing a j with
  | zero => omega
  | succ n ih =>
    have hx := (Store.get b 0 a).isLt
    rw [readBytes]
    cases j with
    | zero =>
      rw [byteOf, Nat.pow_zero, Nat.div_one]
      exact BitVec.eq_of_toNat_eq (by simp; omega)
    | succ j =>
      rw [show a + (j + 1) = a + 1 + j by omega, ← ih (a + 1) (by omega), byteOf, byteOf, Nat.pow_succ', ← Nat.div_div_eq_div_mul]
      congr 2
      omega

theorem byteOf_toNat {w : Nat} (v : BitVec w) (j : Nat) : byteOf v.toNat j = v.extractLsb' (8 * j) 8 := by
  rw [byteOf, BitVec.extractLsb', Nat.shiftRight_eq_div_pow, Nat.pow_mul]

/-! ### A chunk within a window -/

theorem blkSrc_of_window {b : Block} (h : blkSs b = true) : blkSrc b = (blkWord b 1).toNat := by
  simp [blkSrc, blkSBase, h]

theorem blkDst_of_window {b : Block} (h : blkDs b = true) : blkDst b = (blkWord b 2).toNat := by
  simp [blkDst, blkDBase, h]

theorem blkCAddr_of_window {b : Block} (h : blkCs b = true) : blkCAddr b = (blkWord b 6).toNat := by
  simp [blkCAddr, blkCBase, h]

/-- The window of a group with n bytes moved within it. -/
def Group.moveBytes (x : Group) (d a n : Nat) : Group := x.scratchWrite d (bytesOf n (readBytes x.scratch a n))

theorem Group.get_scratch_moveBytes (x : Group) (d a n k : Nat) :
    Store.get (x.moveBytes d a n).scratch 0 k = if d ≤ k ∧ k < d + n then Store.get x.scratch 0 (a + (k - d)) else Store.get x.scratch 0 k := by
  refine (get_putBytes_bytesOf _ _ _ _ _).trans ?_
  by_cases h : d ≤ k ∧ k < d + n
  · rw [if_pos h, if_pos h, byteOf_readBytes _ _ _ (by omega)]
  · rw [if_neg h, if_neg h]

theorem State.copyMove_window {s : State} {id : Nat} (hs : blkSs (s.copy id).block = true) (hd : blkDs (s.copy id).block = true) (d a n : Nat)
    (hgood : (s.group ((s.copy id).grp.getD 0)).scratchBad a n = false) :
    s.copyMove id d a n = .ok ((s.modGroup ((s.copy id).grp.getD 0) (·.moveBytes d a n)).modCopy id fun c => { c with done := c.done + n }) := by
  have hread : s.copyRead id a n = .ok (readBytes (s.group ((s.copy id).grp.getD 0)).scratch a n, s) := by
    unfold State.copyRead
    simp [hs, hgood]
  have hwrite : s.copyWrite id d n (readBytes (s.group ((s.copy id).grp.getD 0)).scratch a n) =
      .ok (s.modGroup ((s.copy id).grp.getD 0) (·.moveBytes d a n)) := by
    unfold State.copyWrite
    simp [hd, State.modGroup, Group.moveBytes]
  have htags (u : State) (hu : u.copy id = s.copy id) (m : Mem) : u.copyTags id d a n m = u := by
    unfold State.copyTags
    simp [hu, hs]
  unfold State.copyMove
  simp only [hread, hwrite]
  rw [htags (s.modGroup _ _) rfl]

/-- The next piece of a plain copy is all that is left of it. -/
theorem Copy.next_of_plain {c : Copy} (hk : c.kind = 0) (hlt : c.done < c.total) :
    c.next = some (blkDst c.block + c.done, blkSrc c.block + c.done, c.total - c.done) := by
  unfold Copy.next
  rw [if_neg (by omega), hk]
  rfl

theorem Copy.next_of_all_done {c : Copy} (h : c.total ≤ c.done) : c.next = none := if_pos h

/-- Within a window a chunk is one piece: it reaches the end of the copy or the end of its 4 KiB. -/
theorem State.copyRun_window {s : State} {id fuel : Nat} (hk : (s.copy id).kind = 0) (hs : blkSs (s.copy id).block = true)
    (hd : blkDs (s.copy id).block = true) (hlt : (s.copy id).done < (s.copy id).total) {d a n : Nat}
    (hdst : blkDst (s.copy id).block + (s.copy id).done = d) (hsrc : blkSrc (s.copy id).block + (s.copy id).done = a)
    (hn : n = min ((s.copy id).total - (s.copy id).done) (4096 - d % 4096))
    (hgood : (s.group ((s.copy id).grp.getD 0)).scratchBad a n = false) :
    s.copyRun (fuel + 2) id (4096 * ((d : Int) / 4096) + 4096) =
      ((s.modGroup ((s.copy id).grp.getD 0) (·.moveBytes d a n)).modCopy id fun c => { c with done := c.done + n }, none) := by
  have hpiece : min ((s.copy id).total - (s.copy id).done) (4096 * ((d : Int) / 4096) + 4096 - d).toNat = n := by omega
  have hmove := State.copyMove_window hs hd d a n hgood
  rw [State.copyRun, Copy.next_of_plain hk hlt, hdst, hsrc]
  dsimp only
  rw [if_neg (by omega), hpiece, hmove]
  dsimp only
  generalize ht : (s.modGroup ((s.copy id).grp.getD 0) (·.moveBytes d a n)).modCopy id _ = t
  have hcopy : t.copy id = { s.copy id with done := (s.copy id).done + n } := by
    rw [← ht]
    exact State.copy_modCopy _ _ _
  rw [State.copyRun, hcopy]
  dsimp only
  by_cases hend : (s.copy id).total ≤ (s.copy id).done + n
  · rw [Copy.next_of_all_done hend]
  · rw [Copy.next_of_plain (c := { s.copy id with done := (s.copy id).done + n }) hk (Nat.lt_of_not_le hend)]
    dsimp only
    rw [if_pos (by push_cast; omega)]

/-! ### A chunk -/

/-- A copy that the engine works on. -/
def State.copyStarted (s : State) (id : Nat) : State := s.modCopy id fun c => { c with run := .running, tok := none, cause := 0 }

theorem State.copy_copyStarted (s : State) (id : Nat) :
    (s.copyStarted id).copy id = { s.copy id with run := .running, tok := none, cause := 0 } := State.copy_modCopy _ _ _

theorem State.copyChunk_of_none {s : State} {id : Nat} (h : s.copyReady id = true) (hnext : (s.copy id).next = none) :
    s.copyChunk id = s.copyStarted id := by
  have hstarted : ((s.copyStarted id).copy id).next = none := (congrArg Copy.next (s.copy_copyStarted id)).trans hnext
  unfold State.copyStarted at hstarted
  unfold State.copyChunk
  simp only [h, Bool.not_true, Bool.false_eq_true, if_false, hstarted]
  rfl

theorem State.copyChunk_of_run {s : State} {id : Nat} (h : s.copyReady id = true) {dst src : Int} {n : Nat}
    (hnext : (s.copy id).next = some (dst, src, n)) {t : State} {r : Option (AccFault × Bool)}
    (hrun : (s.copyStarted id).copyRun 4096 id (4096 * (dst / 4096) + 4096) = (t, r)) :
    r = none ∧ s.copyChunk id = t ∨ ∃ f w x, r = some f ∧ s.copyChunk id = t.copyFault id f.1 w x := by
  have hstarted : ((s.copyStarted id).copy id).next = some (dst, src, n) := (congrArg Copy.next (s.copy_copyStarted id)).trans hnext
  unfold State.copyStarted at hstarted hrun
  unfold State.copyChunk
  simp only [h, Bool.not_true, Bool.false_eq_true, if_false, hstarted, hrun]
  cases r with
  | none => exact .inl ⟨rfl, rfl⟩
  | some f => exact .inr ⟨f, _, _, rfl, rfl⟩

theorem State.done_lt_of_copyReady {s : State} {id : Nat} (h : s.copyReady id = true) : (s.copy id).done < (s.copy id).total := by
  simp only [State.copyReady, Bool.and_eq_true, decide_eq_true_eq] at h
  obtain ⟨⟨-, hlt⟩, -⟩ := h
  exact hlt

/-- A chunk moves at most 4 KiB of destination, beyond `cpy2d` in bytes of the copy, and changes its copy and that copy's group alone (09 R266). -/
theorem State.copyChunk_moves {s : State} {id : Nat} (h : s.copyReady id = true) :
    s.CopyFrame id ((s.copy id).grp.getD 0) (s.copyChunk id) ∧ (s.copy id).done ≤ ((s.copyChunk id).copy id).done ∧
      ((s.copy id).kind ≠ 1 → ((s.copyChunk id).copy id).done ≤ (s.copy id).done + 4096) := by
  have hstart := s.copy_copyStarted id
  have hframe : s.CopyFrame id ((s.copy id).grp.getD 0) (s.copyStarted id) := s.copyFrame_modCopy _
  cases hnext : (s.copy id).next with
  | none =>
    rw [State.copyChunk_of_none h hnext, hstart]
    exact ⟨hframe, le_refl _, fun _ => Nat.le_add_right _ _⟩
  | some p =>
    obtain ⟨dst, src, n⟩ := p
    have hmoved := (s.copyStarted id).moved_copyRun 4096 id (4096 * (dst / 4096) + 4096)
    have hbound := (s.copyStarted id).dst_copyRun_le 4096 id (4096 * (dst / 4096) + 4096)
    cases hrun : (s.copyStarted id).copyRun 4096 id (4096 * (dst / 4096) + 4096) with | mk t r =>
    rw [hrun] at hmoved hbound
    rw [hstart] at hbound
    obtain ⟨hmove, k, hk⟩ := hmoved
    rw [hstart] at hmove hk
    have hle : (s.copy id).done ≤ (t.copy id).done := by
      rw [hk]
      exact Nat.le_add_right _ _
    have hlim : (s.copy id).kind ≠ 1 → (t.copy id).done ≤ (s.copy id).done + 4096 := by
      intro hkind
      have hdst := Copy.dst_of_next hkind hnext
      have hend := hbound hkind (by dsimp only; omega)
      dsimp only at hend
      omega
    rcases State.copyChunk_of_run h hnext hrun with ⟨-, ht⟩ | ⟨f, w, x, -, ht⟩
    · rw [ht]
      exact ⟨hframe.trans hmove, hle, hlim⟩
    · obtain ⟨tok, hcopy⟩ := t.copy_copyFault id f.1 w x
      rw [ht, hcopy]
      exact ⟨(hframe.trans hmove).trans (t.copyFrame_copyFault _ _ _ _ _), hle, hlim⟩

/-- Within the window a chunk of a plain copy moves its bytes, and nothing else. -/
theorem State.copyChunk_window {s : State} {id : Nat} (h : s.copyReady id = true) (hk : (s.copy id).kind = 0)
    (hs : blkSs (s.copy id).block = true) (hd : blkDs (s.copy id).block = true) {d a n : Nat}
    (hdst : d = (blkWord (s.copy id).block 2).toNat + (s.copy id).done) (hsrc : a = (blkWord (s.copy id).block 1).toNat + (s.copy id).done)
    (hn : n = min ((s.copy id).total - (s.copy id).done) (4096 - d % 4096))
    (hgood : (s.group ((s.copy id).grp.getD 0)).scratchBad a n = false) :
    s.copyChunk id =
      ((s.copyStarted id).modGroup ((s.copy id).grp.getD 0) (·.moveBytes d a n)).modCopy id fun c => { c with done := c.done + n } := by
  have hstart := s.copy_copyStarted id
  have hlt := State.done_lt_of_copyReady h
  have hto : blkDst (s.copy id).block + (s.copy id).done = d := by rw [blkDst_of_window hd, hdst, Nat.cast_add]
  have hfrom : blkSrc (s.copy id).block + (s.copy id).done = a := by rw [blkSrc_of_window hs, hsrc, Nat.cast_add]
  have hrun := State.copyRun_window (s := s.copyStarted id) (id := id) (fuel := 4094) (d := d) (a := a) (n := n)
  rw [hstart] at hrun
  have hnext := Copy.next_of_plain hk hlt
  rw [hto] at hnext
  rcases State.copyChunk_of_run h hnext (hrun hk hs hd hlt hto hfrom hn hgood) with ⟨-, ht⟩ | ⟨f, w, x, hf, -⟩
  · exact ht
  · cases hf

end Sys2Proof.Machine
end

section
/-!
SUPPORT. The end of a copy (spec/08_memory_model.md R227; spec/09_isa_memory_engines.md R267, R268): its locks, its state, and its completion word.
-/

namespace Sys2Proof.Machine

theorem State.unlockCopy_keeps (s : State) (id : Nat) :
    (s.unlockCopy id).mem.locks = s.mem.locks.filter (fun k => k.copy != id) ∧ (s.unlockCopy id).eng = s.eng ∧
      (s.unlockCopy id).groups = s.groups :=
  ⟨congrArg Prod.fst (Mem.clear_none { s.mem with locks := _ }).drainAll.control, rfl, rfl⟩

theorem State.copyFrame_endCopy (s : State) (id : Nat) (run : CopyRun) : s.CopyFrame id ((s.copy id).grp.getD 0) (s.endCopy id run) := by
  unfold State.endCopy
  dsimp only
  cases hg : (s.copy id).grp with
  | none => exact s.copyFrame_modCopy _
  | some g => exact (s.copyFrame_modGroup _).trans ⟨rfl, fun k hk => Store.get_erase_ne _ _ hk, fun _ _ => rfl⟩

/-- The group of a copy that has ended, with its state in the table. -/
def Group.keepCopy (x : Group) (c : Copy) (run : CopyRun) : Group :=
  { x with cstat := (Store.put x.cstat 0 (cstatKey c.seq c.eng) (cstatWord run c.cause c.done)).filter fun p => x.recentCopy (p.1 / 4096) }

theorem State.endCopy_of_group {s : State} {id g : Nat} (hg : (s.copy id).grp = some g) (run : CopyRun) :
    (s.endCopy id run).copy id = Copy.blank ∧ (s.endCopy id run).group g = (s.group g).keepCopy (s.copy id) run := by
  have hgroup := s.group_modGroup g (·.keepCopy (s.copy id) run)
  unfold State.endCopy
  simp only [hg]
  exact ⟨Store.get_erase_same _ _ _, hgroup⟩

theorem get_filter_key {α : Type} (s : Store α) (d : α) (f : Nat → Bool) {k : Nat} (hk : f k = true) :
    Store.get (s.filter fun p => f p.1 : Store α) d k = Store.get s d k := by
  induction s with
  | nil => rfl
  | cons p r ih =>
    rw [List.filter_cons, Store.get]
    by_cases hp : p.1 = k
    · rw [if_pos (by rw [hp, hk]), Store.get, if_pos hp, if_pos hp]
    · rw [if_neg hp]
      split
      · rw [Store.get, if_neg hp, ih]
      · exact ih

/-- The state of an ended copy stays while the copy is among the 256 most recent (09 R268). -/
theorem Group.get_cstat_keepCopy (x : Group) (c : Copy) (run : CopyRun) (heng : c.eng < 4096) (hseq : x.copySeq ≤ c.seq + 256) :
    Store.get (x.keepCopy c run).cstat 0 (4096 * c.seq + c.eng) = cstatWord run c.cause c.done := by
  refine (get_filter_key _ _ (fun k => x.recentCopy (k / 4096)) ?_).trans (Store.get_put_same _ _ _ _)
  rw [show (4096 * c.seq + c.eng) / 4096 = c.seq by omega]
  exact decide_eq_true hseq

/-- The copy as it ends, its locks given up. -/
def State.copyDoomed (s : State) (id : Nat) : State := (s.unlockCopy id).modCopy id fun c => c.doomed (s.engWait (s.copy id).tok)

theorem State.copy_copyDoomed (s : State) (id : Nat) : (s.copyDoomed id).copy id = (s.copy id).doomed (s.engWait (s.copy id).tok) :=
  State.copy_modCopy _ _ _

/-- The completion word as the copy's end changes it (08 R227). -/
def completionValue (b : Block) (run : CopyRun) : W64 := if run = .done then blkWord b 7 else blkWord b 7 ^^^ 0x8000000000000000

/-- What the end of a copy does, as its end and its completion word turn out. -/
inductive State.Ends (s : State) (id : Nat) : State → Prop
  | noWord (h : s.engWait (s.copy id).tok = .fatal ∧ (s.copy id).completing = true) : s.Ends id ((s.unlockCopy id).endCopy id .failed)
  | plain (hn : blkNoComp ((s.copyDoomed id).copy id).block = true) : s.Ends id ((s.copyDoomed id).endCopy id ((s.copyDoomed id).copy id).how)
  | word {t : State} (hn : blkNoComp ((s.copyDoomed id).copy id).block = false)
      (h : (s.copyDoomed id).writeCompletion id (completionValue ((s.copyDoomed id).copy id).block ((s.copyDoomed id).copy id).how) = .ok t) :
      s.Ends id ((t.modCopy id fun c => { c with completing := false }).endCopy id ((s.copyDoomed id).copy id).how)
  | fault {f : AccFault} (hn : blkNoComp ((s.copyDoomed id).copy id).block = false)
      (h : (s.copyDoomed id).writeCompletion id (completionValue ((s.copyDoomed id).copy id).block ((s.copyDoomed id).copy id).how) = .error f) :
      s.Ends id (((s.copyDoomed id).copyFault id f true false).modCopy id fun c => { c with completing := true })

theorem State.ends_copyComplete {s : State} {id : Nat} (h : s.copyEnds id = true) : s.Ends id (s.copyComplete id) := by
  unfold State.copyComplete
  rw [if_neg (by simp [h])]
  dsimp only
  split
  · next hw => exact .noWord hw
  · split
    · next hn => exact .plain hn
    · next hn =>
      split
      · next hok => exact .word (Bool.eq_false_iff.mpr hn) hok
      · next herr => exact .fault (Bool.eq_false_iff.mpr hn) herr

/-- A completion word in the window is written there. -/
theorem State.writeCompletion_window {s : State} {id : Nat} (h : blkCs (s.copy id).block = true) (v : W64) :
    s.writeCompletion id v = .ok (s.modGroup ((s.copy id).grp.getD 0) (·.scratchWrite (blkWord (s.copy id).block 6).toNat (bytesOf 8 v.toNat))) := by
  unfold State.writeCompletion
  rw [if_pos h, blkCAddr_of_window h]
  rfl

theorem State.copyFrame_writeCompletion {s t : State} {id : Nat} {v : W64} (h : s.writeCompletion id v = .ok t) :
    s.CopyFrame id ((s.copy id).grp.getD 0) t ∧ t.eng = s.eng := by
  by_cases hcs : blkCs (s.copy id).block = true
  · rw [State.writeCompletion_window hcs] at h
    obtain rfl := Except.ok.inj h
    exact ⟨s.copyFrame_modGroup _, rfl⟩
  · unfold State.writeCompletion at h
    rw [if_neg hcs] at h
    dsimp only at h
    split at h
    · cases h
    · next l u hloc =>
      obtain rfl := Except.ok.inj h
      have hrel (a : Agent) : (if blkScope (s.copy id).block = 4 then u.mem.sysRelease a else u.mem).control = u.mem.control := by
        split
        · exact u.mem.control_sysRelease a
        · rfl
      have hframe {w : State} (hw : s.Accesses w) : s.CopyFrame id ((s.copy id).grp.getD 0) w ∧ w.eng = s.eng := ⟨hw.copyFrame, hw.eng⟩
      refine hframe ((State.accesses_globalLoc hloc).trans (u.accesses_mem ?_))
      exact (Mem.control_noteWrite _ _ _ _ _ _ _).trans ((Mem.control_writeAt _ _ _ _ _ _).trans (hrel _))

/-- The end of a copy changes that copy and its group alone. -/
theorem State.Ends.copyFrame {s t : State} {id : Nat} (h : s.Ends id t) : (s.unlockCopy id).CopyFrame id ((s.copy id).grp.getD 0) t := by
  have hgrp : ((s.copyDoomed id).copy id).grp = (s.copy id).grp := by
    rw [s.copy_copyDoomed]
    rfl
  have hdoomed : (s.unlockCopy id).CopyFrame id ((s.copy id).grp.getD 0) (s.copyDoomed id) := State.copyFrame_modCopy _ _
  cases h with
  | noWord h => exact (s.unlockCopy id).copyFrame_endCopy id .failed
  | plain hn =>
    have hend := (s.copyDoomed id).copyFrame_endCopy id ((s.copyDoomed id).copy id).how
    rw [hgrp] at hend
    exact hdoomed.trans hend
  | fault hn h => exact (hdoomed.trans (State.copyFrame_copyFault _ _ _ _ _ _)).trans (State.copyFrame_modCopy _ _)
  | @word u hn h =>
    obtain ⟨hwrite, heng⟩ := State.copyFrame_writeCompletion h
    have hend := (u.modCopy id fun c => { c with completing := false }).copyFrame_endCopy id ((s.copyDoomed id).copy id).how
    rw [State.copy_modCopy, State.copy_of_eng heng] at hend
    rw [hgrp] at hwrite hend
    exact ((hdoomed.trans hwrite).trans (State.copyFrame_modCopy _ _)).trans hend

/-- A copy whose completion word lies in the window, or that has none, is gone when it has ended; its group has the word and the copy's state. -/
theorem State.Ends.of_window {s t : State} {id g : Nat} (h : s.Ends id t) (hg : (s.copy id).grp = some g) (hcompl : (s.copy id).completing = false)
    (hword : blkNoComp (s.copy id).block = true ∨ blkCs (s.copy id).block = true) :
    let d := (s.copy id).doomed (s.engWait (s.copy id).tok)
    t.copy id = Copy.blank ∧ t.group g = (if blkNoComp (s.copy id).block then s.group g else
      (s.group g).scratchWrite (blkWord (s.copy id).block 6).toNat (bytesOf 8 (completionValue (s.copy id).block d.how).toNat)).keepCopy d d.how := by
  intro d
  have hd : (s.copyDoomed id).copy id = d := s.copy_copyDoomed id
  have hblock : d.block = (s.copy id).block := rfl
  have hdg : d.grp = some g := hg
  have hgroup : (s.copyDoomed id).group g = s.group g := rfl
  have hwrite (hn : blkNoComp (s.copy id).block = false) (v : W64) : (s.copyDoomed id).writeCompletion id v =
      .ok ((s.copyDoomed id).modGroup g (·.scratchWrite (blkWord (s.copy id).block 6).toNat (bytesOf 8 v.toNat))) := by
    have hcs : blkCs ((s.copyDoomed id).copy id).block = true := by
      rw [hd, hblock]
      exact hword.resolve_left (by rw [hn]; exact Bool.false_ne_true)
    rw [State.writeCompletion_window hcs, hd, hdg, hblock]
    rfl
  cases h with
  | noWord h =>
    obtain ⟨-, hc⟩ := h
    exact absurd (hcompl.symm.trans hc) Bool.false_ne_true
  | plain hn =>
    rw [hd, hblock] at hn
    rw [hd, if_pos hn]
    obtain ⟨hgone, hkept⟩ := State.endCopy_of_group (hd ▸ hdg : ((s.copyDoomed id).copy id).grp = some g) d.how
    rw [hd, hgroup] at hkept
    exact ⟨hgone, hkept⟩
  | fault hn h =>
    rw [hd, hblock] at hn
    rw [hwrite hn] at h
    cases h
  | word hn h =>
    rw [hd, hblock] at hn
    rw [hwrite hn, hd, hblock] at h
    rw [hd, hn]
    obtain rfl := Except.ok.inj h
    generalize hu : (State.modCopy _ id fun c => { c with completing := false }) = u
    have hcopy : u.copy id = { d with completing := false } := by
      rw [← hu, State.copy_modCopy, ← hd]
      rfl
    have hwindow : u.group g =
        (s.group g).scratchWrite (blkWord (s.copy id).block 6).toNat (bytesOf 8 (completionValue (s.copy id).block d.how).toNat) := by
      rw [← hu]
      exact (s.copyDoomed id).group_modGroup g (·.scratchWrite _ _)
    obtain ⟨hgone, hkept⟩ := State.endCopy_of_group (hcopy ▸ hdg : (u.copy id).grp = some g) d.how
    rw [hcopy, hwindow] at hkept
    exact ⟨hgone, hkept⟩

end Sys2Proof.Machine
end

section
namespace Sys2Proof.Machine

/-- Settles O32: a registration locks and clears its ranges, a chunk moves bytes of its copy alone, and an end leaves its state and its word. -/
theorem copyEngineResults : Obligations.CopyEngineResults := by
  intro id s c g
  refine ⟨⟨_, rfl, ?registration⟩, ⟨_, rfl, ?chunk⟩, ⟨_, rfl, ?complete⟩⟩
  case registration =>
    by_cases hready : s.canRegister id = true
    · rw [if_pos hready, if_pos hready]
      have hclear := s.mem.clear_none.purgeLocks (c.locks id)
      refine ⟨?_, ?_, rfl, fun k hk => State.copy_modCopy_ne _ _ hk, fun y hy hglobal cache x hx hmeets => ?_⟩
      · exact congrArg Copy.run (State.copy_modCopy _ _ _)
      · exact congrArg (fun k => k.1 ++ c.locks id) hclear.control
      · have hx' : x ∈ (s.mem.purgeLocks (c.locks id)).cache cache := by cases cache <;> exact hx
        exact hclear.of_mem hx' (.inr ⟨y, hy, hglobal, hmeets⟩)
    · rw [if_neg hready, if_neg hready]
  case chunk =>
    by_cases hready : s.copyReady id = true
    · obtain ⟨⟨hlocks, hothers, hgroups⟩, hle, hlim⟩ := State.copyChunk_moves hready
      rw [if_pos hready]
      refine ⟨hle, hlim, hlocks, hothers, hgroups, ?_⟩
      intro hkind hs hd d a n hgood
      rw [State.copyChunk_window hready hkind hs hd (d := d) (a := a) (n := n) rfl rfl rfl hgood]
      refine ⟨?_, rfl, fun k => ?_⟩
      · have hdone := congrArg (Copy.done · + n) (s.copy_copyStarted id)
        rw [State.copy_modCopy]
        exact hdone
      · have hgroup := (s.copyStarted id).group_modGroup g (·.moveBytes d a n)
        exact (congrArg (Store.get ·.scratch 0 k) hgroup).trans (Group.get_scratch_moveBytes _ _ _ _ _)
    · rw [if_neg hready]
      exact if_pos (by simpa using hready)
  case complete =>
    by_cases hends : s.copyEnds id = true
    · rw [if_pos hends]
      have hend := State.ends_copyComplete hends
      obtain ⟨hlocks, heng, hgroups⟩ := s.unlockCopy_keeps id
      obtain ⟨hkeeps, hothers, hframe⟩ := hend.copyFrame
      refine ⟨fun y hy => ?_, fun k hk => (hothers k hk).trans (State.copy_of_eng heng k), fun k hk => ?_, fun hgrp hcompl hword => ?_⟩
      · rw [hkeeps, hlocks] at hy
        simpa using (List.mem_filter.mp hy).2
      · rw [hframe k hk, State.group, hgroups, State.group]
      · obtain ⟨g', hg'⟩ := Option.ne_none_iff_exists'.mp hgrp
        have hgg : g = g' := by rw [show g = c.grp.getD 0 from rfl, hg']; rfl
        obtain ⟨hgone, hleft⟩ := hend.of_window hg' hcompl hword
        rw [hgone, hgg, hleft]
        refine ⟨rfl, fun hlow hseq => ?_, fun hn k => ?_⟩
        · refine Group.get_cstat_keepCopy _ _ _ hlow ?_
          split <;> exact hseq
        · rw [if_neg (Bool.eq_false_iff.mp hn)]
          refine (get_putBytes_bytesOf _ _ _ _ _).trans ?_
          rw [byteOf_toNat]
          rfl
    · rw [if_neg hends]
      exact if_pos (by simpa using hends)

end Sys2Proof.Machine
end

section
/-!
SUPPORT. The checks of accesses in their order, the failure of a memory form, and effective addresses (spec/09_isa_memory_engines.md R232, R233;
spec/08_memory_model.md R194, R195; spec/17_privileged_traps.md R411).
-/

namespace Sys2Proof.Machine

/-! ### One access -/

/-- The failures of a global access whose address is canonical and aligned, with their kinds of fault record (17 R411). -/
def AccFault.ofGlobal (f : AccFault) : Prop :=
  f.cause = .rangeLocked ∧ f.kind = none ∨ f.cause = .addrFault ∧ f.kind = some 1 ∨ f.cause = .accessPerm ∧ f.kind = some 2 ∨
    f.cause = .poisonData ∧ f.kind = some 3

/-- A later state but for its cached translations. -/
def State.SameButTlb (s t : State) : Prop := { t with mem := { t.mem with tlb := s.mem.tlb } } = s

theorem State.walkFault_ofGlobal (s : State) (c : Ctx) (va : Nat) (w : WalkFail) : (s.walkFault c va w).ofGlobal := by
  cases w with
  | own => exact .inr (.inl ⟨rfl, rfl⟩)
  | stage2 gpa perm =>
    cases perm with
    | true => exact .inr (.inr (.inl ⟨rfl, rfl⟩))
    | false => exact .inr (.inl ⟨rfl, rfl⟩)

theorem State.barred_ofGlobal {s : State} {c : Ctx} {va p : Nat} {f : AccFault} (h : s.barred c va p = some f) : f.ofGlobal := by
  unfold State.barred at h
  split at h
  · cases h; exact .inr (.inl ⟨rfl, rfl⟩)
  · split at h
    · cases h; exact .inr (.inr (.inl ⟨rfl, rfl⟩))
    · cases h

/-- A translation fails as a walk does, or for a permission; it changes the cached translations only. -/
theorem State.translate_outcome (s : State) (c : Ctx) (va : Nat) (n : Need) :
    (∃ f, s.translate c va n = .error f ∧ f.ofGlobal) ∨ ∃ p t, s.translate c va n = .ok (p, t) ∧ s.SameButTlb t := by
  unfold State.translate
  dsimp only
  split
  · exact .inr ⟨_, _, rfl, rfl⟩
  · split
    · exact .inl ⟨_, rfl, s.walkFault_ofGlobal c va _⟩
    · split
      · exact .inr ⟨_, _, rfl, rfl⟩
      · exact .inl ⟨_, rfl, .inr (.inr (.inl ⟨rfl, rfl⟩))⟩

/-- What a global access of a canonical, aligned address comes to. -/
def State.GlobalOutcome (s : State) (va : Nat) (r : Except AccFault (Loc × State)) : Prop :=
  (∃ l t, r = .ok (l, t) ∧ l.va = va ∧ s.SameButTlb t) ∨ ∃ f, r = .error f ∧ f.ofGlobal

/-- The range locks are checked last. -/
theorem State.GlobalOutcome.ofLocks {s t : State} {l : Loc} (b : Bool) (va : W64) (h : s.SameButTlb t) :
    s.GlobalOutcome l.va (if b then .error ⟨.rangeLocked, none, va, none⟩ else .ok (l, t)) := by
  cases b with
  | true => exact .inr ⟨_, rfl, .inl ⟨rfl, rfl⟩⟩
  | false => exact .inl ⟨_, _, rfl, rfl, h⟩

theorem State.globalLoc_outcome (s : State) (a : Agent) {va : W64} {size : Nat} (lvl : Nat) (n : Need) (hc : canonical va = true)
    (ha : va.toNat % size = 0) : s.GlobalOutcome va.toNat (s.globalLoc a va size lvl n) := by
  unfold State.globalLoc
  simp only [hc, ha, Bool.not_true, Bool.false_eq_true, if_false, bne_self_eq_false]
  split
  · split
    · split
      · next hbar => exact .inr ⟨_, rfl, State.barred_ofGlobal hbar⟩
      · exact .ofLocks _ _ rfl
    · exact .ofLocks _ _ rfl
  · obtain ⟨f, hf, hfault⟩ | ⟨p, t, ht, htlb⟩ := s.translate_outcome (s.ctx (ctxKey a.part a.asid)) va.toNat n
    · rw [hf]; exact .inr ⟨_, rfl, hfault⟩
    · rw [ht]
      dsimp only
      split
      · next hbar => exact .inr ⟨_, rfl, State.barred_ofGlobal hbar⟩
      · exact .ofLocks _ _ htlb

/-- A canonical address has its bits 63 to 56 alike (08 R194). -/
theorem not_canonical_iff (va : W64) : canonical va = false ↔ va.extractLsb' 56 8 ≠ 0 ∧ va.extractLsb' 56 8 ≠ 0xFF := by
  have hbits : va.extractLsb' 57 7 = (va.extractLsb' 56 8).extractLsb' 1 7 := by
    refine BitVec.eq_of_getLsbD_eq fun i hi => ?_
    simp only [BitVec.getLsbD_extractLsb', hi, show 1 + i < 8 by omega, decide_true, Bool.true_and, ← Nat.add_assoc]
  have htop : canonical va = ((va.extractLsb' 56 8).extractLsb' 1 7 == (if (va.extractLsb' 56 8).getLsbD 0 then 0x7F#7 else 0#7)) := by
    rw [canonical, hbits, BitVec.getLsbD_extractLsb']
    rfl
  have hall : ∀ x : BitVec 8, (x.extractLsb' 1 7 == (if x.getLsbD 0 then 0x7F#7 else 0#7)) = false ↔ x ≠ 0 ∧ x ≠ 0xFF := by decide
  rw [htop, hall]

/-- In the record and scratchpad spaces an address that is not negative is checked as the natural number that it is. -/
theorem outOfBounds_iff (ea : Int) (len n : Nat) : (ea < 0 ∨ len < ea.toNat + n) ↔ ea < 0 ∨ (len : Int) < ea + n := by omega

theorem misaligned_iff {ea : Int} (h : ¬ ea < 0) (n : Nat) : ea.toNat % n ≠ 0 ↔ ea % n ≠ 0 := by
  obtain ⟨k, rfl⟩ := Int.eq_ofNat_of_zero_le (not_lt.mp h)
  rw [Int.toNat_natCast, ← Int.natCast_mod, ne_eq, ne_eq, Int.natCast_eq_zero]

section
variable {s : State} {grp : Nat} {a : Agent} {x : Access}

theorem State.spot_eq_of_k (h : x.space = .k) : s.spot grp a x =
    if x.ea < 0 ∨ ((s.group grp).klen : Int) < x.ea + x.size then .error ⟨.addrFault, none, BitVec.ofInt 64 x.ea, none⟩
    else if x.ea % x.size ≠ 0 then .error ⟨.misalignedAccess, none, BitVec.ofInt 64 x.ea, none⟩
    else .ok (.k x.ea.toNat, s) := by
  unfold State.spot
  simp only [h, outOfBounds_iff]
  refine ite_congr rfl (fun _ => rfl) fun hin => ?_
  exact ite_congr (propext (misaligned_iff (not_or.mp hin).1 _)) (fun _ => rfl) fun _ => rfl

theorem State.spot_eq_of_s (h : x.space = .s) : s.spot grp a x =
    if x.ea < 0 ∨ ((s.group grp).kernel.scratch : Int) < x.ea + x.size then .error ⟨.scratchBounds, none, BitVec.ofInt 64 x.ea, none⟩
    else if x.ea % x.size ≠ 0 then .error ⟨.misalignedAccess, none, BitVec.ofInt 64 x.ea, none⟩
    else if s.mem.lockedScratch grp x.ea.toNat x.size (!x.need.w) then .error ⟨.rangeLocked, none, BitVec.ofInt 64 x.ea, none⟩
    else if x.need.r && (s.group grp).scratchBad x.ea.toNat x.size then .error ⟨.poisonData, some 3, BitVec.ofInt 64 x.ea, none⟩
    else .ok (.s x.ea.toNat, s) := by
  unfold State.spot
  simp only [h, outOfBounds_iff]
  refine ite_congr rfl (fun _ => rfl) fun hin => ?_
  exact ite_congr (propext (misaligned_iff (not_or.mp hin).1 _)) (fun _ => rfl) fun _ => rfl

/-- A global access takes the checks of its place, and then meets what is poisoned there. -/
theorem State.spot_eq_of_g (h : x.space = .g) : s.spot grp a x =
    match s.globalLoc a (BitVec.ofInt 64 x.ea) x.size x.lvl x.need with
    | .error f => .error f
    | .ok (l, t) =>
      if x.need.r && t.mem.anyBad && (t.mem.readAt a l x.size x.lvl).2.1 then .error ⟨.poisonData, some 3, BitVec.ofInt 64 x.ea, none⟩
      else .ok (.g l, t) := by
  unfold State.spot
  simp only [h] <;> rfl

end

/-- The checks of one access, for each space. -/
theorem accessCheckOrder : Parts.AccessChecks := by
  intro s grp a x hsize
  dsimp only
  refine ⟨fun hk => ?_, fun hs => ?_, fun hg => ?_⟩
  · rw [State.spot_eq_of_k hk]
    split
    · rfl
    · split <;> rfl
  · rw [State.spot_eq_of_s hs]
    split
    · rfl
    · split
      · rfl
      · split
        · rfl
        · split <;> rfl
  · rw [State.spot_eq_of_g hg]
    generalize BitVec.ofInt 64 x.ea = va
    cases hc : canonical va with
    | false =>
      rw [if_pos ((not_canonical_iff va).mp hc)]
      simp [State.globalLoc, hc]
    | true =>
      rw [if_neg fun h => by simp [(not_canonical_iff va).mpr h] at hc]
      by_cases ha : va.toNat % x.size = 0
      · rw [if_neg (not_not.mpr ha)]
        obtain ⟨l, t, hr, hl, htlb⟩ | ⟨f, hr, hf⟩ := s.globalLoc_outcome a x.lvl x.need hc ha
        · rw [hr]
          dsimp only
          split
          · exact .inr ⟨_, rfl, .inr (.inr (.inr ⟨rfl, rfl⟩))⟩
          · exact .inl ⟨l, t, rfl, hl, htlb⟩
        · rw [hr]
          exact .inr ⟨f, rfl, hf⟩
      · rw [if_pos ha]
        simp [State.globalLoc, hc, ha]

/-! ### The accesses of lanes -/

theorem mem_failing (l : List LaneSpot) (n : Nat) (f : AccFault) : (n, f) ∈ failing l ↔ (n, .error f) ∈ l := by
  unfold failing
  rw [List.mem_filterMap]
  constructor
  · rintro ⟨⟨k, _ | p⟩, hk, heq⟩ <;> cases heq
    exact hk
  · exact fun h => ⟨_, h, rfl⟩

/-- The checks of lanes stand in the order of the lanes. -/
theorem State.spots_lanes (s : State) (grp : Nat) (a : Agent) (acc : Nat → Access) (lanes : List Nat) :
    (s.spots grp a acc lanes).1.map Prod.fst = lanes := by
  have key (r : List LaneSpot × State) : (lanes.foldl (fun (r : List LaneSpot × State) l =>
      match r.2.spot grp a (acc l) with
      | .ok (p, t) => (r.1 ++ [(l, .ok p)], t)
      | .error f => (r.1 ++ [(l, .error f)], r.2)) r).1.map Prod.fst = r.1.map Prod.fst ++ lanes := by
    induction lanes generalizing r with
    | nil => simp
    | cons l ls ih =>
      rw [List.foldl_cons, ih]
      split <;> simp
  exact key ([], s)

theorem laneList_sorted (m : Lanes) : (laneList m).Pairwise (· < ·) := List.Pairwise.filter _ List.pairwise_lt_range

theorem State.accessChecks_sorted (s : State) (f : Full) (sp : Space) (n : Nat) (need : Need) (ea : Nat → Int) (lvl : Nat → Nat) :
    (s.accessChecks f sp n need ea lvl).1.Pairwise fun p q => p.1 < q.1 := by
  have h := laneList_sorted (s.gLive f)
  rw [← s.spots_lanes s.cur.grp s.agent (fun l => ⟨sp, ea l, n, need, lvl l⟩) (laneList (s.gLive f)), List.pairwise_map] at h
  exact h

/-- The first of the failing lanes is the lowest. -/
theorem failing_head_le {l : List LaneSpot} (hl : l.Pairwise fun p q => p.1 < q.1) {n : Nat} {f : AccFault} {r : List (Nat × AccFault)}
    (h : failing l = (n, f) :: r) {k : Nat} {d : AccFault} (hk : (k, .error d) ∈ l) : n ≤ k := by
  have hs : (failing l).Pairwise fun p q => p.1 < q.1 := by
    refine hl.filterMap _ fun p q hpq b hb c hc => ?_
    have hb : (match p.2 with | .error f => some (p.1, f) | .ok _ => none) = some b := hb
    have hc : (match q.2 with | .error f => some (q.1, f) | .ok _ => none) = some c := hc
    split at hb
    · split at hc
      · cases hb; cases hc; exact hpq
      · cases hc
    · cases hb
  have hmem : (k, d) ∈ (n, f) :: r := h ▸ (mem_failing l k d).mpr hk
  rw [h, List.pairwise_cons] at hs
  rcases List.mem_cons.mp hmem with heq | hr
  · exact (congrArg Prod.fst heq).ge
  · exact (hs.1 _ hr).le

/-- The lanes of a list that fail with a cause. -/
def causeMask (c : Cause) (l : List (Nat × AccFault)) : Lanes :=
  l.foldl (fun acc p => if p.2.cause = c then acc ||| laneBit p.1 else acc) 0

theorem getLsbD_causeMask (c : Cause) (l : List (Nat × AccFault)) {k : Nat} (hk : k < 64) :
    (causeMask c l).getLsbD k = true ↔ ∃ d, (k, d) ∈ l ∧ d.cause = c := by
  have key (m : Lanes) : (l.foldl (fun acc p => if p.2.cause = c then acc ||| laneBit p.1 else acc) m).getLsbD k = true ↔
      m.getLsbD k = true ∨ ∃ d, (k, d) ∈ l ∧ d.cause = c := by
    induction l generalizing m with
    | nil => simp
    | cons p r ih =>
      have hhere : (if p.2.cause = c then m ||| laneBit p.1 else m).getLsbD k = true ↔
          m.getLsbD k = true ∨ p.1 = k ∧ p.2.cause = c := by
        split
        · next hp => simp [getLsbD_laneBit hk, hp]
        · next hp => simp [hp]
      rw [List.foldl_cons, ih, hhere, or_assoc]
      refine or_congr_right ⟨?_, ?_⟩
      · rintro (⟨rfl, hp⟩ | ⟨d, hd, hc⟩)
        · exact ⟨p.2, List.mem_cons_self, hp⟩
        · exact ⟨d, List.mem_cons_of_mem _ hd, hc⟩
      · rintro ⟨d, hd, hc⟩
        rcases List.mem_cons.mp hd with rfl | hr
        · exact .inl ⟨rfl, hc⟩
        · exact .inr ⟨d, hr, hc⟩
  exact (key 0).trans (by simp)

/-! ### The failure of a memory form -/

theorem State.cur_park (s : State) (w : Wait) : (s.park w).cur = s.cur := s.cur_modSplit _

theorem State.cur_accStop (s : State) (f : AccFault) (acc : Nat) (t : Trap) (m : Lanes) : (s.accStop f acc t m).cur = s.cur := by
  unfold State.accStop
  split
  · exact (State.cur_park _ _).trans (s.cur_postFault _)
  · exact s.cur_trap t

/-- A form whose effect leaves the record of its issue as it was has that effect and pops nothing. -/
theorem exec_of_cur {s : State} {i : Instr} {f : Full} {body : State → State} (hx : exec i s = s.issue i f body) (h : s.executes i f = true)
    (hc : (body s).cur = s.cur) : exec i s = .next (body s) := by
  obtain ⟨-, ⟨-, hdone, hstuck, -⟩, -⟩ := (State.executes_iff s i f).mp h
  rw [hx, State.issue_of_executes h _ ((congrArg Cur.stuck hc).trans hstuck), hc, hdone]
  rfl

/-- A form whose accesses fail stops where the lowest failing lane says. -/
theorem State.memForm_of_failing (s : State) (f : Full) (sp : Space) (n : Nat) (need : Need) (ea : Nat → Int) (lvl : Nat → Nat) (helpers : Bool)
    (k : List (Nat × Spot) → State → State) {l : Nat} {c : AccFault} {r : List (Nat × AccFault)}
    (h : failing (s.accessChecks f sp n need ea lvl).1 = (l, c) :: r) :
    s.memForm f sp n need ea lvl helpers k = s.accStop c (accField need sp)
      (s.mkTrap c.cause (causeMask c.cause ((l, c) :: r)) (BitVec.ofNat 64 (n + 16 * sp.code.toNat)) (BitVec.ofInt 64 (ea l)) 0 0)
      (causeMask c.cause ((l, c) :: r)) := by
  rw [State.accessChecks] at h
  unfold State.memForm
  dsimp only
  rw [h]
  rfl

/-- How a memory form stops whose accesses fail their checks. -/
def State.StopsAt (s : State) (i : Instr) (f : Full) (sp : Space) (n : Nat) (need : Need) (ea : Nat → Int) (lvl : Nat → Nat) : Prop :=
  ∃ (l : Nat) (c : AccFault) (mask : Lanes), (l, .error c) ∈ (s.accessChecks f sp n need ea lvl).1 ∧
    (∀ k d, (k, .error d) ∈ (s.accessChecks f sp n need ea lvl).1 → l ≤ k) ∧
    (∀ k, k < 64 → (mask.getLsbD k = true ↔ ∃ d, (k, .error d) ∈ (s.accessChecks f sp n need ea lvl).1 ∧ d.cause = c.cause)) ∧
    let t : Trap := ⟨c.cause, s.cur.pc, if s.cur.strm = .e then mask else 0, BitVec.ofNat 64 (n + 16 * sp.code.toNat), BitVec.ofInt 64 (ea l), 0, 0⟩
    match c.kind with
    | none => exec i s = .next (s.trap t)
    | some k =>
      let r := s.postFault (s.accRecord c k (accField need sp) t mask)
      exec i s = .next (r.2.park (.fault r.1 t))

theorem State.stopsAt_of_memForm {s : State} {i : Instr} {f : Full} {sp : Space} {n : Nat} {need : Need} {ea : Nat → Int} {lvl : Nat → Nat}
    {helpers : Bool} {k : List (Nat × Spot) → State → State} {body : State → State} (hx : exec i s = s.issue i f body)
    (hb : body s = s.memForm f sp n need ea lvl helpers k) (he : s.executes i f = true)
    (hfail : s.accessesPass f sp n need ea lvl = false) : s.StopsAt i f sp n need ea lvl := by
  obtain ⟨⟨l, c⟩, r, hr⟩ := List.exists_cons_of_ne_nil (List.isEmpty_eq_false_iff.mp hfail)
  have hstop := hb.trans (s.memForm_of_failing f sp n need ea lvl helpers k hr)
  have hexec := exec_of_cur hx he (hstop ▸ s.cur_accStop _ _ _ _)
  refine ⟨l, c, causeMask c.cause ((l, c) :: r), (mem_failing _ _ _).mp (hr ▸ List.mem_cons_self),
    fun k d hd => failing_head_le (s.accessChecks_sorted ..) hr hd, fun k hk => ?_, ?_⟩
  · rw [getLsbD_causeMask _ _ hk, ← hr]
    exact exists_congr fun d => and_congr_left' (mem_failing _ _ _)
  · rw [hexec, hstop, State.accStop]
    cases c.kind with
    | none => rfl
    | some k => rfl

/-- Each memory form, by its own addresses and levels. -/
theorem failingAccessesTrap : Parts.FailingAccessesTrap :=
  fun f acc op m off s =>
    ⟨State.stopsAt_of_memForm (show execLd f acc m off s = _ from rfl) rfl, State.stopsAt_of_memForm (show execSt f acc m off s = _ from rfl) rfl,
      State.stopsAt_of_memForm (show execAtom f op m off s = _ from rfl) rfl, State.stopsAt_of_memForm (show execRed f op m off s = _ from rfl) rfl⟩

/-! ### Effective addresses -/

/-- In the global space base and scaled index are added in 64 bits, elsewhere exactly. -/
theorem effectiveAddresses : Parts.EffectiveAddresses := by
  intro s f sp idx n off l
  dsimp only
  refine ⟨fun hsp => ?_, ?_⟩
  · cases sp with
    | g => exact absurd rfl hsp
    | _ => rfl
  · rintro rfl
    unfold State.ea
    dsimp only
    generalize ((if idx = .null then 0 else (s.src32 f idx l).toInt) + off.toInt) * n = d
    generalize s.src f f.a true l = b
    refine ⟨Int.natCast_nonneg _, by exact_mod_cast (b + BitVec.ofInt 64 d).isLt, ?_⟩
    rw [BitVec.toNat_add, BitVec.toNat_ofInt]
    omega

/-- Settles O27: the checks of one access, what a form with failing accesses does, and the addresses of its accesses. -/
theorem accessChecks : Obligations.AccessChecks := ⟨accessCheckOrder, failingAccessesTrap, effectiveAddresses⟩

end Sys2Proof.Machine
end

section
/-!
SUPPORT. The forms of the A-stream (spec/09_isa_memory_engines.md R251 to R258): what they make of the issuing group, and the rest of the machine as
it was.
-/

namespace Sys2Proof.Machine

/-! ### Forms of the A-stream alone -/

/-- A form that only the A-stream may issue executes there (04 R118). -/
theorem State.strm_a_of_executes {s : State} {i : Instr} {f : Full} (h : s.executes i f = true) (he : streamMay .e (opcOf i) = false)
    (hm : streamMay .m (opcOf i) = false) : s.cur.strm = .a := by
  obtain ⟨-, -, htrap, -⟩ := (State.executes_iff s i f).mp h
  have hcode : s.codeTrap (opcOf i) = none := by
    unfold State.issueTrap at htrap
    split at htrap
    · cases htrap
    · next hc => exact hc
  have hmay : streamMay s.cur.strm (opcOf i) = true := by
    by_contra hno
    unfold State.codeTrap at hcode
    dsimp only at hcode
    rw [if_pos hno] at hcode
    split at hcode
    · cases hcode
    · split_ifs at hcode
  cases hs : s.cur.strm with
  | a => rfl
  | e => rw [hs, he] at hmay; cases hmay
  | m => rw [hs, hm] at hmay; cases hmay

theorem State.queuesRead_a {s : State} (ha : s.cur.strm = .a) (i : Instr) (f : Full) : s.queuesRead i f = [] :=
  (s.queuesRead_e i f).resolve_left fun he => by rw [ha] at he; cases he

/-- The A-stream has no queue sources to pop. -/
theorem exec_of_done_a {s : State} {i : Instr} {f : Full} {body : State → State} (hx : exec i s = s.issue i f body) (h : s.executes i f = true)
    (ha : s.cur.strm = .a) (hc : (body s).cur = { s.cur with done := true }) : exec i s = .next (body s) := by
  rw [exec_of_done hx h hc, State.queuesRead_a ha, State.popQueues_nil]

/-! ### What becomes of the issuing group -/

/-- A later state in which the issuing group is as given, and nothing outside it has changed. -/
def State.Became (s t : State) (y : Group) : Prop := s.SameOutside t ∧ t.group s.cur.grp = y

/-- A stream at a program counter, in a wait. -/
def Stream.standAt (x : Stream) (pc : W64) (w : Wait) (bp : Nat) : Stream := { x with pc := pc, wait := w, bp := bp }

section
variable {s t : State} {y : Group}

theorem State.Became.grp (h : s.Became t y) : t.cur.grp = s.cur.grp :=
  have hc := congrArg Cur.grp h.1.2.1
  hc

theorem State.Became.wid (h : s.Became t y) : t.cur.wid = s.cur.wid :=
  have hc := congrArg Cur.wid h.1.2.1
  hc

theorem State.Became.strm (h : s.Became t y) : t.cur.strm = s.cur.strm :=
  have hc := congrArg Cur.strm h.1.2.1
  hc

theorem State.Became.pc (h : s.Became t y) : t.cur.pc = s.cur.pc :=
  have hc := congrArg Cur.pc h.1.2.1
  hc

theorem State.Became.npc (h : s.Became t y) : t.cur.npc = s.cur.npc :=
  have hc := congrArg Cur.npc h.1.2.1
  hc

theorem State.Became.curGroup (h : s.Became t y) : t.curGroup = y := by rw [State.curGroup, h.grp, h.2]

theorem State.Became.refl (s : State) : s.Became s s.curGroup := ⟨⟨rfl, rfl, fun _ _ => rfl⟩, rfl⟩

theorem State.Became.modGroup (h : s.Became t y) (F : Group → Group) : s.Became (t.modGroup s.cur.grp F) (F y) := by
  obtain ⟨⟨hwork, hcur, hothers⟩, hgrp⟩ := h
  refine ⟨⟨hwork, hcur, fun g hg => ?_⟩, ?_⟩
  · rw [State.group_modGroup_ne _ _ hg, hothers g hg]
  · rw [State.group_modGroup, hgrp]

theorem State.Became.modCur (h : s.Became t y) (F : Group → Group) : s.Became (t.modCur F) (F y) := by
  rw [State.modCur, h.grp]
  exact h.modGroup F

theorem State.Became.markDone (h : s.Became t y) : s.Became t.markDone y := h

/-- The issuing A-stream moves. -/
theorem State.Became.modSplit (h : s.Became t y) (ha : s.cur.strm = .a) (F : Split → List Split) (G : Stream → Stream) :
    s.Became (t.modSplit F G) { y with astr := G y.astr } := by
  rw [State.modSplit, h.strm, ha]
  exact h.modCur (·.modStream .a G)

theorem State.Became.advance (h : s.Became t y) (ha : s.cur.strm = .a) :
    s.Became t.advance { y with astr := y.astr.standAt s.cur.npc .ready 0 } := by
  rw [← h.npc]
  exact (h.modSplit ha _ _).markDone

theorem State.Became.jump (h : s.Became t y) (ha : s.cur.strm = .a) (tgt : Nat → W64) :
    s.Became (t.jump tgt) { y with astr := y.astr.standAt (tgt 0) .ready 0 } := h.modSplit ha _ _

theorem State.Became.park (h : s.Became t y) (ha : s.cur.strm = .a) (w : Wait) :
    s.Became (t.park w) { y with astr := y.astr.standAt s.cur.pc w (if y.astr.wait == .ready then y.astr.bp else 0) } := by
  rw [← h.pc]
  exact h.modSplit ha _ _

theorem State.Became.accessUndone (h : s.Became t y) : s.Became (s.accessUndone t)
    { y with qb := s.curGroup.qb, gens := s.curGroup.gens, idx := s.curGroup.idx, rr := s.curGroup.rr } := h.modGroup _

/-! ### What stays as it was -/

theorem State.Became.regs (h : s.Became t y) : t.regs =
    ⟨(y.warp s.cur.wid).vregs, (y.warp s.cur.wid).sregs, y.astr.sregs, y.mstr.sregs, y.gw, y.gbase, (y.warp s.cur.wid).level⟩ := by
  rw [State.regs, State.curWarp, State.warp, h.grp, h.wid, h.2, h.curGroup]

theorem State.Became.ctl (h : s.Became t y) : t.ctl = ⟨(y.warp s.cur.wid).preds, (y.warp s.cur.wid).level, (y.warp s.cur.wid).fstat,
    (y.warp s.cur.wid).splits, (y.warp s.cur.wid).queues, (y.warp s.cur.wid).live, y.astr.preds, y.astr.fstat, y.mstr.preds, y.mstr.fstat⟩ := by
  rw [State.ctl, State.curWarp, State.warp, h.grp, h.wid, h.2, h.curGroup]

end

section
variable {s t : State} {ws : Store Warp} {z : Stream}

theorem State.Became.frame_of_warps (h : s.Became t { s.curGroup with warps := ws, astr := z }) (ha : s.cur.strm = .a)
    (hws : ∀ w, Store.get ws Warp.blank w = s.curGroup.warp w) (hz : s.curGroup.astr.SameBut z) : s.Frame t := by
  refine ⟨h.1, ?_⟩
  unfold State.SameGroup
  rw [h.2, ha]
  refine ⟨rfl, fun w _ => hws w, ?_, fun _ => hws _, fun st hst => ?_, hz⟩
  · have hwarp := hws s.cur.wid
    change (s.curGroup.warp s.cur.wid).SameBut (Store.get ws Warp.blank s.cur.wid)
    rw [hwarp]
    exact Warp.SameBut.refl _
  · cases st with
    | a => exact absurd rfl hst
    | _ => rfl

theorem State.Became.frame (h : s.Became t { s.curGroup with astr := z }) (ha : s.cur.strm = .a) (hz : s.curGroup.astr.SameBut z) : s.Frame t :=
  h.frame_of_warps (ws := s.curGroup.warps) ha (fun _ => rfl) hz

theorem State.Became.preds {y : Group} (h : s.Became t y) (ha : s.cur.strm = .a) (hp : y.astr.preds = s.curGroup.astr.preds) :
    s.SamePreds t := by
  intro l p _ _
  have hctl : t.ctl.ap = s.ctl.ap := by rw [h.ctl]; exact hp
  rw [State.pred_eq, State.pred_eq, h.strm, ha]
  exact congrArg (fun x : W8 => p == 7 || x.getLsbD p) hctl

theorem State.Became.fstat {y : Group} (h : s.Became t y) (ha : s.cur.strm = .a) (hf : y.astr.fstat = s.curGroup.astr.fstat) :
    t.fstat = s.fstat := by
  have hctl : t.ctl.af = s.ctl.af := by rw [h.ctl]; exact hf
  rw [State.fstat_eq, State.fstat_eq, h.strm, ha]
  exact hctl

theorem State.Became.sameRegs (h : s.Became t { s.curGroup with warps := ws, astr := z }) (ha : s.cur.strm = .a)
    (hws : ∀ w, Store.get ws Warp.blank w = s.curGroup.warp w) (hz : z.sregs = s.curGroup.astr.sregs) : s.SameRegs t := by
  have hr : t.regs = s.regs := by
    rw [h.regs, (State.Became.refl s).regs]
    simp only [Group.warp, hz, hws]
  refine ⟨fun l c _ _ => ?_, fun n _ => ?_, ?_, fun n _ => ?_⟩
  · rw [State.issuer, State.warp, h.2]
    exact congrArg (Warp.vreg · l c) (hws s.cur.wid)
  · rw [State.scalarFile_eq s t ⟨h.grp, h.wid, h.strm⟩, State.scalarFile_eq s s ⟨rfl, rfl, rfl⟩, hr]
  · rw [h.2]
  · exact State.greg_of_regs ha (h.strm.trans ha) hr n

theorem State.Became.kept_of_warps {pc : W64} {w : Wait} {bp : Nat}
    (h : s.Became t { s.curGroup with warps := ws, astr := s.curGroup.astr.standAt pc w bp }) (ha : s.cur.strm = .a)
    (hws : ∀ w, Store.get ws Warp.blank w = s.curGroup.warp w) : s.Kept t :=
  ⟨h.frame_of_warps ha hws rfl, h.sameRegs ha hws rfl, h.preds ha rfl, h.fstat ha rfl⟩

/-- Nothing has changed but where the A-stream stands. -/
theorem State.Became.kept {pc : W64} {w : Wait} {bp : Nat} (h : s.Became t { s.curGroup with astr := s.curGroup.astr.standAt pc w bp })
    (ha : s.cur.strm = .a) : s.Kept t :=
  h.kept_of_warps (ws := s.curGroup.warps) ha fun _ => rfl

end

section
variable {s t : State} {y : Group}

theorem State.Became.advanced {z : Stream} {bp : Nat} (h : s.Became t { y with astr := z.standAt s.cur.npc .ready bp }) (ha : s.cur.strm = .a) :
    s.Advanced t := by
  simp only [State.Advanced, ha, h.2]
  exact ⟨rfl, rfl⟩

theorem State.Became.continuesAt {z : Stream} {tgt : Nat → W64} {bp : Nat} (h : s.Became t { y with astr := z.standAt (tgt 0) .ready bp })
    (ha : s.cur.strm = .a) : s.ContinuesAt t tgt := by
  simp only [State.ContinuesAt, ha, h.2]
  exact ⟨rfl, rfl⟩

theorem State.streamWaits_park (ha : s.cur.strm = .a) (w : Wait) : s.StreamWaits (s.park w) w := by
  have h := (State.Became.refl s).park ha w
  refine ⟨h.kept ha, ?_⟩
  rw [h.2, ha]
  exact ⟨rfl, rfl⟩

end

end Sys2Proof.Machine
end

section
/-!
SUPPORT. The forms of the A-stream but for loads and stores (spec/09_isa_memory_engines.md R252, R255 to R258): generators, loops, the back-queue,
slip limits and the stream's end.
-/

namespace Sys2Proof.Machine

/-! ### The forms but for loads and stores -/

section
variable {s : State} {i : Instr} {f : Full} {body : State → State} (hx : exec i s = s.issue i f body) (he : s.executes i f = true)
  (ha : s.cur.strm = .a)
include hx he ha

theorem exec_eq_of_done_a {t : State} (hb : body s = t) (hc : t.cur = { s.cur with done := true }) : exec i s = .next t := by
  rw [exec_of_done_a hx he ha (by rw [hb]; exact hc), hb]

/-- A form that completes at once passes to the next slot. -/
theorem exec_advance_a (hb : body s = s.advance) : ∃ t, exec i s = .next t ∧ s.Kept t ∧ s.Advanced t := by
  have h := (State.Became.refl s).advance ha
  exact ⟨s.advance, exec_eq_of_done_a hx he ha hb s.cur_advance, h.kept ha, h.advanced ha⟩

/-- A form that changes the issuing group and passes to the next slot. -/
theorem exec_modCur_advance_a {F : Group → Group} (hb : body s = (s.modCur F).advance) : ∃ t, exec i s = .next t ∧
    s.Became t { F s.curGroup with astr := (F s.curGroup).astr.standAt s.cur.npc .ready 0 } := by
  exact ⟨_, exec_eq_of_done_a hx he ha hb (s.modCur F).cur_advance, ((State.Became.refl s).modCur F).advance ha⟩

/-- A form that changes the issuing group and goes elsewhere. -/
theorem exec_modCur_jump_a {F : Group → Group} {tgt : Nat → W64} (hb : body s = (s.modCur F).jump tgt) : ∃ t, exec i s = .next t ∧
    s.Became t { F s.curGroup with astr := (F s.curGroup).astr.standAt (tgt 0) .ready 0 } := by
  exact ⟨_, exec_eq_of_done_a hx he ha hb ((s.modCur F).cur_jump tgt), ((State.Became.refl s).modCur F).jump ha tgt⟩

/-- A form that waits at its slot. -/
theorem exec_park_a {w : Wait} (hb : body s = s.park w) : ∃ t, exec i s = .next t ∧ s.StreamWaits t w := by
  refine ⟨s.park w, ?_, State.streamWaits_park ha w⟩
  rw [exec_of_cur hx he (hb ▸ s.cur_park w), hb]

end

theorem exec_agen (f : Full) (gen : Fin 8) (field : BitVec 3) (s : State) : exec (.agen f gen field) s =
    s.issue (.agen f gen field) f fun s => if s.gLanes f = 0 then s.advance else (s.modCur fun x =>
      { x with gens := Store.put x.gens Gen.blank gen.val ((x.gen gen.val).set field.toNat (s.src f f.a (field == 0) 0)) }).advance := rfl

theorem Gen.set_eq (y : Gen) (field : BitVec 3) (s : State) (f : Full) (x : Operand) :
    y.set field.toNat (s.src f x (field == 0) 0) =
      let v := s.src32 f x 0
      match field.toNat with
      | 0 => { y with base := s.src f x true 0 }
      | 1 => { y with lane := v }
      | 2 => { y with warp := v }
      | 3 => { y with l0 := v }
      | 4 => { y with l1 := v }
      | 5 => { y with l2 := v }
      | _ => { y with l3 := v } := by
  have hall : ∀ k : BitVec 3, k = 0 ∨ k = 1 ∨ k = 2 ∨ k = 3 ∨ k = 4 ∨ k = 5 ∨ k = 6 ∨ k = 7 := by decide
  rcases hall field with rfl | rfl | rfl | rfl | rfl | rfl | rfl | rfl <;> rfl

theorem agenResults (f : Full) (gen : Fin 8) (field : BitVec 3) (s : State) (he : s.executes (.agen f gen field) f = true) (hacts : s.gLanes f ≠ 0) :
    ∃ t, exec (.agen f gen field) s = .next t ∧ s.Kept (s.accessUndone t) ∧ s.Advanced t ∧
      (t.group s.cur.grp).qb = s.curGroup.qb ∧ (t.group s.cur.grp).idx = s.curGroup.idx ∧
      (∀ n, n ≠ gen.val → (t.group s.cur.grp).gen n = s.curGroup.gen n) ∧
      (t.group s.cur.grp).gen gen.val = (s.curGroup.gen gen.val).set field.toNat (s.src f f.a (field == 0) 0) := by
  have ha := State.strm_a_of_executes he rfl rfl
  obtain ⟨t, hexec, h⟩ := exec_modCur_advance_a (exec_agen f gen field s) he ha (if_neg hacts)
  refine ⟨t, hexec, h.accessUndone.kept ha, h.advanced ha, ?_⟩
  rw [h.2]
  exact ⟨rfl, rfl, fun n hn => Store.get_put_ne _ _ _ hn, Store.get_put_same _ _ _ _⟩

theorem State.target_eq (s : State) (off : BitVec 30) : bundleOf s.cur.pc + (off.signExtend 64 <<< 5) = s.offsetTarget off :=
  s.branchTarget_eq off

theorem exec_aloop (f : Full) (k : Fin 4) (off : BitVec 30) (s : State) : exec (.aloop f k off) s =
    s.issue (.aloop f k off) f fun s =>
      if s.gLanes f = 0 then s.advance
      else if (Store.get s.curGroup.idx 0 k.val + 1).ult (s.src32 f f.c 0) then
        (s.modCur fun x => { x with idx := Store.put x.idx 0 k.val (Store.get s.curGroup.idx 0 k.val + 1) }).jump fun _ =>
          bundleOf s.cur.pc + (off.signExtend 64 <<< 5)
      else (s.modCur fun x => { x with idx := Store.put x.idx 0 k.val 0 }).advance := rfl

theorem aloopResults (f : Full) (k : Fin 4) (off : BitVec 30) (s : State) (he : s.executes (.aloop f k off) f = true) (hacts : s.gLanes f ≠ 0) :
    ∃ t, exec (.aloop f k off) s = .next t ∧ s.Kept (s.accessUndone t) ∧
      (t.group s.cur.grp).qb = s.curGroup.qb ∧ (t.group s.cur.grp).gens = s.curGroup.gens ∧
      let i := Store.get s.curGroup.idx 0 k.val + 1
      let more : Bool := decide (i.toNat < (s.src32 f f.c 0).toNat)
      (∀ n, Store.get (t.group s.cur.grp).idx 0 n = if n = k.val then (if more then i else 0) else Store.get s.curGroup.idx 0 n) ∧
      s.ContinuesAt t fun _ => if more then s.offsetTarget off else s.cur.npc := by
  have ha := State.strm_a_of_executes he rfl rfl
  dsimp only
  by_cases hmore : (Store.get s.curGroup.idx 0 k.val + 1).toNat < (s.src32 f f.c 0).toNat
  · obtain ⟨t, hexec, h⟩ := exec_modCur_jump_a (exec_aloop f k off s) he ha ((if_neg hacts).trans (if_pos (decide_eq_true hmore)))
    simp only [hmore, decide_true, if_true]
    refine ⟨t, hexec, h.accessUndone.kept ha, ?_, ?_, fun n => ?_, ?_⟩
    · rw [h.2]
    · rw [h.2]
    · rw [h.2]; exact Store.get_put s.curGroup.idx 0 _ k.val n
    · rw [← s.target_eq off]; exact h.continuesAt (tgt := fun _ => _) ha
  · obtain ⟨t, hexec, h⟩ := exec_modCur_advance_a (exec_aloop f k off s) he ha
      ((if_neg hacts).trans (if_neg (by simpa [BitVec.ult] using hmore)))
    simp only [hmore, decide_false, Bool.false_eq_true, if_false]
    refine ⟨t, hexec, h.accessUndone.kept ha, ?_, ?_, fun n => ?_, ?_⟩
    · rw [h.2]
    · rw [h.2]
    · rw [h.2]; exact Store.get_put s.curGroup.idx 0 0 k.val n
    · exact h.continuesAt (tgt := fun _ => s.cur.npc) ha

theorem exec_abq (f : Full) (z : Bool) (off : BitVec 30) (s : State) : exec (.abq f z off) s =
    s.issue (.abq f z off) f fun s =>
      if s.gLanes f = 0 then s.advance
      else match s.curGroup.qb with
        | [] => s.park .qback
        | v :: r =>
          if (v == 0) == z then (s.modCur fun x => { x with qb := r }).jump fun _ => bundleOf s.cur.pc + (off.signExtend 64 <<< 5)
          else (s.modCur fun x => { x with qb := r }).advance := rfl

/-- What `abq` leaves with v at the front of the back-queue. -/
theorem abq_of_cons {f : Full} {z : Bool} {off : BitVec 30} {s : State} {v : W64} {r : List W64} (he : s.executes (.abq f z off) f = true)
    (hacts : s.gLanes f ≠ 0) (hqb : s.curGroup.qb = v :: r) :
    ∃ t, exec (.abq f z off) s = .next t ∧ s.Kept (s.accessUndone t) ∧ (t.group s.cur.grp).qb = r ∧
      s.ContinuesAt t fun _ => if (if z then v = 0 else v ≠ 0) then s.offsetTarget off else s.cur.npc := by
  have ha := State.strm_a_of_executes he rfl rfl
  have htaken : ((v == 0) == z) = true ↔ (if z then v = 0 else v ≠ 0) := by cases z <;> simp
  by_cases htake : (if z then v = 0 else v ≠ 0)
  · obtain ⟨t, hexec, h⟩ := exec_modCur_jump_a (exec_abq f z off s) he ha (F := fun x => { x with qb := r })
      (tgt := fun _ => bundleOf s.cur.pc + (off.signExtend 64 <<< 5)) (by rw [if_neg hacts, hqb]; exact if_pos (htaken.mpr htake))
    refine ⟨t, hexec, h.accessUndone.kept ha, by rw [h.2], ?_⟩
    simp only [if_pos htake, ← s.target_eq off]
    exact h.continuesAt (tgt := fun _ => _) ha
  · obtain ⟨t, hexec, h⟩ := exec_modCur_advance_a (exec_abq f z off s) he ha (F := fun x => { x with qb := r })
      (by rw [if_neg hacts, hqb]; exact if_neg fun ht => htake (htaken.mp ht))
    refine ⟨t, hexec, h.accessUndone.kept ha, by rw [h.2], ?_⟩
    simp only [if_neg htake]
    exact h.continuesAt (tgt := fun _ => s.cur.npc) ha

theorem abq_of_nil {f : Full} {z : Bool} {off : BitVec 30} {s : State} (he : s.executes (.abq f z off) f = true) (hacts : s.gLanes f ≠ 0)
    (hqb : s.curGroup.qb = []) : ∃ t, exec (.abq f z off) s = .next t ∧ s.StreamWaits t .qback :=
  exec_park_a (exec_abq f z off s) he (State.strm_a_of_executes he rfl rfl) (by rw [if_neg hacts, hqb])

theorem exec_apop (f : Full) (s : State) : exec (.apop f) s =
    s.issue (.apop f) f fun s =>
      if s.gLanes f = 0 then s.advance
      else match s.curGroup.qb with
        | [] => s.park .qback
        | v :: r => ((s.modCur fun x => { x with qb := r }).writeDst f.d true false 1 fun _ => v).advance := rfl

theorem State.Became.setSreg {s t : State} {y : Group} (h : s.Became t y) (ha : s.cur.strm = .a) (n : Nat) (x : W32) :
    s.Became (t.setSreg n x) { y with astr := { y.astr with sregs := Store.put y.astr.sregs 0 n x } } := by
  rw [State.setSreg, h.strm, ha]
  exact h.modCur (·.modStream .a fun z => { z with sregs := Store.put z.sregs 0 n x })

theorem lowLane_one : lowLane (1 : Lanes) = some 0 := by decide

/-- A value written to a pair of scalar registers by the A-stream. -/
theorem State.writeDst_pair (s : State) (n : Fin 64) (hist : Bool) (v : W64) : s.writeDst (.s n) true hist 1 (fun _ => v) =
    (s.setSreg n.val (v.setWidth 32)).setSreg (n.val + 1) (v.extractLsb' 32 32) := by
  unfold State.writeDst
  rw [lowLane_one]
  rfl

/-- The A-stream's registers after a value went to a pair. -/
def Stream.withPair (x : Stream) (n : Nat) (v : W64) : Stream :=
  { x with sregs := Store.put (Store.put x.sregs 0 n (v.setWidth 32)) 0 (n + 1) (v.extractLsb' 32 32) }

theorem State.Became.writePair {s t : State} {y : Group} (h : s.Became t y) (ha : s.cur.strm = .a) (n : Fin 64) (hist : Bool) (v : W64) :
    s.Became (t.writeDst (.s n) true hist 1 fun _ => v) { y with astr := y.astr.withPair n.val v } := by
  rw [State.writeDst_pair]
  exact (h.setSreg ha _ _).setSreg ha _ _

/-- What `apop` leaves with v at the front of the back-queue. -/
theorem apop_of_cons {f : Full} {s : State} {v : W64} {r : List W64} (he : s.executes (.apop f) f = true)
    (hacts : s.gLanes f ≠ 0) (hqb : s.curGroup.qb = v :: r) :
    ∃ t, exec (.apop f) s = .next t ∧ s.Frame (s.accessUndone t) ∧ s.Wrote t f.d true 1 (fun _ => v) ∧ s.SamePreds t ∧ t.fstat = s.fstat ∧
      s.Advanced t ∧ (t.group s.cur.grp).qb = r := by
  have ha := State.strm_a_of_executes he rfl rfl
  obtain ⟨hwf, -⟩ := (State.executes_iff s _ f).mp he
  obtain ⟨hslot, -⟩ := Full.wf_fields (Instr.wf_full rfl hwf).1
  have hslot : Slot.sreg64.ok f.d = true := hslot
  obtain ⟨n, hd⟩ : ∃ n, f.d = .s n := by
    cases hd : f.d with
    | s n => exact ⟨n, rfl⟩
    | _ => rw [hd] at hslot; cases hslot
  have h := (((State.Became.refl s).modCur fun x => { x with qb := r }).writePair ha n false v).advance ha
  rw [hd] at hslot ⊢
  generalize hu : ((s.modCur fun x => { x with qb := r }).writeDst (.s n) true false 1 fun _ => v) = u at h
  have hcur : u.advance.cur = { s.cur with done := true } := by
    rw [State.cur_advance, ← hu, State.cur_writeDst]
    rfl
  refine ⟨u.advance, ?_, h.accessUndone.frame ha rfl, ?_, ?_, ?_, h.advanced ha, by rw [h.2]⟩
  · exact exec_eq_of_done_a (exec_apop f s) he ha (by rw [if_neg hacts, hqb, hd, ← hu]) hcur
  · refine State.wrote_of_regs hcur ?_ ⟨fun h => absurd rfl h, fun h => absurd rfl h⟩ hslot
    rw [h.regs, (((State.Became.refl s).writePair ha n true v)).regs]
    rfl
  · exact h.preds ha rfl
  · exact h.fstat ha rfl

theorem apop_of_nil {f : Full} {s : State} (he : s.executes (.apop f) f = true) (hacts : s.gLanes f ≠ 0)
    (hqb : s.curGroup.qb = []) : ∃ t, exec (.apop f) s = .next t ∧ s.StreamWaits t .qback :=
  exec_park_a (exec_apop f s) he (State.strm_a_of_executes he rfl rfl) (by rw [if_neg hacts, hqb])

/-- A warp that stands among those of a group, after every warp has changed. -/
theorem Group.warp_mapWarps {x : Group} {w : Nat} (h : (w, x.warp w) ∈ x.warps) (F : Nat → Warp → Warp) :
    (x.mapWarps F).warp w = F w (x.warp w) := by
  have key (l : Store Warp) (hl : ∃ p ∈ l, p.1 = w) :
      Store.get (l.map fun p => (p.1, F p.1 p.2) : Store Warp) Warp.blank w = F w (Store.get l Warp.blank w) := by
    induction l with
    | nil => simp at hl
    | cons p r ih =>
      obtain ⟨q, hq, rfl⟩ := hl
      rw [List.map_cons, Store.get, Store.get]
      split
      · next hp => rw [hp]
      · next hp =>
        refine ih ⟨q, (List.mem_cons.mp hq).resolve_left fun heq => hp ?_, rfl⟩
        rw [heq]
  exact key x.warps ⟨_, h, rfl⟩

theorem exec_aslip (f : Full) (q : Fin 8) (s : State) : exec (.aslip f q) s =
    s.issue (.aslip f q) f fun s =>
      if s.gLanes f = 0 then s.advance
      else (s.modCur fun x => x.mapWarps fun _ w => w.modQueue q.val fun k =>
        { k with slip := min (max (s.src32 f f.a 0).toNat 1) 16 }).advance := rfl

theorem aslipResults (f : Full) (q : Fin 8) (s : State) (he : s.executes (.aslip f q) f = true) (hacts : s.gLanes f ≠ 0) :
    ∃ t, exec (.aslip f q) s = .next t ∧ s.Advanced t ∧ t.mem = s.mem ∧
      ∀ w, (w, (s.curGroup.warp w)) ∈ s.curGroup.warps →
        (((t.group s.cur.grp).warp w).queue q.val).slip = min (max (s.src32 f f.a 0).toNat 1) 16 ∧
        (((t.group s.cur.grp).warp w).queue q.val).entries = ((s.curGroup.warp w).queue q.val).entries := by
  have ha := State.strm_a_of_executes he rfl rfl
  obtain ⟨t, hexec, h⟩ := exec_modCur_advance_a (exec_aslip f q s) he ha (if_neg hacts)
  refine ⟨t, hexec, h.advanced ha, ?_, fun w hw => ?_⟩
  · have hmem := congrArg State.mem h.1.1
    exact hmem
  · have hwarp := Group.warp_mapWarps hw fun _ w => w.modQueue q.val fun k => { k with slip := min (max (s.src32 f f.a 0).toNat 1) 16 }
    have ht : (t.group s.cur.grp).warp w = _ := (congrArg (Group.warp · w) h.2).trans hwarp
    rw [ht, Warp.queue_modQueue, if_pos rfl]
    exact ⟨rfl, rfl⟩

/-- The queues of a kernel closed, of a list of numbers. -/
def closeQueues (k : Kernel) (l : List Nat) (qs : Store Queue) : Store Queue :=
  l.foldl (fun qs n => if k.hasQueue n then Store.put qs Queue.blank n { Store.get qs Queue.blank n with closed := true } else qs) qs

theorem closed_closeQueues {k : Kernel} {n : Nat} (hk : k.hasQueue n = true) (l : List Nat) (qs : Store Queue)
    (h : n ∈ l ∨ (Store.get qs Queue.blank n).closed = true) : (Store.get (closeQueues k l qs) Queue.blank n).closed = true := by
  induction l generalizing qs with
  | nil => exact h.resolve_left List.not_mem_nil
  | cons m r ih =>
    refine ih _ ?_
    beta_reduce
    by_cases hm : m = n
    · subst hm
      rw [if_pos hk, Store.get_put_same]
      exact .inr rfl
    · refine h.imp (fun hn => (List.mem_cons.mp hn).resolve_left (Ne.symm hm)) fun hc => ?_
      split
      · rw [Store.get_put_ne _ _ _ (Ne.symm hm)]
        exact hc
      · exact hc

theorem exec_aend (f : Full) (s : State) : exec (.aend f) s =
    s.issue (.aend f) f fun s => if s.gLanes f = 0 then s.advance else (s.advance.modCur Group.endA).settleBarriers s.cur.grp := rfl

theorem aendResults (f : Full) (s : State) (he : s.executes (.aend f) f = true) (hacts : s.gLanes f ≠ 0) :
    ∃ r : State, exec (.aend f) s = .next (r.settleBarriers s.cur.grp) ∧
      (r.group s.cur.grp).astr.ended = true ∧ r.mem = s.mem ∧
      ∀ w n, (w, (s.curGroup.warp w)) ∈ s.curGroup.warps → n < 8 → s.curGroup.kernel.hasQueue n = true →
        (((r.group s.cur.grp).warp w).queue n).closed = true := by
  have ha := State.strm_a_of_executes he rfl rfl
  have h := ((State.Became.refl s).advance ha).modCur Group.endA
  have hcur : ((s.advance.modCur Group.endA).settleBarriers s.cur.grp).cur = { s.cur with done := true } :=
    (State.cur_settleBarriers _ _).trans s.cur_advance
  refine ⟨s.advance.modCur Group.endA, ?_, ?_, ?_, fun w n hw hn hk => ?_⟩
  · exact exec_eq_of_done_a (exec_aend f s) he ha (if_neg hacts) hcur
  · rw [h.2]; rfl
  · have hmem := congrArg State.mem h.1.1
    exact hmem
  · have hwarp := Group.warp_mapWarps hw fun _ w => { w with queues := closeQueues s.curGroup.kernel (List.range 8) w.queues }
    have hr : ((s.advance.modCur Group.endA).group s.cur.grp).warp w = _ := (congrArg (Group.warp · w) h.2).trans hwarp
    rw [hr]
    exact closed_closeQueues hk _ _ (.inl (List.mem_range.mpr hn))

/-- Generators, indices, back-queue and slip limits. -/
theorem accessStreamForms : Parts.AccessStreamResults := by
  intro f gen q k field hint z off goff s
  refine ⟨?_, ?_, ?_, ?_, ?_, ?_, ?_, ?_, ?_, ?_, ?_, ?_, ?_⟩
  · exact fun he h0 => exec_advance_a (exec_agen f gen field s) he (State.strm_a_of_executes he rfl rfl) (if_pos h0)
  · exact fun he h0 => exec_advance_a (exec_aloop f k off s) he (State.strm_a_of_executes he rfl rfl) (if_pos h0)
  · exact fun he h0 => exec_advance_a (exec_aend f s) he (State.strm_a_of_executes he rfl rfl) (if_pos h0)
  · exact fun he h0 => exec_advance_a (exec_apop f s) he (State.strm_a_of_executes he rfl rfl) (if_pos h0)
  · exact fun he h0 => exec_advance_a (exec_abq f z off s) he (State.strm_a_of_executes he rfl rfl) (if_pos h0)
  · exact fun he h0 => exec_advance_a (exec_aslip f q s) he (State.strm_a_of_executes he rfl rfl) (if_pos h0)
  · exact fun he => exec_advance_a (show execApf f gen hint goff s = _ from rfl) he (State.strm_a_of_executes he rfl rfl) rfl
  · intro he hacts
    obtain ⟨t, hexec, hkept, hadv, hqb, hidx, hothers, hgen⟩ := agenResults f gen field s he hacts
    exact ⟨t, hexec, hkept, hadv, hqb, hidx, hothers, hgen.trans (Gen.set_eq ..)⟩
  · exact aloopResults f k off s
  · exact aendResults f s
  · intro he hacts
    cases hqb : s.curGroup.qb with
    | nil => exact apop_of_nil he hacts hqb
    | cons v r => exact apop_of_cons he hacts hqb
  · intro he hacts
    cases hqb : s.curGroup.qb with
    | nil => exact abq_of_nil he hacts hqb
    | cons v r => exact abq_of_cons he hacts hqb
  · exact aslipResults f q s

end Sys2Proof.Machine
end

section
/-!
SUPPORT. `aload` (spec/09_isa_memory_engines.md R253, R254; spec/03_decoupled_streams.md R66, R75, R76): the entries that it allocates, target by
target, and the return of an element.
-/

namespace Sys2Proof.Machine

/-! ### The machine while elements are loaded -/

/-- A group with other warps, and other reads that its A-stream has acquired. -/
def Group.fed (x : Group) (ws : Store Warp) (a : List AcqRead) : Group := { x with warps := ws, astr := { x.astr with acqs := a } }

/-- A later state of an A-stream that has loaded elements: but for memory, the warps as given and what the stream has acquired, the machine is
as it was. -/
def State.Fed (s u : State) (ws : Store Warp) : Prop := u.cur = s.cur ∧ ∃ a, s.Became { u with mem := s.mem } (s.curGroup.fed ws a)

section
variable {s u : State} {ws : Store Warp}

theorem State.Fed.refl (s : State) : s.Fed s s.curGroup.warps := ⟨rfl, s.curGroup.astr.acqs, State.Became.refl s⟩

theorem State.Fed.withMem (h : s.Fed u ws) (m : Mem) : s.Fed { u with mem := m } ws := h

theorem State.Fed.curGroup (h : s.Fed u ws) : ∃ a, u.curGroup = s.curGroup.fed ws a := by
  obtain ⟨hcur, a, hb⟩ := h
  exact ⟨a, hb.curGroup⟩

theorem State.Fed.keepRecords (h : s.Fed u ws) (ha : s.cur.strm = .a) (lane : Nat) (rs : List RelRec) : s.Fed (u.keepRecords lane rs) ws := by
  have hcur : u.cur = s.cur := h.1
  unfold State.keepRecords
  dsimp only
  rw [hcur, ha]
  split
  · exact h
  · obtain ⟨-, a, hb⟩ := h
    exact ⟨hcur, _, hb.modGroup (·.modStream .a fun y => { y with acqs := (y.acqs ++ rs.map fun r => (⟨lane, r.ctx, r.caches⟩ : AcqRead)).dedup })⟩

/-- A relaxed load that no scope of other devices takes to a promotion. -/
theorem State.Fed.loadAt (h : s.Fed u ws) (ha : s.cur.strm = .a) (g lane : Nat) (b : Agent) (p : Spot) (n : Nat) {m : MemMod} (ho : m.order = .rlx)
    (hs : m.scope ≠ .rem) : s.Fed (u.loadAt g lane b p n m).2 ws := by
  cases p with
  | s o | k o => exact h
  | g l =>
    have hbefore : u.before b (.g l) n m none = u := by simp [State.before, hs]
    unfold State.loadAt
    rw [hbefore]
    unfold State.afterRead
    simp only [ho, orderAcq, Bool.false_and, Bool.false_eq_true, if_false]
    split
    · exact h.withMem _
    · exact (h.withMem _).keepRecords ha lane _

theorem State.Fed.loadElem (h : s.Fed u ws) (ha : s.cur.strm = .a) (g : Nat) (acc : BitVec 3) {m : MemMod} (ho : m.order = .rlx)
    (hs : m.scope ≠ .rem) (ea : Int) : s.Fed (u.loadElem g acc m ea).2 ws := by
  unfold State.loadElem
  dsimp only
  split
  · exact h
  · next p t hspot =>
    obtain ⟨k, rfl⟩ := State.spot_changes_mem hspot
    exact (h.withMem k).loadAt ha g 64 _ p _ ho hs

/-- The element of an address in the scratchpad (09 R254). -/
def State.scratchElem (s : State) (acc : BitVec 3) (m : MemMod) (ea : Int) : QElem :=
  match s.spot s.cur.grp s.agent ⟨.s, ea, accSize acc, .load, readLevel m⟩ with
  | .error c => .pendingFault c.cause (BitVec.ofInt 64 ea) c.kind.isSome
  | .ok _ => .pending (elemData acc (readBytes s.curGroup.scratch ea.toNat (accSize acc)))

theorem State.Fed.loadElem_scratch (h : s.Fed u ws) (hmem : u.mem = s.mem) {m : MemMod} (hm : m.space = .s) (acc : BitVec 3) (ea : Int) :
    u.loadElem s.cur.grp acc m ea = (s.scratchElem acc m ea, u) := by
  obtain ⟨a, hx⟩ := h.curGroup
  have hgrp : u.group s.cur.grp = s.curGroup.fed ws a := by rw [← hx, State.curGroup, h.1]
  have hfault : u.scratchFault s.cur.grp ⟨.s, ea, accSize acc, .load, readLevel m⟩ =
      s.scratchFault s.cur.grp ⟨.s, ea, accSize acc, .load, readLevel m⟩ := by
    unfold State.scratchFault
    rw [hgrp, hmem]
    rfl
  unfold State.loadElem State.scratchElem
  simp only [hm]
  rw [State.spot_scratch _ _ _ rfl, State.spot_scratch _ _ _ rfl, hfault]
  cases s.scratchFault s.cur.grp ⟨.s, ea, accSize acc, .load, readLevel m⟩ with
  | some c => rfl
  | none =>
    have hbytes : (u.group s.cur.grp).scratch = s.curGroup.scratch := by rw [hgrp]; rfl
    simp only [State.loadAt, State.before, State.readSpot, State.afterRead, hbytes]

/-- The next slot follows whatever memory holds. -/
theorem State.advance_withMem (t : State) (m : Mem) : ({ t with mem := m } : State).advance = { t.advance with mem := m } := by
  unfold State.advance State.modSplit
  dsimp only
  cases t.cur.strm <;> rfl

theorem State.mem_advance (t : State) : t.advance.mem = t.mem := by
  obtain ⟨⟨hwork, -⟩, -⟩ := t.frame_advance
  have hmem := congrArg State.mem hwork
  exact hmem

theorem State.Became.advance_of_mem {s t : State} {y : Group} (h : s.Became { t with mem := s.mem } y) (ha : s.cur.strm = .a) :
    s.Became { t.advance with mem := s.mem } { y with astr := y.astr.standAt s.cur.npc .ready 0 } :=
  t.advance_withMem s.mem ▸ h.advance ha

/-- The A-stream stands at the next slot, whatever memory holds. -/
theorem State.Became.advanced_of_mem {s t : State} {y : Group} {z : Stream} {bp : Nat}
    (h : s.Became { t with mem := s.mem } { y with astr := z.standAt s.cur.npc .ready bp }) (ha : s.cur.strm = .a) : s.Advanced t := by
  have hadv := h.advanced ha
  simp only [State.Advanced, ha] at hadv ⊢
  exact hadv

/-! ### Entries -/

/-- The loads of a list of elements, in order. -/
def State.loadElems (u : State) (g : Nat) (acc : BitVec 3) (m : MemMod) (addr : Nat → Int) (l : List Nat) : List QElem × State :=
  l.foldl (fun (r : List QElem × State) p =>
    let e := r.2.loadElem g acc m (addr p)
    (r.1 ++ [e.1], e.2)) ([], u)

theorem State.loadElems_snoc (u : State) (g : Nat) (acc : BitVec 3) (m : MemMod) (addr : Nat → Int) (l : List Nat) (p : Nat) :
    u.loadElems g acc m addr (l ++ [p]) =
      let r := u.loadElems g acc m addr l
      (r.1 ++ [(r.2.loadElem g acc m (addr p)).1], (r.2.loadElem g acc m (addr p)).2) := by
  rw [State.loadElems, List.foldl_append]
  rfl

theorem State.length_loadElems (u : State) (g : Nat) (acc : BitVec 3) (m : MemMod) (addr : Nat → Int) (l : List Nat) :
    (u.loadElems g acc m addr l).1.length = l.length := by
  induction l using List.reverseRecOn with
  | nil => rfl
  | append_singleton l p ih => simp [State.loadElems_snoc, ih]

theorem State.Fed.loadElems (h : s.Fed u ws) (ha : s.cur.strm = .a) (g : Nat) (acc : BitVec 3) {m : MemMod} (ho : m.order = .rlx)
    (hs : m.scope ≠ .rem) (addr : Nat → Int) (l : List Nat) : s.Fed (u.loadElems g acc m addr l).2 ws :=
  foldl_keeps (fun r : List QElem × State => s.Fed r.2 ws) _ l (fun _ p hr => State.Fed.loadElem hr ha g acc ho hs (addr p)) ([], u) h

theorem State.Fed.loadElems_scratch (h : s.Fed u ws) (hmem : u.mem = s.mem) {m : MemMod} (hm : m.space = .s) (acc : BitVec 3) (addr : Nat → Int)
    (l : List Nat) : u.loadElems s.cur.grp acc m addr l = (l.map fun p => s.scratchElem acc m (addr p), u) := by
  induction l using List.reverseRecOn with
  | nil => rfl
  | append_singleton l p ih =>
    rw [State.loadElems_snoc, ih]
    dsimp only
    rw [h.loadElem_scratch hmem hm acc (addr p), List.map_append]
    rfl

/-- A warp with an entry at the tail of a queue. -/
def Warp.withEntry (y : Warp) (q : Nat) (acc : BitVec 3) (m : MemMod) (els : List QElem) : Warp :=
  y.modQueue q fun k => { k with entries := k.entries ++ [⟨k.tail, acc, m, els⟩], tail := k.tail + 1 }

theorem State.allocEntry_eq (u : State) (q : Nat) (acc : BitVec 3) (m : MemMod) (addr : Nat → Int) (w : Nat) :
    u.allocEntry q acc m addr w =
      let r := u.loadElems u.cur.grp acc m addr (List.range u.curGroup.kernel.width)
      r.2.modWarp u.cur.grp w fun y => y.withEntry q acc m r.1 := rfl

theorem State.Fed.modWarp (h : s.Fed u ws) (w : Nat) (F : Warp → Warp) :
    s.Fed (u.modWarp s.cur.grp w F) (Store.put ws Warp.blank w (F (Store.get ws Warp.blank w))) := by
  obtain ⟨hcur, a, hb⟩ := h
  exact ⟨hcur, a, hb.modGroup (·.modWarp w F)⟩

/-- What an entry's allocation does: its elements are as many as the kernel's width says, and in the scratchpad those of their addresses. -/
theorem State.Fed.allocEntry (h : s.Fed u ws) (ha : s.cur.strm = .a) (q : Nat) (acc : BitVec 3) {m : MemMod} (ho : m.order = .rlx)
    (hs : m.scope ≠ .rem) (addr : Nat → Int) (w : Nat) : ∃ els,
      s.Fed (u.allocEntry q acc m addr w) (Store.put ws Warp.blank w ((Store.get ws Warp.blank w).withEntry q acc m els)) ∧
      els.length = s.curGroup.kernel.width ∧
      (m.space = .s → u.mem = s.mem → (u.allocEntry q acc m addr w).mem = s.mem ∧
        els = (List.range s.curGroup.kernel.width).map fun p => s.scratchElem acc m (addr p)) := by
  obtain ⟨a, hx⟩ := h.curGroup
  have hwidth : u.curGroup.kernel.width = s.curGroup.kernel.width := by rw [hx]; rfl
  have halloc := u.allocEntry_eq q acc m addr w
  rw [hwidth, h.1] at halloc
  dsimp only at halloc
  rw [halloc]
  refine ⟨(u.loadElems s.cur.grp acc m addr (List.range s.curGroup.kernel.width)).1, ?_, ?_, fun hm hmem => ?_⟩
  · exact (h.loadElems ha s.cur.grp acc ho hs addr _).modWarp w _
  · rw [State.length_loadElems, List.length_range]
  · rw [h.loadElems_scratch hmem hm acc addr]
    exact ⟨hmem, rfl⟩

/-- What the allocation of one entry in each of several warps does. -/
theorem State.Fed.allocEntries (ha : s.cur.strm = .a) (q : Nat) (acc : BitVec 3) {m : MemMod} (ho : m.order = .rlx) (hs : m.scope ≠ .rem)
    (addr : Nat → Nat → Int) {ts : List Nat} (hnodup : ts.Nodup) (h : s.Fed u ws) : ∃ vs,
      s.Fed (ts.foldl (fun t w => t.allocEntry q acc m (addr w) w) u) vs ∧
      (∀ w, w ∉ ts → Store.get vs Warp.blank w = Store.get ws Warp.blank w) ∧
      (∀ w ∈ ts, ∃ els, Store.get vs Warp.blank w = (Store.get ws Warp.blank w).withEntry q acc m els ∧ els.length = s.curGroup.kernel.width ∧
        (m.space = .s → u.mem = s.mem → els = (List.range s.curGroup.kernel.width).map fun p => s.scratchElem acc m (addr w p))) ∧
      (m.space = .s → u.mem = s.mem → (ts.foldl (fun t w => t.allocEntry q acc m (addr w) w) u).mem = s.mem) := by
  induction ts generalizing u ws with
  | nil => exact ⟨ws, h, fun _ _ => rfl, fun w hw => absurd hw List.not_mem_nil, fun _ hmem => hmem⟩
  | cons v r ih =>
    obtain ⟨hv, hr⟩ := List.nodup_cons.mp hnodup
    obtain ⟨els, hfed, hlen, hscr⟩ := h.allocEntry ha q acc ho hs (addr v) v
    obtain ⟨vs, hall, hother, hmine, hmem⟩ := ih hr hfed
    refine ⟨vs, hall, fun w hw => ?_, fun w hw => ?_, fun hm h0 => hmem hm (hscr hm h0).1⟩
    · obtain ⟨hwv, hwr⟩ := not_or.mp (fun hc => hw (List.mem_cons.mpr hc))
      rw [hother w hwr, Store.get_put_ne _ _ _ hwv]
    · rcases List.mem_cons.mp hw with rfl | hwr
      · rw [hother w hv, Store.get_put_same]
        exact ⟨els, rfl, hlen, fun hm h0 => (hscr hm h0).2⟩
      · have hne : w ≠ v := fun hc => hv (hc ▸ hwr)
        obtain ⟨els', hget, hlen', hscr'⟩ := hmine w hwr
        rw [Store.get_put_ne _ _ _ hne] at hget
        exact ⟨els', hget, hlen', fun hm h0 => hscr' hm (hscr hm h0).1⟩

/-- The turn of a round-robin queue. -/
theorem State.Fed.turn (h : s.Fed u ws) (q : Nat) (sel : BitVec 10) (ts : List Nat) :
    (u.turn q sel ts).cur = s.cur ∧ (u.turn q sel ts).mem = u.mem ∧
      ∃ a rr, s.Became { u.turn q sel ts with mem := s.mem } { s.curGroup.fed ws a with rr := rr } := by
  obtain ⟨hcur, a, hb⟩ := h
  unfold State.turn
  split
  · exact ⟨hcur, rfl, a, _, hb.modCur fun x => { x with rr := _ }⟩
  · exact ⟨hcur, rfl, a, _, hb⟩

end

/-! ### `aload` -/

theorem State.targets_nodup (s : State) (q : Nat) (sel : BitVec 10) : (s.targets q sel).Nodup := by
  have hopen (w : Nat) : (if (s.curGroup.warp w).ended then [] else [w]).Nodup := by
    split
    · exact List.nodup_nil
    · exact List.nodup_singleton w
  unfold State.targets
  dsimp only
  split
  · exact hopen _
  · cases s.curGroup.nextWarp (Store.get s.curGroup.rr 0 q) with
    | none => exact List.nodup_nil
    | some w => exact List.nodup_singleton w
  · exact List.nodup_range.filter _
  · exact hopen _

theorem Group.genAddr_scratch (s : State) (k size : Nat) (off : BitVec 10) (p w : Nat) :
    s.curGroup.genAddr k .s size off p w = s.elementAddress k false size off p w := by
  simp only [Group.genAddr, State.elementAddress, Group.index4, Bool.false_eq_true, if_false]
  ring

section
variable {f : Full} {gen : Fin 8} {acc : BitVec 3} {m : MemMod} {sel off : BitVec 10} {s : State}

theorem exec_aload (f : Full) (gen : Fin 8) (acc : BitVec 3) (m : MemMod) (sel off : BitVec 10) (s : State) : exec (.aload f gen acc m sel off) s =
    s.issue (.aload f gen acc m sel off) f fun s =>
      let q := queueNo f.d
      if s.gLanes f = 0 then s.advance
      else if s.badSel sel then
        s.trap { s.decodeTrap .reservedField 0 0 0 with i3 := (s.sreg (sel.extractLsb' 0 8).toNat).setWidth 64 }
      else
        let ts := s.targets q sel
        if !(ts.all (s.curGroup.hasRoom q)) then s.park .qfull
        else
          let addr (w p : Nat) : Int := s.curGroup.genAddr gen.val m.space (accSize acc) off p w
          ((ts.foldl (fun t w => t.allocEntry q acc m (addr w) w) s).turn q sel ts).advance := rfl

theorem aload_strm (he : s.executes (.aload f gen acc m sel off) f = true) : s.cur.strm = .a := by
  have hcodes : ∀ k : BitVec 3, streamMay .e (0x310#10 + k.setWidth 10).toNat = false ∧ streamMay .m (0x310#10 + k.setWidth 10).toNat = false := by
    decide
  obtain ⟨hnotE, hnotM⟩ := hcodes acc
  exact State.strm_a_of_executes he hnotE hnotM

/-- The kinds of `aload` (09 R253): relaxed, and within the device. -/
theorem aload_kind (he : s.executes (.aload f gen acc m sel off) f = true) : m.order = .rlx ∧ m.scope ≠ .rem := by
  obtain ⟨hwf, -⟩ := (State.executes_iff s _ f).mp he
  obtain ⟨-, hfields⟩ := Instr.wf_full (i := .aload f gen acc m sel off) rfl hwf
  have hfields : (decide (acc.toNat < 6) && aloadOk acc m && selOk sel) = true := hfields
  simp only [Bool.and_eq_true, aloadOk, beq_iff_eq] at hfields
  obtain ⟨⟨-, ⟨⟨horder, -⟩, -⟩, hscope⟩, -⟩ := hfields
  refine ⟨horder, fun hrem => ?_⟩
  rw [hrem] at hscope
  cases hscope

theorem hasRoom_iff (x : Group) (q : Nat) (ts : List Nat) :
    (!(ts.all (x.hasRoom q))) = true ↔ ∃ w ∈ ts, x.slipOf w q ≤ ((x.warp w).queue q).entries.length := by
  simp [Group.hasRoom]

/-- `aload` waits where some target's queue is full. -/
theorem aload_of_full (he : s.executes (.aload f gen acc m sel off) f = true) (hacts : s.gLanes f ≠ 0) (hsel : s.badSel sel = false)
    (hfull : ∃ w ∈ s.targets (queueNo f.d) sel, s.curGroup.slipOf w (queueNo f.d) ≤ ((s.curGroup.warp w).queue (queueNo f.d)).entries.length) :
    ∃ t, exec (.aload f gen acc m sel off) s = .next t ∧ s.StreamWaits t .qfull := by
  refine exec_park_a (exec_aload f gen acc m sel off s) he (aload_strm he) ?_
  dsimp only
  rw [if_neg hacts, hsel, if_neg Bool.false_ne_true, if_pos ((hasRoom_iff ..).mpr hfull)]

/-- `aload` allocates one entry in each target where all have room. -/
theorem aload_of_room (he : s.executes (.aload f gen acc m sel off) f = true) (hacts : s.gLanes f ≠ 0) (hsel : s.badSel sel = false)
    (hroom : ¬ ∃ w ∈ s.targets (queueNo f.d) sel, s.curGroup.slipOf w (queueNo f.d) ≤ ((s.curGroup.warp w).queue (queueNo f.d)).entries.length) :
    ∃ t, exec (.aload f gen acc m sel off) s = .next t ∧ s.Advanced t ∧ s.SameWindow t ∧ (m.space = .s → t.mem = s.mem) ∧
      (∀ w, w ∉ s.targets (queueNo f.d) sel → (t.group s.cur.grp).warp w = s.curGroup.warp w) ∧
      ∀ w ∈ s.targets (queueNo f.d) sel, ∃ els, (t.group s.cur.grp).warp w = (s.curGroup.warp w).withEntry (queueNo f.d) acc m els ∧
        els.length = s.curGroup.kernel.width ∧
        (m.space = .s → els = (List.range s.curGroup.kernel.width).map fun p =>
          s.scratchElem acc m (s.elementAddress gen.val false (accSize acc) off p w)) := by
  have ha := aload_strm he
  obtain ⟨horder, hscope⟩ := aload_kind he
  obtain ⟨vs, hfed, hother, hmine, hmem⟩ := State.Fed.allocEntries ha (queueNo f.d) acc horder hscope
    (fun w p => s.curGroup.genAddr gen.val m.space (accSize acc) off p w) (s.targets_nodup (queueNo f.d) sel) (State.Fed.refl s)
  generalize hu : (s.targets (queueNo f.d) sel).foldl (fun t w => t.allocEntry (queueNo f.d) acc m
    (fun p => s.curGroup.genAddr gen.val m.space (accSize acc) off p w) w) s = u at hfed hmem
  obtain ⟨hcur, hturn, a, rr, hb⟩ := hfed.turn (queueNo f.d) sel (s.targets (queueNo f.d) sel)
  have hadv := hb.advance_of_mem ha
  have hgrp : ((u.turn (queueNo f.d) sel (s.targets (queueNo f.d) sel)).advance).group s.cur.grp = _ := hadv.2
  have hwarp (w : Nat) : (((u.turn (queueNo f.d) sel (s.targets (queueNo f.d) sel)).advance).group s.cur.grp).warp w =
      Store.get vs Warp.blank w := by rw [hgrp]; rfl
  refine ⟨_, exec_eq_of_done_a (exec_aload f gen acc m sel off s) he ha ?_ ((State.cur_advance _).trans (by rw [hcur])), ?_, ?_, fun hm => ?_,
    fun w hw => ?_, fun w hw => ?_⟩
  · dsimp only
    rw [if_neg hacts, hsel, if_neg Bool.false_ne_true, if_neg fun hfull => hroom ((hasRoom_iff ..).mp hfull), hu]
  · exact hadv.advanced_of_mem ha
  · rw [State.SameWindow, hgrp]
    exact ⟨rfl, rfl⟩
  · exact (State.mem_advance _).trans (hturn.trans (hmem hm rfl))
  · exact (hwarp w).trans (hother w hw)
  · obtain ⟨els, hget, hlen, hscr⟩ := hmine w hw
    refine ⟨els, (hwarp w).trans hget, hlen, fun hm => ?_⟩
    rw [hscr hm rfl, hm]
    simp only [Group.genAddr_scratch]

end

/-! ### The return of an element (03 R66) -/

/-- An entry once the element of a lane has returned. -/
def QEntry.landLane (e : QEntry) (lane : Nat) : QEntry := { e with elems := (e.elems.zipIdx).map fun p => if p.2 = lane then p.1.land else p.1 }

theorem exec_queueElementReturn (grp wid q seq lane : Nat) (s : State) : exec (.queueElementReturn grp wid q seq lane) s =
    .next (s.modWarp grp wid fun w => w.modQueue q fun k =>
      Queue.retire { k with entries := k.entries.map fun e => if e.seq == seq then
        { e with elems := (e.elems.zipIdx).map fun p => if p.2 == lane then p.1.land else p.1 } else e } w.live) := rfl

/-- An entry that is not held has landed, and every live lane has passed it. -/
theorem QEntry.passed_of_not_held {e : QEntry} {q : Queue} {live : Lanes} (h : e.held q live = false) :
    e.complete = true ∧ ∀ l, l < 64 → live.getLsbD l = true → e.seq < q.head l := by
  simp only [QEntry.held, Bool.or_eq_false_iff, Bool.not_eq_eq_eq_not, Bool.not_false, List.any_eq_false, decide_eq_true_eq, mem_laneList] at h
  exact ⟨h.1, fun l hl hlive => not_le.mp (h.2 l ⟨hl, hlive⟩)⟩

theorem elementReturnResults (grp wid q seq lane : Nat) (s : State) : ∃ t, exec (.queueElementReturn grp wid q seq lane) s = .next t ∧ t.mem = s.mem ∧
    ∀ e ∈ ((s.warp grp wid).queue q).entries, e.seq = seq →
      (e.landLane lane ∈ ((t.warp grp wid).queue q).entries ∨
        ((e.landLane lane).complete = true ∧ ∀ l, l < 64 → (s.warp grp wid).live.getLsbD l = true → seq < ((s.warp grp wid).queue q).head l)) := by
  refine ⟨_, exec_queueElementReturn grp wid q seq lane s, rfl, fun e he hseq => ?_⟩
  rw [State.warp_modWarp, Warp.queue_modQueue, if_pos rfl]
  have hland : e.landLane lane ∈ ((s.warp grp wid).queue q).entries.map fun e => if e.seq == seq then
      { e with elems := (e.elems.zipIdx).map fun p => if p.2 == lane then p.1.land else p.1 } else e := by
    refine List.mem_map.mpr ⟨e, he, ?_⟩
    rw [if_pos (beq_iff_eq.mpr hseq)]
    simp only [QEntry.landLane, beq_iff_eq]
  cases hheld : (e.landLane lane).held ((s.warp grp wid).queue q) (s.warp grp wid).live with
  | true => exact .inl (List.mem_filter.mpr ⟨hland, hheld⟩)
  | false =>
    obtain ⟨hcomplete, hpassed⟩ := QEntry.passed_of_not_held hheld
    exact .inr ⟨hcomplete, fun l hl hlive => hseq ▸ hpassed l hl hlive⟩

end Sys2Proof.Machine
end

section
/-!
SUPPORT. The bytes that a plain store leaves in its L1 (spec/08_memory_model.md R197, R198, R222): write-backs leave the L1's bytes and home memory as
they were, a line given up loses its own, and the stored line holds the bytes stored.
-/

namespace Sys2Proof.Machine

/-! ### What leaves the bytes of an L1 -/

/-- Every line of an L1 holds the bytes it held, under its tag, and home memory is as it was. -/
def Mem.KeepsBytes (m : Mem) (core : Nat) (n : Mem) : Prop :=
  n.home = m.home ∧ ∃ g : Line → Line, (∀ x, (g x).tag = x.tag ∧ (g x).valid = x.valid ∧ (g x).data = x.data) ∧
    n.cache (.l1 core) = (m.cache (.l1 core)).map g

section
variable {m n k : Mem} {core : Nat}

theorem Mem.KeepsBytes.of_l1 (hh : n.home = m.home) (hl : n.l1 = m.l1) : m.KeepsBytes core n :=
  ⟨hh, id, fun _ => ⟨rfl, rfl, rfl⟩, by simp [Mem.cache, hl]⟩

theorem Mem.KeepsBytes.refl (m : Mem) (core : Nat) : m.KeepsBytes core m := .of_l1 rfl rfl

theorem Mem.KeepsBytes.trans (h : m.KeepsBytes core n) (h' : n.KeepsBytes core k) : m.KeepsBytes core k := by
  obtain ⟨hh, g, hg, hl⟩ := h
  obtain ⟨hh', g', hg', hl'⟩ := h'
  refine ⟨hh'.trans hh, g' ∘ g, fun x => ?_, by rw [hl', hl, List.map_map]⟩
  obtain ⟨ht, hv, hd⟩ := hg x
  obtain ⟨ht', hv', hd'⟩ := hg' (g x)
  exact ⟨ht'.trans ht, hv'.trans hv, hd'.trans hd⟩

theorem Mem.KeepsBytes.ite (b : Prop) [Decidable b] (h : m.KeepsBytes core n) (h' : m.KeepsBytes core k) :
    m.KeepsBytes core (if b then n else k) := by
  split
  · exact h
  · exact h'

theorem Mem.keepsBytes_setCC (m : Mem) (core clu : Nat) (l : List Line) : m.KeepsBytes core (m.setCache (.cc clu) l) := .of_l1 rfl rfl

theorem Mem.keepsBytes_putCC (m : Mem) (core clu : Nat) (x : Line) : m.KeepsBytes core (m.putLine (.cc clu) x) := by
  unfold Mem.putLine
  dsimp only
  split
  · exact m.keepsBytes_setCC core clu _
  · exact m.keepsBytes_setCC core clu _

theorem Mem.keepsBytes_cleanL1 (m : Mem) (core : Nat) (t : LineTag) : m.KeepsBytes core (m.cleanLine (.l1 core) t) := by
  refine ⟨rfl, fun x => if x.has t then { x with dirty := 0 } else x, fun x => ?_, Store.get_put_same _ _ _ _⟩
  beta_reduce
  split
  · exact ⟨rfl, rfl, rfl⟩
  · exact ⟨rfl, rfl, rfl⟩

theorem Mem.keepsBytes_sendCC (m : Mem) (core clu : Nat) (x : Line) : m.KeepsBytes core (m.sendCC clu x) := by
  unfold Mem.sendCC
  split
  · exact .refl m core
  · exact .of_l1 rfl rfl

theorem Mem.keepsBytes_roomCC (m : Mem) (core clu : Nat) (t : LineTag) : m.KeepsBytes core (m.roomCC clu t) := by
  unfold Mem.roomCC
  split
  · exact .refl m core
  · exact (m.keepsBytes_sendCC core clu _).trans (Mem.keepsBytes_setCC _ core clu _)

theorem Mem.keepsBytes_markShared (m : Mem) (core pline : Nat) : m.KeepsBytes core (m.markShared pline) := by
  refine ⟨rfl, fun x => if x.pline == pline then { x with shared := true } else x, fun x => ?_, ?_⟩
  · beta_reduce
    split
    · exact ⟨rfl, rfl, rfl⟩
    · exact ⟨rfl, rfl, rfl⟩
  · exact Store.get_map m.l1 (List.map _) [] core

theorem Mem.keepsBytes_served (m : Mem) (core : Nat) (t : LineTag) (pline : Nat) : m.KeepsBytes core (m.served t pline) := by
  have hfills (e) : m.KeepsBytes core { m with fills := e } := .of_l1 rfl rfl
  unfold Mem.served
  dsimp only
  split
  · exact .refl m core
  · split
    · exact (hfills _).trans (Mem.keepsBytes_markShared _ core pline)
    · exact hfills _

theorem Mem.keepsBytes_tick (m : Mem) (core : Nat) : m.KeepsBytes core m.tick := .of_l1 rfl rfl

theorem Mem.keepsBytes_storeCC (m : Mem) (core clu : Nat) (t : LineTag) (pline : Nat) (mask : BitVec 128) (data : BitVec 1024) (p : BitVec 4) :
    m.KeepsBytes core (m.storeCC clu t pline mask data p) := by
  have hput {u : Mem} (hu : m.KeepsBytes core u) (F : Mem → Line) :
      m.KeepsBytes core ((((u.roomCC clu t).served t pline).tick).putLine (.cc clu) (F (((u.roomCC clu t).served t pline).tick))) :=
    (((hu.trans (u.keepsBytes_roomCC core clu t)).trans (Mem.keepsBytes_served _ core t pline)).trans (Mem.keepsBytes_tick _ core)).trans
      (Mem.keepsBytes_putCC _ core clu _)
  have hsent : m.KeepsBytes core (match m.oldest (.cc clu) with | some l => m.sendCC clu l | none => m) := by
    cases m.oldest (.cc clu) with
    | none => exact .refl m core
    | some l => exact m.keepsBytes_sendCC core clu l
  exact hput (.ite _ hsent (.refl m core)) fun k => let x := (k.lineOr (.cc clu) t pline).store mask data k.stamp; { x with poison := x.poison ||| p }

theorem Mem.keepsBytes_backL1 (m : Mem) (core clu : Nat) (x : Line) : m.KeepsBytes core (m.backL1 core clu x) := by
  unfold Mem.backL1
  dsimp only
  split
  · exact .refl m core
  · exact (m.keepsBytes_cleanL1 core _).trans (Mem.keepsBytes_storeCC _ core clu _ _ _ _ _)

end

/-! ### Lines and bytes by tag -/

theorem Line.has_iff (x : Line) (t : LineTag) : x.has t = true ↔ x.tag = t := by
  obtain ⟨p, a, v⟩ := t
  simp [Line.has, Line.tag, and_assoc]

/-- Byte i of a line, where it is valid. -/
def Line.byteAt (x : Line) (i : Nat) : Option W8 := if x.valid.getLsbD i then some (x.data.extractLsb' (8 * i) 8) else none

theorem Mem.cacheByte_eq (m : Mem) (id : CacheId) (t : LineTag) (i : Nat) : m.cacheByte id t i = (m.line id t).bind (·.byteAt i) := by
  unfold Mem.cacheByte
  cases m.line id t <;> rfl

section
variable {m n : Mem} {core : Nat}

theorem Mem.KeepsBytes.line (h : m.KeepsBytes core n) (t : LineTag) :
    ∃ g : Line → Line, (∀ x i, (g x).byteAt i = x.byteAt i) ∧ n.line (.l1 core) t = (m.line (.l1 core) t).map g := by
  obtain ⟨-, g, hg, hl⟩ := h
  refine ⟨g, fun x i => ?_, ?_⟩
  · obtain ⟨-, hv, hd⟩ := hg x
    rw [Line.byteAt, hv, hd, Line.byteAt]
  · have hhas : (fun x : Line => x.has t) ∘ g = fun x => x.has t := by
      funext x
      rw [Function.comp_apply, Bool.eq_iff_iff, Line.has_iff, Line.has_iff, (hg x).1]
    rw [Mem.line, hl, List.find?_map, hhas, Mem.line]

theorem Mem.KeepsBytes.cacheByte (h : m.KeepsBytes core n) (t : LineTag) (i : Nat) :
    n.cacheByte (.l1 core) t i = m.cacheByte (.l1 core) t i := by
  obtain ⟨g, hg, hl⟩ := h.line t
  rw [Mem.cacheByte_eq, Mem.cacheByte_eq, hl]
  cases m.line (.l1 core) t with
  | none => rfl
  | some x => exact hg x i

theorem Mem.KeepsBytes.isSome_line (h : m.KeepsBytes core n) (t : LineTag) : (n.line (.l1 core) t).isSome = (m.line (.l1 core) t).isSome := by
  obtain ⟨g, -, hl⟩ := h.line t
  rw [hl, Option.isSome_map]

theorem Mem.KeepsBytes.length (h : m.KeepsBytes core n) : (n.cache (.l1 core)).length = (m.cache (.l1 core)).length := by
  obtain ⟨-, g, -, hl⟩ := h
  rw [hl, List.length_map]

theorem Mem.line_dropLine (m : Mem) (core : Nat) (t u : LineTag) :
    (m.dropLine (.l1 core) t).line (.l1 core) u = if u = t then none else m.line (.l1 core) u := by
  have hcache : (m.dropLine (.l1 core) t).cache (.l1 core) = (m.cache (.l1 core)).filter fun x => !x.has t := Store.get_put_same _ _ _ _
  rw [Mem.line, hcache]
  split
  · next h =>
    subst h
    rw [List.find?_eq_none]
    intro x hx
    obtain ⟨-, hx⟩ := List.mem_filter.mp hx
    simpa using hx
  · next h =>
    rw [List.find?_filter, Mem.line]
    congr 1
    funext x
    by_cases hx : x.has u = true
    · have hxt : x.has t = false := by
        rw [← Bool.not_eq_true, Line.has_iff, (Line.has_iff x u).mp hx]
        exact h
      simp [hx, hxt]
    · simp [hx]

theorem Mem.line_putLine (m : Mem) (core : Nat) (x : Line) (u : LineTag) :
    (m.putLine (.l1 core) x).line (.l1 core) u = if u = x.tag then some x else m.line (.l1 core) u := by
  have hself : x.has x.tag = true := (Line.has_iff ..).mpr rfl
  have hset (l : List Line) : (m.setCache (.l1 core) l).cache (.l1 core) = l := Store.get_put_same _ _ _ _
  have hput : m.putLine (.l1 core) x = if (m.cache (.l1 core)).any (·.has x.tag) then
      m.setCache (.l1 core) ((m.cache (.l1 core)).map fun y => if y.has x.tag then x else y)
      else m.setCache (.l1 core) (m.cache (.l1 core) ++ [x]) := rfl
  rw [hput]
  split
  · next hany =>
    have hhas : (fun y : Line => y.has u) ∘ (fun y => if y.has x.tag then x else y) = fun y => y.has u := by
      funext y
      rw [Function.comp_apply]
      split
      · next hy => rw [Bool.eq_iff_iff, Line.has_iff, Line.has_iff, (Line.has_iff ..).mp hy]
      · rfl
    rw [Mem.line, hset, List.find?_map, hhas]
    change (m.line (.l1 core) u).map _ = _
    cases hl : m.line (.l1 core) u with
    | none =>
      refine (if_neg fun hu => ?_).symm
      subst hu
      obtain ⟨y, hy, hyx⟩ := List.any_eq_true.mp hany
      exact List.find?_eq_none.mp hl y hy hyx
    | some y =>
      have hfound := List.find?_some hl
      have hy : y.tag = u := (Line.has_iff ..).mp hfound
      rw [Option.map_some, ← apply_ite some]
      congr 1
      simp only [Line.has_iff, hy]
  · next hany =>
    rw [Mem.line, hset, List.find?_append]
    change (m.line (.l1 core) u).or _ = _
    by_cases hu : u = x.tag
    · have hnone : m.line (.l1 core) u = none := by
        rw [hu, Mem.line, List.find?_eq_none]
        exact fun y hy hyx => hany (List.any_eq_true.mpr ⟨y, hy, hyx⟩)
      rw [if_pos hu, hnone, hu, Option.none_or]
      simp [hself]
    · have hx : ¬ x.has u = true := fun h => hu ((Line.has_iff ..).mp h).symm
      rw [if_neg hu]
      simp [hx]

/-! ### Room for a line -/

theorem Mem.victim_eq_none (h : (m.cache (.l1 core)).length < 2048) (t : LineTag) : m.victim (.l1 core) t = none := by
  have hroom : decide ((m.cache (.l1 core)).length < (CacheId.l1 core).lines) = true := decide_eq_true h
  unfold Mem.victim
  dsimp only
  rw [hroom, Bool.or_true, if_pos rfl]

/-- What making room leaves: a line's bytes are as they were, or gone with the line given up. -/
theorem Mem.roomL1_bytes (m : Mem) (core clu : Nat) (t : LineTag) :
    m.KeepsBytes core (m.roomL1 core clu t) ∨
      (m.roomL1 core clu t).home = m.home ∧ 2048 ≤ (m.cache (.l1 core)).length ∧
      ∀ u i, (m.roomL1 core clu t).cacheByte (.l1 core) u i = m.cacheByte (.l1 core) u i ∨ (m.roomL1 core clu t).cacheByte (.l1 core) u i = none := by
  unfold Mem.roomL1
  cases hv : m.victim (.l1 core) t with
  | none => exact .inl (.refl m core)
  | some x =>
    have hback := m.keepsBytes_backL1 core clu x
    have hfull : 2048 ≤ (m.cache (.l1 core)).length := by
      by_contra hroom
      rw [Mem.victim_eq_none (not_le.mp hroom)] at hv
      cases hv
    have hbyte (u : LineTag) (i : Nat) : ((m.backL1 core clu x).dropLine (.l1 core) x.tag).cacheByte (.l1 core) u i =
        if u = x.tag then none else m.cacheByte (.l1 core) u i := by
      rw [Mem.cacheByte_eq, Mem.line_dropLine]
      split
      · rfl
      · rw [← Mem.cacheByte_eq, hback.cacheByte]
    refine .inr ⟨hback.1, hfull, fun u i => ?_⟩
    rw [hbyte]
    split
    · exact .inr rfl
    · exact .inl rfl

/-! ### The stored line -/

theorem getLsbD_bitMask (k : BitVec 128) {j : Nat} (hj : j < 1024) : (bitMask k).getLsbD j = k.getLsbD (j / 8) := by
  have hbyte (i : Nat) : (0xFF#1024 <<< (8 * i)).getLsbD j = decide (i = j / 8) := by
    have hff (b : Nat) : (0xFF#1024).getLsbD b = decide (b < 8) := by
      rw [BitVec.getLsbD_ofNat, show (0xFF : Nat) = 2 ^ 8 - 1 from rfl, Nat.testBit_two_pow_sub_one, Bool.eq_iff_iff]
      simp only [Bool.and_eq_true, decide_eq_true_eq]
      omega
    rw [BitVec.getLsbD_shiftLeft, hff, Bool.eq_iff_iff]
    simp only [Bool.and_eq_true, decide_eq_true_eq, Bool.not_eq_true', decide_eq_false_iff_not]
    omega
  have hzero : (0 : BitVec 1024).getLsbD j = false := BitVec.getLsbD_zero
  rw [bitMask, getLsbD_foldl_or, hzero, Bool.false_or, Bool.eq_iff_iff, List.any_eq_true]
  simp only [hbyte, Bool.and_eq_true, decide_eq_true_eq, List.mem_range]
  constructor
  · rintro ⟨i, -, hk, rfl⟩
    exact hk
  · exact fun hk => ⟨j / 8, by omega, hk, rfl⟩

theorem extractLsb'_mergeData (old new : BitVec 1024) (k : BitVec 128) {i : Nat} (hi : i < 128) :
    (mergeData old new k).extractLsb' (8 * i) 8 = if k.getLsbD i then new.extractLsb' (8 * i) 8 else old.extractLsb' (8 * i) 8 := by
  refine BitVec.eq_of_getLsbD_eq fun b hb => ?_
  have hlt : 8 * i + b < 1024 := by omega
  have hdiv : (8 * i + b) / 8 = i := by omega
  rw [BitVec.getLsbD_extractLsb', mergeData, BitVec.getLsbD_or, BitVec.getLsbD_and, BitVec.getLsbD_and, BitVec.getLsbD_not,
    getLsbD_bitMask k hlt, hdiv, decide_eq_true hlt, decide_eq_true hb]
  cases k.getLsbD i <;> simp [hb]

theorem Line.byteAt_store (x : Line) (k : BitVec 128) (data : BitVec 1024) (stamp : Nat) {i : Nat} (hi : i < 128) :
    (x.store k data stamp).byteAt i = if k.getLsbD i then some (data.extractLsb' (8 * i) 8) else x.byteAt i := by
  have hdata : (x.store k data stamp).data.extractLsb' (8 * i) 8 = _ := extractLsb'_mergeData x.data data k hi
  have hvalid : (x.store k data stamp).valid.getLsbD i = (x.valid.getLsbD i || k.getLsbD i) := BitVec.getLsbD_or
  rw [Line.byteAt, hdata, hvalid, Line.byteAt]
  cases k.getLsbD i <;> simp

theorem Mem.byteAt_lineOr (m : Mem) (id : CacheId) (t : LineTag) (pline i : Nat) : (m.lineOr id t pline).byteAt i = m.cacheByte id t i := by
  rw [Mem.cacheByte_eq, Mem.lineOr]
  cases m.line id t with
  | none => simp [Line.byteAt, newLine]
  | some x => rfl

/-- The bytes of an L1 after a line of it has been stored to. -/
theorem Mem.cacheByte_put_store (m : Mem) (core : Nat) (t : LineTag) (pline : Nat) (k : BitVec 128) (data : BitVec 1024) (stamp : Nat) (u : LineTag)
    {i : Nat} (hi : i < 128) : (m.putLine (.l1 core) ((m.lineOr (.l1 core) t pline).store k data stamp)).cacheByte (.l1 core) u i =
      if u = t ∧ k.getLsbD i = true then some (data.extractLsb' (8 * i) 8) else m.cacheByte (.l1 core) u i := by
  have htag : ((m.lineOr (.l1 core) t pline).store k data stamp).tag = t := m.tag_lineOr _ t pline
  rw [Mem.cacheByte_eq, Mem.line_putLine, htag]
  by_cases hu : u = t
  · subst hu
    rw [if_pos rfl, Option.bind_some, Line.byteAt_store _ _ _ _ hi, Mem.byteAt_lineOr]
    simp only [true_and]
  · rw [if_neg hu, if_neg fun h => hu h.1, ← Mem.cacheByte_eq]

theorem Mem.home_putLine (m : Mem) (core : Nat) (x : Line) : (m.putLine (.l1 core) x).home = m.home := by
  unfold Mem.putLine
  dsimp only
  split <;> rfl

/-- What a store into an L1 leaves: home memory as it was, the bytes under the mask, and every other byte but for those of lines given up, of
which there are none while the L1 has room. -/
theorem Mem.storeL1_bytes (m : Mem) (core clu : Nat) (t : LineTag) (pline : Nat) (k : BitVec 128) (data : BitVec 1024) :
    (m.storeL1 core clu t pline k data).home = m.home ∧ ∀ u i, i < 128 →
      let after := if u = t ∧ k.getLsbD i = true then some (data.extractLsb' (8 * i) 8) else m.cacheByte (.l1 core) u i
      let byte := (m.storeL1 core clu t pline k data).cacheByte (.l1 core) u i
      (byte = after ∨ byte = none) ∧ ((m.cache (.l1 core)).length < 2048 → byte = after) := by
  have hput {v : Mem} (hv : m.KeepsBytes core v) (F : Mem → Nat) :
      let w := ((v.roomL1 core clu t).served t pline).tick
      let r := w.putLine (.l1 core) ((w.lineOr (.l1 core) t pline).store k data (F w))
      r.home = m.home ∧ ∀ u i, i < 128 →
        let after := if u = t ∧ k.getLsbD i = true then some (data.extractLsb' (8 * i) 8) else m.cacheByte (.l1 core) u i
        (r.cacheByte (.l1 core) u i = after ∨ r.cacheByte (.l1 core) u i = none) ∧
          ((m.cache (.l1 core)).length < 2048 → r.cacheByte (.l1 core) u i = after) := by
    intro w r
    have hw : (v.roomL1 core clu t).KeepsBytes core w := (Mem.keepsBytes_served _ core t pline).trans (Mem.keepsBytes_tick _ core)
    have hbyte (u : LineTag) {i : Nat} (hi : i < 128) : r.cacheByte (.l1 core) u i =
        if u = t ∧ k.getLsbD i = true then some (data.extractLsb' (8 * i) 8) else (v.roomL1 core clu t).cacheByte (.l1 core) u i := by
      rw [← hw.cacheByte]
      exact w.cacheByte_put_store core t pline k data _ u hi
    rcases v.roomL1_bytes core clu t with hroom | ⟨hhome, hfull, hgone⟩
    · have hall := hv.trans hroom
      refine ⟨(w.home_putLine core _).trans (hw.1.trans hall.1), fun u i hi => ?_⟩
      rw [hbyte u hi, hall.cacheByte]
      exact ⟨.inl rfl, fun _ => rfl⟩
    · refine ⟨(w.home_putLine core _).trans (hw.1.trans (hhome.trans hv.1)), fun u i hi => ⟨?_, fun hlen => ?_⟩⟩
      · rw [hbyte u hi]
        by_cases hst : u = t ∧ k.getLsbD i = true
        · exact .inl (by rw [if_pos hst, if_pos hst])
        · rw [if_neg hst, if_neg hst, ← hv.cacheByte]
          exact hgone u i
      · rw [hv.length] at hfull
        exact absurd hlen (not_lt.mpr hfull)
  have hback : m.KeepsBytes core (match m.oldest (.l1 core) with | some l => m.backL1 core clu l | none => m) := by
    cases m.oldest (.l1 core) with
    | none => exact .refl m core
    | some l => exact m.keepsBytes_backL1 core clu l
  exact hput (.ite _ hback (.refl m core)) fun w => w.stamp

/-! ### Bytes stored at a place -/

theorem getLsbD_byteMask (off n : Nat) {i : Nat} (hi : i < 128) : (byteMask off n).getLsbD i = decide (off ≤ i ∧ i < off + n) := by
  rw [byteMask, BitVec.getLsbD_shiftLeft, BitVec.getLsbD_ofNat, Nat.testBit_two_pow_sub_one, Bool.eq_iff_iff]
  simp only [Bool.and_eq_true, decide_eq_true_eq, Bool.not_eq_true', decide_eq_false_iff_not]
  omega

/-- A byte of a value shifted to its place in a line. -/
theorem extractLsb'_shifted (v n off : Nat) {i : Nat} (hi : i < 128) (hlo : off ≤ i) (hhi : i < off + n) :
    (BitVec.ofNat 1024 (v % 2 ^ (8 * n)) <<< (8 * off)).extractLsb' (8 * i) 8 = byteOf v (i - off) := by
  refine BitVec.eq_of_getLsbD_eq fun b hb => ?_
  have hpow : 256 ^ (i - off) = 2 ^ (8 * (i - off)) := by rw [show 256 = 2 ^ 8 from rfl, ← Nat.pow_mul]
  have hpos : 8 * i + b - 8 * off = 8 * (i - off) + b := by omega
  rw [BitVec.getLsbD_extractLsb', BitVec.getLsbD_shiftLeft, BitVec.getLsbD_ofNat, byteOf, BitVec.getLsbD_ofNat, hpow, Nat.testBit_div_two_pow,
    Nat.testBit_mod_two_pow, hpos, Nat.add_comm b]
  simp only [hb, show 8 * i + b < 1024 by omega, show ¬ 8 * i + b < 8 * off by omega, show 8 * (i - off) + b < 1024 by omega,
    show 8 * (i - off) + b < 8 * n by omega, decide_true, decide_false, Bool.not_false, Bool.true_and]

/-- What a plain store leaves in its agent's L1, and of home memory. -/
theorem Mem.writeAt_zero_bytes (m : Mem) {a : Agent} {core clu : Nat} (ha : a.path = some (core, clu)) (l : Loc) (n v : Nat) :
    (m.writeAt a l n v 0).home = m.home ∧ ∀ u i, i < 128 →
      let after := storedInLine a n v l u i (m.cacheByte (.l1 core) u i)
      let byte := (m.writeAt a l n v 0).cacheByte (.l1 core) u i
      (byte = after ∨ byte = none) ∧ ((m.cache (.l1 core)).length < 2048 → byte = after) := by
  have hwrite : m.writeAt a l n v 0 = m.storeL1 core clu (a.tag l) (l.phys / 128) (byteMask (l.va % 128) n)
      (BitVec.ofNat 1024 (v % 2 ^ (8 * n)) <<< (8 * (l.va % 128))) := by
    simp only [Mem.writeAt, Mem.push_zero, ha]
  rw [hwrite]
  obtain ⟨hhome, hbytes⟩ := m.storeL1_bytes core clu (a.tag l) (l.phys / 128) (byteMask (l.va % 128) n)
    (BitVec.ofNat 1024 (v % 2 ^ (8 * n)) <<< (8 * (l.va % 128)))
  refine ⟨hhome, fun u i hi => ?_⟩
  have hafter : storedInLine a n v l u i (m.cacheByte (.l1 core) u i) =
      if u = a.tag l ∧ (byteMask (l.va % 128) n).getLsbD i = true then
        some ((BitVec.ofNat 1024 (v % 2 ^ (8 * n)) <<< (8 * (l.va % 128))).extractLsb' (8 * i) 8) else m.cacheByte (.l1 core) u i := by
    rw [storedInLine]
    refine ite_congr (propext ?_) (fun h => ?_) fun _ => rfl
    · rw [getLsbD_byteMask _ _ hi, decide_eq_true_iff, eq_comm]
    · obtain ⟨-, hmask⟩ := h
      rw [getLsbD_byteMask _ _ hi, decide_eq_true_iff] at hmask
      rw [extractLsb'_shifted v n _ hi hmask.1 hmask.2]
  dsimp only
  rw [hafter]
  exact hbytes u i hi

end

end Sys2Proof.Machine
end

section
/-!
SUPPORT. `astore` (spec/09_isa_memory_engines.md R253, R255): the store of one value at a place that passes its checks, in the window and in the global
space.
-/

namespace Sys2Proof.Machine

/-! ### Accesses that pass their checks -/

/-- A memory form whose accesses pass goes on with their places. -/
theorem State.memForm_of_pass (s : State) (f : Full) (sp : Space) (n : Nat) (need : Need) (ea : Nat → Int) (lvl : Nat → Nat)
    (k : List (Nat × Spot) → State → State) (h : s.accessesPass f sp n need ea lvl = true) :
    s.memForm f sp n need ea lvl false k = k (s.places f sp n need ea lvl) (s.accessChecks f sp n need ea lvl).2 := by
  have hnone : failing (s.accessChecks f sp n need ea lvl).1 = [] := List.isEmpty_iff.mp h
  unfold State.places
  rw [State.accessChecks] at hnone ⊢
  unfold State.memForm
  dsimp only
  rw [hnone]
  exact congrArg (k · _) (congrArg (List.filterMap _) (List.append_nil _))

theorem State.SameButTlb.eq {s t : State} (h : s.SameButTlb t) : ∃ l, t = { s with mem := { s.mem with tlb := l } } :=
  ⟨t.mem.tlb, by rw [← h]⟩

theorem State.globalLoc_sameButTlb {s t : State} {a : Agent} {va : W64} {size lvl : Nat} {n : Need} {l : Loc}
    (h : s.globalLoc a va size lvl n = .ok (l, t)) : s.SameButTlb t := by
  by_cases hc : canonical va = true
  · by_cases ha : va.toNat % size = 0
    · obtain ⟨l', t', hr, -, htlb⟩ | ⟨f, hr, -⟩ := s.globalLoc_outcome a lvl n hc ha
      · rw [hr] at h
        cases h
        exact htlb
      · rw [hr] at h
        cases h
    · simp [State.globalLoc, hc, ha] at h
  · simp [State.globalLoc, hc] at h

/-- A scratchpad access that passes lands at its address, and changes nothing. -/
theorem State.spot_ok_scratch {s t : State} {g : Nat} {a : Agent} {x : Access} {p : Spot} (hx : x.space = .s) (h : s.spot g a x = .ok (p, t)) :
    p = .s x.ea.toNat ∧ t = s := by
  rw [State.spot_scratch _ _ _ hx] at h
  split at h
  · cases h
  · cases h
    exact ⟨rfl, rfl⟩

/-- A global access that passes changes cached translations alone. -/
theorem State.spot_ok_global {s t : State} {g : Nat} {a : Agent} {x : Access} {p : Spot} (hx : x.space = .g) (h : s.spot g a x = .ok (p, t)) :
    (∃ l, p = .g l) ∧ ∃ k, t = { s with mem := { s.mem with tlb := k } } := by
  rw [State.spot_eq_of_g hx] at h
  split at h
  · cases h
  · next l u hloc =>
    obtain ⟨hp, ht⟩ := Prod.mk.inj (eq_of_checked h)
    subst hp ht
    exact ⟨⟨l, rfl⟩, (State.globalLoc_sameButTlb hloc).eq⟩

/-- The A-stream accesses at most one place. -/
theorem State.laneList_gLive_a {s : State} (hl : s.cur.lanes = 1) (f : Full) : laneList (s.gLive f) = [] ∨ laneList (s.gLive f) = [0] := by
  have hzero : ∀ l ∈ laneList (s.gLive f), l = 0 := by
    intro l hmem
    obtain ⟨hlt, hbit⟩ := (mem_laneList ..).mp hmem
    have hcur : s.cur.lanes.getLsbD l = true := by
      rw [State.gLive, BitVec.getLsbD_and, Bool.and_eq_true, State.getLsbD_gLanes, Bool.and_eq_true] at hbit
      exact hbit.1.1
    have hone : (1 : Lanes).getLsbD l = decide (0 = l) := getLsbD_laneBit (n := 0) hlt
    rw [hl, hone, decide_eq_true_iff] at hcur
    exact hcur.symm
  have hnodup := laneList_nodup (s.gLive f)
  cases hlist : laneList (s.gLive f) with
  | nil => exact .inl rfl
  | cons l r =>
    rw [hlist] at hzero hnodup
    cases r with
    | nil => exact .inr (by rw [hzero l List.mem_cons_self])
    | cons k r =>
      have hlk : l = k := (hzero l List.mem_cons_self).trans (hzero k (List.mem_cons_of_mem _ List.mem_cons_self)).symm
      exact absurd (hlk ▸ List.mem_cons_self) (List.nodup_cons.mp hnodup).1

section
variable {s : State} {f : Full} {sp : Space} {n : Nat} {need : Need} {ea : Nat → Int} {lvl : Nat → Nat}

/-- The checks of one lane. -/
theorem State.accessChecks_singleton (h : laneList (s.gLive f) = [0]) (hpass : s.accessesPass f sp n need ea lvl = true) :
    ∃ p t, s.spot s.cur.grp s.agent ⟨sp, ea 0, n, need, lvl 0⟩ = .ok (p, t) ∧ s.places f sp n need ea lvl = [(0, p)] ∧
      (s.accessChecks f sp n need ea lvl).2 = t := by
  have hchecks : s.accessChecks f sp n need ea lvl = (match s.spot s.cur.grp s.agent ⟨sp, ea 0, n, need, lvl 0⟩ with
      | .ok (p, t) => ([(0, .ok p)], t)
      | .error c => ([(0, .error c)], s)) := by
    rw [State.accessChecks, h]
    rfl
  rw [State.accessesPass, hchecks] at hpass
  unfold State.places
  rw [hchecks]
  cases hspot : s.spot s.cur.grp s.agent ⟨sp, ea 0, n, need, lvl 0⟩ with
  | error c => rw [hspot] at hpass; cases hpass
  | ok q => exact ⟨q.1, q.2, rfl, rfl, rfl⟩

theorem State.accessChecks_nil (h : laneList (s.gLive f) = []) :
    s.places f sp n need ea lvl = [] ∧ (s.accessChecks f sp n need ea lvl).2 = s := by
  unfold State.places
  rw [State.accessChecks, h]
  exact ⟨rfl, rfl⟩

end

/-! ### The store at a place -/

theorem Mem.owes_of_unlocked {m : Mem} (h : m.locks = []) (cs : List Nat) (c : Option Nat) : m.owes cs c = false := by
  have hheld (w : WriteBack) : m.heldBytes w = 0 := by
    simp [Mem.heldBytes, Mem.locked, h]
  simp [Mem.owes, hheld]

theorem Mem.locks_sysRelease (m : Mem) (a : Agent) : (m.sysRelease a).locks = m.locks := congrArg Prod.fst (m.control_sysRelease a)

theorem State.releaseRank_plain (s : State) (lane : Nat) {m : MemMod} (h : m.scope = .plain) : s.releaseRank lane m = none := by
  simp [State.releaseRank, h]

theorem State.writeLevel_plain (s : State) (lane : Nat) {m : MemMod} (h : m.scope = .plain) : s.writeLevel lane m = 0 := by
  rw [State.writeLevel, s.releaseRank_plain lane h, h]
  rfl

/-- What precedes a store at a place in the global space: where it is a release to other devices, the write-backs of its agent's caches, for which
it is held up. -/
theorem State.before_global (s : State) (a : Agent) (l : Loc) (n : Nat) {m : MemMod} (hs : m.scope ≠ .rem) (rel : Option Nat) : ∃ k b,
    s.before a (.g l) n m rel = ({ s with mem := k } : State).stickIf b ∧ (s.mem.locks = [] → b = false) ∧
      (rel = none → b = false ∧ k = s.mem) := by
  have hbefore : s.before a (.g l) n m rel = if rel == some 4 then
      ({ s with mem := s.mem.sysRelease a } : State).stickIf ((s.mem.sysRelease a).owes (a.path.toList.map Prod.snd) none) else s := by
    simp [State.before, hs]
  rw [hbefore]
  by_cases hrel : rel = some 4
  · subst hrel
    refine ⟨_, _, rfl, fun hlocks => ?_, nofun⟩
    exact Mem.owes_of_unlocked ((s.mem.locks_sysRelease a).trans hlocks) _ _
  · exact ⟨s.mem, false, by rw [if_neg (by simpa using hrel)]; rfl, fun _ => rfl, fun _ => ⟨rfl, rfl⟩⟩

/-- A store at a place in the global space changes memory alone. It is held up only for a release to other devices, by a lock. -/
theorem State.storeAt_global (s : State) (g lane : Nat) (a : Agent) (l : Loc) (n v : Nat) {m : MemMod} (hs : m.scope ≠ .rem) : ∃ k b,
    s.storeAt g lane a (.g l) n v m = ({ s with mem := k } : State).stickIf b ∧ (s.mem.locks = [] → b = false) ∧
      (m.scope = .plain → b = false ∧ k = s.mem.writeAt a l n v 0) := by
  obtain ⟨k, b, hbefore, hfree, hnone⟩ := s.before_global a l n hs (s.releaseRank lane m)
  have hstore : s.storeAt g lane a (.g l) n v m = (((s.before a (.g l) n m (s.releaseRank lane m)).writeSpot g a (.g l) n v
      (s.writeLevel lane m)).afterWrite a (.g l) n m (s.writeLevel lane m) (s.releaseRank lane m) false) := rfl
  rw [hbefore] at hstore
  by_cases hp : m.scope = .plain
  · obtain ⟨rfl, rfl⟩ := hnone (s.releaseRank_plain lane hp)
    refine ⟨s.mem.writeAt a l n v 0, false, ?_, fun _ => rfl, fun _ => ⟨rfl, rfl⟩⟩
    rw [hstore, s.writeLevel_plain lane hp]
    exact if_pos hp
  · refine ⟨(k.writeAt a l n v (s.writeLevel lane m)).noteWrite a l.phys n (s.writeLevel lane m) (s.releaseRank lane m) false, b, ?_, hfree,
      fun h => absurd h hp⟩
    rw [hstore]
    cases b with
    | false => exact if_neg hp
    | true => exact if_neg hp

/-! ### What a store leaves of the machine -/

/-- But for memory and the window nothing has changed except where the A-stream stands. -/
theorem State.Became.keptButMemory {s t : State} {b : Store W8} {q : Store Bool} {pc : W64} {w : Wait} {bp : Nat}
    (h : s.Became { t with mem := s.mem } { s.curGroup with scratch := b, spoison := q, astr := s.curGroup.astr.standAt pc w bp })
    (ha : s.cur.strm = .a) : s.KeptButMemory t := by
  have hundone : s.Became (s.memoryUndone t) { s.curGroup with
      warps := Store.put s.curGroup.warps Warp.blank s.cur.wid s.curWarp, astr := s.curGroup.astr.standAt pc w bp } :=
    (h.modGroup (·.modWarp s.cur.wid fun y => { y with pend := s.curWarp.pend, acqs := s.curWarp.acqs, relScope := s.curWarp.relScope })).modGroup
      fun x => { x with scratch := s.curGroup.scratch, spoison := s.curGroup.spoison }
  refine hundone.kept_of_warps ha fun v => ?_
  rw [Store.get_put]
  split
  · next hv => rw [hv]; rfl
  · rfl

/-- A form that has to wait for write-backs has had no effect. -/
theorem exec_of_stuck {s : State} {i : Instr} {f : Full} {body : State → State} (hx : exec i s = s.issue i f body) (h : s.executes i f = true)
    (hb : (body s).cur.stuck = true) : s.WaitsForBacks i := by
  obtain ⟨-, ⟨hvalid, -⟩, htrap, hgate⟩ := (State.executes_iff s i f).mp h
  rw [State.WaitsForBacks, hx]
  unfold State.issue
  rw [hvalid, htrap]
  simp only [Bool.not_true, Bool.false_eq_true, if_false]
  have hqs : (if s.cur.strm = .e then queuesOf f (shapeOf i) else []) = s.queuesRead i f := rfl
  rw [hqs]
  cases hq : s.queueGate (s.gLive f) (s.queuesRead i f) with
  | go => simp only [hb, if_true]
  | stop t => rw [hq] at hgate; exact absurd hgate (by simp [QueueGate.isGo])

/-- The address of an element, as the model computes it (09 R254). -/
theorem Group.genAddr_eq (s : State) (k : Nat) (sp : Space) (size : Nat) (off : BitVec 10) (p w : Nat) :
    s.curGroup.genAddr k sp size off p w = s.elementAddress k (sp == .g) size off p w := by
  cases sp with
  | g =>
    have hmod (e : Int) : ((BitVec.ofInt 64 e).toNat : Int) = e % 2 ^ 64 := by
      rw [BitVec.toNat_ofInt]
      exact Int.toNat_of_nonneg (Int.emod_nonneg _ (by decide))
    simp only [Group.genAddr, State.elementAddress, Group.index4, beq_self_eq_true, if_true, hmod]
    congr 1
    ring
  | s => exact Group.genAddr_scratch s k size off p w
  | k => exact Group.genAddr_scratch s k size off p w

/-! ### `astore` -/

/-- What an `astore` of data at an address leaves (09 R255). -/
def State.Astored (s : State) (f : Full) (n : Nat) (ea : Nat → Int) (lvl : Nat → Nat) (data : Nat → Nat) (m : MemMod) (t : State) : Prop :=
  s.KeptButMemory t ∧ s.Advanced t ∧
    (m.space = .s → t.mem = s.mem ∧ ∀ a, Store.get (t.group s.cur.grp).scratch 0 a =
      stored n ea data (laneList (s.gLive f)) a (Store.get s.curGroup.scratch 0 a)) ∧
    (m.space = .g → s.SameWindow t ∧ (m.scope = .plain → t.mem.home = s.mem.home ∧
      ∀ tag i, i < 128 →
        let after := (s.places f .g n .store ea lvl).foldl (fun b p => match p.2 with
          | .g loc => storedInLine s.agent n (data p.1) loc tag i b
          | _ => b) (s.mem.cacheByte (.l1 s.curGroup.pcore) tag i)
        let byte := t.mem.cacheByte (.l1 s.curGroup.pcore) tag i
        (byte = after ∨ byte = none) ∧ (s.mem.roomy (.l1 s.curGroup.pcore) 64 = true → byte = after)))

section
variable {s : State} {f : Full} {n : Nat} {ea : Nat → Int} {lvl : Nat → Nat} {data : Nat → Nat} {m : MemMod} (ha : s.cur.strm = .a)
include ha

/-- With no lane to store for, the next slot follows. -/
theorem State.astored_nil (h : laneList (s.gLive f) = []) : s.Astored f n ea lvl data m s.advance := by
  have hb := (State.Became.refl s).advance ha
  refine ⟨((State.Became.refl s).advance_of_mem ha).keptButMemory ha, hb.advanced ha, fun _ => ⟨s.mem_advance, fun a => ?_⟩, fun _ => ⟨?_, fun _ => ⟨?_, fun tag i _ => ?_⟩⟩⟩
  · rw [hb.2, h]; rfl
  · rw [State.SameWindow, hb.2]; exact ⟨rfl, rfl⟩
  · rw [s.mem_advance]
  · rw [(State.accessChecks_nil h).1, s.mem_advance]
    exact ⟨.inl rfl, fun _ => rfl⟩

/-- A store in the window. -/
theorem State.astored_window (h : laneList (s.gLive f) = [0]) (hm : m.space = .s) :
    s.Astored f n ea lvl data m (s.modGroup s.cur.grp (·.scratchWrite (ea 0).toNat (bytesOf n (data 0)))).advance := by
  have hb := ((State.Became.refl s).modGroup (·.scratchWrite (ea 0).toNat (bytesOf n (data 0)))).advance ha
  have hw : s.Became { s.modGroup s.cur.grp (·.scratchWrite (ea 0).toNat (bytesOf n (data 0))) with mem := s.mem } _ :=
    (State.Became.refl s).modGroup (·.scratchWrite (ea 0).toNat (bytesOf n (data 0)))
  refine ⟨(hw.advance_of_mem ha).keptButMemory ha, hb.advanced ha, fun _ => ⟨State.mem_advance _, fun a => ?_⟩, fun hg => by rw [hm] at hg; cases hg⟩
  rw [hb.2, h]
  exact get_putBytes_bytesOf _ _ _ _ _

/-- A store in the global space, which changes memory alone. -/
theorem State.astored_global {p : Loc} {k : Mem} (hm : m.space = .g) (hplaces : s.places f m.space n .store ea lvl = [(0, .g p)])
    (hplain : m.scope = .plain → ∃ l, k = ({ s.mem with tlb := l } : Mem).writeAt s.agent p n (data 0) 0) :
    s.Astored f n ea lvl data m ({ s with mem := k } : State).advance := by
  rw [hm] at hplaces
  have hk : s.Became { ({ s with mem := k } : State) with mem := s.mem } s.curGroup := State.Became.refl s
  have hb := hk.advance_of_mem ha
  have hgrp : (({ s with mem := k } : State).advance).group s.cur.grp = _ := hb.2
  have hkept : s.KeptButMemory ({ s with mem := k } : State).advance := hb.keptButMemory ha
  have hadv : s.Advanced ({ s with mem := k } : State).advance := hb.advanced_of_mem ha
  refine ⟨hkept, hadv, fun hs => absurd (hm.symm.trans hs) (by decide), fun _ => ⟨?_, fun hp => ?_⟩⟩
  · rw [State.SameWindow, hgrp]
    exact ⟨rfl, rfl⟩
  · obtain ⟨l, rfl⟩ := hplain hp
    have hpath : s.agent.path = some (s.curGroup.pcore, s.curGroup.pclu) := rfl
    obtain ⟨hhome, hbytes⟩ := ({ s.mem with tlb := l } : Mem).writeAt_zero_bytes hpath p n (data 0)
    rw [State.mem_advance, hplaces]
    refine ⟨hhome, fun tag i hi => ?_⟩
    obtain ⟨hafter, hroomy⟩ := hbytes tag i hi
    refine ⟨hafter, fun hroom => hroomy ?_⟩
    have hlen : (s.mem.cache (.l1 s.curGroup.pcore)).length + 64 ≤ 2048 := of_decide_eq_true hroom
    change (s.mem.cache (.l1 s.curGroup.pcore)).length < 2048
    omega

end

end Sys2Proof.Machine
end

section
/-!
SUPPORT. The loads and stores of the A-stream (spec/09_isa_memory_engines.md R253 to R255), and what the access stream's forms do.
-/

namespace Sys2Proof.Machine

/-! ### `astore` -/

section
variable {f : Full} {gen : Fin 8} {acc : BitVec 3} {m : MemMod} {off : BitVec 10} {s : State}

theorem exec_astore (f : Full) (gen : Fin 8) (acc : BitVec 3) (m : MemMod) (off : BitVec 10) (s : State) : exec (.astore f gen acc m off) s =
    s.issue (.astore f gen acc m off) f fun s =>
      s.memForm f m.space (accSize acc) .store (fun _ => s.curGroup.genAddr gen.val m.space (accSize acc) off 0 0) (fun _ => s.writeLevel 64 m)
        false fun l t =>
          (l.foldl (fun t p => t.storeAt s.cur.grp 64 s.agent p.2 (accSize acc) (s.src f f.d (acc == 3) 0).toNat m) t).advance := rfl

theorem astore_strm (he : s.executes (.astore f gen acc m off) f = true) : s.cur.strm = .a := by
  have hcodes : ∀ k : BitVec 3, streamMay .e (0x318#10 + k.setWidth 10).toNat = false ∧ streamMay .m (0x318#10 + k.setWidth 10).toNat = false := by
    decide
  obtain ⟨hnotE, hnotM⟩ := hcodes acc
  exact State.strm_a_of_executes he hnotE hnotM

/-- The kinds of `astore` (09 R255): in the scratchpad or the global space, and within the device. -/
theorem astore_kind (he : s.executes (.astore f gen acc m off) f = true) : (m.space = .s ∨ m.space = .g) ∧ m.scope ≠ .rem := by
  obtain ⟨hwf, -⟩ := (State.executes_iff s _ f).mp he
  obtain ⟨-, hfields⟩ := Instr.wf_full (i := .astore f gen acc m off) rfl hwf
  have hfields : (decide (acc.toNat < 4) && astoreOk acc m) = true := hfields
  simp only [Bool.and_eq_true, astoreOk, bne_iff_ne, ne_eq] at hfields
  obtain ⟨-, ⟨-, hspace⟩, hscope⟩ := hfields
  refine ⟨?_, fun hrem => ?_⟩
  · cases hsp : m.space with
    | s => exact .inl rfl
    | g => exact .inr rfl
    | k => exact absurd hsp hspace
  · rw [hrem] at hscope
    cases hscope

/-- The A-stream issues for one lane. -/
theorem State.lanes_of_executes_a {i : Instr} (he : s.executes i f = true) (ha : s.cur.strm = .a) : s.cur.lanes = 1 := by
  obtain ⟨-, ⟨-, -, -, hlanes⟩, -⟩ := (State.executes_iff s i f).mp he
  exact hlanes.resolve_left (by rw [ha]; decide)

/-- What an `astore` does whose access passes its checks: each lane's value at its place. -/
theorem memForm_astore_of_pass (hpass : s.accessesPass f m.space (accSize acc) .store
      (fun _ => s.elementAddress gen.val (m.space == .g) (accSize acc) off 0 0) (fun _ => s.writeLevel 64 m) = true) :
    s.memForm f m.space (accSize acc) .store (fun _ => s.curGroup.genAddr gen.val m.space (accSize acc) off 0 0) (fun _ => s.writeLevel 64 m)
        false (fun l t => (l.foldl (fun t p => t.storeAt s.cur.grp 64 s.agent p.2 (accSize acc) (s.src f f.d (acc == 3) 0).toNat m) t).advance) =
      ((s.places f m.space (accSize acc) .store (fun _ => s.elementAddress gen.val (m.space == .g) (accSize acc) off 0 0)
          (fun _ => s.writeLevel 64 m)).foldl
        (fun t p => t.storeAt s.cur.grp 64 s.agent p.2 (accSize acc) (s.src f f.d (acc == 3) 0).toNat m)
        (s.accessChecks f m.space (accSize acc) .store (fun _ => s.elementAddress gen.val (m.space == .g) (accSize acc) off 0 0)
          (fun _ => s.writeLevel 64 m)).2).advance := by
  simp only [Group.genAddr_eq]
  exact s.memForm_of_pass _ _ _ _ _ _ _ hpass

theorem State.mayMeetLocks_of {sp : Space} {sc : Scope} (hg : sp = .g) (hsc : sc ≠ .plain) (hl : s.mem.locks ≠ []) :
    s.mayMeetLocks sp sc = true := by
  simp [State.mayMeetLocks, hg, hsc, hl]

/-- `astore` writes its value, or waits for write-backs where it can meet a lock. -/
theorem astoreResults (he : s.executes (.astore f gen acc m off) f = true)
    (hpass : s.accessesPass f m.space (accSize acc) .store
      (fun _ => s.elementAddress gen.val (m.space == .g) (accSize acc) off 0 0) (fun _ => s.writeLevel 64 m) = true) :
    (∃ t, exec (.astore f gen acc m off) s = .next t ∧ s.Astored f (accSize acc)
      (fun _ => s.elementAddress gen.val (m.space == .g) (accSize acc) off 0 0) (fun _ => s.writeLevel 64 m)
      (fun _ => (s.src f f.d (acc == 3) 0).toNat) m t) ∨
    (s.mayMeetLocks m.space m.scope = true ∧ s.WaitsForBacks (.astore f gen acc m off)) := by
  have ha := astore_strm he
  have hx := exec_astore f gen acc m off s
  obtain ⟨hspace, hscope⟩ := astore_kind he
  have hbody := memForm_astore_of_pass hpass
  rcases State.laneList_gLive_a (State.lanes_of_executes_a he ha) f with hl | hl
  · obtain ⟨hplaces, hchecked⟩ := State.accessChecks_nil (s := s) (f := f) (sp := m.space) (n := accSize acc) (need := .store)
      (ea := fun _ => s.elementAddress gen.val (m.space == .g) (accSize acc) off 0 0) (lvl := fun _ => s.writeLevel 64 m) hl
    rw [hplaces, hchecked] at hbody
    exact .inl ⟨s.advance, exec_eq_of_done_a hx he ha hbody s.cur_advance, State.astored_nil ha hl⟩
  · obtain ⟨p, u, hspot, hplaces, hchecked⟩ := State.accessChecks_singleton hl hpass
    rw [hplaces, hchecked] at hbody
    rcases hspace with hs | hg
    · obtain ⟨rfl, rfl⟩ := State.spot_ok_scratch hs hspot
      exact .inl ⟨_, exec_eq_of_done_a hx he ha hbody (State.cur_advance _), State.astored_window ha hl hs⟩
    · obtain ⟨⟨l, rfl⟩, tlb, rfl⟩ := State.spot_ok_global hg hspot
      obtain ⟨k, b, hstore, hfree, hplain⟩ := ({ s with mem := { s.mem with tlb := tlb } } : State).storeAt_global s.cur.grp 64 s.agent l
        (accSize acc) (s.src f f.d (acc == 3) 0).toNat hscope
      have hbody := hbody.trans (congrArg State.advance hstore)
      cases b with
      | true =>
        refine .inr ⟨State.mayMeetLocks_of hg (fun hp => ?_) fun hlocks => ?_, exec_of_stuck hx he (by rw [hbody, State.cur_advance]; rfl)⟩
        · exact absurd (hplain hp).1 (by decide)
        · exact absurd (hfree hlocks) (by decide)
      | false =>
        refine .inl ⟨_, exec_eq_of_done_a hx he ha hbody (State.cur_advance _), State.astored_global ha hg hplaces fun hp => ⟨tlb, (hplain hp).2⟩⟩

end

/-! ### The access stream -/

/-- The entry that `aload` appends to a queue. -/
theorem Warp.queue_withEntry (y : Warp) (q : Nat) (acc : BitVec 3) (m : MemMod) (els : List QElem) : (y.withEntry q acc m els).queue q =
    { y.queue q with entries := (y.queue q).entries ++ [⟨(y.queue q).tail, acc, m, els⟩], tail := (y.queue q).tail + 1 } := by
  rw [Warp.withEntry, Warp.queue_modQueue, if_pos rfl]

/-- Loads and stores of the A-stream, and the return of an element. -/
theorem accessStreamMemoryForms : Parts.AccessStreamMemoryResults := by
  intro f gen acc m sel off s
  refine ⟨fun he h0 => ?_, fun he hacts hsel => ?_, fun he hpass => ?_, fun grp wid qn seq lane => ?_⟩
  · exact exec_advance_a (exec_aload f gen acc m sel off s) he (aload_strm he) (if_pos h0)
  · split
    · next hfull => exact aload_of_full he hacts hsel hfull
    · next hroom =>
      obtain ⟨t, ht, hadv, hwin, hmem, hother, hmine⟩ := aload_of_room he hacts hsel hroom
      refine ⟨t, ht, hadv, hwin, hmem, hother, fun w hw => ?_⟩
      obtain ⟨els, hwarp, hlen, hels⟩ := hmine w hw
      refine ⟨_, by rw [hwarp, Warp.queue_withEntry], rfl, hlen, fun p hp hs => ?_⟩
      dsimp only
      rw [hels hs, List.getElem?_map, List.getElem?_range hp]
      rfl
  · rcases astoreResults he hpass with hdone | ⟨hmeets, hwaits⟩
    · split
      · exact .inl hdone
      · exact hdone
    · rw [if_pos hmeets]
      exact .inr hwaits
  · exact elementReturnResults grp wid qn seq lane s

/-- Settles O30: each form by the effect of its issue on the A-stream's group; `aload` target by target; `astore` by the store at its one place. -/
theorem accessStreamResults : Obligations.AccessStreamResults := ⟨accessStreamForms, accessStreamMemoryForms⟩

end Sys2Proof.Machine
end

section
/-!
SUPPORT. What a row of a compute operation does to a group (spec/10_matrix.md R290 to R293): the accumulators of its row, or the window, and nothing
else of what the arrays read.
-/

namespace Sys2Proof

/-- A number that no write of a list names reads as before. -/
theorem Store.get_putAll_of_not_mem {α : Type} [DecidableEq α] (d : α) {k : Nat} (l : List (Nat × α)) (s : Store α)
    (h : ∀ p ∈ l, p.1 ≠ k) : Store.get (Store.putAll s d l) d k = Store.get s d k := by
  induction l generalizing s with
  | nil => rfl
  | cons p r ih =>
    rw [Store.putAll, List.foldl_cons]
    exact (ih _ fun q hq => h q (List.mem_cons_of_mem p hq)).trans (Store.get_put_ne _ _ _ (h p List.mem_cons_self).symm)

/-- Writes at distinct numbers, read back. -/
theorem Store.get_putAll_map {α : Type} [DecidableEq α] (d : α) {key : Nat → Nat} (hkey : Function.Injective key) (v : Nat → α) (l : List Nat)
    (s : Store α) (n : Nat) :
    Store.get (Store.putAll s d (l.map fun c => (key c, v c))) d (key n) = if n ∈ l then v n else Store.get s d (key n) := by
  induction l generalizing s with
  | nil => rfl
  | cons c r ih =>
    rw [Store.putAll, List.map_cons, List.foldl_cons]
    refine (ih _).trans ?_
    rw [Store.get_put]
    by_cases hc : n = c
    · simp [hc]
    · simp [hc, hkey.ne hc]

namespace Machine

/-- A number filtered out of a store reads as the default. -/
theorem get_filter_of_not {α : Type} (d : α) (f : Nat → Bool) (s : Store α) {k : Nat} (hk : f k = false) :
    Store.get (s.filter fun p => f p.1 : Store α) d k = d := by
  induction s with
  | nil => rfl
  | cons p r ih =>
    rw [List.filter_cons]
    split
    · next hp =>
      rw [Store.get, if_neg (by rintro rfl; rw [hk] at hp; cases hp), ih]
    · exact ih

/-! ### Arrays of a group -/

@[simp] theorem Group.array_modArray_same (x : Group) (n : Nat) (F : MArray → MArray) : (x.modArray n F).array n = F (x.array n) :=
  Store.get_put_same _ _ _ _

theorem Group.array_modArray_ne (x : Group) {n k : Nat} (F : MArray → MArray) (h : k ≠ n) : (x.modArray n F).array k = x.array k :=
  Store.get_put_ne _ _ _ h

/-- The accumulator of a cell. -/
def MArray.cell (y : MArray) (row col : Nat) : W32 := Store.get y.acc 0 (128 * row + col)

/-! ### The cells of an `mact` row (10 R290; 05 R141) -/

/-- The words that a row collects, by key. -/
theorem foldl_collect {γ : Type} (key : Nat → Nat) (one : Nat → γ × W8) (l : List Nat) (a : List (Nat × γ) × W8) :
    (l.foldl (fun (a : List (Nat × γ) × W8) c => (a.1 ++ [(key c, (one c).1)], a.2 ||| (one c).2)) a).1 =
      a.1 ++ l.map fun c => (key c, (one c).1) := by
  induction l generalizing a with
  | nil => simp
  | cons c r ih => simp [ih]

/-- The sum of the products of a row of activations and a column of weights. -/
theorem foldl_zipWith_eq_dotProduct (n : Nat) (a w : Nat → Int × W8) :
    (List.zipWith (fun x y => x.1 * y.1) ((List.range n).map a) ((List.range n).map w)).foldl (· + ·) 0 =
      dotProduct n (fun k => (a k).1) fun k => (w k).1 := by
  rw [List.zipWith_map, List.zipWith_self, List.foldl_map, dotProduct]

/-- An INT8 element is its byte. -/
theorem elemInt_i8 (get : Nat → W8) (base k : Nat) : (elemInt .i8 (elemBits get base .i8 k)).1 = (get (base + k)).toInt := by
  have hbyte : (BitVec.ofNat 64 (get (base + k)).toNat).setWidth 8 = get (base + k) := by simp
  exact congrArg BitVec.toInt hbyte

/-- The product sum of row i of an INT8 operation in a column. -/
def Group.byteSum (x : Group) (y : MArray) (op : MOp) (i col : Nat) : Int :=
  dotProduct 128 (fun n => (Store.get x.scratch 0 (op.a + i * 128 + n)).toInt) fun n => (Store.get y.active.bytes 0 (128 * n + col)).toInt

/-- The words that a row of an `mact` leaves; those of INT8 are the clamped sums. -/
theorem Group.actLine_words (x : Group) (n : Nat) (y : MArray) (op : MOp) (i : Nat) :
    ∃ v : Nat → W32, (x.actLine n y op i).1 = (actCols x.gfmt y.active).map (fun c => (128 * (op.b + i) + c, v c)) ∧
      (fmtA x.gfmt = .i8 → fmtB x.gfmt = .i8 → ∀ c,
        v c = BitVec.ofInt 32 (clampInt (-(2 ^ 31)) (2 ^ 31 - 1) ((y.cell (op.b + i) c).toInt + x.byteSum y op i c))) := by
  unfold Group.actLine
  refine ⟨_, (foldl_collect (128 * (op.b + i) + ·) _ _ ([], 0)).trans (List.nil_append _), fun ha hb c => ?_⟩
  have hblocks : tileK x.gfmt / 128 = 1 := by rw [tileK, hb]; rfl
  have hact : actRow x.gfmt = 128 := by rw [actRow, tileK, ha, hb]; rfl
  have hweight : weightRow x.gfmt = 128 := by rw [weightRow, hb]; rfl
  simp only [ha, hb, hblocks, hact, hweight, List.map_map]
  refine congrArg (fun z => BitVec.ofInt 32 (clampInt (-(2 ^ 31)) (2 ^ 31 - 1) ((y.cell (op.b + i) c).toInt + z))) ?_
  refine (foldl_zipWith_eq_dotProduct 128 _ _).trans ?_
  have hcols : isF16 .i8 = false := rfl
  simp only [Group.byteSum, Function.comp, elemInt_i8, Nat.mul_zero, Nat.add_zero, Nat.mul_comm _ 128, hcols, Bool.false_and, Bool.false_eq_true,
    if_false]

/-- A clamped sum is kept as it is in 32 bits. -/
theorem toInt_ofInt_clampInt (v : Int) : (BitVec.ofInt 32 (clampInt (-(2 ^ 31)) (2 ^ 31 - 1) v)).toInt = max (-(2 ^ 31)) (min (2 ^ 31 - 1) v) := by
  rw [clampInt_eq (by decide)]
  exact BitVec.toInt_ofInt_eq_self (by decide) (by omega) (by omega)

theorem lt_of_mem_actCols {F : W32} {P : Plane} {c : Nat} (h : c ∈ actCols F P) : c < 128 := by
  unfold actCols at h
  split at h
  · obtain ⟨n, hn, rfl⟩ := List.mem_map.mp h
    have := List.mem_range.mp hn
    split <;> omega
  · exact List.mem_range.mp h

theorem actCols_of_i8 {F : W32} (P : Plane) (hb : fmtB F = .i8) : actCols F P = List.range 128 := by
  rw [actCols, hb]
  rfl

/-! ### One row -/

/-- Rows of a compute operation, some numbers from the first, have been processed: the format, the other arrays, the weights and the accumulators of
every other row are as they were. -/
structure Group.RowsOnly (x z : Group) (arr first k : Nat) : Prop where
  fmt : z.gfmt = x.gfmt
  others : ∀ n, n ≠ arr → z.array n = x.array n
  active : (z.array arr).active = (x.array arr).active
  cells : ∀ row col, col < 128 → row < first ∨ first + k ≤ row → (z.array arr).cell row col = (x.array arr).cell row col

theorem Group.RowsOnly.refl (x : Group) (arr first k : Nat) : x.RowsOnly x arr first k := ⟨rfl, fun _ _ => rfl, rfl, fun _ _ _ _ => rfl⟩

/-- Accumulators of one row have changed. -/
theorem Group.rowsOnly_modArray (x : Group) {arr row : Nat} {acc : Store W32}
    (h : ∀ r col, col < 128 → r ≠ row → Store.get acc 0 (128 * r + col) = (x.array arr).cell r col) :
    x.RowsOnly (x.modArray arr fun y => { y with acc := acc }) arr row 1 where
  fmt := rfl
  others _ hn := x.array_modArray_ne _ hn
  active := by rw [x.array_modArray_same]
  cells r col hcol hr := by
    rw [x.array_modArray_same]
    exact h r col hcol (by omega)

section
variable (x : Group) (n arr : Nat) {op : MOp} (i : Nat)

theorem Group.doLine_of_act (h : op.kind = .act) : (x.doLine n arr op i).1 =
    x.modArray arr fun y => { y with acc := Store.putAll y.acc 0 (x.actLine n (x.array arr) op i).1 } := by
  rw [Group.doLine, h]
  rfl

theorem Group.doLine_of_zero (h : op.kind = .zero) : (x.doLine n arr op i).1 =
    x.modArray arr fun y => { y with acc := y.acc.filter fun p => p.1 / 128 != op.b + i } := by
  rw [Group.doLine, h]

theorem Group.doLine_of_st (h : op.kind = .st) : (x.doLine n arr op i).1 =
    x.scratchWrite (op.a + i * mstRow op.ty) (x.stLine (x.array arr) op i).1 := by
  rw [Group.doLine, h]

theorem Group.doLine_of_wld (h : op.kind = .wld) : (x.doLine n arr op i).1 = x := by
  rw [Group.doLine, h]

/-- A number whose row is another's is no cell of a row. -/
theorem row_ne {r row c col : Nat} (hr : r ≠ row) (hc : c < 128) (hcol : col < 128) : 128 * row + c ≠ 128 * r + col := by omega

theorem Group.doLine_rowsOnly (op : MOp) : x.RowsOnly (x.doLine n arr op i).1 arr (op.b + i) 1 := by
  cases hk : op.kind with
  | act =>
    rw [x.doLine_of_act n arr i hk]
    refine x.rowsOnly_modArray fun r col hcol hr => Store.get_putAll_of_not_mem 0 _ _ fun p hp => ?_
    obtain ⟨v, hv, -⟩ := x.actLine_words n (x.array arr) op i
    rw [hv, List.mem_map] at hp
    obtain ⟨c, hc, rfl⟩ := hp
    exact row_ne hr (lt_of_mem_actCols hc) hcol
  | zero =>
    rw [x.doLine_of_zero n arr i hk]
    refine x.rowsOnly_modArray fun r col hcol hr => get_filter_key _ _ (fun k => k / 128 != op.b + i) ?_
    rw [bne_iff_ne]
    omega
  | st =>
    rw [x.doLine_of_st n arr i hk]
    exact ⟨rfl, fun _ _ => rfl, rfl, fun _ _ _ _ => rfl⟩
  | wld =>
    rw [x.doLine_of_wld n arr i hk]
    exact .refl ..

/-- The window changes only by an `mst`. -/
theorem Group.scratch_doLine (h : op.kind ≠ .st) : (x.doLine n arr op i).1.scratch = x.scratch := by
  cases hk : op.kind with
  | act => rw [x.doLine_of_act n arr i hk]; rfl
  | zero => rw [x.doLine_of_zero n arr i hk]; rfl
  | st => exact absurd hk h
  | wld => rw [x.doLine_of_wld n arr i hk]

theorem Group.cell_doLine_zero (h : op.kind = .zero) {col : Nat} (hcol : col < 128) :
    ((x.doLine n arr op i).1.array arr).cell (op.b + i) col = 0 := by
  rw [x.doLine_of_zero n arr i h, x.array_modArray_same]
  refine get_filter_of_not 0 (fun k => k / 128 != op.b + i) _ ?_
  rw [bne_eq_false_iff_eq]
  omega

theorem Group.cell_doLine_act (h : op.kind = .act) (ha : fmtA x.gfmt = .i8) (hb : fmtB x.gfmt = .i8) {col : Nat} (hcol : col < 128) :
    (((x.doLine n arr op i).1.array arr).cell (op.b + i) col).toInt =
      max (-(2 ^ 31)) (min (2 ^ 31 - 1) (((x.array arr).cell (op.b + i) col).toInt + x.byteSum (x.array arr) op i col)) := by
  obtain ⟨v, hwords, hv⟩ := x.actLine_words n (x.array arr) op i
  have hcell : ((x.doLine n arr op i).1.array arr).cell (op.b + i) col = v col := by
    rw [x.doLine_of_act n arr i h, x.array_modArray_same, hwords, actCols_of_i8 _ hb]
    exact (Store.get_putAll_map 0 (add_right_injective _) v _ _ col).trans (if_pos (List.mem_range.mpr hcol))
  rw [hcell, hv ha hb, toInt_ofInt_clampInt]

end

/-! ### Rows that an `mst` stores (10 R293) -/

/-- A byte of little-endian words laid side by side is a byte of its word. -/
theorem byteOf_foldl_words (d : Nat → Nat) (hd : ∀ c, d c < 2 ^ 32) (n : Nat) :
    ((List.range n).foldl (fun v c => v + d c * 2 ^ (32 * c)) 0) < 2 ^ (32 * n) ∧
      ∀ j, j < 4 * n → byteOf ((List.range n).foldl (fun v c => v + d c * 2 ^ (32 * c)) 0) j = byteOf (d (j / 4)) (j % 4) := by
  induction n with
  | zero => exact ⟨by simp, fun j hj => by omega⟩
  | succ n ih =>
    obtain ⟨hlt, hbytes⟩ := ih
    rw [List.range_succ, List.foldl_append, List.foldl_cons, List.foldl_nil]
    generalize (List.range n).foldl (fun v c => v + d c * 2 ^ (32 * c)) 0 = v at hlt hbytes
    have hword := hd n
    refine ⟨?_, fun j hj => ?_⟩
    · rw [show 32 * (n + 1) = 32 * n + 32 by ring, Nat.pow_add]
      nlinarith
    · by_cases hjn : j < 4 * n
      · rw [← hbytes j hjn]
        have hsplit : 2 ^ (32 * n) = 256 ^ j * (256 * 256 ^ (4 * n - j - 1)) := by
          rw [← Nat.pow_succ', ← Nat.pow_add, show j + (4 * n - j - 1 + 1) = 4 * n by omega, Nat.pow_mul 2 32 n, Nat.pow_mul 256 4 n]
        refine BitVec.eq_of_toNat_eq ?_
        rw [byteOf, byteOf, BitVec.toNat_ofNat, BitVec.toNat_ofNat, hsplit,
          show v + d n * (256 ^ j * (256 * 256 ^ (4 * n - j - 1))) = v + 256 ^ j * (256 * (d n * 256 ^ (4 * n - j - 1))) by ring,
          Nat.add_mul_div_left _ _ (by positivity)]
        exact Nat.add_mul_mod_self_left _ _ _
      · obtain ⟨r, rfl⟩ : ∃ r, j = 4 * n + r := ⟨j - 4 * n, by omega⟩
        have hpow : 256 ^ (4 * n) = 2 ^ (32 * n) := by rw [Nat.pow_mul, Nat.pow_mul 2 32]
        rw [byteOf, byteOf, show (4 * n + r) / 4 = n by omega, show (4 * n + r) % 4 = r by omega, Nat.pow_add, ← Nat.div_div_eq_div_mul, hpow,
          Nat.add_mul_div_right _ _ (by positivity), Nat.div_eq_of_lt hlt, Nat.zero_add]

/-- The accumulators of a row as one value, the lowest column first. -/
def MArray.rowValue (y : MArray) (row : Nat) : Nat := (List.range 128).foldl (fun v c => v + (y.cell row c).toNat * 2 ^ (32 * c)) 0

theorem MArray.byteOf_rowValue (y : MArray) (row : Nat) {j : Nat} (hj : j < 512) :
    byteOf (y.rowValue row) j = (y.cell row (j / 4)).extractLsb' (8 * (j % 4)) 8 := by
  rw [← byteOf_toNat]
  exact (byteOf_foldl_words (fun c => (y.cell row c).toNat) (fun c => (y.cell row c).isLt) 128).2 j hj

/-- A value collected with flags is collected without. -/
theorem foldl_fst {β : Type} (f : Nat → β → Nat) (g : W8 → β → W8) (l : List β) (a : Nat × W8) :
    (l.foldl (fun (a : Nat × W8) c => (f a.1 c, g a.2 c)) a).1 = l.foldl f a.1 := by
  induction l generalizing a with
  | nil => rfl
  | cons c r ih => exact ih _

/-- The bytes of an unconverted row are those of its accumulators. -/
theorem Group.stLine_i32 (x : Group) (y : MArray) {op : MOp} (i : Nat) (hacc : fmtAcc x.gfmt = .i32) (hty : op.ty = .i32) :
    (x.stLine y op i).1 = bytesOf 512 (y.rowValue (op.b + i)) := by
  have hconv (w : W32) : (mstConv x.gfmt .i32 w).1 = w.toNat := by rw [mstConv, hacc]; rfl
  have hwidth : Ty.i32.width = 32 := rfl
  have hrow : mstRow .i32 = 512 := rfl
  rw [Group.stLine, hty, hrow, hwidth]
  simp only [hconv]
  exact congrArg (bytesOf 512) (foldl_fst (fun v c => v + (y.cell (op.b + i) c).toNat * 2 ^ (32 * c))
    (fun f c => f ||| (mstConv x.gfmt .i32 (y.cell (op.b + i) c)).2) _ _)

section
variable (x : Group) (n arr : Nat) {op : MOp} (i : Nat)

theorem Group.array_doLine_st (h : op.kind = .st) (k : Nat) : (x.doLine n arr op i).1.array k = x.array k := by
  rw [x.doLine_of_st n arr i h]
  rfl

/-- The window after an unconverted row is stored. -/
theorem Group.scratch_doLine_st (h : op.kind = .st) (hacc : fmtAcc x.gfmt = .i32) (hty : op.ty = .i32) (a : Nat) :
    Store.get (x.doLine n arr op i).1.scratch 0 a =
      if op.a + i * 512 ≤ a ∧ a < op.a + i * 512 + 512 then
        ((x.array arr).cell (op.b + i) ((a - (op.a + i * 512)) / 4)).extractLsb' (8 * ((a - (op.a + i * 512)) % 4)) 8
      else Store.get x.scratch 0 a := by
  have hrow : mstRow .i32 = 512 := rfl
  rw [x.doLine_of_st n arr i h, x.stLine_i32 _ i hacc hty, hty, hrow, Group.scratchWrite, get_putBytes_bytesOf]
  split
  · next hin => exact MArray.byteOf_rowValue _ _ (by omega)
  · rfl

end

/-! ### Blocks of rows -/

section
variable (x : Group) (n arr : Nat) (op : MOp) (i k : Nat)

theorem Group.doLines_succ : (x.doLines n arr op i (k + 1)).1 = ((x.doLines n arr op i k).1.doLine n arr op (i + k)).1 := by
  rw [Group.doLines, List.range_succ, List.foldl_append]
  rfl

theorem Group.doLines_rowsOnly : x.RowsOnly (x.doLines n arr op i k).1 arr (op.b + i) k := by
  induction k with
  | zero => exact .refl ..
  | succ k ih =>
    have hline := (x.doLines n arr op i k).1.doLine_rowsOnly n arr (i + k) op
    rw [x.doLines_succ]
    exact ⟨hline.fmt.trans ih.fmt, fun m hm => (hline.others m hm).trans (ih.others m hm), hline.active.trans ih.active,
      fun row col hcol hrow => (hline.cells row col hcol (by omega)).trans (ih.cells row col hcol (by omega))⟩

/-- Each row of a block stands as its own step left it. -/
theorem Group.cell_doLines {j col : Nat} (hj : j < k) (hcol : col < 128) :
    ((x.doLines n arr op i k).1.array arr).cell (op.b + i + j) col =
      (((x.doLines n arr op i j).1.doLine n arr op (i + j)).1.array arr).cell (op.b + (i + j)) col := by
  induction k with
  | zero => omega
  | succ k ih =>
    rw [x.doLines_succ, ← Nat.add_assoc]
    rcases Nat.lt_succ_iff_lt_or_eq.mp hj with hlt | rfl
    · have hline := (x.doLines n arr op i k).1.doLine_rowsOnly n arr (i + k) op
      rw [hline.cells _ _ hcol (by omega), ih hlt, ← Nat.add_assoc]
    · rfl

end

section
variable (x : Group) (n arr : Nat) {op : MOp} (i k : Nat)

theorem Group.scratch_doLines (h : op.kind ≠ .st) : (x.doLines n arr op i k).1.scratch = x.scratch := by
  induction k with
  | zero => rfl
  | succ k ih => rw [x.doLines_succ, Group.scratch_doLine _ _ _ _ h, ih]

theorem Group.array_doLines_st (h : op.kind = .st) (m : Nat) : (x.doLines n arr op i k).1.array m = x.array m := by
  induction k with
  | zero => rfl
  | succ k ih => rw [x.doLines_succ, Group.array_doLine_st _ _ _ _ h, ih]

theorem Group.cell_doLines_zero (h : op.kind = .zero) {j col : Nat} (hj : j < k) (hcol : col < 128) :
    ((x.doLines n arr op i k).1.array arr).cell (op.b + i + j) col = 0 := by
  rw [x.cell_doLines n arr op i k hj hcol]
  exact Group.cell_doLine_zero _ n arr _ h hcol

/-- A block of an INT8 `mact`: the rows before one change neither its accumulators nor what it reads. -/
theorem Group.cell_doLines_act (h : op.kind = .act) (ha : fmtA x.gfmt = .i8) (hb : fmtB x.gfmt = .i8) {j col : Nat} (hj : j < k) (hcol : col < 128) :
    (((x.doLines n arr op i k).1.array arr).cell (op.b + i + j) col).toInt =
      max (-(2 ^ 31)) (min (2 ^ 31 - 1) (((x.array arr).cell (op.b + i + j) col).toInt + x.byteSum (x.array arr) op (i + j) col)) := by
  have hrows := x.doLines_rowsOnly n arr op i j
  have hscratch := x.scratch_doLines n arr i j (op := op) (by rw [h]; exact nofun)
  rw [x.cell_doLines n arr op i k hj hcol, Group.cell_doLine_act _ n arr _ h (hrows.fmt ▸ ha) (hrows.fmt ▸ hb) hcol, ← Nat.add_assoc,
    hrows.cells _ col hcol (by omega), Group.byteSum, hscratch, hrows.active]
  rfl

/-- A block of an unconverted `mst`. -/
theorem Group.scratch_doLines_st (h : op.kind = .st) (hacc : fmtAcc x.gfmt = .i32) (hty : op.ty = .i32) (a : Nat) :
    Store.get (x.doLines n arr op i k).1.scratch 0 a =
      if op.a + i * 512 ≤ a ∧ a - (op.a + i * 512) < k * 512 then
        ((x.array arr).cell (op.b + i + (a - (op.a + i * 512)) / 512) ((a - (op.a + i * 512)) % 512 / 4)).extractLsb'
          (8 * ((a - (op.a + i * 512)) % 4)) 8
      else Store.get x.scratch 0 a := by
  induction k with
  | zero => rw [if_neg (by omega)]; rfl
  | succ k ih =>
    have hrows := x.doLines_rowsOnly n arr op i k
    rw [x.doLines_succ, Group.scratch_doLine_st _ n arr _ h (hrows.fmt ▸ hacc) hty, x.array_doLines_st n arr i k h, ih,
      show op.a + (i + k) * 512 = op.a + i * 512 + k * 512 by ring]
    generalize op.a + i * 512 = base
    by_cases hlast : base + k * 512 ≤ a ∧ a < base + k * 512 + 512
    · have hin : base ≤ a ∧ a - base < (k + 1) * 512 := by omega
      have hrow : (a - base) / 512 = k := by omega
      have hoff : (a - base) % 512 = a - (base + k * 512) := by omega
      have hbyte : (a - base) % 4 = (a - (base + k * 512)) % 4 := by omega
      rw [if_pos hlast, if_pos hin, hrow, hoff, hbyte, Nat.add_assoc op.b i k]
    · rw [if_neg hlast]
      exact if_congr (by omega) rfl rfl

end

end Machine
end Sys2Proof
end

section
/-!
SUPPORT. The steps of the arrays (spec/10_matrix.md R278, R288 to R290, R292, R293, R301): a granted claim, a loaded plane, exchanged planes and a
block of rows.
-/

namespace Sys2Proof.Machine

/-! ### A granted claim -/

/-- MCLAIM_GRANT of the oldest waiting claim, once there are arrays for it. -/
theorem exec_mclaimGrant {s : State} {core h : Nat} {both : Bool} {r : List (Nat × Bool)} {pc : W64} {phys : List Nat}
    (hlist : s.claimList core = (h, both) :: r) (hwait : (s.group h).mstr.wait = .mclaim both pc) (hused : (s.group h).used = true)
    (hfor : s.arraysFor core both = some phys) : exec (.mclaimGrant core) s =
      .next (((s.modGroup h (·.grantClaim both phys)).modStream h .m fun y => { y with wait := .ready, pc := pc, bp := 0 }).setClaims core r) := by
  change execMclaimGrant core s = _
  rw [execMclaimGrant, hlist]
  simp only [hwait, hused, hfor, bne_self_eq_false, Bool.not_true, Bool.or_false, Bool.false_eq_true, if_false]

/-! ### A loaded plane -/

/-- The bytes of a tile, read one by one. -/
theorem get_foldl_range {n : Nat} (v : Nat → W8) {k : Nat} (hk : k < n) :
    Store.get ((List.range n).foldl (fun (s : Store W8) k => Store.put s 0 k (v k)) []) 0 k = v k := by
  have hputs := Store.get_putAll_map (0 : W8) Function.injective_id v (List.range n) [] k
  rw [if_pos (List.mem_range.mpr hk), Store.putAll, List.foldl_map] at hputs
  exact hputs

/-- The shadow plane that a load leaves (10 R288). -/
theorem Group.loadTile_of_cons {x : Group} {arr : Nat} {op : MOp} {r : List MOp} (h : (x.array arr).loadQ = op :: r) :
    ∃ bytes : Store W8, (∀ k, k < 16384 → Store.get bytes 0 k = Store.get x.scratch 0 (op.a + k)) ∧
      x.loadTile arr = x.modArray arr fun y => { y with shadow := ⟨bytes, op.ts, op.chi⟩, loadQ := r } := by
  refine ⟨_, fun k hk => get_foldl_range (fun k => Store.get x.scratch 0 (op.a + k)) hk, ?_⟩
  rw [Group.loadTile, h]

/-! ### A block of rows -/

/-- Rows of the block that an operation takes next (10 R301). -/
def MOp.block (op : MOp) : Nat := min 32 (op.c - op.next)

/-- What a block leaves in the port: the operation with its next row, or what stood behind it. -/
def MOp.Leaves (op : MOp) (r q : List MOp) : Prop :=
  if op.next + op.block < op.c then ∃ o, q = o :: r ∧ o.next = op.next + op.block ∧ o.kind = op.kind else q = r

/-- A block of the oldest compute operation: its rows, and what is left in the port. -/
theorem Group.computeBlock_of_cons {x : Group} (n : Nat) {arr : Nat} {op : MOp} {r : List MOp} (h : (x.array arr).compQ = op :: r) :
    let z := x.doLines n arr op op.next op.block
    ∃ q, op.Leaves r q ∧ (x.computeBlock n arr).arrays = (z.1.modArray arr fun y => { y with compQ := q }).arrays ∧
      (x.computeBlock n arr).scratch = z.1.scratch := by
  intro z
  let fl : W32 := op.flags ||| (orFlags z.2).setWidth 32
  have heq : x.computeBlock n arr = if op.next + op.block < op.c then
      z.1.modArray arr fun y => { y with compQ := { op with next := op.next + op.block, flags := fl } :: r }
      else { z.1.modArray arr fun y => { y with compQ := r } with mstr := { z.1.mstr with fstat := z.1.mstr.fstat ||| fl } } := by
    rw [Group.computeBlock, h]
    rfl
  rw [heq]
  by_cases hmore : op.next + op.block < op.c
  · rw [if_pos hmore]
    refine ⟨_, ?_, rfl, rfl⟩
    rw [MOp.Leaves, if_pos hmore]
    exact ⟨_, rfl, rfl, rfl⟩
  · rw [if_neg hmore]
    refine ⟨r, ?_, rfl, rfl⟩
    rw [MOp.Leaves, if_neg hmore]

/-- What the arrays and the window of the group read after a block of rows. -/
theorem Group.computeBlock_reads {x : Group} (n : Nat) {arr : Nat} {op : MOp} {r : List MOp} (h : (x.array arr).compQ = op :: r) :
    let z := (x.doLines n arr op op.next op.block).1
    let t := x.computeBlock n arr
    (∀ m, m ≠ arr → t.array m = x.array m) ∧ (t.array arr).active = (x.array arr).active ∧ op.Leaves r (t.array arr).compQ ∧
      (∀ row col, (t.array arr).cell row col = (z.array arr).cell row col) ∧ t.scratch = z.scratch := by
  intro z t
  obtain ⟨q, hleaves, harrays, hscratch⟩ := Group.computeBlock_of_cons n h
  have hrows := x.doLines_rowsOnly n arr op op.next op.block
  have harray (k : Nat) : t.array k = (z.modArray arr fun y => { y with compQ := q }).array k :=
    congrArg (fun l => Store.get l MArray.blank k) harrays
  have hsame : t.array arr = { z.array arr with compQ := q } := (harray arr).trans (z.array_modArray_same _ _)
  refine ⟨fun k hk => ?_, ?_, ?_, fun row col => ?_, hscratch⟩
  · rw [harray, z.array_modArray_ne _ hk]
    exact hrows.others k hk
  · rw [hsame]
    exact hrows.active
  · rw [hsame]
    exact hleaves
  · rw [hsame]
    rfl

/-! ### Exchanged planes -/

/-- MSWAP_EXCHANGE of an array for which the M-stream waits. -/
theorem exec_mswapExchange {s : State} {g arr : Nat} {pc : W64} (hwait : (s.group g).mstr.wait = .mswap arr pc) :
    exec (.mswapExchange g arr) s = .next (if ((s.group g).array arr).canSwap then
      s.modGroup g fun x => { x.modArray arr MArray.exchange with mstr := { x.mstr with wait := .ready, pc := pc, bp := 0 } } else s) := by
  change execMswapExchange g arr s = _
  rw [execMswapExchange, hwait]
  simp only [true_and]

end Sys2Proof.Machine
end

section
namespace Sys2Proof.Machine

/-- Settles O38: a granted claim, a loaded plane and exchanged planes by the group that they leave; a block row by row, each row standing as its own
step left it. -/
theorem matrixUnitResults : Obligations.MatrixUnitResults := by
  intro g arr core s x y
  refine ⟨?grant, ?load, ?swap, ?block⟩
  case grant =>
    intro h both r pc phys hlist hwait hused hfor
    have hgroup := (s.modGroup h (·.grantClaim both phys)).group_modStream h .m fun y => { y with wait := .ready, pc := pc, bp := 0 }
    rw [s.group_modGroup] at hgroup
    have hlist' := Store.get_put_same s.eng.claims [] r core
    have hothers (k : Nat) (hk : k ≠ h) := ((s.modGroup h (·.grantClaim both phys)).group_modGroup_ne
      (·.modStream .m fun y => { y with wait := .ready, pc := pc, bp := 0 }) hk).trans (s.group_modGroup_ne _ hk)
    exact ⟨_, exec_mclaimGrant hlist hwait hused hfor, congrArg Group.claim hgroup, congrArg Group.phys hgroup,
      congrArg (fun z : Group => z.mstr.wait) hgroup, congrArg (fun z : Group => z.mstr.pc) hgroup, hlist', hothers⟩
  case load =>
    intro op r hq
    obtain ⟨bytes, hbytes, hload⟩ := Group.loadTile_of_cons hq
    have hgroup : (s.modGroup g (·.loadTile arr)).group g = _ := (s.group_modGroup g _).trans hload
    refine ⟨_, rfl, ?_⟩
    rw [hgroup, Group.array_modArray_same]
    exact ⟨rfl, rfl, rfl, rfl, hbytes, rfl, fun k hk => s.group_modGroup_ne _ hk⟩
  case swap =>
    intro pc hwait
    refine ⟨_, exec_mswapExchange hwait, ?_⟩
    by_cases hswap : y.canSwap
    · have hgroup := s.group_modGroup g fun x =>
        { x.modArray arr MArray.exchange with mstr := { x.mstr with wait := .ready, pc := pc, bp := 0 } }
      have harray := (congrArg (Group.array · arr) hgroup).trans (x.array_modArray_same arr MArray.exchange)
      rw [if_pos hswap, if_pos hswap]
      exact ⟨congrArg MArray.active harray, congrArg MArray.shadow harray, congrArg (fun z : Group => z.mstr.wait) hgroup,
        congrArg (fun z : Group => z.mstr.pc) hgroup⟩
    · rw [if_neg hswap, if_neg hswap]
  case block =>
    intro op r hq
    refine ⟨_, rfl, ?_⟩
    have hgroup : ((s.modGroup g (·.computeBlock s.draws arr)).draw).group g = x.computeBlock s.draws arr :=
      s.group_modGroup g (·.computeBlock s.draws arr)
    have hothers (h : Nat) (hh : h ≠ g) : ((s.modGroup g (·.computeBlock s.draws arr)).draw).group h = s.group h :=
      s.group_modGroup_ne (·.computeBlock s.draws arr) hh
    obtain ⟨harrays, hactive, hleaves, hcells, hscratch⟩ := Group.computeBlock_reads s.draws hq
    have hrows := x.doLines_rowsOnly s.draws arr op op.next op.block
    dsimp only
    rw [hgroup]
    refine ⟨hothers, harrays, hactive, hleaves, fun row col hcol hrow => ?_, fun hk row col hcol hfirst hlast => ?_,
      fun hk ha hb i col hi hcol => ?_, fun hk => ?_, fun hk hacc hty a => ?_⟩
    · exact (hcells row col).trans (hrows.cells row col hcol hrow)
    · obtain ⟨j, rfl⟩ := Nat.exists_eq_add_of_le hfirst
      exact (hcells _ _).trans (x.cell_doLines_zero s.draws arr op.next op.block hk (Nat.lt_of_add_lt_add_left hlast) hcol)
    · exact (congrArg BitVec.toInt (hcells _ _)).trans (x.cell_doLines_act s.draws arr op.next op.block hk ha hb hi hcol)
    · exact hscratch.trans (x.scratch_doLines s.draws arr op.next op.block hk)
    · rw [hscratch]
      exact x.scratch_doLines_st s.draws arr op.next op.block hk hacc hty a

end Sys2Proof.Machine
end

section
/-!
SUPPORT. What becomes of the warp that issues in the E-stream (spec/02_execution_model.md R37; spec/04_registers_encoding.md R96, R108): its pending
results, its splits, and the rest of the machine as it was.
-/

namespace Sys2Proof.Machine

/-! ### Group-uniform registers -/

/-- On two occasions the same choices are free among group-uniform writes that a reader may not have seen (03 R61). -/
def sameUniformChoices (m n : Nat) : Prop := ∀ k, 8192 < k → Config.choiceAt m k = Config.choiceAt n k

/-! ### The issuing warp -/

/-- A later state in which the pending results and the splits of the issuing warp are as given, and nothing else of its group or outside it has
changed. -/
def State.IssuerHas (s t : State) (ps : List Pend) (xs : List Split) : Prop :=
  ∃ ws, s.Became t { s.curGroup with warps := ws } ∧ Store.get ws Warp.blank s.cur.wid = { s.curWarp with pend := ps, splits := xs } ∧
    ∀ v, v ≠ s.cur.wid → Store.get ws Warp.blank v = s.curGroup.warp v

section
variable {s t : State} {ps : List Pend} {xs : List Split}

theorem State.IssuerHas.refl (s : State) : s.IssuerHas s s.curWarp.pend s.curWarp.splits :=
  ⟨s.curGroup.warps, State.Became.refl s, rfl, fun _ _ => rfl⟩

theorem State.IssuerHas.markDone (h : s.IssuerHas t ps xs) : s.IssuerHas t.markDone ps xs := h

theorem State.IssuerHas.modCurWarp (h : s.IssuerHas t ps xs) {F : Warp → Warp} {qs : List Pend} {ys : List Split}
    (hF : F { s.curWarp with pend := ps, splits := xs } = { s.curWarp with pend := qs, splits := ys }) : s.IssuerHas (t.modCurWarp F) qs ys := by
  obtain ⟨ws, hb, hw, ho⟩ := h
  refine ⟨Store.put ws Warp.blank s.cur.wid (F (Store.get ws Warp.blank s.cur.wid)), ?_, ?_, fun v hv => (Store.get_put_ne _ _ _ hv).trans (ho v hv)⟩
  · rw [← hb.wid]
    exact hb.modCur (·.modWarp t.cur.wid F)
  · rw [Store.get_put_same, hw, hF]

theorem State.IssuerHas.curWarp (h : s.IssuerHas t ps xs) : t.curWarp = { s.curWarp with pend := ps, splits := xs } := by
  obtain ⟨ws, hb, hw, -⟩ := h
  rw [← hw, State.curWarp, State.warp, hb.grp, hb.wid, hb.2]
  rfl

theorem State.IssuerHas.issuer (h : s.IssuerHas t ps xs) : s.issuer t = { s.curWarp with pend := ps, splits := xs } := by
  rw [← h.curWarp]
  obtain ⟨ws, hb, -⟩ := h
  rw [State.issuer, State.curWarp, hb.grp, hb.wid]

theorem State.IssuerHas.sameWindow (h : s.IssuerHas t ps xs) : s.SameWindow t := by
  obtain ⟨ws, hb, -⟩ := h
  rw [State.SameWindow, hb.2]
  exact ⟨rfl, rfl⟩

/-- The issuing split is replaced by one. -/
theorem State.IssuerHas.modSplit (h : s.IssuerHas t ps xs) (he : s.cur.strm = .e) (hc : t.cur = s.cur) (F : Split → Split)
    (G : Stream → Stream) : s.IssuerHas (t.modSplit (fun x => [F x]) G) ps (xs.map fun x => if x.lanes = s.cur.lanes then F x else x) := by
  rw [State.modSplit, hc, he]
  refine h.modCurWarp ?_
  rw [← replaceSplit_map]
  rfl

/-- The issuing split goes on at the next slot. -/
theorem State.IssuerHas.advance (h : s.IssuerHas t ps xs) (he : s.cur.strm = .e) (hc : t.cur = s.cur) : s.IssuerHas t.advance ps
    (xs.map fun x => if x.lanes = s.cur.lanes then { x with pc := s.cur.npc, wait := .ready, bp := 0, wd := 0 } else x) := by
  have h := h.modSplit he hc (fun x => { x with pc := t.cur.npc, wait := .ready, bp := 0, wd := 0 })
    fun x => { x with pc := t.cur.npc, wait := .ready, bp := 0 }
  rw [hc] at h
  unfold State.advance
  rw [hc]
  exact h.markDone

/-! ### What is kept -/

/-- Group-uniform registers read alike where the free choices of the occasion do. -/
theorem State.IssuerHas.greg_eq (h : s.IssuerHas t ps xs) (hd : sameUniformChoices t.draws s.draws) (n : Nat) : t.greg n = s.greg n := by
  obtain ⟨ws, hb, -⟩ := h
  have hreader : t.cur.reader = s.cur.reader := by rw [Cur.reader, Cur.reader, hb.strm, hb.wid]
  have hsees (seen k : Nat) : (decide (k ≤ seen) || Config.choiceAt t.draws (8192 + k)) = (decide (k ≤ seen) || Config.choiceAt s.draws (8192 + k)) := by
    rcases Nat.eq_zero_or_pos k with rfl | hk
    · simp
    · rw [hd _ (Nat.lt_add_of_pos_right hk)]
  unfold State.greg
  rw [hb.curGroup, hb.strm, hreader]
  simp only [hsees]

theorem State.IssuerHas.frame (h : s.IssuerHas t s.curWarp.pend xs) (he : s.cur.strm = .e) : s.Frame t := by
  obtain ⟨ws, hb, hw, ho⟩ := h
  have hwarp : (s.curGroup.warp s.cur.wid).SameBut (Store.get ws Warp.blank s.cur.wid) := by
    rw [hw]
    exact ⟨rfl, rfl⟩
  refine ⟨hb.1, ?_⟩
  unfold State.SameGroup
  rw [hb.2, he]
  refine ⟨rfl, ho, hwarp, fun hne => absurd rfl hne, fun st _ => ?_, rfl⟩
  cases st <;> rfl

/-- Where only splits have changed, and group-uniform registers read alike, everything else is kept. -/
theorem State.IssuerHas.kept (h : s.IssuerHas t s.curWarp.pend xs) (he : s.cur.strm = .e) (hd : sameUniformChoices t.draws s.draws) : s.Kept t := by
  have hiss := h.issuer
  have hcw := h.curWarp
  have hgreg := h.greg_eq hd
  have hframe := h.frame he
  obtain ⟨ws, hb, -⟩ := h
  refine ⟨hframe, ⟨fun l c _ _ => by rw [hiss]; rfl, fun n _ => ?_, ?_, fun n _ => hgreg n⟩, fun l p _ _ => ?_, ?_⟩
  · simp only [State.scalarFile, he, hiss]
    rfl
  · rw [hb.2]
  · rw [State.pred, State.pred, hb.strm, he, hcw]
    rfl
  · rw [State.fstat, State.fstat, hb.strm, he, hcw]

/-- A split that parks waits at its slot in each of its lanes, and everything else is kept. -/
theorem State.waitsForQueue_park (he : s.cur.strm = .e) (hs : s.stands = true) (w : Wait) : s.WaitsForQueue (s.park w) (· = w) := by
  have h := (State.IssuerHas.refl s).modSplit he rfl (fun x => x.stand s.cur.pc w)
    (fun x => { x with pc := s.cur.pc, wait := w, bp := if x.wait == .ready then x.bp else 0 })
  have hdraws : (s.park w).draws = s.draws := by rw [State.park, State.modSplit, he]; rfl
  refine ⟨State.IssuerHas.kept h he fun k _ => by rw [hdraws], fun l _ hl => ?_⟩
  obtain ⟨x, hx, hlanes⟩ := (State.stands_iff.mp hs).resolve_left fun hne => hne he
  refine ⟨x.stand s.cur.pc w, ?_, (congrArg (·.getLsbD l) hlanes).trans hl, rfl, rfl⟩
  rw [State.park, h.issuer]
  exact List.mem_map.mpr ⟨x, hx, if_pos hlanes⟩

/-! ### Engines set back -/

theorem State.IssuerHas.withEng {e : Eng} (h : State.IssuerHas { s with eng := e } t ps xs) : s.IssuerHas { t with eng := s.eng } ps xs := by
  obtain ⟨ws, ⟨⟨hwork, hcur, hothers⟩, hgrp⟩, hw, ho⟩ := h
  exact ⟨ws, ⟨⟨congrArg (fun x : State => { x with eng := s.eng }) hwork, hcur, hothers⟩, hgrp⟩, hw, ho⟩

theorem State.draws_engineUndone (s t : State) : (s.engineUndone t).draws = t.draws := by
  simp only [State.engineUndone, State.memoryUndone, State.modGroup_draws, State.modWarp_draws]

theorem State.Became.withMachine {e : Eng} {y : Group} (h : State.Became { s with eng := e } t y) :
    s.Became { t with mem := s.mem, eng := s.eng, faults := s.faults, nextTok := s.nextTok } y := by
  obtain ⟨⟨hwork, hcur, hothers⟩, hgrp⟩ := h
  exact ⟨⟨congrArg (fun x : State => { x with mem := s.mem, eng := s.eng, faults := s.faults, nextTok := s.nextTok }) hwork, hcur, hothers⟩, hgrp⟩

/-- A warp with the pending results and acquired reads of another. -/
def Warp.memoryOf (y x : Warp) : Warp := { y with pend := x.pend, acqs := x.acqs, relScope := x.relScope }

theorem State.IssuerHas.engineUndone {e : Eng} (h : State.IssuerHas { s with eng := e } t ps xs) :
    s.IssuerHas (s.engineUndone t) s.curWarp.pend xs := by
  obtain ⟨ws, hb, hw, ho⟩ := h
  refine ⟨Store.put ws Warp.blank s.cur.wid ((Store.get ws Warp.blank s.cur.wid).memoryOf s.curWarp),
    (((hb.modGroup (·.modWarp s.cur.wid (·.memoryOf s.curWarp))).modGroup fun x =>
      { x with scratch := s.curGroup.scratch, spoison := s.curGroup.spoison }).modGroup fun x =>
      { x with copySeq := s.curGroup.copySeq, cstat := s.curGroup.cstat }).withMachine, ?_,
    fun v hv => (Store.get_put_ne _ _ _ hv).trans (ho v hv)⟩
  rw [Store.get_put_same, hw]
  rfl

end

/-! ### Pending results (04 R108) -/

/-- A word of a lane's result, pending in a register of a destination. -/
def Warp.resultAt (w : Warp) (code tag : Nat) (kind : Nat → PendKind) (landed : Bool) (l : Nat) (p : W32 × Nat) : Pend :=
  ⟨l, w.regKey l (code + p.2) - 1024 * l, p.1, tag, kind l, landed, false⟩

/-- The results pending in a vector destination, in the order of lanes. -/
def Warp.results (w : Warp) (code tag : Nat) (kind : Nat → PendKind) (landed : Bool) (g : Lanes) (val : Nat → List W32) : List Pend :=
  (laneList g).flatMap fun l => (val l).zipIdx.map (w.resultAt code tag kind landed l)

/-- A pending result, whether or not a write has overtaken it. -/
def Pend.unclashed (p : Pend) : Pend := { p with clash := false }

/-- Results are added behind those that are pending. -/
theorem Warp.foldl_addPend (w : Warp) (rs : List Pend) :
    ∃ l, rs.foldl Warp.addPend w = { w with pend := w.pend ++ l } ∧ l.map Pend.unclashed = rs.map Pend.unclashed := by
  induction rs generalizing w with
  | nil => exact ⟨[], by simp, rfl⟩
  | cons p r ih =>
    obtain ⟨l, hl, hmap⟩ := ih (w.addPend p)
    refine ⟨{ p with clash := w.pend.any fun q => q.key == p.key } :: l, ?_, ?_⟩
    · rw [List.foldl_cons, hl]
      simp [Warp.addPend]
    · rw [List.map_cons, List.map_cons, hmap]
      rfl

theorem Warp.level_foldl_addPend (w : Warp) (rs : List Pend) : (rs.foldl Warp.addPend w).level = w.level := by
  obtain ⟨l, hl, -⟩ := w.foldl_addPend rs
  rw [hl]

section
variable {n tag : Nat} {kind : Nat → PendKind} {landed : Bool} {g : Lanes} {val : Nat → List W32}

/-- Where a result is pending depends on the level of the warp alone. -/
theorem Warp.resultAt_congr {w v : Warp} (h : w.level = v.level) (l : Nat) (p : W32 × Nat) :
    w.resultAt n tag kind landed l p = v.resultAt n tag kind landed l p := by
  simp only [Warp.resultAt, Warp.regKey, h]

theorem Warp.foldl_resultAt {w v : Warp} (h : w.level = v.level) (l : Nat) (ps : List (W32 × Nat)) :
    ps.foldl (fun w p => w.addPend (w.resultAt n tag kind landed l p)) w = (ps.map (v.resultAt n tag kind landed l)).foldl Warp.addPend w := by
  induction ps generalizing w with
  | nil => rfl
  | cons p r ih => rw [List.foldl_cons, List.map_cons, List.foldl_cons, Warp.resultAt_congr h, ih (w := w.addPend _) h]

theorem Warp.foldl_results {w v : Warp} (h : w.level = v.level) (ls : List Nat) :
    ls.foldl (fun w l => (val l).zipIdx.foldl (fun w p => w.addPend (w.resultAt n tag kind landed l p)) w) w =
      (ls.flatMap fun l => (val l).zipIdx.map (v.resultAt n tag kind landed l)).foldl Warp.addPend w := by
  induction ls generalizing w with
  | nil => rfl
  | cons l r ih =>
    rw [List.foldl_cons, List.flatMap_cons, List.foldl_append, Warp.foldl_resultAt h]
    exact ih ((Warp.level_foldl_addPend _ _).trans h)

/-- Each word of a lane's result is among those pending. -/
theorem Warp.mem_results {w : Warp} {l k : Nat} {x : W32} (hg : g.getLsbD l = true) (hk : (val l)[k]? = some x) :
    w.resultAt n tag kind landed l (x, k) ∈ w.results n tag kind landed g val := by
  refine List.mem_flatMap.mpr ⟨l, (mem_laneList g l).mpr ⟨lane_lt hg, hg⟩, List.mem_map_of_mem ?_⟩
  rw [List.mem_zipIdx_iff_getElem?]
  exact hk

/-- The key of a result pending below the registers that a handler bank replaces. -/
theorem Warp.key_resultAt (w : Warp) (l : Nat) {p : W32 × Nat} (hc : n + p.2 < 0x31C) :
    (w.resultAt n tag kind landed l p).key = w.regKey l (n + p.2) := by
  have hbank : ¬ (codeO28 ≤ n + p.2 ∧ n + p.2 < codeO28 + 4) := fun h => Nat.not_le.mpr hc h.1
  have hscalar : ¬ 0x340 ≤ n + p.2 := by omega
  have hreg : w.regKey l (n + p.2) = 1024 * l + (n + p.2) := by simp [Warp.regKey, hbank]
  rw [Warp.resultAt, hreg, Nat.add_sub_cancel_left]
  simp [Pend.key, Pend.scalar, hscalar]

end

theorem State.pendDst_v (t : State) (n : Fin 768) (kind : Nat → PendKind) (landed : Bool) (g : Lanes) (val : Nat → List W32) :
    t.pendDst (.v n) kind landed g val = t.modCurWarp fun w => (w.results n.val t.draws kind landed g val).foldl Warp.addPend w :=
  congrArg t.modCurWarp (funext fun w => Warp.foldl_results (w := w) rfl (laneList g))

section
variable {s t : State} {ps : List Pend} {xs : List Split}

theorem State.IssuerHas.pendDst (h : s.IssuerHas t ps xs) (n : Fin 768) (kind : Nat → PendKind) (landed : Bool) (g : Lanes)
    (val : Nat → List W32) : ∃ l, s.IssuerHas (t.pendDst (.v n) kind landed g val) (ps ++ l) xs ∧
      l.map Pend.unclashed = (s.curWarp.results n.val t.draws kind landed g val).map Pend.unclashed := by
  obtain ⟨l, hl, hmap⟩ := Warp.foldl_addPend { s.curWarp with pend := ps, splits := xs } (s.curWarp.results n.val t.draws kind landed g val)
  refine ⟨l, ?_, hmap⟩
  rw [State.pendDst_v]
  exact h.modCurWarp hl

/-- What has been added behind the pending results of the warp, and then more, is pending in the destination. -/
theorem State.IssuerHas.awaits {l r : List Pend} {n : Fin 768} {tag : Nat} {kind : Nat → PendKind} {g : Lanes} {val : Nat → List W32}
    (h : s.IssuerHas t (s.curWarp.pend ++ l ++ r) xs)
    (hl : l.map Pend.unclashed = (s.curWarp.results n.val tag kind false g val).map Pend.unclashed)
    (hn : ∀ k i x, (val k)[i]? = some x → n.val + i < 0x31C) : s.Awaits t (.v n) g val := by
  have hp : (s.issuer t).pend = s.curWarp.pend ++ l ++ r := congrArg Warp.pend h.issuer
  refine ⟨⟨l ++ r, by rw [hp, List.append_assoc]⟩, fun k b _ hg hb i x hx => ?_, fun _ _ _ hs => (by cases hs), fun hv => (by cases hv)⟩
  obtain rfl : n.val = b := Option.some.inj hb
  have hmem := List.mem_map_of_mem (f := Pend.unclashed)
    (Warp.mem_results (w := s.curWarp) (n := n.val) (tag := tag) (kind := kind) (landed := false) hg hx)
  rw [← hl] at hmem
  obtain ⟨p, hpl, heq⟩ := List.mem_map.mp hmem
  have hkey : p.unclashed.key = _ := congrArg Pend.key heq
  have hval : p.val = x := congrArg Pend.val heq
  have hlanded : p.landed = false := congrArg Pend.landed heq
  exact ⟨p, hp ▸ List.mem_append_left _ (List.mem_append_right _ hpl), hkey.trans (Warp.key_resultAt _ k (hn k i x hx)), hval, hlanded⟩

end

/-! ### What an issue leaves outside its warp -/

theorem State.outside_modSplit (t : State) (F : Split → List Split) (G : Stream → Stream) :
    (t.modSplit F G).cur = t.cur ∧ (t.modSplit F G).eng = t.eng ∧ (t.modSplit F G).mem = t.mem ∧ (t.modSplit F G).draws = t.draws := by
  unfold State.modSplit
  split <;> exact ⟨rfl, rfl, rfl, rfl⟩

theorem State.outside_advance (t : State) : t.advance.cur = { t.cur with done := true } ∧ t.advance.eng = t.eng ∧ t.advance.mem = t.mem ∧
    t.advance.draws = t.draws + 1 := by
  obtain ⟨-, heng, hmem, hdraws⟩ := t.outside_modSplit (fun x => [{ x with pc := t.cur.npc, wait := .ready, bp := 0, wd := 0 }])
    fun x => { x with pc := t.cur.npc, wait := .ready, bp := 0 }
  exact ⟨t.cur_advance, heng, hmem, congrArg (· + 1) hdraws⟩

end Sys2Proof.Machine
end

section
/-!
SUPPORT. The traversal forms (spec/11_traversal_unit.md R303, R323, R324, R328): the checks of their addresses, the rays that they start, and the rays
that `rtsave` asks to stop.
-/

namespace Sys2Proof.Machine

/-! ### Forms of the E-stream without queue sources -/

/-- The field may name a queue to pop. -/
def slotPopsQueue : Slot → Bool
  | .src _ q => q
  | _ => false

/-- A form none of whose fields may name a queue pops none. -/
theorem queuesOf_eq_nil {f : Full} {sh : Shape} (hw : f.wf sh = true) (hs : ∀ sl ∈ [sh.a, sh.b, sh.c, sh.d], slotPopsQueue sl = false) :
    queuesOf f sh = [] := by
  obtain ⟨hd, ha, hb, hc⟩ := Full.wf_fields hw
  have hok : ∀ p ∈ fieldsOf f sh, p.1.ok p.2 = true ∧ p.1 ∈ [sh.a, sh.b, sh.c, sh.d] := by simp [fieldsOf, ha, hb, hc, hd]
  unfold queuesOf
  rw [List.filterMap_eq_nil_iff.mpr, List.dedup_nil]
  rintro ⟨sl, x⟩ hp
  obtain ⟨hslot, hmem⟩ := hok _ hp
  dsimp only at hslot hmem ⊢
  split
  · next q n => exact absurd ((hs _ hmem).symm.trans hslot) nofun
  · rfl

/-- A form of the traversal unit: a full word, of the E-stream alone, without queue sources (11 R323). -/
structure TraversalForm (i : Instr) (f : Full) : Prop where
  full : ∃ r, rawOf i = some (f, r)
  noQueues : ∀ sl ∈ [(shapeOf i).a, (shapeOf i).b, (shapeOf i).c, (shapeOf i).d], slotPopsQueue sl = false
  notA : streamMay .a (opcOf i) = false
  notM : streamMay .m (opcOf i) = false

theorem traversalForm_rtbvh (f : Full) (any : Bool) (sp : Space) : TraversalForm (.rtbvh f any sp) f :=
  ⟨⟨_, rfl⟩, by simp [shapeOf, slotPopsQueue], rfl, rfl⟩

theorem traversalForm_rtmesh (f : Full) (mode : Fin 4) (sp : Space) : TraversalForm (.rtmesh f mode sp) f := by
  refine ⟨⟨_, rfl⟩, ?_, rfl, rfl⟩
  by_cases h : mode.val == 3 <;> simp [shapeOf, slotPopsQueue, h]

theorem traversalForm_rtloc (f : Full) (sp : Space) : TraversalForm (.rtloc f sp) f :=
  ⟨⟨_, rfl⟩, by simp [shapeOf, slotPopsQueue], rfl, rfl⟩

theorem traversalForm_rtres (f : Full) (sp : Space) : TraversalForm (.rtres f sp) f :=
  ⟨⟨_, rfl⟩, by simp [shapeOf, slotPopsQueue], rfl, rfl⟩

theorem traversalForm_rtsave (f : Full) : TraversalForm (.rtsave f) f :=
  ⟨⟨_, rfl⟩, by simp [shapeOf, slotPopsQueue], rfl, rfl⟩

section
variable {s : State} {i : Instr} {f : Full} (hi : TraversalForm i f) (he : s.executes i f = true)
include hi he

theorem TraversalForm.strm : s.cur.strm = .e := State.strm_of_executes he hi.notA hi.notM

theorem TraversalForm.wf : f.wf (shapeOf i) = true := by
  obtain ⟨r, hr⟩ := hi.full
  exact (Instr.wf_full hr ((State.executes_iff s i f).mp he).1).1

/-- A traversal form that completes has its own effect and no other. -/
theorem TraversalForm.exec_of_done {body : State → State} (hx : exec i s = s.issue i f body) (hc : (body s).cur = { s.cur with done := true }) :
    exec i s = .next (body s) := by
  have hq : s.queuesRead i f = [] := by rw [State.queuesRead, queuesOf_eq_nil (hi.wf he) hi.noQueues, ite_self]
  rw [Machine.exec_of_done hx he hc, hq, State.popQueues_nil]

/-- The destination is the first of four vector registers. -/
theorem TraversalForm.dst (hd : (shapeOf i).d = .vrun 4 4) : ∃ n : Fin 768, f.d = .v n ∧ n.val ≤ 764 := by
  obtain ⟨hok, -⟩ := Full.wf_fields (hi.wf he)
  rw [hd] at hok
  cases hfd : f.d with
  | v n =>
    rw [hfd] at hok
    have hmod : n.val % 4 = 0 := eq_of_beq hok
    exact ⟨n, rfl, by omega⟩
  | _ => rw [hfd] at hok; cases hok

end

/-! ### Checks and room -/

/-- The mask of a fault: the failing lanes with its cause. -/
theorem rayMask_eq (q : Nat × Space × AccFault) (l : List (Nat × Space × AccFault)) :
    l.foldl (fun m p => if p.2.2.cause = q.2.2.cause then m ||| laneBit p.1 else m) (laneBit q.1) =
      lanesWhere fun k => (q :: l).any fun p => p.1 == k && p.2.2.cause == q.2.2.cause := by
  have key (m : Lanes) {k : Nat} (hk : k < 64) :
      (l.foldl (fun m p => if p.2.2.cause = q.2.2.cause then m ||| laneBit p.1 else m) m).getLsbD k =
        (m.getLsbD k || l.any fun p => p.1 == k && p.2.2.cause == q.2.2.cause) := by
    induction l generalizing m with
    | nil => simp
    | cons p r ih =>
      rw [List.foldl_cons, ih, List.any_cons, ← Bool.or_assoc]
      congr 1
      by_cases hc : p.2.2.cause = q.2.2.cause
      · rw [if_pos hc, BitVec.getLsbD_or, getLsbD_laneBit hk, beq_iff_eq.mpr hc, Bool.and_true]
        rfl
      · rw [if_neg hc, beq_eq_false_iff_ne.mpr hc, Bool.and_false, Bool.or_false]
  refine BitVec.eq_of_getLsbD_eq fun k hk => ?_
  rw [key _ hk, getLsbD_lanesWhere, getLsbD_laneBit hk, List.any_cons, decide_eq_true hk, Bool.true_and, beq_self_eq_true, Bool.and_true]
  rfl

section
variable (s : State) (f : Full) (sp : Space) (form mode : Nat) (any : Bool) (param : Nat → W32)

/-- The ray that a form starts for a lane (11 R324). -/
def State.newRay (l : Nat) : Ray :=
  { Ray.blank with
    used := true, grp := s.cur.grp, wid := s.cur.wid, lane := l
    dreg := (match f.d with | .v n => n.val | _ => 0)
    tag := s.draws, slotPc := s.cur.pc, rsb := s.src f f.a (sp == .g) l, space := sp, desc := s.src f f.b true l
    form := form, any := any, mode := mode, param := param l }

/-- The state with a ray for each guard-true live lane in the core's unit. -/
def State.withNewRays : State :=
  { s with eng := { s.eng with
      rays := (laneList (s.gLive f)).foldl (fun st l => Store.put st Ray.blank (s.eng.nextId + l) (s.newRay f sp form mode any param l)) s.eng.rays
      nextId := s.eng.nextId + 64 } }

theorem State.foldl_setRay (t : State) (key : Nat → Nat) (r : Nat → Ray) (ls : List Nat) : ls.foldl (fun t l => t.setRay (key l) (r l)) t =
    { t with eng := { t.eng with rays := ls.foldl (fun st l => Store.put st Ray.blank (key l) (r l)) t.eng.rays } } := by
  induction ls generalizing t with
  | nil => rfl
  | cons l r ih => rw [List.foldl_cons, ih]; rfl

theorem Store.get_foldl_put {α : Type} [DecidableEq α] (d : α) {key : Nat → Nat} (hkey : Function.Injective key) (val : Nat → α) (ls : List Nat)
    (st : Store α) (l : Nat) : Store.get (ls.foldl (fun st k => Store.put st d (key k) (val k)) st) d (key l) =
      if l ∈ ls then val l else Store.get st d (key l) := by
  induction ls generalizing st with
  | nil => rfl
  | cons k r ih =>
    rw [List.foldl_cons, ih, Store.get_put]
    by_cases hlk : l = k
    · simp [hlk]
    · simp [hlk, hkey.ne hlk]

theorem State.ray_withNewRays {l : Nat} (hg : (s.gLive f).getLsbD l = true) :
    (s.withNewRays f sp form mode any param).ray (s.eng.nextId + l) = s.newRay f sp form mode any param l :=
  (Store.get_foldl_put Ray.blank (add_right_injective s.eng.nextId) _ _ _ l).trans (if_pos ((mem_laneList _ l).mpr ⟨lane_lt hg, hg⟩))

/-- A lane whose addresses fail traps the form (11 R323). -/
theorem State.startRays_of_failing {l : Nat} {p : Space} {e : AccFault} {r : List (Nat × Space × AccFault)} (h : s.rayChecks f sp = (l, p, e) :: r) :
    s.startRays f sp form mode any param = s.trap (s.mkTrap e.cause
      (lanesWhere fun l => (s.rayChecks f sp).any fun q => q.1 == l && q.2.2.cause == e.cause) (BitVec.ofNat 64 (16 * p.code.toNat)) e.addr 0 0) := by
  unfold State.startRays
  rw [h]
  exact congrArg (fun m => s.trap (s.mkTrap e.cause m _ e.addr 0 0)) (rayMask_eq (l, p, e) r)

section
variable (hchecks : s.rayChecks f sp = [])
include hchecks

/-- Behind an earlier request, or without room, the split waits (01 R21; 11 R303). -/
theorem State.startRays_of_full (hfull : s.requestAhead = true ∨ 1024 < s.rayCount s.curGroup.pcore + (laneList (s.gLive f)).length) :
    s.startRays f sp form mode any param = s.park (.trav (laneList (s.gLive f)).length) := by
  have hif : (s.requestAhead || !s.rayRoom s.curGroup.pcore (laneList (s.gLive f)).length) = true := by
    simpa [State.rayRoom] using hfull
  unfold State.startRays
  rw [hchecks]
  exact if_pos hif

theorem State.startRays_of_room (hroom : ¬ (s.requestAhead = true ∨ 1024 < s.rayCount s.curGroup.pcore + (laneList (s.gLive f)).length)) :
    s.startRays f sp form mode any param =
      ((((s.withNewRays f sp form mode any param).pendDst f.d (fun l => .trav (s.eng.nextId + l)) false (s.gLive f) fun _ => [0, 0, 0, 0]).pendDst f.d
        (fun _ => .mem) true (s.helperLanes f) fun _ => [0, 0, 0, 0]).modSplit (fun x => [{ x with req := 0 }]) fun z => z).advance := by
  have hif : (s.requestAhead || !s.rayRoom s.curGroup.pcore (laneList (s.gLive f)).length) = false := by
    simpa [State.rayRoom] using hroom
  unfold State.startRays
  rw [hchecks]
  dsimp only
  rw [hif, State.foldl_setRay]
  rfl

end

end

/-! ### A form that is accepted -/

/-- A form has been accepted: its rays stand in the unit, four words are pending in its destination for each of them, and the split goes on. -/
structure State.Started (s t : State) (f : Full) (sp : Space) (form mode : Nat) (any : Bool) (param : Nat → W32) : Prop where
  undone : ∃ xs, s.IssuerHas (s.engineUndone t) s.curWarp.pend xs
  draws : t.draws = s.draws + 1
  mem : t.mem = s.mem
  window : s.SameWindow t
  splits : (s.issuer t).splits = s.curWarp.splits.map fun x =>
    if x.lanes = s.cur.lanes then { x with pc := s.cur.npc, wait := .ready, bp := 0, wd := 0, req := 0 } else x
  awaits : s.Awaits t f.d (s.gLive f) fun _ => [0, 0, 0, 0]
  rays : ∀ l, (s.gLive f).getLsbD l = true → t.ray (s.eng.nextId + l) = s.newRay f sp form mode any param l

theorem TraversalForm.started {s : State} {i : Instr} {f : Full} {sp : Space} {form mode : Nat} {any : Bool} {param : Nat → W32}
    (hi : TraversalForm i f) (hd : (shapeOf i).d = .vrun 4 4) (he : s.executes i f = true)
    {body : State → State} (hx : exec i s = s.issue i f body) (hb : body s = s.startRays f sp form mode any param) (hchecks : s.rayChecks f sp = [])
    (hroom : ¬ (s.requestAhead = true ∨ 1024 < s.rayCount s.curGroup.pcore + (laneList (s.gLive f)).length)) :
    ∃ t, exec i s = .next t ∧ s.Started t f sp form mode any param := by
  obtain ⟨n, hfd, hn⟩ := hi.dst he hd
  have hstrm := hi.strm he
  have hbody := hb.trans (s.startRays_of_room f sp form mode any param hchecks hroom)
  rw [hfd] at hbody
  let s0 := s.withNewRays f sp form mode any param
  obtain ⟨l, h1, hl⟩ := (State.IssuerHas.refl s0).pendDst n (fun l => .trav (s.eng.nextId + l)) false (s.gLive f) fun _ => [0, 0, 0, 0]
  obtain ⟨r, h2, -⟩ := h1.pendDst n (fun _ => .mem) true (s.helperLanes f) fun _ => [0, 0, 0, 0]
  let t1 := s0.pendDst (.v n) (fun l => .trav (s.eng.nextId + l)) false (s.gLive f) fun _ => [0, 0, 0, 0]
  let t2 := t1.pendDst (.v n) (fun _ => .mem) true (s.helperLanes f) fun _ => [0, 0, 0, 0]
  let t3 := t2.modSplit (fun x => [{ x with req := 0 }]) fun z => z
  obtain ⟨hcur3, heng3, hmem3, hdraws3⟩ := t2.outside_modSplit (fun x => [{ x with req := 0 }]) fun z => z
  obtain ⟨hcur, heng, hmem, hdraws⟩ := t3.outside_advance
  have hcur3 : t3.cur = s.cur := hcur3
  have heng : t3.advance.eng = s0.eng := heng.trans heng3
  have h3 : s0.IssuerHas t3.advance (s.curWarp.pend ++ l ++ r) (s.curWarp.splits.map fun x =>
      if x.lanes = s.cur.lanes then { x with pc := s.cur.npc, wait := .ready, bp := 0, wd := 0, req := 0 } else x) := by
    have h := (h2.modSplit (t := t2) hstrm rfl (fun x => { x with req := 0 }) fun z => z).advance hstrm hcur3
    have hs0 : s0.cur = s.cur := rfl
    rw [List.map_map] at h
    refine (congrArg (s0.IssuerHas t3.advance (s.curWarp.pend ++ l ++ r)) (List.map_congr_left fun x _ => ?_)).mp h
    rw [Function.comp_apply]
    by_cases hx : x.lanes = s.cur.lanes
    · simp [hx, hs0]
    · simp [hx, hs0]
  refine ⟨t3.advance, hbody ▸ hi.exec_of_done he hx (by rw [hbody, hcur, hcur3]), ⟨_, h3.engineUndone⟩, hdraws.trans (congrArg (· + 1) hdraws3),
    hmem.trans hmem3, h3.sameWindow, congrArg Warp.splits h3.issuer, ?_, fun l hg => ?_⟩
  · rw [hfd]
    refine h3.awaits (s := s0) hl fun k i x hx => ?_
    have hlt : i < 4 := (List.getElem?_eq_some_iff.mp hx).1
    omega
  · rw [State.ray, heng]
    exact s.ray_withNewRays f sp form mode any param hg

/-! ### The meanings of the forms -/

theorem exec_rtbvh (f : Full) (any : Bool) (sp : Space) (s : State) : exec (.rtbvh f any sp) s =
    s.issue (.rtbvh f any sp) f fun s => s.startRays f sp 0 (if any then 1 else 0) any fun _ => 0 := rfl

theorem exec_rtmesh (f : Full) (mode : Fin 4) (sp : Space) (s : State) : exec (.rtmesh f mode sp) s = s.issue (.rtmesh f mode sp) f fun s =>
    s.startRays f sp 1 (2 + mode.val) false fun l => if mode.val = 3 then 0 else s.src32 f f.c l := rfl

theorem exec_rtloc (f : Full) (sp : Space) (s : State) : exec (.rtloc f sp) s =
    s.issue (.rtloc f sp) f fun s => s.startRays f sp 2 6 false fun _ => 0 := rfl

theorem exec_rtres (f : Full) (sp : Space) (s : State) : exec (.rtres f sp) s =
    s.issue (.rtres f sp) f fun s => s.startRays f sp 3 0 false fun _ => 0 := rfl

/-! ### `rtsave` (11 R328) -/

/-- A ray as `rtsave` leaves it: asked to stop where its results are still outstanding in a guard-true live lane. -/
def State.savedRay (s : State) (f : Full) (n : Nat) (r : Ray) : Ray :=
  if r.used && r.grp == s.cur.grp && s.curWarp.hasRay (s.gLive f) n then { r with susp := true } else r

theorem exec_rtsave (f : Full) (s : State) : exec (.rtsave f) s = s.issue (.rtsave f) f fun s =>
    State.advance { s with eng := { s.eng with rays := s.eng.rays.map fun p =>
      if p.2.used && p.2.grp == s.cur.grp && s.curWarp.hasRay (s.gLive f) p.1 then (p.1, { p.2 with susp := true }) else p } } := rfl

/-- Changed in place by their numbers, entries read as changed, where the default is left as it is. -/
theorem Store.get_map_key {α : Type} (d : α) (g : Nat → α → α) (st : Store α) {n : Nat} (hd : g n d = d) :
    Store.get (st.map fun p => (p.1, g p.1 p.2)) d n = g n (Store.get st d n) := by
  induction st with
  | nil => exact hd.symm
  | cons p r ih =>
    rw [List.map_cons, Store.get, Store.get, ih]
    split
    · next h => rw [h]
    · rfl

theorem rtsaveResults {s : State} {f : Full} (he : s.executes (.rtsave f) f = true) : ∃ t xs, exec (.rtsave f) s = .next t ∧
    s.IssuerHas { t with eng := s.eng } s.curWarp.pend xs ∧ t.draws = s.draws + 1 ∧ s.Advanced t ∧ t.eng = { s.eng with rays := t.eng.rays } ∧
    ∀ n, t.ray n = s.savedRay f n (s.ray n) := by
  have hi := traversalForm_rtsave f
  have hstrm := hi.strm he
  let e : Eng := { s.eng with rays := s.eng.rays.map fun p =>
    if p.2.used && p.2.grp == s.cur.grp && s.curWarp.hasRay (s.gLive f) p.1 then (p.1, { p.2 with susp := true }) else p }
  have hrays : e.rays = s.eng.rays.map fun p => (p.1, s.savedRay f p.1 p.2) := List.map_congr_left fun p _ => by
    rw [State.savedRay]
    split <;> rfl
  let s0 : State := { s with eng := e }
  have h := (State.IssuerHas.refl s0).advance hstrm rfl
  obtain ⟨hcur, heng, -, hdraws⟩ := s0.outside_advance
  refine ⟨s0.advance, _, hi.exec_of_done he (exec_rtsave f s) hcur, h.withEng, hdraws, ?_,
    heng.trans (congrArg (fun x : Eng => { s.eng with rays := x.rays }) heng.symm), fun n => ?_⟩
  · simp only [State.Advanced, hstrm]
    exact congrArg Warp.splits h.issuer
  · rw [State.ray, heng, hrays]
    exact Store.get_map_key Ray.blank (s.savedRay f) s.eng.rays rfl

end Sys2Proof.Machine
end

section
/-!
SUPPORT. What the statement of the traversal forms rests on. It asks that every group-uniform register read as before, while a form that completes
moves on to the next occasion of a free choice, on which a warp may read a write that it has not synchronised with otherwise
(spec/03_decoupled_streams.md R61). Everything else that is stated holds, so the statement is as good as that every occasion brings the same choices,
of which the model says nothing (`Config.choiceAt` is opaque).
-/

namespace Sys2Proof.Machine

/-- The forms do all that is stated where the next occasion brings the same choices. -/
theorem traversalFormResults_of_same (hsame : ∀ n, sameUniformChoices (n + 1) n) : Obligations.TraversalFormResults := by
  intro f any mode sp s hst starts
  have hstarts {i : Instr} {form md : Nat} {an : Bool} {param : Nat → W32} {body : State → State} (hi : TraversalForm i f)
      (hd : (shapeOf i).d = .vrun 4 4) (hx : exec i s = s.issue i f body) (hb : body s = s.startRays f sp form md an param) :
      starts i form md an param := by
    intro he
    cases hchecks : s.rayChecks f sp with
    | cons q r =>
      obtain ⟨l, p, e⟩ := q
      have h := hb.trans (s.startRays_of_failing f sp form md an param hchecks)
      rw [hchecks] at h
      exact exec_of_trap hx he h
    | nil =>
      dsimp only
      by_cases hfull : s.requestAhead = true ∨ 1024 < s.rayCount s.curGroup.pcore + (laneList (s.gLive f)).length
      · have h := hb.trans (s.startRays_of_full f sp form md an param hchecks hfull)
        refine ⟨_, exec_of_cur hx he (h ▸ s.cur_park _), ?_⟩
        rw [if_pos hfull, h]
        exact State.waitsForQueue_park (hi.strm he) hst _
      · obtain ⟨t, ht, ⟨xs, hundone⟩, hdraws, hmem, hwindow, hsplits, hawaits, hrays⟩ := hi.started hd he hx hb hchecks hfull
        have hchoices : sameUniformChoices (s.engineUndone t).draws s.draws := by
          rw [s.draws_engineUndone, hdraws]
          exact hsame _
        refine ⟨t, ht, ?_⟩
        rw [if_neg hfull]
        refine ⟨hundone.kept (hi.strm he) hchoices, hmem, hwindow, hsplits, hawaits, fun l _ hg => ⟨s.eng.nextId + l, ?_⟩⟩
        rw [hrays l hg]
        exact ⟨rfl, rfl, rfl, rfl, rfl, rfl, rfl, rfl, rfl, rfl, rfl, rfl, rfl, rfl, rfl⟩
  refine ⟨hstarts (traversalForm_rtbvh f any sp) rfl (exec_rtbvh f any sp s) rfl, hstarts (traversalForm_rtmesh f mode sp) rfl (exec_rtmesh f mode sp s) rfl,
    hstarts (traversalForm_rtloc f sp) rfl (exec_rtloc f sp s) rfl, hstarts (traversalForm_rtres f sp) rfl (exec_rtres f sp s) rfl, fun he => ?_⟩
  obtain ⟨t, xs, hexec, hhas, hdraws, hadvanced, heng, hrays⟩ := rtsaveResults he
  have hchoices : sameUniformChoices t.draws s.draws := hdraws ▸ hsame _
  exact ⟨t, hexec, hhas.kept ((traversalForm_rtsave f).strm he) hchoices, hadvanced, heng, hrays⟩

/-! ### A write that the warp need not have seen -/

/-- `rtsave` in every lane. -/
def saveAll : Full := { Full.blank with guard := 7 }

/-- 16 live lanes at an issue of the E-stream on occasion n, and a write of 1 to g0, of number k + 1, that the warp has not synchronised with. -/
def unseenWrite (n k : Nat) : State :=
  { State.reset.withSoloContext with
    draws := n
    groups := [(1, { soloGroup .e with gw := [⟨k + 1, 0, 1⟩] })]
    cohorts := [(1, ⟨0, [1], []⟩)]
    cur := ⟨true, 1, .e, 0, 0xFFFF, 0x10008, 0x10020, 0, 0, false, false, none⟩ }

theorem executes_saveAll {s : State} (hfresh : s.cur.fresh = true) (he : s.cur.strm = .e) (hfeature : s.masked 1 = false) :
    s.executes (.rtsave saveAll) saveAll = true := by
  have hcode : s.codeTrap (opcOf (.rtsave saveAll)) = none := by
    change s.codeTrap 0x3A4 = none
    simp [State.codeTrap, featureOf, hfeature, he, streamMay, onlyA, onlyM, Option.filter]
  have hhazard : s.hazard (.rtsave saveAll) saveAll = none := ite_self _
  have htrap : s.issueTrap (.rtsave saveAll) saveAll = none := by
    rw [State.issueTrap, hcode]
    exact hhazard
  have hqs : s.queuesRead (.rtsave saveAll) saveAll = [] := ite_self _
  refine (State.executes_iff ..).mpr ⟨by decide, ?_, htrap, by rw [hqs]; rfl⟩
  simpa [Cur.fresh, and_assoc] using hfresh

theorem executes_unseenWrite (n k : Nat) : (unseenWrite n k).executes (.rtsave saveAll) saveAll = true := by
  have hmask : State.reset.withSoloContext.svcLevel = 0 ∧ (State.reset.withSoloContext.ctx 0).fmask.getLsbD 1 = false := by decide +kernel
  have hpart : ((unseenWrite n k).group 1).part = 0 := rfl
  have hasid : ((unseenWrite n k).group 1).asid = 0 := rfl
  have hkey : ((unseenWrite n k).group 1).ctxKey = 0 := by rw [Group.ctxKey, hpart, hasid, Machine.ctxKey, Nat.zero_mul]
  have hctx : (unseenWrite n k).gctx 1 = State.reset.withSoloContext.ctx 0 := by
    rw [State.gctx, hkey]
    rfl
  have hlevel : (unseenWrite n k).svcLevel = State.reset.withSoloContext.svcLevel := rfl
  refine executes_saveAll rfl rfl ?_
  change (((unseenWrite n k).gctx 1).fmask.getLsbD 1 || ((unseenWrite n k).svcLevel == 2 && true)) = false
  rw [hctx, hlevel, hmask.1, hmask.2]
  rfl

/-- The warp reads the write or not as the occasion has it. -/
theorem State.IssuerHas.greg_unseenWrite {n k : Nat} {t : State} {ps : List Pend} {xs : List Split} (h : (unseenWrite n k).IssuerHas t ps xs) :
    t.greg 0 = if Config.choiceAt t.draws (8192 + (k + 1)) then 1 else 0 := by
  obtain ⟨ws, hb, -⟩ := h
  have hstrm : t.cur.strm = .e := hb.strm
  have hgroup : (unseenWrite n k).curGroup = { soloGroup .e with gw := [⟨k + 1, 0, 1⟩] } := rfl
  have hseen : Store.get (soloGroup .e).gseen 0 t.cur.reader = 0 := rfl
  have hbase : Store.get (soloGroup .e).gbase 0#32 0 = 0#32 := rfl
  unfold State.greg
  rw [hb.curGroup, hstrm, hgroup]
  simp [hseen, hbase]

/-- The statement gives that the next occasion brings the same choices. -/
theorem sameUniformChoices_of_traversalFormResults (h : Obligations.TraversalFormResults) (n : Nat) : sameUniformChoices (n + 1) n := by
  intro e he
  obtain ⟨k, rfl⟩ := Nat.exists_eq_add_of_lt he
  have hx := executes_unseenWrite n k
  obtain ⟨-, -, -, -, hsave⟩ := h saveAll false 0 .s (unseenWrite n k) rfl
  obtain ⟨t, hexec, ⟨-, ⟨-, -, -, hgreg⟩, -⟩, -⟩ := hsave hx
  obtain ⟨u, xs, hexec', hhas, hdraws, -⟩ := rtsaveResults hx
  obtain rfl : t = u := Host.Outcome.next.inj (hexec.symm.trans hexec')
  have hreg := hgreg 0 (by decide)
  have hdraws : ({ t with eng := (unseenWrite n k).eng } : State).draws = n + 1 := hdraws
  have hdraws' : (unseenWrite n k).draws = n := rfl
  rw [hhas.greg_unseenWrite, (State.IssuerHas.refl _).greg_unseenWrite, hdraws, hdraws'] at hreg
  have hbit (b : Bool) : (if b then (1 : W32) else 0) = 1 ↔ b = true := by cases b <;> decide
  rw [Nat.add_assoc]
  exact Bool.eq_iff_iff.mpr ((hbit _).symm.trans ((iff_of_eq (congrArg (· = 1) hreg)).trans (hbit _)))

/-- The statement of the traversal forms holds exactly where every occasion brings the same choices among unseen group-uniform writes. -/
theorem traversalFormResults_iff : Obligations.TraversalFormResults ↔ ∀ n, sameUniformChoices (n + 1) n :=
  ⟨sameUniformChoices_of_traversalFormResults, traversalFormResults_of_same⟩

end Sys2Proof.Machine
end

section
/-!
SUPPORT. A texture request that met a fault (spec/12_graphics_pipeline.md R351; spec/17_privileged_traps.md R420): how its results land in the warp
of its lane, and what each verdict makes of it.
-/

namespace Sys2Proof.Machine

/-! ### Requests by number -/

theorem State.tex_setTex (s : State) (id : Nat) (q : TexReq) : (s.setTex id q).tex id = q := Store.get_put_same _ _ _ _

/-- A fault that is posted changes the faults outstanding and no other part of the machine. -/
theorem State.postFault_changes (s : State) (r : FaultReq) : ∃ n l, (s.postFault r).2 = { s with nextTok := n, faults := l } := by
  unfold State.postFault
  split <;> exact ⟨_, _, rfl⟩

/-- A request that meets a fault notes its cause and address, and the verdict that it waits for if the fault goes to the server. -/
theorem State.texFault_eq (s : State) (id : Nat) (q : TexReq) (f : AccFault) : ∃ n l tok,
    s.texFault id q f = ({ s with nextTok := n, faults := l } : State).setTex id { q with cause := f.cause, addr := f.addr, tok := tok } ∧
      tok.isSome = f.kind.isSome := by
  unfold State.texFault
  cases f.kind with
  | none => exact ⟨s.nextTok, s.faults, none, rfl, rfl⟩
  | some k =>
    obtain ⟨n, l, hpost⟩ := s.postFault_changes (s.texRecord q f k)
    exact ⟨n, l, some (s.postFault (s.texRecord q f k)).1, by rw [← hpost], rfl⟩

/-! ### Landing -/

/-- From u to t a request has ended: the words pending for it have landed with the values given, in the warp of its lane, where a fatal fault stays
for its marker. -/
def TexReq.Landed (q : TexReq) (id : Nat) (u t : State) (fatal : Bool) (val : Nat → W32) : Prop :=
  (t.tex id).used = false ∧ t.mem = u.mem ∧
    ∀ w, (t.warp q.grp w).pend = ((u.warp q.grp w).pend.map fun p => if p.kind = .tex id then { p with val := val (p.reg % 4), landed := true } else p) ∧
      (t.warp q.grp w).errs = match (u.warp q.grp w).pend.find? fun p => p.kind == .tex id with
        | some p => if fatal then (u.warp q.grp w).errs ++ [⟨p.lane, q.cause, 0, q.slotPc, q.desc, q.addr, false⟩] else (u.warp q.grp w).errs
        | none => (u.warp q.grp w).errs

theorem State.warp_landTex (u : State) (id : Nat) (q : TexReq) (fatal : Bool) (v : List W32) (w : Nat) :
    (u.landTex id q fatal v).warp q.grp w = (u.warp q.grp w).landTex id q fatal v := by
  have hgroup := u.group_modGroup q.grp fun x => { x with warps := x.warps.map fun p => (p.1, p.2.landTex id q fatal v) }
  have hwarp : (u.landTex id q fatal v).warp q.grp w = _ := congrArg (·.warp w) hgroup
  rw [hwarp]
  exact Store.get_map (u.group q.grp).warps (·.landTex id q fatal v) Warp.blank w

theorem State.landed_landTex (u : State) (id : Nat) (q : TexReq) (fatal : Bool) (v : List W32) :
    q.Landed id u (u.landTex id q fatal v) fatal fun k => v.getD k 0 := by
  refine ⟨congrArg TexReq.used (State.tex_setTex _ id TexReq.blank), rfl, fun w => ?_⟩
  rw [u.warp_landTex]
  refine ⟨?_, ?_⟩
  · simp only [Warp.landTex, beq_iff_eq]
  · simp only [Warp.landTex]
    cases (u.warp q.grp w).pend.find? fun p => p.kind == .tex id <;> rfl

theorem TexReq.Landed.draw {q : TexReq} {id : Nat} {u t : State} {fatal : Bool} {val : Nat → W32} (h : q.Landed id u t fatal val) :
    q.Landed id u t.draw fatal val := h

/-- A request that fails lands with values of no meaning. -/
theorem State.landed_failTex (s : State) (id : Nat) (q : TexReq) : ∃ val, q.Landed id s (s.failTex id q) true val :=
  ⟨_, (s.landed_landTex id q true _).draw⟩

/-! ### Verdicts -/

section
variable {s : State} {id : Nat}

theorem State.settleTex_of_free (h : (s.tex id).used = false) : s.settleTex id = s := by
  simp [State.settleTex, h]

variable (hused : (s.tex id).used = true)
include hused

/-- A fault that needs no verdict ends its request. -/
theorem State.settleTex_of_no_verdict (h : (s.tex id).tok = none) : s.settleTex id = s.failTex id (s.tex id) := by
  simp [State.settleTex, hused, h]

section
variable {n : Nat} (htok : (s.tex id).tok = some n)
include htok

theorem State.settleTex_of_waiting (hv : s.verdictOf n = 0) : s.settleTex id = s := by
  simp [State.settleTex, hused, htok, hv]

theorem State.settleTex_of_ok (hv : s.verdictOf n = 1) {x : List W32 × State} (hr : (s.tex id).result s = .ok x) :
    s.settleTex id = x.2.landTex id (s.tex id) false x.1 := by
  simp [State.settleTex, hused, htok, hv, hr]

theorem State.settleTex_of_error (hv : s.verdictOf n = 1) {e : AccFault} (hr : (s.tex id).result s = .error e) :
    s.settleTex id = s.texFault id (s.tex id) e := by
  simp [State.settleTex, hused, htok, hv, hr]

theorem State.settleTex_of_fatal {k : Nat} (hv : s.verdictOf n = k + 2) : s.settleTex id = s.failTex id (s.tex id) := by
  simp [State.settleTex, hused, htok, hv]

end

end

/-- Settles O45: a request that is still in use fails without a verdict to come or after FATAL, waits for one, or is made again. -/
theorem textureRequestResults : Obligations.TextureRequestResults := by
  intro s id
  refine ⟨State.settleTex_of_free, fun hused => ?_⟩
  cases htok : (s.tex id).tok with
  | none =>
    rw [State.settleTex_of_no_verdict hused htok]
    exact s.landed_failTex id (s.tex id)
  | some n =>
    rw [Option.map_some]
    match hv : s.verdictOf n with
    | 0 => exact State.settleTex_of_waiting hused htok hv
    | 1 =>
      cases hr : (s.tex id).result s with
      | ok x =>
        rw [State.settleTex_of_ok hused htok hv hr]
        exact x.2.landed_landTex id (s.tex id) false x.1
      | error e =>
        obtain ⟨n, l, tok, hfault, -⟩ := s.texFault_eq id (s.tex id) e
        dsimp only
        rw [State.settleTex_of_error hused htok hv hr, hfault, State.tex_setTex]
        exact ⟨hused, rfl, rfl, rfl, rfl⟩
    | _ + 2 =>
      rw [State.settleTex_of_fatal hused htok hv]
      exact s.landed_failTex id (s.tex id)

end Sys2Proof.Machine
end

section
/-!
SUPPORT. A completion word whose count writes other bytes back (spec/08_memory_model.md R206, R214; spec/12_graphics_pipeline.md R334). The count is an
atomic release at .dev, which continues the sequence of the release before it: where that release names a cluster cache, the cache's dirty lines of its
context merge at the home slices before the new record replaces the old one.
-/

namespace Sys2Proof.Machine

/-- A record of no tiles that is done, with its completion word at 0x10100. -/
def doneDraw : Draw := { Draw.blank with used := true, record := BitVec.ofNat 512 (0x10100 / 8 * 2 ^ 448) }

/-- The line of 0x10180, its first byte dirty. -/
def dirtyNeighbour : Line := { newLine ⟨0, 0, 0x203⟩ 0x203 0 with valid := 1, dirty := 1, data := 7 }

/-- A lane of cluster 0 has released the completion word, and its cluster cache has become dirty since. -/
def releasedWord : State :=
  let s := State.reset.withSoloContext
  { s with
    mem := { s.mem with rel := [⟨none, none, 0x10100, 8, 0, [.cc 0]⟩], cc := [(0, [dirtyNeighbour])] }
    eng := { s.eng with draws := [(6, doneDraw)] } }

/-- The neighbouring byte of home memory after one step of a machine. -/
def neighbourAfter (o : Host.Outcome State Fault Refusal) : Option W8 :=
  match o with
  | .next t => some (t.mem.byte 0x10180)
  | _ => none

theorem neighbourAfter_recordComplete : neighbourAfter (exec (.recordComplete 6) releasedWord) = some 7 := by decide +kernel

/-- The word can be reached, and reaching it leaves the neighbour zero. -/
theorem engParts_releasedWord : ∃ u, (releasedWord.engParts (releasedWord.drawCtx doneDraw) none (recCompletion doneDraw.record) 8 .both) =
    .ok ([(0x10100, 8)], u) ∧ u.mem.byte 0x10180 = 0 := by
  have hparts : (match releasedWord.engParts (releasedWord.drawCtx doneDraw) none (recCompletion doneDraw.record) 8 .both with
      | .ok (l, u) => l == [(0x10100, 8)] && u.mem.byte 0x10180 == 0
      | .error _ => false) = true := by decide +kernel
  split at hparts
  · next l u h =>
    rw [Bool.and_eq_true, beq_iff_eq, beq_iff_eq] at hparts
    obtain ⟨rfl, hbyte⟩ := hparts
    exact ⟨u, h, hbyte⟩
  · cases hparts

/-- Refutes O42: a count of the completion word at 0x10100 writes back a dirty byte at 0x10180, where the statement leaves every byte outside the word
as it was. -/
theorem not_recordResults : ¬ Obligations.RecordResults := by
  intro h
  obtain ⟨-, -, ⟨t, ht, -, -, hdone, -⟩, -⟩ := h 0 6 false releasedWord
  obtain ⟨-, hcount⟩ := hdone rfl (by decide) (by decide +kernel)
  obtain ⟨u, hparts, hzero⟩ := engParts_releasedWord
  obtain ⟨-, -, hbytes⟩ := hcount (by decide +kernel) rfl 0x10100 u hparts
  have hseven := neighbourAfter_recordComplete
  rw [ht, neighbourAfter, hbytes 0x10180 (.inr (by decide)), hzero] at hseven
  exact absurd hseven (by decide)

end Sys2Proof.Machine
end
